-- ==== Sys2Proof/Word.lean ====
section
/-! DEFINITION. The plain number types of the KZ64 and their plainest arithmetic (spec/01, R12 to R19). -/
namespace Sys2Proof

/-- A time word: a 64-bit unsigned count of tu (R13). -/
abbrev TimeWord := BitVec 64

/-- A count read through a snapshot: 48 bits, wrapping (R83). -/
abbrev Count := BitVec 48

/-- A settled 32-bit count of a property table (range 0 to 2^32 - 1). -/
abbrev Count32 := BitVec 32

/-- A 16-bit sequence number (R130, R136). -/
abbrev Seq16 := BitVec 16

/-- An axis frame number: 48 bits (R31). -/
abbrev Frame := BitVec 48

/-- One byte. -/
abbrev Byte := BitVec 8

/-- One tick: 4000 tu (R12). -/
def tickTu : Nat := 4000

/-- One fabric cycle: four ticks, 16 000 tu (R12). -/
def cycleTu : Nat := 16000

/-- The number of ticks of a fabric cycle (R12). -/
def cycleTicks : Nat := 4

end Sys2Proof
end

