-- ==== Sys2Proof/Machine/Check.lean ====
section
/-! DEFINITION. Line and record check CRC-16/CCITT-FALSE and frame check CRC-32C (R67, R134, R365 to R367). -/
namespace Sys2Proof.Machine

/-- One bit step of the CRC-16, polynomial 0x1021, most significant bit first. -/
def crc16Bit (c : BitVec 16) : BitVec 16 :=
  if c.msb then (c <<< 1) ^^^ 0x1021#16 else c <<< 1

/-- Steps a function n times. -/
def iterate {α : Type} (f : α → α) : Nat → α → α
  | 0, a => a
  | n + 1, a => iterate f n (f a)

/-- One byte step of the CRC-16. -/
def crc16Byte (c : BitVec 16) (b : Byte) : BitVec 16 :=
  iterate crc16Bit 8 (c ^^^ (b.setWidth 16 <<< 8))

/-- The CRC-16/CCITT-FALSE of a byte sequence: initial value 0xFFFF, nothing reflected, no final XOR (R67). -/
def crc16 (bs : List Byte) : BitVec 16 := bs.foldl crc16Byte 0xFFFF#16

/-- One bit step of the reflected CRC-32C, polynomial 0x1EDC6F41 reflected to 0x82F63B78. -/
def crc32cBit (c : BitVec 32) : BitVec 32 :=
  if c.getLsbD 0 then (c >>> 1) ^^^ 0x82F63B78#32 else c >>> 1

/-- One byte step of the CRC-32C. -/
def crc32cByte (c : BitVec 32) (b : Byte) : BitVec 32 :=
  iterate crc32cBit 8 (c ^^^ b.setWidth 32)

/-- The CRC-32C of a byte sequence (R134): initial value and final XOR 0xFFFFFFFF. -/
def crc32c (bs : List Byte) : BitVec 32 := bs.foldl crc32cByte 0xFFFFFFFF#32 ^^^ 0xFFFFFFFF#32

/-- The n low bytes of a number, least significant byte first (R128, R135). -/
def bytesLE : Nat → Nat → List Byte
  | 0, _ => []
  | n + 1, v => BitVec.ofNat 8 v :: bytesLE n (v / 256)

/-- The n low bytes of a number, most significant byte first. -/
def bytesBE (n v : Nat) : List Byte := (bytesLE n v).reverse

/-- The number that bytes spell, least significant byte first. -/
def ofBytesLE : List Byte → Nat
  | [] => 0
  | b :: bs => b.toNat + 256 * ofBytesLE bs

/-- The number that bytes spell, most significant byte first. -/
def ofBytesBE (bs : List Byte) : Nat := ofBytesLE bs.reverse

end Sys2Proof.Machine
end

