-- ==== Sys2Proof/Machine/Time.lean ====
section
/-! DEFINITION. Time arithmetic: order of time words, saturation, rounding (R15 to R19, R24, R25). -/
namespace Sys2Proof.Machine

/-- R16, R19: the difference of two time words, read as an interval word. -/
def tdiff (a b : TimeWord) : Int := (a - b).toInt

/-- R16: a is later than b. -/
def tlater (a b : TimeWord) : Bool := decide (0 < tdiff a b)

/-- R16: a is b or later than b. -/
def tnotBefore (a b : TimeWord) : Bool := decide (0 ≤ tdiff a b)

/-- R19: a time word plus an interval word, modulo 2^64. -/
def tadd (a : TimeWord) (d : Int) : TimeWord := a + BitVec.ofInt 64 d

/-- R13: the limits of an interval word. -/
def intervalMin : Int := -(2 ^ 63 : Int)
def intervalMax : Int := 2 ^ 63 - 1

/-- R19: saturation at the interval-word limits. -/
def saturate (x : Int) : Int := if x < intervalMin then intervalMin else if intervalMax < x then intervalMax else x

/-- R31: difference of two frame numbers, by the rule of R16 with 2^48. -/
def fdiff (a b : Frame) : Int := (a - b).toInt

/-- R19, R24: the quotient of n by d (d > 0), rounded to the nearest integer with ties to even. -/
def divEven (n : Int) (d : Nat) : Int :=
  let q := n / (d : Int)
  let r := n % (d : Int)
  if 2 * r < d then q
  else if (d : Int) < 2 * r then q + 1
  else if q % 2 = 0 then q else q + 1

/-- R25: rounding to the nearest whole multiple of a resolution, ties to even multiples. -/
def roundTo (res : Nat) (v : Int) : Int := if res ≤ 1 then v else divEven v res * res

/-- R15: the tick count of a time word. -/
def tickCount (w : TimeWord) : Nat := w.toNat / tickTu

/-- R15: the fine part of a time word. -/
def finePart (w : TimeWord) : Nat := w.toNat % tickTu

end Sys2Proof.Machine
end

