-- ==== Sys2Proof/Machine/Text.lean ====
section
/-! DEFINITION. Characters, numbers and times as the Louno language writes and reads them
(R7, R21 to R24, R28, R29, R31, R33, R56, R63, R67, R552). -/
namespace Sys2Proof.Machine

/-- Text of a line while it is read: its characters. -/
abbrev Text := List Char

def isDigit (c : Char) : Bool := decide (48 ≤ c.toNat ∧ c.toNat ≤ 57)
def isUpperLetter (c : Char) : Bool := decide (65 ≤ c.toNat ∧ c.toNat ≤ 90)
def isLowerLetter (c : Char) : Bool := decide (97 ≤ c.toNat ∧ c.toNat ≤ 122)
def isLetter (c : Char) : Bool := isUpperLetter c || isLowerLetter c

/-- R56: upper case of a letter, every other character as it is. -/
def upChar (c : Char) : Char := if isLowerLetter c then Char.ofNat (c.toNat - 32) else c

/-- R56: upper case of a text. -/
def up (t : Text) : Text := t.map upChar

/-- R56: upper case of a text, as a string. -/
def upStr (t : Text) : String := String.ofList (up t)

/-- The value of a hex character, in either case (R56). -/
def hexVal (c : Char) : Option Nat :=
  let n := c.toNat
  if 48 ≤ n ∧ n ≤ 57 then some (n - 48)
  else if 65 ≤ n ∧ n ≤ 70 then some (n - 55)
  else if 97 ≤ n ∧ n ≤ 102 then some (n - 87)
  else none

/-- The number that hex characters spell, none if a character is no hex character. -/
def hexNat : Text → Option Nat
  | [] => some 0
  | cs => cs.foldl (fun acc c => match acc, hexVal c with | some a, some v => some (a * 16 + v) | _, _ => none) (some 0)

/-- The number that decimal digits spell; characters that are no digits count as their code less 48. -/
def decNat (t : Text) : Nat := t.foldl (fun a c => a * 10 + (c.toNat - 48)) 0

/-- Every character is a digit, and there is at least one. -/
def allDigits (t : Text) : Bool := !t.isEmpty && t.all isDigit

/-- R21: the limit on a run of digits that forms a number. -/
def maxDigits : Nat := 20

/-- name = letter, then letters or digits, at most 16 characters (R63). -/
def isName (t : Text) : Bool :=
  match t with
  | [] => false
  | c :: cs => isLetter c && cs.all (fun d => isLetter d || isDigit d) && decide (t.length ≤ 16)

/-- keyword = letter, then letters, digits or hyphens, at most 16 characters (R63). -/
def isKeyword (t : Text) : Bool :=
  match t with
  | [] => false
  | c :: cs => isLetter c && cs.all (fun d => isLetter d || isDigit d || d == '-') && decide (t.length ≤ 16)

/-- Splits at every occurrence of a character. -/
def splitOn (sep : Char) : Text → List Text
  | [] => [[]]
  | c :: cs =>
    match splitOn sep cs with
    | [] => [[]]
    | w :: ws => if c == sep then [] :: w :: ws else (c :: w) :: ws

/-- Splits a list item by item together with the offset of each item from the start. -/
def splitCols (sep : Char) (t : Text) : List (Nat × Text) :=
  (splitOn sep t).foldl (fun acc w => (acc.1 ++ [(acc.2, w)], acc.2 + w.length + 1)) (([] : List (Nat × Text)), 0) |>.1

/-- The characters before the first occurrence of c, and those after it (none: c does not occur). -/
def cutAt (c : Char) : Text → Text × Option Text
  | [] => ([], none)
  | d :: ds => if d == c then ([], some ds) else let r := cutAt c ds; (d :: r.1, r.2)

/-! ### Reading times (R21 to R24) -/

/-- The unit suffixes: tu per unit as a fraction (R12, R22). Suffixes are case-sensitive. -/
def unitOf (t : Text) : Option (Nat × Nat) :=
  if t == ['f', 's'] then some (1, 100)
  else if t == ['p', 's'] then some (10, 1)
  else if t == ['n', 's'] then some (10000, 1)
  else if t == ['u', 's'] then some (10000000, 1)
  else if t == ['m', 's'] then some (10000000000, 1)
  else if t == ['s'] then some (10000000000000, 1)
  else if t == ['t'] then some (4000, 1)
  else none

/-- An exponent: e or E, an optional sign, then a digit (R21: a number has none). -/
def isExponent (t : Text) : Bool :=
  match t with
  | e :: d :: rest =>
    (e == 'e' || e == 'E') &&
      (isDigit d || ((d == '+' || d == '-') && (match rest with | x :: _ => isDigit x | [] => false)))
  | _ => false

/-- The parts of a number with no sign (R21): its digits before and after the point, and what follows it. None: it is
malformed, which R21 answers with ER 104. -/
def readNumber (body : Text) : Option (Text × Text × Text) :=
  let ip := body.takeWhile isDigit
  let rest := body.dropWhile isDigit
  let (fp, suffix, badPoint) := match rest with
    | '.' :: r => (r.takeWhile isDigit, r.dropWhile isDigit, (r.takeWhile isDigit).isEmpty)
    | r => ([], r, false)
  if ip.isEmpty || badPoint || decide (maxDigits < ip.length + fp.length) then none
  else if (match suffix with | '.' :: _ => true | _ => false) || isExponent suffix then none
  else some (ip, fp, suffix)

/-- R21 to R24: reads a time value and rounds it once to the nearest tu, ties to even; the error is the code. The limit of
R21 holds also for a time in the FS form of R29 that has more than 20 digits. (DEDUCED, notes/assumptions/84.md) -/
def readTime (signed : Bool) (t : Text) : Except Nat Int :=
  if t == ['0'] then .ok 0
  else
    let (neg, hasSign, body) := match t with
      | '+' :: r => (false, true, r)
      | '-' :: r => (true, true, r)
      | r => (false, false, r)
    if hasSign && !signed then .error 104
    else match readNumber body with
      | none => .error 104
      | some (ip, fp, suffix) =>
        match unitOf suffix with
        | none => .error 105
        | some (num, den) =>
          let n : Nat := decNat (ip ++ fp) * num
          let d : Nat := 10 ^ fp.length * den
          let v := divEven (n : Int) d
          .ok (if neg then -v else v)

/-! ### Reading axis positions (R31 to R34) -/

/-- A position as written: frame number or relative count, and the text of its offset. -/
structure PosText where
  rel : Bool
  count : Nat
  off : Text
  deriving DecidableEq, Repr

/-- A value that begins with F or f (R33). -/
def isPosText (t : Text) : Bool := match t with | c :: _ => c == 'F' || c == 'f' | [] => false

/-- R33: the form of a position. Errors: 106 form, 104 malformed frame or count, 301 range (an execution code). -/
def readPos (t : Text) : Except Nat PosText :=
  let body := t.drop 1
  let (rel, r) := match body with | '+' :: r => (true, r) | r => (false, r)
  match cutAt '+' r with
  | (_, none) => .error 106
  | (n, some off) =>
    match n with
    | [] => .error 106
    | c :: _ =>
      if !isDigit c then .error 106
      else if off.isEmpty || off.contains '+' || off.head? == some '-' then .error 106
      else if !n.all isDigit || decide (maxDigits < n.length) then .error 104
      else .ok ⟨rel, decNat n, off⟩

/-- R32, R33: the offset of a position: a bare count on an INCREMENT axis, a time without sign elsewhere. A number comes
before its unit: malformed it gets ER 104, well-formed with a unit on an INCREMENT axis ER 105. -/
def readOffset (incr : Bool) (off : Text) : Except Nat Int :=
  if incr then
    match readNumber off with
    | none => .error 104
    | some (ip, fp, suffix) =>
      if (unitOf suffix).isSome then .error 105
      else if suffix.isEmpty && fp.isEmpty then .ok (decNat ip)
      else .error 104
  else match off with
    | c :: _ => if isDigit c || c == '.' then readTime false off else .error 104
    | [] => .error 104

/-! ### Writing numbers and times (R28, R29) -/

/-- A decimal number. -/
def dec (n : Nat) : String := toString n

/-- A decimal integer with a leading - if negative. -/
def decInt (i : Int) : String := if i < 0 then "-" ++ dec i.natAbs else dec i.natAbs

/-- n as a decimal number of exactly w digits or more, zeros in front. -/
def decPad (w n : Nat) : Text :=
  let d := (dec n).toList
  List.replicate (w - d.length) '0' ++ d

/-- The hex digit of a number below 16, upper case. -/
def hexDigit (n : Nat) : Char := if n < 10 then Char.ofNat (48 + n) else Char.ofNat (55 + n)

/-- n as w upper-case hex digits. -/
def hexPad : Nat → Nat → Text
  | 0, _ => []
  | w + 1, n => hexPad w (n / 16) ++ [hexDigit (n % 16)]

/-- n in hex without leading zeros, at least one digit. -/
def hexMin (n : Nat) : Text :=
  match (hexPad 32 n).dropWhile (fun c => c == '0') with
  | [] => ['0']
  | t => t

/-- Drops the zeros at the end. -/
def dropTrailing (t : Text) : Text := (t.reverse.dropWhile (fun c => c == '0')).reverse

/-- v / 10^places exactly, without trailing zeros or a bare point. -/
def fixedPoint (places v : Nat) : String :=
  let f := dropTrailing (decPad places (v % 10 ^ places))
  if f.isEmpty then dec (v / 10 ^ places) else dec (v / 10 ^ places) ++ "." ++ String.ofList f

/-- SYS.TIMEFMT (R29). -/
inductive TimeFmt | human | fs
  deriving DecidableEq, Repr

/-- R28: the HUMAN form. -/
def humanTime (v : Int) : String :=
  let m := v.natAbs
  let s :=
    if m < 10 ^ 4 then fixedPoint 1 m ++ "ps"
    else if m < 10 ^ 7 then fixedPoint 4 m ++ "ns"
    else if m < 10 ^ 10 then fixedPoint 7 m ++ "us"
    else if m < 10 ^ 13 then fixedPoint 10 m ++ "ms"
    else fixedPoint 13 m ++ "s"
  if v < 0 then "-" ++ s else s

/-- R28, R29: a time in the report form. -/
def fmtTime (f : TimeFmt) (v : Int) : String :=
  match f with
  | .human => humanTime v
  | .fs => decInt (v * 100) ++ "fs"

/-- The bytes of a text, one byte a character. -/
def textBytes (t : Text) : List Byte := t.map (fun c => BitVec.ofNat 8 c.toNat)

/-- R67: the check of a body. -/
def lineCheck (body : Text) : Nat := (crc16 (textBytes body)).toNat

end Sys2Proof.Machine
end

