-- ==== Sys2Proof/Machine/Objects.lean ====
section
/-! DEFINITION. The objects of the KZ64, their names and their parents (R69), and the Louno commands as data
(R63, R70). -/
namespace Sys2Proof

/-- R69: the objects of the object tree. -/
inductive Obj
  | sys | ref | refx (x : Fin 4) | ax (a : Fin 4) | cl (k : Fin 8) | port (n : Fin 64) | trg (n : Fin 8)
  | mf (m : Fin 16) | evt | src (e : Fin 384) | tk (n : Fin 320) | grp (g : Fin 8) | seg | segn (n : Fin 4096)
  | mk (n : Fin 16) | ag (n : Fin 8) | cal | bel | wake (n : Fin 4) | sp | con | hspi
  deriving DecidableEq, Repr

/-- The two command links (R59). -/
inductive Link | con | hspi
  deriving DecidableEq, Repr

namespace Machine

/-- One number of a name form, with exactly w digits and below n. -/
def readIdx (w n : Nat) (t : Text) : Option (Fin n) :=
  if t.length == w && allDigits t then
    (if h : decNat t < n then some ⟨decNat t, h⟩ else none)
  else none

/-- MF0 to MF15 and MK0 to MK15: one or two digits, no leading zero. -/
def readIdx16 (t : Text) : Option (Fin 16) :=
  if t.length == 1 then readIdx 1 16 t
  else if t.length == 2 && t.head? == some '1' then readIdx 2 16 t
  else none

/-- R69: the object that an upper-case name names. -/
def objOf (t : Text) : Option Obj :=
  let letters := t.takeWhile isUpperLetter
  let digits := t.dropWhile isUpperLetter
  let w := String.ofList letters
  if digits.isEmpty then
    if w == "SYS" then some .sys
    else if w == "REF" then some .ref
    else if w == "REFA" then some (.refx 0)
    else if w == "REFB" then some (.refx 1)
    else if w == "REFC" then some (.refx 2)
    else if w == "REFD" then some (.refx 3)
    else if w == "EVT" then some .evt
    else if w == "SEG" then some .seg
    else if w == "CAL" then some .cal
    else if w == "BEL" then some .bel
    else if w == "SP" then some .sp
    else if w == "CON" then some .con
    else if w == "HSPI" then some .hspi
    else none
  else if w == "P" then (readIdx 2 64 digits).map .port
  else if w == "AX" then (readIdx 1 4 digits).map .ax
  else if w == "CL" then (readIdx 1 8 digits).map .cl
  else if w == "TRG" then (readIdx 1 8 digits).map .trg
  else if w == "MF" then (readIdx16 digits).map .mf
  else if w == "E" then (readIdx 3 384 digits).map .src
  else if w == "TK" then (readIdx 3 320 digits).map .tk
  else if w == "G" then (readIdx 1 8 digits).map .grp
  else if w == "SEG" then (readIdx 4 4096 digits).map .segn
  else if w == "MK" then (readIdx16 digits).map .mk
  else if w == "AG" then (readIdx 1 8 digits).map .ag
  else if w == "WAKE" then (readIdx 1 4 digits).map .wake
  else none

/-- R552: the letters of a name form of R69 followed by digits. -/
def hasObjForm (t : Text) : Bool :=
  let w := String.ofList (t.takeWhile isUpperLetter)
  let digits := t.dropWhile isUpperLetter
  allDigits digits && ["P", "AX", "CL", "TRG", "MF", "E", "TK", "G", "SEG", "MK", "AG", "WAKE"].contains w

/-- The letter of a reference. -/
def refLetter (x : Fin 4) : String := match x with | 0 => "A" | 1 => "B" | 2 => "C" | 3 => "D"

def padStr (w n : Nat) : String := String.ofList (decPad w n)

/-- R69: the name of an object. -/
def objName : Obj → String
  | .sys => "SYS" | .ref => "REF" | .refx x => "REF" ++ refLetter x | .ax a => "AX" ++ dec a.val
  | .cl k => "CL" ++ dec k.val | .port n => "P" ++ padStr 2 n.val | .trg n => "TRG" ++ dec n.val
  | .mf m => "MF" ++ dec m.val | .evt => "EVT" | .src e => "E" ++ padStr 3 e.val | .tk n => "TK" ++ padStr 3 n.val
  | .grp g => "G" ++ dec g.val | .seg => "SEG" | .segn n => "SEG" ++ padStr 4 n.val | .mk n => "MK" ++ dec n.val
  | .ag n => "AG" ++ dec n.val | .cal => "CAL" | .bel => "BEL" | .wake n => "WAKE" ++ dec n.val | .sp => "SP"
  | .con => "CON" | .hspi => "HSPI"

/-- The cluster of a port: eight ports each (R69, R10). -/
def clusterOf (n : Fin 64) : Fin 8 := ⟨n.val / 8, by omega⟩

/-- The port number i of cluster k. -/
def portOf (k : Fin 8) (i : Fin 8) : Fin 64 := ⟨8 * k.val + i.val, by omega⟩

/-- R69: the children of an object, in the order of the table. -/
def children : Option Obj → List Obj
  | none | some .sys =>
    [.ref] ++ (List.finRange 4).map .ax ++ (List.finRange 8).map .cl ++ (List.finRange 8).map .trg
      ++ (List.finRange 16).map .mf ++ [.evt] ++ (List.finRange 8).map .grp ++ [.seg] ++ (List.finRange 16).map .mk
      ++ (List.finRange 8).map .ag ++ [.cal, .bel, .sp, .con, .hspi]
  | some .ref => (List.finRange 4).map .refx
  | some (.cl k) => (List.finRange 8).map (fun i => .port (portOf k i))
  | some .evt => (List.finRange 384).map .src ++ (List.finRange 320).map .tk
  | some .seg => (List.finRange 4096).map .segn
  | some .bel => (List.finRange 4).map .wake
  | some _ => []

/-- An object argument as written: an object, or an upper-case name that names none (ER 201). -/
inductive ObjArg | ok (o : Obj) | bad (name : String)
  deriving DecidableEq, Repr

def ObjArg.name : ObjArg → String
  | .ok o => objName o
  | .bad n => n

/-- The text of a value with the column of its first character. -/
structure RawVal where
  col : Nat
  text : String
  deriving DecidableEq, Repr

/-- path = object-name . name ..., names in upper case (R63). -/
structure PathRef where
  obj : ObjArg
  prop : String
  deriving DecidableEq, Repr

def PathRef.name (p : PathRef) : String := p.obj.name ++ "." ++ p.prop

/-- assignment = path = value (R63). -/
structure Assign where
  path : PathRef
  value : RawVal
  deriving DecidableEq, Repr

/-- A 1xx rejection with its column (R79). -/
structure SynErr where
  code : Nat
  col : Nat
  deriving DecidableEq, Repr

/-- target-clause: AT or IN with the text of its target (R63, R73). -/
structure Clause where
  isIn : Bool
  value : RawVal
  deriving DecidableEq, Repr

/-- An assignment REPEAT= or EVERY= of a SCHED line, as written. -/
structure KeyVal where
  key : String
  value : RawVal
  deriving DecidableEq, Repr

/-- A command of R70, its arguments as written. -/
inductive Cmd
  | get (ps : List PathRef)
  | set (as : List Assign)
  | showObject (o : ObjArg)
  | list (o : Option ObjArg)
  | help (topic : Option String)
  | snapshot
  | fire (o : ObjArg)
  | arm (o : ObjArg)
  | disarm (o : ObjArg)
  | halt (o : Option ObjArg)
  | step (o : ObjArg)
  | mark (o : ObjArg)
  | sched (o : ObjArg) (t : Clause) (kv : List KeyVal)
  | cancel (o : ObjArg) (t : Option RawVal)
  | start (o : ObjArg)
  | abort (o : ObjArg)
  | drain (o : ObjArg) (discard : Bool)
  | powerOff (o : ObjArg)
  | powerOn (o : ObjArg)
  | join (o : ObjArg) (t : Option RawVal)
  | prog (o : ObjArg) (index : RawVal) (text : RawVal)
  | progClear (o : ObjArg)
  | clusterReset (k : Fin 8)
  | sysReset | sysFeatures | sysVersion | sysRestart | sysUpdate | sysSleep
  | calExport (o : ObjArg)
  | calImport (o : ObjArg) (i n : Nat) (block : List Byte)
  | segDefine (o : ObjArg) (length : RawVal)
  | segFree (o : ObjArg)
  | belLog | belClear
  | loadSize (n : RawVal)
  | loadData (off : RawVal) (block : List Byte)
  | loadStatus | loadGo
  deriving DecidableEq, Repr

/-- What the parser makes of a command: the command, and the first syntax error that stands behind its parsed part. -/
structure Parsed where
  cmd : Cmd
  tail : Option SynErr
  deriving DecidableEq, Repr

end Machine
end Sys2Proof
end

