-- ==== Sys2Proof/Machine/Parse.lean ====
section
/-! DEFINITION. The Louno parser: a line's characters to its parts and its command (R53 to R58, R61, R63 to R70, R75,
R79, R368, R370, R472). Field types of values are not needed here: a value stays text until it meets its field. -/
namespace Sys2Proof.Machine

/-- A token and the column of its first character. -/
structure Tok where
  col : Nat
  text : Text
  deriving DecidableEq, Repr

/-- R57: the tokens of a text whose first character stands at column c. -/
def tokensFrom : Nat → Text → Option Tok → List Tok
  | _, [], none => []
  | _, [], some t => [⟨t.col, t.text.reverse⟩]
  | c, x :: xs, cur =>
    if x == ' ' then
      match cur with
      | none => tokensFrom (c + 1) xs none
      | some t => ⟨t.col, t.text.reverse⟩ :: tokensFrom (c + 1) xs none
    else
      match cur with
      | none => tokensFrom (c + 1) xs (some ⟨c, [x]⟩)
      | some t => tokensFrom (c + 1) xs (some ⟨t.col, x :: t.text⟩)

/-- A character that may stand in a token: 0x21 to 0x7E except ~ (R53, R57, R368). -/
def isTokenChar (c : Char) : Bool := decide (33 ≤ c.toNat ∧ c.toNat ≤ 125)

/-- What a parser of arguments works on: the tokens still to read and the column after the last character. -/
structure Cursor where
  toks : List Tok
  endCol : Nat
  deriving DecidableEq, Repr

abbrev Syn (α : Type) := Except SynErr α

def synErr {α : Type} (code col : Nat) : Syn α := .error ⟨code, col⟩

/-- R53, R57, R63: characters of a token, spaces beside separators, a value missing after =. -/
def checkTok (t : Tok) : Syn Unit :=
  if t.text.any (fun c => !isTokenChar c) then synErr 103 t.col
  else match t.text, t.text.getLast? with
    | '=' :: _, _ => synErr 103 t.col
    | _, some '=' => synErr 103 (t.col + t.text.length)
    | c :: _, some l =>
      if c == ',' || c == '/' then synErr 103 t.col
      else if t.text.contains '=' || isDigit c || c == '+' || c == '-' || c == '.' || isPosText t.text then .ok ()
      else if l == '.' || l == ',' || l == '/' || l == ':' || l == '-' then synErr 103 t.col
      else .ok ()
    | _, _ => .ok ()

/-- The next token, checked, or the code for a token that is missing (R79). -/
def nextTok (missing : Nat) (k : Cursor) : Syn (Tok × Cursor) :=
  match k.toks with
  | [] => synErr missing k.endCol
  | t :: ts => do checkTok t; return (t, { k with toks := ts })

/-- R65: no argument is left. -/
def noMore (k : Cursor) : Option SynErr :=
  match k.toks with
  | [] => none
  | t :: _ => match checkTok t with
    | .error e => some e
    | .ok _ => some ⟨102, t.col⟩

/-- The object a name names, or the name if it names none. -/
def objArg (t : Text) : ObjArg :=
  match objOf (up t) with
  | some o => .ok o
  | none => .bad (upStr t)

/-- An object argument (R65, R69): a token that is no name is misplaced. -/
def takeObj (k : Cursor) : Syn (ObjArg × Cursor) := do
  let (t, k) ← nextTok 102 k
  if isName t.text then return (objArg t.text, k) else synErr 102 t.col

/-- A keyword argument, in upper case (R65). -/
def takeWord (ws : List String) (k : Cursor) : Syn (String × Cursor) := do
  let (t, k) ← nextTok 102 k
  if ws.contains (upStr t.text) then return (upStr t.text, k) else synErr 102 t.col

/-- path = object-name . name ..., at most four names (R63). -/
def readPath (col : Nat) (t : Text) : Syn PathRef :=
  match splitOn '.' t with
  | [] | [_] => synErr 102 col
  | o :: ns =>
    if decide (4 < ns.length) || !isName o || !ns.all isName then synErr 103 col
    else .ok ⟨objArg o, String.intercalate "." (ns.map upStr)⟩

/-- The paths of a GET. An assignment among them is misplaced (R65). -/
def readPaths : List Tok → Syn (List PathRef)
  | [] => .ok []
  | t :: ts => do
    checkTok t
    match cutAt '=' t.text with
    | (p, some _) => do let _ ← readPath t.col p; synErr 102 t.col
    | (_, none) => do
      let p ← readPath t.col t.text
      let ps ← readPaths ts
      return p :: ps

/-- One assignment path = value. -/
def readAssign (t : Tok) : Syn Assign := do
  checkTok t
  match cutAt '=' t.text with
  | (_, none) => synErr 102 t.col
  | (p, some v) =>
    let path ← readPath t.col p
    return ⟨path, ⟨t.col + p.length + 1, String.ofList v⟩⟩

/-- The assignments of a SET up to the first syntax error, which the second part gives. -/
def readAssigns : List Tok → List Assign × Option SynErr
  | [] => ([], none)
  | t :: ts => match readAssign t with
    | .error e => ([], some e)
    | .ok a => let r := readAssigns ts; (a :: r.1, r.2)

/-- REPEAT= and EVERY=, each at most once and both together (R70, R73). -/
def readKeyVals (endCol : Nat) : List Tok → List String → List KeyVal × Option SynErr
  | [], seen => ([], if seen.length == 1 then some ⟨102, endCol⟩ else none)
  | t :: ts, seen => match checkTok t with
    | .error e => ([], some e)
    | .ok _ => match cutAt '=' t.text with
      | (_, none) => ([], some ⟨102, t.col⟩)
      | (p, some v) =>
        let key := upStr p
        if (key == "REPEAT" || key == "EVERY") && !seen.contains key then
          let r := readKeyVals endCol ts (key :: seen)
          (⟨key, ⟨t.col + p.length + 1, String.ofList v⟩⟩ :: r.1, r.2)
        else ([], some ⟨102, t.col⟩)

/-- A hex-block: a colon and an even number of hex characters, 2 to 192 (R63, R64). -/
def readHexBlock (t : Tok) : Syn (List Byte) :=
  match t.text with
  | ':' :: h =>
    if decide (2 ≤ h.length ∧ h.length ≤ 192) && h.length % 2 == 0 && h.all (fun c => (hexVal c).isSome) then
      .ok (bytesBE (h.length / 2) ((hexNat h).getD 0))
    else synErr 107 t.col
  | _ => synErr 102 t.col

/-- fraction = digits / digits (R63). A side that is no well-formed number gets ER 104, whatever it begins with (R361). -/
def readFraction (t : Tok) : Syn (Nat × Nat) :=
  match cutAt '/' t.text with
  | (_, none) => synErr 102 t.col
  | (a, some b) =>
    if allDigits a && allDigits b && decide (a.length ≤ maxDigits ∧ b.length ≤ maxDigits) then
      .ok (decNat a, decNat b)
    else synErr 104 t.col

/-- A command with nothing wrong behind its arguments unless an argument is left over. -/
def closed (c : Cmd) (k : Cursor) : Syn Parsed := .ok ⟨c, noMore k⟩

def rawOf (t : Tok) : RawVal := ⟨t.col, String.ofList t.text⟩

/-- The token of a value that stands alone, such as a target. -/
def takeRaw (k : Cursor) : Syn (RawVal × Cursor) := do
  let (t, k) ← nextTok 102 k
  return (rawOf t, k)

/-- A verb whose one argument is an object. -/
def oneObj (f : ObjArg → Cmd) (k : Cursor) : Syn Parsed := do
  let (o, k) ← takeObj k
  closed (f o) k

/-- The text from column c (counted from 1) of the line to the end of the body, spaces at the end dropped. -/
def textFrom (body : Text) (c : Nat) : Text :=
  ((body.drop (c - 1)).reverse.dropWhile (fun x => x == ' ')).reverse

/-- The unscoped verbs of R70 and their forms. -/
def parseVerb (body : Text) (verb : String) (col : Nat) (k : Cursor) : Syn Parsed :=
  if verb == "GET" then do
    let ps ← if k.toks.isEmpty then synErr 102 k.endCol else readPaths k.toks
    return ⟨.get ps, none⟩
  else if verb == "SET" then
    if k.toks.isEmpty then synErr 102 k.endCol
    else let r := readAssigns k.toks; .ok ⟨.set r.1, r.2⟩
  else if verb == "SHOW" then oneObj .showObject k
  else if verb == "LIST" then
    if k.toks.isEmpty then .ok ⟨.list none, none⟩ else oneObj (fun o => .list (some o)) k
  else if verb == "HELP" then
    if k.toks.isEmpty then .ok ⟨.help none, none⟩
    else do
      let (t, k) ← nextTok 102 k
      if isName t.text then closed (.help (some (upStr t.text))) k else synErr 102 t.col
  else if verb == "SNAPSHOT" then closed .snapshot k
  else if verb == "FIRE" then oneObj .fire k
  else if verb == "ARM" then oneObj .arm k
  else if verb == "DISARM" then oneObj .disarm k
  else if verb == "HALT" then do
    let (t, k) ← nextTok 102 k
    if upStr t.text == "ALL" then closed (.halt none) k
    else if isName t.text then closed (.halt (some (objArg t.text))) k
    else synErr 102 t.col
  else if verb == "STEP" then oneObj .step k
  else if verb == "MARK" then oneObj .mark k
  else if verb == "SCHED" then do
    let (o, k) ← takeObj k
    let (w, k) ← takeWord ["AT", "IN"] k
    let (v, k) ← takeRaw k
    let r := readKeyVals k.endCol k.toks []
    return ⟨.sched o ⟨w == "IN", v⟩ r.1, r.2⟩
  else if verb == "CANCEL" then do
    let (o, k) ← takeObj k
    let (w, k) ← takeWord ["AT", "ALL"] k
    if w == "ALL" then closed (.cancel o none) k
    else do
      let (v, k) ← takeRaw k
      closed (.cancel o (some v)) k
  else if verb == "START" then oneObj .start k
  else if verb == "ABORT" then oneObj .abort k
  else if verb == "DRAIN" then do
    let (o, k) ← takeObj k
    if k.toks.isEmpty then return ⟨.drain o false, none⟩
    else do
      let (_, k) ← takeWord ["DISCARD"] k
      closed (.drain o true) k
  else if verb == "POWER" then do
    let (o, k) ← takeObj k
    let (w, k) ← takeWord ["OFF", "ON"] k
    closed (if w == "OFF" then .powerOff o else .powerOn o) k
  else if verb == "JOIN" then do
    let (o, k) ← takeObj k
    let (w, k) ← takeWord ["AT", "NEXT"] k
    if w == "NEXT" then closed (.join o none) k
    else do
      let (v, k) ← takeRaw k
      closed (.join o (some v)) k
  else if verb == "PROG" then do
    let (o, k) ← takeObj k
    let (t, k) ← nextTok 102 k
    if upStr t.text == "CLEAR" then closed (.progClear o) k
    else match t.text with
      | c :: _ =>
        if isDigit c || c == '+' || c == '-' || c == '.' then
          match k.toks with
          | [] => return ⟨.prog o (rawOf t) ⟨k.endCol, ""⟩, some ⟨102, k.endCol⟩⟩
          | u :: _ =>
            let bad := k.toks.find? (fun x => x.text.any (fun c => !isTokenChar c))
            return ⟨.prog o (rawOf t) ⟨u.col, String.ofList (textFrom body u.col)⟩, bad.map (fun x => ⟨103, x.col⟩)⟩
        else synErr 102 t.col
      | [] => synErr 102 t.col
  else synErr 101 col

/-- The scoped verbs of R70. -/
def parseScoped (scope : Obj) (k : Cursor) : Syn Parsed := do
  match k.toks with
  | [] => synErr 101 k.endCol
  | t :: ts =>
    checkTok t
    let v := upStr t.text
    let k : Cursor := { k with toks := ts }
    match scope with
    | .cl n => if v == "RESET" then closed (.clusterReset n) k else synErr 101 t.col
    | .sys =>
      if v == "RESET" then closed .sysReset k
      else if v == "FEATURES" then closed .sysFeatures k
      else if v == "VERSION" then closed .sysVersion k
      else if v == "RESTART" then closed .sysRestart k
      else if v == "UPDATE" then closed .sysUpdate k
      else if v == "SLEEP" then closed .sysSleep k
      else synErr 101 t.col
    | .cal =>
      if v == "EXPORT" then oneObj .calExport k
      else if v == "IMPORT" then do
        let (o, k) ← takeObj k
        let (f, k) ← nextTok 102 k
        let (i, n) ← readFraction f
        let (b, k) ← nextTok 102 k
        let bs ← readHexBlock b
        closed (.calImport o i n bs) k
      else synErr 101 t.col
    | .seg =>
      if v == "DEFINE" then do
        let (o, k) ← takeObj k
        let (a, k) ← nextTok 102 k
        match cutAt '=' a.text with
        | (p, some x) =>
          if upStr p == "LENGTH" then closed (.segDefine o ⟨a.col + p.length + 1, String.ofList x⟩) k
          else synErr 102 a.col
        | (_, none) => synErr 102 a.col
      else if v == "FREE" then oneObj .segFree k
      else synErr 101 t.col
    | .bel =>
      if v == "LOG" then closed .belLog k
      else if v == "CLEAR" then closed .belClear k
      else synErr 101 t.col
    | _ => synErr 101 t.col

/-- R63: the scope a first token opens, if it opens one. -/
def scopeOf (t : Text) : Option Obj :=
  match objOf (up t) with
  | some .sys => some .sys
  | some .cal => some .cal
  | some .seg => some .seg
  | some .bel => some .bel
  | some (.cl k) => some (.cl k)
  | _ => none

/-- command = verb-command | scoped-command (R63). -/
def parseCommand (body : Text) (k : Cursor) : Syn Parsed :=
  match k.toks with
  | [] => synErr 101 k.endCol
  | t :: ts => do
    checkTok t
    match scopeOf t.text with
    | some o => parseScoped o { k with toks := ts }
    | none => parseVerb body (upStr t.text) t.col { k with toks := ts }

/-- R472: the only verbs of the boot ROM's download mode. (DEDUCED, notes/assumptions/72.md) -/
def parseDownload (k : Cursor) : Syn Parsed :=
  match k.toks with
  | [] => synErr 101 k.endCol
  | t :: ts => do
    checkTok t
    if upStr t.text != "LOAD" then synErr 101 t.col
    else
      let (a, k) ← nextTok 102 { k with toks := ts }
      let w := upStr a.text
      if w == "STATUS" then closed .loadStatus k
      else if w == "GO" then closed .loadGo k
      else match cutAt '=' a.text with
        | (p, some x) =>
          if upStr p == "SIZE" then closed (.loadSize ⟨a.col + p.length + 1, String.ofList x⟩) k
          else synErr 102 a.col
        | (_, none) => do
          let (b, k) ← nextTok 102 k
          let bs ← readHexBlock b
          closed (.loadData (rawOf a) bs) k

/-! ### The urgent forms (R75) -/

/-- One place of an urgent form. -/
inductive Slot | port | portOrTask | group | groupOrAll | axis | word (ws : List String) | value
  deriving DecidableEq, Repr

/-- R75: the forms the fast path admits. -/
def urgentForms (verb : String) : List (List Slot) :=
  if verb == "FIRE" then [[.portOrTask]]
  else if verb == "ARM" || verb == "DISARM" then [[.port]]
  else if verb == "HALT" then [[.groupOrAll]]
  else if verb == "STEP" then [[.group]]
  else if verb == "MARK" then [[.axis]]
  else if verb == "SCHED" then [[.port, .word ["AT", "IN"], .value]]
  else if verb == "CANCEL" then [[.port, .word ["AT"], .value], [.port, .word ["ALL"]]]
  else []

/-- Whether a token may stand at a place of a form. A name of no object is left to ER 201 (R110).
(DEDUCED, notes/assumptions/66.md) -/
def slotAdmits (s : Slot) (t : Text) : Bool :=
  match s with
  | .value => true
  | .word ws => ws.contains (upStr t)
  | .groupOrAll => upStr t == "ALL" || (match objOf (up t) with | some (.grp _) => true | some _ => false | none => isName t)
  | _ => match s, objOf (up t) with
    | .port, some (.port _) | .portOrTask, some (.port _) | .portOrTask, some (.tk _) | .group, some (.grp _)
    | .axis, some (.ax _) => true
    | _, some _ => false
    | _, none => isName t

/-- How many tokens a form takes before the first that it does not admit; none if it admits all.
(DEDUCED, notes/assumptions/66.md) -/
def formMismatch : List Slot → List Tok → Nat → Option Nat
  | [], [], _ => none
  | [], _ :: _, n => some n
  | _ :: _, [], n => some n
  | s :: ss, t :: ts, n => if slotAdmits s t.text then formMismatch ss ts (n + 1) else some n

/-- R75, R79: ER 130 or ER 131 of a `!` line, none if it is admitted. (DEDUCED, notes/assumptions/66.md) -/
def urgentErr (k : Cursor) : Option SynErr :=
  match k.toks with
  | [] => some ⟨130, k.endCol⟩
  | t :: ts =>
    match t.text with
    | '!' :: v =>
      match urgentForms (upStr v) with
      | [] => some ⟨130, t.col + 1⟩
      | fs =>
        let ms := fs.map (fun f => formMismatch f ts 0)
        if ms.any (fun m => m.isNone) then none
        else
          let best := ms.foldl (fun b m => max b (m.getD 0)) 0
          some ⟨131, match ts[best]? with | some u => u.col | none => k.endCol⟩
    | _ => some ⟨130, t.col⟩

/-- The cursor of a `!` line without its `!`. -/
def dropBang (k : Cursor) : Cursor :=
  match k.toks with
  | ⟨c, _ :: v⟩ :: ts => { k with toks := ⟨c + 1, v⟩ :: ts }
  | _ => k

/-! ### The parts of a line -/

/-- What the host-link logic finds in a line (R67, R68, R368 to R370). -/
structure LineParts where
  body : Text
  check : Option Nat          -- the check as received
  tag : Option String         -- a well-formed tag
  tagBad : Bool               -- an @ with no well-formed tag-part
  urgent : Bool               -- the first character after the tag-part is !
  cursor : Cursor
  deriving DecidableEq, Repr

/-- R368: the body and the check of a line. -/
def splitCheck (line : Text) : Text × Option Nat :=
  let n := line.length - 5
  match line.drop n with
  | ['~', a, b, c, d] => match hexNat [a, b, c, d] with
    | some v => (line.take n, some v)
    | none => (line, none)
  | _ => (line, none)

def isTagChar (c : Char) : Bool := isLetter c || isDigit c

/-- R63, R66, R370: the parts of a line. -/
def lineParts (line : Text) : LineParts :=
  let (body, check) := splitCheck line
  let lead := (body.takeWhile (fun c => c == ' ')).length
  let rest := body.drop lead
  let endCol := (body.reverse.dropWhile (fun c => c == ' ')).length + 1
  match rest with
  | '@' :: r =>
    let tag := r.takeWhile (fun c => c != ' ')
    let after := r.dropWhile (fun c => c != ' ')
    let ok := !after.isEmpty && decide (1 ≤ tag.length ∧ tag.length ≤ 8) && tag.all isTagChar
    if ok then
      let sp := (after.takeWhile (fun c => c == ' ')).length
      let cmd := after.drop sp
      let col := lead + 1 + tag.length + sp + 1
      ⟨body, check, some (String.ofList tag), false, cmd.head? == some '!', ⟨tokensFrom col cmd none, endCol⟩⟩
    else ⟨body, check, none, true, false, ⟨tokensFrom (lead + 1) rest none, endCol⟩⟩
  | _ => ⟨body, check, none, false, rest.head? == some '!', ⟨tokensFrom (lead + 1) rest none, endCol⟩⟩

/-- R58: a line that is empty or holds only spaces. -/
def isBlank (line : Text) : Bool := line.all (fun c => c == ' ')

end Sys2Proof.Machine
end

