-- ==== Sys2Proof/Machine/Fields.lean ====
section
/-! DEFINITION. Values of properties: how a value is classified, read against its field, and reported
(R25 to R29, R31 to R36, R63, R64, R552, R553). -/
namespace Sys2Proof.Machine

/-- A stored value that is no list, as it is reported (R27, R78). -/
inductive Atom
  | int (i : Int)
  | time (v : Int)
  | hex (digits n : Nat)                 -- digits 0: as many as the number needs
  | kw (k : String)
  | obj (o : Obj)
  | pos (frame : Nat) (off : Int) (isCount : Bool)
  | range (lo hi : Nat)                  -- an item of an event set
  | pair (k : String) (o : Obj)          -- an item that names a signal or an object
  deriving DecidableEq, Repr

/-- A stored value; the empty list reads NONE. -/
inductive Value
  | one (a : Atom)
  | list (vs : List Atom)
  deriving DecidableEq, Repr

@[reducible] def Value.int (i : Int) : Value := .one (.int i)
@[reducible] def Value.time (v : Int) : Value := .one (.time v)
@[reducible] def Value.hex (d n : Nat) : Value := .one (.hex d n)
@[reducible] def Value.kw (k : String) : Value := .one (.kw k)
@[reducible] def Value.obj (o : Obj) : Value := .one (.obj o)
@[reducible] def Value.evset (rs : List (Nat × Nat)) : Value := .list (rs.map (fun r => .range r.1 r.2))

/-- A position as a field holds it: a frame, absolute or counted from the current one, and the text of its offset. -/
inductive ReadVal
  | val (v : Value)
  | pos (p : PosText)
  deriving DecidableEq, Repr

/-- What a field admits (its Units and Range columns). -/
inductive FieldTy
  | time (signed : Bool) (res : Nat) (lo hi : Int) (kws : List String) (admitsPos : Bool)
  | int (signed : Bool) (lo hi : Int) (kws : List String)
  | intOf (vals : List Int)
  | hex (digits : Nat) (hi : Nat)
  | kw (ks : List String)
  | objs (kws : List String) (admits : Obj → Bool)
  | kwList (ks : List String) (noneOk : Bool) (maxLen tooMany : Nat) (unique : Bool)
  | objList (noneOk : Bool) (admits : Obj → Bool) (maxLen tooMany : Nat) (unique : Bool)
  | items (noneOk : Bool) (item : Text → Except Nat Atom) (minLen maxLen tooMany : Nat) (unique : Bool)
  | evset (maxLen : Option Nat)
  | position (kws : List String)

/-- A refused value: its code and the offset of the offending item in the value (R79). -/
structure ValErr where
  code : Nat
  off : Nat
  deriving DecidableEq, Repr

/-- The classes of R552. -/
inductive ValClass | hexNum | number | name
  deriving DecidableEq, Repr

def classOf (t : Text) : ValClass :=
  match t with
  | '0' :: x :: _ => if x == 'x' || x == 'X' then .hexNum else .number
  | c :: _ => if isDigit c || c == '+' || c == '-' || c == '.' then .number else .name
  | [] => .name

/-- R552 (1): a hex-number. -/
def readHexNum (t : Text) : Except Nat Nat :=
  match t with
  | '0' :: 'x' :: h =>
    if decide (1 ≤ h.length ∧ h.length ≤ 16) then
      match hexNat h with | some n => .ok n | none => .error 107
    else .error 107
  | _ => .error 107

/-- R552 (2): an integer of at most 20 digits. -/
def readInteger (signed : Bool) (t : Text) : Except Nat Int :=
  let (neg, hasSign, body) := match t with
    | '+' :: r => (false, true, r)
    | '-' :: r => (true, true, r)
    | r => (false, false, r)
  if (hasSign && !signed) || !allDigits body || decide (maxDigits < body.length) then .error 104
  else .ok (if neg then -(decNat body : Int) else decNat body)

/-- R552 (4): a name in a field that admits keywords and object names. -/
def readName (kws : List String) (admits : Obj → Bool) (anyObj : Bool) (t : Text) : Except Nat Atom :=
  let u := up t
  if kws.contains (String.ofList u) then .ok (.kw (String.ofList u))
  else match objOf u with
    | some o => if admits o then .ok (.obj o) else .error 303
    | none => if anyObj && hasObjForm u then .error 201 else .error 303

/-- A value of a keyword field: a number or a hex-number is of the wrong type (R552). -/
def readChoice (kws : List String) (admits : Obj → Bool) (anyObj : Bool) (t : Text) : Except Nat Atom :=
  match classOf t with
  | .hexNum => match readHexNum t with | .ok _ => .error 103 | .error c => .error c
  | .number => .error 103
  | .name => readName kws admits anyObj t

/-- A name where the field lists keywords, ER 103 where it lists none (R552). -/
def readNameOf (kws : List String) (t : Text) : Except Nat Atom :=
  if kws.isEmpty then .error 103
  else readName kws (fun _ => false) false t

/-- R26: the range test, after rounding. -/
def inRange (lo hi v : Int) : Bool := decide (lo ≤ v ∧ v ≤ hi)

/-- The event number of an item of an event set: E000 to E383 (R63, R87). -/
def readEvent (t : Text) : Except Nat Nat :=
  match objOf (up t) with
  | some (.src e) => .ok e.val
  | some _ => .error 303
  | none => if hasObjForm (up t) then .error 201 else .error 303

/-- One item of an event set: a name or a range, the first name not higher (R63). -/
def readEvItem (t : Text) : Except Nat (Nat × Nat) :=
  match classOf t with
  | .hexNum => match readHexNum t with | .ok _ => .error 103 | .error c => .error c
  | .number => .error 103
  | .name =>
    match cutAt '-' t with
    | (a, none) => match readEvent a with | .ok n => .ok (n, n) | .error c => .error c
    | (a, some b) =>
      match readEvent a, readEvent b with
      | .ok m, .ok n => if m ≤ n then .ok (m, n) else .error 103
      | .error c, _ => .error c
      | _, .error c => .error c

/-- Reads the items of a list in order; a 1xx code of a later item comes before an execution code (R93).
(DEDUCED, notes/assumptions/48.md) -/
def readItems {α : Type} (f : Text → Except Nat α) (ws : List (Nat × Text)) : Except ValErr (List α) :=
  match ws.find? (fun w => w.2.isEmpty || (match f w.2 with | .error c => decide (c < 200) | .ok _ => false)) with
  | some (o, w) => if w.isEmpty then .error ⟨103, o⟩ else match f w with
    | .error c => .error ⟨c, o⟩
    | .ok _ => .error ⟨103, o⟩
  | none =>
    match ws.find? (fun w => match f w.2 with | .error _ => true | .ok _ => false) with
    | some (o, w) => match f w with | .error c => .error ⟨c, o⟩ | .ok _ => .error ⟨103, o⟩
    | none => .ok (ws.filterMap (fun w => match f w.2 with | .ok v => some v | .error _ => none))

/-- Whether no item occurs twice (R553). -/
def distinct {α : Type} [BEq α] : List α → Bool
  | [] => true
  | a :: as => !as.contains a && distinct as

/-- R552, R553: a list field: NONE where admitted, its length, and items at most once where the list is a set. -/
def readList (noneOk : Bool) (f : Text → Except Nat Atom) (minLen maxLen tooMany : Nat) (unique : Bool) (t : Text) :
    Except ValErr Value :=
  if noneOk && upStr t == "NONE" then .ok (.list [])
  else match readItems f (splitCols ',' t) with
    | .error e => .error e
    | .ok vs =>
      if decide (maxLen < vs.length) then .error ⟨tooMany, 0⟩
      else if decide (vs.length < minLen) then .error ⟨301, 0⟩
      else if unique && !distinct vs then .error ⟨304, 0⟩
      else .ok (.list vs)

/-- The number of events in ranges. -/
def evCount (rs : List (Nat × Nat)) : Nat := rs.foldl (fun n r => n + (r.2 + 1 - r.1)) 0

/-- The events of ranges, in the order written. -/
def evExpand (rs : List (Nat × Nat)) : List Nat := rs.flatMap (fun r => (List.range (r.2 + 1 - r.1)).map (· + r.1))

def rangesOverlap (a b : Nat × Nat) : Bool := decide (a.1 ≤ b.2 ∧ b.1 ≤ a.2)

def rangesDistinct : List (Nat × Nat) → Bool
  | [] => true
  | r :: rs => !rs.any (rangesOverlap r) && rangesDistinct rs

/-- A field that takes a list. -/
def FieldTy.isList : FieldTy → Bool
  | .kwList .. | .objList .. | .items .. | .evset _ => true
  | _ => false

/-- Reads a value, which is no list where the field takes none, against its field. -/
def readValue (ty : FieldTy) (t : Text) : Except ValErr ReadVal :=
  let lift (r : Except Nat Atom) : Except ValErr ReadVal := match r with
    | .ok v => .ok (.val (.one v))
    | .error c => .error ⟨c, 0⟩
  let lift2 (r : Except ValErr Value) : Except ValErr ReadVal := match r with
    | .ok v => .ok (.val v)
    | .error c => .error c
  match ty with
  | .time signed res lo hi kws admitsPos =>
    match classOf t with
    | .hexNum => lift (match readHexNum t with | .ok _ => .error 103 | .error c => .error c)
    | .number => lift (match readTime signed t with
      | .ok v => let r := roundTo res v; if inRange lo hi r then .ok (.time r) else .error 301
      | .error c => .error c)
    | .name =>
      if admitsPos && isPosText t then
        match readPos t with | .ok p => .ok (.pos p) | .error c => .error ⟨c, 0⟩
      else lift (readNameOf kws t)
  | .int signed lo hi kws =>
    match classOf t with
    | .hexNum => lift (match readHexNum t with | .ok _ => .error 103 | .error c => .error c)
    | .number => lift (match readInteger signed t with
      | .ok v => if inRange lo hi v then .ok (.int v) else .error 301
      | .error c => .error c)
    | .name => lift (readNameOf kws t)
  | .intOf vals =>
    match classOf t with
    | .hexNum => lift (match readHexNum t with | .ok _ => .error 103 | .error c => .error c)
    | .number => lift (match readInteger false t with
      | .ok v => if vals.contains v then .ok (.int v) else .error 301
      | .error c => .error c)
    | .name => lift (.error 103)
  | .hex digits hi =>
    match classOf t with
    | .hexNum => lift (match readHexNum t with
      | .ok n => if n ≤ hi then .ok (.hex digits n) else .error 301
      | .error c => .error c)
    | _ => lift (.error 103)
  | .kw ks => lift (readChoice ks (fun _ => false) false t)
  | .objs kws admits => lift (readChoice kws admits true t)
  | .kwList ks noneOk maxLen tooMany unique =>
    lift2 (readList noneOk (readChoice ks (fun _ => false) false) 1 maxLen tooMany unique t)
  | .objList noneOk admits maxLen tooMany unique =>
    lift2 (readList noneOk (readChoice [] admits true) 1 maxLen tooMany unique t)
  | .items noneOk item minLen maxLen tooMany unique => lift2 (readList noneOk item minLen maxLen tooMany unique t)
  | .position kws =>
    match classOf t with
    | .hexNum => lift (match readHexNum t with | .ok _ => .error 103 | .error c => .error c)
    | .number => lift (.error 103)
    | .name => if isPosText t then (match readPos t with | .ok p => .ok (.pos p) | .error c => .error ⟨c, 0⟩)
      else lift (readNameOf kws t)
  | .evset maxLen =>
    if upStr t == "NONE" then .ok (.val (.evset []))
    else match readItems readEvItem (splitCols ',' t) with
      | .error e => .error e
      | .ok rs =>
        if (match maxLen with | some m => decide (m < evCount rs) | none => false) then .error ⟨308, 0⟩
        else if !rangesDistinct rs then .error ⟨304, 0⟩
        else .ok (.val (.evset rs))

/-- Reads a value against its field (R64, R552): the value, or a position where the field admits one. A list in a field that
takes none is a value of the wrong type. -/
def readField (ty : FieldTy) (t : Text) : Except ValErr ReadVal :=
  if !ty.isList && t.contains ',' then .error ⟨103, 0⟩ else readValue ty t

/-- The value of a name or number of unknown field type, for the 1xx codes that any field gives (R63, R64). -/
def readAny (t : Text) : Except ValErr Unit :=
  let item (w : Text) : Except Nat Unit :=
    match classOf w with
    | .hexNum => (readHexNum w).map (fun _ => ())
    | .number => if allDigits (w.dropWhile (fun c => c == '+' || c == '-')) then
          (readInteger true w).map (fun _ => ())
        else (readTime true w).map (fun _ => ())
    | .name =>
      if isKeyword w then .ok ()
      else if isPosText w then (match readPos w with | .ok _ => .ok () | .error c => if c < 200 then .error c else .ok ())
      else .error 103
  match readItems item (splitCols ',' t) with
  | .error e => if e.code < 200 then .error e else .ok ()
  | .ok _ => .ok ()

/-! ### Reporting values -/

/-- An item of a stored set of sources. (DEDUCED, notes/assumptions/73.md) -/
def evItemText (r : Nat × Nat) : String :=
  let e (n : Nat) := "E" ++ padStr 3 n
  if r.1 == r.2 then e r.1 else e r.1 ++ "-" ++ e r.2

/-- R27, R28, R36: the report form of a value that is no list. (DEDUCED, notes/assumptions/73.md) -/
def fmtAtom (f : TimeFmt) : Atom → String
  | .int i => decInt i
  | .time v => fmtTime f v
  | .hex d n => "0x" ++ String.ofList (if d = 0 then hexMin n else hexPad d n)
  | .kw k => k
  | .obj o => objName o
  | .pos fr off c => "F" ++ dec fr ++ "+" ++ (if c then decInt off else fmtTime f off)
  | .range lo hi => evItemText (lo, hi)
  | .pair k o => k ++ "-" ++ objName o

/-- R27: the report form of a value. -/
def fmtValue (f : TimeFmt) : Value → String
  | .one a => fmtAtom f a
  | .list [] => "NONE"
  | .list (v :: vs) => String.intercalate "," ((v :: vs).map (fmtAtom f))

end Sys2Proof.Machine
end

