-- ==== Sys2Proof/Machine/State/Common.lean ====
section
/-! DEFINITION. Data shared by the parts of the state: senses, edge sources, provisional frames, records. -/
namespace Sys2Proof.Machine

/-- The sense of an edge. -/
inductive Sense | rise | fall
  deriving DecidableEq, Repr

/-- A selection of senses. -/
inductive SenseSel | rise | fall | both
  deriving DecidableEq, Repr

/-- A pin or task that gives timing edges (R183, R206, R214, R261). -/
inductive EdgeSrc | trg (n : Fin 8) | port (n : Fin 64) | syncin | mark
  deriving DecidableEq, Repr

/-- A frame of an axis in which something is provisional (R288). gen: the numbering of the axis it belongs to; a restart
and an entry to LOST begin another (R187, R200). -/
structure ProvFrame where
  axis : Fin 4
  frame : Frame
  gen : Nat
  deriving DecidableEq, Repr

/-- The flags of an occurrence or an assertion: the frames in which it is provisional, and SHIFTED (R85, R288). -/
structure Flags where
  prov : List ProvFrame
  provFlag : Bool          -- PROV as it is reported
  shifted : Bool
  deriving DecidableEq, Repr

def Flags.none : Flags := ⟨[], false, false⟩

/-- R135: a stamp record. -/
structure StampRec where
  time : TimeWord
  port : Fin 64
  falling : Bool
  flags : BitVec 16
  epoch : Byte
  seq : Seq16
  check : BitVec 16
  deriving DecidableEq, Repr

/-- R135: a measurement-result record. -/
structure ResultRec where
  start : TimeWord
  interval : BitVec 64
  mf : Fin 16
  stopPort : Fin 64
  stopFalling : Bool
  stopIdx : Byte
  stopEpoch : Byte
  startEpoch : Byte
  flags : BitVec 16
  startPort : Fin 64
  startFalling : Bool
  run : BitVec 32
  seq : Seq16
  check : BitVec 16
  deriving DecidableEq, Repr

/-- A record of the central FIFO (R135, R137, R144, R145). -/
inductive FifoRec
  | stamp (r : StampRec)
  | result (r : ResultRec)
  | event (time48 : BitVec 48) (source : Fin 384) (prov shifted : Bool)
  | timemark (mark : BitVec 48)
  | overflow (time : TimeWord) (source : Nat) (upart : Bool) (firstSeq : Seq16) (drops : Nat)
  deriving DecidableEq, Repr

end Sys2Proof.Machine
end

