-- ==== Sys2Proof/Machine/State/Cluster.lean ====
section
/-! DEFINITION. The state of a cluster (spec/08, spec/13, spec/15). -/
namespace Sys2Proof.Machine

inductive ClState | active | draining | off | quarantine | joining
  deriving DecidableEq, Repr
inductive ClPhase | none | powerup | calibrate | align | waitjoin
  deriving DecidableEq, Repr
inductive OffCause | none | startup | drain | command | fault | lockloss
  deriving DecidableEq, Repr
inductive FaultCause | none | coresupply | banksupply | calfail | align
  deriving DecidableEq, Repr
/-- R236. -/
inductive IoStd | lvds | slvs400 | lvcmos18 | lvcmos25 | lvcmos33
  deriving DecidableEq, Repr
/-- R237: what the bank measures. (DESIGN CHOICE, notes/assumptions/83.md) -/
inductive Vddio | none | v18 | v25 | v33
  deriving DecidableEq, Repr

/-- R398: a join point. -/
inductive JoinPoint | next | pos (frame : Frame) (off : Nat)
  deriving DecidableEq, Repr

/-- R399, R400: the join instant. retracted: J awaits a CONFIRMED axis. -/
inductive JoinFix
  | waiting (since : TimeWord)                                  -- no J yet: the axis is not CONFIRMED, or J was retracted
  | fixed (j : TimeWord)                                        -- J does not move
  | edge (since : TimeWord)                                     -- the first usable edge of an INCREMENT axis
  | axis (a : Fin 4) (frame : Frame) (off : Nat) (j : TimeWord) (bound committed : Bool)
  deriving DecidableEq, Repr

/-- R341: an open calibration window: its port and its opening instant. -/
structure CalWindow where
  port : Fin 8
  opened : TimeWord
  void : Bool                   -- it overlaps a switch span: what it measures is discarded (R495)
  deriving DecidableEq, Repr

/-- A cluster. calTurn: its CALIBRATE phase runs (R482); calDone: it has completed and waits for the step of R451;
short: it calibrates by SHORT (R440); gateDue: POWER OFF waits for the port buffers to empty (R392). -/
structure Cluster where
  state : ClState
  phase : ClPhase
  powered : Bool
  offCause : OffCause
  faultCause : FaultCause
  iostd : IoStd
  vddio : Vddio
  bank : Vddio                  -- the class of the bank supply as it was measured last, while the cluster is powered (R507)
  drainWait : Nat
  drainEmitted : Nat
  discarded : Nat
  emittedSoFar : Nat            -- pulses that left since the drain began (R390)
  removedSoFar : Nat
  joinAxis : Option (Fin 4)
  joinAt : Option JoinPoint
  fix : Option JoinFix
  joinProv : List ProvFrame     -- the frame in which its committed J is provisional (R400)
  epoch : Byte
  entries : Count32
  entered : Bool                -- it has been ACTIVE since the hardware reset (R401)
  calTurn : Bool
  calDone : Bool
  short : Bool
  window : Option CalWindow
  turn : Fin 8                  -- the port served last by the central FIFO (R249)
  moved : Option TimeWord       -- the fabric cycle of the latest move to the central FIFO (R249)
  span : Option (TimeWord × Option TimeWord)   -- its latest time in ACTIVE: first tick, and first tick after it
  deriving DecidableEq, Repr

end Sys2Proof.Machine
end

