-- ==== Sys2Proof/Machine/State/Inputs.lean ====
section
/-! DEFINITION. What the world outside the block brings with a command: measured values and analog results
(the operands of the rows of the opcode table that are no plain numbers). -/
namespace Sys2Proof.Machine

/-- What reaches 16 ns before its instant (R194, R314, R400). (DESIGN CHOICE, notes/assumptions/6.md) -/
inductive CommitOf | port (p : Fin 64) | join (k : Fin 8) | align (g : Fin 8)
  deriving DecidableEq, Repr

/-- What a calibration window, or one port's part of a FULL or SHORT calibration, measured (R347, R352 to R356): TDC
codes with their hits, the measured points of the DTC (each point, the sum of its measurements and their number), the
comparator's offsets and the die temperature. (DESIGN CHOICE, notes/assumptions/6.md) -/
structure CalSample where
  hits : List (Nat × Nat)
  points : List (Nat × Int × Nat)
  offRise : Int
  offFall : Int
  fallSkew : Int
  q : Nat
  temp : Int
  deriving DecidableEq, Repr

/-- A conversion of Belfry (R424). (DESIGN CHOICE, notes/assumptions/6.md) -/
structure BelfryReading where
  temp : Int
  vbel : Nat
  vcore : Nat
  vio : List Nat
  deriving DecidableEq, Repr

/-- What the boot ROM reads of the flash (R469): what the SFDP read gives from address 0, and what reads of the array give
from address 0. (DESIGN CHOICE, notes/assumptions/6.md) -/
structure FlashRead where
  sfdp : List Byte
  flash : List Byte
  deriving DecidableEq, Repr

/-- R123, R125, R149: a receive lane, the code groups that it has received, and the running disparity before them. -/
structure LaneSeen where
  lane : Fin 2
  rd : Bool
  groups : List (BitVec 10)
  deriving DecidableEq, Repr

/-- R125: the ticks that pass before the link may enter UP, and the code groups that the receive lanes received last, each
with the running disparity before them. -/
structure TrainSeen where
  d : Nat
  seen : List (Bool × List (BitVec 10))
  deriving DecidableEq, Repr

/-- R108: the ticks that pass before HSPI_CS# rises, and whether bits of an output byte have been clocked out, but not all
eight. -/
structure CsEnd where
  d : Nat
  cut : Bool
  deriving DecidableEq, Repr

/-- R164: the frequencies of a reference and of its comparison source that Cupola has counted in a window, in one unit. -/
structure Counted where
  fx : Nat
  fc : Nat
  deriving DecidableEq, Repr

/-- R241, R244: the raw code of an edge, and the level in µV that it brings the input to. -/
structure EdgeCode where
  code : Nat
  uv : Int
  deriving DecidableEq, Repr

end Sys2Proof.Machine
end

