-- ==== Sys2Proof/Syntax.lean ====
section
/-! DEFINITION. The commands of the block: one constructor for each row of the table of operations and events
(spec/opcode_table.json, spec/95). The first operand of every command, d, is the number of ticks that pass between the
command before it and this one (notes/assumptions/1.md); spLinkUp and hspiCsRise hold it in a record with what else they carry.
fault: reading the object store for the line met an
uncorrectable error (R408). -/
namespace Sys2Proof

/-- A command of the block. -/
inductive Instr
  /-- LINE_RECEIVED (R93). -/
  | lineReceived (d : Nat) (link : Link) (lf : Bool) (span : Nat) (corrupt : Bool)
  /-- TYPED_CHARACTER (R102). -/
  | typedCharacter (d : Nat) (link : Link) (b : Byte)
  /-- EDIT_BACKSPACE (R102). -/
  | editBackspace (d : Nat) (link : Link)
  /-- EDIT_CTRL_U (R102). -/
  | editCtrlU (d : Nat) (link : Link)
  /-- EDIT_CTRL_C (R102). -/
  | editCtrlC (d : Nat) (link : Link)
  /-- EDIT_CTRL_R (R102). -/
  | editCtrlR (d : Nat) (link : Link)
  /-- EDIT_RECALL (R102). -/
  | editRecall (d : Nat) (link : Link)
  /-- CON_FRAMING_ERROR (R100). -/
  | conFramingError (d : Nat)
  /-- CON_BREAK (R101). -/
  | conBreak (d : Nat)
  /-- AUTOBAUD_CHARACTER (R98). -/
  | autobaudCharacter (d : Nat) (cycles : Nat) (readsCr : Bool)
  /-- HSPI_CS_FALL (R107). -/
  | hspiCsFall (d : Nat) (sclkHigh : Bool)
  /-- HSPI_CS_RISE (R108). -/
  | hspiCsRise (d : Machine.CsEnd)
  /-- GET (R78). -/
  | get (d : Nat) (fault : Bool)
  /-- SET (R72). -/
  | set (d : Nat) (fault : Bool)
  /-- SHOW (R70). -/
  | showObject (d : Nat) (fault : Bool)
  /-- LIST (R70). -/
  | list (d : Nat) (fault : Bool)
  /-- HELP (R60). -/
  | help (d : Nat) (fault : Bool)
  /-- SNAPSHOT (R44). -/
  | snapshot (d : Nat) (fault : Bool)
  /-- FIRE (R71). -/
  | fire (d : Nat) (fault : Bool)
  /-- ARM (R229). -/
  | arm (d : Nat) (fault : Bool)
  /-- DISARM (R229). -/
  | disarm (d : Nat) (fault : Bool)
  /-- HALT (R317). -/
  | halt (d : Nat) (fault : Bool)
  /-- STEP (R310). -/
  | step (d : Nat) (fault : Bool)
  /-- MARK (R186). -/
  | mark (d : Nat) (fault : Bool)
  /-- SCHED (R73). -/
  | sched (d : Nat) (fault : Bool)
  /-- CANCEL (R74). -/
  | cancel (d : Nat) (fault : Bool)
  /-- START (R70). -/
  | start (d : Nat) (fault : Bool)
  /-- ABORT (R269). -/
  | abort (d : Nat) (fault : Bool)
  /-- DRAIN (R389). -/
  | drain (d : Nat) (fault : Bool)
  /-- POWER_OFF (R391). -/
  | powerOff (d : Nat) (fault : Bool)
  /-- POWER_ON (R392). -/
  | powerOn (d : Nat) (fault : Bool)
  /-- JOIN (R398). -/
  | join (d : Nat) (fault : Bool)
  /-- PROG (R305). -/
  | prog (d : Nat) (fault : Bool)
  /-- PROG_CLEAR (R305). -/
  | progClear (d : Nat) (fault : Bool)
  /-- CLUSTER_RESET (R404). -/
  | clusterReset (d : Nat) (fault : Bool)
  /-- SYS_RESET (R407). -/
  | sysReset (d : Nat) (fault : Bool)
  /-- SYS_FEATURES (R487). -/
  | sysFeatures (d : Nat) (fault : Bool)
  /-- SYS_VERSION (R490). -/
  | sysVersion (d : Nat) (fault : Bool)
  /-- SYS_RESTART (R408). -/
  | sysRestart (d : Nat) (fault : Bool)
  /-- SYS_UPDATE (R492). -/
  | sysUpdate (d : Nat) (fault : Bool)
  /-- SYS_SLEEP (R417). -/
  | sysSleep (d : Nat) (fault : Bool)
  /-- CAL_EXPORT (R359). -/
  | calExport (d : Nat) (fault : Bool)
  /-- CAL_IMPORT (R361). -/
  | calImport (d : Nat) (fault : Bool)
  /-- SEG_DEFINE (R292). -/
  | segDefine (d : Nat) (fault : Bool)
  /-- SEG_FREE (R294). -/
  | segFree (d : Nat) (fault : Bool)
  /-- BEL_LOG (R433). -/
  | belLog (d : Nat) (fault : Bool)
  /-- BEL_CLEAR (R434). -/
  | belClear (d : Nat) (fault : Bool)
  /-- LOAD_SIZE (R472). -/
  | loadSize (d : Nat)
  /-- LOAD_DATA (R472). -/
  | loadData (d : Nat)
  /-- LOAD_STATUS (R472). -/
  | loadStatus (d : Nat)
  /-- LOAD_GO (R472). -/
  | loadGo (d : Nat)
  /-- SET_LINK_MODE (R62). -/
  | setLinkMode (d : Nat) (fault : Bool)
  /-- SET_CON_BAUD (R99). -/
  | setConBaud (d : Nat) (fault : Bool)
  /-- SET_TIMEFMT (R30). -/
  | setTimefmt (d : Nat) (fault : Bool)
  /-- SET_SP_ENABLE (R125). -/
  | setSpEnable (d : Nat) (fault : Bool)
  /-- SET_AXIS_CONFIG (R187). -/
  | setAxisConfig (d : Nat) (fault : Bool)
  /-- SET_AXIS_RUNAHEAD (R555). -/
  | setAxisRunahead (d : Nat) (fault : Bool)
  /-- SET_TASK_ROUTES (R285). -/
  | setTaskRoutes (d : Nat) (fault : Bool)
  /-- SET_TASK_CONFONLY (R289). -/
  | setTaskConfonly (d : Nat) (fault : Bool)
  /-- SET_MF_ENABLE (R259). -/
  | setMfEnable (d : Nat) (fault : Bool)
  /-- SET_MF_STATS_CLEAR (R273). -/
  | setMfStatsClear (d : Nat) (fault : Bool)
  /-- SET_PORT_MODE (R212). -/
  | setPortMode (d : Nat) (fault : Bool)
  /-- SET_TONE_FTW (R232). -/
  | setToneFtw (d : Nat) (fault : Bool)
  /-- SET_TONE_AT (R232). -/
  | setToneAt (d : Nat) (fault : Bool)
  /-- SET_IOSTD (R240). -/
  | setIostd (d : Nat) (fault : Bool)
  /-- SET_THRESHOLD (R242). -/
  | setThreshold (d : Nat) (fault : Bool)
  /-- SET_REF_ACTIVE (R173). -/
  | setRefActive (d : Nat) (fault : Bool)
  /-- SET_REF_INPUT (R155). -/
  | setRefInput (d : Nat) (fault : Bool)
  /-- SET_REF_BW (R158). -/
  | setRefBw (d : Nat) (fault : Bool)
  /-- SET_CAL_PERIOD (R342). -/
  | setCalPeriod (d : Nat) (fault : Bool)
  /-- SET_CAL_HOLD (R344). -/
  | setCalHold (d : Nat) (fault : Bool)
  /-- SET_BEL_ALERT_CLEAR (R430). -/
  | setBelAlertClear (d : Nat) (fault : Bool)
  /-- SET_BEL_RULE (R428). -/
  | setBelRule (d : Nat) (fault : Bool)
  /-- SET_SYNC_ROLE (R445). -/
  | setSyncRole (d : Nat) (fault : Bool)
  /-- SET_SYNC_DELAY (R454). -/
  | setSyncDelay (d : Nat) (fault : Bool)
  /-- KEY_PROGRAM (R477). -/
  | keyProgram (d : Nat) (fault : Bool) (readBackOk : Bool)
  /-- HANDOVER_ACCEPT (R48). -/
  | handoverAccept (d : Nat) (src : Fin 384)
  /-- ROUTE_DELIVERY (R283). -/
  | routeDelivery (d : Nat) (k : Nat)
  /-- SP_LANE_LOCK (R123). -/
  | spLaneLock (d : Nat) (r : Machine.LaneSeen)
  /-- SP_LANE_LOSE_LOCK (R123). -/
  | spLaneLoseLock (d : Nat) (r : Machine.LaneSeen)
  /-- SP_TS_IN_UP (R149). -/
  | spTsInUp (d : Nat) (r : Machine.LaneSeen)
  /-- SP_LINK_UP (R125). -/
  | spLinkUp (d : Machine.TrainSeen)
  /-- SP_FRAME_SEND (R131). -/
  | spFrameSend (d : Nat) (channel : Fin 6) (lane : Fin 4) (bad : List Nat)
  /-- CREDIT_REPEAT (R141). -/
  | creditRepeat (d : Nat)
  /-- UPLOAD_FRAME (R142). -/
  | uploadFrame (d : Nat) (r : Fin 2) (rd : Bool) (groups : List (BitVec 10)) (leave : Nat)
  /-- ASSEMBLY_TIMEOUT (R142). -/
  | assemblyTimeout (d : Nat) (k : Nat)
  /-- RECORD_TO_FIFO (R249). -/
  | recordToFifo (d : Nat) (k : Fin 8)
  /-- OVERFLOW_END (R145). -/
  | overflowEnd (d : Nat)
  /-- REF_LOST (R162). -/
  | refLost (d : Nat) (x : Fin 4)
  /-- REF_PRESENT (R161). -/
  | refPresent (d : Nat) (x : Fin 4)
  /-- PLL_FREEZE (R163). -/
  | pllFreeze (d : Nat)
  /-- REF_GLITCH_RECOVER (R163). -/
  | refGlitchRecover (d : Nat)
  /-- CUPOLA_WINDOW_1S (R164, R166). fx, fc: the frequencies of the reference and of its comparison source, in one unit. -/
  | cupolaWindow1s (d : Nat) (x : Fin 4) (result : Machine.Counted)
  /-- CUPOLA_WINDOW_10S (R164, R166). fx, fc: as for the 1 s window. -/
  | cupolaWindow10s (d : Nat) (x : Fin 4) (result : Machine.Counted)
  /-- REF_SWITCH (R175). -/
  | refSwitch (d : Nat)
  /-- REVERT_WAIT (R174). -/
  | revertWait (d : Nat) (x : Fin 4)
  /-- PLL_LOCK (R157). -/
  | pllLock (d : Nat)
  /-- ACQUIRE_TIMEOUT (R156). -/
  | acquireTimeout (d : Nat)
  /-- LOCKLOSS (R160). -/
  | lockloss (d : Nat)
  /-- AXIS_INDEX_EDGE (R184). -/
  | axisIndexEdge (d : Nat) (a : Fin 4)
  /-- AXIS_CATCH_TIMEOUT (R197). -/
  | axisCatchTimeout (d : Nat) (a : Fin 4)
  /-- REACQUIRE_WINDOW_PASS (R199). -/
  | reacquireWindowPass (d : Nat) (a : Fin 4)
  /-- AXIS_COUNT_EDGE (R206). -/
  | axisCountEdge (d : Nat) (a : Fin 4)
  /-- FREE_FRAME_START (R208). -/
  | freeFrameStart (d : Nat) (a : Fin 4)
  /-- EDGE_COMMIT (R194). -/
  | edgeCommit (d : Nat) (what : Machine.CommitOf)
  /-- PULSE_LEADING_EDGE (R225). -/
  | pulseLeadingEdge (d : Nat) (p : Fin 64)
  /-- PULSE_TRAILING_EDGE (R220). -/
  | pulseTrailingEdge (d : Nat) (p : Fin 64)
  /-- PAD_TRIGGER (R217). -/
  | padTrigger (d : Nat) (p : Fin 64)
  /-- INPUT_EDGE_CONVERT (R244). -/
  | inputEdgeConvert (d : Nat) (p : Fin 64) (falling : Bool) (stop : TimeWord) (code : Machine.EdgeCode)
  /-- STAMP_FORMAT (R247). -/
  | stampFormat (d : Nat) (p : Fin 64)
  /-- PAIR_MEASUREMENT (R358). -/
  | pairMeasurement (d : Nat) (p : Fin 64) (q : Nat)
  /-- OVERRANGE_ASSERT (R257). -/
  | overrangeAssert (d : Nat) (p : Fin 64) (a : TimeWord)
  /-- OVERRANGE_DEASSERT (R255). -/
  | overrangeDeassert (d : Nat) (p : Fin 64) (z : TimeWord)
  /-- TRG_EDGE (R278). -/
  | trgEdge (d : Nat) (n : Fin 8) (falling : Bool) (t : TimeWord)
  /-- TONE_CHANGE_TICK (R233). -/
  | toneChangeTick (d : Nat) (p : Fin 64)
  /-- MF_RUN_CLOSE (R265). -/
  | mfRunClose (d : Nat) (m : Fin 16)
  /-- SPIRE_PREFETCH (R296). -/
  | spirePrefetch (d : Nat) (g : Fin 8) (bad : List (Nat × Nat))
  /-- SPIRE_BOUNDARY (R309). -/
  | spireBoundary (d : Nat) (g : Fin 8)
  /-- SPIRE_CHECKFAIL (R319). -/
  | spireCheckfail (d : Nat) (g : Fin 8)
  /-- WAIT_TIMEOUT (R312). -/
  | waitTimeout (d : Nat) (g : Fin 8)
  /-- AG_WORD (R322). -/
  | agWord (d : Nat) (n : Fin 8)
  /-- AG_SAMPLE (R333). -/
  | agSample (d : Nat) (n : Fin 8)
  /-- CAL_WINDOW_OPEN (R341). -/
  | calWindowOpen (d : Nat) (p : Fin 64)
  /-- CAL_WINDOW_CLOSE (R350). -/
  | calWindowClose (d : Nat) (p : Fin 64) (sample : Machine.CalSample) (high : Bool)
  /-- CAL_PORT_LATE (R343). -/
  | calPortLate (d : Nat) (p : Fin 64)
  /-- CAL_TABLE_SWAP (R355). -/
  | calTableSwap (d : Nat) (p : Fin 64)
  /-- DRAIN_COMPLETE (R390). -/
  | drainComplete (d : Nat) (k : Fin 8)
  /-- CLUSTER_POWERUP_DONE (R387). -/
  | clusterPowerupDone (d : Nat) (k : Fin 8) (bankMv : Nat)
  /-- CLUSTER_CALIBRATE_DONE (R356). -/
  | clusterCalibrateDone (d : Nat) (k : Fin 8) (samples : List Machine.CalSample)
  /-- CLUSTER_ALIGN_DONE (R398). -/
  | clusterAlignDone (d : Nat) (k : Fin 8) (verified : Bool)
  /-- CLUSTER_JOIN (R401). -/
  | clusterJoin (d : Nat) (k : Fin 8)
  /-- CLUSTER_FAULT (R405). -/
  | clusterFault (d : Nat) (k : Fin 8) (cause : Machine.FaultCause) (bankMv : Nat)
  /-- STEWARD_WATCHDOG (R408). -/
  | stewardWatchdog (d : Nat)
  /-- STEWARD_RESTART_START (R409). -/
  | stewardRestartStart (d : Nat)
  /-- STEWARD_RESTART_END (R410). -/
  | stewardRestartEnd (d : Nat)
  /-- HARDWARE_RESET_START (R407). -/
  | hardwareResetStart (d : Nat)
  /-- BELFRY_SAMPLE (R422). -/
  | belfrySample (d : Nat) (levels : BitVec 4) (refa : Bool)
  /-- BELFRY_CONVERSION (R424). -/
  | belfryConversion (d : Nat) (reading : Machine.BelfryReading)
  /-- SLEEP_ENTRY_START (R419). -/
  | sleepEntryStart (d : Nat)
  /-- SLEEP_FRAME_HANDOVER (R436). -/
  | sleepFrameHandover (d : Nat)
  /-- SLEEP_FLUSH_END (R419). -/
  | sleepFlushEnd (d : Nat)
  /-- SLEEP_POWERDOWN (R419). -/
  | sleepPowerdown (d : Nat)
  /-- WAKE_SUPPLIES_VALID (R440). -/
  | wakeSuppliesValid (d : Nat)
  /-- KEPT_AXIS_ANCHOR (R438). -/
  | keptAxisAnchor (d : Nat)
  /-- RESET_PIN (R465). -/
  | resetPin (d : Nat)
  /-- BROWNOUT (R466). -/
  | brownout (d : Nat)
  /-- BOOT_START (R468). -/
  | bootStart (d : Nat) (bootsel1 bootsel0 : Bool)
  /-- FLASH_BOOT_DONE (R470). -/
  | flashBootDone (d : Nat) (read : Machine.FlashRead)
  /-- OBJECT_STORE_BUILT (R480). -/
  | objectStoreBuilt (d : Nat)
  /-- SYNC_PULSE_SEND (R446). -/
  | syncPulseSend (d : Nat)
  /-- SYNC_RETURN_PULSE (R455). -/
  | syncReturnPulse (d : Nat)
  /-- SYNC_EDGE (R452). -/
  | syncEdge (d : Nat) (falling : Bool) (t : TimeWord)
  /-- SYNC_STEP (R450). -/
  | syncStep (d : Nat)
  /-- SYNC_HOLD_TIMEOUT (R452). -/
  | syncHoldTimeout (d : Nat)
  /-- SYNC_SLEW (R452). -/
  | syncSlew (d : Nat)
  /-- POWERON (R464). -/
  | poweron (d : Nat)
  /-- LINE_CHARACTER (R106). -/
  | lineCharacter (d : Nat) (link : Link) (b : Byte)
  /-- OUTPUT_BYTE_SENT (R108). -/
  | outputByteSent (d : Nat) (link : Link)
  /-- ECC_PUBLICATION (R384). -/
  | eccPublication (d : Nat) (seg fifo sys : Nat)
  deriving DecidableEq, Repr

end Sys2Proof
end

