-- ==== Sys2Proof/Config.lean ====
section
/-! DEFINITION. What one device or one implementation fixes, and the values the spec leaves open. None of these has a
body: nothing can be proved of their values. -/
namespace Sys2Proof

/-- R474: the SHA-256 of the vendor public key in the boot ROM. (DESIGN CHOICE, notes/assumptions/7.md) -/
opaque Config.vendorKeyHash : BitVec 256

/-- R363: the number of the die, CAL.DIEID. (DESIGN CHOICE, notes/assumptions/7.md) -/
opaque Config.dieId : BitVec 32

/-- R491: the letter of the silicon stepping, from A = 0 to Z = 25. (DESIGN CHOICE, notes/assumptions/7.md) -/
opaque Config.stepping : Fin 26

/-- R490: the revision of the boot ROM. (DESIGN CHOICE, notes/assumptions/7.md) -/
opaque Config.romRevision : Nat

/-- R60: the descriptive text of HELP, line by line, for a topic. (DESIGN CHOICE, notes/assumptions/7.md) -/
opaque Config.helpText : Option String → List String

/-- R218, R333: the static level that an input presents at a time word: of port n for n below 64, of trigger input n − 64
above. (DESIGN CHOICE, notes/assumptions/7.md) -/
opaque Config.staticLevel : Nat → BitVec 64 → Bool

/-- R294, R492: what a byte of a block that cannot be read, unwritten or with an uncorrectable error, reads as when an image
is copied: by segment and byte of the segment. (DESIGN CHOICE, notes/assumptions/7.md) -/
opaque Config.unreadableByte : Nat → Nat → BitVec 8

end Sys2Proof
end

