-- ==== Sys2Proof/Machine/State/Ag.lean ====
section
/-! DEFINITION. The state of an algorithmic generator or checker (spec/12). -/
namespace Sys2Proof.Machine

inductive AgRole | off | gen | check
  deriving DecidableEq, Repr
inductive AgGate | always | playing | waiting
  deriving DecidableEq, Repr
/-- R323. -/
inductive MapItem | a (k : Fin 16) | d (k : Fin 16) | we | re | x
  deriving DecidableEq, Repr
inductive AgState | stopped | running | frozen | done
  deriving DecidableEq, Repr
inductive AgFunc | prbs7 | prbs9 | prbs11 | prbs15 | prbs20 | prbs23 | prbs31 | count | user | march
  deriving DecidableEq, Repr
inductive AgInvert | auto | normal | invert
  deriving DecidableEq, Repr
/-- R328: one operation of a march element: a read or a write of the background or its complement. -/
structure MarchOp where
  read : Bool
  one : Bool
  deriving DecidableEq, Repr
structure MarchElem where
  down : Bool
  ops : List MarchOp
  deriving DecidableEq, Repr
inductive Background | solid | checker | rowstripe | colstripe | walk1 | walk0
  deriving DecidableEq, Repr

/-- The properties of a generator, all of class H (R325, R332, R339). -/
structure AgCfg where
  role : AgRole
  group : Option (Fin 8)
  rate : Nat
  gate : AgGate
  map : List MapItem
  func : AgFunc
  seed : BitVec 32
  inv : AgInvert
  patLen : Nat
  dWidth : Nat
  aWidth : Nat
  march : List MarchElem
  complement : Bool
  background : Background
  colBits : Nat
  loop : Bool
  strobeOn : Nat
  strobeOff : Nat
  inputs : List (Fin 64)
  sampleAt : Nat
  lockBits : Nat
  lossErr : Nat
  lossWin : Nat
  deriving DecidableEq, Repr

/-- Where a march test stands: element, visit, operation (R328). -/
structure MarchPos where
  elem : Nat
  visit : Nat
  op : Nat
  deriving DecidableEq, Repr

/-- A word that a generator drives (R322, R331). -/
structure AgWord where
  start : TimeWord
  a : Nat
  d : Nat
  write : Bool
  read : Bool
  expect : Option (Nat × Nat × Nat)    -- expected value, address and element of a read word
  deriving DecidableEq, Repr

/-- A checker's acquisition (R336). -/
structure Acquire where
  got : List Bool              -- bits taken, newest first
  reg : Option (BitVec 32)     -- the register, count or phase, once loaded
  good : Nat
  deriving DecidableEq, Repr

/-- The comparisons of an earlier run of a checker that are still due: with the settings and the lock of that run. own: no
program has begun since (R333, R337 to R339). -/
structure AgPast where
  cfg : AgCfg
  due : List AgWord
  acq : Acquire
  lock : Bool
  window : List Bool
  own : Bool
  deriving DecidableEq, Repr

/-- A generator or checker. -/
structure Ag where
  cfg : AgCfg
  state : AgState
  wordGrid : TimeWord
  next : Nat                   -- words begun on the grid since it started
  reg : BitVec 32              -- PRBS register
  stream : Nat                 -- stream bits or words emitted (R326, R327)
  pos : MarchPos
  finished : Bool
  lastWrite : Nat
  word : Option AgWord
  due : List AgWord            -- read words whose comparison is due (R338)
  past : List AgPast           -- oldest first
  acq : Acquire
  lock : Bool
  window : List Bool           -- the last compared bits, newest first: true is an error
  lockLosses : Count32
  firstErr : Option (TimeWord × Nat × Nat × BitVec 16)
  bits : Count
  errors : Count
  latchedBits : Count
  latchedErrors : Count
  deriving DecidableEq, Repr

end Sys2Proof.Machine
end

