-- ==== Sys2Proof/Machine/State/Axis.lean ====
section
/-! DEFINITION. The state of an axis (spec/07, spec/13 quiet slots, spec/16 kept axis). -/
namespace Sys2Proof.Machine

inductive AxisMode | frame | increment | free
  deriving DecidableEq, Repr

/-- R188. -/
inductive AxisState | acquire | confirmed | reacquire | lost
  deriving DecidableEq, Repr

/-- The values that a catch window keeps while it is open (R198). -/
structure CatchVals where
  gain : Nat
  pull : Nat
  catchTu : Nat
  tsettle : Nat
  tretract : Nat
  missmax : Nat
  deriving DecidableEq, Repr

/-- The properties of an axis, all of class H (R187, R192, R198 to R200, R345). -/
structure AxisCfg where
  mode : AxisMode
  source : EdgeSrc
  edge : Sense
  period : Nat
  firstFrame : Frame
  origin : TimeWord
  countSrc : Option EdgeSrc
  counts : Nat
  countTol : Nat
  vals : CatchVals
  runAhead : Bool
  quietAt : List Nat
  quietLen : List Nat
  deriving DecidableEq, Repr

/-- R192: the anchor of an axis: its index time, its frame number, and whether it is a real edge. -/
structure Anchor where
  a : TimeWord
  n : Frame
  real : Bool
  deriving DecidableEq, Repr

/-- The outcome of the decision of a frame (R197). -/
inductive Outcome | confirmed (shifted : Bool) | retracted
  deriving DecidableEq, Repr

/-- What SNAP.FRAME, INDEX, PERIOD and ERROR show (R82, R190). -/
structure AxisSnap where
  frame : Option Frame
  index : Option TimeWord
  period : Int
  error : Int
  deriving DecidableEq, Repr

/-- An axis. period has 16 fractional bits (R192). -/
structure Axis where
  cfg : AxisCfg
  inForce : CatchVals
  state : AxisState
  anchor : Option Anchor
  period : Int
  misses : Nat
  acquired : List TimeWord      -- the usable edges of ACQUIRE that still stand, oldest first (R189)
  lastUsable : Option TimeWord
  pendIdx : List TimeWord       -- usable index edges on their way to the axis, oldest first (R185)
  pendCnt : List (TimeWord × Bool)   -- count edges on their way, true: it carries OVD or NBR (R206, R500)
  retractedIn : Option TimeWord -- the fabric cycle of the latest RETRACT (R190)
  gen : Nat                     -- the numbering (R187, R200)
  lastTaken : Option TimeWord   -- latest usable edge taken since the state was entered (R190)
  decided : List (Frame × Outcome)   -- newest first
  lastError : Int
  count : Nat                   -- count edges since the latest index edge (R206, R207)
  slips : Count32
  losses : Count32
  retracts : Count32
  latched : AxisSnap
  deriving DecidableEq, Repr

end Sys2Proof.Machine
end

