-- ==== Sys2Proof/Machine/State/Belfry.lean ====
section
/-! DEFINITION. The state of Belfry and of the power states (spec/16). -/
namespace Sys2Proof.Machine

/-- R415, R414: the power state; SLEEP cannot be read. -/
inductive PState | run | idle | entry | sleep
  deriving DecidableEq, Repr

/-- Where an entry into SLEEP, or a wake, stands (R419, R440). -/
inductive SleepStep
  | awake
  | accepted (ready : Option TimeWord) (left : Bool)   -- SYS SLEEP was answered; left: the last byte of its OK has left
  | frame (n0 : Frame) (gen : Nat)      -- step 2: waits for the decision and the half-frame point of the frame after n0
  | flush (since : TimeWord)            -- step 3
  | flushed                             -- step 4 is done
  | asleep
  | waking                              -- the WAKE action has fired, supplies not valid yet
  | relock                              -- step 2 of the wake is done, the PLL has not locked
  | locked                              -- step 4 of the wake is done, a woken cluster is not yet ACTIVE
  deriving DecidableEq, Repr

inductive Pull | none | up | down
  deriving DecidableEq, Repr

/-- R422: a WAKE input. -/
structure Wake where
  pull : Pull
  level : Bool
  last : Bool                   -- the latest sample
  deriving DecidableEq, Repr

/-- R426. -/
inductive RuleSrc | none | wake (n : Fin 4) | refa | temp | vbel | vcore | vio (k : Fin 8)
  deriving DecidableEq, Repr
inductive RuleSense | high | low | above | below
  deriving DecidableEq, Repr
inductive RuleFilter | debounce | count | period | rate
  deriving DecidableEq, Repr
inductive RuleAction | wake | alert | count | log
  deriving DecidableEq, Repr

/-- R427, R428: the filter state of a rule, in samples of its source. -/
structure FilterState where
  prev : Option Bool            -- the condition at the previous sample
  run : Nat                     -- samples in a row with the present condition
  armed : Bool                  -- DEBOUNCE may fire
  entries : List Nat            -- COUNT: ages of the entries in the span, newest first
  sinceEntry : Option Nat       -- PERIOD: samples since the previous entry
  missed : Bool                 -- PERIOD: a missing entry has fired
  elapsed : Nat                 -- RATE: samples of the present window
  seen : Nat                    -- RATE: entries of the present window
  deriving DecidableEq, Repr

structure Rule where
  src : RuleSrc
  sense : RuleSense
  filter : RuleFilter
  time : Nat
  n : Nat
  min : Nat
  max : Nat
  limit : Int
  action : List RuleAction
  hits : Count32
  fs : FilterState
  deriving DecidableEq, Repr

/-- R432: an entry of the log. waits: its hand-over is not accepted yet. -/
structure LogEntry where
  seq : Seq16
  rule : Fin 16
  src : RuleSrc
  btime : Nat
  time : Option TimeWord
  waits : Bool
  value : Int
  deriving DecidableEq, Repr

inductive LogMode | stop | wrap
  deriving DecidableEq, Repr

/-- Belfry and the power states (R414 to R443). -/
structure Belfry where
  wakeCl : List (Fin 8)
  segRetain : Bool
  flushWait : Nat
  flushDrops : Nat
  extPwr : Bool
  pwrDelay : Nat
  wakes : Vector Wake 4
  refaAct : Bool
  temp : Int
  tempWarn : Int
  tempHigh : Bool               -- BEL.TEMP has not fallen far enough since TEMPWARN (R425)
  rules : Vector Rule 16
  alert : Bool
  log : List LogEntry           -- oldest first
  logSeq : Seq16
  logMode : LogMode
  logLost : Count32
  btime : Nat                   -- Belfry cycles since VDD_BEL came up
  axis : Option (Fin 4)
  axisWake : Fin 4
  keptFrame : Option Frame
  counter : Option Frame        -- the frame counter, none: not set (R436)
  wakeCount : Count32
  wakeRule : Option (Fin 16)
  slept : BitVec 48
  step : SleepStep
  entryAt : Option TimeWord     -- E
  sleptFrom : Nat               -- BTIME at power-down
  wakeDuringEntry : Option (Fin 16)   -- a WAKE firing during ENTRY (R439)
  readyHigh : Bool              -- the READY pin (R467)
  deriving DecidableEq, Repr

end Sys2Proof.Machine
end

