-- ==== Sys2Proof/Machine/State/Links.lean ====
section
/-! DEFINITION. The state of the two command links and of the steward (spec/03, spec/04, spec/15). -/
namespace Sys2Proof.Machine

/-- R62. -/
inductive LinkMode | typed | machine
  deriving DecidableEq, Repr

/-- R97: CON.BAUD; none is AUTO. -/
abbrev Baud := Option Nat

/-- What the device does when the last byte of a response has left (R99, R407, R408, R418, R492). -/
inductive EndAction | hunt | hardwareReset | restart | sleep
  deriving DecidableEq, Repr

/-- The kind of an output item (R91). -/
inductive OutKind | urgent | standard | ev (e : Fin 384)
  deriving DecidableEq, Repr

/-- R85, R88: an EV line that has not started: its occurrences so far. fmt: the report form when it was formed (R30). -/
structure EvLine where
  src : Fin 384
  fmt : TimeFmt
  first : TimeWord
  last : TimeWord
  n : Nat
  prov : Bool
  shifted : Bool
  deriving DecidableEq, Repr

/-- A line or a multi-line response that waits to leave (R81, R91). onStart: R62; onEnd: R407, R408. -/
structure OutItem where
  kind : OutKind
  lines : List String
  ev : Option EvLine
  rejection : Bool
  outstanding : Bool            -- its first byte ends an outstanding line (R90, R114)
  onStart : List (Link × LinkMode)
  onEnd : Option EndAction
  deriving DecidableEq, Repr

/-- R102: what the console has seen of an escape sequence. -/
inductive EscState | none | esc | csi | param
  deriving DecidableEq, Repr

/-- A command link. part: the partial line, in order; over: it ran over 255 characters; tail: the last five characters of a
machine-mode line. -/
structure LinkState where
  mode : LinkMode
  evset : List (Nat × Nat)
  part : List Char
  tooLong : Bool
  tail : List Char
  esc : EscState
  afterCr : Bool                -- the last byte was a CR (R54)
  lastLine : List Char
  sOut : Nat                    -- S lines outstanding (R90)
  uOut : Nat                    -- U lines outstanding (R114)
  checkFails : Count32
  echo : List Byte              -- echo, prompt and editing bytes still to leave (R102)
  prompted : Bool               -- the prompt and the partial line stand at the end of the output (R92)
  leaving : List Byte           -- bytes still to leave of the line, or of the echo, that has started (R91)
  started : Bool                -- the first byte of the present item has left
  current : Option OutItem      -- the item whose line is leaving; its lines are those still to start
  paused : Option OutItem       -- a multi-line response between two of its lines (R91)
  urgentQ : List OutItem
  standardQ : List OutItem      -- S responses and EV lines in the order they became ready
  heldEv : List EvLine          -- occurrences counted while no EV line may be sent (R89)
  deriving DecidableEq, Repr

/-- The console beyond what both links have (R97 to R101). -/
structure Console where
  baud : Baud
  rate : Nat
  running : Bool
  deriving DecidableEq, Repr

/-- The host SPI port beyond what both links have (R104 to R109). -/
structure Hspi where
  mode3 : Bool
  selected : Bool               -- a transfer is under way
  statusLeft : Bool             -- the status byte has left in this transfer
  status : Byte                 -- the status byte of this transfer
  attnLow : Bool
  attnPulses : Nat              -- the falling edges given for U responses while it was low (R109)
  deriving DecidableEq, Repr

/-- What the parser made of a line. -/
inductive ParseRes | bad (e : SynErr) | good (p : Parsed)
  deriving DecidableEq, Repr

/-- An S line on its way to the steward (R72, R73, R90). frames: the current frame of each axis at reception; busy: it came
during an entry into SLEEP (R418). -/
structure Req where
  link : Link
  tag : Option String
  check : Option Nat            -- the check received (R80)
  computed : Nat                -- the check of the body as executed (R80)
  recv : Option TimeWord        -- the time word of the tick of reception
  frames : List (Option Frame)
  busy : Bool
  parsed : ParseRes
  deriving DecidableEq, Repr

/-- SYS.RESTARTCAUSE (R408). -/
inductive RestartCause | none | command | update | watchdog | storefault
  deriving DecidableEq, Repr

/-- An action that waits for its OK to leave: when the OK was ready, and whether its last byte has left (R407, R408). -/
structure Order where
  ready : Option TimeWord
  left : Bool
  deriving DecidableEq, Repr

/-- The steward (R90, R408 to R412). ordered: a restart that SYS RESTART or SYS UPDATE has arranged. -/
structure Steward where
  queue : List Req              -- the S lines it has not executed, oldest first
  absent : Bool
  ordered : Option (RestartCause × Order)
  restarts : Count32
  cause : RestartCause
  storeFaults : Count32
  deriving DecidableEq, Repr

end Sys2Proof.Machine
end

