-- ==== Sys2Proof/Machine/State/Boot.lean ====
section
/-! DEFINITION. The state of start-up, images and keys (spec/18). -/
namespace Sys2Proof.Machine

inductive ResetCause | poweron | pin | command | brownout
  deriving DecidableEq, Repr
inductive ImageSrc | flasha | flashb | download | update
  deriving DecidableEq, Repr
/-- R476. -/
inductive ImageFault
  | none | format | part | stepping | length | block | level | hash | vendorkey | vendorsig | custkey | custsig
  deriving DecidableEq, Repr
inductive KeySlot | empty | programmed | spoiled
  deriving DecidableEq, Repr
inductive BootStage | refwait | clusters | done
  deriving DecidableEq, Repr

/-- Where a start stands (R464, R468, R480). -/
inductive BootStep
  | held                        -- RESET# low, or a start recognised whose sequence has not begun
  | flash (slotB : Bool)        -- the ROM tries a flash slot
  | download
  | halted                      -- FLASH only, and every slot failed
  | building                    -- the image runs, the object store is not built
  | running
  deriving DecidableEq, Repr

/-- R468. -/
inductive BootMode | flashThenDownload | flashOnly | download
  deriving DecidableEq, Repr

/-- R473: what the device keeps of the header of the image that runs. -/
structure Image where
  version : BitVec 32
  level : Nat
  features : BitVec 64
  header : List Byte
  signature : List Byte
  deriving DecidableEq, Repr

/-- R472: the download buffer: written bytes by rising offset. -/
structure Download where
  size : Nat
  bytes : List (Nat × Byte)
  fault : ImageFault
  deriving DecidableEq, Repr

/-- R469: how the ROM reads the flash: the instruction, whether its data come on four lines (1-1-4), its dummy and mode
clocks, the divider of the ring clock, and the density in bytes; none: unknown. -/
structure FlashSetup where
  instruction : Nat
  quad : Bool
  dummy : Nat
  mode : Nat
  divider : Nat
  density : Option Nat
  deriving DecidableEq, Repr

structure Boot where
  step : BootStep
  mode : BootMode
  flash : Option FlashSetup     -- how the ROM reads the flash; none: it has not discovered it (R469)
  cause : ResetCause
  imageSrc : ImageSrc
  imageFault : ImageFault
  brownouts : Count32
  stage : BootStage
  image : Image
  nextImage : Option Image      -- the image a restart with cause UPDATE will run (R492)
  dl : Download
  keyStage : Vector (BitVec 64) 4
  keySlot : KeySlot
  keyHash : Vector (BitVec 64) 4
  stageSeg : Option (Fin 4096)
  bannerDone : Bool
  romBannerDone : Bool
  resetLow : Bool               -- RESET# is low
  resetOrder : Option Order     -- a hardware reset that SYS RESET has arranged (R407)
  deriving DecidableEq, Repr

end Sys2Proof.Machine
end

