-- ==== Sys2Proof/Machine/State/Fabric.lean ====
section
/-! DEFINITION. The state of the event fabric (spec/10). -/
namespace Sys2Proof.Machine

/-- A task input: its properties, its counts, and its drop counts in subscription order (R282, R286, R289). -/
structure Task where
  subs : List Nat
  isU : Bool
  confOnly : Bool
  collide : Count
  drops : Vector Count 4
  latchedCollide : Count
  latchedDrops : Vector Count 4
  deriving DecidableEq, Repr

/-- An assertion of a source on its way to a task (R283, R284). cycle: the first tick of the source's cycle; left: the fabric
cycles still to come before it may reach the task. -/
structure Delivery where
  src : Nat
  task : Fin 320
  sub : Nat
  isU : Bool
  cycle : TimeWord
  left : Nat
  flags : Flags
  deriving DecidableEq, Repr

/-- A delivery held by a confirmed-only task (R289). waits: the frames whose decision is still to come. -/
structure HeldDelivery where
  task : Fin 320
  sub : Nat
  flags : Flags
  waits : List ProvFrame
  shifted : Bool
  deriving DecidableEq, Repr

/-- An assertion of a task in the present fabric cycle (R286). -/
structure Assertion where
  task : Fin 320
  sub : Option Nat            -- the subscription that delivered it
  flags : Flags
  deriving DecidableEq, Repr

/-- R48, R276: the hand-over of the happenings of a source: the count that is being accepted, which holds still, and the
happenings that have come since, for the next hand-over. -/
structure Handover where
  src : Nat
  offered : Nat
  later : Nat
  deriving DecidableEq, Repr

/-- The event fabric. handover: the hand-overs in progress (R48, R276). -/
structure Fabric where
  transit : List Delivery
  held : List HeldDelivery
  asserted : List Assertion
  handover : List Handover
  recent : List (Nat × TimeWord × Flags)   -- occurrences of the latest two cycles (R311)
  deriving DecidableEq, Repr

end Sys2Proof.Machine
end

