-- ==== Sys2Proof/Machine/State/Frames.lean ====
section
/-! DEFINITION. The state of a measurement frame and its statistics block (spec/09). -/
namespace Sys2Proof.Machine

inductive ArmSrc | task | always | trg (n : Fin 8) | port (n : Fin 64)
  deriving DecidableEq, Repr

/-- The flags a statistics filter may name (R271). -/
inductive StatFlag | prov | shifted | nbr | ovd | late | hold | pair
  deriving DecidableEq, Repr

/-- The properties of a measurement frame, all of class H (R258, R273). -/
structure MfCfg where
  enable : Bool
  startPort : Option (Fin 64)
  startEdge : Sense
  stops : List (Fin 64)
  stopEdge : SenseSel
  stopMax : Nat
  window : Nat
  armSrc : ArmSrc
  armLevel : Bool
  restart : Bool
  records : Bool
  statsHold : Bool
  filter : List StatFlag
  deriving DecidableEq, Repr

/-- A converted edge as a measurement frame takes it (R244, R266). -/
structure MfEdge where
  port : Fin 64
  time : TimeWord
  sense : Sense
  flags : BitVec 16
  epoch : Byte
  prov : List ProvFrame
  deriving DecidableEq, Repr

/-- An open run (R262 to R265). early: the arm instant, for a run opened from ARMED. -/
structure MfRun where
  start : MfEdge
  run : BitVec 32
  early : Option TimeWord
  deriving DecidableEq, Repr

/-- byLevel: the frame is ARMED because the level of its source is high (R261). -/
inductive MfState | idle | armed (instant : TimeWord) (byLevel : Bool) | opened (r : MfRun)
  deriving DecidableEq, Repr

/-- A result that a closed run expects and that is still to form (R266, R268). -/
structure MfPre where
  idx : Nat
  run : BitVec 32
  start : MfEdge
  stop : Option MfEdge
  stopPort : Fin 64
  epoch : Byte              -- the epoch of the stop port's cluster at close
  deriving DecidableEq, Repr

/-- The statistics of one stop index (R271). -/
structure StatCell where
  idx : Nat
  n : Nat
  sum : Nat
  sumSq : Nat
  min : Nat
  max : Nat
  deriving DecidableEq, Repr

/-- A measurement frame. edges: the stop edges since arming that may still count; starts: start edges seen while
IDLE that an arming event may still find (R261, R262). -/
structure Mf where
  cfg : MfCfg
  state : MfState
  heldArm : Bool                -- an arming event came while the frame was OPEN
  heldRise : Bool               -- under LEVEL, the level rose while the frame was OPEN
  fell : Option TimeWord        -- IDLE since the level fell: the instant from which it had been ARMED
  nextRun : BitVec 32
  seq : Seq16
  edges : List MfEdge
  starts : List MfEdge
  closed : List (List MfPre)    -- runs with results still to form, oldest first
  out : List FifoRec            -- results on their way to the central FIFO, oldest first (R267)
  stats : List StatCell         -- by rising index, only indices with results
  early : Count
  latchedStats : List StatCell
  latchedEarly : Count
  deriving DecidableEq, Repr

end Sys2Proof.Machine
end

