-- ==== Sys2Proof/Machine/State/Port.lean ====
section
/-! DEFINITION. The state of a port: its properties, its output path, its input path, its calibration
(spec/08, spec/09, spec/13). -/
namespace Sys2Proof.Machine

/-- R209. -/
inductive PortMode | pulse | echo | tone | pattern | stamp | gate
  deriving DecidableEq, Repr

/-- R228. -/
inductive Retrig | ignore | queue | restart
  deriving DecidableEq, Repr

/-- What a tone's change, or its staged target, waits for (R232). -/
inductive ToneTarget
  | none
  | time (w : TimeWord)
  | pos (axis : Fin 4) (frame : Frame) (off : Nat) (bound : Option TimeWord)
  deriving DecidableEq, Repr

/-- The properties of a port with reset class C (R213, R218, R229, R234, R238, R241, R245, R251, R254, R341, R348,
R358). A threshold of none is AUTO. -/
structure PortCfg where
  mode : PortMode
  output : Bool
  invert : Bool
  axis : Option (Fin 4)
  delay : Nat
  width : Nat
  trigSrc : Option EdgeSrc
  trigEdge : Sense
  retrig : Retrig
  once : Bool
  ftw : Nat
  ftwNext : Nat
  toneAt : ToneTarget
  toneReset : Bool
  toneOrigin : TimeWord
  swing : Nat
  drive : Nat
  thresh : Option Int
  hyst : Nat
  inOffset : Int
  stampEdge : SenseSel
  record : Bool
  gateSrc : Option (Fin 64)
  gateLow : Bool
  calAxis : Option (Fin 4)
  defer : Bool
  pair : Bool
  deriving DecidableEq, Repr

/-- Where a pulse of the queue comes from (R214, R219, R224). -/
inductive PulseOrigin
  | schedTime (target : TimeWord)
  | schedAxis (axis : Fin 4) (frame : Frame) (off : Nat)
  | padTrigger (instant : TimeWord)
  | taskTrigger (instant : TimeWord)
  deriving DecidableEq, Repr

/-- A pulse of the edge queue (R219, R220). lead: its leading edge once bound; trail: its trailing edge, which a
cut or a merge may move (R228); high: its leading edge has left; moved: QUEUE moved it; late: CALPOLICY=DEFER did. -/
structure Pulse where
  origin : PulseOrigin
  lead : Option TimeWord
  width : Nat
  trail : TimeWord
  committed : Bool
  high : Bool
  moved : Bool
  late : Option TimeWord    -- its nominal leading edge (R349)
  flags : Flags
  dtc : Option Int          -- the DTC setting of its leading edge, given at commit (R353, R355)
  dtcTrail : Option Int     -- and of its trailing edge
  deriving DecidableEq, Repr

/-- The level that a tone holds from an instant until another, whatever its phase (R231, R234); until none: until an edge
of a later change. Instants of a tone count the tu of the tick domain (Timebase.ticks), so no step of the time word moves
them. -/
structure ToneHold where
  high : Bool
  since : Int
  until_ : Option Int
  deriving DecidableEq, Repr

/-- A tone (R230 to R234): running, the phase it has on a tick, and the level it holds before it follows its phase. A
tone that has stopped is low once its hold is over. -/
structure Tone where
  running : Bool
  base : Int
  basePhase : BitVec 48
  hold : Option ToneHold
  deriving DecidableEq, Repr

/-- A converted edge on its way through the port (R244, R248). -/
structure Conv where
  stop : TimeWord           -- its stop tick
  code : Nat                -- its raw code
  edge : TimeWord           -- its time word at conversion, without the input offset (R245)
  sense : Sense             -- at the pad
  q : Option Nat            -- Q of the last completed pair, under CAL=PAIR (R358)
  echo : Bool
  own : Bool                -- an edge that the port itself emitted in ECHO mode (R235)
  late : Bool
  flags : Flags             -- of the pulse an ECHO edge belongs to
  deriving DecidableEq, Repr

/-- An edge that an ECHO port has emitted and not yet converted (R235). -/
structure EchoEdge where
  rising : Bool             -- before polarity
  late : Bool
  flags : Flags
  deriving DecidableEq, Repr

/-- A held ECHO result (R201): the record's fields but for the frame's flags, the check and SEQ. -/
structure HeldEcho where
  time : TimeWord
  falling : Bool
  flags : BitVec 16
  waits : List ProvFrame
  shifted : Bool
  deriving DecidableEq, Repr

/-- A pad trigger that the port has not decided yet (R214 to R217): its instant, the port it comes from (none: a trigger
input), and the DELAY and WIDTH in force at its instant. -/
structure PadTrig where
  instant : TimeWord
  source : Option (Fin 64)
  delay : Nat
  width : Nat
  deriving DecidableEq, Repr

/-- A task trigger on its way to its instant (R214): the fabric cycles still to come, its instant, the arm state that the
cycle of its assertion gave the port (R287), and its flags. -/
structure TaskTrig where
  left : Nat
  instant : TimeWord
  armed : Bool
  flags : Flags
  deriving DecidableEq, Repr

/-- A change of level of an input (R218, R252, R350). -/
structure LevelChange where
  time : TimeWord
  high : Bool
  deriving DecidableEq, Repr

/-- One over-range episode: A, and Z once the detector has deasserted (R255, R257). -/
structure OvSpan where
  a : TimeWord
  z : Option TimeWord
  deriving DecidableEq, Repr

/-- The counts of a port that are read through snapshots (R82). -/
structure PortCounts where
  emits : Count
  stamps : Count
  miss : Count
  late : Count
  ovd : Count
  drops : Count
  deriving DecidableEq, Repr

def PortCounts.zero : PortCounts := ⟨0, 0, 0, 0, 0, 0⟩

/-- R359, R388: where a table set comes from. -/
inductive CalOrigin | full | short | rota | imported
  deriving DecidableEq, Repr

/-- A calibration table set in force (R352 to R355, R360). -/
structure TableSet where
  gen : Nat
  origin : CalOrigin
  time : TimeWord
  temp : Int
  stepping : Byte
  hits : Nat
  qref : Nat
  d : List Nat
  c : List Int
  offRise : Int
  offFall : Int
  fallSkew : Int
  deriving DecidableEq, Repr

/-- What the rota has measured on a port since its last table (R347, R352, R353). Histogram and points list only
codes with hits and points with measurements. -/
structure CalAccum where
  hist : List (Nat × Nat)
  total : Nat
  dtcNext : Nat
  points : List (Nat × Int × Nat)
  offRise : Int
  offFall : Int
  fallSkew : Int
  q : Nat
  deriving DecidableEq, Repr

/-- R242: the threshold and hysteresis before a change at the DAC, and the instant of the change. -/
structure Settling where
  thresh : Int
  hyst : Nat
  since : TimeWord
  deriving DecidableEq, Repr

/-- A port. -/
structure Port where
  cfg : PortCfg
  lastChange : TimeWord
  -- output path
  queue : List Pulse
  armed : Bool
  tone : Tone
  outHeld : Option Bool     -- the level held at the pad during a calibration window (R346)
  outHigh : Bool            -- the logical level the queue's pulses give the output
  lastTrail : Option TimeWord   -- the trailing edge that left last
  laneFrom : TimeWord       -- when its cluster was last found ACTIVE and the port in PATTERN mode (R301)
  emitted : List EchoEdge   -- oldest first
  pads : List PadTrig       -- oldest first
  fires : List TaskTrig     -- oldest first
  arms : List (TimeWord × Bool)   -- the latest arm states, each with the instant from which it holds, newest first (R217)
  -- input path
  lastConv : Option TimeWord
  stage : List Conv
  taken : Option TimeWord   -- when the formatter took its latest conversion (R248)
  gated : List Conv         -- conversions whose gate is not decided, oldest first (R254)
  heldEcho : List HeldEcho
  buffer : List StampRec
  seq : Seq16
  lastGen : Option Nat      -- the generation of the previous table set (R355)
  level : List LevelChange  -- newest first
  samples : List LevelChange   -- level samples, newest first (R333)
  blind : List (TimeWord × Option TimeWord)   -- spans in which a checker does not compare, newest first (R334)
  overrange : Bool
  ovSpans : List OvSpan     -- newest first
  q : Nat                   -- Q of the last completed pair (R358)
  settling : Option Settling   -- the latest change at the threshold DAC (R242)
  -- calibration
  due : TimeWord
  calLate : Bool
  lateSeen : Bool           -- its present due time has been found late (R343)
  accum : CalAccum
  table : Option TableSet
  staging : List (Nat × List Byte)
  counts : PortCounts
  latched : PortCounts
  deriving DecidableEq, Repr

/-- R218: a trigger input. An INPUT standard is one of four. -/
inductive TrgInput | lvds | lvcmos18 | lvcmos25 | lvcmos33
  deriving DecidableEq, Repr

/-- R218: a trigger input and its level. -/
structure Trg where
  input : TrgInput
  edge : SenseSel
  level : List LevelChange  -- newest first; the oldest is the level sampled at the latest lock
  deriving DecidableEq, Repr

end Sys2Proof.Machine
end

