-- ==== Sys2Proof/Machine/State/Spire.lean ====
section
/-! DEFINITION. The state of the segment store, the pattern groups, their Spire engines and the marker outputs
(spec/11). -/
namespace Sys2Proof.Machine

/-- A written block of a segment: its index, its 1024 bytes, its stored check, and whether it holds an error that
ECC cannot correct (R293, R294, R319). -/
structure Block where
  idx : Nat
  bytes : List Byte
  check : BitVec 32
  bad : Bool
  deriving DecidableEq, Repr

/-- A defined segment (R292, R294): written blocks by rising index. -/
structure Segment where
  id : Fin 4096
  length : Nat
  width : Nat
  written : List Block
  deriving DecidableEq, Repr

inductive SafeLevel | low | high | hold
  deriving DecidableEq, Repr

inductive StartPol | ignore | restart | queue
  deriving DecidableEq, Repr

inductive GroupState | idle | running | waiting | halted
  deriving DecidableEq, Repr

/-- R307, R312, R315, R317, R319. -/
inductive HaltCause
  | none | program | ended | stop | check | depth | struct | looperr | noseg | axis | timeout | timebase
  deriving DecidableEq, Repr

/-- What a wait waits for (R305). -/
inductive WaitOn | step | event (e : Fin 384)
  deriving DecidableEq, Repr

/-- R305: the instructions of a Spire program. -/
inductive SpireInstr
  | playSeg (s : Fin 4096)
  | playSlot (k : Fin 8)
  | loop (n : Option Nat)                                        -- none: FOREVER
  | endloop
  | call (i : Nat)
  | ret
  | wait (on : WaitOn) (timeout : Option Nat) (onTimeout : Option Bool)   -- some true: HALT written
  | align (a : Fin 4) (off : Nat) (isCount : Bool)
  | mkset (h : Fin 4)
  | mkclr (h : Fin 4)
  | halt
  deriving DecidableEq, Repr

/-- The properties of a group, all of class H (R320). -/
structure GroupCfg where
  lanes : List (Fin 64)
  safe : SafeLevel
  waitIdle : Bool
  idleSeg : Option (Fin 4096)
  slots : List (Fin 4096)
  skip : Bool
  startPol : StartPol
  deriving DecidableEq, Repr

/-- What the engine has worked out beyond the current step (R296): a step to play, or what stands between steps. -/
inductive PlanItem
  | play (idx : Nat) (seg : Segment)
  | wait (idx : Nat) (on : WaitOn) (timeout : Option Nat) (halts : Bool)
  | align (idx : Nat) (a : Fin 4) (off : Nat)
  | mark (h : Fin 4) (on : Bool)
  | loopEnd
  | restart (prov : List ProvFrame)                              -- a queued START takes over (R318)
  | halt (c : HaltCause)
  deriving DecidableEq, Repr

/-- Where prefetch stands in the program: next index, loop stack (index of the body, iterations left, none:
without end) and call stack, instructions executed without a PLAY (R306, R307). -/
structure Fetch where
  idx : Nat
  loops : List (Nat × Option Nat)
  calls : List Nat
  sincePlay : Nat
  done : Bool
  deriving DecidableEq, Repr

/-- The step that plays (R300): its segment, its first tick, and its first failing block (R319). -/
structure StepRun where
  idx : Nat
  seg : Segment
  start : TimeWord
  failAt : Option Nat           -- the first sample of the first failing block
  failed : Bool
  deriving DecidableEq, Repr

/-- Steps that a STEP assertion has added and that no wait has taken yet: the cycle of the assertion, their number, and the
frames in which they are provisional (R288, R310). -/
structure StepBatch where
  time : TimeWord
  n : Nat
  prov : List ProvFrame
  deriving DecidableEq, Repr

/-- A START under RESTART: its boundary, the steps that apply to the program it will begin, and the frames in which it is
provisional (R288, R318). -/
structure Restart where
  at_ : TimeWord
  steps : List StepBatch
  prov : List ProvFrame
  deriving DecidableEq, Repr

/-- What a WAITING group waits for: a wait from B, or an aligned position (R310 to R315). ends: the boundary at which a wait
that is over ends; halts: a timeout halts the group, or has. -/
inductive Waiting
  | wait (on : WaitOn) (b : TimeWord) (timeout : Option Nat) (halts : Bool) (ends : Option TimeWord)
  | align (a : Fin 4) (off : Nat) (frame : Option Frame) (bound : Option TimeWord) (committed : Bool)
  deriving DecidableEq, Repr

/-- A pattern group and its engine. -/
structure Group where
  cfg : GroupCfg
  slotsLive : List (Fin 4096)
  state : GroupState
  stepIdx : Nat
  cause : HaltCause
  checkFails : Count32
  program : List (Nat × SpireInstr)    -- by rising index
  counted : List StepBatch             -- the steps counted, oldest first (R310)
  grid : TimeWord                      -- S or the latest aligned start: the origin of the granule grid
  fetch : Fetch
  plan : List PlanItem
  cur : Option StepRun
  waiting : Option Waiting
  waitFrom : TimeWord                  -- the instant from which the group waits
  queuedStart : Option (List ProvFrame)   -- a held START, with its frames
  stopAt : Option TimeWord             -- STOP has acted: SAFE from this tick (R317)
  restarts : List Restart              -- STARTs under RESTART, in order of boundary (R318)
  markers : Vector Bool 4
  markNext : List (Fin 4 × Bool)       -- marker instructions executed before the next step (R304)
  lastSample : Option (List (BitVec 4))
  skipping : Bool                      -- SAFE until the end of a step with a failing block
  prov : List ProvFrame                -- the frames in which the present step is provisional (R316)
  provNext : List ProvFrame            -- the frames in which the next step will be
  begun : Bool                         -- a step has played since START acted
  deriving DecidableEq, Repr

/-- R303: a source of a marker output. -/
inductive MarkSrc | none | sample (g : Fin 8) (lane : Fin 16) (bit : Bool) | held (g : Fin 8) (h : Fin 4)
  deriving DecidableEq, Repr

structure Marker where
  src : MarkSrc
  invert : Bool
  output : Bool
  deriving DecidableEq, Repr

/-- An open assembly of an upload (R142). -/
structure Assembly where
  seg : Nat
  block : Nat
  quarters : List (Nat × BitVec 32 × List Byte)
  lastSeq : Nat
  lastArrival : TimeWord
  deriving DecidableEq, Repr

end Sys2Proof.Machine
end

