-- ==== Sys2Proof/Machine/State/Stream.lean ====
section
/-! DEFINITION. The state of the stream port and the central FIFO (spec/05). -/
namespace Sys2Proof.Machine

inductive SpRate | lr1250 | lr2500 | lr3125
  deriving DecidableEq, Repr

/-- R125. -/
inductive SpLink | down | train | up
  deriving DecidableEq, Repr

/-- R142: the outcome of a block or of one upload frame. -/
inductive UpCode | accepted | active | noseg | range | mismatch | noslot | timeout | format
  deriving DecidableEq, Repr

/-- R143: an entry of an UPSTATUS frame. -/
structure UpEntry where
  seg : Nat
  block : Nat
  code : UpCode
  seq : Nat
  deriving DecidableEq, Repr

/-- R129, R130: the types of a device's frames. -/
inductive FrameType | stamp | result | event | overflow | credit | upstatus
  deriving DecidableEq, Repr

/-- A frame that a transmit lane has sent (R128 to R133): the records it delivered, and its payload. -/
structure SpFrame where
  channel : Nat
  ty : FrameType
  seq : Seq16
  recs : List FifoRec
  payload : List Byte
  deriving DecidableEq, Repr

/-- R121, R128: a frame that a lane has received whole: its bytes, whether a code error stands in it, and whether ABORT ended
it. -/
structure RxFrame where
  bytes : List Byte
  bad : Bool
  aborted : Bool
  deriving DecidableEq, Repr

/-- A receive lane (R123, R140): locked, the credit limit, and the frames in its 16 buffers, oldest first. -/
structure RxLane where
  locked : Bool
  limit : BitVec 16
  buf : List RxFrame
  deriving DecidableEq, Repr

/-- A transmit lane (R128 to R133): the latest frame it was given since the link entered UP, the code groups of that frame
as it sends them, and the ticks until the lane is free. -/
structure TxLane where
  last : Option SpFrame
  line : List (BitVec 10)
  busy : Nat
  deriving DecidableEq, Repr

/-- R133: a frame in progress on a lane: the records that it will have delivered once its EOF has been sent, in left ticks.
-/
structure Flight where
  lane : Fin 4
  ch : Fin 6
  recs : List FifoRec
  left : Nat
  deriving DecidableEq, Repr

/-- R145: the drops of one source in an overflow episode. -/
structure DropRec where
  source : Nat
  firstSeq : Seq16
  drops : Nat
  deriving DecidableEq, Repr

/-- The central FIFO (R144, R145). Records of the B partition by channel, oldest first; an episode holds its drops by
rising source, none: no episode is open. flights: the frames in progress, in order of their start; their records keep their
slots until they are delivered (R133). -/
structure Fifo where
  urecs : List FifoRec
  stamps : List FifoRec
  results : List FifoRec
  events : List FifoRec
  overflows : List FifoRec
  flights : List Flight
  bEpisode : Option (List DropRec)
  uEpisode : Option (List DropRec)
  eccCorr : Count32
  eccDrops : Count32
  eccNew : Nat                  -- records dropped since the latest publication (R384)
  deriving DecidableEq, Repr

/-- The stream port (R121 to R150). -/
structure Stream where
  enable : Bool
  rate : SpRate
  txLanes : Nat
  rxLanes : Nat
  link : SpLink
  linkDowns : Count32
  rx : Vector RxLane 2
  lanes : Vector TxLane 4
  trainFrom : TimeWord                 -- when the link entered TRAIN (R125)
  seqs : Vector Seq16 6                -- the next SEQ of channels 0x00 to 0x05
  creditDue : Bool                     -- a limit changed and no CREDIT frame has carried it (R141)
  lane0Quiet : TimeWord                -- the end of the latest frame of lane 0, or when the link entered UP
  status : List UpEntry
  assemblies : List Assembly
  evset : List (Nat × Nat)
  lastMark : Option TimeWord           -- the tick of the latest TIMEMARK that still serves (R137)
  rxBadCrc : Count32
  rxNoCredit : Count32
  uports : List (Fin 64)
  frames : Count
  latchedFrames : Count
  deriving DecidableEq, Repr

end Sys2Proof.Machine
end

