-- ==== Sys2Proof/Machine/State/Sync.lean ====
section
/-! DEFINITION. The state of multi-device alignment (spec/17). -/
namespace Sys2Proof.Machine

inductive SyncRole | none | leader | follower
  deriving DecidableEq, Repr
inductive SyncState | off | lead | hunt | stepwait | locked | hold
  deriving DecidableEq, Repr

/-- R448: a message under reception: the START instant that the follower predicted, the rising edges of its pulses and the
data bits read so far, oldest first. -/
structure Message where
  pred : TimeWord
  rises : List TimeWord
  bits : List Bool
  deriving DecidableEq, Repr

/-- R445, R446: the train that the leader sends: G, the next k, the time word of the message under way. -/
structure Train where
  g : TimeWord
  k : Nat
  word : TimeWord
  deriving DecidableEq, Repr

structure Sync where
  role : SyncRole
  period : Nat
  delay : Nat
  catchTu : Nat
  avg : Nat
  slew : Nat
  ret : Bool
  state : SyncState
  error : Int
  steps : Count32
  errs : Count32
  train : Option Train
  rise : Option (TimeWord × TimeWord)   -- the rising edge of the present pulse, and the sync instant expected for it
  msg : Option Message
  offset : Int                  -- O of the latest decoded message
  s : TimeWord                  -- the next sync instant expected (R452)
  r : Int                       -- tu of earlier corrections not yet applied
  frac : Nat                    -- the fraction of a tu a slew has left, in 10^-9 × tu
  slewed : Option Nat           -- the tick count at the start of the fabric cycle of the latest slew
  sum : Int
  n : Nat
  rejected : Nat
  lastPass : TimeWord
  values : List Int             -- e − r of the pulses of the present message, newest first (R456)
  out : List (TimeWord × Nat)   -- pulses sent on SYNCOUT: rising edge and width, newest first
  deriving DecidableEq, Repr

end Sys2Proof.Machine
end

