-- ==== Sys2Proof/Machine/State/Timebase.lean ====
section
/-! DEFINITION. The state of the time word, the references, the timebase PLL and Cupola (spec/01, spec/02, spec/06). -/
namespace Sys2Proof.Machine

/-- R39. -/
inductive ClkSrc | ring | pll
  deriving DecidableEq, Repr

inductive RefState | acquire | locked | holdover | unlocked
  deriving DecidableEq, Repr
inductive RefBw | bw2k | bw20k | bw100k
  deriving DecidableEq, Repr
inductive RefRole | candidate | monitor | off
  deriving DecidableEq, Repr
inductive RefInput | lvds | diffAc | sineAc | lvcmos18 | lvcmos25 | lvcmos33
  deriving DecidableEq, Repr
/-- R164: a comparison source. -/
inductive Compare | ref (x : Fin 4) | ring | none
  deriving DecidableEq, Repr
/-- R169. -/
inductive Qual | absent | unqual | good | warn | fail
  deriving DecidableEq, Repr

/-- A reference. results: the last ten 1 s results, newest first (R168); okRun: 1 s results in a row within the exit limit
of FAIL (R166); presentFor: whole 1 s windows it has been present without a break; whole: it has been present since the
present window began; bad1, bad10: within the present 1 s or 10 s window it or its comparison source was lost, or that
source in FAIL (R165); had10: a 10 s result since it became present (R169); goodFor: seconds it has been GOOD (R174). -/
structure Ref where
  role : RefRole
  input : RefInput
  freq : Nat
  compare : Compare
  warn : Nat
  fail : Nat
  hyst : Nat
  wanderMax : Nat
  qualTime : Nat
  present : Bool
  qual : Qual
  cmpValid : Bool
  offset1 : Int
  offset10 : Int
  wander : Nat
  losses : Count32
  glitches : Count32
  results : List Int
  okRun : Nat
  inFail : Bool
  inWarn : Bool
  presentFor : Nat
  whole : Bool
  bad1 : Bool
  bad10 : Bool
  had10 : Bool
  goodFor : Nat
  deriving DecidableEq, Repr

/-- What the PLL is doing beside REF.STATE: an attempt at a reference, a frozen loop, a measurement of a new reference's
phase (R156, R163, R175). lost: the reference that the loop followed is lost or has failed, so no history grows (R177). -/
inductive PllJob | idle | attempt (x : Fin 4) (since : TimeWord) | frozen | buildOut (x : Fin 4) (lost : Bool)
  deriving DecidableEq, Repr

/-- The timebase (R14, R39, R156 to R181). started: the first lock has come, so a time word exists; phase: ticks since
the first tick of the present fabric cycle; ticks: ticks counted since the first lock; lockTicks: ticks of locked history
(R177). -/
structure Timebase where
  now : TimeWord
  started : Bool
  running : Bool                -- the time word counts (not before the first lock, not in SLEEP)
  phase : Nat
  ticks : Nat
  clkSrc : ClkSrc
  refs : Vector Ref 4
  state : RefState
  bw : RefBw
  lockLosses : Count32
  auto : Bool
  priority : List (Fin 4)
  active : Option (Fin 4)
  revert : Bool
  revertWait : Nat
  switches : Count32
  holdAvg : Nat
  holdovers : Count32
  job : PllJob
  lockTicks : Nat
  snapTime : TimeWord
  snapSeq : Seq16
  timeFmt : TimeFmt
  deriving DecidableEq, Repr

end Sys2Proof.Machine
end

