-- ==== Sys2Proof/Machine/State.lean ====
section
/-! DEFINITION. The state of the block, all of it as plain data, and the state after a power-on. The default values are
those of the property tables of spec/02 to spec/19; what those tables leave open is named in notes/assumptions. -/
namespace Sys2Proof.Machine

/-- The rota's own state (spec/13, spec/19). heldSince: the instant from which it was held or paused (R344). -/
structure CalState where
  period : Nat
  hold : Bool
  rotaLates : Count32
  voidWindows : Count32
  span : Option TimeWord        -- the beginning of the open switch span (R495)
  doomed : Nat                  -- windows discarded in the open switch span (R495)
  lastOpen : Option (Fin 64)    -- the port of the latest window (R340)
  deriving DecidableEq, Repr

/-- The segment store (R292 to R295): the defined segments by rising number. -/
structure SegStore where
  segs : List Segment
  defWidth : Nat
  eccCorr : Count32
  deriving DecidableEq, Repr

/-- The whole state. -/
structure State where
  tb : Timebase
  axes : Vector Axis 4
  clusters : Vector Cluster 8
  ports : Vector Port 64
  trgs : Vector Trg 8
  mfs : Vector Mf 16
  fabric : Fabric
  tasks : Vector Task 320
  store : SegStore
  groups : Vector Group 8
  markers : Vector Marker 16
  ags : Vector Ag 8
  cal : CalState
  steward : Steward
  con : LinkState
  hspi : LinkState
  console : Console
  spi : Hspi
  sp : Stream
  fifo : Fifo
  bel : Belfry
  sync : Sync
  boot : Boot
  sysEcc : Count32
  pending : List Instr
  deriving DecidableEq, Repr

/-- Why a step stops with a fault. -/
inductive Fault
  /-- Raised by no meaning: every command of the table has an effect in every state. Safe. -/
  | noEffect
  deriving DecidableEq, Repr

/-- Why a step refuses a command. -/
inductive Refusal
  /-- A command of the table that has no meaning yet, by its mnemonic. Raised by the arms of Dispatch.lean only. Safe. -/
  | notModelled (mnemonic : String)
  deriving DecidableEq, Repr

/-! ### Values at reset -/

/-- PortCfg at reset. -/
def PortCfg.default : PortCfg :=
  { mode := .stamp, output := false, invert := false, axis := none, delay := 360000, width := 1000000, trigSrc := none,
    trigEdge := .rise, retrig := .ignore, once := false, ftw := 0, ftwNext := 0, toneAt := .none, toneReset := false,
    toneOrigin := 0, swing := 350, drive := 8, thresh := none, hyst := 10000, inOffset := 0, stampEdge := .rise,
    record := false, gateSrc := none, gateLow := false, calAxis := none, defer := false, pair := false }

/-- Tone at reset. -/
def Tone.default : Tone := { running := false, base := 0, basePhase := 0, hold := none }

def CalAccum.empty : CalAccum :=
  { hist := [], total := 0, dtcNext := 0, points := [], offRise := 0, offFall := 0, fallSkew := 0, q := 0 }

/-- Port at reset. (DESIGN CHOICE, notes/assumptions/12.md) (DEDUCED, notes/assumptions/35.md) -/
def Port.default : Port :=
  { cfg := PortCfg.default, lastChange := 0, queue := [], armed := true, tone := Tone.default, outHeld := none,
    outHigh := false, lastTrail := none, laneFrom := 0, emitted := [], pads := [], fires := [], arms := [],
    lastConv := none, stage := [], taken := none, gated := [], heldEcho := [], buffer := [],
    seq := 0, lastGen := none,
    level := [], samples := [], blind := [(0, none)], overrange := false, ovSpans := [], q := 0, settling := none,
    due := 0, calLate := false, lateSeen := false,
    accum := CalAccum.empty,
    table := none, staging := [], counts := PortCounts.zero, latched := PortCounts.zero }

/-- Trg at reset. -/
def Trg.default : Trg := { input := .lvds, edge := .rise, level := [] }

/-- CatchVals at reset. -/
def CatchVals.default : CatchVals :=
  { gain := 4, pull := 1000, catchTu := 10000000, tsettle := 20000, tretract := 2000000, missmax := 4 }

/-- AxisCfg at reset. -/
def AxisCfg.default : AxisCfg :=
  { mode := .free, source := .mark, edge := .rise, period := 10000000000, firstFrame := 0, origin := 0,
    countSrc := none, counts := 1024, countTol := 0, vals := CatchVals.default, runAhead := true, quietAt := [],
    quietLen := [] }

/-- Axis at reset. (DESIGN CHOICE, notes/assumptions/12.md) -/
def Axis.default : Axis :=
  { cfg := AxisCfg.default, inForce := CatchVals.default, state := .lost, anchor := none, period := 0, misses := 0,
    acquired := [], lastUsable := none, pendIdx := [], pendCnt := [], retractedIn := none, gen := 0,
    lastTaken := none, decided := [], lastError := 0, count := 0,
    slips := 0, losses := 0, retracts := 0,
    latched := { frame := none, index := none, period := 0, error := 0 } }

/-- Cluster at reset. (DESIGN CHOICE, notes/assumptions/12.md) -/
def Cluster.default : Cluster :=
  { state := .off, phase := .none, powered := false, offCause := .startup, faultCause := .none, iostd := .lvds,
    vddio := .none, bank := .none, drainWait := 100000000000, drainEmitted := 0, discarded := 0,
    emittedSoFar := 0, removedSoFar := 0,
    joinAxis := none, joinAt := none, fix := none, joinProv := [], epoch := 0, entries := 0, entered := false, calTurn := false,
    calDone := false, short := false, window := none, turn := 7, moved := none, span := none }

/-- MfCfg at reset. -/
def MfCfg.default : MfCfg :=
  { enable := false, startPort := none, startEdge := .rise, stops := [], stopEdge := .rise, stopMax := 1,
    window := 10000000, armSrc := .task, armLevel := false, restart := false, records := true, statsHold := false,
    filter := [.ovd, .nbr] }

/-- Mf at reset. (DEDUCED, notes/assumptions/35.md) -/
def Mf.default : Mf :=
  { cfg := MfCfg.default, state := .idle, heldArm := false, heldRise := false, fell := none, nextRun := 0, seq := 0,
    edges := [], starts := [],
    closed := [], out := [], stats := [], early := 0, latchedStats := [], latchedEarly := 0 }

/-- Task at reset. -/
def Task.default : Task :=
  { subs := [], isU := false, confOnly := false, collide := 0, drops := Vector.replicate 4 0, latchedCollide := 0,
    latchedDrops := Vector.replicate 4 0 }

/-- Nothing under way in the fabric. (DESIGN CHOICE, notes/assumptions/13.md) -/
def Fabric.empty : Fabric := { transit := [], held := [], asserted := [], handover := [], recent := [] }

def SegStore.empty : SegStore := { segs := [], defWidth := 16, eccCorr := 0 }

/-- GroupCfg at reset. -/
def GroupCfg.default : GroupCfg :=
  { lanes := [], safe := .low, waitIdle := false, idleSeg := none, slots := [], skip := false, startPol := .ignore }

def Fetch.start : Fetch := { idx := 0, loops := [], calls := [], sincePlay := 0, done := false }

/-- Group at reset. -/
def Group.default : Group :=
  { cfg := GroupCfg.default, slotsLive := [], state := .idle, stepIdx := 0, cause := .none, checkFails := 0,
    program := [], counted := [], grid := 0, fetch := Fetch.start, plan := [], cur := none, waiting := none, waitFrom := 0,
    queuedStart := none, stopAt := none, restarts := [], markers := Vector.replicate 4 false, markNext := [],
    lastSample := none, skipping := false, prov := [], provNext := [], begun := false }

/-- Marker at reset. -/
def Marker.default : Marker := { src := .none, invert := false, output := false }

/-- AgCfg at reset. -/
def AgCfg.default : AgCfg :=
  { role := .off, group := none, rate := 1, gate := .always, map := [], func := .prbs31, seed := 0xFFFFFFFF#32,
    inv := .auto, patLen := 32, dWidth := 1, aWidth := 8,
    march := [⟨false, [⟨false, false⟩]⟩, ⟨false, [⟨true, false⟩]⟩], complement := false, background := .solid,
    colBits := 0, loop := false, strobeOn := 0, strobeOff := 1, inputs := [], sampleAt := 0, lockBits := 64,
    lossErr := 16, lossWin := 256 }

/-- Ag at reset. -/
def Ag.default : Ag :=
  { cfg := AgCfg.default, state := .stopped, wordGrid := 0, next := 0, reg := 0, stream := 0, pos := ⟨0, 0, 0⟩,
    finished := false, lastWrite := 0, word := none, due := [], past := [], acq := ⟨[], none, 0⟩, lock := false,
    window := [], lockLosses := 0, firstErr := none, bits := 0, errors := 0, latchedBits := 0, latchedErrors := 0 }

/-- CalState at reset. (DESIGN CHOICE, notes/assumptions/13.md) -/
def CalState.default : CalState :=
  { period := 250000000000, hold := false, rotaLates := 0, voidWindows := 0, span := none, doomed := 0,
    lastOpen := none }

/-- LinkState at reset. -/
def LinkState.default (m : LinkMode) (ev : List (Nat × Nat)) : LinkState :=
  { mode := m, evset := ev, part := [], tooLong := false, tail := [], esc := .none, afterCr := false, lastLine := [], sOut := 0,
    uOut := 0, checkFails := 0, echo := [], prompted := false, leaving := [], started := false,
    current := none, paused := none, urgentQ := [], standardQ := [], heldEv := [] }

def LinkState.conReset : LinkState := LinkState.default .typed [(368, 383)]
def LinkState.hspiReset : LinkState := LinkState.default .machine []

/-- Console at reset. (DESIGN CHOICE, notes/assumptions/12.md) -/
def Console.default : Console := { baud := none, rate := 0, running := false }

/-- Hspi at reset. (DESIGN CHOICE, notes/assumptions/12.md) -/
def Hspi.default : Hspi :=
  { mode3 := false, selected := false, statusLeft := false, status := 0x04, attnLow := false, attnPulses := 0 }

/-- Steward at reset. -/
def Steward.default : Steward := { queue := [], absent := true, ordered := none, restarts := 0, cause := .none, storeFaults := 0 }

/-- RxLane at reset. (DESIGN CHOICE, notes/assumptions/12.md) -/
def RxLane.default : RxLane := { locked := false, limit := 0, buf := [] }

/-- A transmit lane that has sent no frame. -/
def TxLane.default : TxLane := { last := none, line := [], busy := 0 }

/-- Stream at reset. (DEDUCED, notes/assumptions/35.md) -/
def Stream.default : Stream :=
  { enable := false, rate := .lr3125, txLanes := 4, rxLanes := 2, link := .down, linkDowns := 0,
    rx := Vector.replicate 2 RxLane.default, lanes := Vector.replicate 4 TxLane.default, trainFrom := 0, seqs := Vector.replicate 6 0,
    creditDue := false, lane0Quiet := 0, status := [], assemblies := [], evset := [], lastMark := none, rxBadCrc := 0,
    rxNoCredit := 0, uports := [], frames := 0, latchedFrames := 0 }

/-- The empty central FIFO. (DESIGN CHOICE, notes/assumptions/13.md) -/
def Fifo.empty : Fifo :=
  { urecs := [], stamps := [], results := [], events := [], overflows := [], flights := [], bEpisode := none, uEpisode := none,
    eccCorr := 0, eccDrops := 0, eccNew := 0 }

/-- Ref at reset. (DESIGN CHOICE, notes/assumptions/12.md) -/
def Ref.default : Ref :=
  { role := .candidate, input := .diffAc, freq := 10000000, compare := .ring, warn := 20000, fail := 50000,
    hyst := 2000, wanderMax := 0, qualTime := 10, present := false, qual := .absent, cmpValid := false, offset1 := 0,
    offset10 := 0, wander := 0, losses := 0, glitches := 0, results := [], okRun := 0, inFail := false,
    inWarn := false, presentFor := 0, whole := false, bad1 := true, bad10 := true, had10 := false, goodFor := 0 }

/-- Timebase at reset. (DESIGN CHOICE, notes/assumptions/12.md) -/
def Timebase.default : Timebase :=
  { now := 0, started := false, running := false, phase := 0, ticks := 0, clkSrc := .ring, refs := Vector.replicate 4 Ref.default,
    state := .acquire, bw := .bw20k, lockLosses := 0, auto := true, priority := [0, 1, 2, 3], active := none,
    revert := false, revertWait := 60, switches := 0, holdAvg := 1000, holdovers := 0, job := .idle, lockTicks := 0,
    snapTime := 0, snapSeq := 0, timeFmt := .human }

/-- Wake at reset. (DESIGN CHOICE, notes/assumptions/12.md) -/
def Wake.default : Wake := { pull := .up, level := true, last := true }

/-- A filter after a write or at a start (R428). (DESIGN CHOICE, notes/assumptions/13.md) -/
def FilterState.fresh : FilterState :=
  { prev := none, run := 0, armed := true, entries := [], sinceEntry := none, missed := false, elapsed := 0, seen := 0 }

/-- Rule at reset. -/
def Rule.default : Rule :=
  { src := .none, sense := .high, filter := .debounce, time := 10, n := 1, min := 0, max := 2 ^ 32 - 1, limit := 0,
    action := [], hits := 0, fs := FilterState.fresh }

/-- Belfry at reset. -/
def Belfry.default : Belfry :=
  { wakeCl := [], segRetain := false, flushWait := 100000000000, flushDrops := 0, extPwr := false, pwrDelay := 100,
    wakes := Vector.replicate 4 Wake.default, refaAct := false, temp := 0, tempWarn := 1050, tempHigh := false,
    rules := Vector.replicate 16 Rule.default, alert := false, log := [], logSeq := 0, logMode := .stop, logLost := 0,
    btime := 0, axis := none, axisWake := 0, keptFrame := none, counter := none, wakeCount := 0, wakeRule := none,
    slept := 0, step := .awake, entryAt := none, sleptFrom := 0, wakeDuringEntry := none, readyHigh := false }

/-- Sync at reset. (DESIGN CHOICE, notes/assumptions/13.md) -/
def Sync.default : Sync :=
  { role := .none, period := 10000000000, delay := 0, catchTu := 10000, avg := 16, slew := 1000, ret := false,
    state := .off, error := 0, steps := 0, errs := 0, train := none, rise := none, msg := none, offset := 0, s := 0, r := 0,
    frac := 0, slewed := none, sum := 0, n := 0, rejected := 0, lastPass := 0, values := [], out := [] }

/-- The image before a start has chosen one. (DESIGN CHOICE, notes/assumptions/12.md) -/
def Image.blank : Image := { version := 0, level := 1, features := 0, header := [], signature := [] }

/-- Boot at reset. (DESIGN CHOICE, notes/assumptions/12.md) -/
def Boot.default (c : ResetCause) : Boot :=
  { step := .held, mode := .download, flash := none, cause := c, imageSrc := .flasha, imageFault := .none, brownouts := 0,
    stage := .refwait, image := Image.blank, nextImage := none, dl := { size := 0, bytes := [], fault := .none },
    keyStage := Vector.replicate 4 0, keySlot := .empty, keyHash := Vector.replicate 4 0, stageSeg := none,
    bannerDone := false, romBannerDone := false, resetLow := false, resetOrder := none }

/-- The state right after a power-on start is recognised (R1, R464): every property at its default, no command waiting.
(DESIGN CHOICE, notes/assumptions/12.md, 13.md) -/
def State.reset : State :=
  { tb := Timebase.default
    axes := Vector.replicate 4 Axis.default
    clusters := Vector.replicate 8 Cluster.default
    ports := Vector.replicate 64 Port.default
    trgs := Vector.replicate 8 Trg.default
    mfs := Vector.replicate 16 Mf.default
    fabric := Fabric.empty
    tasks := Vector.replicate 320 Task.default
    store := SegStore.empty
    groups := Vector.replicate 8 Group.default
    markers := Vector.replicate 16 Marker.default
    ags := Vector.replicate 8 Ag.default
    cal := CalState.default
    steward := Steward.default
    con := LinkState.conReset
    hspi := LinkState.hspiReset
    console := Console.default
    spi := Hspi.default
    sp := Stream.default
    fifo := Fifo.empty
    bel := Belfry.default
    sync := Sync.default
    boot := Boot.default .poweron
    sysEcc := 0
    pending := [] }

end Sys2Proof.Machine
end

