-- ==== Sys2Proof/Machine/Ops.lean ====
section
/-! DEFINITION. The named operations over the state that every family uses: access to the parts, the fabric cycle, the
central FIFO, and the assertion of an event source (spec/05 R137, R144, R145; spec/10 R274 to R278, R283, R288, R291). -/
namespace Sys2Proof.Machine

/-! ### Access -/

/-- One entry of a fixed array replaced by its image. -/
def upd {α : Type} {n : Nat} (v : Vector α n) (i : Fin n) (f : α → α) : Vector α n := v.set i (f v[i])

/-- Every entry replaced by its image; the function is given the number of the entry. -/
def updAll {α : Type} {n : Nat} (v : Vector α n) (f : Fin n → α → α) : Vector α n := v.mapFinIdx (fun i a h => f ⟨i, h⟩ a)

def State.modTb (s : State) (f : Timebase → Timebase) : State := { s with tb := f s.tb }
def State.modPort (s : State) (p : Fin 64) (f : Port → Port) : State := { s with ports := upd s.ports p f }
def State.modCluster (s : State) (k : Fin 8) (f : Cluster → Cluster) : State := { s with clusters := upd s.clusters k f }
def State.modAxis (s : State) (a : Fin 4) (f : Axis → Axis) : State := { s with axes := upd s.axes a f }
def State.modMf (s : State) (m : Fin 16) (f : Mf → Mf) : State := { s with mfs := upd s.mfs m f }
def State.modTask (s : State) (t : Fin 320) (f : Task → Task) : State := { s with tasks := upd s.tasks t f }
def State.modGroup (s : State) (g : Fin 8) (f : Group → Group) : State := { s with groups := upd s.groups g f }
def State.modAg (s : State) (n : Fin 8) (f : Ag → Ag) : State := { s with ags := upd s.ags n f }
def State.modTrg (s : State) (n : Fin 8) (f : Trg → Trg) : State := { s with trgs := upd s.trgs n f }
def State.modFabric (s : State) (f : Fabric → Fabric) : State := { s with fabric := f s.fabric }
def State.modFifo (s : State) (f : Fifo → Fifo) : State := { s with fifo := f s.fifo }
def State.modSp (s : State) (f : Stream → Stream) : State := { s with sp := f s.sp }
def State.modBel (s : State) (f : Belfry → Belfry) : State := { s with bel := f s.bel }
def State.modSync (s : State) (f : Sync → Sync) : State := { s with sync := f s.sync }
def State.modBoot (s : State) (f : Boot → Boot) : State := { s with boot := f s.boot }
def State.modCal (s : State) (f : CalState → CalState) : State := { s with cal := f s.cal }

/-- The state of a command link. -/
def State.link (s : State) : Link → LinkState
  | .con => s.con
  | .hspi => s.hspi

def State.modLink (s : State) (l : Link) (f : LinkState → LinkState) : State :=
  match l with
  | .con => { s with con := f s.con }
  | .hspi => { s with hspi := f s.hspi }

/-- The cluster of a port. -/
def State.clusterOfPort (s : State) (p : Fin 64) : Cluster := s.clusters[clusterOf p]

/-- R290: the port's cluster is ACTIVE. -/
def State.portActive (s : State) (p : Fin 64) : Bool := decide ((s.clusterOfPort p).state = .active)

/-- Applies an operation for every number of a list in turn. -/
def foldS {α : Type} (xs : List α) (f : α → State → State) (s : State) : State := xs.foldl (fun t x => f x t) s

/-- Applies an operation for every number below n in turn. -/
def eachFin (n : Nat) (f : Fin n → State → State) (s : State) : State := foldS (List.finRange n) f s

/-- The eight ports of a cluster. -/
def portsOf (k : Fin 8) : List (Fin 64) := (List.finRange 8).map (portOf k)

/-- A count of 32 bits that wraps, and a count that saturates. -/
def satAdd (limit a b : Nat) : Nat := if limit < a + b then limit else a + b

/-- R419 step 5: nothing but Belfry has power. -/
def Belfry.off (b : Belfry) : Bool :=
  match b.step with
  | .asleep | .waking => true
  | _ => false

/-- R421, R465: in SLEEP and while RESET# is low the pads of ports, of markers and of SYNCOUT are high-impedance. -/
def State.padsOff (s : State) : Bool := s.boot.resetLow || s.bel.off

/-! ### Pads (R211) -/

/-- What a pad is driven to. -/
inductive Pad | hiZ | low | high
  deriving DecidableEq, Repr

/-- R211: a driven level, after polarity. -/
def driven (invert level : Bool) : Pad := if level != invert then .high else .low

/-- The level of the other pad of a driven pair. -/
def Pad.complement : Pad → Pad | .hiZ => .hiZ | .low => .high | .high => .low

/-! ### The fabric cycle (R274) -/

/-- The time word of the first tick of the present fabric cycle. -/
def State.cycle (s : State) : TimeWord := s.tb.now - BitVec.ofNat 64 (s.tb.phase * tickTu)

/-- The first tick of the fabric cycle that holds an instant. -/
def State.cycleOf (s : State) (t : TimeWord) : TimeWord :=
  tadd s.cycle ((tdiff t s.cycle / (cycleTu : Int)) * (cycleTu : Int))

/-- The first tick of the first fabric cycle that begins at or after an instant. -/
def State.cycleFrom (s : State) (t : TimeWord) : TimeWord :=
  tadd s.cycle (((tdiff t s.cycle + (cycleTu - 1 : Int)) / (cycleTu : Int)) * (cycleTu : Int))

/-! ### Flags (R288) -/

/-- R288: the union of flags. -/
def Flags.union (a b : Flags) : Flags :=
  ⟨a.prov ++ b.prov.filter (fun f => !a.prov.contains f), a.provFlag || b.provFlag, a.shifted || b.shifted⟩

/-- The flags of an occurrence that is provisional in the given frames. -/
def Flags.ofFrames (fs : List ProvFrame) : Flags := ⟨fs, !fs.isEmpty, false⟩

/-- The flags of an occurrence that is not provisional in a frame after all (R196). -/
def Flags.without (f : ProvFrame) (x : Flags) : Flags :=
  let prov := x.prov.filter (fun g => decide (g ≠ f))
  { x with prov := prov, provFlag := if x.prov.contains f then !prov.isEmpty else x.provFlag }

/-! ### The central FIFO (R144, R145) -/

/-- R144: the slots a record takes. -/
def FifoRec.slots : FifoRec → Nat
  | .result _ => 2
  | _ => 1

/-- R144: the slots that the records of a frame in progress still hold. -/
def Flight.slots (x : Flight) : Nat := if x.ch.val = 3 then 2 * x.recs.length else x.recs.length

/-- R144: the slots that the frames in progress hold in a partition; u: the U partition. -/
def flownSlots (u : Bool) (fs : List Flight) : Nat :=
  ((fs.filter (fun x => decide (x.ch.val = 1) == u)).map Flight.slots).sum

/-- R144: the slots of the B partition in use. -/
def Fifo.bUsed (f : Fifo) : Nat :=
  f.stamps.length + 2 * f.results.length + f.events.length + f.overflows.length + flownSlots false f.flights

/-- R144: the slots of the U partition in use. -/
def Fifo.uUsed (f : Fifo) : Nat := f.urecs.length + flownSlots true f.flights

/-- R144: the sizes of the partitions. -/
def bSlots : Nat := 65472
def uSlots : Nat := 64

/-- R145: one drop added to an episode's drops, which stay in rising order of source. (DEDUCED, notes/assumptions/55.md) -/
def addDrop (src : Nat) (seq : Seq16) : List DropRec → List DropRec
  | [] => [⟨src, seq, 1⟩]
  | d :: ds =>
    if d.source = src then { d with drops := satAdd (2 ^ 32 - 1) d.drops 1 } :: ds
    else if src < d.source then ⟨src, seq, 1⟩ :: d :: ds
    else d :: addDrop src seq ds

/-- The source number of a record in an OVERFLOW record. -/
def FifoRec.dropSource : FifoRec → Nat
  | .stamp r => r.port.val
  | .result _ => 64
  | _ => 65

def FifoRec.dropSeq : FifoRec → Seq16
  | .stamp r => r.seq
  | _ => 0

/-- A record at the end of its channel's records in the B partition. -/
def Fifo.append (f : Fifo) (r : FifoRec) : Fifo :=
  match r with
  | .stamp _ => { f with stamps := f.stamps ++ [r] }
  | .result _ => { f with results := f.results ++ [r] }
  | .event .. | .timemark _ => { f with events := f.events ++ [r] }
  | .overflow .. => { f with overflows := f.overflows ++ [r] }

/-- R144: records that arrive together fit in the B partition. -/
def Fifo.fitsB (f : Fifo) (rs : List FifoRec) : Bool := decide (f.bUsed + (rs.map FifoRec.slots).sum ≤ bSlots)

/-- R145: records that arrive together at the B partition: all fit, or all are dropped. The Bool says that an episode
starts. -/
def Fifo.pushB (f : Fifo) (rs : List FifoRec) : Fifo × Bool :=
  if f.fitsB rs then (rs.foldl Fifo.append f, false)
  else
    ({ f with bEpisode := some (rs.foldl (fun ds r => addDrop r.dropSource r.dropSeq ds) (f.bEpisode.getD [])) },
     f.bEpisode.isNone)

/-- R145: a stamp record that arrives at the U partition. -/
def Fifo.pushU (f : Fifo) (r : FifoRec) : Fifo × Bool :=
  if f.uUsed < uSlots then ({ f with urecs := f.urecs ++ [r] }, false)
  else ({ f with uEpisode := some (addDrop r.dropSource r.dropSeq (f.uEpisode.getD [])) }, f.uEpisode.isNone)

/-! ### Event sets -/

/-- Whether an event set names a source (R87). -/
def inEvset (rs : List (Nat × Nat)) (e : Nat) : Bool := rs.any (fun r => decide (r.1 ≤ e ∧ e ≤ r.2))

/-! ### The assertion of a source -/

/-- R137: a TIMEMARK is due before an event record that enters at an instant. (DEDUCED, notes/assumptions/56.md) -/
def markDue (last : Option TimeWord) (t : TimeWord) : Bool :=
  match last with
  | none => true
  | some m => decide ((2 ^ 45 : Nat) ≤ (t - m).toNat)

/-- A TIMEMARK at an instant: bits 16 to 63 of its time word (R137). (DEDUCED, notes/assumptions/56.md) -/
def timemark (t : TimeWord) : FifoRec := .timemark (t.extractLsb' 16 48)

/-- One event record, with a TIMEMARK before it where one is due (R137). The Bool says that an overflow episode starts.
(DEDUCED, notes/assumptions/56.md) -/
def pushEvent (src : Fin 384) (cyc : TimeWord) (fl : Flags) (s : State) : State × Bool :=
  let due := markDue s.sp.lastMark s.tb.now
  let rec1 := FifoRec.event (cyc.setWidth 48) src fl.provFlag fl.shifted
  let rs := if due then [timemark s.tb.now, rec1] else [rec1]
  let r := s.fifo.pushB rs
  let s' := { s with fifo := r.1 }
  (if due && s.fifo.fitsB rs then s'.modSp (fun p => { p with lastMark := some s.tb.now }) else s', r.2)

/-- n event records (R275). -/
def pushEvents (src : Fin 384) (cyc : TimeWord) (fl : Flags) : Nat → State × Bool → State × Bool
  | 0, r => r
  | n + 1, r => let q := pushEvent src cyc fl r.1; pushEvents src cyc fl n (q.1, r.2 || q.2)

/-- Occurrences of a source that join those counted for its next hand-over to the steward (R48, R88). -/
def joinEv (src : Fin 384) (cyc : TimeWord) (n : Nat) (fl : Flags) : List EvLine → List EvLine
  | [] => [⟨src, .human, cyc, cyc, n, fl.provFlag, fl.shifted⟩]
  | e :: es =>
    if e.src = src then
      { e with last := cyc, n := e.n + n, prov := e.prov || fl.provFlag, shifted := e.shifted || fl.shifted } :: es
    else e :: joinEv src cyc n fl es

/-- Occurrences counted for the EV line of a source (R48, R88). steady: the steward runs, so that the first count of a source
is being handed over and holds still; what comes meanwhile is counted for the next hand-over.
(DEDUCED, notes/assumptions/42.md) -/
def countEv (steady : Bool) (src : Fin 384) (cyc : TimeWord) (n : Nat) (fl : Flags) : List EvLine → List EvLine
  | [] => joinEv src cyc n fl []
  | e :: es =>
    if e.src = src && (steady || es.any (fun x => decide (x.src = src))) then e :: joinEv src cyc n fl es
    else if e.src = src then joinEv src cyc n fl (e :: es)
    else e :: countEv steady src cyc n fl es

/-- R87: a link receives EV lines of a source; E383 goes to both. -/
def evWanted (l : LinkState) (src : Fin 384) : Bool := inEvset l.evset src.val || decide (src.val = 383)

/-- R283: the fabric cycles still to come of the three that a route takes from a cycle. -/
def routeCycles : Nat := 3

def State.routeLeft (s : State) (cyc : TimeWord) : Nat :=
  ((routeCycles : Int) - tdiff s.cycle cyc / (cycleTu : Int)).toNat

/-- R275, R283: the deliveries of one assertion to the tasks that subscribe. A source that has asserted in the same
cycle already has its deliveries: their flags join. left: the fabric cycles until the third after cyc. -/
def deliver (src : Fin 384) (cyc : TimeWord) (left : Nat) (fl : Flags) (tasks : Vector Task 320) (transit : List Delivery) :
    List Delivery :=
  if transit.any (fun d => d.src = src.val && d.cycle = cyc) then
    transit.map (fun d => if d.src = src.val && d.cycle = cyc then { d with flags := d.flags.union fl } else d)
  else
    transit ++ (List.finRange 320).filterMap (fun t =>
      let k := tasks[t]
      (k.subs.idxOf? src.val).map (fun i => ⟨src.val, t, i, k.isU, cyc, left, fl⟩))

/-- R309: 51.2 ns. -/
def granuleTu : Nat := 512000

/-- R309: the first granule boundary of a grid at or after an instant. (DEDUCED, notes/assumptions/46.md) -/
def granuleFrom (grid w : TimeWord) : TimeWord :=
  tadd grid ((tdiff w grid + (granuleTu - 1 : Int)) / (granuleTu : Int) * (granuleTu : Int))

/-- R312: a wait from B has timed out before a fabric cycle. -/
def timedOut (b : TimeWord) (timeout : Option Nat) (cyc : TimeWord) : Bool :=
  match timeout with | some t => tlater cyc (tadd b t) | none => false

/-- R311, R316: an occurrence in a cycle ends the wait of a group for its source. (DEDUCED, notes/assumptions/46.md) -/
def endWait (src : Fin 384) (cyc : TimeWord) (fl : Flags) (bCycle : TimeWord → TimeWord) (g : Group) : Group :=
  match g.waiting with
  | some (.wait (.event e) b timeout _ none) =>
    if e = src && tnotBefore cyc (bCycle b) && !timedOut b timeout cyc then
      { g with waiting := some (.wait (.event e) b timeout false (some (granuleFrom g.grid (tadd cyc 368000)))),
               provNext := fl.prov }
    else g
  | _ => g

/-- One assertion without the consequence of an overflow. -/
def raiseCore (src : Fin 384) (cyc : TimeWord) (n : Nat) (fl : Flags) (s : State) : State × Bool :=
  let s := { s with groups := updAll s.groups (fun _ g => endWait src cyc fl s.cycleOf g) }
  let old := s.fabric.recent.filter (fun r => decide (tdiff s.cycle r.2.1 ≤ cycleTu))
  let s := s.modFabric (fun f => { f with recent := (src.val, cyc, fl) :: old })
  let s := s.modFabric (fun f => { f with transit := deliver src cyc (s.routeLeft cyc) fl s.tasks f.transit })
  let s := if evWanted s.con src then
      s.modLink .con (fun l => { l with heldEv := countEv (!s.steward.absent) src cyc n fl l.heldEv }) else s
  let s := if evWanted s.hspi src then
      s.modLink .hspi (fun l => { l with heldEv := countEv (!s.steward.absent) src cyc n fl l.heldEv }) else s
  if inEvset s.sp.evset src.val then pushEvents src cyc fl n (s, false) else (s, false)

/-- E380 OVERFLOW. -/
def evOverflow : Fin 384 := 380

/-- R145: E380 asserts where an episode has started. The record of that E380 may itself find the B partition full and start
an episode there, for which E380 asserts too. (DEDUCED, notes/assumptions/55.md) -/
def overflowStarted (r : State × Bool) : State :=
  if r.2 then
    let q := raiseCore evOverflow r.1.cycle 1 Flags.none r.1
    if q.2 then (raiseCore evOverflow q.1.cycle 1 Flags.none q.1).1 else q.1
  else r.1

/-- R275, R291: a source asserts in a fabric cycle, with a multiplicity. -/
def raiseAt (src : Fin 384) (cyc : TimeWord) (n : Nat) (fl : Flags) (s : State) : State :=
  if n = 0 then s else overflowStarted (raiseCore src cyc n fl s)

/-- A source asserts once in the present fabric cycle. -/
def raise (src : Fin 384) (fl : Flags) (s : State) : State := raiseAt src s.cycle 1 fl s

/-- R48, R276: a happening of another domain is counted. Where a hand-over of its source is in progress its count holds
still, and the happening is counted for the next one. steady: the receiving domain runs.
 (DEDUCED, notes/assumptions/42.md) -/
def countHandover (steady : Bool) (src : Nat) (n : Nat) : List Handover → List Handover
  | [] => [⟨src, n, 0⟩]
  | h :: hs =>
    if h.src = src then
      (if steady || decide (0 < h.later) then { h with later := h.later + n } else { h with offered := h.offered + n }) :: hs
    else h :: countHandover steady src n hs

/-- R48: n happenings of the source `src`, counted for hand-over. (DEDUCED, notes/assumptions/42.md) -/
def happen (src : Fin 384) (n : Nat) (s : State) : State :=
  if n = 0 then s
  else s.modFabric (fun f => { f with handover := countHandover s.tb.running src.val n f.handover })

/-! ### The numbers of the sources (R277) -/

/-- E(4n + i): a source of a port. -/
def evPort (p : Fin 64) (i : Fin 4) : Fin 384 := ⟨4 * p.val + i.val, by omega⟩
/-- E(256 + 4k + i): a source of a cluster. -/
def evCluster (k : Fin 8) (i : Fin 4) : Fin 384 := ⟨256 + 4 * k.val + i.val, by omega⟩
/-- E(288 + 6a + i): INDEX, CONFIRM, RETRACT, LOSS, WRAP, SLIP of an axis. -/
def evAxis (a : Fin 4) (i : Fin 6) : Fin 384 := ⟨288 + 6 * a.val + i.val, by omega⟩
/-- E(312 + 6g + i): SEGSTART, SEGEND, LOOPEND, WAITING, CHECKFAIL, HALTED of a group. -/
def evGroup (g : Fin 8) (i : Fin 6) : Fin 384 := ⟨312 + 6 * g.val + i.val, by omega⟩
/-- E(360 + k): the EDGE of a trigger input. -/
def evTrg (k : Fin 8) : Fin 384 := ⟨360 + k.val, by omega⟩

/-- R290: the port sources assert only while the cluster is ACTIVE. -/
def raisePortAt (p : Fin 64) (i : Fin 4) (cyc : TimeWord) (n : Nat) (fl : Flags) (s : State) : State :=
  if s.portActive p then raiseAt (evPort p i) cyc n fl s else s

/-- MISS on a port: the source asserts and the port counts it (R82). -/
def missAt (p : Fin 64) (cyc : TimeWord) (fl : Flags) (s : State) : State :=
  if s.portActive p then
    raiseAt (evPort p 2) cyc 1 fl (s.modPort p (fun q => { q with counts := { q.counts with miss := q.counts.miss + 1 } }))
  else s

def miss (p : Fin 64) (fl : Flags) (s : State) : State := missAt p s.cycle fl s

end Sys2Proof.Machine
end

