-- ==== Sys2Proof/Machine/Predict.lean ====
section
/-! DEFINITION. What an axis says of positions: prediction, the current frame, the decision of a frame, retraction marks
(spec/01 R31, R34; spec/07 R190 to R193, R208). -/
namespace Sys2Proof.Machine

/-- R192: 16 fractional bits. -/
def periodOne : Nat := 65536

/-- R19: an interval with 16 fractional bits, times an integer, saturated at the interval limits. -/
def mulPeriod (k period : Int) : Int :=
  if k * period < intervalMin * periodOne then intervalMin * periodOne
  else if intervalMax * periodOne < k * period then intervalMax * periodOne
  else k * period

/-- R192: predict(n) from an anchor: the sum A + (n − nA) × P, rounded once. -/
def predictFrom (an : Anchor) (period : Int) (n : Frame) : TimeWord :=
  BitVec.ofInt 64 (divEven ((an.a.toNat : Int) * periodOne + mulPeriod (fdiff n an.n) period) periodOne)

/-- R192: predict(n), where the axis has an anchor. -/
def Axis.predict (x : Axis) (n : Frame) : Option TimeWord := x.anchor.map (fun an => predictFrom an x.period n)

/-- R208: the frame number of a FREE axis at a time word. -/
def Axis.freeFrame (x : Axis) (w : TimeWord) : Frame :=
  BitVec.ofNat 48 ((w - x.cfg.origin).toNat / max 1 x.cfg.period)

/-- R208: the start of frame n of a FREE axis. -/
def Axis.freeStart (x : Axis) (n : Frame) : TimeWord := x.cfg.origin + BitVec.ofNat 64 (n.toNat * x.cfg.period)

/-- The frame after frame n. The frames of a FREE axis begin anew when the time word passes ORIGIN again (R208). -/
def Axis.nextFrame (x : Axis) (n : Frame) : Frame :=
  if x.cfg.mode = .free && decide (2 ^ 64 ≤ (n.toNat + 1) * x.cfg.period) then 0 else n + 1

/-- The numbering stands: positions on the axis are accepted (R188). -/
def Axis.numbered (x : Axis) : Bool :=
  match x.state with
  | .confirmed => true
  | .reacquire => x.anchor.isSome
  | _ => false

/-- The predicted instant of the start of frame n, for a FRAME or FREE axis. -/
def Axis.frameStart (x : Axis) (n : Frame) : Option TimeWord :=
  match x.cfg.mode with
  | .free => some (x.freeStart n)
  | .frame => x.predict n
  | .increment => none

/-- R34: the current frame of an axis at an instant: the latest whose index, predicted or confirmed, lies at or before
it. -/
def Axis.currentFrame (x : Axis) (w : TimeWord) : Option Frame :=
  if !x.numbered then none
  else match x.cfg.mode with
    | .free => some (x.freeFrame w)
    | .increment => x.anchor.map (fun an => an.n)
    | .frame => x.anchor.map (fun an =>
        let d := tdiff w an.a
        let k := d * periodOne / max 1 x.period
        let n := an.n + BitVec.ofInt 48 k
        if tnotBefore w (predictFrom an x.period (n + 1)) then n + 1
        else if tnotBefore w (predictFrom an x.period n) then n
        else n - 1)

/-- What has become of a frame in which something is provisional (R201, R289). -/
inductive FrameFate | pending | decided (o : Outcome) | never
  deriving DecidableEq, Repr

/-- The decision of a frame of a numbering. (DEDUCED, notes/assumptions/17.md) -/
def State.fate (s : State) (f : ProvFrame) : FrameFate :=
  let x := s.axes[f.axis]
  if f.gen ≠ x.gen then .never
  else match x.decided.find? (fun d => d.1 = f.frame) with
    | some d => .decided d.2
    | none => .pending

/-- R196: frame n of an axis has its decision still to come, with run-ahead. -/
def State.undecided (s : State) (a : Fin 4) (n : Frame) : Bool :=
  let x := s.axes[a]
  decide (x.cfg.mode = .frame) && decide (s.fate ⟨a, n, x.gen⟩ = .pending) &&
    (match x.anchor with | some an => decide (0 < fdiff n an.n) | none => true)

/-- R190: RETRACT is raised once in every fabric cycle in which the axis retracts an edge; RETRACTS counts the edges. -/
def retracted (a : Fin 4) (n : Nat) (s : State) : State :=
  if n = 0 then s
  else
    let c := s.cycle
    let first := decide (s.axes[a].retractedIn ≠ some c)
    let s := s.modAxis a (fun x => { x with retracts := x.retracts + BitVec.ofNat 32 n, retractedIn := some c })
    if first then raise (evAxis a 2) Flags.none s else s

/-- R201, R288: the union of flags with what the decisions of its frames have brought so far: SHIFTED if one shifted. -/
def State.shiftedBy (s : State) (fs : List ProvFrame) : Bool :=
  fs.any (fun f => decide (s.fate f = .decided (.confirmed true)))

/-- Every frame has its decision, or will never have one. -/
def State.allDecided (s : State) (fs : List ProvFrame) : Bool := fs.all (fun f => !decide (s.fate f = .pending))

end Sys2Proof.Machine
end

