-- ==== Sys2Proof/Machine/Queue.lean ====
section
/-! DEFINITION. The edge queue of a port: busy intervals and conflicts, the retrigger policies, pulses that meet a
calibration window, commitment, and the leaving of edges (spec/08 R214 to R229, spec/13 R348, R349, R353). -/
namespace Sys2Proof.Machine

/-- R226 and the text before it: the minimum gap. -/
def gapOf (m : PortMode) : Nat := match m with | .echo => 16000 | _ => 8000

def isPulseMode (m : PortMode) : Bool := match m with | .pulse | .echo => true | _ => false

/-- Two half-open spans of time words overlap. -/
def overlap (a1 e1 a2 e2 : TimeWord) : Bool := tlater e2 a1 && tlater e1 a2

/-- A pulse whose leading edge is lead and whose trailing edge is trail conflicts with a bound pulse. -/
def Pulse.conflicts (x : Pulse) (gap : Nat) (lead trail : TimeWord) : Bool :=
  match x.lead with
  | some l => overlap l (tadd x.trail gap) lead (tadd trail gap)
  | none => false

/-- R341: the calibration window open on a port. -/
def State.windowOf (s : State) (p : Fin 64) : Option TimeWord :=
  match (s.clusterOfPort p).window with
  | some w => if portOf (clusterOf p) w.port = p then some w.opened else none
  | none => none

/-- R340: the length of a window, and of the blocked span. -/
def windowTu : Nat := 16000000
def blockedTu : Nat := 20000000

/-- R348: a pulse intrudes on the window of its port. -/
def State.intrudes (s : State) (p : Fin 64) (lead trail : TimeWord) : Option TimeWord :=
  match s.windowOf p with
  | some o =>
    if overlap lead (tadd trail (gapOf s.ports[p].cfg.mode)) o (tadd o windowTu) then some o else none
  | none => none

/-- R223: the distance of 16 ns that commits an edge. -/
def commitTu : Int := 160000

/-- R194, R223: an edge is committed in a fabric cycle. (DEDUCED, notes/assumptions/29.md) -/
def committedIn (cyc lead : TimeWord) : Bool := decide (tdiff lead cyc < commitTu)

def Pulse.isCommitted (x : Pulse) (cyc : TimeWord) : Bool :=
  x.committed || (match x.lead with | some l => committedIn cyc l | none => false)

def Pulse.axisFrame (x : Pulse) : Option (Fin 4 × Frame × Nat) :=
  match x.origin with | .schedAxis a n o => some (a, n, o) | _ => none

def Pulse.isScheduled (x : Pulse) : Bool :=
  match x.origin with | .schedTime _ | .schedAxis .. => true | _ => false

/-- R227: a pulse can be retracted: it is an axis pulse that is not committed. -/
def Pulse.retractable (x : Pulse) (cyc : TimeWord) : Bool := x.axisFrame.isSome && !x.isCommitted cyc

/-- A pulse removed from the queue (the first that equals it). -/
def dropPulse (p : Fin 64) (x : Pulse) (s : State) : State := s.modPort p (fun q => { q with queue := q.queue.erase x })

def addPulse (p : Fin 64) (x : Pulse) (s : State) : State := s.modPort p (fun q => { q with queue := q.queue ++ [x] })

/-- R389, R390, R404: pulses that a drain or the end of a cluster's work removes are counted. -/
def countRemoved (p : Fin 64) (n : Nat) (s : State) : State :=
  s.modCluster (clusterOf p) (fun c =>
    match c.state with
    | .draining => { c with removedSoFar := c.removedSoFar + n }
    | _ => c)

/-- A pulse retracted by its axis (R198, R227): it leaves the queue and is counted. MISS where the rule says so. -/
def retractPulse (p : Fin 64) (x : Pulse) (withMiss : Bool) (s : State) : State :=
  let s := countRemoved p 1 (dropPulse p x s)
  let s := match x.axisFrame with | some (a, _, _) => retracted a 1 s | none => s
  if withMiss then miss p Flags.none s else s

/-! ### The settings of the DTC -/

/-- R353: the setting of the DTC that places a fine value: f + C(f), C interpolated between the points 16 k. -/
def dtcSetting (c : List Int) (t : TimeWord) : Int :=
  let f := finePart t
  let k := f / 16
  let r := f % 16
  let c0 := c.getD (k % 250) 0
  let c1 := c.getD ((k + 1) % 250) 0
  (f : Int) + divEven (c0 * (16 - (r : Int)) + c1 * (r : Int)) 16

/-- R353: the DTC setting that a port gives an edge with the tables in force. -/
def Port.dtcAt (q : Port) (t : TimeWord) : Option Int := q.table.map (fun x => dtcSetting x.c t)

/-- R228, R353: a pulse whose trailing edge a cut or a merge moves is given the DTC setting of its new trailing edge. -/
def Pulse.retrail (q : Port) (w : TimeWord) (x : Pulse) : Pulse :=
  { x with trail := w, dtcTrail := if x.committed then q.dtcAt w else x.dtcTrail }

/-! ### Triggered pulses -/

/-- R228, QUEUE: the leading edge after the busy intervals it conflicts with. -/
def queueLead (gap width : Nat) (queue : List Pulse) (last : Option TimeWord) : Nat → TimeWord → TimeWord
  | 0, l => l
  | fuel + 1, l =>
    let ends := (queue.filter (fun y => y.conflicts gap l (tadd l width))).map (fun y => tadd y.trail gap)
    let ends := match last with
      | some t => if tlater (tadd t gap) l then tadd t gap :: ends else ends
      | none => ends
    match ends with
    | [] => l
    | e :: es => queueLead gap width queue last fuel (es.foldl (fun m f => if tlater f m then f else m) e)

/-- R228: the busy interval of the last pulse that left still reaches the leading edge. -/
def gapHeld (gap : Nat) (last : Option TimeWord) (l : TimeWord) : Bool :=
  match last with | some t => tlater (tadd t gap) l && tnotBefore l t | none => false

/-- A trigger of a port (R214, R215). early: its earliest action instant E; delay, width: DELAY and WIDTH in force at its
instant. -/
structure Trigger where
  instant : TimeWord
  early : TimeWord
  delay : Nat
  width : Nat
  flags : Flags
  origin : PulseOrigin
  deriving DecidableEq, Repr

def newPulse (t : Trigger) (lead : TimeWord) (width : Nat) (moved : Bool) : Pulse :=
  { origin := t.origin, lead := some lead, width := width, trail := tadd lead width, committed := false, high := false,
    moved := moved, late := none, flags := t.flags, dtc := none, dtcTrail := none }

/-- An arm state in its place by the instant from which it holds, newest first. -/
def insertArm (w : TimeWord) (v : Bool) : List (TimeWord × Bool) → List (TimeWord × Bool)
  | [] => [(w, v)]
  | a :: as => if tlater a.1 w then a :: insertArm w v as else (w, v) :: a :: as

/-- R217, R229: ARM or DISARM takes effect on a port at an instant. The latest eight are kept, with the arm state before
them. (DESIGN CHOICE, notes/assumptions/33.md) -/
def Port.setArmed (q : Port) (w : TimeWord) (v : Bool) : Port :=
  let before := if q.arms.isEmpty then [(tadd w (-1), q.armed)] else q.arms
  let arms := (insertArm w v before).take 8
  { q with arms := arms, armed := match arms with | a :: _ => a.2 | [] => v }

/-- R217: the arm state of a port at an instant. -/
def Port.armedAt (q : Port) (w : TimeWord) : Bool :=
  match q.arms.find? (fun c => tnotBefore w c.1), q.arms.getLast? with
  | some c, _ => c.2
  | none, some c => c.2
  | none, none => q.armed

/-- R229: with REARM ONCE a port disarms itself at each trigger it accepts. -/
def accepted (p : Fin 64) (t : Trigger) (s : State) : State :=
  s.modPort p (fun q => if q.cfg.once then q.setArmed t.instant false else q)

/-- R228, RESTART: the queue after a trigger at leading edge l, and the number of pulses removed. The pulses against
are those the policy acts on. -/
def restartQueue (q : Port) (t : Trigger) (width : Nat) (l : TimeWord) (queue : List Pulse) (isTarget : Pulse → Bool)
    (new : Pulse) : List Pulse × Nat :=
  let gap := gapOf q.cfg.mode
  let hit (y : Pulse) : Bool := isTarget y && y.conflicts gap l (tadd l width)
  let leftBefore (y : Pulse) : Bool := match y.lead with | some a => tlater t.early a | none => false
  let kept := queue.filter (fun y => !(hit y && !leftBefore y))
  let removed := queue.length - kept.length
  let highAtE (y : Pulse) : Bool := hit y && leftBefore y && tlater y.trail t.early
  if kept.any highAtE then
    if tdiff l t.early < (gap : Int) then
      (kept.map (fun y => if highAtE y then
        { y.retrail q (tadd l width) with flags := y.flags.union t.flags } else y), removed)
    else (kept.map (fun y => if highAtE y then y.retrail q t.early else y) ++ [new], removed)
  else (kept ++ [new], removed)

/-- R228: the end of a busy interval whose trailing edge has left by E and whose gap L must respect. -/
def respectGap (t : Trigger) (gap width : Nat) (queue : List Pulse) (last : Option TimeWord) (l : TimeWord) : TimeWord :=
  let left := queue.filter (fun y => y.conflicts gap l (tadd l width) && tnotBefore t.early y.trail)
  let ends := left.map (fun y => tadd y.trail gap)
  let ends := if gapHeld gap last l then (match last with | some x => tadd x gap :: ends | none => ends) else ends
  ends.foldl (fun m e => if tlater e m then e else m) l

/-- R217, R228: at a trigger instant four moved pulses wait for their leading edge. -/
def movedWaiting (queue : List Pulse) (w : TimeWord) : Bool :=
  decide (4 ≤ (queue.filter (fun y => y.moved && (match y.lead with | some a => tlater a w | none => false))).length)

/-! ### Deferred pulses (R348, R349) -/

/-- R349: the instant from which deferred pulses leave. -/
def deferFrom (o : TimeWord) : TimeWord := tadd o 16160000

/-- R215: the insertion delay of a pad trigger, and the delay of a task trigger (R214). -/
def insertionTu : Nat := 360000
def taskDelayTu : Nat := 400000

/-- R228: the trigger that a triggered pulse comes from; none for a scheduled pulse. -/
def Pulse.trigger (x : Pulse) : Option Trigger :=
  match x.origin with
  | .padTrigger i => some ⟨i, tadd i insertionTu, 0, x.width, x.flags, x.origin⟩
  | .taskTrigger i => some ⟨i, i, 0, x.width, x.flags, x.origin⟩
  | _ => none

/-- R349: a deferred pulse that may still be placed anew. -/
def Pulse.waitsLate (x : Pulse) : Bool := x.late.isSome && !x.high && !x.committed

/-- R349: the order of nominal leading edges. -/
def insertLate (x : Pulse × Bool) : List (Pulse × Bool) → List (Pulse × Bool)
  | [] => [x]
  | y :: ys =>
    match x.1.late, y.1.late with
    | some a, some b => if tlater b a then x :: y :: ys else y :: insertLate x ys
    | _, _ => y :: insertLate x ys

/-- What the placing of deferred pulses has come to: the pulses that are not placed anew, those placed so far, the earliest
instant of the next, the flags of the MISS raised, and whether the new pulse is accepted. -/
structure Chain where
  rest : List Pulse
  placed : List Pulse
  next : TimeWord
  missed : List Flags
  took : Bool

/-- R348, R349: one deferred pulse takes its place: against the pulses that were not deferred a scheduled or axis pulse is
dropped, and a triggered one is decided by its retrigger policy. -/
def Chain.place (q : Port) (x : Pulse) (isNew : Bool) (st : Chain) : Chain :=
  let gap := gapOf q.cfg.mode
  let at_ (l : TimeWord) : Pulse := { x with lead := some l, trail := tadd l x.width }
  let put (y : Pulse) : Chain :=
    { st with placed := st.placed ++ [y], next := tadd y.trail gap, took := st.took || isNew }
  let drop (fl : Flags) : Chain := { st with missed := st.missed ++ [fl] }
  let foes := st.rest.filter (fun y => y.late.isNone)
  if !foes.any (fun y => y.conflicts gap st.next (tadd st.next x.width)) then put (at_ st.next)
  else match x.trigger, q.cfg.retrig with
    | none, _ => drop Flags.none
    | some _, .ignore => drop x.flags
    | some t, .queue =>
      if movedWaiting (st.rest ++ st.placed) t.instant then drop x.flags
      else put { at_ (queueLead gap x.width st.rest none 66 st.next) with moved := true }
    | some t, .restart =>
      let l := respectGap t gap x.width foes q.lastTrail st.next
      let r := restartQueue q t x.width l st.rest (fun y => y.late.isNone) (at_ l)
      { st with rest := r.1.filter (fun y => decide (y ≠ at_ l)),
                placed := st.placed ++ r.1.filter (fun y => decide (y = at_ l)),
                next := tadd (tadd l x.width) gap,
                missed := st.missed ++ List.replicate r.2 x.flags, took := st.took || isNew }

/-- R349: the deferred pulses of a port with a new one, whose nominal leading edge is given. -/
def deferChain (o : TimeWord) (x : Pulse) (nominal : TimeWord) (q : Port) : Chain :=
  let gap := gapOf q.cfg.mode
  let rest := q.queue.filter (fun y => !y.waitsLate)
  let ends := (rest.filter (fun y => y.late.isSome)).map (fun y => tadd y.trail gap)
  let first := ends.foldl (fun m e => if tlater e m then e else m) (deferFrom o)
  let olds := ((q.queue.filter Pulse.waitsLate).map (fun y => (y, false))).foldr insertLate []
  (insertLate ({ x with late := some nominal }, true) olds).foldl
    (fun st y => st.place q y.1 y.2) ⟨rest, [], first, [], false⟩

/-- R348, R349: a pulse is deferred; the Bool says whether it is accepted. A deferred pulse adds 1 to LATE. -/
def deferPulse (p : Fin 64) (o : TimeWord) (x : Pulse) (nominal : TimeWord) (s : State) : State × Bool :=
  let st := deferChain o x nominal s.ports[p]
  let s := s.modPort p (fun q =>
    { q with queue := st.rest ++ st.placed,
             counts := if st.took then { q.counts with late := q.counts.late + 1 } else q.counts })
  (foldS st.missed (miss p) s, st.took)

/-- R348, R349: a scheduled or axis pulse is deferred. -/
def deferScheduled (p : Fin 64) (o : TimeWord) (x : Pulse) (nominal : TimeWord) (s : State) : State :=
  let r := deferPulse p o x nominal s
  if r.2 then r.1 else countRemoved p 1 r.1

/-- R348, R349: a triggered pulse is deferred, and accepted or not. -/
def deferTriggered (p : Fin 64) (o : TimeWord) (t : Trigger) (x : Pulse) (nominal : TimeWord) (s : State) : State :=
  let r := deferPulse p o x nominal s
  if r.2 then accepted p t r.1 else r.1

/-! ### The decision of a trigger -/

/-- R228: a triggered pulse that does not intrude on a window, or a deferred one (late), meets the accepted pulses. -/
def placeTriggered (p : Fin 64) (t : Trigger) (l : TimeWord) (s : State) : State :=
  let q := s.ports[p]
  let gap := gapOf q.cfg.mode
  let w := t.width
  let clash := q.queue.any (fun y => y.conflicts gap l (tadd l w)) || gapHeld gap q.lastTrail l
  let put (lead : TimeWord) (moved : Bool) (s : State) : State :=
    let x := newPulse t lead w moved
    match s.intrudes p lead x.trail with
    | some o =>
      if q.cfg.defer then deferTriggered p o t x lead s else miss p t.flags s
    | none => accepted p t (addPulse p x s)
  if !clash then put l false s
  else match q.cfg.retrig with
    | .ignore => miss p t.flags s
    | .queue =>
      if movedWaiting q.queue t.instant then miss p t.flags s
      else put (queueLead gap w q.queue q.lastTrail 66 l) true s
    | .restart =>
      let l := respectGap t gap w q.queue q.lastTrail l
      let r := restartQueue q t w l q.queue (fun _ => true) (newPulse t l w false)
      let s := s.modPort p (fun q => { q with queue := r.1 })
      accepted p t (foldS (List.range r.2) (fun _ u => miss p t.flags u) s)

/-- R214 to R217, R228, R229: a port decides a trigger. armed: its arm state for this decision (R287). -/
def decideTrigger (p : Fin 64) (armed refused : Bool) (t : Trigger) (s : State) : State :=
  let q := s.ports[p]
  if !isPulseMode q.cfg.mode || !s.portActive p || !armed then s
  else if refused || decide (64 ≤ q.queue.length) then miss p t.flags s
  else
    let l := tadd t.instant t.delay
    match s.intrudes p l (tadd l t.width) with
    | some o => if q.cfg.defer then deferTriggered p o t (newPulse t l t.width false) l s else miss p t.flags s
    | none => placeTriggered p t l s

/-- R215: a pad trigger. -/
def padTrigger (t : PadTrig) : Trigger :=
  { instant := t.instant, early := tadd t.instant insertionTu, delay := t.delay, width := t.width, flags := Flags.none,
    origin := .padTrigger t.instant }

/-- R214, R215: a task trigger, with the DELAY and WIDTH of the port at its instant. -/
def taskTrigger (t : TaskTrig) (c : PortCfg) : Trigger :=
  { instant := t.instant, early := t.instant, delay := c.delay, width := c.width, flags := t.flags,
    origin := .taskTrigger t.instant }

/-! ### Scheduled and axis pulses -/

/-- R227: a pulse x of an axis (not in the queue) whose time has just been bound or moved meets the bound pulses of its
port: the later of two in conflict is retracted if it can be, otherwise x. fuel: the pulses it can meet. -/
def meetBound (p : Fin 64) (x : Pulse) : Nat → State → State
  | 0, s => addPulse p x s
  | fuel + 1, s =>
    let q := s.ports[p]
    let gap := gapOf q.cfg.mode
    match x.lead with
    | none => addPulse p x s
    | some l =>
      match q.queue.find? (fun y => y.conflicts gap l x.trail) with
      | none => addPulse p x s
      | some y =>
        let yLater := match y.lead with | some m => tlater m l | none => false
        if yLater && y.retractable s.cycle then meetBound p x fuel (retractPulse p y true s)
        else
          let s := match x.axisFrame with | some (a, _, _) => retracted a 1 s | none => s
          miss p Flags.none (countRemoved p 1 s)

/-- A scheduled or axis pulse whose time is fixed enters the queue: against a window first (R348), then the other pulses. -/
def settlePulse (p : Fin 64) (x : Pulse) (s : State) : State :=
  match x.lead with
  | none => addPulse p x s
  | some l =>
    match s.intrudes p l x.trail with
    | some o =>
      if s.ports[p].cfg.defer then deferScheduled p o x l s else miss p Flags.none (countRemoved p 1 s)
    | none => meetBound p x 65 s

/-! ### Commitment -/

/-- R194, R196, R223, R355: the entries that a fabric cycle commits. An axis pulse of an undecided frame becomes
provisional. (DEDUCED, notes/assumptions/29.md) -/
def commitPulse (s : State) (p : Fin 64) (cyc : TimeWord) (x : Pulse) : Pulse :=
  match x.lead with
  | none => x
  | some l =>
    if x.committed || !committedIn cyc l then x
    else
      let fl := match x.axisFrame with
        | some (a, n, _) =>
          if s.undecided a n && s.axes[a].cfg.runAhead then x.flags.union (Flags.ofFrames [⟨a, n, s.axes[a].gen⟩])
          else x.flags
        | none => x.flags
      { x with committed := true, flags := fl, dtc := s.ports[p].dtcAt l, dtcTrail := s.ports[p].dtcAt x.trail }

def commitPort (p : Fin 64) (cyc : TimeWord) (s : State) : State :=
  s.modPort p (fun q => { q with queue := q.queue.map (commitPulse s p cyc) })

/-! ### Edges that leave -/

/-- The earliest of the pulses that satisfy a test, by a time. -/
def earliest (key : Pulse → Option TimeWord) : List Pulse → Option Pulse
  | [] => none
  | x :: xs =>
    match key x, earliest key xs with
    | none, r => r
    | some _, none => some x
    | some a, some y => (match key y with | some b => if tlater a b then some y else some x | none => some x)

/-- R225, R220: the leading edge that is due on a port. -/
def leadingDue (s : State) (p : Fin 64) : Option Pulse :=
  earliest (fun x => if x.high then none else match x.lead with
    | some l => if tnotBefore s.tb.now l then some l else none
    | none => none) s.ports[p].queue

def trailingDue (s : State) (p : Fin 64) : Option Pulse :=
  earliest (fun x => if x.high && tnotBefore s.tb.now x.trail then some x.trail else none) s.ports[p].queue

/-- One pulse of the queue replaced. -/
def replacePulse (x y : Pulse) : List Pulse → List Pulse
  | [] => []
  | z :: zs => if z = x then y :: zs else z :: replacePulse x y zs

/-- R235: an edge that an ECHO port emits will be converted by its own input path. -/
def echoPush (rising : Bool) (x : Pulse) (q : Port) : Port :=
  if q.cfg.mode = .echo && q.cfg.output then
    { q with emitted := q.emitted ++ [⟨rising, x.late.isSome, x.flags⟩] }
  else q

/-- R225: the leading edge of a pulse leaves. In DRAINING it raises no EMIT and is counted for the drain (R390). -/
def leaveLeading (p : Fin 64) (x : Pulse) (s : State) : State :=
  let t := x.lead.getD s.tb.now
  let s := s.modPort p (fun q => echoPush true x { q with
    queue := replacePulse x { x with high := true } q.queue, outHigh := true })
  if s.portActive p then
    raiseAt (evPort p 0) (s.cycleOf t) 1 x.flags
      (s.modPort p (fun q => { q with counts := { q.counts with emits := q.counts.emits + 1 } }))
  else s.modCluster (clusterOf p) (fun c => { c with emittedSoFar := c.emittedSoFar + 1 })

/-- R220: the trailing edge of a pulse leaves and frees its entry. -/
def leaveTrailing (p : Fin 64) (x : Pulse) (s : State) : State :=
  s.modPort p (fun q => echoPush false x
    { q with queue := q.queue.erase x, outHigh := false, lastTrail := some x.trail })

end Sys2Proof.Machine
end

