-- ==== Sys2Proof/Machine/Measure.lean ====
section
/-! DEFINITION. Levels of inputs and gates, and the measurement frames: arming, runs, stops, results and statistics
(spec/09 R252 to R273, spec/08 R218). -/
namespace Sys2Proof.Machine

/-- 96 ns (R185, R254, R265). -/
def reachTu : Int := 960000

/-! ### Levels -/

/-- The level that changes, newest first, give at a time word; low before the first. -/
def levelIn (l : List LevelChange) (w : TimeWord) : Bool :=
  match l.find? (fun c => tnotBefore w c.time) with | some c => c.high | none => false

/-- A change of level put in front; the newest 256 are kept. (DESIGN CHOICE, notes/assumptions/33.md) -/
def pushLevel (c : LevelChange) (l : List LevelChange) : List LevelChange := (c :: l).take 256

/-- R252: the cluster was ACTIVE at a time word (its latest time in ACTIVE). -/
def Cluster.activeAt (c : Cluster) (w : TimeWord) : Bool :=
  match c.span with
  | some (a, none) => tnotBefore w a
  | some (a, some z) => tnotBefore w a && tlater z w
  | none => false

/-- R252: the level of a GATE-mode port at a time word. (DEDUCED, notes/assumptions/32.md) -/
def State.gateLevel (s : State) (p : Fin 64) (w : TimeWord) : Bool :=
  decide (s.ports[p].cfg.mode = .gate) && (s.clusterOfPort p).activeAt w && levelIn s.ports[p].level w

/-- R218: the level of a trigger input at a time word: before its first edge, the level sampled at the lock. -/
def State.trgLevel (s : State) (n : Fin 8) (w : TimeWord) : Bool :=
  let l := s.trgs[n].level
  match l.find? (fun c => tnotBefore w c.time) with
  | some c => c.high
  | none => (match l.getLast? with | some c => c.high | none => false)

/-! ### Runs -/

def stampModes (m : PortMode) : Bool := match m with | .stamp | .gate | .echo => true | _ => false

/-- R218, R252: the level of an arming source at a time word. -/
def State.srcLevel (s : State) (src : ArmSrc) (w : TimeWord) : Bool :=
  match src with
  | .trg n => s.trgLevel n w
  | .port p => s.gateLevel p w
  | _ => false

/-- R261: the level that arms a frame under LEVEL, at a time word. -/
def State.armLevelAt (s : State) (m : Fin 16) (w : TimeWord) : Bool := s.srcLevel s.mfs[m].cfg.armSrc w

def Mf.levelArmed (f : Mf) : Bool :=
  f.cfg.armLevel && (match f.cfg.armSrc with | .trg _ | .port _ => true | _ => false)

/-- R262: a run opens with the next RUN number. -/
def mfOpen (m : Fin 16) (e : MfEdge) (early : Option TimeWord) (s : State) : State :=
  s.modMf m (fun f => { f with state := .opened ⟨e, f.nextRun, early⟩, nextRun := f.nextRun + 1, fell := none })

/-- The edges that may still matter to a frame that is not measuring: those of the latest 96 ns. -/
def recent (now : TimeWord) (es : List MfEdge) : List MfEdge := es.filter (fun e => decide (tdiff now e.time ≤ reachTu))

/-- R261: the end of a run's window. -/
def runEnd (f : Mf) (r : MfRun) : TimeWord := tadd r.start.time f.cfg.window

/-- R261 to R263: a start edge reaches a frame. One that comes late, after the level fell, still finds the frame ARMED at its
own time word. -/
def mfStart (m : Fin 16) (e : MfEdge) (s : State) : State :=
  let f := s.mfs[m]
  match f.state with
  | .idle =>
    let was := match f.fell with
      | some i => tnotBefore e.time i && f.levelArmed && s.armLevelAt m e.time
      | none => false
    if was then mfOpen m e f.fell s
    else s.modMf m (fun f => { f with starts := recent s.tb.now (f.starts ++ [e]) })
  | .armed i byLevel =>
    if tnotBefore e.time i && (!byLevel || s.armLevelAt m e.time) then mfOpen m e (some i) s else s
  | .opened r =>
    if tlater r.start.time e.time then s
    else if tlater (runEnd f r) e.time then
      let s := miss e.port Flags.none s
      if f.cfg.restart then mfOpen m e none s else s
    else s.modMf m (fun f => { f with starts := f.starts ++ [e] })

/-- Start edges that came before the frame could take them are taken in order. -/
def mfReplay (m : Fin 16) (s : State) : State :=
  let es := s.mfs[m].starts
  foldS es (mfStart m) (s.modMf m (fun f => { f with starts := [] }))

/-- R261: the frame becomes ARMED at an arm instant; byLevel: because the level of its source is high. -/
def mfArmed (m : Fin 16) (i : TimeWord) (byLevel : Bool) (s : State) : State :=
  mfReplay m (s.modMf m (fun f => { f with state := .armed i byLevel, fell := none }))

/-- R261: an arming event. -/
def mfArm (m : Fin 16) (i : TimeWord) (s : State) : State :=
  match s.mfs[m].state with
  | .idle => mfArmed m i false s
  | .armed .. => s
  | .opened _ => s.modMf m (fun f => { f with heldArm := true })

/-- R261: a frame under LEVEL follows the level of its source, which may have changed at an instant. A rise in OPEN is held.
A frame that an event armed does not fall to IDLE with the level. -/
def mfFollow (m : Fin 16) (t : TimeWord) (s : State) : State :=
  let f := s.mfs[m]
  if !f.cfg.enable || !f.levelArmed then s
  else match f.state, s.armLevelAt m t with
    | .idle, true => mfArmed m t true s
    | .armed i true, false => s.modMf m (fun f => { f with state := .idle, fell := some i })
    | .opened _, true => s.modMf m (fun f => { f with heldRise := true })
    | _, _ => s

/-- R261: a change of the level of an arming source at an instant: under EDGE a rise is an arming event. -/
def mfSourceChange (src : ArmSrc) (high : Bool) (t : TimeWord) (s : State) : State :=
  eachFin 16 (fun m s =>
    let f := s.mfs[m]
    if f.cfg.enable && decide (f.cfg.armSrc = src) then
      if f.cfg.armLevel then mfFollow m t s
      else if high && s.srcLevel src t then mfArm m t s else s
    else s) s

/-- The level-following frames armed by a port whose cluster has entered or left ACTIVE (R252, R261). -/
def mfFollowAll (t : TimeWord) (s : State) : State := eachFin 16 (fun m s => mfFollow m t s) s

/-- R264: a stop edge of a frame is kept until the run that considers it closes. -/
def mfStop (m : Fin 16) (e : MfEdge) (s : State) : State :=
  s.modMf m (fun f =>
    { f with edges := (match f.state with | .idle => recent s.tb.now f.edges | _ => f.edges) ++ [e] })

def senseIn (x : SenseSel) (e : Sense) : Bool :=
  match x, e with
  | .both, _ | .rise, .rise | .fall, .fall => true
  | _, _ => false

/-- R243, R259: a converted edge reaches every enabled frame that names its port. -/
def mfEdge (e : MfEdge) (s : State) : State :=
  eachFin 16 (fun m s =>
    let f := s.mfs[m]
    if !f.cfg.enable then s
    else
      let s := if f.cfg.stops.contains e.port && senseIn f.cfg.stopEdge e.sense then mfStop m e s else s
      if decide (f.cfg.startPort = some e.port) && decide (f.cfg.startEdge = e.sense) then mfStart m e s else s) s

/-- R269: the frame's run is discarded, a held arming event is cleared, and the frame is IDLE.
(DEDUCED, notes/assumptions/34.md) -/
def mfAbort (m : Fin 16) (s : State) : State :=
  s.modMf m (fun f => { f with state := .idle, heldArm := false, heldRise := false, fell := none, edges := [], starts := [] })

/-- R261: the START task; it has no effect under ALWAYS or while the frame is not enabled. -/
def mfStartTask (m : Fin 16) (cyc : TimeWord) (s : State) : State :=
  let f := s.mfs[m]
  if f.cfg.enable && !decide (f.cfg.armSrc = .always) then mfArm m cyc s else s

/-! ### Closing a run -/

/-- An edge that is the start edge itself is never a stop (R264). -/
def isStartEdge (f : Mf) (r : MfRun) (e : MfEdge) : Bool :=
  decide (e.port = r.start.port) && decide (e.time = r.start.time) && decide (e.sense = f.cfg.startEdge)

/-- Edges in order of time word. -/
def insertEdge (e : MfEdge) : List MfEdge → List MfEdge
  | [] => [e]
  | x :: xs => if tlater x.time e.time then e :: x :: xs else x :: insertEdge e xs

def sortEdges (es : List MfEdge) : List MfEdge := es.foldr insertEdge []

/-- R264: the stops of a run on a port. -/
def runStops (f : Mf) (r : MfRun) (p : Fin 64) : List MfEdge :=
  (sortEdges (f.edges.filter (fun e => decide (e.port = p) && !isStartEdge f r e && tnotBefore e.time r.start.time
    && tlater (runEnd f r) e.time))).take f.cfg.stopMax

/-- R264: the early stops of a run. -/
def runEarly (f : Mf) (r : MfRun) : Nat :=
  match r.early with
  | none => 0
  | some i => (f.edges.filter (fun e => tnotBefore e.time i && tlater r.start.time e.time)).length

/-- R265: the run closes in a fabric cycle. -/
def mfCloseDue (s : State) (m : Fin 16) : Bool :=
  let f := s.mfs[m]
  match f.state with
  | .opened r =>
    tnotBefore s.cycle (tadd (runEnd f r) reachTu) ||
      (tnotBefore s.cycle (tadd r.start.time reachTu) &&
        f.cfg.stops.all (fun p => decide ((runStops f r p).length = f.cfg.stopMax)))
  | _ => false

/-- The positions of a list with their items. -/
def withIdx {α : Type} (l : List α) : List (Nat × α) := (List.range l.length).zip l

/-- R266: the results a run expects, by rising stop index. -/
def runResults (s : State) (f : Mf) (r : MfRun) : List MfPre :=
  (withIdx f.cfg.stops).flatMap (fun (i, p) =>
    let stops := runStops f r p
    (List.range f.cfg.stopMax).map (fun j =>
      ⟨8 * i + j, r.run, r.start, stops[j]?, p, (s.clusterOfPort p).epoch⟩))

/-- R271: the mask of the flags of a filter. -/
def StatFlag.bit : StatFlag → Nat
  | .prov => 0 | .shifted => 1 | .nbr => 2 | .ovd => 3 | .late => 4 | .pair => 6 | .hold => 12

/-- R271, R83: one admitted interval joins the statistics of its stop index; COUNT is a count of 48 bits. -/
def addStat (idx x : Nat) : List StatCell → List StatCell
  | [] => [⟨idx, 1, x, x * x, x, x⟩]
  | c :: cs =>
    if c.idx = idx then
      ⟨idx, (c.n + 1) % 2 ^ 48, c.sum + x, c.sumSq + x * x, min c.min x, max c.max x⟩ :: cs
    else if idx < c.idx then ⟨idx, 1, x, x * x, x, x⟩ :: c :: cs
    else c :: addStat idx x cs

/-- The 32 bytes of a measurement result but for its check (R135). -/
def resultBytes (r : ResultRec) : List Byte :=
  bytesLE 8 r.start.toNat ++ bytesLE 8 r.interval.toNat ++ [BitVec.ofNat 8 r.mf.val,
    BitVec.ofNat 8 (r.stopPort.val + (if r.stopFalling then 128 else 0)), r.stopIdx, r.stopEpoch, r.startEpoch] ++
    bytesLE 2 r.flags.toNat ++ [BitVec.ofNat 8 (r.startPort.val + (if r.startFalling then 128 else 0))] ++
    bytesLE 4 r.run.toNat ++ bytesLE 2 r.seq.toNat

/-- R266: the flags of a result: bits 0 to 7 and 12 of both edges, CALGEN of the stop, or of the start for NOSTOP. -/
def resultFlags (x : MfPre) (shifted : Bool) : BitVec 16 :=
  let sh : BitVec 16 := if shifted then 2 else 0
  match x.stop with
  | some e => ((x.start.flags ||| e.flags) &&& 0x10FF#16) ||| (e.flags &&& 0x0F00#16) ||| sh
  | none => (x.start.flags &&& 0x1FFF#16) ||| 0x8000#16 ||| sh

/-- R266, R267, R271: one result forms, and its record is on its way to the central FIFO.
(DEDUCED, notes/assumptions/34.md) -/
def mfResult (m : Fin 16) (x : MfPre) (s : State) : State :=
  let f := s.mfs[m]
  let prov := x.start.prov ++ (match x.stop with | some e => e.prov | none => [])
  let fl := resultFlags x (s.shiftedBy prov)
  let interval : BitVec 64 := match x.stop with | some e => e.time - x.start.time | none => BitVec.allOnes 64
  let r0 : ResultRec :=
    { start := x.start.time, interval := interval, mf := m, stopPort := x.stopPort,
      stopFalling := (match x.stop with | some e => decide (e.sense = .fall) | none => false),
      stopIdx := BitVec.ofNat 8 x.idx, stopEpoch := (match x.stop with | some e => e.epoch | none => x.epoch),
      startEpoch := x.start.epoch, flags := fl, startPort := x.start.port,
      startFalling := decide (x.start.sense = .fall), run := x.run, seq := f.seq, check := 0 }
  let rec_ : ResultRec := { r0 with check := crc16 (resultBytes r0) }
  let admitted := x.stop.isSome && !f.cfg.statsHold && !f.cfg.filter.any (fun g => fl.getLsbD g.bit)
  let s := s.modMf m (fun f => { f with seq := f.seq + 1,
                                        stats := if admitted then addStat x.idx interval.toNat f.stats else f.stats })
  if f.cfg.records then s.modMf m (fun f => { f with out := f.out ++ [.result rec_] }) else s

/-- R267: in every fabric cycle one record of a frame enters the central FIFO. (DEDUCED, notes/assumptions/34.md) -/
def mfOut (m : Fin 16) (s : State) : State :=
  match s.mfs[m].out with
  | [] => s
  | r :: rest =>
    let s := s.modMf m (fun f => { f with out := rest })
    let q := s.fifo.pushB [r]
    overflowStarted ({ s with fifo := q.1 }, q.2)

/-- The results of one closed run that can form, in order, and those that wait for a decision (R268). -/
def splitReady (s : State) : List MfPre → List MfPre × List MfPre
  | [] => ([], [])
  | x :: xs =>
    let prov := x.start.prov ++ (match x.stop with | some e => e.prov | none => [])
    if s.allDecided prov then let r := splitReady s xs; (x :: r.1, r.2) else ([], x :: xs)

/-- R266, R268: every result of a frame that can form does. (DEDUCED, notes/assumptions/34.md) -/
def mfForm (m : Fin 16) (s : State) : State :=
  let runs := s.mfs[m].closed.map (splitReady s)
  let s' := s.modMf m (fun f => { f with closed := (runs.map (fun r => r.2)).filter (fun r => !r.isEmpty) })
  foldS (runs.flatMap (fun r => r.1)) (mfResult m) s'

/-- R261, R265: the frame at the end of a run: ARMED from the end of the run's window if an arming event is held or the mode
re-arms it. Under LEVEL it then follows what the level has done since. -/
def mfAfterRun (m : Fin 16) (end_ : TimeWord) (s : State) : State :=
  let f := s.mfs[m]
  let event := f.heldArm || decide (f.cfg.armSrc = .always)
  let level := f.levelArmed && (f.heldRise || s.armLevelAt m end_)
  let s := s.modMf m (fun f => { f with heldArm := false, heldRise := false })
  mfFollow m s.tb.now (if event || level then mfArmed m end_ (!event) s
                       else mfReplay m (s.modMf m (fun f => { f with state := .idle, fell := none })))

/-- R265, R266: a run closes. (DEDUCED, notes/assumptions/34.md) -/
def mfClose (m : Fin 16) (s : State) : State :=
  let f := s.mfs[m]
  match f.state with
  | .opened r =>
    let end_ := runEnd f r
    let s := s.modMf m (fun f => { f with early := f.early + BitVec.ofNat 48 (runEarly f r),
                                          closed := f.closed ++ [runResults s f r],
                                          edges := f.edges.filter (fun e => tnotBefore e.time end_) })
    mfForm m (mfAfterRun m end_ s)
  | _ => s

end Sys2Proof.Machine
end

