-- ==== Sys2Proof/Machine/Convert.lean ====
section
/-! DEFINITION. The input path of a port: which edges it converts, the time word of a conversion, its consumers, over-range
and the stamp formatter (spec/09 R239 to R257, spec/05 R135 and R136, spec/07 R184, R201, spec/08 R214, R235). -/
namespace Sys2Proof.Machine

/-- R184: the timebase is locked. -/
def State.tbLocked (s : State) : Bool := match s.tb.state with | .locked | .holdover => true | _ => false

/-! ### Consumers of an edge of a source -/

/-- R184: the distance between usable index edges. -/
def usableTu : Int := 1000000

/-- R184: an edge is far enough from the latest usable index edge of its axis. -/
def Axis.spaced (x : Axis) (t : TimeWord) : Bool :=
  match x.lastUsable with | some u => decide (usableTu ≤ (tdiff t u).natAbs) | none => true

/-- R183, R184: an edge of a source reaches the axes that it is an index edge of. (DEDUCED, notes/assumptions/18.md) -/
def axisIndex (src : EdgeSrc) (sense : Sense) (t : TimeWord) (flagged : Bool) (s : State) : State :=
  eachFin 4 (fun a s =>
    let x := s.axes[a]
    if decide (x.cfg.mode ≠ .free) && decide (x.cfg.source = src) && (decide (src = .mark) || decide (x.cfg.edge = sense))
        && !flagged && s.tbLocked && x.spaced t then
      s.modAxis a (fun x => { x with pendIdx := x.pendIdx ++ [t], lastUsable := some t })
    else s) s

/-- R206, R500: an edge of a source reaches the axes that count it (notes/assumptions: the sense AXa.EDGE selects).
(DEDUCED, notes/assumptions/18.md) -/
def axisCount (src : EdgeSrc) (sense : Sense) (t : TimeWord) (flagged : Bool) (s : State) : State :=
  eachFin 4 (fun a s =>
    let x := s.axes[a]
    if decide (x.cfg.mode = .increment) && decide (x.cfg.countSrc = some src) && decide (x.cfg.edge = sense) then
      s.modAxis a (fun x => { x with pendCnt := x.pendCnt ++ [(t, flagged)] })
    else s) s

/-- R217: pad triggers stand in order of trigger instant. -/
def insertPad (t : PadTrig) : List PadTrig → List PadTrig
  | [] => [t]
  | x :: xs => if tlater x.instant t.instant then t :: x :: xs else x :: insertPad t xs

/-- R214, R215: an edge of a source is a trigger of the ports that select it, with the values that they hold at its instant.
-/
def padEdges (src : EdgeSrc) (sense : Sense) (t : TimeWord) (s : State) : State :=
  let from_ : Option (Fin 64) := match src with | .port r => some r | _ => none
  eachFin 64 (fun p s =>
    let c := s.ports[p].cfg
    if isPulseMode c.mode && decide (c.trigSrc = some src) && decide (c.trigEdge = sense) then
      s.modPort p (fun q => { q with pads := insertPad ⟨t, from_, c.delay, c.width⟩ q.pads })
    else s) s

/-- R243: the consumers that select a sense of a port. -/
def State.selects (s : State) (p : Fin 64) (sense : Sense) : Bool :=
  let c := s.ports[p].cfg
  let index (x : Axis) : Bool := decide (x.cfg.mode ≠ .free) && decide (x.cfg.source = .port p) && decide (x.cfg.edge = sense)
  let counts (x : Axis) : Bool :=
    decide (x.cfg.mode = .increment) && decide (x.cfg.countSrc = some (.port p)) && decide (x.cfg.edge = sense)
  let frame (f : Mf) : Bool :=
    f.cfg.enable && ((decide (f.cfg.startPort = some p) && decide (f.cfg.startEdge = sense)) ||
      (f.cfg.stops.contains p && senseIn f.cfg.stopEdge sense))
  let pad (q : Port) : Bool :=
    isPulseMode q.cfg.mode && decide (q.cfg.trigSrc = some (.port p)) && decide (q.cfg.trigEdge = sense)
  match c.mode with
  | .gate | .echo => true
  | .stamp =>
    (c.record && senseIn c.stampEdge sense) || s.axes.toList.any index || s.axes.toList.any counts ||
      s.mfs.toList.any frame || s.ports.toList.any pad
  | _ => false

/-! ### The comparator (R239 to R242, R354) -/

/-- R240: the value that AUTO selects. In ECHO mode it is the midpoint of the output standard, on the nearest step of the DAC
(R235). (DESIGN CHOICE, notes/assumptions/85.md) -/
def autoThresh : IoStd → Int
  | .lvds | .slvs400 => 0
  | .lvcmos18 => 900000
  | .lvcmos25 => 1249600
  | .lvcmos33 => 1649600

/-- R235, R240: the threshold in force on a port, in µV. (DESIGN CHOICE, notes/assumptions/85.md) -/
def State.threshInForce (s : State) (p : Fin 64) : Int :=
  let c := s.ports[p].cfg
  match c.mode, c.thresh with
  | .echo, _ | _, none => autoThresh (s.clusterOfPort p).iostd
  | _, some v => v

/-- R241: the level at which the comparator detects an edge. (DESIGN CHOICE, notes/assumptions/85.md) -/
def crossingLevel (thresh : Int) (hyst : Nat) (falling : Bool) : Int :=
  if falling then thresh - (hyst / 2 : Nat) else thresh + (hyst / 2 : Nat)

/-- R354: the setting of the threshold DAC for a crossing. -/
def dacSetting (t : TableSet) (thresh : Int) (hyst : Nat) (falling : Bool) : Int :=
  crossingLevel thresh hyst falling - (if falling then t.offFall else t.offRise)

/-- R241, R354: an input that reaches a level crosses the comparator, whose own offset the DAC setting takes back.
(DESIGN CHOICE, notes/assumptions/85.md) -/
def crosses (t : TableSet) (thresh : Int) (hyst : Nat) (falling : Bool) (uv : Int) : Bool :=
  let at_ := dacSetting t thresh hyst falling + (if falling then t.offFall else t.offRise)
  if falling then decide (uv ≤ at_) else decide (at_ ≤ uv)

/-- R242: 2 µs. (DESIGN CHOICE, notes/assumptions/85.md) -/
def settleTu : Int := 20000000

/-- R241, R242: the comparator of a port detects an edge that brings the input to a level. While the DAC settles, the values
before the change may detect it too. (DESIGN CHOICE, notes/assumptions/85.md) -/
def State.detects (s : State) (p : Fin 64) (t : TableSet) (falling : Bool) (uv : Int) : Bool :=
  let q := s.ports[p]
  crosses t (s.threshInForce p) q.cfg.hyst falling uv ||
    (match q.settling with
     | some o => decide ((tdiff s.tb.now o.since).natAbs ≤ settleTu) && crosses t o.thresh o.hyst falling uv
     | none => false)

/-! ### Conversion -/

/-- R246, R358: the dead time. -/
def deadTu (pair : Bool) : Int := if pair then 96000 else 16000

/-- R244, R358: the delay of a code: D(c), or D'(c) with a pair Q. -/
def codeDelay (t : TableSet) (code : Nat) (q : Option Nat) : Int :=
  let d : Int := t.d.getD code 0
  match q with
  | some (q + 1) => 400 + divEven ((d - 400) * (t.qref : Int)) (q + 1)
  | _ => d

/-- R244, R354: the time word of a conversion, without the input offset. -/
def convTime (t : TableSet) (stop : TimeWord) (code : Nat) (falling : Bool) (q : Option Nat) : TimeWord :=
  tadd stop (-(codeDelay t code q) - (if falling then t.fallSkew else 0))

/-- R255: an edge at a time word carries OVD on the port. -/
def State.ovdAt (s : State) (p : Fin 64) (t : TimeWord) : Bool :=
  s.ports[p].ovSpans.any (fun v => tnotBefore t (tadd v.a (-20000)) &&
    (match v.z with | none => true | some z => tnotBefore (tadd z 200000) t))

/-- R255: an edge at a time word carries NBR on the port: a neighbour of its cluster, one or two away. -/
def State.nbrAt (s : State) (p : Fin 64) (t : TimeWord) : Bool :=
  (portsOf (clusterOf p)).any (fun n =>
    let far := if n.val < p.val then p.val - n.val else n.val - p.val
    (decide (far = 1) || decide (far = 2)) &&
    s.ports[n].ovSpans.any (fun v => tnotBefore t (tadd v.a (-20000)) &&
      (match v.z with | none => true | some z => tnotBefore (tadd z 480000) t)))

/-- R135: the flags of a stamp. -/
def stampFlags (prov shifted nbr ovd late echo pair uclass : Bool) (calgen : Nat) (hold : Bool) : BitVec 16 :=
  let b (x : Bool) (i : Nat) : Nat := if x then 2 ^ i else 0
  BitVec.ofNat 16 (b prov 0 + b shifted 1 + b nbr 2 + b ovd 3 + b late 4 + b echo 5 + b pair 6 + b uclass 7 +
    (calgen % 16) * 256 + b hold 12)

def Port.calgen (q : Port) : Nat := match q.table with | some t => t.gen | none => 0

/-- The flags of a conversion as its record and the frames carry them, but for PROV and SHIFTED. -/
def State.convFlags (s : State) (p : Fin 64) (c : Conv) (prov shifted : Bool) : BitVec 16 :=
  stampFlags prov shifted (s.nbrAt p c.edge) (s.ovdAt p c.edge) c.late c.echo c.q.isSome
    (s.sp.uports.contains p) s.ports[p].calgen (decide (s.tb.state = .holdover))

/-- R245: the time word with the input offset, which does not apply to an ECHO port. -/
def withOffset (q : Port) (t : TimeWord) : TimeWord := if q.cfg.mode = .echo then t else tadd t (-q.cfg.inOffset)

/-- A conversion with its time word reaches the measurement frames, the axes and the gate level (R206, R243, R252, R256,
R261). (DEDUCED, notes/assumptions/18.md, 28.md) -/
def consume (p : Fin 64) (c : Conv) (prov shifted : Bool) (s : State) : State :=
  let q := s.ports[p]
  let flagged := s.ovdAt p c.edge || s.nbrAt p c.edge
  let time := if c.echo then c.edge else withOffset q c.edge
  let s := mfEdge ⟨p, time, c.sense, s.convFlags p c prov shifted, (s.clusterOfPort p).epoch, c.flags.prov⟩ s
  if c.echo then s
  else
    let s := axisIndex (.port p) c.sense c.edge flagged s
    let s := axisCount (.port p) c.sense c.edge flagged s
    if q.cfg.mode = .gate then
      let high := decide (c.sense = .rise)
      let s := s.modPort p (fun q => { q with level := pushLevel ⟨c.edge, high⟩ q.level })
      mfSourceChange (.port p) high c.edge s
    else s

/-- R235: the emitted edge of an ECHO port that a conversion measures. -/
def takeEmitted (rising : Bool) : List EchoEdge → Option EchoEdge × List EchoEdge
  | [] => (none, [])
  | e :: es => if e.rising = rising then (some e, es) else (none, e :: es)

/-- R239, R251: the input path of a port converts. A port that has left ECHO mode still converts the edges that it emitted
there (R212). -/
def State.converting (s : State) (p : Fin 64) : Bool :=
  let q := s.ports[p]
  s.portActive p && (s.windowOf p).isNone && (stampModes q.cfg.mode || !q.emitted.isEmpty)

/-- R241, R244, R246, R248, R251: an edge at the pad of a port, which brings the input to a level. It waits for the
formatter, and the ports that it triggers have it at once. (DEDUCED, notes/assumptions/28.md) -/
def convert (p : Fin 64) (falling : Bool) (stop : TimeWord) (code : Nat) (uv : Int) (s : State) : State :=
  let q := s.ports[p]
  let sense : Sense := if falling then .fall else .rise
  match q.table with
  | none => s
  | some t =>
    let r := takeEmitted (falling == q.cfg.invert) q.emitted
    let live := s.converting p && (s.selects p sense || r.1.isSome) && s.detects p t falling uv &&
      decide (code < 384) && tnotBefore s.tb.now stop && decide (stop.toNat % tickTu = s.tb.now.toNat % tickTu)
    if !live then s
    else
      let pq := if q.cfg.pair && decide (0 < q.q) then some q.q else none
      let edge := convTime t stop code falling pq
      let s := s.modPort p (fun q => { q with emitted := r.2 })
      let dead := match q.lastConv with | some l => decide ((tdiff edge l).natAbs < deadTu q.cfg.pair) | none => false
      if dead then miss p Flags.none s
      else
        let s := s.modPort p (fun q => { q with lastConv := some edge })
        if 4 ≤ q.stage.length then miss p Flags.none s
        else
          let c : Conv :=
            { stop := stop, code := code, edge := edge, sense := sense, q := pq,
              echo := decide (q.cfg.mode = .echo) || r.1.isSome, own := r.1.isSome,
              late := (match r.1 with | some e => e.late | none => false),
              flags := (match r.1 with | some e => e.flags | none => Flags.none) }
          let s := s.modPort p (fun q => { q with stage := q.stage ++ [c] })
          if c.echo then s else padEdges (.port p) sense edge s

/-! ### The formatter -/

/-- The first 14 bytes of a stamp record (R135). -/
def stampBytes (r : StampRec) : List Byte :=
  bytesLE 8 r.time.toNat ++ [BitVec.ofNat 8 (r.port.val + (if r.falling then 128 else 0))] ++ bytesLE 2 r.flags.toNat ++
    [r.epoch] ++ bytesLE 2 r.seq.toNat

/-- R135, R136, R247: a record forms, with the next SEQ, and raises STAMP. -/
def formStamp (p : Fin 64) (time : TimeWord) (falling : Bool) (flags : BitVec 16) (fl : Flags) (s : State) : State :=
  let q := s.ports[p]
  let r0 : StampRec := ⟨time, p, falling, flags, (s.clusterOfPort p).epoch, q.seq, 0⟩
  let r : StampRec := { r0 with check := crc16 (stampBytes r0) }
  let s := s.modPort p (fun q =>
    { q with seq := q.seq + 1, buffer := q.buffer ++ [r], counts := { q.counts with stamps := q.counts.stamps + 1 } })
  raisePortAt p 1 s.cycle 1 fl s

/-- R249: the port buffer has a free slot; a held result keeps its slot (R201). -/
def Port.hasSlot (q : Port) : Bool := decide (q.buffer.length + q.heldEcho.length < 32)

/-- R247: outside ECHO mode, an edge forms a record, if its gate is open. -/
def State.recorded (s : State) (p : Fin 64) (c : Conv) : Bool :=
  let q := s.ports[p]
  stampModes q.cfg.mode && q.cfg.record && senseIn q.cfg.stampEdge c.sense

/-- R252, R253: the gate of a port is open at a time word. -/
def State.gateOpenAt (s : State) (p : Fin 64) (w : TimeWord) : Bool :=
  match s.ports[p].cfg.gateSrc with
  | none => true
  | some g => decide (s.ports[g].cfg.mode = .gate) && decide (s.gateLevel g w = !s.ports[p].cfg.gateLow)

/-- R184, R255: 2 ns: an assertion of an over-range detector reaches that far back. -/
def lookBackTu : Int := 20000

/-- R248: 4 ns. -/
def formatTu : Int := 40000

/-- R201, R247, R249: the record of a conversion forms, or is held for the decision of its frames; with no free slot the edge
raises MISS. -/
def formConv (p : Fin 64) (c : Conv) (s : State) : State :=
  let q := s.ports[p]
  let prov := !c.flags.prov.isEmpty || c.flags.provFlag
  let shifted := c.flags.shifted || s.shiftedBy c.flags.prov
  let time := if c.echo then c.edge else withOffset q c.edge
  let falling := decide (c.sense = .fall)
  if !q.hasSlot then miss p Flags.none s
  else if c.flags.prov.isEmpty || s.allDecided c.flags.prov then
    formStamp p time falling (s.convFlags p c prov shifted) ⟨c.flags.prov, prov, shifted⟩ s
  else
    let h : HeldEcho := ⟨time, falling, s.convFlags p c true c.flags.shifted, c.flags.prov, c.flags.shifted⟩
    s.modPort p (fun q => { q with heldEcho := q.heldEcho ++ [h] })

/-- R254: the conversions whose gate can be decided, 96 ns after the edge, are decided in order. -/
def decideGated (p : Fin 64) : Nat → State → State
  | 0, s => s
  | n + 1, s =>
    match s.ports[p].gated with
    | [] => s
    | c :: rest =>
      if tdiff s.tb.now c.edge < reachTu then s
      else
        let s := s.modPort p (fun q => { q with gated := rest })
        decideGated p n (if s.gateOpenAt p c.edge then formConv p c s else s)

/-- R254: a conversion that forms a record waits where the gate is to be decided, and behind one that waits. -/
def gateConv (p : Fin 64) (c : Conv) (s : State) : State :=
  let q := s.ports[p]
  if c.echo then (if c.own || q.cfg.output then formConv p c s else s)
  else if !s.recorded p c then s
  else if q.cfg.gateSrc.isSome || !q.gated.isEmpty then s.modPort p (fun q => { q with gated := q.gated ++ [c] })
  else formConv p c s

/-- R244, R248: the formatter may take the conversion at the front: 4 ns after the one before, and 2 ns after the edge, when
its flags are known (R255). (DEDUCED, notes/assumptions/28.md) -/
def formatterReady (q : Port) (c : Conv) (now : TimeWord) : Bool :=
  decide (lookBackTu ≤ tdiff now c.edge) && (match q.taken with | some t => decide (formatTu ≤ (tdiff now t).natAbs) | none => true)

/-- R244, R247, R248: the formatter takes the conversion at the front of the stage, computes its time word with the tables in
force, and hands it to every consumer. (DEDUCED, notes/assumptions/28.md) -/
def formatNext (p : Fin 64) (s : State) : State :=
  let q := s.ports[p]
  match q.stage with
  | [] => s
  | c :: rest =>
    if !formatterReady q c s.tb.now then s
    else
      let s := s.modPort p (fun q => { q with stage := rest, taken := some s.tb.now })
      let edge := match q.table with | some t => convTime t c.stop c.code (decide (c.sense = .fall)) c.q | none => c.edge
      let c := { c with edge := edge }
      let prov := !c.flags.prov.isEmpty || c.flags.provFlag
      gateConv p c (consume p c prov c.flags.shifted s)

/-- STAMP_FORMAT: what waits for a gate is decided, and the formatter takes the next conversion. -/
def format (p : Fin 64) (s : State) : State := formatNext p (decideGated p s.ports[p].gated.length s)

/-- R178: the stamp of a held edge has been formed with HOLD: the measurement frames have it with the edge. -/
def markHold (p : Fin 64) (t : TimeWord) (s : State) : State :=
  let e (x : MfEdge) : MfEdge := if x.port = p ∧ x.time = t then { x with flags := x.flags ||| 0x1000#16 } else x
  let pre (x : MfPre) : MfPre := { x with start := e x.start, stop := x.stop.map e }
  let st (x : MfState) : MfState := match x with | .opened r => .opened { r with start := e r.start } | y => y
  { s with mfs := updAll s.mfs (fun _ f =>
      { f with state := st f.state, edges := f.edges.map e, starts := f.starts.map e,
               closed := f.closed.map (fun r => r.map pre) }) }

/-- R178, R201: a held result forms its record in the decision cycle of its last frame. HOLD and UCLASS are taken when
the record is formed. -/
def formHeld (p : Fin 64) (h : HeldEcho) (s : State) : State :=
  let shifted := h.shifted || s.shiftedBy h.waits
  let keep : BitVec 16 := h.flags &&& 0xEF7F#16
  let fl : BitVec 16 := keep ||| (if shifted then 2 else 0) ||| (if s.sp.uports.contains p then 0x80 else 0) |||
    (if s.tb.state = .holdover then 0x1000 else 0)
  let s := if s.tb.state = .holdover then markHold p h.time s else s
  formStamp p h.time h.falling fl ⟨h.waits, true, shifted⟩ s

/-- R201: every held result of a port whose frames have all been decided, or never will be, forms its record. -/
def releaseHeld (p : Fin 64) (s : State) : State :=
  let q := s.ports[p]
  let ready := q.heldEcho.filter (fun h => s.allDecided h.waits)
  let s := s.modPort p (fun q => { q with heldEcho := q.heldEcho.filter (fun h => !s.allDecided h.waits) })
  foldS ready (formHeld p) s

/-! ### Over-range -/

/-- R255, R257, R501: the detector of a port asserts at A. An assertion within the span of the previous episode extends
it. (DESIGN CHOICE, notes/assumptions/33.md) (DEDUCED, notes/assumptions/38.md) -/
def overrangeOn (p : Fin 64) (a : TimeWord) (s : State) : State :=
  let q := s.ports[p]
  if !stampModes q.cfg.mode || q.overrange || !tnotBefore s.tb.now a then s
  else
    let extends_ := match q.ovSpans with
      | v :: _ => (match v.z with | some z => tlater (tadd z 200000) a | none => true)
      | [] => false
    if extends_ then
      s.modPort p (fun q => { q with overrange := true,
                                     ovSpans := match q.ovSpans with | v :: vs => { v with z := none } :: vs | [] => [] })
    else
      let s := s.modPort p (fun q => { q with overrange := true, ovSpans := (⟨a, none⟩ :: q.ovSpans).take 8 })
      if s.portActive p then
        raiseAt (evPort p 3) s.cycle 1 Flags.none
          (s.modPort p (fun q => { q with counts := { q.counts with ovd := q.counts.ovd + 1 } }))
      else s

/-- R255: the detector deasserts at Z. (DEDUCED, notes/assumptions/38.md) -/
def overrangeOff (p : Fin 64) (z : TimeWord) (s : State) : State :=
  if !s.ports[p].overrange || !tnotBefore s.tb.now z then s
  else s.modPort p (fun q => { q with overrange := false,
                                      ovSpans := match q.ovSpans with
                                        | v :: vs => { v with z := some z } :: vs
                                        | [] => [] })

/-! ### Trigger inputs -/

/-- R218, R278: an edge of a trigger input reaches the fabric and every consumer. -/
def trgEdge (n : Fin 8) (falling : Bool) (t : TimeWord) (s : State) : State :=
  if !s.tb.started || !tnotBefore s.tb.now t then s
  else
    let sense : Sense := if falling then .fall else .rise
    let s := s.modTrg n (fun x => { x with level := pushLevel ⟨t, !falling⟩ x.level })
    let s := if senseIn s.trgs[n].edge sense then raise (evTrg n) Flags.none s else s
    let s := axisIndex (.trg n) sense t false s
    let s := axisCount (.trg n) sense t false s
    let s := padEdges (.trg n) sense t s
    mfSourceChange (.trg n) (!falling) t s

end Sys2Proof.Machine
end

