-- ==== Sys2Proof/Machine/Tone.lean ====
section
/-! DEFINITION. Tones: phase, level, start, stop and change of frequency (spec/08 R230 to R234). Their instants count the tu of
the tick domain, so that no step of the time word moves a tone. -/
namespace Sys2Proof.Machine

/-- R234: 800 ps. -/
def toneMin : Int := 8000

/-- The tu of the tick domain at a time word. -/
def State.tu (s : State) (w : TimeWord) : Int := ((s.tb.ticks * tickTu : Nat) : Int) + tdiff w s.tb.now

/-- R230: the phase on a tick. -/
def tonePhase (t : Tone) (ftw : Nat) (x : Int) : BitVec 48 :=
  t.basePhase + BitVec.ofInt 48 ((ftw : Int) * ((x - t.base) / (tickTu : Int)))

/-- R233: the coherent phase on a tick: FTW × (tick count of T − tick count of the origin) mod 2^48. -/
def coherentPhase (ftw : Nat) (origin w : TimeWord) : BitVec 48 :=
  BitVec.ofInt 48 ((ftw : Int) * ((tickCount w : Int) - (tickCount origin : Int)))

/-- R231, R233: the phase that a start, or a change to a frequency, gives on a tick. -/
def newPhase (c : PortCfg) (ftw : Nat) (w : TimeWord) : BitVec 48 :=
  if c.toneReset then 0 else coherentPhase ftw c.toneOrigin w

/-- R230: the level of a phase. -/
def phaseHigh (ph : BitVec 48) : Bool := !ph.msb

/-- The tu from a tick with phase ph to the next crossing of 0 or 2^47, k further half periods later (FTW > 0). -/
def crossing (ph : BitVec 48) (ftw k : Nat) : Int :=
  divEven (((2 ^ 47 - ph.toNat % 2 ^ 47 : Nat) + k * 2 ^ 47 : Nat) * 4000) (max 1 ftw)

/-- The tu back from a tick with phase ph to the latest crossing at or before it. -/
def lastCrossing (ph : BitVec 48) (ftw : Nat) : Int := divEven ((ph.toNat % 2 ^ 47 : Nat) * 4000) (max 1 ftw)

/-- The edges of a running tone after a tick with phase ph: the first eight. -/
def crossings (ph : BitVec 48) (ftw : Nat) (x : Int) : List Int := (List.range 8).map (fun k => x + crossing ph ftw k)

/-- A hold still applies. -/
def ToneHold.holds (h : ToneHold) (x : Int) : Bool := match h.until_ with | some u => decide (x < u) | none => true

/-- The level that a tone follows once its hold is over, and since when. -/
def toneFree (t : Tone) (ftw : Nat) (x : Int) : Bool × Int :=
  if !t.running || ftw = 0 then (false, match t.hold with | some h => h.until_.getD h.since | none => t.base)
  else let ph := tonePhase t ftw x; (phaseHigh ph, x - lastCrossing ph ftw)

/-- The level of a tone on a tick, and since when it holds it. -/
def toneNow (t : Tone) (ftw : Nat) (x : Int) : Bool × Int :=
  match t.hold with
  | some h => if h.holds x then (h.high, h.since) else toneFree t ftw x
  | none => toneFree t ftw x

/-- R234: an edge that would end a level less than 800 ps after it began goes, and the edge after it. -/
def thin : Nat → Int → List Int → List Int
  | 0, _, es => es
  | fuel + 1, since, e :: rest => if e - since < toneMin then thin fuel since (rest.drop 1) else e :: thin fuel e rest
  | _ + 1, _, [] => []

/-- R233, R234: the tone from tick x on, with a phase there, given the level it holds before x, since when, and the edges
that would follow, from x on. -/
def toneFrom (ph : BitVec 48) (x : Int) (level : Bool) (since : Int) (edges : List Int) : Tone :=
  let hold : ToneHold := match thin 10 since edges with
    | [] => ⟨level, since, none⟩
    | e :: es => if e = x then ⟨!level, x, es.head?⟩ else ⟨level, since, some e⟩
  { running := true, base := x, basePhase := ph, hold := some hold }

/-- R231: a tone starts on a tick. A high level that a stop still completes goes on until it ends, or until the first rising
edge of the new tone. (DEDUCED, notes/assumptions/86.md) -/
def toneStart (q : Port) (x : Int) (T : TimeWord) : Tone :=
  let r := toneNow q.tone q.cfg.ftw x
  let ph := newPhase q.cfg q.cfg.ftw T
  if q.cfg.ftw = 0 then { running := true, base := x, basePhase := ph, hold := q.tone.hold }
  else
    let cs := crossings ph q.cfg.ftw x
    let ups := if ph = 0 then x :: cs else if phaseHigh ph then cs.drop 1 else cs
    let edges := if !r.1 then ups
      else match q.tone.hold.bind ToneHold.until_, ups with
        | some f, u :: _ => if f < u then f :: ups else ups.drop 1
        | _, _ => ups.drop 1
    toneFrom ph x r.1 r.2 edges

/-- R231: on DISARM the output completes its present high level and then holds the idle level. A high level that no edge
would end, at FTW 0, ends once it has lasted 800 ps. (DEDUCED, notes/assumptions/86.md) -/
def toneStop (q : Port) (x : Int) : Tone :=
  let r := toneNow q.tone q.cfg.ftw x
  if !r.1 then { running := false, base := r.2, basePhase := 0, hold := none }
  else
    let next : Int := if q.cfg.ftw = 0 then max x (r.2 + toneMin) else x + crossing (tonePhase q.tone q.cfg.ftw x) q.cfg.ftw 0
    let fall := match q.tone.hold with
      | some h => if h.holds x then h.until_.getD next else next
      | none => next
    { running := false, base := fall, basePhase := 0, hold := some ⟨true, r.2, some fall⟩ }

/-- R232 to R234: the frequency of a running tone changes on tick T. With FTW 0 the output goes to the idle level, unless
that would end a level too early. -/
def toneChange (q : Port) (new : Nat) (x : Int) (T : TimeWord) : Tone :=
  let r := toneNow q.tone q.cfg.ftw x
  let ph := newPhase q.cfg new T
  if new = 0 then toneFrom ph x r.1 r.2 (if r.1 then [x] else [])
  else
    let cs := crossings ph new x
    toneFrom ph x r.1 r.2 (if phaseHigh ph = r.1 then cs else x :: cs)

/-- R234, R346: the tone of a port whose pad comes back from a level that a calibration window held: the edge that this
makes, and those after it. (DEDUCED, notes/assumptions/86.md) -/
def toneResume (q : Port) (held : Bool) (o x : Int) : Tone :=
  let r := toneNow q.tone q.cfg.ftw x
  if !q.tone.running || q.cfg.ftw = 0 then
    { q.tone with hold := some ⟨r.1, if r.1 = held then r.2 else x, q.tone.hold.bind ToneHold.until_⟩ }
  else
    let ph := tonePhase q.tone q.cfg.ftw x
    let cs := crossings ph q.cfg.ftw x
    toneFrom ph x held o (if r.1 = held then cs else x :: cs)

/-- R230: a tone is armed. -/
def Port.toneArmed (q : Port) : Bool := decide (q.cfg.mode = .tone) && q.armed

/-- R232, R233: FTW takes a value on a change tick. Where no tone runs, no edge leaves. -/
def changeFtw (p : Fin 64) (new : Nat) (T : TimeWord) (s : State) : State :=
  let x := s.tu T
  s.modPort p (fun q =>
    { q with tone := if q.tone.running then toneChange q new x T else q.tone, cfg := { q.cfg with ftw := new }, lastChange := T })

/-- The first tick of the next fabric cycle. -/
def State.nextCycle (s : State) : TimeWord := tadd s.cycle cycleTu

/-- R231: the tone of a port starts on the first tick of the next fabric cycle. (DEDUCED, notes/assumptions/86.md) -/
def startTone (p : Fin 64) (s : State) : State :=
  let T := s.nextCycle
  let x := s.tu T
  s.modPort p (fun q => { q with tone := toneStart q x T })

/-- R229, R231: ARM. -/
def armPort (p : Fin 64) (s : State) : State :=
  let was := s.ports[p].toneArmed
  let s := s.modPort p (fun q => q.setArmed s.cycle true)
  if s.ports[p].toneArmed && !was then startTone p s else s

/-- R229, R231: DISARM. -/
def disarmPort (p : Fin 64) (s : State) : State :=
  let was := s.ports[p].toneArmed
  let x := s.tu s.cycle
  let s := s.modPort p (fun q => q.setArmed s.cycle false)
  if was then s.modPort p (fun q => { q with tone := toneStop q x }) else s

/-- R25: an instant rounded to a whole tick. -/
def wholeTick (w : TimeWord) : TimeWord := BitVec.ofInt 64 (roundTo tickTu w.toNat)

/-- R232: the tick on which a staged change happens, if it is fixed. -/
def stagedTick (t : ToneTarget) : Option TimeWord :=
  match t with
  | .time w => some w
  | .pos _ _ _ b => b
  | .none => none

/-- R232: a staged change happens on its tick; TONEAT then reads NONE. -/
def toneTick (p : Fin 64) (s : State) : State :=
  let q := s.ports[p]
  match stagedTick q.cfg.toneAt with
  | some T =>
    if tnotBefore s.tb.now T then
      changeFtw p q.cfg.ftwNext T (s.modPort p (fun q => { q with cfg := { q.cfg with toneAt := .none } }))
    else s
  | none => s

/-- R211, R346: the logical level that a port's own output path gives at an instant. -/
def State.outLevel (s : State) (p : Fin 64) : Bool :=
  let q := s.ports[p]
  match q.cfg.mode with
  | .pulse | .echo => q.outHigh
  | .tone => (toneNow q.tone q.cfg.ftw (s.tu s.tb.now)).1
  | _ => false

end Sys2Proof.Machine
end

