-- ==== Sys2Proof/Machine/Generator.lean ====
section
/-! DEFINITION. The algorithmic generators and checkers (spec/12 R321 to R339). -/
namespace Sys2Proof.Machine

/-! ### Functions -/

/-- R326: N and k of the polynomial x^N + x^k + 1, and whether AUTO inverts. -/
def prbsOf : AgFunc → Option (Nat × Nat × Bool)
  | .prbs7 => some (7, 6, false) | .prbs9 => some (9, 5, false) | .prbs11 => some (11, 9, false)
  | .prbs15 => some (15, 14, true) | .prbs20 => some (20, 3, false) | .prbs23 => some (23, 18, true)
  | .prbs31 => some (31, 28, true) | _ => none

/-- R326: the stream is inverted. -/
def AgCfg.inverts (c : AgCfg) : Bool :=
  match c.inv with
  | .normal => false
  | .invert => true
  | .auto => match prbsOf c.func with | some (_, _, i) => i | none => false

/-- R326: one step of the register: r_i stands in bit i − 1. -/
def prbsStep (n k : Nat) (r : BitVec 32) : Bool × BitVec 32 :=
  let b := r.getLsbD (n - 1) != r.getLsbD (k - 1)
  (b, ((r <<< 1) ||| (if b then 1 else 0)) &&& BitVec.ofNat 32 (2 ^ n - 1))

/-- R326: w stream bits from a register, earliest in bit 0. -/
def prbsBits (n k : Nat) (inv : Bool) : Nat → BitVec 32 → Nat × BitVec 32
  | 0, r => (0, r)
  | w + 1, r =>
    let s := prbsStep n k r
    let rest := prbsBits n k inv w s.2
    ((if s.1 != inv then 1 else 0) + 2 * rest.1, rest.2)

/-- R326, R327: W is DWIDTH in GEN role and the number of inputs in CHECK role. -/
def AgCfg.width (c : AgCfg) : Nat := match c.role with | .check => c.inputs.length | _ => c.dWidth

def loadReg (c : AgCfg) : BitVec 32 :=
  match prbsOf c.func with | some (n, _, _) => c.seed &&& BitVec.ofNat 32 (2 ^ n - 1) | none => c.seed

/-- R327: bits of a user pattern from a stream position on, earliest in bit 0. -/
def userBits (c : AgCfg) : Nat → Nat → Nat
  | 0, _ => 0
  | w + 1, j => (if c.seed.getLsbD (j % max 1 c.patLen) then 1 else 0) + 2 * userBits c w (j + 1)

/-! ### March tests -/

/-- R329: the address of visit k. -/
def marchAddr (c : AgCfg) (down : Bool) (visit : Nat) : Nat :=
  let size := 2 ^ c.aWidth
  let k := if down then size - 1 - visit else visit
  if c.complement then (if k % 2 = 0 then k / 2 else size - 1 - k / 2) else k

/-- R330: the background of an address. -/
def backgroundOf (c : AgCfg) (a : Nat) : Nat :=
  let ones := 2 ^ c.dWidth - 1
  let row := a / 2 ^ c.colBits
  let col := a % 2 ^ c.colBits
  match c.background with
  | .solid => 0
  | .checker => if (row + col) % 2 = 1 then ones else 0
  | .rowstripe => if row % 2 = 1 then ones else 0
  | .colstripe => if col % 2 = 1 then ones else 0
  | .walk1 => 2 ^ (a % max 1 c.dWidth)
  | .walk0 => ones - 2 ^ (a % max 1 c.dWidth)

/-- R330: the value of an operation. -/
def marchValue (c : AgCfg) (one : Bool) (a : Nat) : Nat :=
  let b := backgroundOf c a
  if one then 2 ^ c.dWidth - 1 - b else b

/-- R328, R332: the position after one more word; none: the list has ended under ONCE. -/
def marchNext (c : AgCfg) (p : MarchPos) : Option MarchPos :=
  match c.march[p.elem]? with
  | none => none
  | some e =>
    if p.op + 1 < e.ops.length then some { p with op := p.op + 1 }
    else if p.visit + 1 < 2 ^ c.aWidth then some ⟨p.elem, p.visit + 1, 0⟩
    else if p.elem + 1 < c.march.length then some ⟨p.elem + 1, 0, 0⟩
    else if c.loop then some ⟨0, 0, 0⟩ else none

/-! ### Words -/

/-- R322, R326, R327, R331: the word that a generator's sequence gives next, begun on a tick. -/
def Ag.nextWord (x : Ag) (start : TimeWord) : AgWord :=
  let c := x.cfg
  let w := c.width
  match c.func with
  | .march => match c.march[x.pos.elem]? with
    | none => ⟨start, 0, 0, false, false, none⟩
    | some e =>
      let a := marchAddr c e.down x.pos.visit
      match e.ops[x.pos.op]? with
      | some o =>
        if o.read then ⟨start, a, x.lastWrite, false, true, some (marchValue c o.one a, a, x.pos.elem)⟩
        else ⟨start, a, marchValue c o.one a, true, false, none⟩
      | none => ⟨start, a, 0, false, false, none⟩
  | .count => ⟨start, 0, (c.seed.toNat + x.stream) % 2 ^ w, false, false, none⟩
  | .user => ⟨start, 0, userBits c w x.stream, false, false, none⟩
  | _ => match prbsOf c.func with
    | some (n, k, _) => ⟨start, 0, (prbsBits n k c.inverts w x.reg).1, false, false, none⟩
    | none => ⟨start, 0, 0, false, false, none⟩

/-- The word in progress has been emitted in full: the sequence moves on. -/
def Ag.emitted (x : Ag) : Ag :=
  match x.word with
  | none => x
  | some w =>
    if x.finished || x.cfg.role ≠ .gen then { x with word := if x.finished then x.word else none }
    else match x.cfg.func with
      | .march =>
        let x := { x with lastWrite := if w.write then w.d else x.lastWrite }
        match marchNext x.cfg x.pos with
        | some p => { x with pos := p, word := none }
        | none => { x with finished := true, word := some { w with write := false, read := false, expect := none } }
      | .count => { x with stream := x.stream + 1, word := none }
      | .user => { x with stream := x.stream + x.cfg.width, word := none }
      | _ => match prbsOf x.cfg.func with
        | some (n, k, _) => { x with reg := (prbsBits n k x.cfg.inverts x.cfg.width x.reg).2, word := none }
        | none => { x with word := none }

/-- The start of word k of the present grid. -/
def Ag.wordStart (x : Ag) (k : Nat) : TimeWord := tadd x.wordGrid (k * x.cfg.rate * tickTu)

/-- R324: the word in progress ends at an instant: emitted if it has lasted RATE ticks, otherwise cut, with the
comparison that is due for it. -/
def Ag.cutAt (x : Ag) (t : TimeWord) : Ag :=
  match x.word with
  | none => x
  | some w =>
    if x.finished then x
    else if tnotBefore t (tadd w.start (x.cfg.rate * tickTu)) then x.emitted
    else { x with word := none, due := x.due.filter (fun y => decide (y.start ≠ w.start)) }

/-- R332: DONE once the last comparison due has been made. -/
def Ag.settle (x : Ag) : Ag := if x.finished && x.due.isEmpty && x.state = .running then { x with state := .done } else x

/-- R333, R337: the comparisons that a run leaves due, with what they need. -/
def Ag.leftDue (x : Ag) (t : TimeWord) : List AgPast :=
  let due := x.due.filter (fun y => tnotBefore t (tadd y.start x.cfg.sampleAt))
  if due.isEmpty then x.past else x.past ++ [⟨x.cfg, due, x.acq, x.lock, x.window, true⟩]

/-- R321, R338, R339: the program begins with start instant S. -/
def Ag.load (x : Ag) (S : TimeWord) (opened : Bool) : Ag :=
  { x with past := (x.leftDue S).map (fun p => { p with own := false }), state := if opened then .running else .frozen, wordGrid := S,
           next := 0, reg := loadReg x.cfg, stream := 0,
           pos := ⟨0, 0, 0⟩, finished := false, lastWrite := 0, word := none, due := [],
           acq := ⟨[], none, 0⟩, window := [], firstErr := none,
           lock := x.cfg.role = .gen && x.cfg.func = .march && !x.cfg.inputs.isEmpty }

/-- R321: the generator stops at an instant; a comparison whose sample instant falls later is not made. -/
def Ag.stop (x : Ag) (t : TimeWord) : Ag :=
  let x := x.cutAt t
  { x with state := .stopped, word := none, finished := false, lock := false, due := [], past := x.leftDue t }

/-- R324: the gate of a generator of a group. -/
def gateOpen (c : AgCfg) (g : Group) : Bool :=
  let safe := decide (c.role = .gen) && g.skipping
  !safe && (match c.gate with
    | .always => true
    | .playing => g.cur.isSome
    | .waiting => decide (g.state = .waiting))

/-- R324: the gate of a generator after its group has changed at an instant. -/
def Ag.gateAt (x : Ag) (g : Group) (t : TimeWord) : Ag :=
  let o := gateOpen x.cfg g
  match x.state with
  | .running | .done => if o then x else { (x.cutAt t) with state := .frozen }
  | .frozen =>
    if o then { x with state := .running, wordGrid := t, next := 0 }.settle else x
  | .stopped => x

/-- The generators of a group. -/
def modAgs (g : Fin 8) (f : Ag → Ag) (s : State) : State :=
  { s with ags := updAll s.ags (fun _ x => if x.cfg.role ≠ .off && x.cfg.group = some g then f x else x) }

/-- R333: the level samples that a checker's inputs take at an instant. (DESIGN CHOICE, notes/assumptions/14.md) -/
def sampleInputs (g : Fin 8) (t : TimeWord) (s : State) : State :=
  let ps := s.ags.toList.flatMap (fun x => if x.cfg.role ≠ .off && x.cfg.group = some g then x.cfg.inputs else [])
  foldS ps.eraseDups (fun p s => s.modPort p (fun q =>
    { q with samples := (⟨t, Config.staticLevel p.val t⟩ :: q.samples).take 16 })) s

def agLoad (g : Fin 8) (S : TimeWord) (s : State) : State :=
  sampleInputs g S (modAgs g (fun x => x.load S (gateOpen x.cfg { s.groups[g] with
    cur := none, state := .running, skipping := false })) s)

def agGate (g : Fin 8) (t : TimeWord) (s : State) : State := let x := s.groups[g]; modAgs g (fun y => y.gateAt x t) s

def agStop (g : Fin 8) (t : TimeWord) (s : State) : State := modAgs g (fun y => y.stop t) s

/-- R322: an ALIGN restarts the word grid at T. -/
def agRealign (g : Fin 8) (t : TimeWord) (s : State) : State :=
  modAgs g (fun y => if y.state = .running then { (y.cutAt t) with wordGrid := t, next := 0 } else y) s

/-- R322: a word begins on the grid. -/
def agWordStep (n : Fin 8) (s : State) : State :=
  let x := s.ags[n]
  if x.state ≠ .running || x.cfg.role = .off || !tnotBefore s.tb.now (x.wordStart x.next) then s
  else
    s.modAg n (fun x =>
      let start := x.wordStart x.next
      let y := x.emitted
      let y := { y with next := y.next + 1 }
      if y.finished then y.settle
      else match y.cfg.role with
        | .check =>
          let w : AgWord := ⟨start, 0, 0, false, true, none⟩
          { y with word := some w, due := y.due ++ [w] }
        | _ =>
          let w := y.nextWord start
          { y with word := some w, due := if w.read && !y.cfg.inputs.isEmpty then y.due ++ [w] else y.due })

/-! ### Checking -/

/-- R333: the level of an input of a checker at a time word. -/
def checkLevel (q : Port) (w : TimeWord) : Bool :=
  match q.level.find? (fun c => tnotBefore w c.time), q.samples.find? (fun c => tnotBefore w c.time) with
  | some a, some b => if tlater b.time a.time then b.high else a.high
  | some a, none => a.high
  | none, some b => b.high
  | none, none => false

/-- R334: a bit sampled at a time word is compared. The spans cover the time in which the port is not in GATE mode. -/
def compared (q : Port) (w : TimeWord) : Bool :=
  !q.blind.any (fun b => tnotBefore w b.1 && (match b.2 with | some e => tlater e w | none => true))

/-- R333: every conversion of a port up to a time word has reached the checker. -/
def Port.converted (q : Port) (w : TimeWord) : Bool := q.stage.all (fun c => tlater c.edge w)

/-- A received bit and whether it is compared. -/
abbrev RxBit := Bool × Bool

/-- R336, R337: the bit that a locked or acquiring checker expects next, and its register afterwards. pos is the number of
the bit in its word. -/
def expectBit (c : AgCfg) (pos : Nat) (r : BitVec 32) : Bool × BitVec 32 :=
  match c.func with
  | .count =>
    (r.getLsbD pos, if pos + 1 = c.width then BitVec.ofNat 32 ((r.toNat + 1) % 2 ^ c.width) else r)
  | .user => (c.seed.getLsbD (r.toNat % max 1 c.patLen), BitVec.ofNat 32 ((r.toNat + 1) % max 1 c.patLen))
  | _ => match prbsOf c.func with
    | some (n, k, _) => prbsStep n k r
    | none => (false, r)

/-- R336: the phase whose pattern equals the last PATLEN bits (newest first), smallest first. -/
def userPhase (c : AgCfg) (got : List Bool) : Option Nat :=
  let l := max 1 c.patLen
  (List.range l).find? (fun p => (List.range l).all (fun i =>
    got.getD (l - 1 - i) false == c.seed.getLsbD ((p + i) % l)))

/-- R336: acquisition takes one more compared bit before its register is loaded. -/
def acquireBit (c : AgCfg) (pos : Nat) (bit : Bool) (a : Acquire) : Acquire :=
  match c.func with
  | .count =>
    let got := if pos = 0 then [bit] else if a.got.length = pos then bit :: a.got else []
    if pos + 1 = c.width && got.length = c.width then
      let v := got.foldl (fun n b => n * 2 + (if b then 1 else 0)) 0
      ⟨[], some (BitVec.ofNat 32 ((v + 1) % 2 ^ c.width)), 0⟩
    else ⟨got, none, 0⟩
  | .user =>
    let got := (bit :: a.got).take (max 1 c.patLen)
    if got.length = max 1 c.patLen then
      match userPhase c got with
      | some p => ⟨[], some (BitVec.ofNat 32 ((p + c.patLen) % max 1 c.patLen)), 0⟩
      | none => ⟨got, none, 0⟩
    else ⟨got, none, 0⟩
  | _ => match prbsOf c.func with
    | some (n, _, _) =>
      let got := bit :: a.got
      if got.length = n then
        -- newest first: the newest is r_1, the oldest r_N
        let v := got.foldr (fun b m => m * 2 + (if b then 1 else 0)) 0
        ⟨[], some (BitVec.ofNat 32 v), 0⟩
      else ⟨got, none, 0⟩
    | none => a

/-- R336, R337: one bit of a received word; the accumulated mask of mismatches counts errors made while LOCKED. -/
def checkBit (pos : Nat) (b : RxBit) (r : Ag × Nat) : Ag × Nat :=
  let x := r.1
  let bit := if prbsOf x.cfg.func ≠ none then b.1 != x.cfg.inverts else b.1
  let fresh : Acquire := ⟨[], none, 0⟩
  if x.lock then
    match x.acq.reg with
    | none => r
    | some g =>
      let e := expectBit x.cfg pos g
      let x := { x with acq := { x.acq with reg := some e.2 } }
      if !b.2 then (x, r.2)
      else
        let bad := e.1 != bit
        let win := (bad :: x.window).take x.cfg.lossWin
        let x := { x with bits := x.bits + 1, errors := if bad then x.errors + 1 else x.errors, window := win }
        let mask := if bad then r.2 + 2 ^ pos else r.2
        if x.cfg.lossErr ≤ (win.filter (fun w => w)).length then
          ({ x with lock := false, lockLosses := x.lockLosses + 1, acq := fresh, window := [] }, mask)
        else (x, mask)
  else if !b.2 then ({ x with acq := fresh }, r.2)
  else match x.acq.reg with
    | none => ({ x with acq := acquireBit x.cfg pos bit x.acq }, r.2)
    | some g =>
      let e := expectBit x.cfg pos g
      if e.1 != bit then ({ x with acq := fresh }, r.2)
      else
        let good := x.acq.good + 1
        ({ x with acq := ⟨[], some e.2, good⟩, lock := decide (x.cfg.lockBits ≤ good),
                  window := if x.cfg.lockBits ≤ good then [] else x.window }, r.2)

/-- The bits of a list with their numbers, folded. -/
def foldBits (f : Nat → RxBit → Ag × Nat → Ag × Nat) : Nat → List RxBit → Ag × Nat → Ag × Nat
  | _, [], r => r
  | i, b :: bs, r => foldBits f (i + 1) bs (f i b r)

/-- R338: one bit of a march read word. -/
def marchBit (expected : Nat) (pos : Nat) (b : RxBit) (r : Ag × Nat) : Ag × Nat :=
  if !b.2 then r
  else
    let bad := expected.testBit pos != b.1
    ({ r.1 with bits := r.1.bits + 1, errors := if bad then r.1.errors + 1 else r.1.errors },
     if bad then r.2 + 2 ^ pos else r.2)

/-- R333 to R339: the comparison of a word. first: a mismatch may be the first since the program began. -/
def compareWord (s : State) (w : AgWord) (first : Bool) (x : Ag) : Ag :=
  let at_ := tadd w.start x.cfg.sampleAt
  let bits : List RxBit := x.cfg.inputs.map (fun p => (checkLevel s.ports[p] at_, compared s.ports[p] at_))
  let r := match w.expect with
    | some (v, _, _) => foldBits (marchBit v) 0 bits (x, 0)
    | none => foldBits checkBit 0 bits (x, 0)
  let y := r.1
  if first && r.2 ≠ 0 && y.firstErr.isNone then
    { y with firstErr := some (at_, match w.expect with | some (_, a, _) => a | none => 0,
                               match w.expect with | some (_, _, e) => e | none => 0, BitVec.ofNat 16 r.2) }
  else y

/-- R333: the comparison of a word can be made: 96 ns after its sample instant, with every conversion up to it at hand. -/
def State.comparable (s : State) (c : AgCfg) (w : AgWord) : Bool :=
  let at_ := tadd w.start c.sampleAt
  tnotBefore s.tb.now (tadd at_ reachTu) && c.inputs.all (fun p => s.ports[p].converted at_)

/-- R337: one comparison that an earlier run has left due, by the settings and the lock of that run. -/
def comparePast (s : State) (w : AgWord) (rest : List AgWord) (p : AgPast) (ps : List AgPast) (x : Ag) : Ag :=
  let y := compareWord s w p.own { x with cfg := p.cfg, acq := p.acq, lock := p.lock, window := p.window }
  { y with cfg := x.cfg, acq := x.acq, lock := x.lock, window := x.window,
           past := if rest.isEmpty then ps
                   else { p with due := rest, acq := y.acq, lock := y.lock, window := y.window } :: ps }

/-- R333 to R339: the comparison of the sample instant that is due first. -/
def agSampleStep (n : Fin 8) (s : State) : State :=
  let x := s.ags[n]
  match x.past, x.due with
  | p :: ps, _ => match p.due with
    | w :: rest => if s.comparable p.cfg w then s.modAg n (comparePast s w rest p ps) else s
    | [] => s.modAg n (fun x => { x with past := ps })
  | [], w :: rest =>
    if s.comparable x.cfg w then s.modAg n (fun x => (compareWord s w true { x with due := rest }).settle) else s
  | [], [] => s

/-! ### The mapped lanes (R323, R324, R331, R332) -/

/-- The bit of a field item in a word at an instant. -/
def itemBit (c : AgCfg) (w : AgWord) (at_ : TimeWord) : MapItem → Option Bool
  | .x => none
  | .a k => some (w.a.testBit k.val)
  | .d k => some (w.d.testBit k.val)
  | .we => some (w.write && strobe c w at_)
  | .re => some (w.read && strobe c w at_)
where
  /-- R331: the strobe of a word at an instant. -/
  strobe (c : AgCfg) (w : AgWord) (at_ : TimeWord) : Bool :=
    let k := tdiff at_ w.start / (tickTu : Int)
    decide ((c.strobeOn : Int) ≤ k ∧ k < (c.strobeOff : Int))

/-- R319: a failing block of the step that plays holds the lanes of a group at SAFE. -/
def Group.failsAt (g : Group) (w : TimeWord) : Bool :=
  match g.cur with
  | some r => (match r.failAt with | some f => decide ((f : Int) ≤ tdiff w r.start / (tickTu : Int)) | none => false)
  | none => false

/-- R324: the bit that a generator drives on lane i of a group, if it drives it. -/
def State.agLane (s : State) (g : Fin 8) (i : Nat) (w : TimeWord) : Option Bool :=
  if s.groups[g].failsAt w then none
  else s.ags.toList.findSome? (fun x =>
    if x.cfg.role = .gen && x.cfg.group = some g && (x.state = .running || x.state = .done) then
      match x.cfg.map[i]?, x.word with
      | some it, some wd => itemBit x.cfg wd w it
      | _, _ => none
    else none)

end Sys2Proof.Machine
end

