-- ==== Sys2Proof/Machine/Spire.lean ====
section
/-! DEFINITION. The Spire engines: prefetch, steps, waits, alignment, start, stop and restart, block checks, and what a
lane drives (spec/11 R292 to R320). -/
namespace Sys2Proof.Machine

/-! ### The segment store -/

def SegStore.find (st : SegStore) (id : Fin 4096) : Option Segment := st.segs.find? (fun x => decide (x.id = id))

/-- R292: the blocks a segment of L samples and width W takes. -/
def blocksFor (L W : Nat) : Nat := (L * W + 2047) / 2048

def Segment.blocks (x : Segment) : Nat := blocksFor x.length x.width

def SegStore.free (st : SegStore) : Nat := 16384 - (st.segs.map Segment.blocks).sum

/-- R319: a block fails: it is unwritten, its check does not match, or ECC cannot correct it.
(DESIGN CHOICE, notes/assumptions/15.md) -/
def Segment.blockFails (x : Segment) (k : Nat) : Bool :=
  match x.written.find? (fun b => decide (b.idx = k)) with
  | some b => b.bad || decide (crc32c b.bytes ≠ b.check)
  | none => true

/-- R319: the first sample of the first failing block of a segment. -/
def Segment.firstFail (x : Segment) : Option Nat :=
  ((List.range x.blocks).find? x.blockFails).map (fun k => k * (2048 / max 1 x.width))

/-- R293: the nibble of lane l in sample i. -/
def Segment.nibble (x : Segment) (i l : Nat) : BitVec 4 :=
  if l < x.width then
    let q := i * x.width + l
    let byte := q / 2
    match x.written.find? (fun b => decide (b.idx = byte / 1024)) with
    | some b =>
      let v := (b.bytes.getD (byte % 1024) 0).toNat
      BitVec.ofNat 4 (if q % 2 = 0 then v else v / 16)
    | none => 0
  else 0

/-- The nibbles of a sample, 16 lanes. -/
def Segment.sample (x : Segment) (i : Nat) : List (BitVec 4) := (List.range 16).map (x.nibble i)

/-! ### Prefetch (R296, R306, R307) -/

def isPlay : PlanItem → Bool | .play .. => true | _ => false

/-- The plan with what a prefetched halt becomes (R318): a queued START takes over a halt of cause PROGRAM or END. -/
def fetchHalt (c : HaltCause) (g : Group) : Group :=
  match c, g.queuedStart with
  | .program, some fs | .ended, some fs =>
    { g with plan := g.plan ++ [.restart fs], queuedStart := none, fetch := Fetch.start, slotsLive := g.cfg.slots }
  | _, _ => { g with plan := g.plan ++ [.halt c], queuedStart := none, fetch := { g.fetch with done := true } }

/-- R318: a START is held, or prefetch has passed it and its program has not begun. (DEDUCED, notes/assumptions/45.md) -/
def Group.holdsStart (g : Group) : Bool :=
  g.queuedStart.isSome || g.plan.any (fun i => match i with | .restart _ => true | _ => false)

/-- R306, R307: the engine follows one instruction. (DEDUCED, notes/assumptions/44.md) -/
def fetchOne (st : SegStore) (g : Group) : Group :=
  let f := g.fetch
  let go (g : Group) (f : Fetch) : Group := { g with fetch := { f with sincePlay := f.sincePlay + 1 } }
  let play (id : Fin 4096) : Group :=
    match st.find id with
    | some x => { g with plan := g.plan ++ [.play f.idx x], fetch := { f with idx := f.idx + 1, sincePlay := 0 } }
    | none => fetchHalt .noseg g
  if f.done then g
  else if 64 ≤ f.sincePlay then fetchHalt .looperr g
  else match g.program.find? (fun p => decide (p.1 = f.idx)) with
    | none => fetchHalt .ended g
    | some (_, ins) =>
      match ins with
      | .playSeg id => play id
      | .playSlot k => match g.slotsLive[k.val]? with
        | some id => play id
        | none => fetchHalt .noseg g
      | .loop n =>
        if 4 ≤ f.loops.length then fetchHalt .depth g
        else go g { f with loops := (f.idx + 1, n) :: f.loops, idx := f.idx + 1 }
      | .endloop => match f.loops with
        | [] => fetchHalt .struct g
        | (b, none) :: _ => go g { f with idx := b }
        | (b, some n) :: ls =>
          if 1 < n then go g { f with idx := b, loops := (b, some (n - 1)) :: ls }
          else go { g with plan := g.plan ++ [.loopEnd] } { f with idx := f.idx + 1, loops := ls }
      | .call i =>
        if 4 ≤ f.calls.length then fetchHalt .depth g
        else go g { f with calls := (f.idx + 1) :: f.calls, idx := i }
      | .ret => match f.calls with
        | [] => fetchHalt .struct g
        | i :: is => go g { f with calls := is, idx := i }
      | .wait on t h =>
        go { g with plan := g.plan ++ [.wait f.idx on t (h = some true)], slotsLive := g.cfg.slots } { f with idx := f.idx + 1 }
      | .align a off _ =>
        go { g with plan := g.plan ++ [.align f.idx a off], slotsLive := g.cfg.slots } { f with idx := f.idx + 1 }
      | .mkset h => go { g with plan := g.plan ++ [.mark h true] } { f with idx := f.idx + 1 }
      | .mkclr h => go { g with plan := g.plan ++ [.mark h false] } { f with idx := f.idx + 1 }
      | .halt => fetchHalt .program g

/-- R296: the plays that the plan should hold: two beyond the step that plays, or beyond the step that will follow. -/
def Group.needed (g : Group) : Nat := match g.cur with | some _ => 2 | none => 3

/-- R296: prefetch, at most so many steps. (DEDUCED, notes/assumptions/44.md) -/
def fetchMany (st : SegStore) : Nat → Group → Group
  | 0, g => g
  | n + 1, g =>
    if g.fetch.done || decide (g.needed ≤ (g.plan.filter isPlay).length) then g else fetchMany st n (fetchOne st g)

def Group.live (g : Group) : Bool := match g.state with | .running | .waiting => true | _ => false

/-- R296: a live group's engine prefetches. (DEDUCED, notes/assumptions/44.md) -/
def prefetch (st : SegStore) (g : Group) : Group := if g.live then fetchMany st 260 g else g

/-! ### Active segments (R296) -/

/-- The segments of the current and the two prefetched steps of a group, and its idle segment. -/
def Group.activeIds (g : Group) : List (Fin 4096) :=
  if !g.live then []
  else
    let cur := match g.cur with | some r => [r.seg.id] | none => []
    let plan := (g.plan.filterMap (fun i => match i with | .play _ x => some x.id | _ => none)).take g.needed
    cur ++ plan ++ (match g.cfg.idleSeg with | some i => [i] | none => [])

def State.segActive (s : State) (id : Fin 4096) : Bool := s.groups.toList.any (fun g => g.activeIds.contains id)

/-! ### Occurrences of a group -/

/-- R316: the flags of an occurrence of a group. -/
def Group.flags (g : Group) : Flags := Flags.ofFrames g.prov

def raiseGroup (g : Fin 8) (i : Fin 6) (t : TimeWord) (n : Nat) (s : State) : State :=
  raiseAt (evGroup g i) (s.cycleOf t) n s.groups[g].flags s

/-- R302, R313: a sample of the idle segment, where a waiting group plays it. -/
def State.idleSample (s : State) (g : Fin 8) (w : TimeWord) : Option (List (BitVec 4)) :=
  let x := s.groups[g]
  if x.cfg.waitIdle then
    match x.cfg.idleSeg.bind s.store.find with
    | some seg => if seg.blockFails 0 then none else some (seg.sample (((tdiff w x.grid / (tickTu : Int)) % 128).toNat))
    | none => none
  else none

/-- R302: the last sample that a group has played before an instant. -/
def State.lastPlayed (s : State) (g : Fin 8) (t : TimeWord) : Option (List (BitVec 4)) :=
  let x := s.groups[g]
  match x.cur with
  | some r =>
    let k := min (min (tdiff t r.start / (tickTu : Int)).toNat r.seg.length) (r.failAt.getD r.seg.length)
    if k = 0 then x.lastSample else some (r.seg.sample (k - 1))
  | none =>
    if decide (x.state = .waiting) && x.begun && tlater t x.waitFrom then
      match s.idleSample g (tadd t (-(tickTu : Int))) with | some v => some v | none => x.lastSample
    else x.lastSample

/-- The group keeps the last sample played before an instant. -/
def keepSample (g : Fin 8) (t : TimeWord) (s : State) : State :=
  let v := s.lastPlayed g t
  s.modGroup g (fun x => { x with lastSample := v })

/-- R302, R304, R317: entry to HALTED at an instant. What was provisional stays so until its frame is decided (R316). -/
def haltGroup (g : Fin 8) (c : HaltCause) (t : TimeWord) (s : State) : State :=
  let s := (keepSample g t s).modGroup g (fun x =>
    { x with state := .halted, cause := c, plan := [], cur := none, waiting := none, queuedStart := none, stopAt := none,
             restarts := [], markers := Vector.replicate 4 false, markNext := [], skipping := false,
             fetch := { x.fetch with done := true }, provNext := [] })
  agStop g t (raiseGroup g 5 t 1 s)

/-- R308: the program begins with start instant S, with the steps that apply to it and the frames in which its START is
provisional (R288). (DEDUCED, notes/assumptions/45.md) -/
def beginProgram (S : TimeWord) (steps : List StepBatch) (prov : List ProvFrame) (x : Group) : Group :=
  { x with state := .running, cause := .none, counted := steps, grid := S, fetch := Fetch.start,
           plan := [], cur := none, waiting := none, queuedStart := none,
           markers := Vector.replicate 4 false, markNext := [], slotsLive := x.cfg.slots,
           skipping := false, begun := false, prov := x.prov ++ prov, provNext := [] }

/-- R318: a START under RESTART, at its boundary; one that is already due there stands. (DEDUCED, notes/assumptions/45.md) -/
def addRestart (r : Restart) : List Restart → List Restart
  | [] => [r]
  | q :: qs => if q.at_ = r.at_ then { q with prov := q.prov ++ r.prov } :: qs else q :: addRestart r qs

/-- R318: the boundary of a START under RESTART in a fabric cycle. -/
def Group.restartBoundary (x : Group) (cyc : TimeWord) : TimeWord := granuleFrom x.grid (tadd cyc 640000)

/-- R308, R318: START acts in a fabric cycle. (DEDUCED, notes/assumptions/45.md) -/
def groupStart (g : Fin 8) (cyc : TimeWord) (fl : Flags) (s : State) : State :=
  let S := tadd cyc 640000
  if !s.groups[g].live then
    agLoad g S (s.modGroup g (fun x => { beginProgram S [] fl.prov x with stopAt := none, restarts := [] }))
  else s.modGroup g (fun x =>
    match x.cfg.startPol with
      | .ignore => x
      | .restart => { x with restarts := addRestart ⟨x.restartBoundary cyc, [], fl.prov⟩ x.restarts }
      | .queue =>
        if x.holdsStart then x
        else match x.plan.getLast? with
        | some (.halt .program) | some (.halt .ended) =>
          { x with plan := x.plan.dropLast ++ [.restart fl.prov], fetch := Fetch.start, slotsLive := x.cfg.slots }
        | some (.halt _) => x
        | _ => { x with queuedStart := some fl.prov })

/-- R310: the step count. -/
def Group.steps (x : Group) : Nat := (x.counted.map StepBatch.n).sum

/-- R310: one step is taken from the count, the oldest first; the frames in which it is provisional (R288).
(DEDUCED, notes/assumptions/46.md) -/
def takeStep : List StepBatch → List StepBatch × List ProvFrame
  | [] => ([], [])
  | b :: bs => (if b.n ≤ 1 then bs else { b with n := b.n - 1 } :: bs, b.prov)

/-- A batch in front of others: one with the next if no wait of the future can tell them apart (R310). -/
def mergeBatch (cyc : TimeWord) (b : StepBatch) : List StepBatch → List StepBatch
  | [] => [b]
  | c :: cs => if b.prov = c.prov && decide (640000 ≤ tdiff cyc c.time) then { c with n := b.n + c.n } :: cs else b :: c :: cs

/-- R310: steps join those counted, at most 65535. (DEDUCED, notes/assumptions/46.md) -/
def addSteps (cyc : TimeWord) (n : Nat) (prov : List ProvFrame) (bs : List StepBatch) : List StepBatch :=
  let m := min n (65535 - (bs.map StepBatch.n).sum)
  (if m = 0 then bs else bs ++ [⟨cyc, m, prov⟩]).foldr (mergeBatch cyc) []

/-- R310: n steps asserted in a fabric cycle; started says that START has acted in the same cycle (R286, R318). -/
def groupStep (g : Fin 8) (n : Nat) (cyc : TimeWord) (fl : Flags) (started : Bool) (s : State) : State :=
  s.modGroup g (fun x =>
    let mine (r : Restart) : Bool := started && decide (x.cfg.startPol = .restart) && decide (r.at_ = x.restartBoundary cyc)
    if !x.live then x
    else if x.restarts.any mine then
      { x with restarts := x.restarts.map (fun r => if mine r then { r with steps := addSteps cyc n fl.prov r.steps } else r) }
    else
      let all := addSteps cyc n fl.prov x.counted
      match x.waiting with
      | some (.wait .step b t _ none) =>
        if all.isEmpty || timedOut b t cyc then { x with counted := all }
        else
          let k := takeStep all
          { x with counted := k.1, provNext := k.2,
                   waiting := some (.wait .step b t false (some (granuleFrom x.grid (tadd cyc 320000)))) }
      | _ => { x with counted := all })

/-- R317: STOP acts in a fabric cycle. -/
def groupStop (g : Fin 8) (cyc : TimeWord) (s : State) : State :=
  s.modGroup g (fun x => if x.live && x.stopAt.isNone then { x with stopAt := some (tadd cyc 160000), queuedStart := none } else x)

/-! ### Alignment (R314, R315) -/

/-- The first frame, from a frame on, whose position at an offset lies at or after an instant, and that position. -/
def frameFrom (x : Axis) (off : Nat) (rounded : Bool) (after : TimeWord) : Nat → Frame → Option (Frame × TimeWord)
  | 0, _ => none
  | k + 1, n =>
    match x.frameStart n with
    | none => none
    | some p =>
      let w := tadd p off
      let w := if rounded then wholeTick w else w
      if tnotBefore w after then some (n, w) else frameFrom x off rounded after k (x.nextFrame n)

/-- R314, R399: the smallest frame whose predicted position lies at or after an instant. -/
def nextPosition (x : Axis) (off : Nat) (rounded : Bool) (after : TimeWord) : Option (Frame × TimeWord) :=
  match x.currentFrame (tadd after (-(off : Int))) with
  | some n => frameFrom x off rounded after 16 (if x.cfg.mode = .free then n else n - 1)
  | none => none

/-- R193: an edge of a frame is bound at acceptance. With RUNAHEAD=OFF it is where the frame's index edge has come (R204).
(DEDUCED, notes/assumptions/87.md) -/
def Axis.bindsNow (x : Axis) (n : Frame) : Bool :=
  match x.cfg.mode with
  | .free => decide (x.state = .confirmed)
  | .frame => decide (x.state = .confirmed) &&
      (match x.anchor with | some an => decide (fdiff n an.n ≤ if x.cfg.runAhead then 1 else 0) | none => false)
  | .increment => false

/-- R314, R315: the alignment of a group is resolved from an instant, or fails. none: its axis is in REACQUIRE. -/
def resolveAlign (s : State) (a : Fin 4) (off : Nat) (b : TimeWord) : Option (Option (Frame × Option TimeWord)) :=
  let x := s.axes[a]
  let bad := decide (x.cfg.mode = .increment) || decide (x.cfg.period ≤ off) ||
    (match x.state with | .acquire | .lost => true | _ => false)
  if bad then none
  else match x.state with
    | .confirmed => match nextPosition x off true (tadd b 2560000) with
      | some (n, w) => some (some (n, if x.bindsNow n then some w else none))
      | none => some none
    | _ => some none

/-! ### Boundaries -/

/-- The counted loops that end before the next step of a plan (R320). -/
def loopEnds : List PlanItem → Nat
  | .loopEnd :: is => loopEnds is + 1
  | .wait .. :: is | .align .. :: is | .mark .. :: is => loopEnds is
  | _ => 0

/-- R304: the markers after the marker instructions executed before a step. -/
def applyMarks (ms : List (Fin 4 × Bool)) (v : Vector Bool 4) : Vector Bool 4 := ms.foldl (fun v m => v.set m.1 m.2) v

/-- R310: the step count as it stood 32 ns before B. -/
def stepsAt (x : Group) (b : TimeWord) : Nat :=
  ((x.counted.filter (fun r => tnotBefore (tadd b (-320000)) r.time)).map StepBatch.n).sum

/-- The group goes on from an instant t with the items of its plan (R304, R307, R309 to R314, R318). -/
def advance (g : Fin 8) : Nat → TimeWord → State → State
  | 0, _, s => s
  | fuel + 1, t, s =>
    let s := s.modGroup g (prefetch s.store)
    let x := s.groups[g]
    match x.plan with
    | [] => s
    | item :: rest =>
      let s := s.modGroup g (fun x => { x with plan := rest })
      match item with
      | .loopEnd => advance g fuel t s
      | .mark h on => advance g fuel t (s.modGroup g (fun x => { x with markNext := x.markNext ++ [(h, on)] }))
      | .play idx seg =>
        let s := s.modGroup g (fun x =>
          { x with state := .running, stepIdx := idx, waiting := none, begun := true, skipping := false,
                   cur := some ⟨idx, seg, t, seg.firstFail, false⟩, markers := applyMarks x.markNext x.markers,
                   markNext := [], prov := x.prov ++ x.provNext, provNext := [] })
        agGate g t (raiseGroup g 0 t 1 s)
      | .wait idx on timeout halts =>
        match on with
        | .step =>
          let k := takeStep x.counted
          if 1 ≤ stepsAt x t then
            advance g fuel t (s.modGroup g (fun x => { x with counted := k.1, provNext := x.provNext ++ k.2 }))
          else
            let ends := x.counted.head?.map (fun r => granuleFrom x.grid (tadd r.time 320000))
            agGate g t (raiseGroup g 3 t 1 (s.modGroup g (fun x =>
              { x with state := .waiting, stepIdx := idx, cur := none, waitFrom := t, counted := k.1, provNext := x.provNext ++ k.2,
                       waiting := some (.wait .step t timeout (halts && ends.isNone) ends) })))
        | .event e =>
          let seen := s.fabric.recent.find? (fun r => decide (r.1 = e.val) && tnotBefore r.2.1 (s.cycleOf t))
          let s := s.modGroup g (fun x =>
            { x with state := .waiting, stepIdx := idx, cur := none, waitFrom := t,
                     waiting := some (.wait (.event e) t timeout (halts && seen.isNone)
                       (seen.map (fun r => granuleFrom x.grid (tadd r.2.1 368000)))),
                     provNext := x.provNext ++ (match seen with | some r => r.2.2.prov | none => []) })
          agGate g t (raiseGroup g 3 t 1 s)
      | .align idx a off =>
        let s := s.modGroup g (fun x =>
          { x with state := .waiting, stepIdx := idx, cur := none, waitFrom := t, waiting := some (.align a off none none false) })
        let s := agGate g t (raiseGroup g 3 t 1 s)
        match resolveAlign s a off t with
        | none => haltGroup g .axis t s
        | some none => s
        | some (some (n, w)) =>
          s.modGroup g (fun x => { x with waiting := some (.align a off (some n) w false) })
      | .restart fs =>
        let s := (keepSample g t s).modGroup g (fun x =>
          { x with cause := .none, counted := [], grid := t, cur := none, waiting := none,
                   markers := Vector.replicate 4 false, markNext := [], begun := false, prov := x.prov ++ fs, provNext := [] })
        let s := agLoad g t (s.modGroup g (prefetch s.store))
        advance g fuel t (raiseGroup g 2 t (loopEnds s.groups[g].plan) s)
      | .halt c => haltGroup g c t s

/-- The end of the step that plays. -/
def StepRun.ends (r : StepRun) : TimeWord := tadd r.start (r.seg.length * tickTu)

/-- R319: the instant of the first sample of the first failing block. -/
def StepRun.failTime (r : StepRun) : Option TimeWord := r.failAt.map (fun k => tadd r.start (k * tickTu))

/-- R319: a failing block is reached. -/
def checkFail (g : Fin 8) (s : State) : State :=
  match s.groups[g].cur with
  | some r =>
    match r.failTime with
    | some t =>
      if r.failed || !tnotBefore s.tb.now t then s
      else
        let s := s.modGroup g (fun x =>
          { x with cur := some { r with failed := true }, checkFails := x.checkFails + 1, skipping := true })
        let s := agGate g t (raiseGroup g 4 t 1 s)
        if s.groups[g].cfg.skip then s else haltGroup g .check t s
    | none => s
  | none => s

/-- R320: the step that plays has reached its nominal end: SEGEND, and LOOPEND of the loops that end with it. -/
def finishStep (g : Fin 8) (r : StepRun) (s : State) : State :=
  let e := r.ends
  let last := tadd e (-(tickTu : Int))
  let s := (keepSample g e s).modGroup g (fun x => { x with skipping := false })
  let s := raiseGroup g 1 last 1 s
  let s := s.modGroup g (prefetch s.store)
  let s := raiseGroup g 2 last (loopEnds s.groups[g].plan) s
  s.modGroup g (fun x => { x with cur := none })

/-- R309: after its nominal end the group goes on. -/
def stepEnd (g : Fin 8) (r : StepRun) (s : State) : State := advance g 300 r.ends (finishStep g r s)

/-- R317, R318, R320: a step whose nominal end falls on the instant at which STOP or RESTART takes effect has reached it.
(DEDUCED, notes/assumptions/46.md) -/
def finishTied (g : Fin 8) (t : TimeWord) (s : State) : State :=
  match s.groups[g].cur with
  | some r => if r.ends = t then finishStep g r s else s
  | none => s

/-- R317: STOP takes effect: the step in progress is cut. -/
def stopNow (g : Fin 8) (t : TimeWord) (s : State) : State := haltGroup g .stop t (finishTied g t s)

/-- R318: a RESTART takes over at its boundary. A STOP that has acted still takes effect.
(DEDUCED, notes/assumptions/45.md) -/
def restartNow (g : Fin 8) (t : TimeWord) (r : Restart) (s : State) : State :=
  let s := keepSample g t (finishTied g t s)
  let s := agLoad g t (s.modGroup g (fun x => { beginProgram t r.steps r.prov x with restarts := x.restarts.drop 1 }))
  let s := s.modGroup g (prefetch s.store)
  advance g 300 t (raiseGroup g 2 t (loopEnds s.groups[g].plan) s)

/-- What may happen next to a group, with its instant. -/
inductive Due | stop | restart (r : Restart) | first | stepEnd (r : StepRun) | wait | align
  deriving DecidableEq, Repr

/-- The happenings that stand before a group (the earlier in the list go first at one instant). -/
def Group.dues (x : Group) : List (TimeWord × Due) :=
  (match x.stopAt with | some t => [(t, Due.stop)] | none => []) ++
  (match x.restarts with | r :: _ => [(r.at_, Due.restart r)] | [] => []) ++
  (match x.cur with
   | some r => [(r.ends, Due.stepEnd r)]
   | none => match x.waiting with
     | some (.wait _ _ _ _ (some e)) => [(e, Due.wait)]
     | some (.align _ _ _ (some t) _) => [(t, Due.align)]
     | some _ => []
     | none => if x.state = .running then [(x.grid, Due.first)] else [])

/-- The earliest of happenings that is not later than now. (DEDUCED, notes/assumptions/46.md) -/
def firstDue (now : TimeWord) : List (TimeWord × Due) → Option (TimeWord × Due)
  | [] => none
  | d :: ds =>
    match firstDue now ds with
    | none => if tnotBefore now d.1 then some d else none
    | some e => if tnotBefore now d.1 && tnotBefore e.1 d.1 then some d else some e

/-- R309 to R318: the group passes its next instant. -/
def boundary (g : Fin 8) (s : State) : State :=
  let x := s.groups[g]
  match (if x.live then firstDue s.tb.now x.dues else none) with
  | none => s
  | some (t, d) =>
    let failFirst := match x.cur with
      | some r => !r.failed && (match r.failTime with | some f => !tlater f t | none => false)
      | none => false
    if failFirst then checkFail g s
    else match d with
      | .stop => stopNow g t s
      | .restart r => restartNow g t r s
      | .first =>
        let s := s.modGroup g (prefetch s.store)
        advance g 300 t (raiseGroup g 2 t (loopEnds s.groups[g].plan) s)
      | .stepEnd r => stepEnd g r s
      | .wait =>
        if (match x.waiting with | some (.wait _ _ _ h _) => h | _ => false) then haltGroup g .timeout t s
        else advance g 300 t ((keepSample g t s).modGroup g (fun x => { x with waiting := none, state := .running }))
      | .align =>
        let s := (keepSample g t s).modGroup g (fun x => { x with waiting := none, state := .running, grid := t })
        advance g 300 t (agRealign g t s)

/-- R312: a wait that has not ended by B + t times out at the first granule boundary at or after B + t, where the next step
begins or the group halts. -/
def waitTimeout (g : Fin 8) (s : State) : State :=
  match s.groups[g].waiting with
  | some (.wait on b (some t) halts none) =>
    if !tnotBefore s.tb.now (tadd b t) then s
    else s.modGroup g (fun x =>
      { x with waiting := some (.wait on b (some t) halts (some (granuleFrom x.grid (tadd b t)))) })
  | _ => s

/-- R317, R160: LOCKLOSS halts every live group with cause TIMEBASE. -/
def groupsLockloss (s : State) : State :=
  eachFin 8 (fun g s => if s.groups[g].live then haltGroup g .timebase s.cycle s else s) s

/-! ### What the lanes and markers drive (R293, R300 to R303, R313) -/

/-- R302: the SAFE level of a lane. -/
def Group.safeBit (x : Group) (i : Nat) : Bool :=
  match x.cfg.safe with
  | .low => false
  | .high => true
  | .hold => match x.lastSample with | some v => (v.getD i 0).getLsbD 0 | none => false

/-- The nibble that plays on nibble position i at an instant, none while the group drives SAFE. -/
def State.playing (s : State) (g : Fin 8) (i : Nat) (w : TimeWord) : Option (BitVec 4) :=
  let x := s.groups[g]
  match x.state with
  | .idle | .halted => none
  | .running => match x.cur with
    | none => none
    | some r =>
      let k := (tdiff w r.start / (tickTu : Int)).toNat
      if x.failsAt w then none else some (r.seg.nibble (min k (r.seg.length - 1)) i)
  | .waiting =>
    if !x.begun then none
    else match x.cfg.waitIdle, x.cfg.idleSeg.bind s.store.find with
      | true, some _ => (s.idleSample g w).map (fun v => v.getD i 0)
      | _, _ => x.lastSample.map (fun v => v.getD i 0)

/-- R300, R302: the logical level of lane i of a group. -/
def State.laneLevel (s : State) (g : Fin 8) (i : Nat) (w : TimeWord) : Bool :=
  match s.agLane g i w with
  | some b => b
  | none => match s.playing g i w with
  | some v => v.getLsbD 0
  | none => s.groups[g].safeBit i

/-- R303: the logical level of a marker output. -/
def State.markLevel (s : State) (n : Fin 16) (w : TimeWord) : Bool :=
  match s.markers[n].src with
  | .none => false
  | .sample g lane bit => match s.playing g lane.val w with
    | some v => v.getLsbD (if bit then 2 else 1)
    | none => false
  | .held g h => s.groups[g].markers[h]

/-- R303: a marker output at a time word. -/
def State.markPad (s : State) (n : Fin 16) (w : TimeWord) : Pad :=
  let m := s.markers[n]
  if m.output && !s.padsOff then driven m.invert (s.markLevel n w) else .hiZ

/-- The group and lane number of a port (R299). -/
def State.laneOf (s : State) (p : Fin 64) : Option (Fin 8 × Nat) :=
  (List.finRange 8).findSome? (fun g => (s.groups[g].cfg.lanes.idxOf? p).map (fun i => (g, i)))

/-- R301: a lane port drives again from the first granule boundary after its cluster is ACTIVE and it is in PATTERN mode; of
a group that plays nothing, at once. -/
def State.laneBack (s : State) (p : Fin 64) (g : Fin 8) : Bool :=
  let x := s.groups[g]
  !x.live || tnotBefore s.tb.now (granuleFrom x.grid s.ports[p].laneFrom)

/-- R211, R299, R301: the logical level that a driving port of an ACTIVE cluster gives its pad. -/
def State.padLevel (s : State) (p : Fin 64) : Bool :=
  match s.ports[p].cfg.mode with
  | .pattern => match s.laneOf p with
    | some (g, i) => s.laneBack p g && s.laneLevel g i s.tb.now
    | none => false
  | _ => s.outLevel p

/-- R209: the modes in which a port drives. -/
def driving (m : PortMode) : Bool := match m with | .pulse | .echo | .tone | .pattern => true | _ => false

/-- R209 to R211, R300, R301, R346, R385: the P pad of a port. -/
def State.pad (s : State) (p : Fin 64) : Pad :=
  let q := s.ports[p]
  if !driving q.cfg.mode || !q.cfg.output || s.padsOff then .hiZ
  else
    let level (l : Bool) : Pad := driven q.cfg.invert (q.outHeld.getD l)
    match (s.clusterOfPort p).state with
    | .off | .quarantine => .hiZ
    | .joining => driven q.cfg.invert false
    | .draining => level (decide (q.cfg.mode ≠ .pattern) && s.outLevel p)
    | .active => level (s.padLevel p)

/-- R237: the N pad of a port: the complement in the standards that drive a pair, and high-impedance in the others. -/
def State.padN (s : State) (p : Fin 64) : Pad :=
  match (s.clusterOfPort p).iostd with
  | .lvds | .slvs400 => (s.pad p).complement
  | .lvcmos18 | .lvcmos25 | .lvcmos33 => .hiZ

end Sys2Proof.Machine
end

