-- ==== Sys2Proof/Machine/Axes.lean ====
section
/-! DEFINITION. The axes: binding, moving and retracting scheduled edges, decisions, acquisition and reacquisition, INCREMENT
and FREE axes, and what a decision releases (spec/07 R182 to R208, spec/10 R289, spec/15 R398 to R400). -/
namespace Sys2Proof.Machine

/-! ### Held deliveries of confirmed-only tasks (R289, R290) -/

/-- The port of a port task. -/
def taskPort (t : Fin 320) : Option (Fin 64) := if h : t.val / 4 < 64 then some ⟨t.val / 4, h⟩ else none

/-- One delivery of a subscription is discarded and counted. -/
def dropDelivery (t : Fin 320) (sub : Nat) (s : State) : State :=
  s.modTask t (fun k => if h : sub < 4 then { k with drops := k.drops.set sub (k.drops[sub] + 1) } else k)

/-- R290: a task of a port whose cluster is not ACTIVE takes no delivery. -/
def State.taskOpen (s : State) (t : Fin 320) : Bool :=
  match taskPort t with | some p => s.portActive p | none => true

/-- An assertion joins those of the present cycle. (DEDUCED, notes/assumptions/41.md) -/
def assertTask (t : Fin 320) (sub : Option Nat) (fl : Flags) (s : State) : State :=
  s.modFabric (fun f => { f with asserted := f.asserted ++ [⟨t, sub, fl⟩] })

/-- R289: a frame retracts a delivery, or will never be decided. -/
def State.deadFrame (s : State) (f : ProvFrame) : Bool :=
  match s.fate f with | .never | .decided .retracted => true | _ => false

/-- R289: what becomes of a held delivery. -/
def releaseDelivery (d : HeldDelivery) (s : State) : State :=
  if d.waits.any s.deadFrame then dropDelivery d.task d.sub s
  else if !s.allDecided d.waits then s.modFabric (fun f => { f with held := f.held ++ [d] })
  else if !s.taskOpen d.task then dropDelivery d.task d.sub s
  else assertTask d.task (some d.sub) ⟨[], false, d.shifted || s.shiftedBy d.waits⟩ s

def releaseDeliveries (s : State) : State :=
  foldS s.fabric.held releaseDelivery (s.modFabric (fun f => { f with held := [] }))

/-- R201, R203, R268, R289: everything that waited for decisions which have now been made. -/
def release (s : State) : State :=
  releaseDeliveries (eachFin 16 mfForm (eachFin 64 releaseHeld s))

/-! ### The edges scheduled on an axis -/

/-- R194: the instant before which a bound edge is committed. -/
def State.isCommitted (s : State) (w : TimeWord) : Bool := committedIn s.cycle w

/-- The edges of an axis that are pending, not committed, and that a test of frame and binding admits are retracted: pulses,
staged tone changes, join instants and aligned starts (R187, R197, R227, R232, R314, R400). sel n b: b, the edge is bound. -/
def retractSome (a : Fin 4) (sel : Frame → Bool → Bool) (s : State) : State :=
  let s := eachFin 64 (fun p s =>
    let c := s.cycle
    let xs := s.ports[p].queue.filter (fun x => x.retractable c &&
      (match x.axisFrame with | some (b, n, _) => decide (b = a) && sel n x.lead.isSome | none => false))
    let s := foldS xs (fun x s => retractPulse p x false s) s
    match s.ports[p].cfg.toneAt with
    | .pos b n _ w =>
      if b = a && sel n w.isSome && !(match w with | some t => s.isCommitted t | none => false) then
        retracted a 1 (s.modPort p (fun q => { q with cfg := { q.cfg with toneAt := .none } }))
      else s
    | _ => s) s
  let s := eachFin 8 (fun k s =>
    match s.clusters[k].fix with
    | some (.axis b n _ _ bound committed) =>
      if b = a && sel n bound && !committed then
        retracted a 1 (s.modCluster k (fun c => { c with fix := some (.waiting s.cycle), joinAt := some .next }))
      else s
    | _ => s) s
  eachFin 8 (fun g s =>
    match s.groups[g].waiting with
    | some (.align b off (some n) w committed) =>
      if b = a && sel n w.isSome && !committed then
        retracted a 1 (s.modGroup g (fun x => { x with waiting := some (.align b off none none false) }))
      else s
    | _ => s) s

/-- The edges of the frames that a test admits are retracted. -/
def retractEdges (a : Fin 4) (sel : Frame → Bool) (s : State) : State := retractSome a (fun n _ => sel n) s

/-- R199: the edges of frame n are retracted, and with them those of earlier frames that no decision can bind any more.
(DEDUCED, notes/assumptions/90.md) -/
def retractUpTo (a : Fin 4) (n : Frame) (s : State) : State :=
  retractSome a (fun m bound => decide (m = n) || (!bound && decide (fdiff m n < 0))) s

/-- Pulses in order of leading edge. -/
def insertPulse (x : Pulse) : List Pulse → List Pulse
  | [] => [x]
  | y :: ys =>
    match x.lead, y.lead with
    | some a, some b => if tlater b a then x :: y :: ys else y :: insertPulse x ys
    | _, _ => y :: insertPulse x ys

/-- Pulses of a port that have been given a time are placed in order; with a lateness test, one before D + 16 ns is
retracted with MISS (R198, R199, R555). -/
def placeAll (p : Fin 64) (test : Bool) (xs : List Pulse) (s : State) : State :=
  foldS (xs.foldr insertPulse []) (fun x s =>
    if test && (match x.lead with | some l => s.isCommitted l | none => false) then
      let s := match x.axisFrame with | some (a, _, _) => retracted a 1 s | none => s
      miss p Flags.none (countRemoved p 1 s)
    else settlePulse p x s) s

/-- The pulses of a port that a test picks are taken out, given new times and placed again. -/
def rePlace (p : Fin 64) (test : Bool) (pick : Pulse → Bool) (time : Pulse → TimeWord) (s : State) : State :=
  let xs := s.ports[p].queue.filter pick
  if xs.isEmpty then s
  else
    let s := s.modPort p (fun q => { q with queue := q.queue.filter (fun x => !pick x) })
    placeAll p test (xs.map (fun x => let l := time x; { x with lead := some l, trail := tadd l x.width })) s

/-- R193, R199, R204: every unbound edge of frame n is bound at a base instant plus its offset. align64: an aligned start
less than 64 ns after the decision cycle moves to the next frame (R314). -/
def bindFrame (a : Fin 4) (n : Frame) (base : TimeWord) (test align64 : Bool) (s : State) : State :=
  let s := eachFin 64 (fun p s =>
    let s := rePlace p test (fun x => x.lead.isNone &&
      (match x.axisFrame with | some (b, m, _) => decide (b = a ∧ m = n) | none => false))
      (fun x => match x.axisFrame with | some (_, _, o) => tadd base o | none => base) s
    match s.ports[p].cfg.toneAt with
    | .pos b m o none =>
      if b = a && m = n then
        let w := wholeTick (tadd base o)
        if test && s.isCommitted w then
          miss p Flags.none (retracted a 1 (s.modPort p (fun q => { q with cfg := { q.cfg with toneAt := .none } })))
        else s.modPort p (fun q => { q with cfg := { q.cfg with toneAt := .pos b m o (some w) } })
      else s
    | _ => s) s
  let s := eachFin 8 (fun k s =>
    match s.clusters[k].fix with
    | some (.axis b m o _ false committed) =>
      if b = a && m = n then
        let j := tadd base o
        if test && s.isCommitted j then
          retracted a 1 (s.modCluster k (fun c => { c with fix := some (.waiting s.cycle), joinAt := some .next }))
        else s.modCluster k (fun c => { c with fix := some (.axis b m o j true committed) })
      else s
    | _ => s) s
  eachFin 8 (fun g s =>
    match s.groups[g].waiting with
    | some (.align b o (some m) none c) =>
      if b = a && m = n then
        let w := wholeTick (tadd base o)
        if align64 && decide (tdiff w s.cycle < 640000) then
          s.modGroup g (fun x => { x with waiting := some (.align b o (some (m + 1)) none c) })
        else if test && s.isCommitted w then
          retracted a 1 (s.modGroup g (fun x => { x with waiting := some (.align b o none none false) }))
        else s.modGroup g (fun x => { x with waiting := some (.align b o (some m) (some w) c) })
      else s
    | _ => s) s

/-- R197, R198: every bound edge of frame n that is not committed moves by e. -/
def moveFrame (a : Fin 4) (n : Frame) (e : Int) (s : State) : State :=
  if e = 0 then s
  else
    let c := s.cycle
    let s := eachFin 64 (fun p s =>
      let s := rePlace p true (fun x => x.lead.isSome && x.late.isNone && x.retractable c &&
        (match x.axisFrame with | some (b, m, _) => decide (b = a ∧ m = n) | none => false))
        (fun x => match x.lead with | some l => tadd l e | none => c) s
      match s.ports[p].cfg.toneAt with
      | .pos b m o (some w) =>
        if b = a && m = n && !s.isCommitted w then
          let w := wholeTick (tadd w e)
          if s.isCommitted w then
            miss p Flags.none (retracted a 1 (s.modPort p (fun q => { q with cfg := { q.cfg with toneAt := .none } })))
          else s.modPort p (fun q => { q with cfg := { q.cfg with toneAt := .pos b m o (some w) } })
        else s
      | _ => s) s
    let s := eachFin 8 (fun k s =>
      match s.clusters[k].fix with
      | some (.axis b m o j true false) =>
        if b = a && m = n then
          let j := tadd j e
          if s.isCommitted j then
            retracted a 1 (s.modCluster k (fun c => { c with fix := some (.waiting s.cycle), joinAt := some .next }))
          else s.modCluster k (fun c => { c with fix := some (.axis b m o j true false) })
        else s
      | _ => s) s
    eachFin 8 (fun g s =>
      match s.groups[g].waiting with
      | some (.align b o (some m) (some w) false) =>
        if b = a && m = n then
          let w := wholeTick (tadd w e)
          if s.isCommitted w then
            retracted a 1 (s.modGroup g (fun x => { x with waiting := some (.align b o none none false) }))
          else s.modGroup g (fun x => { x with waiting := some (.align b o (some m) (some w) false) })
        else s
      | _ => s) s

/-- R204, R555: an edge of a frame is unbound when run-ahead ends: its frame's index edge is still to come.
(DEDUCED, notes/assumptions/87.md) -/
def unbinds (a b : Fin 4) (an n : Frame) : Bool := decide (b = a) && decide (0 < fdiff n an)

/-- R555: an uncommitted pulse of the axis without its time. -/
def unbindPulse (a : Fin 4) (an : Frame) (c : TimeWord) (x : Pulse) : Pulse :=
  match x.axisFrame with
  | some (b, n, _) => if unbinds a b an n && x.retractable c then { x with lead := none } else x
  | none => x

def unbindTone (a : Fin 4) (an : Frame) (c : TimeWord) : ToneTarget → ToneTarget
  | .pos b m o (some w) => if unbinds a b an m && !committedIn c w then .pos b m o none else .pos b m o (some w)
  | x => x

def unbindJoin (a : Fin 4) (an : Frame) : JoinFix → JoinFix
  | .axis b m o j true false => .axis b m o j (!unbinds a b an m) false
  | x => x

def unbindAlign (a : Fin 4) (an : Frame) : Waiting → Waiting
  | .align b o (some m) (some w) false => .align b o (some m) (if unbinds a b an m then none else some w) false
  | x => x

/-- R555: every bound edge of the axis that is not committed is unbound. Those of a frame whose index edge has come keep
their time, that edge plus the offset (R204). An axis in another mode than FRAME has nothing to unbind (R206, R208).
(DEDUCED, notes/assumptions/87.md) -/
def unbindAll (a : Fin 4) (s : State) : State :=
  match s.axes[a].cfg.mode, s.axes[a].anchor with
  | .frame, some an =>
    let c := s.cycle
    let s := eachFin 64 (fun p s => s.modPort p (fun q =>
      { q with queue := q.queue.map (unbindPulse a an.n c), cfg := { q.cfg with toneAt := unbindTone a an.n c q.cfg.toneAt } })) s
    let s := eachFin 8 (fun k s => s.modCluster k (fun cl => { cl with fix := cl.fix.map (unbindJoin a an.n) })) s
    eachFin 8 (fun g s => s.modGroup g (fun x => { x with waiting := x.waiting.map (unbindAlign a an.n) })) s
  | _, _ => s

/-! ### Joins and alignments that wait for a CONFIRMED axis (R315, R399) -/

/-- R399: 2 µs. (DEDUCED, notes/assumptions/31.md) -/
def joinLead : Nat := 20000000

/-- R399: the join instant of a JOINING cluster is fixed from an instant E; the axis is CONFIRMED. -/
def fixOnAxis (s : State) (a : Fin 4) (e : TimeWord) (jp : JoinPoint) : JoinFix :=
  let x := s.axes[a]
  let next : JoinFix := match nextPosition x 0 false (tadd e joinLead) with
    | some (n, w) => .axis a n 0 w (x.bindsNow n) false
    | none => .waiting e
  match x.cfg.mode with
  | .increment => .edge e
  | _ => match jp with
    | .next => next
    | .pos n off => match x.frameStart n with
      | some p =>
        let w := tadd p off
        if tnotBefore w (tadd e joinLead) then .axis a n off w (x.bindsNow n) false else next
      | none => .waiting e

/-- R399: the join instant on entry to JOINING, or on a JOIN accepted in JOINING. (DEDUCED, notes/assumptions/31.md) -/
def fixJoin (k : Fin 8) (e : TimeWord) (s : State) : State :=
  s.modCluster k (fun c =>
    match c.joinAt with
    | none => c
    | some jp =>
      { c with fix := some (match c.joinAxis with
          | none => .fixed (tadd (s.cycleOf e) cycleTu)
          | some a => if s.axes[a].state = .confirmed then fixOnAxis s a e jp else .waiting e) })

/-- The joins and alignments that wait for the axis are resolved in a decision cycle in which it is CONFIRMED.
(DEDUCED, notes/assumptions/31.md) -/
def resolveWaiting (a : Fin 4) (s : State) : State :=
  if s.axes[a].state ≠ .confirmed then s
  else
    let s := eachFin 8 (fun k s =>
      let c := s.clusters[k]
      match c.fix, c.joinAxis with
      | some (.waiting _), some b => if b = a && c.state = .joining then fixJoin k s.cycle s else s
      | _, _ => s) s
    eachFin 8 (fun g s =>
      match s.groups[g].waiting with
      | some (.align b off none _ _) =>
        if b = a then match resolveAlign s a off s.cycle with
          | none => haltGroup g .axis s.cycle s
          | some none => s
          | some (some (n, w)) => s.modGroup g (fun x => { x with waiting := some (.align a off (some n) w false) })
        else s
      | _ => s) s

/-- R315: the groups that align to an axis which is restarted, or has lost its numbering, halt. -/
def haltAligned (a : Fin 4) (s : State) : State :=
  eachFin 8 (fun g s =>
    match s.groups[g].waiting with
    | some (.align b _ _ _ committed) => if b = a && !committed then haltGroup g .axis s.cycle s else s
    | _ => s) s

/-! ### States -/

def raiseAxis (a : Fin 4) (i : Fin 6) (s : State) : State := raise (evAxis a i) Flags.none s

/-- A new numbering begins: what was provisional in the old one will never be decided. (DEDUCED, notes/assumptions/17.md) -/
def newNumbering (x : Axis) : Axis :=
  { x with gen := x.gen + 1, decided := [], anchor := none, misses := 0, acquired := [],
           lastTaken := none, inForce := x.cfg.vals }

/-- R190, R191: LOSS. -/
def axisLoss (a : Fin 4) (s : State) : State :=
  raiseAxis a 3 (s.modAxis a (fun x => { x with losses := x.losses + 1 }))

/-- R200: entry to LOST. -/
def enterLost (a : Fin 4) (withLoss : Bool) (s : State) : State :=
  let s := retractEdges a (fun _ => true) s
  let s := s.modAxis a (fun x => { newNumbering x with state := .lost })
  let s := if withLoss then axisLoss a s else s
  release (haltAligned a s)

/-- R208: the anchor of a FREE axis: the start of its present frame. -/
def freeAnchor (x : Axis) (w : TimeWord) : Option Anchor := some ⟨x.freeStart (x.freeFrame w), x.freeFrame w, true⟩

/-- R187: the axis is restarted. -/
def restartAxis (a : Fin 4) (s : State) : State :=
  let s := retractEdges a (fun _ => true) s
  let s := s.modAxis a (fun x => { newNumbering x with
    state := if x.cfg.mode = .free then .confirmed else .acquire,
    anchor := if x.cfg.mode = .free then freeAnchor x s.tb.now else none,
    period := (x.cfg.period * periodOne : Nat), pendIdx := [], pendCnt := [], count := 0 })
  let s := if s.axes[a].state = .confirmed then raiseAxis a 1 s else s
  resolveWaiting a (release (haltAligned a s))

/-! ### The FRAME predictor (R192) -/

/-- The period estimate kept within the pull range. (DEDUCED, notes/assumptions/16.md) -/
def clampPeriod (period pull : Nat) (p : Int) : Int :=
  let lo := divEven ((period * periodOne * (1000000 - pull) : Nat) : Int) 1000000
  let hi := divEven ((period * periodOne * (1000000 + pull) : Nat) : Int) 1000000
  if p < lo then lo else if hi < p then hi else p

/-- update(t, n) of R192. -/
def Axis.update (x : Axis) (t : TimeWord) (n : Frame) : Axis :=
  match x.anchor with
  | none => x
  | some an =>
    let e := tdiff t (predictFrom an x.period n)
    { x with period := clampPeriod x.cfg.period x.inForce.pull (x.period + divEven (e * periodOne) (2 ^ x.inForce.gain)),
             anchor := some ⟨t, n, true⟩, lastError := e }

/-- R204: the error as the tests see it: exact, or on tick counts with RUNAHEAD OFF. -/
def testError (x : Axis) (t p : TimeWord) : Int :=
  if x.cfg.runAhead then tdiff t p else ((finePart p : Int) + tdiff t p) / (tickTu : Int) * (tickTu : Int)

/-- The frame number advances to n: WRAP when frame 0 follows (R190). -/
def wrapAt (a : Fin 4) (n : Frame) (s : State) : State := if n = 0 then raiseAxis a 4 s else s

/-- R206, R207: the number of an INCREMENT axis advances by several frames: WRAP when it passes frame 0 (R190).
(DEDUCED, notes/assumptions/90.md) -/
def wrapOver (a : Fin 4) (old n : Frame) (s : State) : State := if n.toNat < old.toNat then raiseAxis a 4 s else s

/-- R196: an edge of frame f was committed only by the present cycle: its instant lies beyond what the cycle before commits.
(DEDUCED, notes/assumptions/29.md) -/
def State.committedNow (s : State) (w : TimeWord) : Bool := !committedIn (tadd s.cycle (-(cycleTu : Int))) w

/-- R196: what the decision cycle of a frame has itself committed is not provisional. -/
def Pulse.decideNow (s : State) (f : ProvFrame) (x : Pulse) : Pulse :=
  match x.lead, x.axisFrame with
  | some l, some (b, n, _) =>
    if decide (b = f.axis) && decide (n = f.frame) && s.committedNow l then { x with flags := x.flags.without f } else x
  | _, _ => x

/-- R196: the edges, joins and aligned starts of frame f that its decision cycle has committed.
(DEDUCED, notes/assumptions/29.md) -/
def decideNow (f : ProvFrame) (s : State) : State :=
  let q (y : Port) : Port := { y with queue := y.queue.map (Pulse.decideNow s f) }
  let k (y : Cluster) : Cluster :=
    match y.fix with
    | some (.axis _ _ _ j _ _) => if s.committedNow j then { y with joinProv := y.joinProv.filter (fun g => decide (g ≠ f)) } else y
    | _ => y
  let g (y : Group) : Group :=
    match y.waiting with
    | some (.align _ _ _ (some w) _) =>
      if s.committedNow w then { y with provNext := y.provNext.filter (fun g => decide (g ≠ f)) } else y
    | _ => y
  { s with ports := s.ports.map q, clusters := s.clusters.map k, groups := s.groups.map g }

/-- R197, R199: a decision that confirms frame n on edge t. moved: bound edges move by the error (CONFIRMED, run-ahead);
otherwise they are bound from t. -/
def confirmFrame (a : Fin 4) (n : Frame) (t : TimeWord) (reacquired : Bool) (s : State) : State :=
  let ra := s.axes[a].cfg.runAhead
  let ts := s.axes[a].inForce.tsettle
  let s := decideNow ⟨a, n, s.axes[a].gen⟩ s
  let s := s.modAxis a (fun x => x.update t n)
  let e := s.axes[a].lastError
  let shifted := !reacquired && decide (ts < e.natAbs)
  let s := s.modAxis a (fun x => { x with state := .confirmed, misses := 0, inForce := x.cfg.vals,
                                          decided := (n, .confirmed shifted) :: x.decided })
  let s := if reacquired then retractSome a (fun m bound => !bound && decide (fdiff m n < 0)) s else s
  let s := if !ra then bindFrame a n t false true s
    else if reacquired then bindFrame a n t true false s
    else moveFrame a n e s
  let s := release s
  let s := if ra then
      match s.axes[a].predict (n + 1) with | some p => bindFrame a (n + 1) p false false s | none => s
    else s
  let s := raiseAxis a 0 s
  let s := raise (evAxis a 1) ⟨[], false, shifted⟩ s
  resolveWaiting a (wrapAt a n s)

/-- R197, R199: a decision that retracts frame n, anchored at an instant. -/
def retractFrame (a : Fin 4) (n : Frame) (at_ : TimeWord) (real : Bool) (misses : Nat) (s : State) : State :=
  let s := decideNow ⟨a, n, s.axes[a].gen⟩ s
  let s := if s.axes[a].state = .reacquire then retractUpTo a n s else retractEdges a (fun m => decide (m = n)) s
  let s := s.modAxis a (fun x =>
    { x with state := .reacquire, anchor := some ⟨at_, n, real⟩, misses := misses, inForce := x.cfg.vals,
             decided := (n, .retracted) :: x.decided })
  wrapAt a n (release s)

/-- R189: a usable edge in ACQUIRE, or the first in LOST. With the second edge the period estimate is their interval. -/
def acquireEdge (a : Fin 4) (t : TimeWord) (s : State) : State :=
  let x := s.axes[a]
  let keep (ts : List TimeWord) (p : Int) (s : State) : State :=
    raiseAxis a 0 (s.modAxis a (fun x => { x with state := .acquire, acquired := ts, period := p }))
  match x.acquired with
  | [_, t2] =>
    if decide ((tdiff t (tadd t2 (x.period / periodOne))).natAbs ≤ x.cfg.vals.catchTu) then
      let n := x.cfg.firstFrame
      let s := s.modAxis a (fun x =>
        let y : Axis := { x with anchor := some ⟨t2, n - 1, true⟩, inForce := x.cfg.vals, acquired := [] }
        { y.update t n with state := .confirmed, misses := 0, decided := [(n, .confirmed false)] })
      resolveWaiting a (raise (evAxis a 1) Flags.none (raiseAxis a 0 s))
    else keep [t] x.period s
  | [t1] =>
    let d := tdiff t t1
    if decide ((d - x.cfg.period).natAbs * 1000000 ≤ x.cfg.period * x.cfg.vals.pull) then keep [t1, t] (d * periodOne) s
    else keep [t] x.period s
  | _ => keep [t] x.period s

/-- R197: a usable edge in CONFIRMED. -/
def confirmedEdge (a : Fin 4) (t : TimeWord) (s : State) : State :=
  let x := s.axes[a]
  match x.anchor with
  | none => s
  | some an =>
    let n := an.n + 1
    let e := testError x t (predictFrom an x.period n)
    if x.inForce.catchTu < e.natAbs then s
    else if x.inForce.tretract < e.natAbs then
      let s := retractFrame a n t true 0 s
      let s := raiseAxis a 0 s
      raiseAxis a 5 (s.modAxis a (fun x => { x with slips := x.slips + 1, lastTaken := some t }))
    else confirmFrame a n t false s

/-- R199: a usable edge in REACQUIRE. -/
def reacquireEdge (a : Fin 4) (t : TimeWord) (s : State) : State :=
  let x := s.axes[a]
  match x.anchor with
  | none => s
  | some an =>
    let n := an.n + 1
    let p := predictFrom an x.period n
    let e := testError x t p
    if tlater (tadd p (-(x.period / (2 * periodOne)))) t then s
    else if an.real && decide (e.natAbs ≤ x.inForce.catchTu) then confirmFrame a n t true s
    else raiseAxis a 0 (retractFrame a n t true 0 (s.modAxis a (fun x => { x with lastTaken := some t })))

/-! ### INCREMENT axes (R206, R207, R500) -/

/-- R206, R232: a tone change staged at a count is bound by the triggered path, or retracted. -/
def countTone (p : Fin 64) (a : Fin 4) (n : Frame) (k : Nat) (t : TimeWord) (flagged : Bool) (s : State) : State :=
  let put (x : ToneTarget) (s : State) : State := s.modPort p (fun q => { q with cfg := { q.cfg with toneAt := x } })
  match s.ports[p].cfg.toneAt with
  | .pos b m o none =>
    if b = a && decide (m = n) && decide (o = k) then
      if flagged then miss p Flags.none (retracted a 1 (put .none s))
      else put (.pos b m o (some (wholeTick (tadd t s.ports[p].cfg.delay)))) s
    else s
  | _ => s

/-- R206: the pending edges of a frame at a count are emitted through the triggered path, or retracted. -/
def emitCount (a : Fin 4) (n : Frame) (k : Nat) (t : TimeWord) (flagged : Bool) (s : State) : State :=
  eachFin 64 (fun p s =>
    let mine (x : Pulse) : Bool := x.lead.isNone &&
      (match x.axisFrame with | some (b, m, o) => decide (b = a ∧ m = n ∧ o = k) | none => false)
    let s := if flagged then foldS (s.ports[p].queue.filter mine) (fun x s => retractPulse p x true s) s
      else rePlace p false mine (fun _ => tadd t s.ports[p].cfg.delay) s
    countTone p a n k t flagged s) s

/-- R399: the joins of an INCREMENT axis are fixed by its first usable edge at least 2 µs after E. -/
def joinEdge (a : Fin 4) (t : TimeWord) (s : State) : State :=
  eachFin 8 (fun k s =>
    let c := s.clusters[k]
    match c.fix with
    | some (.edge e) =>
      if decide (c.joinAxis = some a) && tnotBefore t (tadd e joinLead) then
        s.modCluster k (fun c => { c with fix := some (.fixed s.cycle) })
      else s
    | _ => s) s

/-- The count differs from COUNTS by no more than COUNTTOL. -/
def Axis.countFits (x : Axis) : Bool :=
  decide (x.cfg.counts ≤ x.count + x.cfg.countTol ∧ x.count ≤ x.cfg.counts + x.cfg.countTol)

/-- R189, R207: a usable index edge of an INCREMENT axis. (DEDUCED, notes/assumptions/90.md) -/
def incrementEdge (a : Fin 4) (t : TimeWord) (s : State) : State :=
  let x := s.axes[a]
  let fits := x.countFits
  let s := raiseAxis a 0 (s.modAxis a (fun x => { x with lastTaken := some t }))
  let anchor (n : Frame) (st : AxisState) (s : State) : State :=
    s.modAxis a (fun x => { x with anchor := some ⟨t, n, true⟩, state := st, count := 0, misses := 0 })
  let enter (n : Frame) (s : State) : State :=
    resolveWaiting a (emitCount a n 0 t false (raiseAxis a 1 (anchor n .confirmed s)))
  let s := match x.state, x.anchor with
    | .confirmed, some an =>
      let n := an.n + 1
      let s := if fits then s else raiseAxis a 5 (s.modAxis a (fun x => { x with slips := x.slips + 1 }))
      let s := retractEdges a (fun m => decide (fdiff m n < 0)) s
      emitCount a n 0 t false (wrapAt a n (anchor n .confirmed s))
    | .reacquire, some an =>
      if an.real && fits then
        enter (an.n + 1) (wrapAt a (an.n + 1) (retractEdges a (fun m => decide (fdiff m (an.n + 1) < 0)) s))
      else
        let n := an.n + BitVec.ofInt 48 (divEven x.count (max 1 x.cfg.counts))
        anchor n .reacquire (wrapOver a an.n n (retractEdges a (fun m => decide (fdiff m n < 0)) s))
    | .acquire, _ =>
      if !x.acquired.isEmpty && fits then
        enter x.cfg.firstFrame (s.modAxis a (fun x => { x with acquired := [] }))
      else s.modAxis a (fun x => { x with acquired := [t], count := 0 })
    | _, _ => s.modAxis a (fun x => { x with state := .acquire, acquired := [t], count := 0 })
  joinEdge a t s

/-- R207: the count since the latest index edge that ends REACQUIRE. -/
def Axis.countsOut (x : Axis) : Bool := decide (x.cfg.vals.missmax * x.cfg.counts < x.count)

/-- R206, R207, R500: a count edge of an INCREMENT axis. LOSS is raised once where the axis passes through REACQUIRE to LOST
in one cycle. (DEDUCED, notes/assumptions/90.md) -/
def countEdge (a : Fin 4) (t : TimeWord) (flagged : Bool) (s : State) : State :=
  let s := s.modAxis a (fun x => { x with count := x.count + 1 })
  let x := s.axes[a]
  match x.state, x.anchor with
  | .confirmed, some an =>
    let s := emitCount a an.n x.count t flagged s
    if x.count = x.cfg.counts + x.cfg.countTol + 1 then
      let s := retractEdges a (fun m => decide (m = an.n)) s
      let s := axisLoss a (s.modAxis a (fun x => { x with
          state := .reacquire, anchor := some { an with real := false }, lastTaken := none }))
      if x.countsOut then enterLost a false s else s
    else s
  | .reacquire, _ => if x.countsOut then enterLost a true s else s
  | _, _ => s

/-! ### Index edges and windows that pass -/

/-- R184, R185: the usable index edge at the front reaches the axis. Count edges that came before it go first. The edge that
anchors an axis after a wake waits for Belfry's frame number (R438). -/
def indexEdge (a : Fin 4) (s : State) : State :=
  let x := s.axes[a]
  match x.pendIdx with
  | [] => s
  | t :: rest =>
    let earlier := match x.pendCnt with | (c, _) :: _ => tnotBefore t c | [] => false
    if earlier || (decide (x.state = .reacquire) && x.anchor.isNone) then s
    else
      let s := s.modAxis a (fun x => { x with pendIdx := rest })
      match x.cfg.mode with
      | .free => s
      | .increment => incrementEdge a t s
      | .frame => match x.state with
        | .acquire | .lost => acquireEdge a t (s.modAxis a (fun x => { x with lastTaken := some t }))
        | .confirmed => confirmedEdge a t s
        | .reacquire => reacquireEdge a t s

/-- R206: the count edge at the front reaches the axis. Index edges that came before it go first. -/
def countEdgeFront (a : Fin 4) (s : State) : State :=
  let x := s.axes[a]
  match x.pendCnt with
  | [] => s
  | (t, flagged) :: rest =>
    let earlier := match x.pendIdx with | i :: _ => tlater t i | [] => false
    if earlier then s
    else
      let s := s.modAxis a (fun x => { x with pendCnt := rest })
      if x.cfg.mode = .increment then countEdge a t flagged s else s

/-- R197: the catch window of the awaited frame has passed with no usable edge. -/
def catchTimeout (a : Fin 4) (s : State) : State :=
  let x := s.axes[a]
  match x.cfg.mode, x.state, x.anchor with
  | .frame, .confirmed, some an =>
    let n := an.n + 1
    let p := predictFrom an x.period n
    let pending := x.pendIdx.any (fun t => decide ((testError x t p).natAbs ≤ x.inForce.catchTu))
    if tnotBefore s.cycle (tadd p (x.inForce.catchTu + reachTu)) && !pending then
      let last := decide (x.inForce.missmax = 1)
      let s := retractFrame a n p false 1 s
      let s := axisLoss a (s.modAxis a (fun x => { x with lastTaken := none }))
      if last then enterLost a false s else s
    else s
  | _, _, _ => s

/-- R199: a window of REACQUIRE has passed with no usable edge. -/
def reacquirePass (a : Fin 4) (s : State) : State :=
  let x := s.axes[a]
  match x.cfg.mode, x.state, x.anchor with
  | .frame, .reacquire, some an =>
    let n := an.n + 1
    let p := predictFrom an x.period n
    let half := x.period / (2 * periodOne)
    let pending := x.pendIdx.any (fun t => decide ((tdiff t p).natAbs ≤ half))
    if tnotBefore s.cycle (tadd p (half + reachTu)) && !pending then
      let misses := x.misses + 1
      let s := retractFrame a n p false misses s
      if x.inForce.missmax ≤ misses then enterLost a true s else s
    else s
  | _, _, _ => s

/-- R190, R208: a frame of a FREE axis starts. With PERIOD at least 1 µs, its numbers never reach 2^48 − 1, so none wraps. -/
def freeStartEvent (a : Fin 4) (s : State) : State :=
  let x := s.axes[a]
  match x.cfg.mode, x.state, x.anchor with
  | .free, .confirmed, some an =>
    let next := x.nextFrame an.n
    let start := x.freeStart next
    if tnotBefore s.tb.now start then
      raiseAt (evAxis a 0) (s.cycleOf start) 1 Flags.none (s.modAxis a (fun x => { x with anchor := some ⟨start, next, true⟩ }))
    else s
  | _, _, _ => s

/-- R208, R200: a FREE axis at a lock of the timebase enters CONFIRMED, or has its frames on the new time word. -/
def freeLock (a : Fin 4) (s : State) : State :=
  let x := s.axes[a]
  if x.cfg.mode ≠ .free then s
  else if x.state = .confirmed then s.modAxis a (fun x => { x with anchor := freeAnchor x s.tb.now })
  else
    resolveWaiting a (raiseAxis a 1 (s.modAxis a (fun x =>
      { newNumbering x with state := .confirmed, anchor := freeAnchor x s.tb.now })))

/-! ### RUNAHEAD written (R555) -/

/-- R555: run-ahead begins: the edges of the frames that it admits are bound. (DEDUCED, notes/assumptions/87.md) -/
def runAheadOn (a : Fin 4) (s : State) : State :=
  let x := s.axes[a]
  match x.cfg.mode, x.state, x.anchor with
  | .frame, .confirmed, some an =>
    let frames := (s.ports.toList.flatMap (fun q => q.queue.filterMap (fun y =>
      match y.axisFrame with | some (b, n, _) => if b = a && y.lead.isNone then some n else none | none => none))) ++
      s.ports.toList.filterMap (fun q => match q.cfg.toneAt with | .pos b n _ none => if b = a then some n else none | _ => none) ++
      s.clusters.toList.filterMap (fun c => match c.fix with
        | some (.axis b n _ _ false _) => if b = a then some n else none
        | _ => none) ++
      s.groups.toList.filterMap (fun g => match g.waiting with
        | some (.align b _ (some n) none _) => if b = a then some n else none
        | _ => none)
    foldS (frames.eraseDups.filter (fun n => decide (fdiff n an.n ≤ 1))) (fun n s =>
      match s.axes[a].predict n with | some p => bindFrame a n p true false s | none => s) s
  | _, _, _ => s

/-! ### Commitment of joins and aligned starts (R314, R316, R400) -/

/-- R400: a bound J that is less than 16 ns away is final. -/
def commitJoin (k : Fin 8) (s : State) : State :=
  match s.clusters[k].fix with
  | some (.axis a n o j true false) =>
    if s.isCommitted j then
      let pr : List ProvFrame := if s.undecided a n && s.axes[a].cfg.runAhead then [⟨a, n, s.axes[a].gen⟩] else []
      s.modCluster k (fun c => { c with fix := some (.axis a n o j true true), joinProv := pr })
    else s
  | _ => s

/-- R314, R316: an aligned start that is less than 16 ns away is committed; before its frame's decision, the step that it
begins is provisional. -/
def commitAlign (g : Fin 8) (s : State) : State :=
  match s.groups[g].waiting with
  | some (.align a o (some n) (some w) false) =>
    if s.isCommitted w then
      let pr : List ProvFrame := if s.undecided a n && s.axes[a].cfg.runAhead then [⟨a, n, s.axes[a].gen⟩] else []
      s.modGroup g (fun x => { x with waiting := some (.align a o (some n) (some w) true), provNext := pr })
    else s
  | _ => s

/-- Everything that the present fabric cycle commits (R194, R223). (DEDUCED, notes/assumptions/29.md) -/
def commitAll (s : State) : State :=
  let s := eachFin 64 (fun p s => commitPort p s.cycle s) s
  eachFin 8 commitAlign (eachFin 8 commitJoin s)

end Sys2Proof.Machine
end

