-- ==== Sys2Proof/Machine/Calibration.lean ====
section
/-! DEFINITION. The calibration rota, windows, tables and their swap, and the calibration image (spec/13 R340 to R364,
spec/19 R495 and R496). -/
namespace Sys2Proof.Machine

/-! ### When a window opens -/

/-- R341, R345: [o, o + len) lies inside one quiet slot of a frame of an axis, by predicted positions. -/
def inQuietSlot (x : Axis) (o : TimeWord) (len : Nat) : Bool :=
  match x.currentFrame o with
  | none => false
  | some n =>
    (if x.cfg.mode = .free then [n, x.nextFrame n] else [n - 1, n, n + 1]).any (fun m => match x.frameStart m with
      | none => false
      | some f => (x.cfg.quietAt.zip x.cfg.quietLen).any (fun (at_, l) =>
          tnotBefore o (tadd f at_) && tnotBefore (tadd f (at_ + l)) (tadd o len)))

/-- R341: the conditions under which a window may open on port p in the present fabric cycle. -/
def State.windowMayOpen (s : State) (p : Fin 64) : Bool :=
  let o := s.cycle
  let q := s.ports[p]
  let c := s.clusterOfPort p
  let gap := gapOf q.cfg.mode
  let blockedBy (a e : TimeWord) : Bool := overlap a e o (tadd o blockedTu)
  let held := s.cal.hold || s.steward.absent
  let queueFree := !q.queue.any (fun x => match x.lead with | some l => blockedBy l (tadd x.trail gap) | none => false) &&
    !(match q.lastTrail with | some t => tlater (tadd t gap) o | none => false)
  let toneFree := match stagedTick q.cfg.toneAt with
    | some w => !(tnotBefore w o && tlater (tadd o blockedTu) w)
    | none => true
  let lane := match s.laneOf p with | some (g, _) => s.groups[g].live | none => false
  let counts := s.axes.toList.any (fun x => decide (x.cfg.mode = .increment) && decide (x.cfg.countSrc = some (.port p)))
  let needsAxis := q.toneArmed || lane || counts
  let axisOk := match q.cfg.calAxis with
    | none => !needsAxis
    | some a => decide (s.axes[a].state = .confirmed) && inQuietSlot s.axes[a] o blockedTu
  let indexOk := s.axes.toList.all (fun x =>
    !(decide (x.cfg.mode = .frame) && decide (x.state = .confirmed) && decide (x.cfg.source = .port p)) ||
      (match x.anchor with
       | some an =>
         let w := predictFrom an x.period (an.n + 1)
         !overlap (tadd w (-(x.inForce.catchTu : Int))) (tadd w (x.inForce.catchTu + 1)) o (tadd o windowTu)
       | none => true))
  decide (c.state = .active) && c.window.isNone && q.table.isSome && tnotBefore o q.due && !held && queueFree && toneFree &&
    axisOk && indexOk

/-- R342: port p opens before every other port of its cluster that could open in the same cycle. -/
def State.windowFirst (s : State) (p : Fin 64) : Bool :=
  s.windowMayOpen p && (portsOf (clusterOf p)).all (fun r =>
    r = p || !s.windowMayOpen r ||
      tlater s.ports[r].due s.ports[p].due || (decide (s.ports[r].due = s.ports[p].due) && decide (p.val < r.val)))

/-- R342: the next due time after a window that opens at o. -/
def nextDue (d o : TimeWord) (period : Nat) : TimeWord :=
  let n := tadd d period
  if tlater n o then n else tadd o period

/-- The number of a port within its cluster. -/
def portIn (p : Fin 64) : Fin 8 := ⟨p.val % 8, by omega⟩

/-- R334: a span in which a checker does not compare begins; the newest eight are kept. One that is open goes on.
(DESIGN CHOICE, notes/assumptions/33.md) -/
def openBlind (w : TimeWord) (bs : List (TimeWord × Option TimeWord)) : List (TimeWord × Option TimeWord) :=
  match bs with
  | (_, none) :: _ => bs
  | _ => ((w, none) :: bs).take 8

/-- R334: the open span ends 96 ns after a level sample. -/
def closeBlind (w : TimeWord) (bs : List (TimeWord × Option TimeWord)) : List (TimeWord × Option TimeWord) :=
  match bs with
  | (a, none) :: r => (a, some (tadd w reachTu)) :: r
  | _ => bs

/-- R341, R343, R346, R495: a window opens on a port in the present fabric cycle. -/
def openWindow (p : Fin 64) (s : State) : State :=
  let o := s.cycle
  let level := s.padLevel p
  let void := s.cal.span.isSome
  let s := s.modCluster (clusterOf p) (fun c => { c with window := some ⟨portIn p, o, void⟩ })
  let s := s.modPort p (fun q => { q with due := nextDue q.due o s.cal.period, calLate := false, lateSeen := false,
                                          outHeld := if driving q.cfg.mode && q.cfg.output then some level else none,
                                          blind := openBlind o q.blind })
  let s := s.modCal (fun c => { c with lastOpen := some p, doomed := if void then c.doomed + 1 else c.doomed })
  raise (evCluster (clusterOf p) 2) Flags.none s

/-! ### Accumulation and tables -/

/-- R352: 2^18 hits. -/
def fullHits : Nat := 262144

/-- A count added to a histogram that lists the codes with hits by rising code. -/
def addHits (code n : Nat) : List (Nat × Nat) → List (Nat × Nat)
  | [] => [(code, n)]
  | (c, m) :: hs => if c = code then (c, m + n) :: hs else if code < c then (code, n) :: (c, m) :: hs else
      (c, m) :: addHits code n hs

/-- R352: the hits of a window join the histogram until it holds 2^18. -/
def joinHits (limit : Nat) : List (Nat × Nat) → List (Nat × Nat) × Nat → List (Nat × Nat) × Nat
  | [], r => r
  | (code, n) :: hs, (hist, total) =>
    if code < 384 then
      let m := min n (limit - total)
      joinHits limit hs (if m = 0 then hist else addHits code m hist, total + m)
    else joinHits limit hs (hist, total)

/-- R353: the measurements of a DTC point, by their sum and number, join its mean. -/
def addPoint (k : Nat) (v : Int) (m : Nat) : List (Nat × Int × Nat) → List (Nat × Int × Nat)
  | [] => [(k, v, m)]
  | (j, t, n) :: ps => if j = k then (j, t + v, n + m) :: ps else if k < j then (k, v, m) :: (j, t, n) :: ps else
      (j, t, n) :: addPoint k v m ps

/-- R347, R356: what was measured of a DTC point, if it was measured the number of times that the phase measures it. -/
def CalSample.point (x : CalSample) (times k : Nat) : Option Int :=
  (x.points.find? (fun m => decide (m.1 = k) && decide (m.2.2 = times))).map (fun m => m.2.1)

/-- The measurements of some DTC points join the means. -/
def joinPoints (x : CalSample) (times : Nat) (ks : List Nat) (ps : List (Nat × Int × Nat)) : List (Nat × Int × Nat) :=
  ks.foldl (fun ps k => match x.point times k with | some v => addPoint k v times ps | none => ps) ps

/-- R347: the next 8 of the 250 points. -/
def nextPoints (from_ : Nat) : List Nat := (List.range 8).map (fun i => (from_ + i) % 250)

/-- What was measured beside hits and points is the latest. -/
def CalAccum.latest (a : CalAccum) (x : CalSample) : CalAccum :=
  { a with offRise := x.offRise, offFall := x.offFall, fallSkew := x.fallSkew, q := x.q }

/-- R347: 410 hits, and 4 measurements of a point. -/
def windowHits : Nat := 410
def windowTimes : Nat := 4

/-- R347, R352: what a window measured joins the port's accumulation. (DEDUCED, notes/assumptions/49.md) -/
def accumulate (x : CalSample) (a : CalAccum) : CalAccum :=
  let h := joinHits (min fullHits (a.total + windowHits)) x.hits (a.hist, a.total)
  { a.latest x with hist := h.1, total := h.2, dtcNext := (a.dtcNext + 8) % 250,
                    points := joinPoints x windowTimes (nextPoints a.dtcNext) a.points }

/-- R356: what a calibration outside the rota measured, with its hits and its measurements of every point.
(DEDUCED, notes/assumptions/50.md) -/
def measured (hits times : Nat) (x : CalSample) : CalAccum :=
  let h := joinHits hits x.hits ([], 0)
  { CalAccum.empty.latest x with hist := h.1, total := h.2, points := joinPoints x times (List.range 250) [] }

/-- R352: the TDC table of a histogram, from code c on; cum: the hits of the codes below. -/
def tdcTable (hist : List (Nat × Nat)) (total : Nat) : Nat → Nat → Nat → List Nat
  | 0, _, _ => []
  | n + 1, c, cum =>
    let h := match hist.find? (fun x => x.1 = c) with | some (_, m) => m | none => 0
    (400 + divEven ((4000 * (2 * cum + h) : Nat) : Int) (2 * max 1 total)).toNat :: tdcTable hist total n (c + 1) (cum + h)

/-- R353: the DTC table: the mean of each point's measurements, or the old correction where there are none. -/
def dtcTable (points : List (Nat × Int × Nat)) (old : List Int) : List Int :=
  (List.range 250).map (fun k => match points.find? (fun x => x.1 = k) with
    | some (_, t, n) => divEven t (max 1 n)
    | none => old.getD k 0)

/-- The letter of the silicon stepping, as its byte. -/
def steppingByte : Byte := BitVec.ofNat 8 (65 + Config.stepping.val)

/-- R355: the generation of a port's next table set. -/
def Port.nextGen (q : Port) : Nat := match q.lastGen with | none => 0 | some g => (g + 1) % 16

/-- R352 to R355: the table set an accumulation gives. -/
def tableOf (q : Port) (a : CalAccum) (o : CalOrigin) (t : TimeWord) (temp : Int) : TableSet :=
  { gen := q.nextGen, origin := o, time := t, temp := temp, stepping := steppingByte, hits := a.total, qref := a.q,
    d := tdcTable a.hist a.total 384 0 0, c := dtcTable a.points (match q.table with | some x => x.c | none => []),
    offRise := a.offRise, offFall := a.offFall, fallSkew := a.fallSkew }

/-- E378 TABLESWAP and E379 ROTALATE. -/
def evTableSwap : Fin 384 := 378
def evRotaLate : Fin 384 := 379

/-- R353, R355: a table set comes into force on a port, and the means of the DTC points begin anew; its number of uses in
one cycle is the multiplicity of E378. -/
def putTable (p : Fin 64) (x : TableSet) (s : State) : State :=
  s.modPort p (fun q => { q with table := some x, lastGen := some x.gen, accum := { q.accum with points := [] } })

/-- R352, R355, R362: a table set comes into force in the present fabric cycle, and a new accumulation starts. -/
def swapTable (p : Fin 64) (x : TableSet) (s : State) : State :=
  raise evTableSwap Flags.none ((putTable p x s).modPort p (fun q => { q with accum := CalAccum.empty }))

/-- R352, R355, R411: the rota has filled a port's histogram, and the port swaps its table, never in a window. -/
def rotaSwap (p : Fin 64) (s : State) : State :=
  let q := s.ports[p]
  if q.accum.total < fullHits || s.steward.absent || (s.windowOf p).isSome || q.table.isNone then s
  else swapTable p (tableOf q q.accum .rota s.cycle s.bel.temp) s

/-- R362, R405: the range and monotonicity tests of a table set. -/
def tableFits (x : TableSet) : Bool :=
  let within (lim v : Int) : Bool := decide (-lim ≤ v ∧ v ≤ lim)
  let rec rising : List Nat → Bool
    | a :: b :: r => decide (a ≤ b) && rising (b :: r)
    | _ => true
  decide (65536 ≤ x.hits) && decide (x.qref ≠ 0) && rising x.d && decide (400 ≤ x.d.getD 0 0) &&
    decide (x.d.getD 383 0 ≤ 4400) && x.c.all (within 400) && within 50000 x.offRise && within 50000 x.offFall &&
    within 200 x.fallSkew

/-! ### The close of a window -/

/-- R333, R334, R350: the close of a window on a STAMP or GATE port: a level sample, which on a GATE port may change the
level. While the cluster is not ACTIVE a checker's span goes on. (DESIGN CHOICE, notes/assumptions/14.md, 33.md)
(DEDUCED, notes/assumptions/49.md) -/
def levelSample (p : Fin 64) (w : TimeWord) (high : Bool) (s : State) : State :=
  let q := s.ports[p]
  let s := if s.portActive p && decide (q.cfg.mode = .gate) then s.modPort p (fun q => { q with blind := closeBlind w q.blind })
           else s
  match q.cfg.mode with
  | .stamp => s.modPort p (fun q => { q with samples := (⟨w, high⟩ :: q.samples).take 16 })
  | .gate =>
    let s := s.modPort p (fun q => { q with samples := (⟨w, high⟩ :: q.samples).take 16 })
    if levelIn q.level w = high then s
    else mfSourceChange (.port p) high w (s.modPort p (fun q => { q with level := pushLevel ⟨w, high⟩ q.level }))
  | _ => s

/-- R234, R346: at the close of a window on a port in TONE mode the pad comes back from the level it held. -/
def resumeTone (p : Fin 64) (o w : TimeWord) (s : State) : State :=
  let q := s.ports[p]
  match q.cfg.mode, q.outHeld with
  | .tone, some held => s.modPort p (fun q => { q with tone := toneResume q held (s.tu o) (s.tu w) })
  | _, _ => s

/-- R346, R347, R350, R495: the window on a port closes. -/
def closeWindow (p : Fin 64) (x : CalSample) (high : Bool) (s : State) : State :=
  match s.windowOf p with
  | none => s
  | some o =>
    let w := tadd o windowTu
    if !tnotBefore s.tb.now w then s
    else
      let void := match (s.clusterOfPort p).window with | some v => v.void | none => false
      let s := s.modCluster (clusterOf p) (fun c => { c with window := none })
      let s := resumeTone p o w s
      let s := s.modPort p (fun q =>
        { q with outHeld := none, accum := if void then { q.accum with dtcNext := (q.accum.dtcNext + 8) % 250 }
                                           else accumulate x q.accum })
      levelSample p w high s

/-- R343: a port becomes late. -/
def portLate (p : Fin 64) (s : State) : State :=
  let q := s.ports[p]
  if s.portActive p && !s.cal.hold && !s.steward.absent && !q.lateSeen && tnotBefore s.tb.now (tadd q.due s.cal.period) then
    let s := s.modPort p (fun q => { q with calLate := true, lateSeen := true })
    raise evRotaLate Flags.none (s.modCal (fun c => { c with rotaLates := c.rotaLates + 1 }))
  else s

/-! ### Holding the rota (R344) -/

/-- The rota runs again: every due time that has passed is moved to the present instant. -/
def rotaResume (s : State) : State :=
  { s with ports := updAll s.ports (fun _ q => if tlater s.cycle q.due then { q with due := s.cycle } else q) }

def setHold (on : Bool) (s : State) : State :=
  if s.cal.hold = on then s
  else
    let s := s.modCal (fun c => { c with hold := on })
    if !on && !s.steward.absent then rotaResume s else s

/-! ### Switch spans (R495) -/

/-- A switch span begins: every open window is void. -/
def spanBegin (s : State) : State :=
  if s.cal.span.isSome then s
  else
    let n := (s.clusters.toList.filter (fun c => c.window.isSome)).length
    let mark (c : Cluster) : Cluster := { c with window := c.window.map (fun w => ⟨w.port, w.opened, true⟩) }
    let s : State := { s with clusters := updAll s.clusters (fun _ c => mark c) }
    s.modCal (fun c => { c with span := some s.tb.now, doomed := n })

/-- A switch span ends: the windows discarded in it are counted. -/
def spanEnd (s : State) : State :=
  if s.cal.span.isNone then s
  else s.modCal (fun c => { c with span := none, voidWindows := c.voidWindows + BitVec.ofNat 32 c.doomed, doomed := 0 })

/-! ### The calibration image (R359 to R362) -/

def originByte : CalOrigin → Nat | .full => 0 | .short => 1 | .rota => 2 | .imported => 3

/-- A signed number in n bytes, least significant first. -/
def signedLE (n : Nat) (v : Int) : List Byte := bytesLE n ((BitVec.ofInt (8 * n) v).toNat)

/-- R360: the image of a port but for its CHECK. -/
def imageBody (p : Fin 64) (x : TableSet) : List Byte :=
  [1, BitVec.ofNat 8 p.val, BitVec.ofNat 8 x.gen, BitVec.ofNat 8 (originByte x.origin)] ++ bytesLE 8 x.time.toNat ++
    signedLE 2 x.temp ++ [x.stepping, 0] ++ bytesLE 4 x.hits ++ bytesLE 4 Config.dieId.toNat ++ bytesLE 4 x.qref ++
    bytesLE 4 0 ++ x.d.flatMap (bytesLE 2) ++ x.c.flatMap (signedLE 2) ++ signedLE 2 x.offRise ++ signedLE 2 x.offFall ++
    signedLE 2 x.fallSkew ++ List.replicate 34 0

/-- R360: the 1344 bytes of the image of a port. -/
def calImage (p : Fin 64) (x : TableSet) : List Byte := imageBody p x ++ bytesLE 4 (crc32c (imageBody p x)).toNat

/-- The bytes from an offset on, n of them. -/
def slice (bs : List Byte) (off n : Nat) : List Byte := (bs.drop off).take n

def natAt (bs : List Byte) (off n : Nat) : Nat := ofBytesLE (slice bs off n)

def intAt (bs : List Byte) (off n : Nat) : Int := (BitVec.ofNat (8 * n) (natAt bs off n)).toInt

/-- The numbers of n bytes each from an offset on. -/
def listAt (bs : List Byte) (off n count : Nat) : List Nat := (List.range count).map (fun i => natAt bs (off + n * i) n)

def intsAt (bs : List Byte) (off n count : Nat) : List Int := (List.range count).map (fun i => intAt bs (off + n * i) n)

/-- R362: the table set of an image that passes every test. -/
def readImage (q : Port) (p : Fin 64) (bs : List Byte) (t : TimeWord) : Option TableSet :=
  let x : TableSet :=
    { gen := q.nextGen, origin := .imported, time := t, temp := intAt bs 12 2, stepping := bs.getD 14 0,
      hits := natAt bs 16 4, qref := natAt bs 24 4, d := listAt bs 32 2 384, c := intsAt bs 800 2 250,
      offRise := intAt bs 1300 2, offFall := intAt bs 1302 2, fallSkew := intAt bs 1304 2 }
  let ok := decide (bs.length = 1344) && decide (natAt bs 1340 4 = (crc32c (bs.take 1340)).toNat) && decide (bs.getD 0 0 = 1) &&
    decide (natAt bs 1 1 = p.val) && decide (natAt bs 20 4 = Config.dieId.toNat) && decide (x.stepping = steppingByte) &&
    decide (natAt bs 2 1 < 16) && decide (bs.getD 15 0 = 0) && decide (natAt bs 28 4 = 0) &&
    (slice bs 1306 34).all (fun b => decide (b = 0)) && tableFits x
  if ok then some x else none

end Sys2Proof.Machine
end

