-- ==== Sys2Proof/Machine/Clusters.lean ====
section
/-! DEFINITION. The clusters: the way of records into the central FIFO, drain, power, reset, fault, quarantine, join, and the
ends of the start-up sequence and of a wake (spec/05 R249, R144, R145; spec/13 R356; spec/15 R385 to R406; spec/16 R440;
spec/17 R451; spec/18 R482 to R484). -/
namespace Sys2Proof.Machine

/-! ### Port buffers (R249) -/

/-- The ports of a cluster in the turn in which the central FIFO serves them. (DEDUCED, notes/assumptions/36.md) -/
def portTurn (k : Fin 8) (after : Fin 8) : List (Fin 64) :=
  (List.range 8).map (fun i => portOf k ⟨(after.val + 1 + i) % 8, by omega⟩)

/-- R249: the port whose record moves next: ports of SP.UPORTS first. (DEDUCED, notes/assumptions/36.md) -/
def State.nextBuffer (s : State) (k : Fin 8) : Option (Fin 64) :=
  let order := portTurn k s.clusters[k].turn
  let full (p : Fin 64) : Bool := !s.ports[p].buffer.isEmpty
  match order.find? (fun p => full p && s.sp.uports.contains p) with
  | some p => some p
  | none => order.find? full

/-- R147: bit 7 of the flags says that a record is of class U. -/
def StampRec.uclass (r : StampRec) : Bool := r.flags.getLsbD 7

/-- R144, R145: a stamp record arrives at its partition. -/
def arriveStamp (r : StampRec) (s : State) : State :=
  let fits := if r.uclass then decide (s.fifo.uUsed < uSlots) else s.fifo.fitsB [.stamp r]
  let x := if r.uclass then s.fifo.pushU (.stamp r) else s.fifo.pushB [.stamp r]
  let s := overflowStarted ({ s with fifo := x.1 }, x.2)
  if fits then s
  else s.modPort r.port (fun q => { q with counts := { q.counts with drops := q.counts.drops + 1 } })

/-- A record of a cluster moves into the central FIFO. -/
def takeRecord (k : Fin 8) (s : State) : State :=
  match s.nextBuffer k with
  | none => s
  | some p =>
    match s.ports[p].buffer with
    | [] => s
    | r :: rest =>
      arriveStamp r ((s.modPort p (fun q => { q with buffer := rest })).modCluster k (fun c => { c with turn := portIn p }))

/-- R249: in every fabric cycle at most one record of a cluster moves. (DEDUCED, notes/assumptions/36.md) -/
def moveRecord (k : Fin 8) (s : State) : State :=
  if s.clusters[k].moved = some s.cycle then s
  else takeRecord k (s.modCluster k (fun c => { c with moved := some s.cycle }))

/-- R392: the port buffers of a cluster are emptied into the FIFO: at most 256 records. -/
def emptyBuffers (k : Fin 8) : Nat → State → State
  | 0, s => s
  | n + 1, s => if (s.nextBuffer k).isNone then s else emptyBuffers k n (takeRecord k s)

/-! ### The end of service -/

/-- An output of the cluster is on. (DEDUCED, notes/assumptions/52.md) -/
def anyOutput (k : Fin 8) (s : State) : Bool := (portsOf k).any (fun p => s.ports[p].cfg.output)

/-- R251, R334, R393: what a port loses when its cluster leaves ACTIVE: conversions that are no records yet, held ECHO
results and triggers that are not decided. (DEDUCED, notes/assumptions/30.md, 37.md) -/
def Port.leaveActive (t : TimeWord) (q : Port) : Port :=
  { q with stage := [], gated := [], heldEcho := [], pads := [], fires := [], emitted := [], blind := openBlind t q.blind }

/-- A cluster's time in ACTIVE ends at the first tick of the present fabric cycle. -/
def leaveActive (k : Fin 8) (s : State) : State :=
  if s.clusters[k].state ≠ .active then s
  else
    let t := s.cycle
    let s := s.modCluster k (fun c => { c with span := c.span.map (fun x => (x.1, some t)) })
    foldS (portsOf k) (fun p s => s.modPort p (Port.leaveActive t)) s

/-- R404 step 1: every queue entry is removed and every tone stops at once. (DEDUCED, notes/assumptions/30.md, 37.md) -/
def Port.endWork (q : Port) : Port :=
  { q with queue := [], tone := Tone.default, outHigh := false, outHeld := none, stage := [], gated := [], heldEcho := [],
           pads := [], fires := [], emitted := [] }

/-- The queue entries of a cluster. -/
def State.queued (s : State) (k : Fin 8) : Nat := ((portsOf k).map (fun p => s.ports[p].queue.length)).sum

/-- R404 steps 1 and 2, R405, R406, R496: the work of a cluster ends. st: the state it takes.
(DEDUCED, notes/assumptions/49.md) -/
def endWork (k : Fin 8) (st : ClState) (s : State) : State :=
  let s := leaveActive k s
  let s := foldS (portsOf k) (fun p s => s.modPort p Port.endWork) s
  let s := s.modCluster k (fun c =>
    { c with state := st, phase := .none, window := none, fix := none, joinProv := [], calTurn := false, calDone := false,
             short := false })
  mfFollowAll s.cycle (emptyBuffers k 256 s)

/-- DRAINEMITTED and DISCARDED are at most 512. -/
def cap512 (n : Nat) : Nat := min 512 n

/-! ### The end of the start-up sequence and of a wake -/

/-- R484: the cluster is settled. -/
def Cluster.settled (c : Cluster) : Bool :=
  match c.state with
  | .active | .joining => true
  | .off => (match c.offCause with | .drain | .command | .fault => true | _ => false)
  | _ => false

/-- R484: the start-up sequence ends. -/
def startupEnd (s : State) : State :=
  match s.boot.stage with
  | .clusters =>
    if s.clusters.toList.all Cluster.settled then
      (s.modBoot (fun b => { b with stage := .done })).modBel (fun b => { b with readyHigh := true })
    else s
  | _ => s

/-- R440, R441: the wake ends once no woken cluster is on its way to ACTIVE. (DEDUCED, notes/assumptions/62.md) -/
def wakeEnd (s : State) : State :=
  match s.bel.step with
  | .locked =>
    if s.clusters.toList.any (fun c => c.short) then s
    else s.modBel (fun b => { b with step := .awake, readyHigh := true })
  | _ => s

/-! ### Quarantine -/

/-- R451: a follower that is not stepped holds quarantine before ALIGN. -/
def State.alignHeld (s : State) : Bool :=
  decide (s.sync.role = .follower) && (match s.sync.state with | .hunt | .stepwait => true | _ => false)

/-- R451: the clusters whose calibration is complete begin ALIGN unless the follower holds them.
(DEDUCED, notes/assumptions/50.md) -/
def startAligns (s : State) : State :=
  if s.alignHeld then s
  else
    let go (c : Cluster) : Cluster :=
      if c.state = .quarantine && c.phase = .calibrate && c.calDone then { c with phase := .align, calDone := false } else c
    { s with clusters := updAll s.clusters (fun _ c => go c) }

/-- R482: the calibration of a cluster is still to come in this quarantine. (DEDUCED, notes/assumptions/50.md) -/
def Cluster.beforeAlign (c : Cluster) : Bool :=
  decide (c.state = .quarantine) && (match c.phase with | .powerup => true | .calibrate => !c.calDone | _ => false)

/-- R482: the clusters whose turn to calibrate has come: those with no earlier pair before ALIGN.
(DEDUCED, notes/assumptions/50.md) -/
def nextTurns (s : State) : State :=
  let free (k : Fin 8) : Bool :=
    (List.finRange 8).all (fun j => !(decide (j.val / 2 < k.val / 2) && (s.clusters[j]).beforeAlign))
  let go (k : Fin 8) (c : Cluster) : Cluster :=
    if c.state = .quarantine && !c.calTurn && free k then { c with calTurn := true } else c
  { s with clusters := updAll s.clusters go }

/-- R385, R386: a cluster enters QUARANTINE; a powered bank has been measured. turn: its calibration does not wait for other
clusters. (DEDUCED, notes/assumptions/51.md) -/
def quarantine (k : Fin 8) (ph : ClPhase) (turn : Bool) (s : State) : State :=
  let s := s.modCluster k (fun c =>
    { c with state := .quarantine, phase := ph, powered := true, offCause := .none, fix := none, joinProv := [], calTurn := turn,
             calDone := false, short := false, window := none, vddio := c.bank })
  raise (evCluster k 1) Flags.none s

/-- R237: the supplies that a standard admits. (DEDUCED, notes/assumptions/52.md) -/
def admits (x : IoStd) (v : Vddio) : Bool :=
  match x, v with
  | .lvds, .v18 | .lvds, .v25 | .slvs400, .v18 | .slvs400, .v25 | .lvcmos18, .v18 | .lvcmos25, .v25 | .lvcmos33, .v33 => true
  | _, _ => false

/-- R405: a cluster fault. -/
def faultCluster (k : Fin 8) (cause : FaultCause) (s : State) : State :=
  if s.clusters[k].state = .off then s
  else
    let n := s.queued k
    let s := endWork k .off s
    let s := s.modCluster k (fun c => { c with offCause := .fault, faultCause := cause, discarded := cap512 n })
    wakeEnd (startupEnd (nextTurns (raise (evCluster k 3) Flags.none s)))

/-- R507: the class of a bank supply, from its reading in mV. (DEDUCED, notes/assumptions/52.md)
(DESIGN CHOICE, notes/assumptions/83.md) -/
def bankClass (mv : Nat) : Vddio :=
  if 1620 ≤ mv ∧ mv ≤ 1980 then .v18 else if 2250 ≤ mv ∧ mv ≤ 2750 then .v25 else if 2970 ≤ mv ∧ mv ≤ 3630 then .v33 else .none

/-- R387: the POWERUP phase ends; the bank is measured. (DEDUCED, notes/assumptions/51.md) -/
def powerupDone (k : Fin 8) (mv : Nat) (s : State) : State :=
  let c := s.clusters[k]
  if c.state = .quarantine && c.phase = .powerup then
    nextTurns (s.modCluster k (fun c => { c with phase := .calibrate, vddio := bankClass mv, bank := bankClass mv }))
  else s

/-- R356, R352: the hits of a calibration outside the rota. -/
def calHits (short : Bool) : Nat := if short then 65536 else fullHits

/-- R356: the measurements of a DTC point outside the rota. -/
def calTimes (short : Bool) : Nat := if short then 16 else 64

/-- R356: a sample holds the hits and the measurements of every DTC point that the calibration takes.
(DEDUCED, notes/assumptions/50.md) -/
def calEnough (short : Bool) (x : CalSample) : Bool :=
  let a := measured (calHits short) (calTimes short) x
  decide (a.total = calHits short) && decide (a.points.length = 250)

/-- R356: the table set that a FULL or SHORT calibration gives a port. -/
def calibrated (short : Bool) (q : Port) (x : CalSample) (t : TimeWord) : TableSet :=
  tableOf { q with table := none } (measured (calHits short) (calTimes short) x) (if short then .short else .full) t x.temp

/-- R356, R405, R440, R451, R482: the CALIBRATE phase ends with what was measured on the eight ports.
(DEDUCED, notes/assumptions/50.md) -/
def calibrateDone (k : Fin 8) (xs : List CalSample) (s : State) : State :=
  let c := s.clusters[k]
  let pairs := (portsOf k).zip xs
  let enough := decide (pairs.length = 8) && pairs.all (fun (_, x) => calEnough c.short x)
  if !(decide (c.state = .quarantine) && decide (c.phase = .calibrate) && c.calTurn && !c.calDone && !s.steward.absent &&
      s.tbLocked && enough) then s
  else
    let t := s.cycle
    let sets := pairs.map (fun (p, x) => (p, calibrated c.short s.ports[p] x t))
    if !c.short && sets.any (fun (_, x) => !tableFits x) then faultCluster k .calfail s
    else
      let s := foldS sets (fun x s => putTable x.1 x.2 s) s
      let s := raiseAt evTableSwap s.cycle 8 Flags.none s
      startAligns (nextTurns (s.modCluster k (fun c => { c with calDone := true })))

/-- R398, R399: a cluster enters JOINING. (DEDUCED, notes/assumptions/31.md) -/
def enterJoining (k : Fin 8) (s : State) : State :=
  startupEnd (fixJoin k s.cycle (s.modCluster k (fun c => { c with state := .joining, phase := .none })))

/-- R395, R398, R405: the ALIGN phase ends. (DEDUCED, notes/assumptions/52.md) -/
def alignDone (k : Fin 8) (verified : Bool) (s : State) : State :=
  let c := s.clusters[k]
  if !(decide (c.state = .quarantine) && decide (c.phase = .align)) then s
  else if !verified then faultCluster k .align s
  else if anyOutput k s && !admits c.iostd c.vddio then faultCluster k .banksupply s
  else if c.joinAt.isNone then s.modCluster k (fun c => { c with phase := .waitjoin })
  else enterJoining k s

/-! ### Entry to ACTIVE -/

/-- The join instant of a JOINING cluster, once it is bound. -/
def Cluster.joinInstant (c : Cluster) : Option TimeWord :=
  match c.fix with
  | some (.fixed j) => some j
  | some (.axis _ _ _ j true _) => some j
  | _ => none

/-- R333, R340: what a port takes up when its cluster enters ACTIVE. (DESIGN CHOICE, notes/assumptions/14.md) -/
def Port.enterActive (p : Fin 64) (t : TimeWord) (q : Port) : Port :=
  { q with due := t, lateSeen := false, laneFrom := t, samples := (⟨t, Config.staticLevel p.val t⟩ :: q.samples).take 16,
           blind := if q.cfg.mode = .gate then closeBlind t q.blind else q.blind }

/-- R401: a JOINING cluster whose join instant has come enters ACTIVE. -/
def enterActive (k : Fin 8) (s : State) : State :=
  let s := commitJoin k s
  let c := s.clusters[k]
  match c.state, c.joinInstant with
  | .joining, some j =>
    if !tnotBefore s.tb.now j then s
    else
      let t := s.cycleFrom j
      if !tnotBefore s.tb.now t then s
      else
        let fl := Flags.ofFrames c.joinProv
        let s := s.modCluster k (fun c =>
          { c with state := .active, phase := .none, joinAt := none, fix := none, joinProv := [],
                   epoch := if c.entered then c.epoch + 1 else c.epoch, entered := true, entries := c.entries + 1,
                   short := false, span := some (t, none) })
        let s := foldS (portsOf k) (fun p s => s.modPort p (Port.enterActive p t)) s
        let s := raiseAt (evCluster k 0) t 1 fl s
        wakeEnd (startupEnd (mfFollowAll t s))
  | _, _ => s

/-! ### Drain -/

/-- R389: the leading edge of an entry, bound or predicted. -/
def State.leadOf (s : State) (x : Pulse) : Option TimeWord :=
  match x.lead with
  | some l => some l
  | none => match x.axisFrame with
    | some (a, n, o) => (s.axes[a].frameStart n).map (fun f => tadd f o)
    | none => none

/-- R389: the entries of a port that a drain removes. (DEDUCED, notes/assumptions/30.md) -/
def drainPort (discard : Bool) (wait : Nat) (p : Fin 64) (s : State) : State :=
  let c := s.cycle
  let goes (x : Pulse) : Bool :=
    if discard then !x.isCommitted c
    else match s.leadOf x with | some l => decide ((wait : Int) < tdiff l c) | none => false
  let n := (s.ports[p].queue.filter goes).length
  countRemoved p n (s.modPort p (fun q => { q with queue := q.queue.filter (fun x => !goes x) }))

/-- R389: DRAIN takes effect. (DEDUCED, notes/assumptions/49.md) -/
def drainCluster (k : Fin 8) (discard : Bool) (s : State) : State :=
  let c := s.clusters[k]
  match c.state with
  | .active =>
    let s := leaveActive k s
    let s := s.modCluster k (fun c => { c with state := .draining, emittedSoFar := 0, removedSoFar := 0 })
    let s := foldS (portsOf k) (drainPort discard c.drainWait) s
    let s := foldS (portsOf k) (fun p s => if s.ports[p].toneArmed then disarmPort p s else s) s
    mfFollowAll s.cycle s
  | .draining => if discard then foldS (portsOf k) (drainPort true c.drainWait) s else s
  | _ => s

/-- R390: a tone completes its level; x: the present instant of the tick domain. -/
def Port.completing (q : Port) (x : Int) : Bool :=
  !q.tone.running && (match q.tone.hold with | some h => h.holds x | none => false)

/-- The end of a drain (R390). -/
def drainEnd (k : Fin 8) (extra : Nat) (s : State) : State :=
  let s := s.modCluster k (fun c =>
    { c with state := .off, phase := .none, offCause := .drain, drainEmitted := cap512 c.emittedSoFar,
             discarded := cap512 (c.removedSoFar + extra), window := none })
  startupEnd (foldS (portsOf k) (fun p s => s.modPort p (fun q => { q with outHeld := none })) s)

/-- R390: DRAINING ends. (DEDUCED, notes/assumptions/49.md) -/
def drainComplete (k : Fin 8) (s : State) : State :=
  let idle := (portsOf k).all (fun p => s.ports[p].queue.isEmpty && !s.ports[p].completing (s.tu s.tb.now))
  if s.clusters[k].state = .draining && idle then drainEnd k 0 s else s

/-! ### Power, reset, LOCKLOSS -/

/-- R357, R391: a gated cluster loses its tables. -/
def Port.gate (q : Port) : Port := { q with table := none, lastGen := none, accum := CalAccum.empty, q := 0 }

/-- R391: POWER cluster OFF. -/
def powerOffCluster (k : Fin 8) (s : State) : State :=
  let s := match s.clusters[k].state with
    | .quarantine | .joining =>
      (endWork k .off s).modCluster k (fun c => { c with offCause := .command })
    | _ => s
  if s.clusters[k].state ≠ .off then s
  else
    let s := emptyBuffers k 256 s
    let s := s.modCluster k (fun c => { c with joinAt := none, fix := none, powered := false, vddio := .none, bank := .none })
    let s := foldS (portsOf k) (fun p s => s.modPort p Port.gate) s
    wakeEnd (startupEnd (nextTurns s))

/-- R404 step 3: the properties of class C of a port and its SEQ; class K and H are kept. -/
def Port.clusterReset (q : Port) : Port :=
  { Port.default with table := q.table, lastGen := q.lastGen, accum := q.accum, q := q.q, due := q.due, level := [],
                      samples := q.samples, blind := q.blind, overrange := q.overrange, ovSpans := q.ovSpans,
                      counts := { PortCounts.zero with drops := q.counts.drops },
                      latched := { PortCounts.zero with drops := q.latched.drops } }

/-- R9, R404 step 3, for a cluster and its ports. CLk.VDDIO reads NONE until QUARANTINE, in which the device measures the
bank (spec/21). (DEDUCED, notes/assumptions/51.md) -/
def resetValues (k : Fin 8) (s : State) : State :=
  let s := s.modCluster k (fun c => { c with iostd := .lvds, vddio := .none })
  foldS (portsOf k) (fun p s => s.modPort p Port.clusterReset) s

/-- R404: cluster RESET. (DEDUCED, notes/assumptions/51.md) -/
def resetCluster (k : Fin 8) (s : State) : State :=
  let n := s.queued k
  let off := decide (s.clusters[k].state = .off)
  let s := if off then emptyBuffers k 256 s else endWork k s.clusters[k].state s
  let s := (resetValues k s).modCluster k (fun c => { c with discarded := cap512 n })
  if off then s else wakeEnd (nextTurns (quarantine k .calibrate true s))

/-- R392: POWER cluster ON. -/
def powerOnCluster (k : Fin 8) (s : State) : State :=
  let c := s.clusters[k]
  if c.state ≠ .off then s
  else if c.powered then quarantine k .calibrate true s
  else quarantine k .powerup true (resetValues k (emptyBuffers k 256 s))

/-- R405, R507: what the supply monitors of a cluster report; mv: the reading of its bank.
(DEDUCED, notes/assumptions/52.md) -/
def clusterFault (k : Fin 8) (cause : FaultCause) (mv : Nat) (s : State) : State :=
  let c := s.clusters[k]
  let v := bankClass mv
  match cause with
  | .coresupply => if c.powered then faultCluster k .coresupply s else s
  | .banksupply =>
    if !c.powered || decide (v = c.bank) then s
    else
      let bad := anyOutput k s || (admits c.iostd c.bank && !admits c.iostd v)
      let s := s.modCluster k (fun c => { c with vddio := v, bank := v })
      if bad then faultCluster k .banksupply s else s
  | _ => s

/-- R406: LOCKLOSS on a cluster. -/
def clusterLockloss (k : Fin 8) (s : State) : State :=
  let c := s.clusters[k]
  let n := s.queued k
  match c.state with
  | .off => s
  | .draining => drainEnd k n (endWork k .draining s)
  | _ => (endWork k .off s).modCluster k (fun c => { c with offCause := .lockloss, discarded := cap512 n })

def clustersLockloss (s : State) : State := eachFin 8 clusterLockloss s

/-- R406, R482: the timebase locks. -/
def clusterLock (k : Fin 8) (s : State) : State :=
  let c := s.clusters[k]
  match c.state, c.offCause with
  | .off, .startup =>
    let s := quarantine k .powerup false s
    s.modCluster k (fun c => { c with joinAt := match c.joinAt with | none => some .next | some j => some j })
  | .off, .lockloss => (quarantine k .calibrate true s).modCluster k (fun c => { c with joinAt := some .next })
  | _, _ => s

def clustersLock (s : State) : State := nextTurns (eachFin 8 clusterLock s)

/-- R440 step 2: a woken cluster enters QUARANTINE with its properties; its occurrence waits for the fabric. -/
def wakeCluster (k : Fin 8) (s : State) : State :=
  happen (evCluster k 1) 1 (s.modCluster k (fun c =>
    { c with state := .quarantine, phase := .powerup, powered := true, offCause := .none, fix := none, joinProv := [],
             joinAt := some .next, calTurn := true, calDone := false, short := true, window := none }))

/-! ### JOIN (R398, R399) -/

/-- A join point is set. -/
def joinCluster (k : Fin 8) (jp : JoinPoint) (s : State) : State :=
  let s := s.modCluster k (fun c => { c with joinAt := some jp })
  let c := s.clusters[k]
  match c.state, c.phase with
  | .joining, _ => fixJoin k s.cycle (s.modCluster k (fun c => { c with fix := none, joinProv := [] }))
  | .quarantine, .waitjoin => enterJoining k s
  | _, _ => s

end Sys2Proof.Machine
end

