-- ==== Sys2Proof/Machine/Fifo.lean ====
section
/-! DEFINITION. The central FIFO over time: frames in progress that reach their end, and the ends of overflow episodes (spec/05
R131 to R133, R144, R145). -/
namespace Sys2Proof.Machine

/-! ### The end of overflow episodes (R145) -/

def overflowRec (t : TimeWord) (u : Bool) (d : DropRec) : FifoRec := .overflow t d.source u d.firstSeq d.drops

/-- R145: the B episode ends with 1024 free slots. -/
def endB (s : State) : State :=
  match s.fifo.bEpisode with
  | some ds =>
    if s.fifo.bUsed + 1024 ≤ bSlots then
      let t := s.tb.now
      let s := s.modFifo (fun f => { f with bEpisode := none, overflows := f.overflows ++ ds.map (overflowRec t false) })
      if ds.any (fun d => decide (d.source = 65)) then s.modSp (fun p => { p with lastMark := none }) else s
    else s
  | none => s

/-- R145: the U episode ends with 16 free slots of its own and room for its records. -/
def endU (s : State) : State :=
  match s.fifo.uEpisode with
  | some ds =>
    if s.fifo.uUsed + 16 ≤ uSlots && decide (s.fifo.bUsed + ds.length ≤ bSlots) then
      let t := s.tb.now
      s.modFifo (fun f => { f with uEpisode := none, overflows := f.overflows ++ ds.map (overflowRec t true) })
    else s
  | none => s

/-- R145: the episodes of both partitions that end. (DEDUCED, notes/assumptions/55.md) -/
def overflowEnds (s : State) : State := endU (endB s)

/-- An episode is open, so that a cycle with room ends it. -/
def Fifo.inEpisode (f : Fifo) : Bool := f.bEpisode.isSome || f.uEpisode.isSome

/-! ### Frames in progress (R131, R133) -/

/-- d ticks pass on the transmit lanes. -/
def ageLanes (d : Nat) (s : State) : State :=
  let lane (l : TxLane) : TxLane := { l with busy := l.busy - d }
  let fly (x : Flight) : Flight := { x with left := x.left - d }
  if s.fifo.flights.isEmpty && s.sp.lanes.toList.all (fun l => decide (l.busy = 0)) then s
  else (s.modSp (fun p => { p with lanes := p.lanes.map lane })).modFifo (fun f => { f with flights := f.flights.map fly })

/-- R133, R145: the frames whose EOF has been sent are counted and free their slots, which may end an overflow episode.
(DEDUCED, notes/assumptions/54.md) -/
def landFlights (s : State) : State :=
  let done (x : Flight) : Bool := decide (x.left = 0)
  let n := s.fifo.flights.countP done
  if n = 0 then s
  else
    let s := s.modFifo (fun f => { f with flights := f.flights.filter (fun x => !done x) })
    overflowEnds (s.modSp (fun p => { p with frames := p.frames + BitVec.ofNat 48 n }))

end Sys2Proof.Machine
end

