-- ==== Sys2Proof/Machine/Instants.lean ====
section
/-! DEFINITION. The instants that the state holds for what is still to come, on a scale that moves (spec/17 R450), and kept
within the reach of the comparison of R16. -/
namespace Sys2Proof.Machine

def LevelChange.mapTime (f : TimeWord → TimeWord) (c : LevelChange) : LevelChange := { c with time := f c.time }
def MfEdge.mapTime (f : TimeWord → TimeWord) (e : MfEdge) : MfEdge := { e with time := f e.time }
def OvSpan.mapTime (f : TimeWord → TimeWord) (v : OvSpan) : OvSpan := ⟨f v.a, v.z.map f⟩
def Settling.mapTime (f : TimeWord → TimeWord) (x : Settling) : Settling := { x with since := f x.since }

/-- The instants that a port holds. -/
def Port.mapInstants (f : TimeWord → TimeWord) (q : Port) : Port :=
  { q with lastTrail := q.lastTrail.map f, laneFrom := f q.laneFrom, arms := q.arms.map (fun a => (f a.1, a.2)),
           lastConv := q.lastConv.map f, taken := q.taken.map f, level := q.level.map (LevelChange.mapTime f),
           samples := q.samples.map (LevelChange.mapTime f), blind := q.blind.map (fun b => (f b.1, b.2.map f)),
           ovSpans := q.ovSpans.map (OvSpan.mapTime f), due := f q.due,
           settling := q.settling.map (Settling.mapTime f) }

def MfState.mapInstants (f : TimeWord → TimeWord) : MfState → MfState
  | .armed i l => .armed (f i) l
  | x => x

def Mf.mapInstants (f : TimeWord → TimeWord) (x : Mf) : Mf :=
  { x with edges := x.edges.map (MfEdge.mapTime f), starts := x.starts.map (MfEdge.mapTime f), fell := x.fell.map f,
           state := x.state.mapInstants f }

/-- The comparisons that a checker still has to make (R333). -/
def Ag.mapInstants (f : TimeWord → TimeWord) (x : Ag) : Ag :=
  let w (y : AgWord) : AgWord := { y with start := f y.start }
  { x with past := x.past.map (fun p => { p with due := p.due.map w }) }

def Trg.mapInstants (f : TimeWord → TimeWord) (x : Trg) : Trg := { x with level := x.level.map (LevelChange.mapTime f) }

def JoinFix.mapInstants (f : TimeWord → TimeWord) : JoinFix → JoinFix
  | .edge e => .edge (f e)
  | x => x

def Cluster.mapInstants (f : TimeWord → TimeWord) (x : Cluster) : Cluster :=
  { x with span := x.span.map (fun v => (f v.1, v.2.map f)), moved := x.moved.map f, fix := x.fix.map (JoinFix.mapInstants f) }

/-- The instants that the state holds, other than those of live groups. -/
def State.mapInstants (f : TimeWord → TimeWord) (s : State) : State :=
  let d (x : Delivery) : Delivery := { x with cycle := f x.cycle }
  let a (x : Assembly) : Assembly := { x with lastArrival := f x.lastArrival }
  let i (x : Axis) : Axis := { x with lastUsable := x.lastUsable.map f }
  { s with ports := s.ports.map (Port.mapInstants f)
           mfs := s.mfs.map (Mf.mapInstants f)
           trgs := s.trgs.map (Trg.mapInstants f)
           clusters := s.clusters.map (Cluster.mapInstants f)
           axes := s.axes.map i
           ags := s.ags.map (Ag.mapInstants f)
           fabric := { s.fabric with
             transit := s.fabric.transit.map d, recent := s.fabric.recent.map (fun r => (r.1, f r.2.1, r.2.2)) }
           sp := { s.sp with lane0Quiet := f s.sp.lane0Quiet, trainFrom := f s.sp.trainFrom, assemblies := s.sp.assemblies.map a } }

/-! ### Instants of long ago -/

/-- Instants are held no further back than this, well within the 2^63 tu that R16 tells from the future.
(DESIGN CHOICE, notes/assumptions/89.md) -/
def agesTu : Int := 2 ^ 62

/-- An instant, once d tu more have passed since now: one of long ago stays one of long ago.
(DESIGN CHOICE, notes/assumptions/89.md) -/
def renewInstant (now : TimeWord) (d : Int) (w : TimeWord) : TimeWord :=
  if agesTu < tdiff now w + d then tadd now (d - agesTu) else w

/-- The granule grid of a group, begun again from one of its boundaries (R309). (DESIGN CHOICE, notes/assumptions/89.md) -/
def renewGrid (now : TimeWord) (d : Int) (w : TimeWord) : TimeWord :=
  let age := tdiff now w + d
  if agesTu < age then tadd w ((age - agesTu) / (granuleTu : Int) * (granuleTu : Int)) else w

def Waiting.renew (f : TimeWord → TimeWord) : Waiting → Waiting
  | .wait on b none halts ends => .wait on (f b) none halts ends
  | x => x

def Group.renew (now : TimeWord) (d : Int) (x : Group) : Group :=
  let f := renewInstant now d
  { x with grid := renewGrid now d x.grid, waitFrom := f x.waitFrom, counted := x.counted.map (fun b => { b with time := f b.time }),
           waiting := x.waiting.map (Waiting.renew f) }

/-- The instants of the state before d ticks pass. (DESIGN CHOICE, notes/assumptions/89.md) -/
def State.renew (d : Nat) (s : State) : State :=
  let t := s.mapInstants (renewInstant s.tb.now (d * tickTu))
  { t with groups := t.groups.map (Group.renew s.tb.now (d * tickTu)) }

/-- The ticks after which the instants are looked at again. (DESIGN CHOICE, notes/assumptions/89.md) -/
def renewTicks : Nat := 2 ^ 48

/-- Before d ticks pass the instants are renewed where a stretch of renewTicks ends among them.
(DESIGN CHOICE, notes/assumptions/89.md) -/
def State.renewed (s : State) (d : Nat) : State :=
  if s.tb.ticks / renewTicks = (s.tb.ticks + d) / renewTicks then s else s.renew d

end Sys2Proof.Machine
end

