-- ==== Sys2Proof/Machine/Fabric.lean ====
section
/-! DEFINITION. Snapshots, route deliveries, the actions of the tasks on the assertions of a fabric cycle, and the passing of
time (spec/02 R44; spec/03 R82 to R84; spec/10 R279 to R290; spec/19 R493). -/
namespace Sys2Proof.Machine

/-! ### Snapshots (R44, R82, R190) -/

/-- R190: what SNAP.FRAME, INDEX, PERIOD and ERROR take at the snapshot tick. -/
def Axis.snap (x : Axis) (w : TimeWord) : AxisSnap :=
  let period := divEven x.period periodOne
  let at_ (n : Frame) (i : TimeWord) : AxisSnap := ⟨some n, some i, period, x.lastError⟩
  let unnumbered (i : Option TimeWord) : AxisSnap := ⟨none, i, period, x.lastError⟩
  match x.state with
  | .lost => unnumbered none
  | .acquire => unnumbered x.lastTaken
  | _ => match x.anchor, x.currentFrame w with
    | some an, some n => match x.cfg.mode with
      | .free => at_ n (x.freeStart n)
      | _ => at_ n (if n = an.n then an.a else predictFrom an x.period n)
    | _, _ => unnumbered x.lastTaken

/-- R44, R83, R84: a snapshot on a tick: every moving value is latched. (DESIGN CHOICE, notes/assumptions/88.md) -/
def snapshotAt (w : TimeWord) (s : State) : State :=
  let lp (q : Port) : Port := { q with latched := q.counts }
  let lt (t : Task) : Task := { t with latchedCollide := t.collide, latchedDrops := t.drops }
  let la (x : Axis) : Axis := { x with latched := x.snap w }
  let lm (f : Mf) : Mf := { f with latchedStats := f.stats, latchedEarly := f.early }
  let lg (a : Ag) : Ag := { a with latchedBits := a.bits, latchedErrors := a.errors }
  let tb := s.tb
  { s with ports := s.ports.map lp, tasks := s.tasks.map lt, axes := s.axes.map la, mfs := s.mfs.map lm,
           ags := s.ags.map lg, sp := { s.sp with latchedFrames := s.sp.frames },
           tb := { tb with snapTime := w, snapSeq := tb.snapSeq + 1 } }

/-! ### Deliveries (R283, R284, R289, R290) -/

/-- R289, R290: a delivery reaches its task. -/
def receive (d : Delivery) (s : State) : State :=
  if !s.taskOpen d.task then dropDelivery d.task d.sub s
  else if s.tasks[d.task].confOnly && !d.flags.prov.isEmpty then
    if d.flags.prov.any s.deadFrame then dropDelivery d.task d.sub s
    else if s.allDecided d.flags.prov then
      assertTask d.task (some d.sub) ⟨[], false, d.flags.shifted || s.shiftedBy d.flags.prov⟩ s
    else if 4 ≤ (s.fabric.held.filter (fun h => decide (h.task = d.task) && decide (h.sub = d.sub))).length then
      dropDelivery d.task d.sub s
    else s.modFabric (fun f => { f with held := f.held ++ [⟨d.task, d.sub, d.flags, d.flags.prov, d.flags.shifted⟩] })
  else assertTask d.task (some d.sub) d.flags s

/-- R283, R284: the deliveries over U routes that are due in the present fabric cycle, the third after their own.
(DEDUCED, notes/assumptions/43.md) -/
def deliverDue (s : State) : State :=
  let due (d : Delivery) : Bool := d.isU && decide (d.left = 0)
  if s.fabric.transit.any due then
    foldS (s.fabric.transit.filter due) receive (s.modFabric (fun f => { f with transit := f.transit.filter (fun d => !due d) }))
  else s

/-- R283, R284: an S route delivers the k-th assertion in transit, three or more cycles after it was made, after the earlier
ones of its source and after the U routes. -/
def routeDelivery (k : Nat) (s : State) : State :=
  let s := deliverDue s
  match s.fabric.transit[k]? with
  | none => s
  | some d =>
    let earlier := (s.fabric.transit.take k).any (fun e => decide (e.src = d.src) && decide (e.task = d.task))
    if earlier || d.isU || decide (d.left ≠ 0) then s
    else receive d (s.modFabric (fun f => { f with transit := f.transit.eraseIdx k }))

/-! ### Tasks (R279) -/

/-- R279: what a task input is. -/
inductive TaskKind
  | fire (p : Fin 64) | arm (p : Fin 64) | disarm (p : Fin 64) | gate (p : Fin 64)
  | gStart (g : Fin 8) | gStep (g : Fin 8) | gStop (g : Fin 8)
  | mfStart (m : Fin 16) | mfAbort (m : Fin 16) | mark (a : Fin 4)
  | calHold | calResume | flush | snapshot
  deriving DecidableEq, Repr

/-- R279: the table of the task inputs. -/
def taskKind (t : Fin 320) : TaskKind :=
  if h : t.val < 256 then
    let p : Fin 64 := ⟨t.val / 4, by omega⟩
    match t.val % 4 with | 0 => .fire p | 1 => .arm p | 2 => .disarm p | _ => .gate p
  else if h2 : t.val < 280 then
    let g : Fin 8 := ⟨(t.val - 256) / 3, by omega⟩
    match (t.val - 256) % 3 with | 0 => .gStart g | 1 => .gStep g | _ => .gStop g
  else if h3 : t.val < 312 then
    let m : Fin 16 := ⟨(t.val - 280) / 2, by omega⟩
    match (t.val - 280) % 2 with | 0 => .mfStart m | _ => .mfAbort m
  else if h4 : t.val < 316 then .mark ⟨t.val - 312, by omega⟩
  else match t.val with | 316 => .calHold | 317 => .calResume | 318 => .flush | _ => .snapshot

/-- The number of a task input. -/
def TaskKind.task : TaskKind → Fin 320
  | .fire p => ⟨4 * p.val, by omega⟩
  | .arm p => ⟨4 * p.val + 1, by omega⟩
  | .disarm p => ⟨4 * p.val + 2, by omega⟩
  | .gate p => ⟨4 * p.val + 3, by omega⟩
  | .gStart g => ⟨256 + 3 * g.val, by omega⟩
  | .gStep g => ⟨257 + 3 * g.val, by omega⟩
  | .gStop g => ⟨258 + 3 * g.val, by omega⟩
  | .mfStart m => ⟨280 + 2 * m.val, by omega⟩
  | .mfAbort m => ⟨281 + 2 * m.val, by omega⟩
  | .mark a => ⟨312 + a.val, by omega⟩
  | .calHold => 316 | .calResume => 317 | .flush => 318 | .snapshot => 319

/-- The number of assertions of a task in a cycle, and the union of their flags (R286, R288). -/
def countOf (xs : List Assertion) (k : TaskKind) : Nat := (xs.filter (fun x => decide (x.task = k.task))).length

def flagsOf (xs : List Assertion) (k : TaskKind) : Flags :=
  (xs.filter (fun x => decide (x.task = k.task))).foldl (fun f x => f.union x.flags) Flags.none

/-- R286: COLLIDE of a task rises by n. -/
def collide (k : TaskKind) (n : Nat) (s : State) : State :=
  if n = 0 then s else s.modTask k.task (fun t => { t with collide := t.collide + BitVec.ofNat 48 n })

/-- R286: a pair in which one task wins over the other: its action, and the counts. -/
def decidePair (xs : List Assertion) (win lose : TaskKind) (onWin onLose : State → State) (s : State) : State :=
  let w := countOf xs win
  let l := countOf xs lose
  if 0 < w then collide win (w - 1) (collide lose l (onWin s))
  else if 0 < l then collide lose (l - 1) (onLose s)
  else s

/-- R286, R287: ARM and DISARM of a port. -/
def pairPort (xs : List Assertion) (p : Fin 64) (s : State) : State :=
  decidePair xs (.disarm p) (.arm p) (disarmPort p) (armPort p) s

/-- R281: GATE of a port. -/
def gatePort (xs : List Assertion) (p : Fin 64) (s : State) : State :=
  let a := countOf xs (.gate p)
  if a = 0 then s
  else collide (.gate p) (a - 1) (s.modPort p (fun q => { q with cfg := { q.cfg with record := true } }))

/-- R214, R286, R288: FIRE of a port. Its task trigger comes 40 ns later, with the arm state that this cycle gives the port.
-/
def firePort (xs : List Assertion) (p : Fin 64) (s : State) : State :=
  let a := countOf xs (.fire p)
  if a = 0 then s
  else
    let q := s.ports[p]
    let fl := flagsOf xs (.fire p)
    let s := collide (.fire p) (a - 1) s
    let s := if 2 ≤ a && isPulseMode q.cfg.mode && q.armed then miss p fl s else s
    if isPulseMode q.cfg.mode then
      s.modPort p (fun q => { q with fires := q.fires ++ [⟨taskDelayTu / cycleTu, tadd s.cycle taskDelayTu, q.armed, fl⟩] })
    else s

/-! ### Triggers of a port (R214 to R217) -/

/-- R216: a pad trigger is refused: its edge carries OVD or NBR on its source. -/
def State.refuses (s : State) (t : PadTrig) : Bool :=
  match t.source with | some r => s.ovdAt r t.instant || s.nbrAt r t.instant | none => false

/-- R215 to R217: the pad trigger at the front of a port is decided, by the arm state at its instant.
(DEDUCED, notes/assumptions/43.md) -/
def decidePad (p : Fin 64) (s : State) : State :=
  match s.ports[p].pads with
  | [] => s
  | t :: rest =>
    decideTrigger p (s.ports[p].armedAt t.instant) (s.refuses t) (padTrigger t)
      (s.modPort p (fun q => { q with pads := rest }))

/-- R217: the pad triggers of a port before an instant are decided, in order of trigger instant. -/
def decidePads (p : Fin 64) (limit : TimeWord) : Nat → State → State
  | 0, s => s
  | n + 1, s =>
    match s.ports[p].pads with
    | t :: _ => if tlater limit t.instant then decidePads p limit n (decidePad p s) else s
    | [] => s

/-- R217: within a fabric cycle the pad triggers of a port come first. (DEDUCED, notes/assumptions/43.md) -/
def padsFirst (p : Fin 64) (s : State) : State := decidePads p (tadd s.cycle cycleTu) s.ports[p].pads.length s

/-- R214, R217, R287: a task trigger whose instant has come is decided. (DEDUCED, notes/assumptions/43.md) -/
def decideFire (p : Fin 64) (t : TaskTrig) (s : State) : State :=
  decideTrigger p (t.armed && s.ports[p].armedAt t.instant) false (taskTrigger t s.ports[p].cfg) s

/-- R217: the task trigger of a port whose instant lies in the present fabric cycle, after the pad triggers of the cycle.
(DEDUCED, notes/assumptions/43.md) -/
def fireDue (p : Fin 64) (s : State) : State :=
  match s.ports[p].fires with
  | t :: rest =>
    if t.left = 0 then
      decideFire p t (padsFirst p ((commitPort p s.cycle s).modPort p (fun q => { q with fires := rest })))
    else s
  | [] => s

/-- The task triggers of the present fabric cycle. -/
def firesDue (s : State) : State :=
  if s.ports.toList.any (fun q => q.fires.any (fun t => decide (t.left = 0))) then eachFin 64 fireDue s else s

/-- R286, R308, R310, R317: START, STEP and STOP of a group. -/
def actGroup (xs : List Assertion) (g : Fin 8) (s : State) : State :=
  let stops := countOf xs (.gStop g)
  let starts := countOf xs (.gStart g)
  let steps := countOf xs (.gStep g)
  if 0 < stops then
    collide (.gStop g) (stops - 1) (collide (.gStart g) starts (collide (.gStep g) steps (groupStop g s.cycle s)))
  else
    let s := if 0 < starts then collide (.gStart g) (starts - 1) (groupStart g s.cycle (flagsOf xs (.gStart g)) s)
      else s
    if 0 < steps then
      collide (.gStep g) (steps - 4) (groupStep g (min steps 4) s.cycle (flagsOf xs (.gStep g)) (decide (0 < starts)) s)
    else s

/-- R261, R269, R286: START and ABORT of a measurement frame. -/
def actMf (xs : List Assertion) (m : Fin 16) (s : State) : State :=
  decidePair xs (.mfAbort m) (.mfStart m) (mfAbort m) (mfStartTask m s.cycle) s

/-- R184 to R186: MARK gives an index edge to an axis whose source is MARK. -/
def axisMark (a : Fin 4) (t : TimeWord) (s : State) : State :=
  let x := s.axes[a]
  if decide (x.cfg.mode ≠ .free) && decide (x.cfg.source = .mark) && s.tbLocked && x.spaced t then
    s.modAxis a (fun x => { x with pendIdx := x.pendIdx ++ [t], lastUsable := some t })
  else s

/-- A ONCE task. -/
def actOnce (xs : List Assertion) (k : TaskKind) (act : State → State) (s : State) : State :=
  let a := countOf xs k
  if a = 0 then s else collide k (a - 1) (act s)

/-- R280: the fence. -/
def flushFence (s : State) : State :=
  let t := s.cycle
  let fits := s.fifo.fitsB [timemark t]
  let r := s.fifo.pushB [timemark t]
  let s := overflowStarted ({ s with fifo := r.1 }, r.2)
  if fits then s.modSp (fun p => { p with lastMark := some t }) else s

/-- R290: an assertion of a task of a port whose cluster is not ACTIVE is not made; a delivery is counted as a drop. -/
def admitted (x : Assertion) (r : List Assertion × State) : List Assertion × State :=
  if r.2.taskOpen x.task then (x :: r.1, r.2)
  else (r.1, match x.sub with | some i => dropDelivery x.task i r.2 | none => r.2)

/-- The ports that the assertions of a cycle concern. -/
def portsIn (xs : List Assertion) : List (Fin 64) := (xs.filterMap (fun x => taskPort x.task)).eraseDups

/-- R286, R287, R493: the assertions of the present fabric cycle act. A snapshot that TK319 takes falls on the first tick of
the cycle, with the values as the rest of the cycle leaves them (R44). (DEDUCED, notes/assumptions/41.md, 43.md)
(DESIGN CHOICE, notes/assumptions/88.md) -/
def actAll (s : State) : State :=
  let r := s.fabric.asserted.foldr admitted ([], s.modFabric (fun f => { f with asserted := [] }))
  let xs := r.1
  let ps := portsIn xs
  let s := foldS ps (pairPort xs) r.2
  let s := foldS ps (gatePort xs) s
  let s := foldS ps (firePort xs) s
  let s := eachFin 8 (actGroup xs) s
  let s := eachFin 16 (actMf xs) s
  let s := eachFin 4 (fun a s => actOnce xs (.mark a) (axisMark a s.cycle) s) s
  let s := decidePair xs .calHold .calResume (setHold true) (setHold false) s
  let s := actOnce xs .flush flushFence s
  actOnce xs .snapshot (fun s => snapshotAt s.cycle s) s

/-- R316: at the end of a decision cycle the frames that are decided leave the groups. -/
def pruneProv (s : State) : State :=
  let keep (g : Group) : Group := { g with prov := g.prov.filter (fun f => decide (s.fate f = .pending)) }
  { s with groups := s.groups.map keep }

/-- R217, R283, R286, R493: the deliveries, task assertions and task triggers of the present fabric cycle.
(DEDUCED, notes/assumptions/43.md) -/
def actCycle (s : State) : State :=
  let s := deliverDue s
  firesDue (if s.fabric.asserted.isEmpty then s else actAll s)

/-- R267: one record of every frame that holds any enters the central FIFO. (DEDUCED, notes/assumptions/34.md) -/
def outCycle (s : State) : State := if s.mfs.toList.any (fun f => !f.out.isEmpty) then eachFin 16 mfOut s else s

/-- R401: the clusters whose join instant has come enter ACTIVE. -/
def joinsDue (s : State) : State :=
  if s.clusters.toList.any (fun c => decide (c.state = .joining)) then eachFin 8 enterActive s else s

/-- R390: the drains that are complete end. -/
def drainsDue (s : State) : State :=
  if s.clusters.toList.any (fun c => decide (c.state = .draining)) then eachFin 8 drainComplete s else s

/-- The present fabric cycle up to what its tasks do: entries to ACTIVE come before them (R493).
(DEDUCED, notes/assumptions/43.md) -/
def workCycle (s : State) : State := actCycle (joinsDue s)

/-- The end of the present fabric cycle. (DESIGN CHOICE, notes/assumptions/3.md) (DEDUCED, notes/assumptions/41.md, 43.md) -/
def closeCycle (s : State) : State :=
  let s := drainsDue (pruneProv (outCycle (workCycle s)))
  if s.fifo.inEpisode then overflowEnds s else s

/-! ### Time (R14, R274) -/

/-- R177: the PLL follows its reference, so that the locked history grows. (DEDUCED, notes/assumptions/26.md) -/
def Timebase.follows (t : Timebase) : Bool :=
  decide (t.state = .locked) && (match t.job with | .frozen | .buildOut _ true => false | _ => true)

/-- d ticks pass on the clocks. -/
def Timebase.tick (d : Nat) (t : Timebase) : Timebase :=
  { t with now := t.now + BitVec.ofNat 64 (d * tickTu), phase := (t.phase + d) % 4, ticks := t.ticks + d,
           lockTicks := t.lockTicks + (if t.follows then d else 0) }

/-- d ticks pass, with the frames in progress. -/
def passTicks (d : Nat) (s : State) : State := landFlights (ageLanes d (s.modTb (Timebase.tick d)))

/-- m fabric cycles bring deliveries and task triggers nearer. -/
def ageAll (m : Nat) (s : State) : State :=
  let s := s.modFabric (fun f => { f with transit := f.transit.map (fun d => { d with left := d.left - m }) })
  if s.ports.toList.any (fun q => !q.fires.isEmpty) then
    { s with ports := s.ports.map (fun q => { q with fires := q.fires.map (fun t => { t with left := t.left - m }) }) }
  else s

/-- R401: the fabric cycles until each bound join instant. -/
def State.cyclesToJoins (s : State) : List Nat :=
  s.clusters.toList.filterMap (fun c =>
    match c.state, c.joinInstant with
    | .joining, some j => some ((tdiff (s.cycleFrom j) s.cycle / (cycleTu : Int)).toNat)
    | _, _ => none)

/-- The fabric cycles, at most n and at least one, until one in which something is due.
(DESIGN CHOICE, notes/assumptions/3.md) -/
def cyclesToWork (n : Nat) (s : State) : Nat :=
  let lefts := (s.fabric.transit.filter (fun d => d.isU)).map (fun d => d.left) ++
    s.ports.toList.flatMap (fun q => q.fires.map (fun t => t.left)) ++
    s.fifo.flights.map (fun x => (x.left + 3) / 4) ++ s.cyclesToJoins ++
    (if s.mfs.toList.any (fun f => !f.out.isEmpty) then [1] else [])
  max 1 (lefts.foldl min n)

/-- The present fabric cycle ends, and the m-th after it begins. -/
def passCycles (m : Nat) (s : State) : State := ageAll m (passTicks (4 * m - s.tb.phase) s)

/-- n fabric cycles end. -/
def endCycles : Nat → Nat → State → State
  | 0, _, s => s
  | fuel + 1, n, s =>
    if n = 0 then s
    else
      let s := closeCycle s
      let m := cyclesToWork n s
      endCycles fuel (n - m) (passCycles m s)

/-- d ticks pass. (DESIGN CHOICE, notes/assumptions/1.md) -/
def State.elapse (s : State) (d : Nat) : State :=
  if !s.tb.running || d = 0 then s
  else
    let s := s.renewed d
    let n := (s.tb.phase + d) / 4
    if n = 0 then commitAll (passTicks d s)
    else commitAll (passTicks ((s.tb.phase + d) % 4) (endCycles n n s))

/-- With no command waiting the block idles: one fabric cycle passes (notes/assumptions/2.md).
(DESIGN CHOICE, notes/assumptions/2.md) -/
def idle (s : State) : State := s.elapse 4

end Sys2Proof.Machine
end

