-- ==== Sys2Proof/Machine/AxisRows.lean ====
section
/-! DEFINITION. The meanings of the happenings on the axes and of a route's delivery (spec/07, spec/10). -/
namespace Sys2Proof.Machine

/-- AXIS_INDEX_EDGE (R184). -/
def execAxisIndexEdge (d : Nat) (a : Fin 4) (s : State) : Host.Outcome State Fault Refusal :=
  .next (indexEdge a (s.elapse d))

/-- AXIS_CATCH_TIMEOUT (R197). (DESIGN CHOICE, notes/assumptions/3.md) -/
def execAxisCatchTimeout (d : Nat) (a : Fin 4) (s : State) : Host.Outcome State Fault Refusal :=
  .next (catchTimeout a (s.elapse d))

/-- REACQUIRE_WINDOW_PASS (R199). -/
def execReacquireWindowPass (d : Nat) (a : Fin 4) (s : State) : Host.Outcome State Fault Refusal :=
  .next (reacquirePass a (s.elapse d))

/-- AXIS_COUNT_EDGE (R206). -/
def execAxisCountEdge (d : Nat) (a : Fin 4) (s : State) : Host.Outcome State Fault Refusal :=
  .next (countEdgeFront a (s.elapse d))

/-- FREE_FRAME_START (R208). -/
def execFreeFrameStart (d : Nat) (a : Fin 4) (s : State) : Host.Outcome State Fault Refusal :=
  .next (freeStartEvent a (s.elapse d))

/-- ROUTE_DELIVERY (R283). -/
def execRouteDelivery (d : Nat) (k : Nat) (s : State) : Host.Outcome State Fault Refusal :=
  .next (routeDelivery k (s.elapse d))

end Sys2Proof.Machine
end

