-- ==== Sys2Proof/Machine/Belfry.lean ====
section
/-! DEFINITION. Belfry: its samples and conversions, the rules with their filters and actions, ALERT#, the log, and the frame
counter (spec/16 R422 to R437). -/
namespace Sys2Proof.Machine

def evWake : Fin 384 := 374
def evRule : Fin 384 := 375
def evAlert : Fin 384 := 376
def evLogFull : Fin 384 := 377
def evTempWarn : Fin 384 := 382

/-- R427: a time in µs as a number of samples of a source, rounded up. step: µs of one sample. -/
def samplesOf (us step : Nat) : Nat := (us + (step - 1)) / max 1 step

/-- R427: µs of one sample of a source. -/
def RuleSrc.stepUs : RuleSrc → Nat
  | .wake _ | .refa | .none => 1
  | _ => 1000

/-- R432: the source is converted, so an entry's VALUE is the converted value. (DEDUCED, notes/assumptions/59.md) -/
def RuleSrc.converted : RuleSrc → Bool
  | .wake _ | .refa | .none => false
  | _ => true

/-- R426: the condition of a rule on a sampled value: 1 or 0 for a level, the converted value otherwise. -/
def RuleSense.holds (x : RuleSense) (value limit : Int) : Bool :=
  match x with
  | .high => decide (value ≠ 0)
  | .low => decide (value = 0)
  | .above => decide (limit < value)
  | .below => decide (value < limit)

/-! ### The filters (R427)

Each gives the filter state after a sample and, where the rule fires, the VALUE of R432 for a source that is not converted. -/

/-- DEBOUNCE. t: TIME in samples. -/
def debounce (t : Nat) (c : Bool) (f : FilterState) : FilterState × Option Int :=
  let run := if f.prev = some c then f.run + 1 else 1
  let g := { f with prev := some c, run := run }
  if c && f.armed && decide (t ≤ run) then ({ g with armed := false }, some 0)
  else if !c && decide (t ≤ run) then ({ g with armed := true }, none)
  else (g, none)

/-- COUNT. entries: the ages, in samples, of the entries that count. (DEDUCED, notes/assumptions/59.md) -/
def countFilter (t n : Nat) (c : Bool) (f : FilterState) : FilterState × Option Int :=
  let entry := c && decide (f.prev = some false)
  let aged := (f.entries.map (· + 1)).filter (fun a => decide (a ≤ t))
  let es := if entry then 0 :: aged else aged
  let g := { f with prev := some c, entries := es }
  if entry && decide (n ≤ es.length) then ({ g with entries := [] }, some n) else (g, none)

/-- PERIOD. lo, hi: MIN and MAX in samples; step: µs of a sample. (DEDUCED, notes/assumptions/59.md) -/
def periodFilter (lo hi step : Nat) (c : Bool) (f : FilterState) : FilterState × Option Int :=
  let entry := c && decide (f.prev = some false)
  let since := f.sinceEntry.map (· + 1)
  let g := { f with prev := some c, sinceEntry := since }
  match entry, since with
  | true, none => ({ g with sinceEntry := some 0, missed := false }, none)
  | true, some k =>
    let g := { g with sinceEntry := some 0, missed := false }
    if k < lo || hi < k then (g, some (k * step : Nat)) else (g, none)
  | false, some k => if hi ≤ k && !f.missed then ({ g with missed := true }, some (k * step : Nat)) else (g, none)
  | false, none => (g, none)

/-- RATE. t: TIME in samples; lo, hi: MIN and MAX entries. -/
def rateFilter (t lo hi : Nat) (c : Bool) (f : FilterState) : FilterState × Option Int :=
  let entry := c && decide (f.prev = some false)
  let seen := if entry then f.seen + 1 else f.seen
  let elapsed := f.elapsed + 1
  let g := { f with prev := some c, seen := seen, elapsed := elapsed }
  if t ≤ elapsed then ({ g with seen := 0, elapsed := 0 }, if seen < lo || hi < seen then some seen else none)
  else (g, none)

/-- R427, R432: a sample meets a rule: the rule after it, and the VALUE of its firing. -/
def Rule.sample (r : Rule) (value : Int) : Rule × Option Int :=
  let c := r.sense.holds value r.limit
  let step := r.src.stepUs
  let t := samplesOf r.time step
  let x := match r.filter with
    | .debounce => debounce t c r.fs
    | .count => countFilter t r.n c r.fs
    | .period => periodFilter (samplesOf r.min step) (samplesOf r.max step) step c r.fs
    | .rate => rateFilter t r.min r.max c r.fs
  ({ r with fs := x.1 }, x.2.map (fun v => if r.src.converted then value else v))

/-! ### Actions (R429 to R434, R439, R440) -/

/-- The device sleeps or is at power-down: the fabric accepts no hand-over for the log (R432). -/
def Belfry.dark (b : Belfry) : Bool :=
  match b.step with
  | .asleep | .waking | .relock => true
  | _ => false

/-- R432, R434: an entry is written to the log or discarded. The Bool: the count reached 64.
(DEDUCED, notes/assumptions/60.md) -/
def putLog (running : Bool) (n : Fin 16) (src : RuleSrc) (value : Int) (b : Belfry) : Belfry × Bool :=
  let e : LogEntry := ⟨b.logSeq, n, src, b.btime, none, running && !b.dark, value⟩
  let b := { b with logSeq := b.logSeq + 1 }
  if b.log.length < 64 then ({ b with log := b.log ++ [e] }, decide (b.log.length = 63))
  else match b.logMode with
    | .stop => ({ b with logLost := b.logLost + 1 }, false)
    | .wrap => ({ b with log := b.log.drop 1 ++ [e], logLost := b.logLost + 1 }, false)

/-- R440: a wake begins. (DEDUCED, notes/assumptions/61.md) -/
def beginWake (n : Fin 16) (b : Belfry) : Belfry :=
  { b with step := .waking, wakeCount := b.wakeCount + 1, wakeRule := some n }

/-- R429, R439: the WAKE action. A firing during the entry is kept until power-down. (DEDUCED, notes/assumptions/61.md) -/
def wakeAction (n : Fin 16) (b : Belfry) : Belfry :=
  match b.step with
  | .asleep => beginWake n b
  | .frame .. | .flush _ | .flushed => match b.wakeDuringEntry with
    | none => { b with wakeDuringEntry := some n }
    | some _ => b
  | _ => b

/-- R429: a rule fires. -/
def fireRule (n : Fin 16) (value : Int) (s : State) : State :=
  let r := s.bel.rules[n]
  let acts := r.action
  let s := happen evRule 1 s
  let s := if acts.contains .count then s.modBel (fun b => { b with rules := upd b.rules n (fun r => { r with
      hits := r.hits + 1 }) })
    else s
  let s := if acts.contains .alert && !s.bel.alert then happen evAlert 1 (s.modBel (fun b => { b with alert := true })) else s
  let s := if acts.contains .log then
      let x := putLog s.tb.running n r.src value s.bel
      let s := s.modBel (fun _ => x.1)
      if x.2 then happen evLogFull 1 s else s
    else s
  if acts.contains .wake then s.modBel (wakeAction n) else s

/-- R431: a sample of the sources that value gives meets the rules, in ascending number. -/
def runRules (value : RuleSrc → Option Int) (s : State) : State :=
  eachFin 16 (fun n s =>
    let r := s.bel.rules[n]
    match value r.src with
    | none => s
    | some v =>
      let x := r.sample v
      let s := s.modBel (fun b => { b with rules := upd b.rules n (fun _ => x.1) })
      match x.2 with | some w => fireRule n w s | none => s) s

/-! ### Samples and conversions -/

/-- R422: a WAKE input after a sample: two samples in a row must agree on a new level. -/
def Wake.sample (w : Wake) (high : Bool) : Wake :=
  { w with level := if w.last = high then high else w.level, last := high }

/-- R435, R436: the level of AXISWAKE has changed: an edge of the kept axis's sense counts. -/
def countFrame (before after : Bool) (s : State) : State :=
  match s.bel.axis with
  | some a =>
    let counts : Bool := match s.axes[a].cfg.edge with | .rise => !before && after | .fall => before && !after
    bif counts then s.modBel (fun b => { b with counter := b.counter.map (fun n => n + 1) }) else s
  | none => s

def levelValue (b : Bool) : Int := if b then 1 else 0

/-- BELFRY_SAMPLE: four Belfry cycles have passed (R422, R423). -/
def belfrySample (levels : BitVec 4) (refa : Bool) (s : State) : State :=
  let before := s.bel.wakes[s.bel.axisWake].level
  let s := s.modBel (fun b =>
    { b with btime := b.btime + 4, refaAct := refa, wakes := updAll b.wakes (fun i w => w.sample (levels.getLsbD i.val)) })
  let s := countFrame before s.bel.wakes[s.bel.axisWake].level s
  let value (x : RuleSrc) : Option Int := match x with
    | .wake n => some (levelValue s.bel.wakes[n].level)
    | .refa => some (levelValue refa)
    | _ => none
  runRules value s

/-- R424: the converted value of a source. A supply that is not present reads 0 mV. -/
def BelfryReading.value (x : BelfryReading) : RuleSrc → Option Int
  | .temp => some x.temp
  | .vbel => some x.vbel
  | .vcore => some x.vcore
  | .vio k => some (x.vio.getD k.val 0 : Nat)
  | _ => none

/-- R425: the latest temperature, and TEMPWARN. -/
def takeTemp (t : Int) (s : State) : State :=
  let b := s.bel
  let up := !b.tempHigh && decide (b.tempWarn < t)
  let high := up || (b.tempHigh && !decide (t ≤ b.tempWarn - 50))
  let s := s.modBel (fun b => { b with temp := t, tempHigh := high })
  if up then happen evTempWarn 1 s else s

/-- BELFRY_CONVERSION (R424). -/
def belfryConversion (x : BelfryReading) (s : State) : State := runRules x.value (takeTemp x.temp s)

/-! ### Writes (R428, R430, R434) -/

/-- R428: a rule is restarted. -/
def Rule.restart (r : Rule) : Rule := { r with fs := FilterState.fresh }

/-- R430: BEL.ALERT=CLEAR. -/
def clearAlert (s : State) : State := s.modBel (fun b => { b with alert := false })

/-- R434: BEL CLEAR. -/
def clearLog (s : State) : State := s.modBel (fun b => { b with log := [], logLost := 0 })

/-- R432: the hand-over of the rules' firings is accepted in a fabric cycle. (DEDUCED, notes/assumptions/60.md) -/
def stampLog (t : TimeWord) (b : Belfry) : Belfry :=
  { b with log := b.log.map (fun e => if e.waits then { e with time := some t, waits := false } else e) }

end Sys2Proof.Machine
end

