-- ==== Sys2Proof/Machine/LineCode.lean ====
section
/-! DEFINITION. The 8b/10b line code of the stream port: code groups, running disparity, code errors, ordered sets and frames on
a lane (spec/05 R121 to R128). A code group is written with the bits a to j in the order in which they are sent, the first
leftmost; the running disparity is true where it is positive. -/
namespace Sys2Proof.Machine

abbrev CodeGroup := BitVec 10

/-- R121: a symbol of a lane: a data byte, or one of the four control characters. -/
inductive Sym | data (b : Byte) | comma | sof | eof | abort
  deriving DecidableEq, Repr

/-! ### Code groups (R121) -/

/-- The bits a to i of the data bytes whose low five bits are 0 to 31, at negative running disparity.
(PRESUMED, notes/assumptions/92.md) -/
def sixes : List (BitVec 6) :=
  [0b100111#6, 0b011101#6, 0b101101#6, 0b110001#6, 0b110101#6, 0b101001#6, 0b011001#6, 0b111000#6] ++
  [0b111001#6, 0b100101#6, 0b010101#6, 0b110100#6, 0b001101#6, 0b101100#6, 0b011100#6, 0b010111#6] ++
  [0b011011#6, 0b100011#6, 0b010011#6, 0b110010#6, 0b001011#6, 0b101010#6, 0b011010#6, 0b111010#6] ++
  [0b110011#6, 0b100110#6, 0b010110#6, 0b110110#6, 0b001110#6, 0b101110#6, 0b011110#6, 0b101011#6]

/-- The bits f to j of the data bytes whose high three bits are 0 to 7, at negative running disparity.
(PRESUMED, notes/assumptions/92.md) -/
def fours : List (BitVec 4) := [0b1011#4, 0b1001#4, 0b0101#4, 0b1100#4, 0b1101#4, 0b1010#4, 0b0110#4, 0b1110#4]

/-- The number of ones of a block of n bits. -/
def onesOf {n : Nat} (b : BitVec n) : Nat := ((List.range n).filter (fun i => b.getLsbD i)).length

/-- The running disparity after a block of 2 h bits: that of the block, where it has one.
(PRESUMED, notes/assumptions/92.md) -/
def disparityAfter (h ones : Nat) (rd : Bool) : Bool := if h < ones then true else if ones < h then false else rd

/-- The block for five bits: at positive disparity, a block that is not balanced is complemented, and so is that of 7.
(PRESUMED, notes/assumptions/92.md) -/
def sixOf (rd : Bool) (x : Nat) : BitVec 6 :=
  let b := sixes.getD x 0
  if rd && (decide (onesOf b ≠ 3) || decide (x = 7)) then ~~~b else b

/-- The bytes whose block for 7 takes its second form, so that no run of five arises. (PRESUMED, notes/assumptions/92.md) -/
def altSeven (rd : Bool) (x : Nat) : Bool := if rd then [11, 13, 14].contains x else [17, 18, 20].contains x

/-- The block for three bits, after the block for the five bits x. (PRESUMED, notes/assumptions/92.md) -/
def fourOf (rd : Bool) (x y : Nat) : BitVec 4 :=
  if y = 7 && altSeven rd x then (if rd then 0b1000#4 else 0b0111#4)
  else
    let b := fours.getD y 0
    if rd && (decide (onesOf b ≠ 2) || decide (y = 3)) then ~~~b else b

/-- R121: the code group of a symbol. (PRESUMED, notes/assumptions/92.md) -/
def groupOf (rd : Bool) : Sym → CodeGroup
  | .data b =>
    let x := b.toNat % 32
    let six := sixOf rd x
    six ++ fourOf (disparityAfter 3 (onesOf six) rd) x (b.toNat / 32)
  | .comma => if rd then 0b1100000101#10 else 0b0011111010#10
  | .sof => if rd then 0b0010010111#10 else 0b1101101000#10
  | .eof => if rd then 0b0100010111#10 else 0b1011101000#10
  | .abort => if rd then 0b1000010111#10 else 0b0111101000#10

/-- The running disparity after a code group. -/
def disparity (rd : Bool) (g : CodeGroup) : Bool := disparityAfter 5 (onesOf g) rd

/-- The code groups of symbols that follow one another. -/
def encodeSyms : Bool → List Sym → List CodeGroup
  | _, [] => []
  | rd, s :: ss => let g := groupOf rd s; g :: encodeSyms (disparity rd g) ss

/-- The running disparity after a stretch. -/
def disparityEnd (rd : Bool) (gs : List CodeGroup) : Bool := gs.foldl disparity rd

/-- The place of a value that a function of the numbers from 0 gives. -/
def placeOf {α : Type} [DecidableEq α] (f : Nat → α) (v : α) (n : Nat) : Option Nat := (List.range n).find? (fun i => decide (f i = v))

/-- R121: the symbol of a code group; none is a code error: an invalid group, one of the other disparity, or another control
character. (PRESUMED, notes/assumptions/92.md) -/
def symOf (rd : Bool) (g : CodeGroup) : Option Sym :=
  match [Sym.comma, Sym.sof, Sym.eof, Sym.abort].find? (fun s => decide (groupOf rd s = g)) with
  | some s => some s
  | none =>
    let six : BitVec 6 := g.extractLsb' 4 6
    match placeOf (sixOf rd) six 32 with
    | none => none
    | some x =>
      (placeOf (fourOf (disparityAfter 3 (onesOf six) rd) x) (g.extractLsb' 0 4) 8).map
        (fun y => .data (BitVec.ofNat 8 (32 * y + x)))

/-- A received stretch: its symbols, none where there is a code error. -/
def decodeGroups : Bool → List CodeGroup → List (Option Sym)
  | _, [] => []
  | rd, g :: gs => symOf rd g :: decodeGroups (disparity rd g) gs

/-! ### Ordered sets (R122) -/

/-- R122: an ordered set: idle, or a training set with its fields. -/
inductive OrderedSet | idle | ts (lane rate state : Byte)
  deriving DecidableEq, Repr

/-- D5.6 and D16.2. -/
def d5_6 : Byte := 0xC5#8
def d16_2 : Byte := 0x50#8

/-- R122: the symbols of an ordered set, by the running disparity before it. -/
def OrderedSet.syms (rd : Bool) : OrderedSet → List Sym
  | .idle => [.comma, .data (if rd then d5_6 else d16_2)]
  | .ts l r t => [.comma, .data l, .data r, .data t]

/-- R122: the STATE field. -/
def tsState (lock up : Bool) : Byte := BitVec.ofNat 8 ((if lock then 1 else 0) + (if up then 2 else 0))

/-- The symbols of a stretch without code errors, as ordered sets on word boundaries; none where something else stands. -/
def orderedSets : List (Option Sym) → Option (List OrderedSet)
  | [] => some []
  | some .comma :: some (.data b) :: rest =>
    if b = d5_6 || b = d16_2 then (orderedSets rest).map (fun xs => .idle :: xs)
    else match rest with
      | some (.data r) :: some (.data t) :: rest => (orderedSets rest).map (fun xs => .ts b r t :: xs)
      | _ => none
  | _ => none

/-- The last n of a list. -/
def lastOf {α : Type} (n : Nat) (xs : List α) : List α := xs.drop (xs.length - n)

/-- R123: a stretch ends with 16 consecutive ordered sets without a code error. -/
def locksLane (rd : Bool) (gs : List CodeGroup) : Bool :=
  match orderedSets (decodeGroups rd gs) with | some xs => decide (16 ≤ xs.length) | none => false

/-- R123: 4 code errors within 64 symbols. -/
def fourErrors : List (Option Sym) → Bool
  | [] => false
  | x :: xs => decide (4 ≤ ((x :: xs).take 64).countP Option.isNone) || fourErrors xs

/-- R123: 1024 symbols without a K28.5. n: those before. -/
def noComma : Nat → List (Option Sym) → Bool
  | n, [] => decide (1024 ≤ n)
  | n, x :: xs => decide (1024 ≤ n) || noComma (if x = some .comma then 0 else n + 1) xs

/-- R123: a stretch in which a lane loses lock. -/
def losesLane (rd : Bool) (gs : List CodeGroup) : Bool :=
  let xs := decodeGroups rd gs
  fourErrors xs || noComma 0 xs

/-- R125: a stretch ends with 8 consecutive TS with LOCK set. -/
def trains (rd : Bool) (gs : List CodeGroup) : Bool :=
  match orderedSets (decodeGroups rd gs) with
  | some xs => decide (8 ≤ xs.length) && (lastOf 8 xs).all (fun x => match x with | .ts _ _ t => t.getLsbD 0 | .idle => false)
  | none => false

/-- R149: a TS stands in a stretch of ordered sets. -/
def hasTs (rd : Bool) (gs : List CodeGroup) : Bool :=
  match orderedSets (decodeGroups rd gs) with
  | some xs => xs.any (fun x => match x with | .ts .. => true | .idle => false)
  | none => false

/-! ### Frames on a lane (R128) -/

def Sym.byte : Option Sym → Option Byte
  | some (.data b) => some b
  | _ => none

/-- R128: the frame that a stretch holds, from SOF to EOF or ABORT. -/
def frameIn (rd : Bool) (gs : List CodeGroup) : Option RxFrame :=
  match decodeGroups rd gs with
  | some .sof :: xs =>
    let body := xs.dropLast
    let bytes := body.filterMap Sym.byte
    match xs.getLast? with
    | some (some .eof) => some ⟨bytes, decide (bytes.length ≠ body.length), false⟩
    | some (some .abort) => some ⟨bytes, decide (bytes.length ≠ body.length), true⟩
    | _ => none
  | _ => none

/-- R128, R131: a frame and the idle ordered set after it, as a lane sends them. -/
def frameSyms (bytes : List Byte) : List Sym := .sof :: bytes.map Sym.data ++ [.eof]

/-- R122: the code groups of a frame after an idle ordered set, which has left the running disparity negative, with the idle
ordered set after it. -/
def frameGroups (bytes : List Byte) : List CodeGroup :=
  let f := encodeSyms false (frameSyms bytes)
  let rd := disparityEnd false f
  f ++ encodeSyms rd (OrderedSet.syms rd .idle)

/-- R150: the code groups of a frame that ABORT ends, n symbols of which have left: with ABORT it fills whole words. -/
def abortGroups (bytes : List Byte) (n : Nat) : List CodeGroup :=
  encodeSyms false ((frameSyms bytes).take (if n % 2 = 1 then n else n + 1) ++ [.abort])

end Sys2Proof.Machine
end

