-- ==== Sys2Proof/Machine/Stream.lean ====
section
/-! DEFINITION. The stream port: frames, credits, uploads, the link, and the ends of overflow episodes (spec/05 R121 to R150,
spec/14 R375). -/
namespace Sys2Proof.Machine

/-! ### Records and frames as bytes (R128 to R135) -/

/-- R135: the bytes of a record. -/
def recBytes : FifoRec → List Byte
  | .stamp r => stampBytes r ++ bytesLE 2 r.check.toNat
  | .result r => resultBytes r ++ bytesLE 2 r.check.toNat
  | .event t src prov shifted =>
    bytesLE 6 t.toNat ++ bytesLE 2 (src.val + (if prov then 512 else 0) + (if shifted then 1024 else 0))
  | .timemark m => bytesLE 6 m.toNat ++ bytesLE 2 511
  | .overflow t src u seq n =>
    bytesLE 8 t.toNat ++ [BitVec.ofNat 8 src, if u then 1 else 0] ++ bytesLE 2 seq.toNat ++ bytesLE 4 n

/-- R129: the TYPE of a frame. -/
def FrameType.code : FrameType → Nat
  | .stamp => 1 | .result => 2 | .event => 3 | .overflow => 4 | .credit => 8 | .upstatus => 9

/-- R128, R129, R134: the bytes of a frame between SOF and EOF. -/
def frameBytes (lane : Nat) (f : SpFrame) : List Byte :=
  let body := [BitVec.ofNat 8 (f.ty.code + 16), BitVec.ofNat 8 f.channel] ++ bytesLE 2 f.seq.toNat ++
    bytesLE 2 f.payload.length ++ bytesLE 2 lane ++ f.payload
  body ++ bytesLE 4 (crc32c body).toNat

/-- R142: the status codes. -/
def UpCode.code : UpCode → Nat
  | .accepted => 0 | .active => 1 | .noseg => 2 | .range => 3 | .mismatch => 4 | .noslot => 5 | .timeout => 6 | .format => 7

/-- R143: an entry of an UPSTATUS frame. -/
def UpEntry.bytes (e : UpEntry) : List Byte :=
  bytesLE 2 e.seg ++ bytesLE 2 e.block ++ [BitVec.ofNat 8 e.code.code, 0] ++ bytesLE 2 e.seq

/-- R141: the payload of a CREDIT frame; a lane that is not enabled reads 0. -/
def Stream.creditBytes (p : Stream) : List Byte :=
  let l (r : Fin 2) : Nat := if r.val < p.rxLanes then p.rx[r].limit.toNat else 0
  bytesLE 2 (l 0) ++ bytesLE 2 (l 1) ++ [0, 0, 0, 0]

/-! ### Sending -/

/-- R121, R127: the ticks of a symbol of ten bits. -/
def SpRate.symTicks : SpRate → Nat | .lr1250 => 20 | .lr2500 => 10 | .lr3125 => 8

/-- The enabled transmit lanes that are free, of those that a test admits: the lowest-numbered one. -/
def Stream.freeLane (p : Stream) (ok : Fin 4 → Bool) : Option (Fin 4) :=
  (List.finRange 4).find? (fun l => decide (l.val < p.txLanes) && ok l && decide (p.lanes[l].busy = 0))

/-- R132: the lane that a frame of a channel goes to; none: no lane is free. -/
def Stream.laneFor (p : Stream) (ch : Fin 6) : Option (Fin 4) :=
  if ch.val = 0 then p.freeLane (fun l => decide (l.val = 0))
  else if p.uports.isEmpty then p.freeLane (fun _ => true)
  else if ch.val = 1 then p.freeLane (fun l => decide (l.val = 0))
  else p.freeLane (fun l => decide (0 < l.val))

/-- R50, R132: the lane for a frame of a channel; one for which a U frame competes is not given. -/
def State.laneGiven (s : State) (ch : Fin 6) : Option (Fin 4) :=
  if decide (ch.val ≠ 1) && !s.fifo.urecs.isEmpty && decide (s.sp.laneFor 1 = s.sp.laneFor ch) then none else s.sp.laneFor ch

/-- A frame starts on a lane: the next SEQ of its channel (R130), its code groups on the line (R128), and its records in
progress until its EOF has been sent (R133). An idle ordered set follows it (R131). (DEDUCED, notes/assumptions/54.md) -/
def putFrame (ch : Fin 6) (lane : Fin 4) (ty : FrameType) (recs : List FifoRec) (payload : List Byte) (s : State) : State :=
  let f : SpFrame := ⟨ch.val, ty, s.sp.seqs[ch], recs, payload⟩
  let bytes := frameBytes lane.val f
  let ticks := (bytes.length + 2) * s.sp.rate.symTicks
  let s := s.modFifo (fun x => { x with flights := x.flights ++ [⟨lane, ch, recs, ticks⟩] })
  s.modSp (fun p =>
    { p with lanes := p.lanes.set lane ⟨some f, frameGroups bytes, ticks + 2 * p.rate.symTicks⟩,
             seqs := upd p.seqs ch (fun n => n + 1),
             lane0Quiet := if lane.val = 0 then tadd s.tb.now (ticks * tickTu) else p.lane0Quiet })

/-- R375: the first records of a channel without an uncorrectable error, at most max of them; those with one, at the
positions in bad, are dropped; and the records that stay. (DEDUCED, notes/assumptions/55.md) -/
def takeGood (bad : List Nat) : Nat → Nat → List FifoRec → List FifoRec × List FifoRec × List FifoRec
  | _, _, [] => ([], [], [])
  | max, i, r :: rs =>
    if max = 0 then ([], [], r :: rs)
    else if bad.contains i then
      let x := takeGood bad max (i + 1) rs
      (x.1, r :: x.2.1, x.2.2)
    else
      let x := takeGood bad (max - 1) (i + 1) rs
      (r :: x.1, x.2.1, x.2.2)

/-- R375: records dropped for an uncorrectable error. -/
def eccDrop (rs : List FifoRec) (s : State) : State :=
  let s := s.modFifo (fun f => { f with eccNew := f.eccNew + rs.length })
  foldS rs (fun r s => match r with
    | .stamp x => s.modPort x.port (fun q => { q with counts := { q.counts with drops := q.counts.drops + 1 } })
    | _ => s) s

/-- The records of a record channel, its largest number of records, and its frame type (R130). -/
def Fifo.channel (f : Fifo) (ch : Fin 6) : List FifoRec × Nat × FrameType :=
  match ch.val with
  | 1 => (f.urecs, 4, .stamp)
  | 2 => (f.stamps, 32, .stamp)
  | 3 => (f.results, 16, .result)
  | 4 => (f.events, 64, .event)
  | _ => (f.overflows, 32, .overflow)

def Fifo.setChannel (f : Fifo) (ch : Fin 6) (rs : List FifoRec) : Fifo :=
  match ch.val with
  | 1 => { f with urecs := rs }
  | 2 => { f with stamps := rs }
  | 3 => { f with results := rs }
  | 4 => { f with events := rs }
  | _ => { f with overflows := rs }

/-- R126, R141, R143: channel 0x00 sends a CREDIT frame where one is due, and otherwise up to four entries.
(DEDUCED, notes/assumptions/99.md) -/
def sendControl (lane : Fin 4) (s : State) : State :=
  if s.sp.creditDue then
    (putFrame 0 lane .credit [] s.sp.creditBytes s).modSp (fun p => { p with creditDue := false })
  else if s.sp.status.isEmpty then s
  else
    let es := s.sp.status.take 4
    (putFrame 0 lane .upstatus [] (es.flatMap UpEntry.bytes) s).modSp (fun p => { p with status := p.status.drop 4 })

/-- R131, R132, R375: the framer fills a frame of a channel and gives it to a free lane.
(DEDUCED, notes/assumptions/54.md) -/
def sendFrame (ch : Fin 6) (bad : List Nat) (s : State) : State :=
  if s.sp.link ≠ .up then s
  else match s.laneGiven ch with
    | none => s
    | some lane =>
      if ch.val = 0 then sendControl lane s
      else
        let c := s.fifo.channel ch
        let x := takeGood bad c.2.1 0 c.1
        let s := eccDrop x.2.1 (s.modFifo (fun f => f.setChannel ch x.2.2))
        if x.1.isEmpty then s else putFrame ch lane c.2.2 x.1 (x.1.flatMap recBytes) s

/-- R141: 10 µs. -/
def creditTu : Nat := 100000000

/-- R141: the CREDIT frame is repeated. -/
def repeatCredit (s : State) : State :=
  if s.sp.link = .up && s.laneGiven 0 = some 0 && tnotBefore s.tb.now (tadd s.sp.lane0Quiet creditTu) then
    (putFrame 0 0 .credit [] s.sp.creditBytes s).modSp (fun p => { p with creditDue := false })
  else s

/-! ### What a lane sends when it sends no frame (R122, R125) -/

/-- R122: the training ordered set of a transmit lane. -/
def Stream.trainingSet (p : Stream) (lane : Fin 4) (lock up : Bool) : OrderedSet :=
  .ts (BitVec.ofNat 8 lane.val) (match p.rate with | .lr1250 => 1 | .lr2500 => 2 | .lr3125 => 3) (tsState lock up)

/-- R125: every enabled receive lane is locked. -/
def Stream.allLocked (p : Stream) : Bool := (List.finRange 2).all (fun r => decide (p.rxLanes ≤ r.val) || p.rx[r].locked)

/-- R122, R125: the ordered set that an enabled transmit lane sends between frames; none: electrical idle. After the link has
entered UP it first sends TS with UP set. -/
def Stream.between (p : Stream) (lane : Fin 4) : Option OrderedSet :=
  if !p.enable || decide (p.txLanes ≤ lane.val) then none
  else match p.link with
    | .down => none
    | .train => some (p.trainingSet lane p.allLocked false)
    | .up =>
      if p.lanes[lane].last.isNone && decide (0 < p.lanes[lane].busy) then some (p.trainingSet lane true true) else some .idle

/-! ### The link (R123 to R126, R149, R150) -/

/-- E381 LINKDOWN. -/
def evLinkDown : Fin 384 := 381

/-- R133, R150: ABORT ends the frame in progress on a lane. (DEDUCED, notes/assumptions/54.md) -/
def abortLane (rate : SpRate) (flights : List Flight) (lane : Fin 4) (l : TxLane) : TxLane :=
  match flights.find? (fun x => decide (x.lane = lane)), l.last with
  | some x, some f =>
    let bytes := frameBytes lane.val f
    let left := (x.left + (rate.symTicks - 1)) / rate.symTicks
    { TxLane.default with line := abortGroups bytes (bytes.length + 2 - left) }
  | _, _ => TxLane.default

/-- R133, R150: the records of frames in progress stay in their channels, ahead of the others.
(DEDUCED, notes/assumptions/54.md) -/
def Fifo.giveBack (f : Fifo) : Fifo :=
  let put (f : Fifo) (x : Flight) : Fifo :=
    match x.ch.val with
    | 0 => f
    | _ => f.setChannel x.ch (x.recs ++ (f.channel x.ch).1)
  { (f.flights.foldr (fun x f => put f x) f) with flights := [] }

/-- R149, R150: the link leaves UP, and trains again while the port is enabled. (DEDUCED, notes/assumptions/99.md) -/
def linkDown (s : State) : State :=
  let was := decide (s.sp.link = .up)
  let s := s.modSp (fun p =>
    { p with link := if p.enable then .train else .down, trainFrom := s.tb.now, assemblies := [],
             lanes := updAll p.lanes (abortLane p.rate s.fifo.flights), rx := p.rx.map (fun l => { l with buf := [] }) })
  let s := s.modFifo Fifo.giveBack
  if was then raise evLinkDown Flags.none (s.modSp (fun p => { p with linkDowns := p.linkDowns + 1 })) else s

/-- A receive lane is enabled (R127). -/
def Stream.rxEnabled (p : Stream) (r : Fin 2) : Bool := p.enable && decide (r.val < p.rxLanes)

/-- R123: a receive lane locks on the code groups that it has received, given the running disparity before them. -/
def laneLock (r : Fin 2) (rd : Bool) (gs : List CodeGroup) (s : State) : State :=
  if s.sp.rxEnabled r && locksLane rd gs then
    s.modSp (fun p => { p with rx := upd p.rx r (fun l => { l with locked := true }) })
  else s

/-- R123, R149: an enabled receive lane loses lock. -/
def laneLoseLock (r : Fin 2) (rd : Bool) (gs : List CodeGroup) (s : State) : State :=
  if s.sp.rxEnabled r && s.sp.rx[r].locked && losesLane rd gs then
    let s := s.modSp (fun p => { p with rx := upd p.rx r (fun l => { l with locked := false }) })
    if s.sp.link = .up then linkDown s else s
  else s

/-- R149: a TS arrives while the link is UP. -/
def tsInUp (r : Fin 2) (rd : Bool) (gs : List CodeGroup) (s : State) : State :=
  if s.sp.rxEnabled r && decide (s.sp.link = .up) && hasTs rd gs then linkDown s else s

/-- R125: 10 µs of TS; 8 TS. -/
def trainTu : Nat := 100000000
def upSymbols : Nat := 32

/-- R125: the conditions under which the link enters UP. seen: the code groups that the receive lanes received last, each
with the running disparity before them. (DEDUCED, notes/assumptions/54.md) -/
def State.trained (s : State) (seen : List (Bool × List CodeGroup)) : Bool :=
  if s.sp.rxLanes = 0 then !s.tb.running || tnotBefore s.tb.now (tadd s.sp.trainFrom trainTu)
  else (List.finRange 2).all (fun r => !s.sp.rxEnabled r ||
    (s.sp.rx[r].locked && (match seen[r.val]? with | some x => trains x.1 x.2 | none => false)))

/-- R125, R126, R140: the link enters UP; its transmit lanes first send 8 TS with UP set.
(DEDUCED, notes/assumptions/54.md) -/
def linkUp (seen : List (Bool × List CodeGroup)) (s : State) : State :=
  if s.sp.link = .train && s.trained seen then
    s.modSp (fun p =>
      { p with link := .up, seqs := Vector.replicate 6 0, creditDue := true, lane0Quiet := s.tb.now,
               lanes := p.lanes.map (fun _ => { TxLane.default with busy := upSymbols * p.rate.symTicks }),
               rx := p.rx.map (fun l => { l with limit := 16, buf := [] }) })
  else s

/-- R125, R149: SP.ENABLE takes a value. -/
def setEnable (on : Bool) (s : State) : State :=
  if s.sp.enable = on then s
  else if on then s.modSp (fun p => { p with enable := true, link := .train, trainFrom := s.tb.now })
  else
    (linkDown (s.modSp (fun p => { p with enable := false }))).modSp (fun p =>
      { p with rx := p.rx.map (fun l => { l with locked := false }) })

/-! ### Uploads (R139 to R143) -/

/-- An entry that the device reports. -/
def report (e : UpEntry) (s : State) : State := s.modSp (fun p => { p with status := p.status ++ [e] })

/-- A block put among the written blocks of a segment, by rising index. -/
def putBlock (b : Block) : List Block → List Block
  | [] => [b]
  | x :: xs => if x.idx = b.idx then b :: xs else if b.idx < x.idx then b :: x :: xs else x :: putBlock b xs

/-- R142, R294: a block is written. -/
def writeBlock (id : Fin 4096) (b : Block) (s : State) : State :=
  let put (x : Segment) : Segment := if x.id = id then { x with written := putBlock b x.written } else x
  { s with store := { s.store with segs := s.store.segs.map put } }

/-- R142: the tests of a block whose four quarters are present, in order. -/
def decideBlock (a : Assembly) (s : State) : UpCode × State :=
  let checks := a.quarters.map (fun q => q.2.1)
  let same := match checks with | c :: cs => cs.all (fun x => decide (x = c)) | [] => true
  let id : Fin 4096 := Fin.ofNat 4096 a.seg
  if !same then (.mismatch, s)
  else match s.store.find id with
    | none => (.noseg, s)
    | some seg =>
      if seg.blocks ≤ a.block then (.range, s)
      else if s.segActive id then (.active, s)
      else
        let quarter (k : Nat) : List Byte := match a.quarters.find? (fun q => decide (q.1 = k)) with
          | some q => q.2.2
          | none => []
        let bytes := quarter 0 ++ quarter 1 ++ quarter 2 ++ quarter 3
        (.accepted, writeBlock id ⟨a.block, bytes, checks.headD 0, false⟩ s)

/-- R142: a good quarter reaches the assembly of its block. -/
def placeQuarter (seg block quarter seq : Nat) (check : BitVec 32) (data : List Byte) (s : State) : State :=
  let mine (a : Assembly) : Bool := decide (a.seg = seg) && decide (a.block = block)
  match s.sp.assemblies.find? mine with
  | none =>
    if 16 ≤ s.sp.assemblies.length then report ⟨seg, block, .noslot, seq⟩ s
    else s.modSp (fun p => { p with assemblies := p.assemblies ++ [⟨seg, block, [(quarter, check, data)], seq, s.tb.now⟩] })
  | some a =>
    let qs := (quarter, check, data) :: a.quarters.filter (fun q => decide (q.1 ≠ quarter))
    let a := { a with quarters := qs, lastSeq := seq, lastArrival := s.tb.now }
    if qs.length < 4 then
      s.modSp (fun p => { p with assemblies := p.assemblies.map (fun x => if mine x then a else x) })
    else
      let s := s.modSp (fun p => { p with assemblies := p.assemblies.filter (fun x => !mine x) })
      let r := decideBlock a s
      report ⟨seg, block, r.1, seq⟩ r.2

/-- R129, R134, R139, R142: an upload frame that leaves its buffer, from its header to its CRC. One that ABORT ended is
discarded (R121). (DEDUCED, notes/assumptions/99.md) -/
def takeUpload (f : RxFrame) (s : State) : State :=
  let bytes := f.bytes
  let n := bytes.length
  let good := decide (12 ≤ n) && !f.bad && decide (natAt bytes (n - 4) 4 = (crc32c (bytes.take (n - 4))).toNat)
  if f.aborted then s
  else if !good then s.modSp (fun p => { p with rxBadCrc := p.rxBadCrc + 1 })
  else
    let seq := natAt bytes 2 2
    let w := natAt bytes 8 2
    let block := natAt bytes 10 2
    let wellFormed := decide (natAt bytes 0 1 = 0x1C) && decide (natAt bytes 1 1 = 0x10) && decide (natAt bytes 4 2 = 264) &&
      decide (n = 276) && decide (natAt bytes 6 2 = 0) && decide (w / 16384 = 0)
    if !wellFormed then report ⟨w % 4096, block, .format, seq⟩ s
    else placeQuarter (w % 4096) block (w / 4096 % 4) seq (BitVec.ofNat 32 (natAt bytes 12 4)) (slice bytes 16 256) s

/-- R140: a lane's buffers. -/
def rxBuffers : Nat := 16

/-- R140: a frame arrives on a receive lane: it takes a buffer, or is discarded where all are occupied.
(DEDUCED, notes/assumptions/99.md) -/
def arriveFrame (r : Fin 2) (f : RxFrame) (s : State) : State :=
  if rxBuffers ≤ s.sp.rx[r].buf.length then s.modSp (fun p => { p with rxNoCredit := p.rxNoCredit + 1 })
  else s.modSp (fun p => { p with rx := upd p.rx r (fun l => { l with buf := l.buf ++ [f] }) })

/-- R140, R141: the oldest frame of a lane leaves its buffer, which raises the limit. (DEDUCED, notes/assumptions/99.md) -/
def leaveBuffer (r : Fin 2) (s : State) : State :=
  match s.sp.rx[r].buf with
  | [] => s
  | f :: rest =>
    (takeUpload f s).modSp (fun p =>
      { p with rx := upd p.rx r (fun l => { l with buf := rest, limit := l.limit + 1 }), creditDue := true })

def leaveBuffers (r : Fin 2) : Nat → State → State
  | 0, s => s
  | n + 1, s => leaveBuffers r n (leaveBuffer r s)

/-- R128, R140, R142: a receive lane receives a stretch, which may hold a frame; after it n frames leave the lane's buffers.
-/
def uploadFrame (r : Fin 2) (rd : Bool) (gs : List CodeGroup) (n : Nat) (s : State) : State :=
  if s.sp.link ≠ .up || !s.sp.rxEnabled r || !s.sp.rx[r].locked then s
  else leaveBuffers r (min n rxBuffers) (match frameIn rd gs with | some f => arriveFrame r f s | none => s)

/-- R142: 10 ms. -/
def assemblyTu : Nat := 100000000000

/-- R142: the k-th open assembly has waited 10 ms. -/
def assemblyTimeout (k : Nat) (s : State) : State :=
  match s.sp.assemblies[k]? with
  | some a =>
    if tnotBefore s.tb.now (tadd a.lastArrival assemblyTu) then
      report ⟨a.seg, a.block, .timeout, a.lastSeq⟩ (s.modSp (fun p => { p with assemblies := p.assemblies.eraseIdx k }))
    else s
  | none => s

end Sys2Proof.Machine
end

