-- ==== Sys2Proof/Machine/Sync.lean ====
section
/-! DEFINITION. Alignment of several devices: the SYNC train, decoding, the step, tracking, slews and the return pulse
(spec/17 R444 to R463). -/
namespace Sys2Proof.Machine

/-- R445: the sync instants of a train. -/
def Sync.instant (y : Sync) (t : Train) (k : Nat) : TimeWord := tadd t.g (k * y.period)

/-- R445: the first time word, modulo 2^64, that is a whole multiple of SP and lies at least 1 µs after an instant. -/
def firstInstant (period : Nat) (w : TimeWord) : TimeWord :=
  let p := max 1 period
  let n := ((tadd w 10000000).toNat + (p - 1)) / p * p
  if n < 2 ^ 64 then BitVec.ofNat 64 n else 0

/-- R445, R447: the leader's train starts. -/
def startTrain (g : TimeWord) (y : Sync) : Sync := { y with train := some ⟨g, 0, g⟩ }

/-- R446: pulse k of a train: what the message under way then is, and the width of the pulse. -/
def trainPulse (y : Sync) (t : Train) : Train × Nat :=
  let i := t.k % 65
  if i = 0 then ({ t with k := t.k + 1, word := y.instant t t.k }, 3000000)
  else ({ t with k := t.k + 1 }, if t.word.getLsbD (64 - i) then 2000000 else 1000000)

/-- A pulse on SYNCOUT. (DESIGN CHOICE, notes/assumptions/33.md) -/
def putPulse (rise : TimeWord) (width : Nat) (y : Sync) : Sync := { y with out := ((rise, width) :: y.out).take 8 }

/-- R446: the leader sends its next pulse. -/
def sendPulse (s : State) : State :=
  match s.sync.role, s.sync.train with
  | .leader, some t =>
    let at_ := s.sync.instant t t.k
    if s.tbLocked && tnotBefore s.tb.now at_ then
      let x := trainPulse s.sync t
      s.modSync (fun y => putPulse at_ x.2 { y with train := some x.1 })
    else s
  | _, _ => s

/-- R455: a follower sends its return pulse, half a period after the latest sync instant that allows it. -/
def returnPulse (s : State) : State :=
  let y := s.sync
  let live := decide (y.role = .follower) && y.ret && (match y.state with | .locked | .hold => true | _ => false)
  let half := y.period / 2
  let k := tdiff s.tb.now (tadd y.s half) / (max 1 y.period : Nat)
  let rise := tadd y.s (half + k * y.period)
  let sent := match y.out with | (t, _) :: _ => decide (t = rise) | [] => false
  if live && !sent then s.modSync (putPulse rise 1000000) else s

/-- R444, R447, R455: SYNCOUT at a time word. -/
def State.syncoutPad (s : State) (w : TimeWord) : Pad :=
  let y := s.sync
  let live := match y.role with
    | .none => false
    | .leader => s.tbLocked
    | .follower => y.ret && (match y.state with | .locked | .hold => true | _ => false)
  if s.padsOff then .hiZ
  else driven false (live && y.out.any (fun x => tnotBefore w x.1 && !tnotBefore w (tadd x.1 x.2)))

/-! ### Decoding (R448) -/

inductive Width | zero | one | start | invalid
  deriving DecidableEq, Repr

/-- R448: what a width reads. -/
def readWidth (w : Int) : Width :=
  if 3500000 < w then .invalid
  else if 2500000 ≤ w then .start
  else if 1500000 ≤ w then .one
  else if 0 ≤ w then .zero else .invalid

/-- R448: the time word that the bits spell, most significant first. -/
def spell (bits : List Bool) : TimeWord := BitVec.ofNat 64 (bits.foldl (fun n b => 2 * n + (if b then 1 else 0)) 0)

/-- R448: the message offset of a decoded message. -/
def messageOffset (y : Sync) (s0 : TimeWord) (rises : List TimeWord) : Int :=
  divEven ((withIdx rises).map (fun (k, t) => tdiff (tadd s0 (k * y.period + y.delay)) t)).sum 65

/-- R449, R452, R456: a message has been decoded. -/
def decoded (m : Message) (y : Sync) : Sync :=
  let s0 := spell m.bits
  let o := messageOffset y s0 m.rises
  let wait : Sync := { y with state := .stepwait, offset := o, s := tadd s0 (65 * y.period) }
  match y.state with
  | .hunt | .stepwait => wait
  | .locked => if s0 = m.pred then y else wait
  | .hold =>
    let mean := divEven y.values.sum (max 1 y.values.length)
    if s0 = m.pred && decide (y.values.length = 65) && decide (mean.natAbs ≤ y.catchTu) then
      { y with state := .locked, r := y.r + mean, sum := 0, n := 0, rejected := 0,
               lastPass := m.rises.getLastD y.lastPass }
    else wait
  | _ => y

/-- R448: a pulse meets the message under reception. expected: the sync instant that the follower expected for the pulse.
(DEDUCED, notes/assumptions/57.md) -/
def decodePulse (rise : TimeWord) (width : Int) (expected : TimeWord) (y : Sync) : Sync :=
  let begin_ (y : Sync) : Sync :=
    if readWidth width = .start then { y with msg := some ⟨expected, [rise], []⟩, values := y.values.take 1 }
    else { y with msg := none }
  match y.msg with
  | none => begin_ y
  | some m =>
    let spaced := match m.rises.getLast? with
      | some t => decide ((tdiff rise (tadd t y.period)).natAbs ≤ y.catchTu)
      | none => true
    let abandon : Sync := begin_ { y with msg := none, errs := y.errs + 1 }
    let data (b : Bool) : Sync :=
      let m := { m with rises := m.rises ++ [rise], bits := m.bits ++ [b] }
      if m.bits.length = 64 then { decoded m y with msg := none } else { y with msg := some m }
    if !spaced then abandon
    else match readWidth width with
      | .zero => data false
      | .one => data true
      | _ => abandon

/-! ### Tracking (R452, R456) -/

/-- R452: a rising edge in LOCKED. -/
def track (t : TimeWord) (y : Sync) : Sync :=
  let e := tdiff (tadd y.s y.delay) t
  let v := e - y.r
  let y := { y with s := tadd y.s y.period, values := (v :: y.values).take 65 }
  if y.catchTu < v.natAbs then
    let rej := y.rejected + 1
    { y with errs := y.errs + 1, rejected := rej, state := if y.avg ≤ rej then .hold else y.state }
  else
    let y := { y with rejected := 0, sum := y.sum + v, n := y.n + 1, lastPass := t }
    if y.avg ≤ y.n then
      let m := divEven y.sum (max 1 y.n)
      { y with error := m, r := y.r + m, sum := 0, n := 0 }
    else y

/-- R456: the sync instant that a follower in HOLD expects for an edge: the nearest on its own time word. -/
def Sync.nearest (y : Sync) (t : TimeWord) : TimeWord :=
  tadd y.s (divEven (tdiff t (tadd y.s y.delay)) (max 1 y.period) * y.period)

/-- A rising edge in HOLD: no correction. (DEDUCED, notes/assumptions/57.md) -/
def holdEdge (t : TimeWord) (y : Sync) : Sync :=
  let i := y.nearest t
  { y with s := tadd i y.period, values := ((tdiff (tadd i y.delay) t - y.r) :: y.values).take 65 }

/-- R448, R452, R456: a rising edge of the train reaches a follower. (DEDUCED, notes/assumptions/57.md) -/
def followRise (t : TimeWord) (y : Sync) : Sync :=
  let expected := match y.state with | .hold => y.nearest t | _ => y.s
  let y := match y.state with | .locked => track t y | .hold => holdEdge t y | _ => y
  { y with rise := some (t, expected) }

/-- R448: a falling edge ends the pulse, whose width is then known. (DEDUCED, notes/assumptions/57.md) -/
def followFall (t : TimeWord) (y : Sync) : Sync :=
  match y.rise with
  | some (r, expected) => decodePulse r (tdiff t r) expected { y with rise := none }
  | none => y

/-- SYNC_EDGE: an edge on SYNCIN, for the axes (R183) and for a follower. -/
def syncEdge (falling : Bool) (t : TimeWord) (s : State) : State :=
  if !s.tb.started || !tnotBefore s.tb.now t then s
  else
    let sense : Sense := if falling then .fall else .rise
    let s := axisIndex .syncin sense t false s
    let s := axisCount .syncin sense t false s
    if s.sync.role = .follower then s.modSync (if falling then followFall t else followRise t) else s

/-- R452: no rising edge has passed for 4 SP. -/
def holdTimeout (s : State) : State :=
  let y := s.sync
  if y.role = .follower && y.state = .locked && tnotBefore s.tb.now (tadd y.lastPass (4 * y.period)) then
    s.modSync (fun y => { y with state := .hold })
  else s

/-- The tick count at the start of the present fabric cycle. -/
def State.cycleTick (s : State) : Nat := s.tb.ticks - s.tb.phase

/-- R452, R453: the slew of one fabric cycle, once in each: SYNCSLEW parts in 10^9 of 16 000 tu.
(DEDUCED, notes/assumptions/57.md) -/
def slew (s : State) : State :=
  let y := s.sync
  let live := match y.state with | .locked | .hold => true | _ => false
  if y.r = 0 || !live || !s.tb.running || decide (y.slewed = some s.cycleTick) then s
  else
    let f := y.frac + y.slew * 16000
    let move := min (f / 1000000000) y.r.natAbs
    let signed : Int := if y.r < 0 then -(move : Int) else move
    let r := y.r - signed
    let now := s.cycleTick
    let s := s.modSync (fun y => { y with r := r, frac := if r = 0 then 0 else f % 1000000000, slewed := some now })
    s.modTb (fun t => { t with now := tadd t.now signed })

/-! ### The step (R450) -/

/-- The time word moves by o, and with it the instants that the state holds for what is still to come.
(DEDUCED, notes/assumptions/57.md) -/
def State.shift (o : Int) (s : State) : State :=
  (s.mapInstants (fun w => tadd w o)).modTb (fun t => { t with now := tadd t.now o })

/-- R269: every open run is discarded. -/
def abortOpen (s : State) : State :=
  eachFin 16 (fun m s => match s.mfs[m].state with | .opened _ => mfAbort m s | _ => s) s

/-- R450: the step may be taken. -/
def State.stepFree (s : State) : Bool :=
  decide (s.sync.role = .follower) && decide (s.sync.state = .stepwait) &&
    s.clusters.toList.all (fun c => decide (c.state = .off) || (decide (c.state = .quarantine) && decide (c.phase = .calibrate))) &&
    s.groups.toList.all (fun g => !g.live)

/-- R452: the first expected instant whose pulse is still to come. -/
def Sync.nextAfter (y : Sync) (now : TimeWord) : TimeWord :=
  let behind := tdiff now (tadd y.s y.delay)
  if behind < 0 then y.s else tadd y.s ((behind / (max 1 y.period : Nat) + 1) * y.period)

/-- R450: the step. -/
def syncStep (s : State) : State :=
  if !s.stepFree || !s.tb.running then s
  else
    let s := abortOpen s
    let s := s.shift s.sync.offset
    let now := s.tb.now
    let s := eachFin 4 restartAxis s
    let s := flushFence s
    let s := s.modSync (fun y =>
      { y with steps := y.steps + 1, state := .locked, r := 0, frac := 0, sum := 0, n := 0, rejected := 0, lastPass := now,
               rise := none, msg := none, values := [], s := y.nextAfter now })
    startAligns s

/-! ### Role and delay -/

/-- R444, R445, R449: SYS.SYNCROLE takes a value. (DEDUCED, notes/assumptions/57.md) -/
def setRole (x : SyncRole) (s : State) : State :=
  let y := s.sync
  if y.role = x then s
  else
    let fresh : Sync :=
      { y with role := x, train := none, rise := none, msg := none, r := 0, frac := 0, sum := 0, n := 0, rejected := 0, values := [] }
    let z : Sync := match x with
      | .none => { fresh with state := .off }
      | .follower => { fresh with state := .hunt }
      | .leader =>
        let g := if y.role = .follower && y.state = .locked then y.s else firstInstant y.period s.tb.now
        let z : Sync := { fresh with state := .lead }
        if s.tbLocked then startTrain g z else z
    startAligns (s.modSync (fun _ => z))

/-- R454: SYS.SYNCDELAY takes a value. -/
def setDelay (v : Nat) (s : State) : State :=
  s.modSync (fun y => match y.state with
    | .locked | .hold => { y with delay := v, r := y.r + ((v : Int) - y.delay) }
    | _ => { y with delay := v })

/-- R447: the leader's train starts again at a lock of the timebase. (DEDUCED, notes/assumptions/58.md) -/
def syncLock (s : State) : State :=
  if s.sync.role = .leader then s.modSync (fun y => startTrain (firstInstant y.period s.tb.now) y) else s

/-- LOCKLOSS ends the train in use. (DEDUCED, notes/assumptions/58.md) -/
def syncLockloss (s : State) : State := s.modSync (fun y => { y with train := none })

end Sys2Proof.Machine
end

