-- ==== Sys2Proof/Machine/Timebase.lean ====
section
/-! DEFINITION. References, presence, Cupola's windows and grades, acquisition and lock, switching, holdover and LOCKLOSS
(spec/06; spec/16 R440 to R443; spec/18 R481, R482). -/
namespace Sys2Proof.Machine

def evRefLoss : Fin 384 := 368
def evRefWarn : Fin 384 := 369
def evRefFail : Fin 384 := 370
def evSwitch : Fin 384 := 371
def evHoldover : Fin 384 := 372
def evLockloss : Fin 384 := 373
def evSteward : Fin 384 := 383

def State.modRef (s : State) (x : Fin 4) (f : Ref → Ref) : State := s.modTb (fun t => { t with refs := upd t.refs x f })

/-- R152: what the PLL sets for a reference: the pre-divider R, the feedback divider N in units of 2^-32, and the mode. -/
structure PllSetting where
  r : Nat
  n : Nat
  integer : Bool
  deriving DecidableEq, Repr

/-- R152: the pre-dividers that put the phase detector in range. -/
def preDividers (f : Nat) : List Nat :=
  ((List.range 64).map (· + 1)).filter (fun r => decide (10000000 * r ≤ f ∧ f ≤ 100000000 * r))

/-- R152: the feedback divider 2500 MHz × R / f, with a 32-bit fraction. (DEDUCED, notes/assumptions/91.md) -/
def feedback (f r : Nat) : Nat := (divEven ((2500000000 * r * 2 ^ 32 : Nat) : Int) f).toNat

/-- R152: the setting for a nominal frequency: the smallest pre-divider in range that gives an integer divider, or the
smallest in range. (DEDUCED, notes/assumptions/91.md) -/
def pllSetting (f : Nat) : PllSetting :=
  match (preDividers f).find? (fun r => decide ((2500000000 * r) % f = 0)) with
  | some r => ⟨r, feedback f r, true⟩
  | none => let r := (preDividers f).headD 1; ⟨r, feedback f r, false⟩

/-- REFx.PLLMODE: the reference runs in integer mode. -/
def integerMode (f : Nat) : Bool := (pllSetting f).integer

/-! ### Qualification (R169) -/

def Ref.qualNow (r : Ref) : Qual :=
  if r.role = .off || !r.present then .absent
  else if r.compare = .none || !r.had10 || r.presentFor < r.qualTime then .unqual
  else if r.inFail then .fail
  else if r.inWarn && decide (r.compare ≠ .ring) then .warn
  else .good

/-- R165: the comparison source gives results. -/
def State.compareOk (s : State) (r : Ref) : Bool :=
  match r.compare with
  | .none => false
  | .ring => true
  | .ref y => let c := s.tb.refs[y]; c.present && !decide (c.role = .off) && !c.inFail

/-- R165: a window in which a reference or its comparison source was lost, or that source in FAIL, yields no result. -/
def noteBad (s : State) : State :=
  let bad (r : Ref) : Ref := if r.present && s.compareOk r then r else { r with bad1 := true, bad10 := true }
  s.modTb (fun t => { t with refs := t.refs.map bad })

/-- R169: a reference is qualified. -/
def Ref.qualified (r : Ref) : Bool := match r.qual with | .good | .warn => true | _ => false

/-- REFx.QUAL after what it depends on has changed; entries to WARN and FAIL raise their event.
(DEDUCED, notes/assumptions/21.md) -/
def requalify (x : Fin 4) (s : State) : State :=
  let r := s.tb.refs[x]
  let q := r.qualNow
  if q = r.qual then s
  else
    let s := s.modRef x (fun r => { r with qual := q, goodFor := 0 })
    match q with
    | .warn => happen evRefWarn 1 s
    | .fail => happen evRefFail 1 s
    | _ => s

/-- R155, R161: the qualification of a reference starts again. (DEDUCED, notes/assumptions/20.md) -/
def Ref.restartQual (r : Ref) : Ref := 
  { r with presentFor := 0, whole := false, had10 := false, bad1 := true, bad10 := true }

/-! ### LOCKLOSS and acquisition (R156, R160) -/

/-- A reference that acquisition may try. -/
def Ref.candidate (r : Ref) : Bool := decide (r.role = .candidate) && r.present

/-- R156: the candidate to try after a position of the priority list, in turn. -/
def nextCandidate (t : Timebase) (after : Option (Fin 4)) : Option (Fin 4) :=
  let pri := t.priority
  let i := match after with
    | some x => (match pri.idxOf? x with | some k => k + 1 | none => 0)
    | none => 0
  (pri.drop i ++ pri.take i).find? (fun x => t.refs[x].candidate)

/-- R156: the next attempt, or a wait for a presence. -/
def acquireNext (after : Option (Fin 4)) (s : State) : State :=
  let now := s.tb.now
  s.modTb (fun t => { t with job := match nextCandidate t after with | some x => .attempt x now | none => .idle })

def Timebase.acquiring (t : Timebase) : Bool := match t.state with | .acquire | .unlocked => true | _ => false

/-- R156: while acquiring, with no attempt under way, the device tries what has become a candidate.
(DEDUCED, notes/assumptions/22.md) -/
def acquireIdle (s : State) : State :=
  match s.tb.job, s.boot.step with
  | .idle, .running =>
    if s.tb.acquiring && !s.bel.dark then acquireNext none s else s
  | _, _ => s

/-- R160, R200: an axis at LOCKLOSS. -/
def axisLockloss (a : Fin 4) (s : State) : State :=
  let s := if s.axes[a].state = .lost then s else enterLost a true s
  s.modAxis a (fun x => { x with pendIdx := [], pendCnt := [], lastUsable := none })

/-- R160: LOCKLOSS. The groups halt before the axes, so that the cause of each is TIMEBASE (R317).
(DEDUCED, notes/assumptions/26.md) -/
def lockloss (s : State) : State :=
  let s := raise evLockloss Flags.none s
  let s := s.modTb (fun t => { t with state := .unlocked, clkSrc := .ring, lockLosses := t.lockLosses + 1, lockTicks := 0 })
  let s := linkDown s
  let s := clustersLockloss s
  let s := groupsLockloss s
  let s := eachFin 4 axisLockloss s
  let s := abortOpen s
  acquireNext none (syncLockloss (spanEnd s))

/-! ### Switching and holdover (R173 to R179) -/

/-- R174: the highest qualified candidate other than one. -/
def bestCandidate (t : Timebase) (except : Option (Fin 4)) : Option (Fin 4) :=
  t.priority.find? (fun x => !decide (except = some x) && decide (t.refs[x].role = .candidate) && t.refs[x].qualified)

/-- R175: a switch begins with the measurement of the new reference's phase. lost: the reference that the loop followed is
lost or has failed. -/
def beginSwitch (y : Fin 4) (lost : Bool) (s : State) : State := spanBegin (s.modTb (fun t => { t with job := .buildOut y lost }))

/-- R177: 10 ms, and the 1 s window that declares FAIL, in ticks. (DEDUCED, notes/assumptions/26.md) -/
def histMin : Nat := 25000000
def windowTicks : Nat := 2500000000

/-- R177, R178: holdover is entered, or LOCKLOSS is raised where too little history exists. -/
def enterHoldover (s : State) : State :=
  if s.tb.lockTicks < histMin then lockloss s
  else
    let s := s.modTb (fun t => { t with state := .holdover, holdovers := t.holdovers + 1, job := .idle })
    spanEnd (happen evHoldover 1 s)

/-- R174, R177: the active reference is lost or has failed. -/
def activeFailed (s : State) : State :=
  match s.tb.auto, bestCandidate s.tb s.tb.active with
  | true, some y => beginSwitch y true s
  | _, _ => enterHoldover s

/-- R179: holdover ends with a switch to a reference that has become selectable. -/
def autoChecks (s : State) : State :=
  match s.tb.state, s.tb.job with
  | .holdover, .idle =>
    let y := if s.tb.auto then bestCandidate s.tb none
      else s.tb.active.filter (fun x => decide (s.tb.refs[x].role = .candidate) && s.tb.refs[x].qualified)
    match y with | some y => beginSwitch y true s | none => s
  | _, _ => s

/-- R163: the loop is frozen, or it follows the active reference; no switch is under way. -/
def Timebase.noSwitch (t : Timebase) : Bool := match t.job with | .buildOut .. => false | _ => true

/-- R154, R174: the reference that a switch measures can no longer become active: the device decides again.
(DEDUCED, notes/assumptions/22.md) -/
def abandonSwitch (x : Fin 4) (s : State) : State :=
  match s.tb.job with
  | .buildOut y lost =>
    if y ≠ x then s
    else
      let s := s.modTb (fun t => { t with job := .idle })
      if s.tb.state = .locked && lost then activeFailed s else autoChecks (spanEnd s)
  | _ => s

/-- R174, R177: the reference that the loop follows is lost or has failed, n ticks after the end of the history that counts.
A switch that is under way goes on. (DEDUCED, notes/assumptions/22.md) -/
def activeGone (n : Nat) (s : State) : State :=
  let s := s.modTb (fun t => { t with lockTicks := t.lockTicks - n })
  match s.tb.job with
  | .buildOut y _ => s.modTb (fun t => { t with job := .buildOut y true })
  | _ => activeFailed s

/-- The loop follows a reference. -/
def Timebase.followsRef (t : Timebase) (x : Fin 4) : Bool :=
  decide (t.state = .locked) && decide (t.active = some x) && (match t.job with | .buildOut _ true => false | _ => true)

/-- A reference is no longer present: what the timebase does (R156, R174, R177). -/
def referenceGone (x : Fin 4) (s : State) : State :=
  if s.tb.followsRef x then activeGone 0 s else abandonSwitch x s

/-- REF_LOST (R162). (DEDUCED, notes/assumptions/20.md) -/
def refLost (x : Fin 4) (s : State) : State :=
  let r := s.tb.refs[x]
  if r.role = .off || !r.present then s
  else
    let s := s.modRef x (fun r => { r.restartQual with present := false, losses := r.losses + 1 })
    referenceGone x (noteBad (requalify x (happen evRefLoss 1 s)))

/-- REF_PRESENT (R161, R156). -/
def refPresent (x : Fin 4) (s : State) : State :=
  let r := s.tb.refs[x]
  if r.role = .off || r.present then s
  else
    acquireIdle (requalify x (s.modRef x (fun r => { r.restartQual with present := true })))

/-- PLL_FREEZE (R163). -/
def pllFreeze (s : State) : State :=
  if s.tb.state = .locked && s.tb.job = .idle then spanBegin (s.modTb (fun t => { t with job := .frozen })) else s

/-- REF_GLITCH_RECOVER (R163). -/
def glitchRecover (s : State) : State :=
  match s.tb.active, s.tb.job with
  | some x, .frozen =>
    if s.tb.refs[x].present then
      spanEnd ((s.modRef x (fun r => { r with glitches := r.glitches + 1 })).modTb (fun t => { t with job := .idle }))
    else s
  | _, _ => s

/-- REF_SWITCH (R175): the loop closes on the new reference. -/
def refSwitch (s : State) : State :=
  match s.tb.job with
  | .buildOut y _ =>
    if s.tb.state = .locked || s.tb.state = .holdover then
      let s := s.modTb (fun t => { t with state := .locked, active := some y, switches := t.switches + 1, job := .idle })
      spanEnd (happen evSwitch 1 s)
    else s
  | _ => s

/-- The place of a reference in REF.PRIORITY; one that is not named stands last. -/
def Timebase.place (t : Timebase) (x : Fin 4) : Nat := (t.priority.idxOf? x).getD 4

/-- REVERT_WAIT (R174). (DEDUCED, notes/assumptions/19.md) -/
def revertWait (x : Fin 4) (s : State) : State :=
  let t := s.tb
  let r := t.refs[x]
  let higher := match t.active with | some a => decide (t.place x < t.place a) | none => false
  if t.state = .locked && t.job = .idle && t.auto && t.revert && higher && decide (r.role = .candidate) &&
      decide (r.qual = .good) && decide (t.revertWait ≤ r.goodFor) then beginSwitch x false s
  else s

/-- R173, R179: a MANUAL write of REF.ACTIVE. (DEDUCED, notes/assumptions/23.md) -/
def selectActive (y : Fin 4) (s : State) : State :=
  match s.tb.state with
  | .locked =>
    if s.tb.active = some y then
      (match s.tb.job with
       | .buildOut _ false => spanEnd (s.modTb (fun t => { t with job := .idle }))
       | .buildOut _ true => beginSwitch y true s
       | _ => s)
    else beginSwitch y (match s.tb.job with | .buildOut _ l => l | _ => false) s
  | .holdover => beginSwitch y true s
  | _ => s.modTb (fun t => { t with active := some y })

/-! ### Cupola's windows (R164 to R169) -/

/-- The range of an offset in ppb. -/
def clipOffset (v : Int) : Int := max (-100000000) (min 100000000 v)

/-- R168: wander of the results, newest first. -/
def wanderOf (xs : List Int) : Nat := ((xs.zip (xs.drop 1)).map (fun (a, b) => (a - b).natAbs)).foldl max 0

/-- R166, R167: the limits of entry to FAIL and of exit from it. -/
def Ref.failLimits (r : Ref) : Nat × Nat := if r.compare = .ring then (50000000, 40000000) else (r.fail, r.fail - r.hyst)

/-- R166: a wander result above WANDERMAX. -/
def Ref.wanders (r : Ref) : Bool := !decide (r.compare = .ring) && decide (r.wanderMax ≠ 0) && decide (r.wanderMax < r.wander)

/-- R166, R167: the grade after a 1 s result. (DEDUCED, notes/assumptions/21.md) -/
def Ref.grade1 (r : Ref) (v : Int) : Ref :=
  let lim := r.failLimits
  if r.inFail then
    let ok := if v.natAbs ≤ lim.2 then r.okRun + 1 else 0
    if 10 ≤ ok then { r with inFail := false, inWarn := false, okRun := 0 } else { r with okRun := ok }
  else if lim.1 < v.natAbs then { r with inFail := true, okRun := 0 }
  else if r.wanders then { r with inWarn := true }
  else r

/-- R166: the grade after a 10 s result. -/
def Ref.grade10 (r : Ref) (v : Int) : Ref :=
  if r.compare = .ring || r.inFail then r
  else if decide (r.warn < v.natAbs) || r.wanders then { r with inWarn := true }
  else if v.natAbs ≤ r.warn - r.hyst then { r with inWarn := false }
  else r

/-- A reference at the end of a 1 s window. (DEDUCED, notes/assumptions/19.md, 21.md) -/
def Ref.window1 (r : Ref) (result : Option Int) : Ref :=
  let r : Ref := if r.whole then { r with presentFor := r.presentFor + 1 } else r
  let r : Ref := { r with whole := r.present, goodFor := if r.qual = .good then r.goodFor + 1 else 0,
                          inWarn := r.inWarn && decide (r.compare ≠ .ring) }
  match result with
  | none => { r with cmpValid := false }
  | some v =>
    let v := clipOffset v
    let rs := (v :: r.results).take 10
    ({ r with offset1 := v, results := rs, wander := wanderOf rs, cmpValid := true }).grade1 v

/-- Cupola's own frequency (R39): the nominal frequency of the comparison source RING. (DEDUCED, notes/assumptions/91.md) -/
def ringHz : Nat := 400000000

/-- R164: Fc. (DEDUCED, notes/assumptions/91.md) -/
def State.nominal (s : State) (c : Compare) : Nat := match c with | .ref y => s.tb.refs[y].freq | _ => ringHz

/-- R164: the offset in ppb, (fx / FREQ) / (fc / Fc) − 1, from the frequencies that Cupola has counted in a window, both in
the same unit. (DEDUCED, notes/assumptions/91.md) -/
def offsetOf (fx fc freq nominal : Nat) : Option Int :=
  if fc * freq = 0 then none
  else some (divEven ((fx * nominal * 1000000000 : Nat) : Int) (fc * freq) - 1000000000)

/-- R164, R165: the result that a window yields; bad: it yields none. -/
def State.windowResult (s : State) (x : Fin 4) (bad : Bool) (fx fc : Nat) : Option Int :=
  let r := s.tb.refs[x]
  if bad || !r.present || !s.compareOk r then none else offsetOf fx fc r.freq (s.nominal r.compare)

/-- R165: a window of a reference ends, and the next begins. -/
def nextWindow (x : Fin 4) (ten : Bool) (s : State) : State :=
  noteBad (s.modRef x (fun r => if ten then { r with bad10 := false } else { r with bad1 := false }))

/-- CUPOLA_WINDOW_1S (R164, R166, R174). (DEDUCED, notes/assumptions/19.md) -/
def window1s (x : Fin 4) (fx fc : Nat) (s : State) : State :=
  if s.tb.refs[x].role = .off then s
  else
    let was := s.tb.refs[x].inFail
    let v := s.windowResult x s.tb.refs[x].bad1 fx fc
    let s := nextWindow x false (requalify x (s.modRef x (fun r => r.window1 v)))
    let failed := !was && s.tb.refs[x].inFail
    let s := if failed && s.tb.followsRef x then activeGone windowTicks s else s
    autoChecks s

/-- CUPOLA_WINDOW_10S (R164, R166). -/
def window10s (x : Fin 4) (fx fc : Nat) (s : State) : State :=
  if s.tb.refs[x].role = .off then s
  else
    let v := (s.windowResult x s.tb.refs[x].bad10 fx fc).map clipOffset
    let f (r : Ref) : Ref := match v with
      | none => { r with cmpValid := false }
      | some v => ({ r with offset10 := v, had10 := true, cmpValid := true }).grade10 v
    autoChecks (nextWindow x true (requalify x (s.modRef x f)))

/-! ### Writes (R154, R155) -/

/-- R154, R156: an attempt at a reference that is no candidate any more ends, and the next begins.
(DEDUCED, notes/assumptions/22.md) -/
def abandonAttempt (x : Fin 4) (s : State) : State :=
  match s.tb.job with
  | .attempt y _ => if y = x && s.tb.acquiring then acquireNext (some x) s else s
  | _ => s

/-- REFx.ROLE has changed. (DEDUCED, notes/assumptions/22.md) -/
def roleChanged (x : Fin 4) (s : State) : State :=
  let s := noteBad s
  let s : State := match s.tb.refs[x].role with
    | .off => referenceGone x (noteBad (requalify x (s.modRef x (fun r => { r.restartQual with present := false }))))
    | .monitor => abandonSwitch x s
    | .candidate => s
  acquireIdle (autoChecks (if s.tb.refs[x].role = .candidate then s else abandonAttempt x s))

/-- REFx.FREQ or REFx.INPUT has changed. (DEDUCED, notes/assumptions/20.md) -/
def inputChanged (x : Fin 4) (s : State) : State :=
  autoChecks (requalify x (s.modRef x (fun r => { r.restartQual with results := [] })))

/-- R167: a reference that is compared with RING is never in WARN. (DEDUCED, notes/assumptions/20.md) -/
def Ref.ringWarn (r : Ref) : Ref := if r.compare = .ring then { r with inWarn := false } else r

/-- Another property of a reference or of the selection has changed. -/
def selectionChanged (s : State) : State :=
  let s := noteBad (s.modTb (fun t => { t with refs := t.refs.map Ref.ringWarn }))
  acquireIdle (autoChecks (eachFin 4 requalify s))

/-! ### Lock (R157, R218, R440, R441, R481, R482) -/

/-- R218: the level of a trigger input is sampled at a lock. (DESIGN CHOICE, notes/assumptions/14.md) -/
def trgLock (n : Fin 8) (s : State) : State :=
  s.modTrg n (fun x => { x with level := [⟨s.tb.now, Config.staticLevel (64 + n.val) s.tb.now⟩] })

/-- R440 step 4, R443: the axes at the lock that ends a sleep. -/
def axisWake (a : Fin 4) (s : State) : State :=
  let clear (x : Axis) : Axis := { x with pendIdx := [], pendCnt := [], lastUsable := none }
  match s.axes[a].cfg.mode with
  | .free => freeLock a s
  | _ =>
    if decide (s.bel.axis = some a) && s.bel.counter.isSome then
      s.modAxis a (fun x => clear { newNumbering x with state := .reacquire })
    else
      let s := if s.axes[a].state = .lost then s else enterLost a true s
      s.modAxis a clear

/-- R441: 625 ticks for each Belfry cycle. -/
def sleepTu : Nat := 2500000

/-- The wake's part of a lock. -/
def wakeLock (s : State) : State :=
  let b := BitVec.ofNat 48 (s.bel.btime - s.bel.sleptFrom)
  let s := s.modBel (fun x => { x with slept := b, step := .locked })
  let s := s.modTb (fun t => { t with now := t.now + BitVec.ofNat 64 (b.toNat * sleepTu) })
  let s := s.modSp (fun p => { p with link := if p.enable then .train else .down, trainFrom := s.tb.now })
  let s := eachFin 8 trgLock (happen evWake 1 s)
  wakeEnd (syncLock (mfFollowAll s.tb.now (eachFin 4 axisWake s)))

/-- The first lock after a power-on or a hardware reset. -/
def firstLock (s : State) : State :=
  let s := s.modBoot (fun b => { b with stage := .clusters })
  let s := s.modBel (fun x => match x.step with | .relock => { x with step := .awake } | _ => x)
  let s := eachFin 8 trgLock s
  let s := raise evSteward Flags.none s
  startupEnd (syncLock (clustersLock (mfFollowAll s.tb.now (eachFin 4 freeLock s))))

/-- The lock that follows a LOCKLOSS. -/
def relock (s : State) : State :=
  let s := eachFin 8 trgLock s
  syncLock (clustersLock (mfFollowAll s.tb.now (eachFin 4 freeLock s)))

/-- PLL_LOCK (R156, R157). -/
def pllLock (s : State) : State :=
  match s.tb.job with
  | .attempt x _ =>
    if !s.tb.acquiring || !decide (s.tb.refs[x].role = .candidate) then s
    else
      let waking := match s.bel.step with | .relock => true | _ => false
      let first := !s.tb.started
      let s := s.modTb (fun t =>
        { t with state := .locked, active := some x, clkSrc := .pll, job := .idle, lockTicks := 0, running := true,
                 started := true, now := if first then 0 else t.now, phase := if first || waking then 0 else t.phase })
      if first then firstLock s else if waking then wakeLock s else relock s
  | _ => s

/-- R156: 400 µs. (DEDUCED, notes/assumptions/25.md) -/
def attemptTu : Nat := 4000000000

/-- ACQUIRE_TIMEOUT (R156). (DEDUCED, notes/assumptions/25.md) -/
def acquireTimeout (s : State) : State :=
  match s.tb.job with
  | .attempt x since =>
    if s.tb.acquiring && (!s.tb.running || tnotBefore s.tb.now (tadd since attemptTu)) then acquireNext (some x) s else s
  | _ => s

/-- LOCKLOSS (R159). (DEDUCED, notes/assumptions/26.md) -/
def locklossRaised (s : State) : State := if s.tb.state = .locked then lockloss s else s

end Sys2Proof.Machine
end

