-- ==== Sys2Proof/Machine/Sleep.lean ====
section
/-! DEFINITION. Entering SLEEP, the hand-over of the frame count, power-down and the wake (spec/16 R415 to R443; spec/19
R502). -/
namespace Sys2Proof.Machine

/-- R418: ENTRY has begun and power-down has not come. -/
def Belfry.entering (b : Belfry) : Bool :=
  match b.step with
  | .frame .. | .flush _ | .flushed => true
  | _ => false

/-- R440 step 1: BEL_PWREN is high. -/
def Belfry.pwren (b : Belfry) : Bool :=
  match b.step with
  | .asleep => !b.extPwr
  | _ => true

/-- R415: SYS.PSTATE. (DEDUCED, notes/assumptions/62.md) -/
def State.pstate (s : State) : PState :=
  if s.bel.off then .sleep
  else if s.bel.entering then .entry
  else if s.clusters.toList.any (fun c => c.powered) then .run
  else .idle

/-- R419 step 1: held deliveries are discarded and counted. -/
def dropHeld (s : State) : State :=
  let s' := s.modFabric (fun f => { f with held := [] })
  foldS s.fabric.held (fun h s => dropDelivery h.task h.sub s) s'

/-- R418: 1 ms after the OK is ready, at the latest. -/
def entryTu : Nat := 10000000000

/-- R418: the entry may begin. -/
def State.entryDue (s : State) : Bool :=
  match s.bel.step with
  | .accepted ready left =>
    left || (match ready with | some r => tnotBefore s.tb.now (tadd r entryTu) | none => !s.tb.running)
  | _ => false

/-- SLEEP_ENTRY_START (R419 step 1). -/
def sleepEntryStart (s : State) : State :=
  if !s.entryDue then s
  else
    let s := dropHeld (abortOpen s)
    let flush : SleepStep := .flush s.tb.now
    let next : SleepStep := match s.bel.axis with
      | some a => match s.axes[a].state, s.axes[a].anchor with
        | .confirmed, some an => .frame an.n s.axes[a].gen
        | _, _ => flush
      | none => flush
    s.modBel (fun b => { b with step := next, entryAt := some s.tb.now, counter := none, wakeDuringEntry := none })

/-- SLEEP_FRAME_HANDOVER (R436): the half-frame point of the first frame confirmed after E, or the kept axis's exit from
CONFIRMED. (DEDUCED, notes/assumptions/61.md) -/
def sleepFrameHandover (s : State) : State :=
  match s.bel.step, s.bel.axis with
  | .frame n0 gen, some a =>
    let x := s.axes[a]
    let n := n0 + 1
    let flush (s : State) : State := s.modBel (fun b => { b with step := .flush s.tb.now })
    match x.state, x.anchor with
    | .confirmed, some an =>
      if x.gen ≠ gen then flush s
      else if 0 ≤ fdiff an.n n && tnotBefore s.tb.now (tadd (predictFrom an x.period n) (x.period / (2 * periodOne))) then
        flush (s.modBel (fun b => { b with counter := some n }))
      else s
    | _, _ => flush s
  | _, _ => s

/-- R144: the records in the central FIFO. -/
def Fifo.records (f : Fifo) : Nat :=
  f.urecs.length + f.stamps.length + f.results.length + f.events.length + f.overflows.length +
    (f.flights.map (fun x => x.recs.length)).sum

/-- The central FIFO emptied. -/
def Fifo.clear (f : Fifo) : Fifo := { Fifo.empty with eccCorr := f.eccCorr, eccDrops := f.eccDrops, eccNew := f.eccNew }

/-- R419 step 4: what a link loses. -/
def LinkState.quiet (l : LinkState) : LinkState :=
  { LinkState.default l.mode l.evset with checkFails := l.checkFails }

/-- SLEEP_FLUSH_END (R419 steps 3 and 4). -/
def sleepFlushEnd (s : State) : State :=
  match s.bel.step with
  | .flush since =>
    let left := s.fifo.records
    if left = 0 || !s.tb.running || tnotBefore s.tb.now (tadd since s.bel.flushWait) then
      let s := (linkDown s).modSp (fun p => { p with link := .down })
      let s := s.modFifo Fifo.clear
      let s := (s.modLink .con LinkState.quiet).modLink .hspi LinkState.quiet
      { s with steward := { s.steward with queue := [] }, spi := { s.spi with attnLow := false },
               bel := { s.bel with step := .flushed, flushDrops := left } }
    else s
  | _ => s

/-- R420: what a port loses. -/
def Port.sleep (q : Port) : Port :=
  { q.endWork.gate with seq := 0, counts := PortCounts.zero, buffer := [], lastTrail := none, lastConv := none, taken := none,
                        arms := [], level := [], samples := [], blind := [(0, none)], overrange := false, ovSpans := [], settling := none,
                        lateSeen := false }

/-- R420, R421: a gated cluster. -/
def Cluster.sleep (c : Cluster) : Cluster :=
  { c with state := .off, phase := .none, offCause := if c.state = .off then c.offCause else .command, powered := false,
           vddio := .none, bank := .none, fix := none, joinProv := [], calTurn := false, calDone := false, short := false, window := none,
           span := none }

/-- R420, R443. -/
def Mf.sleep (f : Mf) : Mf :=
  { f with state := .idle, heldArm := false, heldRise := false, fell := none, out := [], edges := [], starts := [],
           closed := [], stats := [], early := 0 }

def Task.sleep (t : Task) : Task := { t with collide := 0, drops := Vector.replicate 4 0 }

/-- R443: a group stays IDLE or HALTED. -/
def Group.sleep (g : Group) : Group :=
  if g.live then
    { g with state := .idle, fetch := Fetch.start, plan := [], cur := none, waiting := none, queuedStart := none,
             stopAt := none, restarts := [], counted := [], skipping := false, prov := [], provNext := [] }
  else { g with counted := [] }

def Ag.sleep (x : Ag) : Ag :=
  { x with state := .stopped, word := none, due := [], past := [], finished := false, lock := false, bits := 0, errors := 0 }

/-- R420: what a segment loses. -/
def Segment.sleep (retain : Bool) (x : Segment) : Segment := if retain then x else { x with written := [] }

/-- R432: an entry whose hand-over was not accepted before power-down has TIME NONE. (DEDUCED, notes/assumptions/60.md) -/
def LogEntry.untimed (e : LogEntry) : LogEntry := { e with waits := false }

/-- SLEEP_POWERDOWN (R419 step 5, R420, R421, R439). (DEDUCED, notes/assumptions/56.md, 58.md, 61.md) -/
def sleepPowerdown (s : State) : State :=
  match s.bel.step with
  | .flushed =>
    let s := dropHeld s
    let b := { s.bel with step := .asleep, sleptFrom := s.bel.btime, readyHigh := false, entryAt := none,
                          log := s.bel.log.map LogEntry.untimed }
    let b := match b.wakeDuringEntry with
      | some n => beginWake n { b with wakeDuringEntry := none }
      | none => b
    { s with
      tb := { s.tb with running := false, state := .acquire, clkSrc := .ring, job := .idle, lockTicks := 0, phase := 0 }
      ports := s.ports.map Port.sleep
      clusters := s.clusters.map Cluster.sleep
      mfs := s.mfs.map Mf.sleep
      tasks := s.tasks.map Task.sleep
      groups := s.groups.map Group.sleep
      ags := s.ags.map Ag.sleep
      trgs := s.trgs.map (fun x => { x with level := [] })
      store := { s.store with segs := s.store.segs.map (Segment.sleep s.bel.segRetain) }
      fabric := { Fabric.empty with handover := s.fabric.handover }
      fifo := s.fifo.clear
      sp := { s.sp with status := [], assemblies := [], frames := 0, rx := Vector.replicate 2 RxLane.default }
      con := s.con.quiet
      hspi := s.hspi.quiet
      spi := { s.spi with selected := false, statusLeft := false, attnLow := false, attnPulses := 0 }
      cal := { s.cal with span := none, doomed := 0 }
      sync := { s.sync with train := none, rise := none, msg := none }
      steward := { s.steward with queue := [] }
      bel := b }
  | _ => s

/-- R440 step 3: the attempt on the reference that was active at entry, or acquisition by R156. -/
def wakeAcquire (s : State) : State :=
  match s.tb.active with
  | some x =>
    if decide (s.tb.refs[x].role = .candidate) && ((decide (x = 0) && s.bel.refaAct) || s.tb.refs[x].present) then
      s.modTb (fun t => { t with job := .attempt x t.now })
    else acquireNext none s
  | none => acquireNext none s

/-- WAKE_SUPPLIES_VALID (R440 steps 2 and 3, R442). -/
def wakeSuppliesValid (s : State) : State :=
  match s.bel.step with
  | .waking =>
    let s := s.modBel (fun b => { b with step := .relock })
    let s := foldS s.bel.wakeCl wakeCluster s
    let s := s.modTb (fun t => { t with refs := t.refs.map (fun r => { r with whole := r.present, bad1 := false, bad10 := false }) })
    let s := noteBad s
    wakeAcquire s
  | _ => s

/-- R438: 5 µs. -/
def keptTu : Nat := 50000000

/-- KEPT_AXIS_ANCHOR (R438). -/
def keptAxisAnchor (s : State) : State :=
  match s.bel.axis, s.bel.counter with
  | some a, some n =>
    let x := s.axes[a]
    match x.state, x.anchor, x.pendIdx with
    | .reacquire, none, t :: rest =>
      if tnotBefore s.cycle (tadd t keptTu) then
        let s := s.modBel (fun b => { b with keptFrame := some n, counter := none })
        let s := s.modAxis a (fun x => { x with anchor := some ⟨t, n, true⟩, misses := 0, lastTaken := some t, pendIdx := rest })
        raiseAxis a 0 s
      else s
    | _, _, _ => s
  | _, _ => s

end Sys2Proof.Machine
end

