-- ==== Sys2Proof/Machine/BelfryRows.lean ====
section
/-! DEFINITION. The meanings of the happenings of Belfry, of the entry into SLEEP and of the wake (spec/16). -/
namespace Sys2Proof.Machine

/-- BELFRY_SAMPLE (R422). (DESIGN CHOICE, notes/assumptions/5.md) -/
def execBelfrySample (d : Nat) (levels : BitVec 4) (refa : Bool) (s : State) : Host.Outcome State Fault Refusal :=
  .next (belfrySample levels refa (s.elapse d))

/-- BELFRY_CONVERSION (R424). -/
def execBelfryConversion (d : Nat) (reading : BelfryReading) (s : State) : Host.Outcome State Fault Refusal :=
  .next (belfryConversion reading (s.elapse d))

/-- SLEEP_ENTRY_START (R419). -/
def execSleepEntryStart (d : Nat) (s : State) : Host.Outcome State Fault Refusal := .next (sleepEntryStart (s.elapse d))

/-- SLEEP_FRAME_HANDOVER (R436). -/
def execSleepFrameHandover (d : Nat) (s : State) : Host.Outcome State Fault Refusal :=
  .next (sleepFrameHandover (s.elapse d))

/-- SLEEP_FLUSH_END (R419). -/
def execSleepFlushEnd (d : Nat) (s : State) : Host.Outcome State Fault Refusal := .next (sleepFlushEnd (s.elapse d))

/-- SLEEP_POWERDOWN (R419). -/
def execSleepPowerdown (d : Nat) (s : State) : Host.Outcome State Fault Refusal := .next (sleepPowerdown (s.elapse d))

/-- WAKE_SUPPLIES_VALID (R440). (DESIGN CHOICE, notes/assumptions/5.md) -/
def execWakeSuppliesValid (d : Nat) (s : State) : Host.Outcome State Fault Refusal := .next (wakeSuppliesValid (s.elapse d))

/-- KEPT_AXIS_ANCHOR (R438). -/
def execKeptAxisAnchor (d : Nat) (s : State) : Host.Outcome State Fault Refusal := .next (keptAxisAnchor (s.elapse d))

end Sys2Proof.Machine
end

