-- ==== Sys2Proof/Machine/Sha.lean ====
section
/-! DEFINITION. The SHA-256 that the image container names (spec/18 R473, R474, R476, R477). The spec names the hash and does
not spell it out; this is its public definition (notes/assumptions). -/
namespace Sys2Proof.Machine

abbrev Word32 := BitVec 32

/-- The constants of the 64 rounds, side by side, the first leftmost. -/
def shaConstants : BitVec 2048 :=
  0x428a2f9871374491b5c0fbcfe9b5dba53956c25b59f111f1923f82a4ab1c5ed5#256 ++
  0xd807aa9812835b01243185be550c7dc372be5d7480deb1fe9bdc06a7c19bf174#256 ++
  0xe49b69c1efbe47860fc19dc6240ca1cc2de92c6f4a7484aa5cb0a9dc76f988da#256 ++
  0x983e5152a831c66db00327c8bf597fc7c6e00bf3d5a7914706ca635114292967#256 ++
  0x27b70a852e1b21384d2c6dfc53380d13650a7354766a0abb81c2c92e92722c85#256 ++
  0xa2bfe8a1a81a664bc24b8b70c76c51a3d192e819d6990624f40e3585106aa070#256 ++
  0x19a4c1161e376c082748774c34b0bcb5391c0cb34ed8aa4a5b9cca4f682e6ff3#256 ++
  0x748f82ee78a5636f84c878148cc7020890befffaa4506cebbef9a3f7c67178f2#256

/-- The constant of a round. -/
def shaConstant (i : Nat) : Word32 := shaConstants.extractLsb' (2016 - 32 * i) 32

/-- Half of the chaining value: four words, of which each round puts a new one in front. -/
abbrev ShaHalf := Vector Word32 4

def ShaHalf.push (v : Word32) (x : ShaHalf) : ShaHalf := #v[v, x[0], x[1], x[2]]

/-- The chaining value: the half that holds a to d, and the half that holds e to h. -/
abbrev ShaState := ShaHalf × ShaHalf

def shaInit : ShaState :=
  (#v[0x6a09e667#32, 0xbb67ae85#32, 0x3c6ef372#32, 0xa54ff53a#32],
    #v[0x510e527f#32, 0x9b05688c#32, 0x1f83d9ab#32, 0x5be0cd19#32])

/-- The sum of two chaining values, word by word. -/
def shaSum (x y : ShaState) : ShaState := (x.1.zipWith (· + ·) y.1, x.2.zipWith (· + ·) y.2)

/-- A word turned right by each of three distances. -/
def turns (n : Nat × Nat × Nat) (w : Word32) : Word32 := w.rotateRight n.1 ^^^ w.rotateRight n.2.1 ^^^ w.rotateRight n.2.2

/-- A word turned by two distances, and shifted by a third. -/
def shifts (n : Nat × Nat × Nat) (w : Word32) : Word32 := w.rotateRight n.1 ^^^ w.rotateRight n.2.1 ^^^ (w >>> n.2.2)

/-- Bit by bit, the second word where the first is set, and else the third. -/
def choose (x : ShaHalf) : Word32 := x[2] ^^^ (x[0] &&& (x[1] ^^^ x[2]))

/-- Bit by bit, the value that two of the first three words have. -/
def majority (x : ShaHalf) : Word32 := (x[0] &&& (x[1] ||| x[2])) ||| (x[1] &&& x[2])

/-- One round; kw: the sum of its constant and its word of the schedule. -/
def shaRound (kw : Word32) (x : ShaState) : ShaState :=
  let t := x.2[3] + turns (6, 11, 25) x.2[0] + choose x.2 + kw
  (x.1.push (t + turns (2, 13, 22) x.1[0] + majority x.1), x.2.push (x.1[3] + t))

/-- The word that follows sixteen words of the schedule, the latest of which stands first. -/
def shaNext (w : List Word32) : Word32 :=
  shifts (17, 19, 10) (w.getD 1 0) + w.getD 6 0 + shifts (7, 18, 3) (w.getD 14 0) + w.getD 15 0

/-- The n words that follow in the schedule. -/
def shaMore : Nat → List Word32 → List Word32
  | 0, _ => []
  | n + 1, w => let v := shaNext w; v :: shaMore n (v :: w.take 15)

/-- The 32-bit words that bytes spell, most significant byte first. -/
def wordsBE (n : Nat) (bs : List Byte) : List Word32 :=
  (List.range n).map (fun i => BitVec.ofNat 32 (ofBytesBE ((bs.drop (4 * i)).take 4)))

/-- The compression of a block of 64 bytes. -/
def shaBlock (x : ShaState) (bs : List Byte) : ShaState :=
  let w := wordsBE 16 bs
  let words := w ++ shaMore 48 w.reverse
  shaSum x ((words.zipIdx).foldl (fun x w => shaRound (shaConstant w.2 + w.1) x) x)

/-- The message with its end mark, zeros up to 56 bytes past a whole number of blocks, and its length in bits. -/
def shaPad (bs : List Byte) : List Byte :=
  let zeros := (119 - bs.length % 64) % 64
  [bs, [0x80#8], List.replicate zeros 0#8, bytesBE 8 (8 * bs.length)].flatten

/-- The first n blocks of 64 bytes of a message. -/
def shaBlocks : Nat → List Byte → List (List Byte)
  | 0, _ => []
  | n + 1, m => m.take 64 :: shaBlocks n (m.drop 64)

/-- The SHA-256 of bytes. (PRESUMED, notes/assumptions/8.md) -/
def sha256 (bs : List Byte) : BitVec 256 :=
  let m := shaPad bs
  let x := (shaBlocks (m.length / 64) m).foldl shaBlock shaInit
  (x.1.toList ++ x.2.toList).foldl (fun n w => (n <<< 32) ||| w.setWidth 256) 0

end Sys2Proof.Machine
end

