-- ==== Sys2Proof/Machine/Ecdsa.lean ====
section
/-! DEFINITION. The ECDSA P-256 verification of the image container (spec/18 R473, R476). The spec names the curve and the
scheme; this is their public definition (notes/assumptions). -/
namespace Sys2Proof.Machine

/-- The prime of the field, the coefficient b of the curve (a is −3), the order of the base point and the base point. -/
def p256Prime : Nat := 0xffffffff00000001000000000000000000000000ffffffffffffffffffffffff
def p256B : Nat := 0x5ac635d8aa3a93e7b3ebbd55769886bc651d06b0cc53b0f63bce3c3e27d2604b
def p256Order : Nat := 0xffffffff00000000ffffffffffffffffbce6faada7179e84f3b9cac2fc632551
def p256Gx : Nat := 0x6b17d1f2e12c4247f8bce6e563a440f277037d812deb33a0f4a13945d898c296
def p256Gy : Nat := 0x4fe342e2fe1a7f9b8ee7eb4a7c0f9e162bce33576b315ececbb6406837bf51f5

/-- A power modulo m, for an exponent of at most n bits. -/
def powMod (m : Nat) : Nat → Nat → Nat → Nat
  | 0, _, _ => 1 % m
  | n + 1, b, e =>
    let h := powMod m n (b * b % m) (e / 2)
    if e % 2 = 1 then h * b % m else h

/-- The inverse modulo a prime of at most 256 bits. -/
def invMod (m b : Nat) : Nat := powMod m 256 b (m - 2)

/-- A point of the curve; none: the point at infinity. -/
abbrev Point := Option (Nat × Nat)

def subMod (m a b : Nat) : Nat := (a + (m - b % m)) % m

/-- The third point of a chord or tangent of a slope, mirrored. -/
def chord (l x1 y1 x2 : Nat) : Point :=
  let p := p256Prime
  let x := subMod p (subMod p (l * l) x1) x2
  some (x, subMod p (l * subMod p x1 x) y1)

/-- The sum of two points. -/
def pointAdd : Point → Point → Point
  | none, q => q
  | q, none => q
  | some (x1, y1), some (x2, y2) =>
    let p := p256Prime
    if x1 = x2 then
      if (y1 + y2) % p = 0 then none
      else chord (subMod p (3 * x1 * x1) 3 * invMod p (2 * y1 % p) % p) x1 y1 x2
    else chord (subMod p y2 y1 * invMod p (subMod p x2 x1) % p) x1 y1 x2

/-- A multiple of a point, for a factor of at most n bits. -/
def pointMul : Nat → Nat → Point → Point
  | 0, _, _ => none
  | n + 1, k, q =>
    let h := pointMul n (k / 2) (pointAdd q q)
    if k % 2 = 1 then pointAdd h q else h

/-- The coordinates are those of a point of the curve. -/
def onCurve (x y : Nat) : Bool :=
  let p := p256Prime
  decide (x < p) && decide (y < p) && decide (y * y % p = (x * x * x + (p - 3) * x + p256B) % p)

/-- A signature r, s over a hash verifies under a public key x, y. (PRESUMED, notes/assumptions/8.md) -/
def ecdsaVerify (x y r s : Nat) (hash : BitVec 256) : Bool :=
  let n := p256Order
  let w := invMod n s
  let u1 := hash.toNat * w % n
  let u2 := r * w % n
  decide (0 < r ∧ r < n ∧ 0 < s ∧ s < n) && onCurve x y &&
    (match pointAdd (pointMul 256 u1 (some (p256Gx, p256Gy))) (pointMul 256 u2 (some (x, y))) with
     | some (v, _) => decide (v % n = r)
     | none => false)

end Sys2Proof.Machine
end

