-- ==== Sys2Proof/Machine/Output.lean ====
section
/-! DEFINITION. Responses and what leaves a link: response codes, the text of responses and EV lines, the order of output, the
prompt, ATTN# and the status byte (spec/03 R77 to R94; spec/04 R102, R107 to R109, R116, R118). -/
namespace Sys2Proof.Machine

/-! ### Responses (R77 to R81, R94) -/

/-- R94: the names of the codes. -/
def codeName : Nat → String
  | 101 => "VERB" | 102 => "ARGUMENTS" | 103 => "TOKEN" | 104 => "NUMBER" | 105 => "UNIT" | 106 => "POSITION"
  | 107 => "HEX" | 108 => "LENGTH" | 110 => "TAG" | 120 => "CHECK" | 121 => "NO-CHECK" | 130 => "NOT-URGENT"
  | 131 => "URGENT-FORM" | 201 => "OBJECT" | 202 => "PROPERTY" | 203 => "READ-ONLY" | 205 => "MOVING"
  | 207 => "NOT-APPLICABLE" | 210 => "NO-SEGMENT" | 301 => "RANGE" | 302 => "BELOW-INSERTION" | 303 => "CHOICE"
  | 304 => "CONFLICT" | 305 => "TOO-SOON" | 307 => "GRANULE" | 308 => "TOO-MANY" | 309 => "TABLE" | 401 => "BUSY"
  | 402 => "NO-TIMEBASE" | 403 => "AXIS-STATE" | 406 => "MODE" | 408 => "RUNNING" | 410 => "ABSENT" | 412 => "DRAINING"
  | 423 => "SEGMENT-ACTIVE" | 431 => "JOINING" | 501 => "QUEUE-FULL" | 502 => "ROUTE-FULL" | 503 => "STEWARD"
  | 504 => "STORE-FULL" | 505 => "U-PORTS" | 506 => "S-CONGESTED" | 507 => "U-CONGESTED" | 509 => "IMAGE" | 510 => "FUSE"
  | _ => "INTERNAL"

/-- A response before it is written: a payload and continuation lines, or a code and its detail. -/
inductive Reply
  | ok (payload : String) (lines : List String)
  | er (code : Nat) (detail : String)
  deriving DecidableEq, Repr

/-- A payload in one line. -/
def Reply.done (payload : String) : Reply := .ok payload []

def synReply (e : SynErr) : Reply :=
  if e.code = 511 then .er 511 ""
  else if (decide (101 ≤ e.code) && decide (e.code ≤ 107)) || e.code = 130 || e.code = 131 then .er e.code ("COL=" ++ dec e.col)
  else .er e.code ""

/-- R80: four upper-case hex characters after a tilde. -/
def checkText : Option Nat → String
  | none => ""
  | some c => "~" ++ String.ofList (hexPad 4 c)

def tagText : Option String → String
  | none => ""
  | some t => "@" ++ t ++ " "

/-- R77, R81: the lines of a response. check: the check received; computed: that of the body executed. -/
def Reply.text (tag : Option String) (check : Option Nat) (computed : Nat) : Reply → List String
  | .ok payload lines =>
    (tagText tag ++ (if payload = "" then "OK" else "OK " ++ payload) ++ checkText (check.map (fun _ => computed))) ::
      lines.map (fun l => tagText tag ++ "+ " ++ l)
  | .er code detail =>
    [tagText tag ++ "ER " ++ dec code ++ " " ++ codeName code ++ (if detail = "" then "" else " " ++ detail) ++ checkText check]

/-! ### EV lines (R85, R86) -/

/-- R86, R277: the object and label of a source. -/
def srcLabel (e : Fin 384) : String :=
  let n := e.val
  let pick (xs : List String) (i : Nat) : String := xs.getD i ""
  if n < 256 then "P" ++ padStr 2 (n / 4) ++ "." ++ pick ["EMIT", "STAMP", "MISS", "OVD"] (n % 4)
  else if n < 288 then "CL" ++ dec ((n - 256) / 4) ++ "." ++ pick ["READY", "QUAR", "CALWIN", "FAULT"] ((n - 256) % 4)
  else if n < 312 then
    "AX" ++ dec ((n - 288) / 6) ++ "." ++ pick ["INDEX", "CONFIRM", "RETRACT", "LOSS", "WRAP", "SLIP"] ((n - 288) % 6)
  else if n < 360 then
    "G" ++ dec ((n - 312) / 6) ++ "." ++
      pick ["SEGSTART", "SEGEND", "LOOPEND", "WAITING", "CHECKFAIL", "HALTED"] ((n - 312) % 6)
  else if n < 368 then "TRG" ++ dec (n - 360) ++ ".EDGE"
  else pick ["REF.REFLOSS", "REF.REFWARN", "REF.REFFAIL", "REF.SWITCH", "REF.HOLDOVER", "REF.LOCKLOSS", "BEL.WAKE",
    "BEL.RULE", "BEL.ALERT", "BEL.LOGFULL", "CAL.TABLESWAP", "CAL.ROTALATE", "SP.OVERFLOW", "SP.LINKDOWN", "SYS.TEMPWARN",
    "SYS.STEWARD"] (n - 368)

/-- R85: the text of an EV line. -/
def EvLine.text (e : EvLine) : String :=
  let time (w : TimeWord) := fmtTime e.fmt w.toNat
  let flags := (if e.prov then ["PROV"] else []) ++ (if e.shifted then ["SHIFTED"] else [])
  "EV " ++ time e.first ++ " " ++ objName (.src e.src) ++ " " ++ srcLabel e.src ++ " N=" ++ dec e.n ++
    (if 1 < e.n then " LAST=" ++ time e.last else "") ++
    (if flags.isEmpty then "" else " FLAGS=" ++ String.intercalate "," flags)

/-! ### What waits to leave (R91, R92, R109, R118) -/

/-- A byte is waiting to leave. -/
def LinkState.waiting (l : LinkState) : Bool :=
  !l.leaving.isEmpty || !l.echo.isEmpty || l.paused.isSome || !l.urgentQ.isEmpty || !l.standardQ.isEmpty

/-- A U response is ready and not yet sent. -/
def LinkState.urgentReady (l : LinkState) : Bool :=
  !l.urgentQ.isEmpty || (match l.current with | some i => decide (i.kind = .urgent) | none => false)

/-- R109: HSPI_ATTN# follows what is waiting. -/
def attn (s : State) : State := { s with spi := { s.spi with attnLow := s.hspi.waiting } }

/-- R109, R421, R514: the pad of HSPI_ATTN#, and whether HSPI_MISO is driven. -/
def State.attnPad (s : State) : Pad := if s.bel.off then .hiZ else driven true s.spi.attnLow
def State.misoDriven (s : State) : Bool := s.spi.selected && !s.padsOff

/-- R118: codes that the host-link logic forms without the steward. -/
def isRejection (code : Nat) : Bool := [108, 110, 120, 121, 503, 506].contains code

/-- An S line in the queue that only waits for its rejection response to be formed in order. -/
def Req.rejected (r : Req) : Bool := match r.parsed with | .bad e => isRejection e.code | .good _ => false

/-- R118: the rejection responses of a link that have not left. (DEDUCED, notes/assumptions/69.md) -/
def State.unsentRejections (s : State) (k : Link) : Nat :=
  let l := s.link k
  let one (i : OutItem) : Bool := i.rejection
  (l.urgentQ.filter one).length + (l.standardQ.filter one).length +
    (match l.current with | some i => if i.rejection then 1 else 0 | none => 0) +
    (s.steward.queue.filter (fun r => decide (r.link = k) && r.rejected)).length

/-- An item takes its place in the output of its link. A U response that becomes ready while ATTN# is low gives a falling
edge (R109). (DEDUCED, notes/assumptions/98.md) -/
def putOut (k : Link) (i : OutItem) (s : State) : State :=
  let low := s.spi.attnLow
  let s := match i.kind with
    | .urgent => s.modLink k (fun l => { l with urgentQ := l.urgentQ ++ [i] })
    | _ => s.modLink k (fun l => { l with standardQ := l.standardQ ++ [i] })
  let s := if k = .hspi && decide (i.kind = .urgent) && low then
      { s with spi := { s.spi with attnPulses := s.spi.attnPulses + 1 } }
    else s
  attn s

/-- The item of a response. -/
def responseItem (kind : OutKind) (lines : List String) (rejection outstanding : Bool) : OutItem :=
  { kind := kind, lines := lines, ev := none, rejection := rejection, outstanding := outstanding, onStart := [],
    onEnd := none }

/-- The item of an EV line. -/
def evItem (e : EvLine) : OutItem :=
  { kind := .ev e.src, lines := [], ev := some e, rejection := false, outstanding := false, onStart := [], onEnd := none }

/-- R88: an occurrence joins the unsent EV line of its source. -/
def joinLine (e : EvLine) : List OutItem → Option (List OutItem)
  | [] => none
  | i :: is =>
    match i.ev with
    | some x =>
      if x.src = e.src then
        some ({ i with ev := some { x with last := e.last, n := x.n + e.n, prov := x.prov || e.prov,
                                           shifted := x.shifted || e.shifted } } :: is)
      else (joinLine e is).map (fun js => i :: js)
    | none => (joinLine e is).map (fun js => i :: js)

/-- R48, R88: the steward takes over the count of a source for a link: the one whose hand-over is in progress. What came
meanwhile is the next. (DEDUCED, notes/assumptions/42.md, 78.md) -/
def formEv (k : Link) (src : Fin 384) (s : State) : State :=
  let l := s.link k
  match l.heldEv.find? (fun e => decide (e.src = src)) with
  | none => s
  | some e =>
    let s := s.modLink k (fun l => { l with heldEv := l.heldEv.eraseP (fun e => decide (e.src = src)) })
    match joinLine e l.standardQ with
    | some q => s.modLink k (fun l => { l with standardQ := q })
    | none => putOut k (evItem { e with fmt := s.tb.timeFmt }) s

/-! ### The prompt and echo (R60, R92, R102) -/

def crlf : List Byte := [13, 10]

/-- R60: the prompt. -/
def promptText : List Byte := [62, 32]

/-- The prompt and the partial line, on the present line of the terminal. -/
def LinkState.prompt (l : LinkState) : LinkState :=
  { l with echo := l.echo ++ promptText ++ textBytes l.part, prompted := true }

/-- The prompt and the partial line, on a new line. -/
def LinkState.promptNew (l : LinkState) : LinkState := ({ l with echo := l.echo ++ crlf }).prompt

/-- Bytes echoed at the end of the partial line. -/
def LinkState.echoed (bs : List Byte) (l : LinkState) : LinkState := { l with echo := l.echo ++ bs, prompted := true }

/-- A terminator echoed. -/
def LinkState.newline (l : LinkState) : LinkState := { l with echo := l.echo ++ crlf, prompted := false }

/-! ### Bytes that leave (R91, R92, R96, R108) -/

/-- R96, R108: how a line ends. -/
def lineEnd : Link → List Byte | .con => crlf | .hspi => [10]

def lineBytes (k : Link) (t : String) : List Byte := textBytes t.toList ++ lineEnd k

/-- R92: what comes before a line of output. (DEDUCED, notes/assumptions/96.md) -/
def LinkState.lead (l : LinkState) : List Byte := if l.mode = .typed && l.prompted then crlf else []

/-- The next line of an item starts. -/
def LinkState.startLine (k : Link) (i : OutItem) (first : Bool) (l : LinkState) : LinkState :=
  let lines := match i.ev with | some e => [e.text] | none => i.lines
  match lines with
  | [] => l
  | t :: ts =>
    { l with leaving := l.lead ++ lineBytes k t, current := some { i with lines := ts, ev := none }, started := !first,
             prompted := false }

/-- R91: what leaves next, once the present line is complete. -/
def LinkState.prepare (k : Link) (l : LinkState) : LinkState :=
  if !l.leaving.isEmpty then l
  else if !l.echo.isEmpty then { l with leaving := l.echo, echo := [], current := none }
  else match l.urgentQ, l.paused, l.standardQ with
    | u :: us, _, _ => { l with urgentQ := us }.startLine k u true
    | [], some p, _ => { l with paused := none }.startLine k p false
    | [], none, i :: is => { l with standardQ := is }.startLine k i true
    | [], none, [] => l

/-- R90, R114: the first byte of a response ends its line's outstanding state. -/
def LinkState.firstByte (i : OutItem) (l : LinkState) : LinkState :=
  let l := { l with started := true }
  if !i.outstanding then l
  else match i.kind with
    | .urgent => { l with uOut := l.uOut - 1 }
    | _ => { l with sOut := l.sOut - 1 }

/-- The last byte of a line has left: the item is complete, or its next line waits. (DEDUCED, notes/assumptions/70.md) -/
def LinkState.lineDone (i : OutItem) (l : LinkState) : LinkState :=
  if !i.lines.isEmpty then { l with current := none, paused := some i }
  else
    let l := { l with current := none }
    let quiet := l.urgentQ.isEmpty && l.standardQ.isEmpty && l.paused.isNone
    if l.mode = .typed && quiet then (if l.prompted then l.promptNew else l.prompt) else l

/-- R62: the links whose mode the first byte of a response changes. -/
def setModes (ms : List (Link × LinkMode)) (s : State) : State :=
  foldS ms (fun m s => s.modLink m.1 (fun l => { l with mode := m.2 })) s

/-! ### The console starts (R97, R98, R472, R486) -/

/-- R486: the letter of a stepping. -/
def steppingLetter : String := String.ofList [Char.ofNat (65 + Config.stepping.val)]

/-- R490: an image version, four bytes from the most significant. -/
def versionText (v : BitVec 32) : String :=
  let b (i : Nat) : String := dec (v.toNat / 256 ^ i % 256)
  b 3 ++ "." ++ b 2 ++ "." ++ b 1 ++ "." ++ b 0

def ImageSrc.text : ImageSrc → String
  | .flasha => "FLASHA" | .flashb => "FLASHB" | .download => "DOWNLOAD" | .update => "UPDATE"
def KeySlot.text : KeySlot → String | .empty => "EMPTY" | .programmed => "PROGRAMMED" | .spoiled => "SPOILED"
def BootStage.text : BootStage → String | .refwait => "REFWAIT" | .clusters => "CLUSTERS" | .done => "DONE"
def ResetCause.text : ResetCause → String
  | .poweron => "POWERON" | .pin => "PIN" | .command => "COMMAND" | .brownout => "BROWNOUT"

/-- R486: the three lines of the banner. (DEDUCED, notes/assumptions/70.md) -/
def bannerLines (b : Boot) : List String :=
  ["* TAMIEVAR KAZELEN KZ64",
   "* STEPPING=" ++ steppingLetter ++ " IMAGE=" ++ versionText b.image.version ++ " LEVEL=" ++ dec b.image.level ++
     " SOURCE=" ++ b.imageSrc.text ++ " ROM=" ++ dec Config.romRevision,
   "* DIEID=0x" ++ String.ofList (hexPad 8 Config.dieId.toNat) ++ " KEYSLOT=" ++ b.keySlot.text ++ " STAGE=" ++ b.stage.text ++
     " RESET=" ++ b.cause.text]

/-- R472: the banner of the boot ROM. -/
def romBanner : List String :=
  ["* TAMIEVAR KAZELEN KZ64 BOOT ROM=" ++ dec Config.romRevision ++ " STEPPING=" ++ steppingLetter]

/-- The console becomes running: the banner if it is due, and the prompt in typed mode (R98, R472, R486).
(DEDUCED, notes/assumptions/70.md) -/
def consoleRuns (s : State) : State :=
  let s := { s with console := { s.console with running := true } }
  if s.con.mode ≠ .typed then s
  else
    let put (ls : List String) (s : State) : State :=
      s.modLink .con (fun l => { l with echo := l.echo ++ ls.flatMap (lineBytes .con) })
    let s := match s.boot.step with
      | .download => if s.boot.romBannerDone then s else put romBanner (s.modBoot (fun b => { b with romBannerDone := true }))
      | _ => if s.boot.bannerDone then s else put (bannerLines s.boot) (s.modBoot (fun b => { b with bannerDone := true }))
    s.modLink .con LinkState.prompt

/-- R99: the console enters hunting. (DEDUCED, notes/assumptions/71.md) -/
def hunt (s : State) : State := { s with console := { s.console with running := false, rate := 0 } }

/-- R97, R99: CON.BAUD has been written, and its OK has left. (DEDUCED, notes/assumptions/71.md) -/
def newBaud (s : State) : State :=
  match s.console.baud with
  | none => hunt s
  | some r =>
    let was := s.console.running
    let s := { s with console := { s.console with rate := r } }
    if was then s else consoleRuns s

/-- What the last byte of a response sets off (R99, R407, R408, R418). -/
def onLeft (a : EndAction) (s : State) : State :=
  match a with
  | .hunt => newBaud s
  | .hardwareReset => s.modBoot (fun b => { b with resetOrder := b.resetOrder.map (fun o => { o with left := true }) })
  | .restart => { s with steward := { s.steward with
      ordered := s.steward.ordered.map (fun o => (o.1, { o.2 with left := true })) } }
  | .sleep => s.modBel (fun b => match b.step with | .accepted r _ => { b with step := .accepted r true } | _ => b)

/-- One output byte of a link leaves. -/
def sendByte (k : Link) (s : State) : State :=
  let l := (s.link k).prepare k
  match l.leaving with
  | [] => s
  | _ :: bs =>
    let first := !l.started
    let l := { l with leaving := bs }
    match l.current with
    | none => attn (s.modLink k (fun _ => l))
    | some i =>
      let l := if first then l.firstByte i else l
      let l := if bs.isEmpty then l.lineDone i else l
      let s := s.modLink k (fun _ => l)
      let s := if first then setModes i.onStart s else s
      let s := if bs.isEmpty && i.lines.isEmpty then (match i.onEnd with | some a => onLeft a s | none => s) else s
      attn s

/-- OUTPUT_BYTE_SENT (R108): on HSPI the first byte of a transfer is the status byte (R107). -/
def outputByte (k : Link) (s : State) : State :=
  match k with
  | .con => if s.console.running then sendByte .con s else s
  | .hspi =>
    if !s.spi.selected then s
    else if !s.spi.statusLeft then { s with spi := { s.spi with statusLeft := true } }
    else sendByte .hspi s

/-! ### The status byte (R107, R472, R480) -/

/-- A bit of the status byte. -/
def bitIf (b : Bool) (w : Nat) : Nat := if b then w else 0

/-- The layout of the status byte. (DEDUCED, notes/assumptions/72.md) -/
def statusByte (s : State) : Byte :=
  let l := s.hspi
  match s.boot.step with
  | .download | .building | .running =>
    BitVec.ofNat 8 (bitIf (decide (4 ≤ s.unsentRejections .hspi)) 128 + min l.uOut 4 * 16 + bitIf (decide (8 ≤ l.sOut)) 8 +
      bitIf s.steward.absent 4 + bitIf l.urgentReady 2 + bitIf l.waiting 1)
  | _ => 0x04

/-- HSPI_CS_FALL (R104, R107). -/
def csFall (sclkHigh : Bool) (s : State) : State :=
  if s.spi.selected then s
  else { s with spi := { s.spi with mode3 := sclkHigh, selected := true, statusLeft := false, status := statusByte s } }

/-- HSPI_CS_RISE (R108). cut: bits of an output byte have been clocked out, but not all eight: its line has started, and the
byte is the first output byte of the next transfer. -/
def csRise (cut : Bool) (s : State) : State :=
  let s := if cut && s.spi.selected && s.spi.statusLeft then s.modLink .hspi (LinkState.prepare .hspi) else s
  { s with spi := { s.spi with selected := false, statusLeft := false } }

end Sys2Proof.Machine
end

