-- ==== Sys2Proof/Machine/Image.lean ====
section
/-! DEFINITION. The image container, its authentication and the customer key slot (spec/18 R473 to R478, R492). -/
namespace Sys2Proof.Machine

/-! ### The container (R473) -/

def bytesAt (off n : Nat) (bs : List Byte) : List Byte := (bs.drop off).take n
def fieldLE (off n : Nat) (bs : List Byte) : Nat := ofBytesLE (bytesAt off n bs)

def headerLen : Nat := 256
def signatureLen : Nat := 128
def maxBody : Nat := 1048576

/-- BODYLEN. -/
def bodyLen (bs : List Byte) : Nat := fieldLE 8 4 bs

/-- The total length of an image. -/
def imageLen (bs : List Byte) : Nat := headerLen + bodyLen bs + signatureLen

def asciiBytes (t : String) : List Byte := textBytes t.toList

/-- Test 1: MAGIC, HDRLEN, FORMAT and the bytes that are 0. -/
def formatOk (bs : List Byte) : Bool :=
  decide (headerLen ≤ bs.length) && decide (bytesAt 0 4 bs = asciiBytes "TVI1") && decide (fieldLE 4 2 bs = 256) &&
    decide (fieldLE 6 2 bs = 1) && (bytesAt 192 64 bs).all (fun b => decide (b = 0))

/-- Test 2. -/
def partOk (bs : List Byte) : Bool := decide (bytesAt 12 4 bs = asciiBytes "KZ64")

/-- Test 3. -/
def steppingOk (bs : List Byte) : Bool :=
  let l := 65 + Config.stepping.val
  decide (fieldLE 16 1 bs ≤ l ∧ l ≤ fieldLE 17 1 bs)

/-- Test 4. bs: what the slot, buffer or segment holds from the image's byte 0 to its own end. -/
def lengthOk (bs : List Byte) : Bool :=
  decide (1 ≤ bodyLen bs ∧ bodyLen bs ≤ maxBody) && decide (imageLen bs ≤ bs.length)

def imageLevel (bs : List Byte) : Nat := fieldLE 18 2 bs
def bodyOf (bs : List Byte) : List Byte := bytesAt headerLen (bodyLen bs) bs
def imageSignature (bs : List Byte) : List Byte := bytesAt (headerLen + bodyLen bs) signatureLen bs

/-- A 256-bit number written most significant byte first. -/
def hashAt (off : Nat) (bs : List Byte) : BitVec 256 := BitVec.ofNat 256 (ofBytesBE (bytesAt off 32 bs))

/-- Test 7. -/
def hashOk (bs : List Byte) : Bool := decide (hashAt 32 bs = sha256 (bodyOf bs))

/-- The public key at an offset of the header has a hash (tests 8 and 10). -/
def keyHashOk (off : Nat) (header : List Byte) (h : BitVec 256) : Bool := decide (sha256 (bytesAt off 64 header) = h)

/-- The signature at an offset of the signature block, under the public key at an offset of the header, over the SHA-256 of
the header (tests 9 and 11). -/
def signedOk (key sig : Nat) (header signature : List Byte) : Bool :=
  let num (off : Nat) (bs : List Byte) : Nat := ofBytesBE (bytesAt off 32 bs)
  ecdsaVerify (num key header) (num (key + 32) header) (num sig signature) (num (sig + 32) signature)
    (sha256 (bytesAt 0 headerLen header))

/-! ### Authentication (R476) -/

/-- What only an update tests: its blocks, and the running level. -/
structure UpdateTests where
  blocksOk : Bool
  level : Nat
  deriving DecidableEq, Repr

/-- R474, R478: the hash in the customer key slot while it is PROGRAMMED. -/
def Boot.custKey (b : Boot) : Option (BitVec 256) :=
  match b.keySlot with
  | .programmed => some (b.keyHash[0] ++ b.keyHash[1] ++ b.keyHash[2] ++ b.keyHash[3])
  | _ => none

/-- R476: the first test that fails, in order. -/
def authenticate (cust : Option (BitVec 256)) (upd : Option UpdateTests) (bs : List Byte) : ImageFault :=
  if !formatOk bs then .format
  else if !partOk bs then .part
  else if !steppingOk bs then .stepping
  else if !lengthOk bs then .length
  else if (match upd with | some u => !u.blocksOk | none => false) then .block
  else if (match upd with | some u => decide (imageLevel bs < u.level) | none => false) then .level
  else if !hashOk bs then .hash
  else if !keyHashOk 64 bs Config.vendorKeyHash then .vendorkey
  else if !signedOk 64 0 bs (imageSignature bs) then .vendorsig
  else match cust with
    | none => .none
    | some h =>
      if !keyHashOk 128 bs h then .custkey
      else if !signedOk 128 64 bs (imageSignature bs) then .custsig
      else .none

/-- What the device keeps of an image that runs. -/
def imageOf (bs : List Byte) : Image :=
  { version := BitVec.ofNat 32 (fieldLE 20 4 bs), level := imageLevel bs, features := BitVec.ofNat 64 (fieldLE 24 8 bs),
    header := bs.take headerLen, signature := imageSignature bs }

/-! ### A staged image (R492) -/

/-- The block of a segment that holds a byte can be read. -/
def Segment.readable (x : Segment) (k : Nat) : Bool :=
  match x.written.find? (fun b => decide (b.idx = k)) with
  | some b => !b.bad
  | none => false

/-- The bytes of a block, as a copy takes them. (DESIGN CHOICE, notes/assumptions/15.md) -/
def Segment.blockBytes (x : Segment) (k : Nat) : List Byte :=
  match x.written.find? (fun b => decide (b.idx = k && !b.bad)) with
  | some b => (List.range 1024).map (fun i => b.bytes.getD i 0)
  | none => (List.range 1024).map (fun i => Config.unreadableByte x.id.val (1024 * k + i))

/-- The bytes of a segment. -/
def Segment.bytes (x : Segment) : List Byte := (List.range x.blocks).flatMap x.blockBytes

/-- Test 5: every block that holds the image passes its check. -/
def Segment.imageBlocksOk (x : Segment) (n : Nat) : Bool := (List.range ((n + 1023) / 1024)).all (fun k => !x.blockFails k)

/-- R492: the fault of the image staged in a segment, and its bytes. (DESIGN CHOICE, notes/assumptions/15.md) -/
def stagedImage (b : Boot) (x : Segment) : ImageFault × List Byte :=
  let bs := x.bytes
  (authenticate b.custKey (some ⟨x.imageBlocksOk (imageLen bs), b.image.level⟩) bs, bs)

/-! ### The customer key slot (R477, R478) -/

/-- The staged hash. -/
def Boot.stagedKey (b : Boot) : BitVec 256 := b.keyStage[0] ++ b.keyStage[1] ++ b.keyStage[2] ++ b.keyStage[3]

/-- R477: the running image carries a customer key of a hash, and a signature that verifies under it. -/
def Image.carries (x : Image) (h : BitVec 256) : Bool :=
  keyHashOk 128 x.header h && signedOk 128 64 x.header x.signature

/-- R477: the code of a write of SYS.KEYPROG=PROGRAM. (DEDUCED, notes/assumptions/79.md) -/
def Boot.keyTest (b : Boot) : Option Nat :=
  match b.keySlot with
  | .empty => if b.image.carries b.stagedKey then none else some 304
  | _ => some 510

/-- R477, R478: the fuses are programmed and read back. (DEDUCED, notes/assumptions/79.md) -/
def Boot.burn (readBackOk : Bool) (b : Boot) : Boot :=
  if readBackOk then { b with keySlot := .programmed, keyHash := b.keyStage } else { b with keySlot := .spoiled }

end Sys2Proof.Machine
end

