-- ==== Sys2Proof/Machine/Answer.lean ====
section
/-! DEFINITION. How the steward answers a line: what the execution of a command gives, the codes of a line that addresses a
cluster, and the line at the front of its queue (spec/03 R72, R90, R93; spec/15 R394, R408, R409; spec/16 R418). -/
namespace Sys2Proof.Machine

/-- What executing a command gives: a rejection, its code and detail, or the payload with its continuation lines, what the
response sets off, and the state. failed: the effect went wrong and the line is answered with this code (R478). -/
structure Done where
  payload : String
  lines : List String
  onStart : List (Link × LinkMode)
  onEnd : Option EndAction
  failed : Option Nat
  state : State
  deriving DecidableEq, Repr

abbrev Exec := Except (Nat × String) Done

def done (payload : String) (s : State) : Exec := .ok ⟨payload, [], [], none, none, s⟩
/-- R81: a response of several lines. -/
def doneLines (head : String) (lines : List String) (s : State) : Exec :=
  .ok ⟨head ++ " LINES=" ++ dec lines.length, lines, [], none, none, s⟩
def reject (code : Nat) (detail : String) : Exec := .error (code, detail)

/-- R54, R73, R34: the instant of reception, and the current frame of each axis then. -/
structure Recv where
  time : TimeWord
  frames : List (Option Frame)
  deriving DecidableEq, Repr

def State.recvNow (s : State) : Recv := ⟨s.tb.now, (List.finRange 4).map (fun a => s.axes[a].currentFrame s.tb.now)⟩

def Req.received (r : Req) : Recv := ⟨r.recv.getD 0, r.frames⟩

/-! ### Details (R79) -/

/-- R79: the detail of a syntax code. -/
def SynErr.detail (e : SynErr) : String :=
  if (decide (101 ≤ e.code ∧ e.code ≤ 107)) || e.code == 130 || e.code == 131 then "COL=" ++ dec e.col else ""

def SynErr.reply (e : SynErr) : Reply := .er e.code e.detail

/-- R95. -/
def State.ring (s : State) : Bool := decide (s.tb.clkSrc = .ring)

/-! ### Lines that address a cluster (R394) -/

inductive LineKind
  | readCl | setCl | readPort | setPort | work | cancel | calExport | calImport | drain | powerOff | powerOn | join | reset
  deriving DecidableEq, Repr

/-- R394: the code of a line in a state of the cluster it addresses; none: it is executed. -/
def lineCode (k : LineKind) (c : ClState) : Option Nat :=
  match k, c with
  | .setCl, .draining | .setPort, .draining | .work, .draining | .calImport, .draining => some 412
  | .setCl, .joining | .setPort, .joining | .work, .joining | .cancel, .joining | .calImport, .joining
  | .drain, .joining => some 431
  | .readPort, .off | .setPort, .off => some 410
  | .work, .off | .cancel, .off | .calExport, .off | .calImport, .off => some 410
  | .work, .quarantine | .cancel, .quarantine | .calExport, .quarantine | .calImport, .quarantine => some 410
  | .drain, .off | .drain, .quarantine => some 406
  | .powerOff, .active | .powerOff, .draining => some 408
  | .join, .active | .join, .draining => some 406
  | _, _ => none

/-- The state of a cluster admits a line; otherwise the code, with the object named. -/
def State.clusterTest (s : State) (k : LineKind) (c : Fin 8) (o : Obj) : Except (Nat × String) Unit :=
  match lineCode k s.clusters[c].state with
  | some code => .error (code, objName o)
  | none => .ok ()

/-! ### The steward -/

/-- R107, R408: the steward is there. -/
def State.stewardHere (s : State) : Bool := !s.steward.absent && decide (s.boot.step = .running) && !s.bel.off

/-- The response of an S line is formed. (DESIGN CHOICE, notes/assumptions/11.md) -/
def answer (r : Req) (x : Exec) (s : State) : State :=
  let item (rep : Reply) : OutItem := responseItem .standard (rep.text r.tag r.check r.computed) false true
  match x with
  | .error (c, d) => putOut r.link (item (.er c d)) s
  | .ok y =>
    let rep : Reply := match y.failed with | some c => .er c "" | none => .ok y.payload y.lines
    putOut r.link { item rep with onStart := y.onStart, onEnd := y.onEnd } y.state

/-- R120, R409: every S line without a response is answered by the host-link logic: with its own rejection, or with ER 503.
-/
def flushReq (r : Req) (s : State) : State :=
  let rep := match r.parsed with
    | .bad e => if isRejection e.code then e.reply else .er 503 ""
    | .good _ => .er 503 ""
  putOut r.link (responseItem .standard (rep.text r.tag r.check r.computed) true (!r.rejected)) s

/-- R89: the occurrences of an EV line that has not started join those that are counted. -/
def holdEv (x : EvLine) : List EvLine → List EvLine
  | [] => [x]
  | e :: es =>
    if e.src = x.src then
      { x with last := e.last, n := x.n + e.n, prov := x.prov || e.prov, shifted := x.shifted || e.shifted } :: es
    else e :: holdEv x es

/-- R89: no EV line is sent while the steward is absent. (DEDUCED, notes/assumptions/78.md) -/
def LinkState.holdEvs (l : LinkState) : LinkState :=
  { l with standardQ := l.standardQ.filter (fun i => i.ev.isNone),
           heldEv := (l.standardQ.filterMap (fun i => i.ev)).foldr holdEv l.heldEv }

/-- R409, R411: the steward leaves: the lines it has not executed are answered, and staging buffers are emptied (R361).
(DEDUCED, notes/assumptions/69.md) -/
def stewardLeaves (cause : RestartCause) (s : State) : State :=
  let rs := s.steward.queue
  let w := s.steward
  let s : State := { s with steward := { w with
    queue := [], absent := true, restarts := w.restarts + 1, cause := cause } }
  let empty (q : Port) : Port := { q with staging := [] }
  let s : State := { s with ports := s.ports.map empty }
  attn (foldS rs flushReq { s with con := s.con.holdEvs, hspi := s.hspi.holdEvs })

/-- R408: an uncorrectable error in an object-store word that a line read. (DESIGN CHOICE, notes/assumptions/10.md) -/
def storeFault (r : Req) (s : State) : State :=
  let s := answer r (.error (511, "")) s
  stewardLeaves .storefault { s with steward := { s.steward with storeFaults := s.steward.storeFaults + 1 } }

/-- A line that is answered with the code it has already met. A rejection of the host-link logic that waited for its turn is
a rejection response (R118). -/
def answerBad (r : Req) (e : SynErr) (s : State) : State :=
  putOut r.link (responseItem .standard (e.reply.text r.tag r.check r.computed) r.rejected (!r.rejected)) s

/-- R90, R91: the lines at the front that are already decided are answered in their turn. -/
def drainBad : Nat → State → State
  | 0, s => s
  | n + 1, s =>
    match s.steward.queue with
    | [] => s
    | r :: rs =>
      match r.parsed with
      | .good _ => s
      | .bad e =>
        if s.steward.absent && decide (s.boot.step ≠ .download) then s
        else drainBad n (answerBad r e { s with steward := { s.steward with queue := rs } })

def settleQueue (s : State) : State := drainBad s.steward.queue.length s

/-- R72, R93: a syntax code of a value comes first, then one behind the parsed part of the line, then R418, then execution.
-/
def phases (syn tail : Option SynErr) (busy : Bool) (run : Unit → Exec) : Exec :=
  match syn, tail with
  | some e, _ => .error (e.code, e.detail)
  | none, some e => .error (e.code, e.detail)
  | none, none => if busy then .error (401, "SYS") else run ()

/-- The steward executes the line at the front of its queue, if its command is one that is wanted (R90). syn: the first
syntax code that its values give; run: its execution. fault: reading the object store met an uncorrectable error.
(DESIGN CHOICE, notes/assumptions/9.md, 10.md, 11.md) -/
def steward (fault : Bool) (want : Cmd → Bool) (syn : Cmd → State → Option SynErr)
    (run : Req → Cmd → State → Exec) (s : State) : State :=
  if !s.stewardHere then s
  else match s.steward.queue with
    | [] => s
    | r :: rs => match r.parsed with
      | .bad _ => s
      | .good p =>
        if !want p.cmd then s
        else
          let s := { s with steward := { s.steward with queue := rs } }
          if fault then storeFault r s
          else settleQueue (answer r (phases (syn p.cmd s) p.tail r.busy (fun _ => run r p.cmd s)) s)

/-- A command whose arguments hold no value of a field. -/
def noSyn (_ : Cmd) (_ : State) : Option SynErr := none

/-- The syntax code of a value against its field (R552): the 1xx codes; the others are codes found in execution. -/
def fieldSyn (ty : FieldTy) (v : RawVal) : Option SynErr :=
  match readField ty v.text.toList with
  | .error e => if e.code < 200 then some ⟨e.code, v.col + e.off⟩ else none
  | .ok _ => none

/-- The first that is given. -/
def firstOf {α : Type} : List (Option α) → Option α
  | [] => none
  | some a :: _ => some a
  | none :: xs => firstOf xs

end Sys2Proof.Machine
end

