-- ==== Sys2Proof/Machine/Verbs.lean ====
section
/-! DEFINITION. The verbs that assert tasks, SCHED and CANCEL: what the steward and the fast path do alike (spec/03 R70 to
R76; spec/04 R110 to R112; spec/08 R219 to R224; spec/07 R193, R204 to R208). -/
namespace Sys2Proof.Machine

/-! ### Verbs that assert tasks (R70, R71) -/

/-- The object of an argument; a name that names none gets ER 201 (R69). -/
def theObj (o : ObjArg) : Except (Nat × String) Obj :=
  match o with
  | .ok x => .ok x
  | .bad n => .error (201, n)

/-- R70: a verb written with an object that its form does not name. -/
def notApplicable {α : Type} (o : Obj) : Except (Nat × String) α := .error (207, objName o)

/-- R71: a verb asserts a task in the present fabric cycle. -/
def assertKind (k : TaskKind) (s : State) : State := assertTask k.task none Flags.none s

/-- R394: a port's task may be asserted. (DEDUCED, notes/assumptions/65.md) -/
def State.workTest (s : State) (p : Fin 64) (o : Obj) : Except (Nat × String) Unit := s.clusterTest .work (clusterOf p) o

/-- FIRE port, FIRE task. -/
def fireVerb (o : ObjArg) (s : State) : Exec := do
  match ← theObj o with
  | .port p => s.workTest p (.port p); done ("FIRE " ++ o.name) (assertKind (.fire p) s)
  | .tk t =>
    match taskPort t with
    | some p => s.workTest p (.tk t)
    | none => pure ()
    done ("FIRE " ++ o.name) (assertTask t none Flags.none s)
  | x => notApplicable x

def armVerb (o : ObjArg) (s : State) : Exec := do
  match ← theObj o with
  | .port p => s.workTest p (.port p); done ("ARM " ++ o.name) (assertKind (.arm p) s)
  | x => notApplicable x

def disarmVerb (o : ObjArg) (s : State) : Exec := do
  match ← theObj o with
  | .port p => s.workTest p (.port p); done ("DISARM " ++ o.name) (assertKind (.disarm p) s)
  | x => notApplicable x

/-- HALT group, HALT ALL: all eight in one fabric cycle. -/
def haltVerb (o : Option ObjArg) (s : State) : Exec :=
  match o with
  | none => done "HALT ALL" (eachFin 8 (fun g s => assertKind (.gStop g) s) s)
  | some a => do
    match ← theObj a with
    | .grp g => done ("HALT " ++ a.name) (assertKind (.gStop g) s)
    | x => notApplicable x

def stepVerb (o : ObjArg) (s : State) : Exec := do
  match ← theObj o with
  | .grp g => done ("STEP " ++ o.name) (assertKind (.gStep g) s)
  | x => notApplicable x

def markVerb (o : ObjArg) (s : State) : Exec := do
  match ← theObj o with
  | .ax a => done ("MARK " ++ o.name) (assertKind (.mark a) s)
  | x => notApplicable x

/-- START group, START frame. -/
def startVerb (o : ObjArg) (s : State) : Exec := do
  match ← theObj o with
  | .grp g => done ("START " ++ o.name) (assertKind (.gStart g) s)
  | .mf m => done ("START " ++ o.name) (assertKind (.mfStart m) s)
  | x => notApplicable x

def abortVerb (o : ObjArg) (s : State) : Exec := do
  match ← theObj o with
  | .mf m => done ("ABORT " ++ o.name) (assertKind (.mfAbort m) s)
  | x => notApplicable x

/-! ### Targets (R17, R31 to R36, R73) -/

/-- The field of a target: AT an absolute time word or a position, IN an interval (R73). -/
def atField : FieldTy := .time false 1 0 (2 ^ 64 - 1) [] true
def inField : FieldTy := .time true 1 intervalMin intervalMax [] false

def isIncrement (s : State) (a : Option (Fin 4)) : Option Bool := a.map (fun a => decide (s.axes[a].cfg.mode = .increment))

/-- R33: the syntax code of the offset of a position on an axis; on no axis, that which both kinds of axis give.
(DEDUCED, notes/assumptions/75.md) -/
def offsetErr (incr : Option Bool) (off : Text) : Option Nat :=
  let err (r : Except Nat Int) : Option Nat := match r with | .error c => some c | .ok _ => none
  match incr with
  | some b => err (readOffset b off)
  | none => if (err (readOffset true off)).isSome then err (readOffset false off) else none

/-- R33, R552: the first syntax code of a target. -/
def targetSyn (s : State) (axis : Option (Fin 4)) (ty : FieldTy) (v : RawVal) : Option SynErr :=
  match readField ty v.text.toList with
  | .error e => if e.code < 200 then some ⟨e.code, v.col + e.off⟩ else none
  | .ok (.pos p) => (offsetErr (isIncrement s axis) p.off).map (fun c => ⟨c, v.col⟩)
  | .ok (.val _) => none

/-- A resolved target. -/
inductive Target
  | word (w : TimeWord)
  | pos (a : Fin 4) (frame : Frame) (off : Nat)
  deriving DecidableEq, Repr

/-- R36: the report form of a position. -/
def posText (s : State) (a : Fin 4) (frame : Frame) (off : Nat) : String :=
  fmtAtom s.tb.timeFmt (.pos frame.toNat off (decide (s.axes[a].cfg.mode = .increment)))

def Target.text (s : State) : Target → String
  | .word w => fmtTime s.tb.timeFmt w.toNat
  | .pos a n o => posText s a n o

/-- R31, R32, R34, R188: a position is resolved on an axis. (DEDUCED, notes/assumptions/65.md) -/
def resolvePos (s : State) (rc : Recv) (a : Fin 4) (p : PosText) : Except (Nat × String) (Frame × Nat) :=
  let x := s.axes[a]
  let incr := decide (x.cfg.mode = .increment)
  let frame : Except (Nat × String) Frame :=
    if p.rel then
      if 65535 < p.count then .error (301, "")
      else match rc.frames.getD a.val none with
        | some c => .ok (c + BitVec.ofNat 48 p.count)
        | none => .error (403, objName (.ax a))
    else if 2 ^ 48 ≤ p.count then .error (301, "") else .ok (BitVec.ofNat 48 p.count)
  if !x.numbered then .error (403, objName (.ax a))
  else do
    let n ← frame
    match readOffset incr p.off with
    | .error c => .error (c, "")
    | .ok o =>
      if inRange 0 ((if incr then x.cfg.counts else x.cfg.period) - 1 : Int) o then return (n, o.toNat)
      else .error (301, "")

/-- R73, R213: the target of a line on a port. (DEDUCED, notes/assumptions/65.md) -/
def resolveTarget (s : State) (rc : Recv) (axis : Option (Fin 4)) (obj : String) (isIn : Bool) (v : RawVal) :
    Except (Nat × String) Target :=
  match readField (if isIn then inField else atField) v.text.toList with
  | .error e => .error (e.code, "")
  | .ok (.pos p) =>
    match axis with
    | none => .error (304, obj)
    | some a => do let (n, o) ← resolvePos s rc a p; return .pos a n o
  | .ok (.val (.one (.time t))) => .ok (.word (if isIn then tadd rc.time t else BitVec.ofInt 64 t))
  | .ok (.val _) => .error (103, "")

/-- R17: 2^62 tu. -/
def horizonTu : Int := 2 ^ 62

/-- R17, R35: the lead and the horizon of an instant. -/
def leadTest (lead : Int) (ref w : TimeWord) : Except (Nat × String) Unit :=
  let d := tdiff w ref
  if d < lead then .error (305, "") else if horizonTu < d then .error (301, "") else .ok ()

/-- R206: a position of an INCREMENT axis is too soon if its count edge has arrived or is the next. -/
def countTest (x : Axis) (n : Frame) (k : Nat) : Except (Nat × String) Unit :=
  match x.anchor with
  | none => .ok ()
  | some an =>
    let d := fdiff n an.n
    if d < 0 || (d = 0 && decide (k ≤ x.count + 1)) then .error (305, "") else .ok ()

/-- The instant of a target, where it has one: for a position, the predicted one (R35). -/
def Target.instant (s : State) : Target → Option TimeWord
  | .word w => some w
  | .pos a n o => (s.axes[a].frameStart n).map (fun t => tadd t o)

/-! ### SCHED (R73, R219 to R224, R227) -/

/-- The leads of R112 and R221. -/
def urgentLead : Int := 20000000
def portLead : Int := 2500000

/-- The pulse of a SCHED at a target. -/
def schedPulse (s : State) (width : Nat) (t : Target) : Pulse :=
  let lead : Option TimeWord := match t with
    | .word w => some w
    | .pos a n o =>
      let x := s.axes[a]
      if x.bindsNow n then (x.frameStart n).map (fun f => tadd f o) else none
  { origin := match t with | .word w => .schedTime w | .pos a n o => .schedAxis a n o
    lead := lead, width := width, trail := match lead with | some l => tadd l width | none => 0, committed := false,
    high := false, moved := false, late := none, flags := Flags.none, dtc := none, dtcTrail := none }

/-- R227: a new pulse against an entry of the queue: by time word where both have one, by offset in the same frame.
(DEDUCED, notes/assumptions/76.md) -/
def schedConflict (s : State) (gap width : Nat) (t : Target) (y : Pulse) : Bool :=
  let byTime : Bool := match t.instant s with
    | some l => y.conflicts gap l (tadd l width)
    | none => false
  match y.lead, t, y.axisFrame with
  | none, .pos a n o, some (b, m, p) =>
    decide (a = b ∧ n = m) &&
      (if s.axes[a].cfg.mode = .increment then decide (o = p) else decide (o < p + y.width + gap ∧ p < o + width + gap))
  | none, _, _ => false
  | some _, _, _ => byTime

/-- The k-th target of a REPEAT line (R222). -/
def Target.plus (t : Target) (d : Nat) : Target :=
  match t with
  | .word w => .word (tadd w d)
  | .pos a n o => .pos a n (o + d)

/-- REPEAT and EVERY as a line gives them: their values (R73). -/
structure Rep where
  n : Nat
  every : Nat
  given : Bool
  deriving DecidableEq, Repr

def repeatField : FieldTy := .int false 1 64 []
def everyField : FieldTy := .time false 1 4000 100000000000000 [] false

def keyField (k : KeyVal) : FieldTy := if k.key == "REPEAT" then repeatField else everyField

def readRep (kv : List KeyVal) : Except (Nat × String) Rep :=
  let one (k : KeyVal) (r : Rep) : Except (Nat × String) Rep :=
    match readField (keyField k) k.value.text.toList with
    | .ok (.val (.one (.int n))) => .ok { r with n := n.toNat, given := true }
    | .ok (.val (.one (.time v))) => .ok { r with every := v.toNat, given := true }
    | .ok _ => .error (103, "")
    | .error e => .error (e.code, "")
  kv.foldlM (fun r k => one k r) ⟨1, 0, false⟩

def repText (f : TimeFmt) (r : Rep) (kv : List KeyVal) : String :=
  String.join (kv.map (fun k => if k.key == "REPEAT" then " REPEAT=" ++ dec r.n else " EVERY=" ++ fmtTime f r.every))

/-- The port of a SCHED or CANCEL. -/
def thePort (o : ObjArg) : Except (Nat × String) (Fin 64) := do
  match ← theObj o with
  | .port p => return p
  | x => notApplicable x

/-- The axis of the port that an argument names. -/
def axisOf (s : State) (o : ObjArg) : Option (Fin 4) :=
  match o with
  | .ok (.port p) => s.ports[p].cfg.axis
  | _ => none

/-- R205: a position on an axis with RUNAHEAD=OFF leaves room for the triggered path. -/
def axisInsertion (s : State) (a : Fin 4) (o : Nat) : Except (Nat × String) Unit :=
  let x := s.axes[a]
  if !x.cfg.runAhead && decide (x.cfg.mode ≠ .increment) && decide (o < insertionTu) then .error (302, objName (.ax a))
  else .ok ()

/-- R205, R224: the delay that the triggered path takes. -/
def insertionTest (s : State) (p : Fin 64) (t : Target) : Except (Nat × String) Unit :=
  match t with
  | .word _ => .ok ()
  | .pos a _ o =>
    let x := s.axes[a]
    if x.cfg.mode = .increment && decide (s.ports[p].cfg.delay < insertionTu) then
      .error (302, objName (.port p) ++ ".DELAY")
    else axisInsertion s a o

/-- R17, R35, R112, R206, R221: a target is far enough ahead and near enough. -/
def timeTest (s : State) (rc : Recv) (urgent : Bool) (t : Target) : Except (Nat × String) Unit :=
  match t, t.instant s with
  | .pos a n k, none => countTest s.axes[a] n k
  | _, some w => leadTest (if urgent then urgentLead else portLead) (if urgent then rc.time else s.tb.now) w
  | .word w, none => leadTest portLead s.tb.now w

/-- SCHED (R73, R219 to R224, R227, R348). (DEDUCED, notes/assumptions/64.md, 65.md) -/
def schedVerb (urgent : Bool) (rc : Recv) (o : ObjArg) (cl : Clause) (kv : List KeyVal) (s : State) : Exec := do
  let p ← thePort o
  let name := objName (.port p)
  s.workTest p (.port p)
  if s.ring then reject 402 "" else
  let q := s.ports[p]
  if !isPulseMode q.cfg.mode then reject 406 name else
  let t ← resolveTarget s rc q.cfg.axis name cl.isIn cl.value
  let r ← readRep kv
  insertionTest s p t
  let last := t.plus ((r.n - 1) * r.every)
  match last with
  | .pos a _ off =>
    let x := s.axes[a]
    if decide ((if x.cfg.mode = .increment then x.cfg.counts else x.cfg.period) ≤ off) then reject 301 "" else pure ()
  | .word _ => pure ()
  timeTest s rc urgent t
  timeTest s rc urgent last
  let gap := gapOf q.cfg.mode
  if r.given && decide (r.every < q.cfg.width + gap) then reject 304 name else
  if 64 < q.queue.length + r.n then reject 501 name else
  let ts := (List.range r.n).map (fun k => t.plus (k * r.every))
  if ts.any (fun t => q.queue.any (schedConflict s gap q.cfg.width t)) then reject 304 name else
  done ("SCHED " ++ name ++ " AT " ++ t.text s ++ repText s.tb.timeFmt r kv)
    (foldS ts (fun t u => settlePulse p (schedPulse s q.cfg.width t) u) s)
where
  reject {α : Type} (c : Nat) (d : String) : Except (Nat × String) α := .error (c, d)

/-- The syntax codes of the values of a SCHED line, from left to right. -/
def schedSyn (s : State) (o : ObjArg) (cl : Clause) (kv : List KeyVal) : Option SynErr :=
  firstOf (targetSyn s (axisOf s o) (if cl.isIn then inField else atField) cl.value ::
    kv.map (fun k => fieldSyn (keyField k) k.value))

/-! ### CANCEL (R74, R219, R223) -/

/-- R223: a scheduled pulse can still be removed. -/
def Pulse.cancellable (s : State) (x : Pulse) : Bool := x.isScheduled && !x.high && !x.isCommitted s.cycle

/-- R74: the target that a scheduled pulse was given. -/
def Pulse.target (x : Pulse) : Option Target :=
  match x.origin with
  | .schedTime w => some (.word w)
  | .schedAxis a n o => some (.pos a n o)
  | _ => none

/-- Removes the scheduled pulses that a test picks, and counts them. (DEDUCED, notes/assumptions/76.md) -/
def cancelPulses (p : Fin 64) (pick : Pulse → Bool) (s : State) : State × Nat :=
  let goes (x : Pulse) : Bool := x.cancellable s && pick x
  let q := s.ports[p].queue
  if !isPulseMode s.ports[p].cfg.mode then (s, 0)
  else (s.modPort p (fun y => { y with queue := q.filter (fun x => !goes x) }), (q.filter goes).length)

/-- CANCEL port AT target, CANCEL port ALL. -/
def cancelVerb (rc : Recv) (o : ObjArg) (v : Option RawVal) (s : State) : Exec := do
  let p ← thePort o
  let name := objName (.port p)
  s.clusterTest .cancel (clusterOf p) (.port p)
  match v with
  | none =>
    let r := cancelPulses p (fun _ => true) s
    done ("CANCEL " ++ name ++ " ALL N=" ++ dec r.2) r.1
  | some v =>
    if s.ring then reject 402 "" else
    let t ← resolveTarget s rc s.ports[p].cfg.axis name false v
    insertionTest s p t
    let r := cancelPulses p (fun x => decide (x.target = some t)) s
    done ("CANCEL " ++ name ++ " AT " ++ t.text s ++ " N=" ++ dec r.2) r.1

def cancelSyn (s : State) (o : ObjArg) (v : Option RawVal) : Option SynErr :=
  match v with
  | none => none
  | some v => targetSyn s (axisOf s o) atField v

/-! ### The fast path (R75, R110) -/

/-- The syntax codes of the values of an admitted `!` line. -/
def urgentSyn (c : Cmd) (s : State) : Option SynErr :=
  match c with
  | .sched o cl kv => schedSyn s o cl kv
  | .cancel o v => cancelSyn s o v
  | _ => none

/-- R110: the fast path executes an admitted `!` line. -/
def urgentRun (c : Cmd) (s : State) : Exec :=
  match c with
  | .fire o => fireVerb o s
  | .arm o => armVerb o s
  | .disarm o => disarmVerb o s
  | .halt o => haltVerb o s
  | .step o => stepVerb o s
  | .mark o => markVerb o s
  | .sched o cl kv => schedVerb true s.recvNow o cl kv s
  | .cancel o v => cancelVerb s.recvNow o v s
  | _ => reject 511 ""

end Sys2Proof.Machine
end

