-- ==== Sys2Proof/Machine/Links.lean ====
section
/-! DEFINITION. Lines and characters that arrive on the command links: assembly and editing of a line, autobaud and break, the
tests of the host-link logic, the way to the steward and the fast path (spec/03 R53 to R68, R90, R93; spec/04 R96 to R120;
spec/14 R368 to R373; spec/16 R418; spec/18 R472, R480, R486). -/
namespace Sys2Proof.Machine

/-! ### Which links take characters -/

/-- R465, R468, R480, R421: lines are received: not before the image starts, except in DOWNLOAD, and not in SLEEP. -/
def State.linksLive (s : State) : Bool :=
  !s.boot.resetLow && !s.bel.off && (match s.boot.step with | .download | .building | .running => true | _ => false)

/-- A character may arrive on a link: the console is running (R98), a transfer is under way (R106). -/
def State.hears (s : State) (k : Link) : Bool :=
  s.linksLive && (match k with | .con => s.console.running | .hspi => s.spi.selected)

/-! ### Assembly and editing (R53 to R58, R102, R103) -/

/-- R55: the characters that a line holds. -/
def maxLine : Nat := 255

def charOf (b : Byte) : Char := Char.ofNat b.toNat

/-- The last five of the characters that have come. -/
def lastFive (t : List Char) (c : Char) : List Char := let u := t ++ [c]; u.drop (u.length - 5)

/-- R55, R103: a character enters the line. -/
def LinkState.store (b : Byte) (l : LinkState) : LinkState :=
  let l := { l with tail := lastFive l.tail (charOf b) }
  if maxLine ≤ l.part.length then { l with tooLong := true } else { l with part := l.part ++ [charOf b] }

/-- R102: BEL. -/
def bell : List Byte := [7]

/-- R102: ESC [ A: the partial line becomes the last line received, written again. (DEDUCED, notes/assumptions/67.md) -/
def LinkState.recall (l : LinkState) : LinkState := { l with
  part := l.lastLine.take maxLine, tooLong := false, esc := .none }.promptNew

/-- R102: a character that is part of an escape sequence. (DEDUCED, notes/assumptions/67.md) -/
def LinkState.escape (b : Byte) (l : LinkState) : LinkState :=
  match l.esc with
  | .none => l
  | .esc => { l with esc := if b = 0x5B then .csi else .none }
  | .csi =>
    if b = 0x41 then l.recall
    else { l with esc := if 0x40 ≤ b.toNat ∧ b.toNat ≤ 0x7E then .none else .param }
  | .param => { l with esc := if 0x40 ≤ b.toNat ∧ b.toNat ≤ 0x7E then .none else .param }

/-- R102: a character in typed mode, which is no terminator. (DEDUCED, notes/assumptions/67.md) -/
def LinkState.typedByte (b : Byte) (l : LinkState) : LinkState :=
  if l.esc ≠ .none then l.escape b
  else if 0x20 ≤ b.toNat ∧ b.toNat ≤ 0x7E then
    if maxLine ≤ l.part.length then { l with tooLong := true }.echoed bell
    else { l with part := l.part ++ [charOf b] }.echoed [b]
  else if b = 0x08 ∨ b = 0x7F then
    if l.part.isEmpty then l.echoed bell else { l with part := l.part.dropLast }.echoed [8, 32, 8]
  else if b = 0x15 then { l with part := [], tooLong := false, echo := l.echo ++ crlf }.prompt
  else if b = 0x03 then { l with part := [], tooLong := false, echo := l.echo ++ [94, 67] ++ crlf }.prompt
  else if b = 0x12 then l.promptNew
  else if b = 0x1B then { l with esc := .esc }
  else if 0x80 ≤ b.toNat then l.store b
  else l

/-- R53, R102, R103, R106: a character that is no terminator arrives on a link. (DEDUCED, notes/assumptions/67.md) -/
def linkByte (k : Link) (b : Byte) (s : State) : State :=
  if !s.hears k || decide (b = 13) || decide (b = 10) || (decide (k = .hspi) && decide (b = 0)) then s
  else
    attn (s.modLink k (fun l =>
      let l := { l with afterCr := false }
      match l.mode with
      | .machine => l.store b
      | .typed => l.typedByte b))

/-! ### The check, the tag and congestion (R93 steps 1 to 4) -/

/-- A line as the host-link logic sees it: its parts, its mode, its length. -/
structure Arrived where
  link : Link
  mode : LinkMode
  line : Text
  tooLong : Bool
  parts : LineParts
  deriving DecidableEq, Repr

/-- R67, R80: the check of the body that was received. -/
def Arrived.computed (a : Arrived) : Nat := lineCheck a.parts.body

/-- R93 steps 1 and 2. -/
def Arrived.test (a : Arrived) : Option Nat :=
  if a.tooLong then some 108
  else if (match a.parts.check with | some c => decide (c ≠ a.computed) | none => false) then some 120
  else if a.mode = .machine && a.parts.check.isNone then some 121
  else if a.parts.tagBad || (a.mode = .machine && a.parts.tag.isNone) then some 110
  else none

/-- R370: the response of a line is a U response. -/
def Arrived.urgent (a : Arrived) : Bool := a.parts.urgent || (a.parts.tagBad && a.line.head? == some '!')

/-- The text of a response to a line. -/
def Arrived.text (a : Arrived) (rep : Reply) : List String := rep.text a.parts.tag a.parts.check a.computed

/-- R118: 4 unsent rejection responses. -/
def maxRejections : Nat := 4

def State.rejectionsFull (s : State) (k : Link) : Bool := decide (maxRejections ≤ s.unsentRejections k)

/-- R118: a rejection response to a `!` line. counts: the line is outstanding, which one that R93 steps 1 to 3 reject is not
(R114). (DEDUCED, notes/assumptions/69.md) -/
def rejectUrgent (a : Arrived) (rep : Reply) (counts : Bool) (s : State) : State :=
  if s.rejectionsFull a.link then s
  else
    let s := if counts then s.modLink a.link (fun l => { l with uOut := l.uOut + 1 }) else s
    putOut a.link (responseItem .urgent (a.text rep) true counts) s

/-- The line of an S line on its way to the steward. -/
def Arrived.req (a : Arrived) (s : State) (p : ParseRes) : Req :=
  let rc := s.recvNow
  { link := a.link, tag := a.parts.tag, check := a.parts.check,
    computed := a.computed, recv := if s.tb.running then some rc.time else none, frames := rc.frames, busy := s.bel.entering,
    parsed := p }

/-- R91, R118: a rejection response to an S line: at once, or after the lines received before it on its link.
(DEDUCED, notes/assumptions/69.md) -/
def rejectStandard (a : Arrived) (code : Nat) (s : State) : State :=
  if s.rejectionsFull a.link then s
  else
    let r := a.req s (.bad ⟨code, 0⟩)
    if s.steward.queue.any (fun q => decide (q.link = a.link)) then
      { s with steward := { s.steward with queue := s.steward.queue ++ [r] } }
    else answerBad r ⟨code, 0⟩ s

/-- R93 steps 1 and 2: the response that the host-link logic forms. CHECKFAILS counts the answers ER 120 (R373).
(DEDUCED, notes/assumptions/68.md) -/
def rejectLine (a : Arrived) (code : Nat) (s : State) : State :=
  if s.rejectionsFull a.link then s
  else
    let s := if code = 120 then s.modLink a.link (fun l => { l with checkFails := l.checkFails + 1 }) else s
    if a.urgent then rejectUrgent a (.er code "") false s else rejectStandard a code s

/-! ### U lines (R93 step 3, R110 to R118) -/

/-- R113: the sampling edges of the terminator span at most 285 ns: 57 host-link cycles. span: cycles. -/
def spanMax : Nat := 57

/-- R113. -/
def uCongested (a : Arrived) (span : Nat) (s : State) : Bool :=
  decide (64 < a.line.length) || decide (4 < (s.link a.link).uOut + 1) || (decide (a.link = .hspi) && decide (spanMax < span))

/-- R93 step 5, R418, R371, R110: what the fast path makes of an admitted line. corrupt: its own copy of the body gives
another check. (DEDUCED, notes/assumptions/68.md) -/
def urgentExec (a : Arrived) (corrupt : Bool) (s : State) : Exec :=
  if corrupt && a.parts.check.isSome then reject 511 ""
  else match parseCommand a.parts.body (dropBang a.parts.cursor) with
    | .error e => .error (e.code, e.detail)
    | .ok p => phases (urgentSyn p.cmd s) p.tail s.bel.entering (fun _ => urgentRun p.cmd s)

/-- A `!` line that passed steps 1 and 2. -/
def urgentLine (a : Arrived) (span : Nat) (corrupt : Bool) (s : State) : State :=
  match urgentErr a.parts.cursor with
  | some e => rejectUrgent a e.reply false s
  | none =>
    if uCongested a span s then rejectUrgent a (.er 507 "") false s
    else match urgentExec a corrupt s with
      | .error (c, d) => rejectUrgent a (.er c d) true s
      | .ok y =>
        putOut a.link (responseItem .urgent (a.text (.ok y.payload y.lines)) false true)
          (y.state.modLink a.link (fun l => { l with uOut := l.uOut + 1 }))

/-! ### S lines (R90, R93 steps 4 and 5) -/

/-- R90: the S lines that a link may have outstanding. -/
def maxStandard : Nat := 8

/-- R371, R472: what the executor makes of a line. (DEDUCED, notes/assumptions/68.md) -/
def executorParse (a : Arrived) (corrupt : Bool) (s : State) : ParseRes :=
  if corrupt && a.parts.check.isSome then .bad ⟨511, 0⟩
  else match (if s.boot.step = .download then parseDownload a.parts.cursor else parseCommand a.parts.body a.parts.cursor) with
    | .error e => .bad e
    | .ok p => .good p

/-- In DOWNLOAD the boot ROM executes lines; otherwise the steward does. -/
def State.executorHere (s : State) : Bool := decide (s.boot.step = .download) || s.stewardHere

def standardLine (a : Arrived) (corrupt : Bool) (s : State) : State :=
  if !s.executorHere then rejectStandard a 503 s
  else if maxStandard ≤ (s.link a.link).sOut then rejectStandard a 506 s
  else
    let r := a.req s (executorParse a corrupt s)
    let s := s.modLink a.link (fun l => { l with sOut := l.sOut + 1 })
    settleQueue { s with steward := { s.steward with queue := s.steward.queue ++ [r] } }

/-- R93: a line that is not ignored meets its tests. In DOWNLOAD a `!` has no fast path: the verb is unknown (R472). -/
def meetLine (a : Arrived) (span : Nat) (corrupt : Bool) (s : State) : State :=
  match a.test with
  | some code => rejectLine a code s
  | none =>
    if a.parts.urgent && decide (s.boot.step ≠ .download) then urgentLine a span corrupt s else standardLine a corrupt s

/-! ### The terminator (R54, R58) -/

/-- The partial line is taken, its terminator echoed. (DEDUCED, notes/assumptions/67.md) -/
def LinkState.endLine (lf : Bool) (l : LinkState) : LinkState :=
  let l := if l.mode = .typed then l.newline else l
  { l with part := [], tooLong := false, tail := [], afterCr := !lf, lastLine := l.part }

/-- The line of a link as the host-link logic sees it. A machine-mode line that ran over is known by its beginning and its
last five characters (R55, R80). -/
def arrivedLine (k : Link) (l : LinkState) : Arrived :=
  let x := lineParts l.part
  ⟨k, l.mode, l.part, l.tooLong, if l.tooLong && decide (l.mode = .machine) then { x with check := (splitCheck l.tail).2 } else x⟩

/-- LINE_RECEIVED (R54, R58, R93): a terminator arrives. lf: it is an LF; span: host-link cycles from its first sampling edge
to its last. -/
def lineReceived (k : Link) (lf : Bool) (span : Nat) (corrupt : Bool) (s : State) : State :=
  if !s.hears k then s
  else
    let l := s.link k
    if lf && l.afterCr then s.modLink k (fun l => { l with afterCr := false })
    else if l.mode = .typed && decide (l.esc ≠ .none) then
      attn (s.modLink k (fun l => { l.escape (if lf then 10 else 13) with afterCr := !lf }))
    else
      let s := settleQueue (attn (s.modLink k (fun l => l.endLine lf)))
      if !l.tooLong && isBlank l.part then
        if l.mode = .typed then attn (s.modLink k LinkState.prompt) else s
      else meetLine (arrivedLine k l) span corrupt s

/-! ### The console (R98 to R101, R486) -/

/-- R97: the rates. -/
def baudOk (rate : Nat) : Bool := decide (9600 ≤ rate ∧ rate ≤ 3000000)

/-- R98: nine bit times in host-link cycles of 5 ns give a rate in baud. -/
def nineBits : Nat := 1800000000

/-- AUTOBAUD_CHARACTER (R98): a hunting console measures a character. readsCr: it reads as 0x0D at the measured rate.
(DEDUCED, notes/assumptions/71.md) -/
def autobaud (cycles : Nat) (readsCr : Bool) (s : State) : State :=
  let inside := decide (9600 * cycles ≤ nineBits ∧ nineBits ≤ 3000000 * cycles)
  if !s.linksLive || s.console.running || s.console.baud.isSome || !inside || !readsCr then s
  else consoleRuns { s with console := { s.console with rate := (divEven nineBits cycles).toNat } }

/-- R100, R101: the partial line goes. -/
def LinkState.dropLine (l : LinkState) : LinkState := { l with
  part := [], tooLong := false, tail := [], esc := .none, afterCr := false }

/-- R99: the console hunts if its rate is AUTO. -/
def rehunt (s : State) : State := if s.console.baud.isNone then hunt s else s

/-- CON_FRAMING_ERROR (R99, R100). -/
def framingError (s : State) : State :=
  if !s.hears .con then s else rehunt (s.modLink .con LinkState.dropLine)

/-- CON_BREAK (R101). -/
def conBreak (s : State) : State :=
  if !s.linksLive then s
  else rehunt (s.modLink .con (fun l => { l.dropLine with mode := .typed }))

/-! ### The meanings -/

/-- LINE_RECEIVED (R93). -/
def execLineReceived (d : Nat) (k : Link) (lf : Bool) (span : Nat) (corrupt : Bool) (s : State) :
    Host.Outcome State Fault Refusal := .next (lineReceived k lf span corrupt (s.elapse d))

/-- TYPED_CHARACTER (R102). -/
def execTypedCharacter (d : Nat) (k : Link) (b : Byte) (s : State) : Host.Outcome State Fault Refusal :=
  .next (linkByte k b (s.elapse d))

/-- EDIT_BACKSPACE (R102). -/
def execEditBackspace (d : Nat) (k : Link) (s : State) : Host.Outcome State Fault Refusal :=
  .next (linkByte k 0x08 (s.elapse d))

/-- EDIT_CTRL_U (R102). -/
def execEditCtrlU (d : Nat) (k : Link) (s : State) : Host.Outcome State Fault Refusal :=
  .next (linkByte k 0x15 (s.elapse d))

/-- EDIT_CTRL_C (R102). -/
def execEditCtrlC (d : Nat) (k : Link) (s : State) : Host.Outcome State Fault Refusal :=
  .next (linkByte k 0x03 (s.elapse d))

/-- EDIT_CTRL_R (R102). -/
def execEditCtrlR (d : Nat) (k : Link) (s : State) : Host.Outcome State Fault Refusal :=
  .next (linkByte k 0x12 (s.elapse d))

/-- EDIT_RECALL (R102): the bytes ESC, [ and A. -/
def execEditRecall (d : Nat) (k : Link) (s : State) : Host.Outcome State Fault Refusal :=
  .next (linkByte k 0x41 (linkByte k 0x5B (linkByte k 0x1B (s.elapse d))))

/-- LINE_CHARACTER (R106). -/
def execLineCharacter (d : Nat) (k : Link) (b : Byte) (s : State) : Host.Outcome State Fault Refusal :=
  .next (linkByte k b (s.elapse d))

/-- CON_FRAMING_ERROR (R100). -/
def execConFramingError (d : Nat) (s : State) : Host.Outcome State Fault Refusal := .next (framingError (s.elapse d))

/-- CON_BREAK (R101). -/
def execConBreak (d : Nat) (s : State) : Host.Outcome State Fault Refusal := .next (conBreak (s.elapse d))

/-- AUTOBAUD_CHARACTER (R98). -/
def execAutobaudCharacter (d : Nat) (cycles : Nat) (readsCr : Bool) (s : State) : Host.Outcome State Fault Refusal :=
  .next (autobaud cycles readsCr (s.elapse d))

/-- HSPI_CS_FALL (R107). -/
def execHspiCsFall (d : Nat) (sclkHigh : Bool) (s : State) : Host.Outcome State Fault Refusal :=
  let t := s.elapse d
  .next (if t.bel.off || t.boot.resetLow then t else csFall sclkHigh t)

/-- HSPI_CS_RISE (R108). (DESIGN CHOICE, notes/assumptions/6.md, 93.md) -/
def execHspiCsRise (d : CsEnd) (s : State) : Host.Outcome State Fault Refusal := .next (csRise d.cut (s.elapse d.d))

/-- OUTPUT_BYTE_SENT (R108). -/
def execOutputByteSent (d : Nat) (k : Link) (s : State) : Host.Outcome State Fault Refusal :=
  let t := s.elapse d
  .next (if t.linksLive || decide (k = .hspi) then outputByte k t else t)

end Sys2Proof.Machine
end

