-- ==== Sys2Proof/Machine/Props.lean ====
section
/-! DEFINITION. Properties: a property's name, field, stored value and default, and the forms that the tables of properties are
written in (spec/03 R42, R64, R69, R82; the property tables of spec/01 to spec/19). -/
namespace Sys2Proof.Machine

/-- A property of an object. ty: the field that its Units and Range columns give; readOnly: it is not written;
    timed: it holds a time value or an axis position
(R95); put: stores a value and does nothing else; dflt: the Default of a property that enters the digest (R379, R380). -/
structure PropSpec where
  name : String
  ty : FieldTy
  readOnly : Bool
  timed : Bool
  get : State → Value
  put : Value → State → State
  dflt : Option Value

/-- A record of the state that holds properties, and its values at reset. -/
structure Lens (R : Type) where
  get : State → R
  mod : (R → R) → State → State
  dflt : R

/-- A lens on a part of a part. -/
def Lens.part {R Q : Type} (l : Lens R) (get : R → Q) (mod : (Q → Q) → R → R) : Lens Q :=
  ⟨fun s => get (l.get s), fun f => l.mod (mod f), get l.dflt⟩

/-! ### Choices -/

/-- The entry that a value is written as. -/
def atomOf {α : Type} [DecidableEq α] (xs : List (Atom × α)) (a : α) : Atom :=
  match xs.find? (fun x => decide (x.2 = a)) with
  | some x => x.1
  | none => .kw ""

/-- The value that an entry names. -/
def valueOf {α : Type} (xs : List (Atom × α)) (k : Atom) : Option α := (xs.find? (fun x => decide (x.1 = k))).map (·.2)

/-- Keywords with their meanings. -/
def words {α : Type} (xs : List (String × α)) : List (Atom × α) := xs.map (fun x => (.kw x.1, x.2))

def atomWord : Atom → Option String | .kw k => some k | _ => none

def wordsOf {α : Type} (xs : List (Atom × α)) : List String := xs.filterMap (fun x => atomWord x.1)

/-- Whether a list of choices names an object. -/
def namesObj {α : Type} (xs : List (Atom × α)) (o : Obj) : Bool := xs.any (fun x => decide (x.1 = .obj o))

def anyObj {α : Type} (xs : List (Atom × α)) : Bool := xs.any (fun x => match x.1 with | .obj _ => true | _ => false)

/-- NONE, or a value of the list. -/
def orNone {α : Type} (xs : List (Atom × α)) : List (Atom × Option α) := (.kw "NONE", none) :: xs.map (fun x => (x.1, some x.2))

def axisAtoms : List (Atom × Fin 4) := (List.finRange 4).map (fun a => (.obj (.ax a), a))
def portAtoms : List (Atom × Fin 64) := (List.finRange 64).map (fun p => (.obj (.port p), p))
def trgAtoms : List (Atom × Fin 8) := (List.finRange 8).map (fun n => (.obj (.trg n), n))
def groupAtoms : List (Atom × Fin 8) := (List.finRange 8).map (fun n => (.obj (.grp n), n))
def refAtoms : List (Atom × Fin 4) := (List.finRange 4).map (fun n => (.obj (.refx n), n))
def wakeAtoms : List (Atom × Fin 4) := (List.finRange 4).map (fun n => (.obj (.wake n), n))
def clusterAtoms : List (Atom × Fin 8) := (List.finRange 8).map (fun n => (.obj (.cl n), n))

/-- TRG0 to TRG7 and P00 to P63. -/
def pinAtoms : List (Atom × EdgeSrc) :=
  trgAtoms.map (fun x => (x.1, .trg x.2)) ++ portAtoms.map (fun x => (x.1, .port x.2))

def offOn : List (Atom × Bool) := words [("OFF", false), ("ON", true)]
def riseFall : List (Atom × Sense) := words [("RISE", .rise), ("FALL", .fall)]
def edgeSel : List (Atom × SenseSel) := words [("RISE", .rise), ("FALL", .fall), ("BOTH", .both)]
def normalInvert : List (Atom × Bool) := words [("NORMAL", false), ("INVERT", true)]

/-! ### Fields of read-only properties: a value written to one is read against them before it is refused (R93) -/

def wordField : FieldTy := .kw []
def countField : FieldTy := .int false 0 (2 ^ 64 - 1) []
def signedField : FieldTy := .int true (-(2 ^ 63)) (2 ^ 63 - 1) []
/-- NONE, or a count. -/
def optCountField : FieldTy := .int false 0 (2 ^ 64 - 1) ["NONE"]
def timeWordField : FieldTy := .time false 1 0 (2 ^ 64 - 1) [] false
/-- NONE, or a time word. -/
def optWordField : FieldTy := .time false 1 0 (2 ^ 64 - 1) ["NONE"] false
def intervalField : FieldTy := .time true 1 intervalMin intervalMax [] false
/-- Counts in a list. -/
def countItem (t : Text) : Except Nat Atom :=
  match classOf t with
  | .hexNum => (match readHexNum t with | .ok _ => .error 103 | .error c => .error c)
  | .number => (readInteger false t).map Atom.int
  | .name => .error 103
def countsField : FieldTy := .items false countItem 1 64 308 false
def hexField (digits : Nat) : FieldTy := .hex digits (16 ^ digits - 1)

namespace Lens
variable {R : Type} (l : Lens R)

/-- A settable property of a record. -/
def prop (name : String) (ty : FieldTy) (timed : Bool) (get : R → Value) (set : Value → R → R) : PropSpec :=
  { name := name, ty := ty, readOnly := false, timed := timed, get := fun s => get (l.get s), put := fun v => l.mod (set v),
    dflt := some (get l.dflt) }

/-- A read-only property of a record. -/
def ro (name : String) (ty : FieldTy) (get : R → Value) : PropSpec :=
  { name := name, ty := ty, readOnly := true, timed := false, get := fun s => get (l.get s), put := fun _ s => s,
    dflt := none }

/-- A read-only property that holds a time value or a position. -/
def roTime (name : String) (ty : FieldTy) (get : R → Value) : PropSpec := { l.ro name ty get with timed := true }

/-- One of a list of choices. -/
def choice {α : Type} [DecidableEq α] (name : String) (xs : List (Atom × α)) (get : R → α) (set : α → R → R) : PropSpec :=
  l.prop name (if anyObj xs then .objs (wordsOf xs) (namesObj xs) else .kw (wordsOf xs)) false
    (fun r => .one (atomOf xs (get r)))
    (fun v r => match v with | .one k => (match valueOf xs k with | some a => set a r | none => r) | _ => r)

/-- One of a list of keywords. -/
def kw {α : Type} [DecidableEq α] (name : String) (xs : List (String × α)) (get : R → α) (set : α → R → R) : PropSpec :=
  l.choice name (words xs) get set

/-- OFF or ON. -/
def flag (name : String) (get : R → Bool) (set : Bool → R → R) : PropSpec := l.choice name offOn get set

/-- One of a list of keywords, read-only. -/
def roKw {α : Type} [DecidableEq α] (name : String) (xs : List (String × α)) (get : R → α) : PropSpec :=
  l.ro name wordField (fun r => .one (atomOf (words xs) (get r)))

/-- An integer field. -/
def int (name : String) (lo hi : Int) (get : R → Int) (set : Int → R → R) : PropSpec :=
  l.prop name (.int (decide (lo < 0)) lo hi []) false (fun r => .int (get r))
    (fun v r => match v with | .one (.int i) => set i r | _ => r)

def nat (name : String) (lo hi : Nat) (get : R → Nat) (set : Nat → R → R) : PropSpec :=
  l.int name lo hi (fun r => get r) (fun i => set i.toNat)

/-- An integer of a list. -/
def natOf (name : String) (vals : List Nat) (get : R → Nat) (set : Nat → R → R) : PropSpec :=
  l.prop name (.intOf (vals.map Int.ofNat)) false (fun r => .int (get r))
    (fun v r => match v with | .one (.int i) => set i.toNat r | _ => r)

/-- A field in tu. -/
def time (name : String) (signed : Bool) (lo hi : Int) (get : R → Int) (set : Int → R → R) : PropSpec :=
  l.prop name (.time signed 1 lo hi [] false) true (fun r => .time (get r))
    (fun v r => match v with | .one (.time i) => set i r | _ => r)

def natTime (name : String) (lo hi : Nat) (get : R → Nat) (set : Nat → R → R) : PropSpec :=
  l.time name false lo hi (fun r => get r) (fun i => set i.toNat)

/-- A time word (R13). -/
def word (name : String) (get : R → TimeWord) (set : TimeWord → R → R) : PropSpec :=
  l.time name false 0 (2 ^ 64 - 1) (fun r => (get r).toNat) (fun i => set (BitVec.ofInt 64 i))

/-- A hex-number of some bits (R552). -/
def hex (name : String) (bits : Nat) (get : R → Nat) (set : Nat → R → R) : PropSpec :=
  l.prop name (.hex (bits / 4) (2 ^ bits - 1)) false (fun r => .hex (bits / 4) (get r))
    (fun v r => match v with | .one (.hex _ n) => set n r | _ => r)

/-- A list of choices (R553). -/
def list {α : Type} [DecidableEq α] (name : String) (xs : List (Atom × α)) (noneOk : Bool) (maxLen tooMany : Nat)
    (unique : Bool) (get : R → List α) (set : List α → R → R) : PropSpec :=
  l.prop name (if anyObj xs then .objList noneOk (namesObj xs) maxLen tooMany unique
      else .kwList (wordsOf xs) noneOk maxLen tooMany unique) false
    (fun r => .list ((get r).map (atomOf xs)))
    (fun v r => match v with | .list ks => set (ks.filterMap (valueOf xs)) r | _ => r)

/-- The ranges of an event set. -/
def ranges (ks : List Atom) : List (Nat × Nat) := ks.filterMap (fun k => match k with | .range a b => some (a, b) | _ => none)

/-- An event set, kept as it is written (R63, R87). -/
def evset (name : String) (get : R → List (Nat × Nat)) (set : List (Nat × Nat) → R → R) : PropSpec :=
  l.prop name (.evset none) false (fun r => .evset (get r))
    (fun v r => match v with | .list ks => set (ranges ks) r | _ => r)

def count {w : Nat} (name : String) (get : R → BitVec w) : PropSpec := l.ro name countField (fun r => .int (get r).toNat)

end Lens

/-! ### Texts of read-only values -/

def yesNo : List (String × Bool) := [("NO", false), ("YES", true)]

/-! ### Lenses -/

def tbLens : Lens Timebase := ⟨State.tb, fun f s => s.modTb f, Timebase.default⟩
def refLens (x : Fin 4) : Lens Ref := ⟨fun s => s.tb.refs[x], fun f s => s.modTb (fun t => { t with refs := upd t.refs x f }),
    Ref.default⟩
def axisLens (a : Fin 4) : Lens Axis := ⟨fun s => s.axes[a], fun f s => s.modAxis a f, Axis.default⟩
def axisCfgLens (a : Fin 4) : Lens AxisCfg := (axisLens a).part Axis.cfg (fun f x => { x with cfg := f x.cfg })
def clusterLens (k : Fin 8) : Lens Cluster := ⟨fun s => s.clusters[k], fun f s => s.modCluster k f, Cluster.default⟩
def portLens (p : Fin 64) : Lens Port := ⟨fun s => s.ports[p], fun f s => s.modPort p f, Port.default⟩
def cfgLens (p : Fin 64) : Lens PortCfg := (portLens p).part Port.cfg (fun f q => { q with cfg := f q.cfg })
def trgLens (n : Fin 8) : Lens Trg := ⟨fun s => s.trgs[n], fun f s => s.modTrg n f, Trg.default⟩
def mfLens (m : Fin 16) : Lens Mf := ⟨fun s => s.mfs[m], fun f s => s.modMf m f, Mf.default⟩
def mfCfgLens (m : Fin 16) : Lens MfCfg := (mfLens m).part Mf.cfg (fun f x => { x with cfg := f x.cfg })
def taskLens (t : Fin 320) : Lens Task := ⟨fun s => s.tasks[t], fun f s => s.modTask t f, Task.default⟩
def groupLens (g : Fin 8) : Lens Group := ⟨fun s => s.groups[g], fun f s => s.modGroup g f, Group.default⟩
def groupCfgLens (g : Fin 8) : Lens GroupCfg := (groupLens g).part Group.cfg (fun f x => { x with cfg := f x.cfg })
def markerLens (n : Fin 16) : Lens Marker := ⟨fun s => s.markers[n], fun f s => { s with markers := upd s.markers n f },
    Marker.default⟩
def agLens (n : Fin 8) : Lens Ag := ⟨fun s => s.ags[n], fun f s => s.modAg n f, Ag.default⟩
def agCfgLens (n : Fin 8) : Lens AgCfg := (agLens n).part Ag.cfg (fun f x => { x with cfg := f x.cfg })
def calLens : Lens CalState := ⟨State.cal, fun f s => s.modCal f, CalState.default⟩
def storeLens : Lens SegStore := ⟨State.store, fun f s => { s with store := f s.store }, SegStore.empty⟩
def spLens : Lens Stream := ⟨State.sp, fun f s => s.modSp f, Stream.default⟩
def fifoLens : Lens Fifo := ⟨State.fifo, fun f s => s.modFifo f, Fifo.empty⟩
def belLens : Lens Belfry := ⟨State.bel, fun f s => s.modBel f, Belfry.default⟩
def ruleLens (n : Fin 16) : Lens Rule := belLens.part (fun b => b.rules[n]) (fun f b => { b with rules := upd b.rules n f })
def wakeLens (n : Fin 4) : Lens Wake := belLens.part (fun b => b.wakes[n]) (fun f b => { b with wakes := upd b.wakes n f })
def syncLens : Lens Sync := ⟨State.sync, fun f s => s.modSync f, Sync.default⟩
def bootLens : Lens Boot := ⟨State.boot, fun f s => s.modBoot f, Boot.default .poweron⟩
def linkLens (k : Link) : Lens LinkState :=
  ⟨fun s => s.link k, fun f s => s.modLink k f, match k with | .con => LinkState.conReset | .hspi => LinkState.hspiReset⟩
def consoleLens : Lens Console := ⟨State.console, fun f s => { s with console := f s.console }, Console.default⟩
/-- A lens on the whole state, for values that several parts give. -/
def stateLens : Lens State := ⟨id, fun f => f, State.reset⟩

end Sys2Proof.Machine
end

