-- ==== Sys2Proof/Machine/PropsA.lean ====
section
/-! DEFINITION. The property tables of the system, the references, the axes, the clusters, the ports and the trigger inputs
(spec/01, 02, 06, 07, 08, 09, 13, 15, 17, 18). -/
namespace Sys2Proof.Machine

/-! ### Start-up, images and keys (spec/18) -/

def imageFaults : List (String × ImageFault) :=
  [("NONE", .none), ("FORMAT", .format), ("PART", .part), ("STEPPING", .stepping), ("LENGTH", .length), ("BLOCK", .block),
   ("LEVEL", .level), ("HASH", .hash), ("VENDORKEY", .vendorkey), ("VENDORSIG", .vendorsig), ("CUSTKEY", .custkey),
   ("CUSTSIG", .custsig)]

/-- A segment, or NONE. -/
def segField : FieldTy := .objs ["NONE"] (fun o => match o with | .segn _ => true | _ => false)

def segValue (x : Option (Fin 4096)) : Value := match x with | none => .kw "NONE" | some n => .obj (.segn n)

def valueSeg : Value → Option (Fin 4096) | .one (.obj (.segn n)) => some n | _ => none

def keyStageProp (i : Fin 4) : PropSpec :=
  bootLens.hex ("KEYSTAGE" ++ dec i.val) 64 (fun b => b.keyStage[i].toNat)
    (fun n b => { b with keyStage := b.keyStage.set i (BitVec.ofNat 64 n) })

def keyHashProp (i : Fin 4) : PropSpec :=
  bootLens.ro ("KEYHASH" ++ dec i.val) (hexField 16) (fun b => .hex 16 b.keyHash[i].toNat)

/-- SYS.SYNCPERIOD: whole multiples of 10 µs. -/
def syncPeriodField : FieldTy := .time false 1 100000000 1000000000000 [] false

def sysProps : List PropSpec :=
  [ tbLens.roTime "SNAPTIME" timeWordField (fun t => .time t.snapTime.toNat),
    tbLens.kw "TIMEFMT" [("HUMAN", .human), ("FS", .fs)] Timebase.timeFmt (fun v t => { t with timeFmt := v }),
    tbLens.roKw "CLKSRC" [("RING", .ring), ("PLL", .pll)] Timebase.clkSrc,
    tbLens.count "SNAPSEQ" Timebase.snapSeq,
    stateLens.count "ECCCORR" State.sysEcc,
    stateLens.count "RESTARTS" (fun s => s.steward.restarts),
    stateLens.roKw "RESTARTCAUSE" [("NONE", .none), ("COMMAND", .command), ("UPDATE", .update), ("WATCHDOG", .watchdog),
      ("STOREFAULT", .storefault)] (fun s => s.steward.cause),
    stateLens.count "STOREFAULTS" (fun s => s.steward.storeFaults),
    stateLens.roKw "PSTATE" [("RUN", .run), ("IDLE", .idle), ("ENTRY", .entry), ("SLEEP", .sleep)] State.pstate,
    syncLens.kw "SYNCROLE" [("NONE", .none), ("LEADER", .leader), ("FOLLOWER", .follower)] Sync.role
      (fun v y => { y with role := v }),
    syncLens.prop "SYNCPERIOD" syncPeriodField true (fun y => .time y.period)
      (fun v y => match v with | .one (.time t) => { y with period := t.toNat } | _ => y),
    syncLens.time "SYNCDELAY" true 0 10000000 (fun y => y.delay) (fun v y => { y with delay := v.toNat }),
    syncLens.natTime "SYNCCATCH" 1000 10000000 Sync.catchTu (fun v y => { y with catchTu := v }),
    syncLens.nat "SYNCAVG" 1 256 Sync.avg (fun v y => { y with avg := v }),
    syncLens.nat "SYNCSLEW" 10 10000 Sync.slew (fun v y => { y with slew := v }),
    syncLens.flag "SYNCRETURN" Sync.ret (fun v y => { y with ret := v }),
    syncLens.roKw "SYNCSTATE" [("OFF", .off), ("LEAD", .lead), ("HUNT", .hunt), ("STEPWAIT", .stepwait), ("LOCKED", .locked),
      ("HOLD", .hold)] Sync.state,
    syncLens.roTime "SYNCERROR" intervalField (fun y => .time y.error),
    syncLens.count "SYNCSTEPS" Sync.steps,
    syncLens.count "SYNCERRS" Sync.errs,
    bootLens.ro "RESETCAUSE" wordField (fun b => .kw b.cause.text),
    bootLens.count "BROWNOUTS" Boot.brownouts,
    bootLens.ro "IMAGESRC" wordField (fun b => .kw b.imageSrc.text),
    bootLens.roKw "IMAGEFAULT" imageFaults Boot.imageFault ]
  ++ (List.finRange 4).map keyStageProp ++
  [ { bootLens.ro "KEYPROG" (.kw ["PROGRAM"]) (fun _ => .kw "NONE") with readOnly := false, dflt := some (.kw "NONE") },
    bootLens.ro "KEYSLOT" wordField (fun b => .kw b.keySlot.text) ]
  ++ (List.finRange 4).map keyHashProp ++
  [ bootLens.ro "BOOTSTAGE" wordField (fun b => .kw b.stage.text),
    bootLens.prop "STAGE" segField false (fun b => segValue b.stageSeg) (fun v b => { b with stageSeg := valueSeg v }) ]

/-! ### References (spec/06) -/

def refProps : List PropSpec :=
  [ tbLens.roKw "STATE" [("ACQUIRE", .acquire), ("LOCKED", .locked), ("HOLDOVER", .holdover), ("UNLOCKED", .unlocked)]
      Timebase.state,
    tbLens.kw "BW" [("BW2K", .bw2k), ("BW20K", .bw20k), ("BW100K", .bw100k)] Timebase.bw (fun v t => { t with bw := v }),
    tbLens.count "LOCKLOSSES" Timebase.lockLosses,
    tbLens.kw "SELECT" [("AUTO", true), ("MANUAL", false)] Timebase.auto (fun v t => { t with auto := v }),
    tbLens.list "PRIORITY" refAtoms false 4 308 true Timebase.priority (fun v t => { t with priority := v }),
    { tbLens.choice "ACTIVE" (orNone refAtoms) Timebase.active (fun _ t => t) with dflt := none },
    tbLens.flag "REVERT" Timebase.revert (fun v t => { t with revert := v }),
    tbLens.nat "REVERTWAIT" 1 3600 Timebase.revertWait (fun v t => { t with revertWait := v }),
    tbLens.count "SWITCHES" Timebase.switches,
    tbLens.nat "HOLDAVG" 10 10000 Timebase.holdAvg (fun v t => { t with holdAvg := v }),
    tbLens.count "HOLDOVERS" Timebase.holdovers ]

def compareAtoms : List (Atom × Compare) :=
  refAtoms.map (fun x => (x.1, .ref x.2)) ++ words [("RING", .ring), ("NONE", .none)]

def refxProps (x : Fin 4) : List PropSpec :=
  let l := refLens x
  [ l.kw "ROLE" [("CANDIDATE", .candidate), ("MONITOR", .monitor), ("OFF", .off)] Ref.role (fun v r => { r with role := v }),
    l.kw "INPUT" [("LVDS", .lvds), ("DIFF-AC", .diffAc), ("SINE-AC", .sineAc), ("LVCMOS18", .lvcmos18), ("LVCMOS25", .lvcmos25),
      ("LVCMOS33", .lvcmos33)] Ref.input (fun v r => { r with input := v }),
    l.nat "FREQ" 10000000 400000000 Ref.freq (fun v r => { r with freq := v }),
    l.roKw "PLLMODE" [("INTEGER", true), ("FRACTIONAL", false)] (fun r => integerMode r.freq),
    l.choice "COMPARE" compareAtoms Ref.compare (fun v r => { r with compare := v }),
    l.nat "WARN" 100 1000000 Ref.warn (fun v r => { r with warn := v }),
    l.nat "FAIL" 200 10000000 Ref.fail (fun v r => { r with fail := v }),
    l.nat "HYST" 0 1000000 Ref.hyst (fun v r => { r with hyst := v }),
    l.nat "WANDERMAX" 0 100000 Ref.wanderMax (fun v r => { r with wanderMax := v }),
    l.nat "QUALTIME" 1 600 Ref.qualTime (fun v r => { r with qualTime := v }),
    l.roKw "PRESENT" yesNo Ref.present,
    l.roKw "QUAL" [("ABSENT", .absent), ("UNQUAL", .unqual), ("GOOD", .good), ("WARN", .warn), ("FAIL", .fail)] Ref.qual,
    l.roKw "CMPVALID" yesNo Ref.cmpValid,
    l.ro "OFFSET1" signedField (fun r => .int r.offset1),
    l.ro "OFFSET10" signedField (fun r => .int r.offset10),
    l.ro "WANDER" countField (fun r => .int r.wander),
    l.count "LOSSES" Ref.losses,
    l.count "GLITCHES" Ref.glitches ]

/-! ### Axes (spec/07, spec/13) -/

def sourceAtoms : List (Atom × EdgeSrc) := pinAtoms ++ words [("SYNCIN", .syncin), ("MARK", .mark)]

/-- A list of times in tu. -/
def timeItem (lo hi : Int) (t : Text) : Except Nat Atom :=
  match classOf t with
  | .hexNum => (match readHexNum t with | .ok _ => .error 103 | .error c => .error c)
  | .number => (match readTime false t with
    | .ok v => if inRange lo hi v then .ok (.time v) else .error 301
    | .error c => .error c)
  | .name => .error 103

def timesOf (ks : List Atom) : List Nat := ks.filterMap (fun k => match k with | .time t => some t.toNat | _ => none)

/-- AXa.QUIETAT and AXa.QUIETLEN: NONE, or 1 to 4 times (R345). -/
def quietProp (l : Lens AxisCfg) (name : String) (lo hi : Int) (get : AxisCfg → List Nat) (set : List Nat → AxisCfg → AxisCfg) :
    PropSpec :=
  l.prop name (.items true (timeItem lo hi) 1 4 308 false) true (fun r => .list ((get r).map (fun (n : Nat) => .time n)))
    (fun v r => match v with | .list ks => set (timesOf ks) r | _ => r)

/-- A value, or NONE. -/
def optVal {α : Type} (f : α → Value) : Option α → Value | none => .kw "NONE" | some a => f a

def axisProps (a : Fin 4) : List PropSpec :=
  let c := axisCfgLens a
  let x := axisLens a
  let v := c.part AxisCfg.vals (fun f c => { c with vals := f c.vals })
  [ c.kw "MODE" [("FRAME", .frame), ("INCREMENT", .increment), ("FREE", .free)] AxisCfg.mode (fun v c => { c with mode := v }),
    c.choice "SOURCE" sourceAtoms AxisCfg.source (fun v c => { c with source := v }),
    c.choice "EDGE" riseFall AxisCfg.edge (fun v c => { c with edge := v }),
    c.natTime "PERIOD" 10000000 100000000000000 AxisCfg.period (fun v c => { c with period := v }),
    c.nat "FIRSTFRAME" 0 (2 ^ 48 - 1) (fun c => c.firstFrame.toNat) (fun v c => { c with firstFrame := BitVec.ofNat 48 v }),
    c.word "ORIGIN" AxisCfg.origin (fun v c => { c with origin := v }),
    c.choice "COUNTSRC" (orNone pinAtoms) AxisCfg.countSrc (fun v c => { c with countSrc := v }),
    c.nat "COUNTS" 1 (2 ^ 32 - 1) AxisCfg.counts (fun v c => { c with counts := v }),
    c.nat "COUNTTOL" 0 65535 AxisCfg.countTol (fun v c => { c with countTol := v }),
    v.nat "GAIN" 0 12 CatchVals.gain (fun n v => { v with gain := n }),
    v.nat "PULL" 1 100000 CatchVals.pull (fun n v => { v with pull := n }),
    v.natTime "CATCH" 100000 25000000000000 CatchVals.catchTu (fun n v => { v with catchTu := n }),
    v.natTime "TSETTLE" 0 25000000000000 CatchVals.tsettle (fun n v => { v with tsettle := n }),
    v.natTime "TRETRACT" 0 25000000000000 CatchVals.tretract (fun n v => { v with tretract := n }),
    v.nat "MISSMAX" 1 255 CatchVals.missmax (fun n v => { v with missmax := n }),
    c.flag "RUNAHEAD" AxisCfg.runAhead (fun v c => { c with runAhead := v }),
    x.roKw "STATE" [("ACQUIRE", .acquire), ("CONFIRMED", .confirmed), ("REACQUIRE", .reacquire), ("LOST", .lost)] Axis.state,
    x.count "SLIPS" Axis.slips,
    x.count "LOSSES" Axis.losses,
    x.count "RETRACTS" Axis.retracts,
    quietProp c "QUIETAT" 0 100000000000000 AxisCfg.quietAt (fun v c => { c with quietAt := v }),
    quietProp c "QUIETLEN" 10000000 100000000000000 AxisCfg.quietLen (fun v c => { c with quietLen := v }),
    x.ro "SNAP.FRAME" optCountField (fun x => optVal (fun f => .int f.toNat) x.latched.frame),
    x.roTime "SNAP.INDEX" optWordField (fun x => optVal (fun w => .time w.toNat) x.latched.index),
    x.roTime "SNAP.PERIOD" intervalField (fun x => .time x.latched.period),
    x.roTime "SNAP.ERROR" intervalField (fun x => .time x.latched.error) ]

/-! ### Clusters (spec/08, spec/15) -/

def incrementAxis (s : State) (a : Option (Fin 4)) : Bool :=
  match a with | some a => decide (s.axes[a].cfg.mode = .increment) | none => false

def clusterProps (k : Fin 8) : List PropSpec :=
  let l := clusterLens k
  [ l.kw "IOSTD" [("LVDS", .lvds), ("SLVS400", .slvs400), ("LVCMOS18", .lvcmos18), ("LVCMOS25", .lvcmos25),
      ("LVCMOS33", .lvcmos33)] Cluster.iostd (fun v c => { c with iostd := v }),
    l.roKw "VDDIO" [("NONE", .none), ("1V8", .v18), ("2V5", .v25), ("3V3", .v33)] Cluster.vddio,
    l.roKw "STATE" [("ACTIVE", .active), ("DRAINING", .draining), ("OFF", .off), ("QUARANTINE", .quarantine),
      ("JOINING", .joining)] Cluster.state,
    l.roKw "PHASE" [("NONE", .none), ("POWERUP", .powerup), ("CALIBRATE", .calibrate), ("ALIGN", .align),
      ("WAITJOIN", .waitjoin)] Cluster.phase,
    l.roKw "POWER" [("OFF", false), ("ON", true)] Cluster.powered,
    l.roKw "OFFCAUSE" [("NONE", .none), ("STARTUP", .startup), ("DRAIN", .drain), ("COMMAND", .command), ("FAULT", .fault),
      ("LOCKLOSS", .lockloss)] Cluster.offCause,
    l.natTime "DRAINWAIT" 0 100000000000000 Cluster.drainWait (fun v c => { c with drainWait := v }),
    l.ro "DRAINEMITTED" countField (fun c => .int c.drainEmitted),
    l.ro "DISCARDED" countField (fun c => .int c.discarded),
    l.choice "JOINAXIS" (orNone axisAtoms) Cluster.joinAxis (fun v c => { c with joinAxis := v }),
    stateLens.roTime "JOINAT" (.position ["NONE", "NEXT"]) (fun s =>
      let c := s.clusters[k]
      match c.joinAt with
      | none => .kw "NONE"
      | some .next => .kw "NEXT"
      | some (.pos n o) => .one (.pos n.toNat o (incrementAxis s c.joinAxis))),
    l.count "EPOCH" Cluster.epoch,
    l.count "ENTRIES" Cluster.entries,
    l.roKw "FAULTCAUSE" [("NONE", .none), ("CORESUPPLY", .coresupply), ("BANKSUPPLY", .banksupply), ("CALFAIL", .calfail),
      ("ALIGN", .align)] Cluster.faultCause ]

/-! ### Ports and trigger inputs (spec/08, spec/09, spec/13) -/

/-- R232: NONE, a time word or a position, in whole ticks (R25). -/
def toneField : FieldTy := .time false tickTu 0 (2 ^ 64 - 1) ["NONE"] true

def ToneTarget.value (s : State) : ToneTarget → Value
  | .none => .kw "NONE"
  | .time w => .time w.toNat
  | .pos a n o _ => .one (.pos n.toNat o (decide (s.axes[a].cfg.mode = .increment)))

/-- R193, R232: the tick of a tone change staged at a position, where the position can be bound at once. -/
def boundTick (s : State) (a : Fin 4) (n : Frame) (o : Nat) : Option TimeWord :=
  let x := s.axes[a]
  if x.bindsNow n then (x.frameStart n).map (fun f => wholeTick (tadd f o)) else none

def putToneAt (p : Fin 64) (v : Value) (s : State) : State :=
  let t : ToneTarget := match v with
    | .one (.time w) => .time (BitVec.ofInt 64 w)
    | .one (.pos n o _) =>
      (match s.ports[p].cfg.axis with
       | some a => .pos a (BitVec.ofNat 48 n) o.toNat (boundTick s a (BitVec.ofNat 48 n) o.toNat)
       | none => .none)
    | _ => .none
  s.modPort p (fun q => { q with cfg := { q.cfg with toneAt := t } })

/-- R240: the step and the range of a threshold. -/
def threshStep (x : IoStd) : Nat := match x with | .lvds | .slvs400 => 500 | _ => 800
def threshRange (x : IoStd) : Int × Int :=
  match x with
  | .lvds | .slvs400 => (-1024000, 1023500)
  | .lvcmos18 => (0, 1800000)
  | .lvcmos25 => (0, 2500000)
  | .lvcmos33 => (0, 3276000)

def putThresh (p : Fin 64) (v : Value) (s : State) : State :=
  let t : Option Int := match v with
    | .one (.int i) => some (roundTo (threshStep (s.clusterOfPort p).iostd) i)
    | _ => none
  s.modPort p (fun q => { q with cfg := { q.cfg with thresh := t } })

def TableSet.originText (t : TableSet) : String :=
  match t.origin with | .full => "FULL" | .short => "SHORT" | .rota => "ROTA" | .imported => "IMPORT"

/-- R360: what a port reports of its table set. -/
def tableVal (f : TableSet → Value) (d : Value) (q : Port) : Value := match q.table with | some t => f t | none => d

def portProps (p : Fin 64) : List PropSpec :=
  let c := cfgLens p
  let q := portLens p
  [ c.kw "MODE" [("PULSE", .pulse), ("ECHO", .echo), ("TONE", .tone), ("PATTERN", .pattern), ("STAMP", .stamp), ("GATE", .gate)]
      PortCfg.mode (fun v c => { c with mode := v }),
    c.flag "OUTPUT" PortCfg.output (fun v c => { c with output := v }),
    c.choice "POLARITY" normalInvert PortCfg.invert (fun v c => { c with invert := v }),
    c.choice "AXIS" (orNone axisAtoms) PortCfg.axis (fun v c => { c with axis := v }),
    c.natTime "DELAY" 0 100000000000000 PortCfg.delay (fun v c => { c with delay := v }),
    c.natTime "WIDTH" 8000 100000000000000 PortCfg.width (fun v c => { c with width := v }),
    c.choice "TRIGSRC" (orNone pinAtoms) PortCfg.trigSrc (fun v c => { c with trigSrc := v }),
    c.choice "TRIGEDGE" riseFall PortCfg.trigEdge (fun v c => { c with trigEdge := v }),
    c.kw "RETRIG" [("IGNORE", .ignore), ("QUEUE", .queue), ("RESTART", .restart)] PortCfg.retrig
      (fun v c => { c with retrig := v }),
    c.kw "REARM" [("AUTO", false), ("ONCE", true)] PortCfg.once (fun v c => { c with once := v }),
    c.nat "FTW" 0 (2 ^ 46) PortCfg.ftw (fun v c => { c with ftw := v }),
    c.nat "FTWNEXT" 0 (2 ^ 46) PortCfg.ftwNext (fun v c => { c with ftwNext := v }),
    { name := "TONEAT", ty := toneField, readOnly := false, timed := true, get := fun s => s.ports[p].cfg.toneAt.value s,
      put := putToneAt p, dflt := some (.kw "NONE") },
    c.kw "TONECHANGE" [("COHERENT", false), ("RESET", true)] PortCfg.toneReset (fun v c => { c with toneReset := v }),
    c.word "TONEORIGIN" PortCfg.toneOrigin (fun v c => { c with toneOrigin := v }),
    q.roTime "LASTCHANGE" timeWordField (fun q => .time q.lastChange.toNat),
    c.natOf "SWING" [250, 350, 450] PortCfg.swing (fun v c => { c with swing := v }),
    c.natOf "DRIVE" [4, 8, 12, 16] PortCfg.drive (fun v c => { c with drive := v }),
    { name := "THRESH", ty := .int true (-(10 ^ 21)) (10 ^ 21) ["AUTO"], readOnly := false, timed := false,
      get := fun s => (match s.ports[p].cfg.thresh with | none => .kw "AUTO" | some v => .int v),
      put := putThresh p, dflt := some (.kw "AUTO") },
    c.natOf "HYST" [0, 10000, 20000, 40000] PortCfg.hyst (fun v c => { c with hyst := v }),
    c.time "INOFFSET" true (-1000000) 1000000 PortCfg.inOffset (fun v c => { c with inOffset := v }),
    c.choice "STAMPEDGE" edgeSel PortCfg.stampEdge (fun v c => { c with stampEdge := v }),
    c.flag "RECORD" PortCfg.record (fun v c => { c with record := v }),
    c.choice "GATESRC" (orNone portAtoms) PortCfg.gateSrc (fun v c => { c with gateSrc := v }),
    c.kw "GATEOPEN" [("HIGH", false), ("LOW", true)] PortCfg.gateLow (fun v c => { c with gateLow := v }),
    c.choice "CALAXIS" (orNone axisAtoms) PortCfg.calAxis (fun v c => { c with calAxis := v }),
    q.roKw "CALLATE" yesNo Port.calLate,
    c.kw "CALPOLICY" [("DROP", false), ("DEFER", true)] PortCfg.defer (fun v c => { c with defer := v }),
    q.ro "CALGEN" countField (tableVal (fun t => .int t.gen) (.int 0)),
    q.ro "CALORIGIN" wordField (tableVal (fun t => .kw t.originText) (.kw "FULL")),
    q.roTime "CALTIME" timeWordField (tableVal (fun t => .time t.time.toNat) (.time 0)),
    q.ro "CALTEMP" signedField (tableVal (fun t => .int t.temp) (.int 0)),
    c.kw "CAL" [("TABLE", false), ("PAIR", true)] PortCfg.pair (fun v c => { c with pair := v }),
    q.count "SNAP.EMITS" (fun q => q.latched.emits),
    q.count "SNAP.STAMPS" (fun q => q.latched.stamps),
    q.count "SNAP.MISS" (fun q => q.latched.miss),
    q.count "SNAP.LATE" (fun q => q.latched.late),
    q.count "SNAP.OVD" (fun q => q.latched.ovd),
    q.count "SNAP.DROPS" (fun q => q.latched.drops) ]

def trgProps (n : Fin 8) : List PropSpec :=
  let l := trgLens n
  [ l.kw "INPUT" [("LVDS", .lvds), ("LVCMOS18", .lvcmos18), ("LVCMOS25", .lvcmos25), ("LVCMOS33", .lvcmos33)] Trg.input
      (fun v t => { t with input := v }),
    l.choice "EDGE" edgeSel Trg.edge (fun v t => { t with edge := v }) ]

end Sys2Proof.Machine
end

