-- ==== Sys2Proof/Machine/PropsB.lean ====
section
/-! DEFINITION. The property tables of the measurement frames, the event fabric, the segment store, the pattern groups, the
markers, the generators, calibration, Belfry, the stream port and the command links (spec/03, 04, 05, 09 to 14, 16). -/
namespace Sys2Proof.Machine

/-! ### Measurement frames (spec/09) -/

def armAtoms : List (Atom × ArmSrc) :=
  words [("TASK", .task), ("ALWAYS", .always)] ++ trgAtoms.map (fun x => (x.1, .trg x.2)) ++
    portAtoms.map (fun x => (x.1, .port x.2))

def statFlags : List (Atom × StatFlag) :=
  words [("PROV", .prov), ("SHIFTED", .shifted), ("NBR", .nbr), ("OVD", .ovd), ("LATE", .late), ("HOLD", .hold),
    ("PAIR", .pair)]

/-- R272. -/
def StatCell.mean (c : StatCell) : Int := if c.n = 0 then 0 else divEven c.sum c.n
def StatCell.ssd (c : StatCell) : Int :=
  let v := divEven ((c.sumSq : Int) * c.n - (c.sum : Int) * c.sum) c.n
  if c.n = 0 then 0 else if 2 ^ 96 ≤ v then 2 ^ 96 - 1 else v

/-- The five properties of a stop index (R82, R272). -/
def statProps (m : Fin 16) (k : Nat) : List PropSpec :=
  let l := mfLens m
  let cell (f : Mf) : StatCell := (f.latchedStats.find? (fun c => decide (c.idx = k))).getD ⟨k, 0, 0, 0, 0, 0⟩
  let name (t : String) : String := "SNAP.S" ++ padStr 3 k ++ "." ++ t
  [ l.ro (name "COUNT") countField (fun f => .int (cell f).n),
    l.roTime (name "MEAN") intervalField (fun f => .time (cell f).mean),
    l.ro (name "SSD") countField (fun f => .int (cell f).ssd),
    l.roTime (name "MIN") intervalField (fun f => .time (cell f).min),
    l.roTime (name "MAX") intervalField (fun f => .time (cell f).max) ]

/-- R273: MFm.STATS is RUN or HOLD; a write of CLEAR stores RUN. -/
def statsProp (m : Fin 16) : PropSpec :=
  { (mfCfgLens m).kw "STATS" [("RUN", false), ("HOLD", true)] MfCfg.statsHold (fun v c => { c with statsHold := v }) with
    ty := .kw ["RUN", "HOLD", "CLEAR"], readOnly := false,
    put := fun v => (mfCfgLens m).mod (fun c => { c with statsHold := decide (v = .kw "HOLD") }) }

def mfProps (m : Fin 16) : List PropSpec :=
  let c := mfCfgLens m
  [ c.flag "ENABLE" MfCfg.enable (fun v c => { c with enable := v }),
    c.choice "STARTPORT" (orNone portAtoms) MfCfg.startPort (fun v c => { c with startPort := v }),
    c.choice "STARTEDGE" riseFall MfCfg.startEdge (fun v c => { c with startEdge := v }),
    c.list "STOPS" portAtoms true 32 308 true MfCfg.stops (fun v c => { c with stops := v }),
    c.choice "STOPEDGE" edgeSel MfCfg.stopEdge (fun v c => { c with stopEdge := v }),
    c.nat "STOPMAX" 1 8 MfCfg.stopMax (fun v c => { c with stopMax := v }),
    c.natTime "WINDOW" 1000000 100000000000000 MfCfg.window (fun v c => { c with window := v }),
    c.choice "ARMSRC" armAtoms MfCfg.armSrc (fun v c => { c with armSrc := v }),
    c.kw "ARMMODE" [("EDGE", false), ("LEVEL", true)] MfCfg.armLevel (fun v c => { c with armLevel := v }),
    c.kw "RESTART" [("IGNORE", false), ("RESTART", true)] MfCfg.restart (fun v c => { c with restart := v }),
    c.flag "RECORDS" MfCfg.records (fun v c => { c with records := v }),
    statsProp m,
    c.list "STATFILTER" statFlags true 7 308 true MfCfg.filter (fun v c => { c with filter := v }),
    (mfLens m).count "SNAP.EARLY" Mf.latchedEarly ]
  ++ (List.range 256).flatMap (statProps m)

/-! ### The event fabric (spec/10) -/

/-- A number in a list that rises, once. -/
def insertNat (n : Nat) : List Nat → List Nat
  | [] => [n]
  | m :: ms => if n ≤ m then n :: m :: ms else m :: insertNat n ms

def sortNat (ns : List Nat) : List Nat := ns.foldr insertNat []

def taskProps (t : Fin 320) : List PropSpec :=
  let l := taskLens t
  [ l.prop "SUBS" (.evset (some 4)) false (fun k => .evset (k.subs.map (fun n => (n, n))))
      (fun v k => match v with | .list ks => { k with subs := sortNat (evExpand (Lens.ranges ks)) } | _ => k),
    l.kw "CLASS" [("U", true), ("S", false)] Task.isU (fun v k => { k with isU := v }),
    l.flag "CONFONLY" Task.confOnly (fun v k => { k with confOnly := v }),
    l.count "SNAP.COLLIDE" Task.latchedCollide,
    l.ro "SNAP.DROPS" countsField (fun k => .list (k.latchedDrops.toList.map (fun (n : Count) => .int n.toNat))) ]

/-- R283: the routes of the device, and those of class U. -/
def State.routes (s : State) : Nat := (s.tasks.toList.map (fun k => k.subs.length)).sum
def State.uRoutes (s : State) : Nat := (s.tasks.toList.map (fun k => if k.isU then k.subs.length else 0)).sum

def evtProps : List PropSpec :=
  [ stateLens.ro "ROUTES" countField (fun s => .int s.routes),
    stateLens.ro "UROUTES" countField (fun s => .int s.uRoutes) ]

/-! ### Segments, groups, markers (spec/11) -/

def segProps : List PropSpec :=
  [ storeLens.natOf "DEFWIDTH" [1, 2, 4, 8, 16] SegStore.defWidth (fun v t => { t with defWidth := v }),
    storeLens.ro "FREEBLOCKS" countField (fun t => .int t.free),
    storeLens.count "ECCCORR" SegStore.eccCorr ]

def segnProps (n : Fin 4096) : List PropSpec :=
  let of (f : Segment → Int) : SegStore → Value := fun t => .int (match t.find n with | some x => f x | none => 0)
  [ storeLens.ro "LENGTH" countField (of (fun x => x.length)),
    storeLens.ro "WIDTH" countField (of (fun x => x.width)),
    storeLens.ro "BLOCKS" countField (of (fun x => x.blocks)),
    storeLens.ro "WRITTEN" countField (of (fun x => x.written.length)),
    stateLens.roKw "ACTIVE" yesNo (fun s => s.segActive n) ]

/-- A list of segments, or NONE; an item may repeat (R553). -/
def slotsField : FieldTy := .objList true (fun o => match o with | .segn _ => true | _ => false) 8 308 false

def slotsValue (xs : List (Fin 4096)) : Value := .list (xs.map (fun n => .obj (.segn n)))

def segAtoms (ks : List Atom) : List (Fin 4096) := ks.filterMap (fun k => match k with | .obj (.segn n) => some n | _ => none)

def haltCauses : List (String × HaltCause) :=
  [("NONE", .none), ("PROGRAM", .program), ("END", .ended), ("STOP", .stop), ("CHECK", .check), ("DEPTH", .depth),
   ("STRUCT", .struct), ("LOOPERR", .looperr), ("NOSEG", .noseg), ("AXIS", .axis), ("TIMEOUT", .timeout),
   ("TIMEBASE", .timebase)]

def groupProps (g : Fin 8) : List PropSpec :=
  let c := groupCfgLens g
  let l := groupLens g
  [ c.list "LANES" portAtoms true 16 308 true GroupCfg.lanes (fun v c => { c with lanes := v }),
    c.kw "SAFE" [("LOW", .low), ("HIGH", .high), ("HOLD", .hold)] GroupCfg.safe (fun v c => { c with safe := v }),
    c.kw "WAITOUT" [("HOLD", false), ("IDLE", true)] GroupCfg.waitIdle (fun v c => { c with waitIdle := v }),
    c.prop "IDLESEG" segField false (fun c => segValue c.idleSeg) (fun v c => { c with idleSeg := valueSeg v }),
    c.prop "SLOTS" slotsField false (fun c => slotsValue c.slots)
      (fun v c => match v with | .list ks => { c with slots := segAtoms ks } | _ => c),
    l.ro "SLOTSLIVE" slotsField (fun x => slotsValue x.slotsLive),
    c.kw "ONCHECK" [("HALT", false), ("SKIP", true)] GroupCfg.skip (fun v c => { c with skip := v }),
    c.kw "STARTPOL" [("IGNORE", .ignore), ("RESTART", .restart), ("QUEUE", .queue)] GroupCfg.startPol
      (fun v c => { c with startPol := v }),
    l.roKw "STATE" [("IDLE", .idle), ("RUNNING", .running), ("WAITING", .waiting), ("HALTED", .halted)] Group.state,
    l.ro "STEPIDX" countField (fun x => .int x.stepIdx),
    l.roKw "CAUSE" haltCauses Group.cause,
    l.count "CHECKFAILS" Group.checkFails ]

/-- R303: NONE, a marker bit of a sample, or a held marker. -/
def markSrcs : List (String × MarkSrc) :=
  ("NONE", .none) ::
    ((List.finRange 8).flatMap (fun g => (List.finRange 16).flatMap (fun l => [false, true].map (fun b =>
      ("G" ++ dec g.val ++ "L" ++ padStr 2 l.val ++ "M" ++ (if b then "1" else "0"), MarkSrc.sample g l b)))) ++
     (List.finRange 8).flatMap (fun g => (List.finRange 4).map (fun h =>
      ("G" ++ dec g.val ++ "H" ++ dec h.val, MarkSrc.held g h))))

def markerProps (n : Fin 16) : List PropSpec :=
  let l := markerLens n
  [ l.kw "SRC" markSrcs Marker.src (fun v m => { m with src := v }),
    l.choice "POLARITY" normalInvert Marker.invert (fun v m => { m with invert := v }),
    l.flag "OUTPUT" Marker.output (fun v m => { m with output := v }) ]

/-! ### Generators and checkers (spec/12) -/

/-- The items of AGj.MAP. (DEDUCED, notes/assumptions/48.md) -/
def mapItems : List (Atom × MapItem) :=
  words ((List.finRange 16).map (fun k => ("A" ++ dec k.val, MapItem.a k)) ++
    (List.finRange 16).map (fun k => ("D" ++ dec k.val, MapItem.d k)) ++ [("WE", .we), ("RE", .re), ("X", .x)])

/-- R328: the operations of an element. -/
def readOps : Text → Option (List MarchOp)
  | [] => some []
  | c :: d :: cs =>
    match (if c == 'R' then some true else if c == 'W' then some false else none),
      (if d == '0' then some false else if d == '1' then some true else none), readOps cs with
    | some r, some o, some ops => some (⟨r, o⟩ :: ops)
    | _, _, _ => none
  | _ => none

/-- R328: an element in capital letters. -/
def readElem (u : Text) : Option MarchElem :=
  match cutAt '-' u with
  | (d, some ops) =>
    let dir := if d == ['U', 'P'] then some false else if d == ['D', 'N'] then some true else none
    match dir, readOps ops with
    | some down, some os => if decide (1 ≤ os.length ∧ os.length ≤ 6) then some ⟨down, os⟩ else none
    | _, _ => none
  | _ => none

def MarchOp.text (o : MarchOp) : String := (if o.read then "R" else "W") ++ (if o.one then "1" else "0")
def MarchElem.text (e : MarchElem) : String := (if e.down then "DN-" else "UP-") ++ String.join (e.ops.map MarchOp.text)

/-- R328, R552: an item of AGn.MARCH. (DEDUCED, notes/assumptions/48.md) -/
def marchItem (t : Text) : Except Nat Atom :=
  match classOf t with
  | .hexNum => (match readHexNum t with | .ok _ => .error 103 | .error c => .error c)
  | .number => .error 103
  | .name => (match readElem (up t) with | some e => .ok (.kw e.text) | none => .error 303)

def marchOf (ks : List Atom) : List MarchElem :=
  ks.filterMap (fun k => match k with | .kw t => readElem t.toList | _ => none)

def agFuncs : List (String × AgFunc) :=
  [("PRBS7", .prbs7), ("PRBS9", .prbs9), ("PRBS11", .prbs11), ("PRBS15", .prbs15), ("PRBS20", .prbs20), ("PRBS23", .prbs23),
   ("PRBS31", .prbs31), ("COUNT", .count), ("USER", .user), ("MARCH", .march)]

def backgrounds : List (String × Background) :=
  [("SOLID", .solid), ("CHECKER", .checker), ("ROWSTRIPE", .rowstripe), ("COLSTRIPE", .colstripe), ("WALK1", .walk1),
   ("WALK0", .walk0)]

def agProps (n : Fin 8) : List PropSpec :=
  let c := agCfgLens n
  let l := agLens n
  [ c.kw "ROLE" [("OFF", .off), ("GEN", .gen), ("CHECK", .check)] AgCfg.role (fun v c => { c with role := v }),
    c.choice "GROUP" (orNone groupAtoms) AgCfg.group (fun v c => { c with group := v }),
    c.nat "RATE" 1 65536 AgCfg.rate (fun v c => { c with rate := v }),
    c.kw "GATE" [("ALWAYS", .always), ("PLAYING", .playing), ("WAITING", .waiting)] AgCfg.gate (fun v c => { c with gate := v }),
    c.list "MAP" mapItems true 16 308 false AgCfg.map (fun v c => { c with map := v }),
    l.roKw "STATE" [("STOPPED", .stopped), ("RUNNING", .running), ("FROZEN", .frozen), ("DONE", .done)] Ag.state,
    c.kw "FUNC" agFuncs AgCfg.func (fun v c => { c with func := v }),
    c.hex "SEED" 32 (fun c => c.seed.toNat) (fun v c => { c with seed := BitVec.ofNat 32 v }),
    c.kw "INVERT" [("AUTO", .auto), ("NORMAL", .normal), ("INVERT", .invert)] AgCfg.inv (fun v c => { c with inv := v }),
    c.nat "PATLEN" 1 32 AgCfg.patLen (fun v c => { c with patLen := v }),
    c.nat "DWIDTH" 1 16 AgCfg.dWidth (fun v c => { c with dWidth := v }),
    c.nat "AWIDTH" 1 16 AgCfg.aWidth (fun v c => { c with aWidth := v }),
    c.prop "MARCH" (.items false marchItem 1 16 308 false) false (fun c => .list (c.march.map (fun e => .kw e.text)))
      (fun v c => match v with | .list ks => { c with march := marchOf ks } | _ => c),
    c.kw "ORDER" [("LINEAR", false), ("COMPLEMENT", true)] AgCfg.complement (fun v c => { c with complement := v }),
    c.kw "BACKGROUND" backgrounds AgCfg.background (fun v c => { c with background := v }),
    c.nat "COLBITS" 0 16 AgCfg.colBits (fun v c => { c with colBits := v }),
    c.kw "REPEAT" [("ONCE", false), ("LOOP", true)] AgCfg.loop (fun v c => { c with loop := v }),
    c.nat "STROBEON" 0 65535 AgCfg.strobeOn (fun v c => { c with strobeOn := v }),
    c.nat "STROBEOFF" 1 65536 AgCfg.strobeOff (fun v c => { c with strobeOff := v }),
    c.list "INPUTS" portAtoms true 16 308 true AgCfg.inputs (fun v c => { c with inputs := v }),
    c.natTime "SAMPLEAT" 0 100000000 AgCfg.sampleAt (fun v c => { c with sampleAt := v }),
    c.nat "LOCKBITS" 16 65535 AgCfg.lockBits (fun v c => { c with lockBits := v }),
    c.nat "LOSSERR" 1 65535 AgCfg.lossErr (fun v c => { c with lossErr := v }),
    c.nat "LOSSWIN" 16 65535 AgCfg.lossWin (fun v c => { c with lossWin := v }),
    l.roKw "LOCK" [("UNLOCKED", false), ("LOCKED", true)] Ag.lock,
    l.count "LOCKLOSSES" Ag.lockLosses,
    l.roTime "FIRSTERRAT" timeWordField (fun x => .time (match x.firstErr with | some e => e.1.toNat | none => 0)),
    l.ro "FIRSTERRADDR" countField (fun x => .int (match x.firstErr with | some e => e.2.1 | none => 0)),
    l.ro "FIRSTERRELEM" countField (fun x => .int (match x.firstErr with | some e => e.2.2.1 | none => 0)),
    l.ro "FIRSTERRBITS" (hexField 4) (fun x => .hex 4 (match x.firstErr with | some e => e.2.2.2.toNat | none => 0)),
    l.count "SNAP.BITS" Ag.latchedBits,
    l.count "SNAP.ERRORS" Ag.latchedErrors ]

/-! ### Calibration (spec/13, spec/19) -/

def calProps : List PropSpec :=
  [ calLens.natTime "PERIOD" 50000000000 10000000000000 CalState.period (fun v c => { c with period := v }),
    calLens.flag "HOLD" CalState.hold (fun v c => { c with hold := v }),
    calLens.count "ROTALATES" CalState.rotaLates,
    calLens.ro "DIEID" (hexField 8) (fun _ => .hex 8 Config.dieId.toNat),
    calLens.count "VOIDWINDOWS" CalState.voidWindows ]

/-! ### Belfry (spec/16) -/

def ruleSrcs : List (Atom × RuleSrc) :=
  words [("NONE", .none)] ++ wakeAtoms.map (fun x => (x.1, .wake x.2)) ++ [(.obj (.refx 0), .refa)] ++
    words ([("TEMP", .temp), ("VBEL", .vbel), ("VCORE", .vcore)] ++
      (List.finRange 8).map (fun k => ("VIO" ++ dec k.val, RuleSrc.vio k)))

def ruleActions : List (Atom × RuleAction) :=
  words [("WAKE", .wake), ("ALERT", .alert), ("COUNT", .count), ("LOG", .log)]

def ruleProps (n : Fin 16) : List PropSpec :=
  let l := ruleLens n
  let name (t : String) : String := "RULE" ++ dec n.val ++ "." ++ t
  [ l.choice (name "SRC") ruleSrcs Rule.src (fun v r => { r with src := v }),
    l.kw (name "SENSE") [("HIGH", .high), ("LOW", .low), ("ABOVE", .above), ("BELOW", .below)] Rule.sense
      (fun v r => { r with sense := v }),
    l.kw (name "FILTER") [("DEBOUNCE", .debounce), ("COUNT", .count), ("PERIOD", .period), ("RATE", .rate)] Rule.filter
      (fun v r => { r with filter := v }),
    l.nat (name "TIME") 1 1000000000 Rule.time (fun v r => { r with time := v }),
    l.nat (name "N") 1 65535 Rule.n (fun v r => { r with n := v }),
    l.nat (name "MIN") 0 (2 ^ 32 - 1) Rule.min (fun v r => { r with min := v }),
    l.nat (name "MAX") 0 (2 ^ 32 - 1) Rule.max (fun v r => { r with max := v }),
    l.int (name "LIMIT") (-550) 5000 Rule.limit (fun v r => { r with limit := v }),
    l.list (name "ACTION") ruleActions true 4 308 true Rule.action (fun v r => { r with action := v }),
    l.count (name "HITS") Rule.hits ]

def belProps : List PropSpec :=
  [ belLens.list "WAKECL" clusterAtoms true 8 308 true Belfry.wakeCl (fun v b => { b with wakeCl := v }),
    belLens.flag "SEGRETAIN" Belfry.segRetain (fun v b => { b with segRetain := v }),
    belLens.natTime "FLUSHWAIT" 0 1000000000000 Belfry.flushWait (fun v b => { b with flushWait := v }),
    belLens.ro "FLUSHDROPS" countField (fun b => .int b.flushDrops),
    belLens.flag "EXTPWR" Belfry.extPwr (fun v b => { b with extPwr := v }),
    belLens.nat "PWRDELAY" 0 10000 Belfry.pwrDelay (fun v b => { b with pwrDelay := v }),
    belLens.roKw "REFAACT" [("IDLE", false), ("ACTIVE", true)] Belfry.refaAct,
    belLens.ro "TEMP" signedField (fun b => .int b.temp),
    belLens.prop "TEMPWARN" (.int false 0 1250 []) false (fun b => .int b.tempWarn)
      (fun v b => match v with | .one (.int i) => { b with tempWarn := i } | _ => b) ]
  ++ (List.finRange 16).flatMap ruleProps ++
  [ { belLens.ro "ALERT" (.kw ["CLEAR"]) (fun b => .kw (if b.alert then "ASSERTED" else "CLEARED")) with
      readOnly := false, put := fun _ => clearAlert, dflt := some (.kw "CLEARED") },
    belLens.kw "LOGMODE" [("STOP", .stop), ("WRAP", .wrap)] Belfry.logMode (fun v b => { b with logMode := v }),
    belLens.ro "LOGCOUNT" countField (fun b => .int b.log.length),
    belLens.count "LOGLOST" Belfry.logLost,
    belLens.choice "AXIS" (orNone axisAtoms) Belfry.axis (fun v b => { b with axis := v }),
    belLens.choice "AXISWAKE" wakeAtoms Belfry.axisWake (fun v b => { b with axisWake := v }),
    belLens.ro "KEPTFRAME" optCountField (fun b => optVal (fun f => .int f.toNat) b.keptFrame),
    belLens.count "WAKES" Belfry.wakeCount,
    belLens.ro "WAKERULE" optCountField (fun b => optVal (fun r => .int r.val) b.wakeRule),
    belLens.count "SLEPT" Belfry.slept ]

def wakeProps (n : Fin 4) : List PropSpec :=
  let l := wakeLens n
  [ l.kw "PULL" [("NONE", .none), ("UP", .up), ("DOWN", .down)] Wake.pull (fun v w => { w with pull := v }),
    l.roKw "LEVEL" [("LOW", false), ("HIGH", true)] Wake.level ]

/-! ### The stream port (spec/05, spec/14) -/

def spProps : List PropSpec :=
  [ spLens.flag "ENABLE" Stream.enable (fun v p => { p with enable := v }),
    spLens.kw "RATE" [("LR1250", .lr1250), ("LR2500", .lr2500), ("LR3125", .lr3125)] Stream.rate (fun v p => { p with rate := v }),
    spLens.natOf "TXLANES" [1, 2, 4] Stream.txLanes (fun v p => { p with txLanes := v }),
    spLens.natOf "RXLANES" [0, 1, 2] Stream.rxLanes (fun v p => { p with rxLanes := v }),
    spLens.roKw "LINK" [("DOWN", .down), ("TRAIN", .train), ("UP", .up)] Stream.link,
    spLens.count "LINKDOWNS" Stream.linkDowns,
    spLens.evset "EVSET" Stream.evset (fun v p => { p with evset := v }),
    spLens.count "RXBADCRC" Stream.rxBadCrc,
    spLens.count "RXNOCREDIT" Stream.rxNoCredit,
    spLens.list "UPORTS" portAtoms true 8 505 true Stream.uports (fun v p => { p with uports := v }),
    fifoLens.count "FIFOECCCORR" Fifo.eccCorr,
    fifoLens.count "FIFOECCDROPS" Fifo.eccDrops,
    spLens.count "SNAP.FRAMES" Stream.latchedFrames ]

/-! ### The command links (spec/03, spec/04, spec/14) -/

def linkProps (k : Link) : List PropSpec :=
  let l := linkLens k
  [ l.kw "MODE" [("TYPED", .typed), ("MACHINE", .machine)] LinkState.mode (fun v x => { x with mode := v }),
    l.evset "EVSET" LinkState.evset (fun v x => { x with evset := v }),
    l.count "CHECKFAILS" LinkState.checkFails ]

def consoleProps : List PropSpec :=
  [ consoleLens.prop "BAUD" (.int false 9600 3000000 ["AUTO"]) false
      (fun c => match c.baud with | none => .kw "AUTO" | some b => .int b)
      (fun v c => { c with baud := match v with | .one (.int i) => some i.toNat | _ => none }),
    consoleLens.ro "RATE" countField (fun c => .int c.rate),
    consoleLens.roKw "LINK" [("HUNTING", false), ("RUNNING", true)] Console.running ]

def hspiProps : List PropSpec := [stateLens.ro "SPIMODE" countField (fun s => .int (if s.spi.mode3 then 3 else 0))]

/-! ### Every object -/

/-- The properties of an object but for DIGEST, in the order of their tables. -/
def propsOf : Obj → List PropSpec
  | .sys => sysProps
  | .ref => refProps
  | .refx x => refxProps x
  | .ax a => axisProps a
  | .cl k => clusterProps k
  | .port p => portProps p
  | .trg n => trgProps n
  | .mf m => mfProps m
  | .evt => evtProps
  | .src _ => []
  | .tk t => taskProps t
  | .grp g => groupProps g
  | .seg => segProps
  | .segn n => segnProps n
  | .mk n => markerProps n
  | .ag n => agProps n
  | .cal => calProps
  | .bel => belProps
  | .wake n => wakeProps n
  | .sp => spProps
  | .con => linkProps .con ++ consoleProps
  | .hspi => linkProps .hspi ++ hspiProps

def findProp (o : Obj) (name : String) : Option PropSpec := (propsOf o).find? (fun x => x.name == name)

/-- R82: the name of a moving value whose snapshot property the object has. -/
def isMoving (o : Obj) (name : String) : Bool := (propsOf o).any (fun x => x.name == "SNAP." ++ name)

end Sys2Proof.Machine
end

