-- ==== Sys2Proof/Machine/Program.lean ====
section
/-! DEFINITION. The instructions of a Spire program as text, PROG and PROG CLEAR, SEG DEFINE and SEG FREE (spec/11 R292 to R295,
R305, R306). -/
namespace Sys2Proof.Machine

/-! ### Instructions as they are written and echoed (R305) -/

def WaitOn.text : WaitOn → String | .step => "STEP" | .event e => objName (.src e)

/-- R305: the echo of an instruction, with times in a report form. -/
def SpireInstr.text (f : TimeFmt) : SpireInstr → String
  | .playSeg n => "PLAY " ++ objName (.segn n)
  | .playSlot k => "PLAY S" ++ dec k.val
  | .loop none => "LOOP FOREVER"
  | .loop (some n) => "LOOP " ++ dec n
  | .endloop => "ENDLOOP"
  | .call i => "CALL " ++ dec i
  | .ret => "RET"
  | .wait on t h => "WAIT " ++ on.text ++ (match t with | some x => " TIMEOUT=" ++ fmtTime f x | none => "") ++
      (match h with | some true => " ONTIMEOUT=HALT" | some false => " ONTIMEOUT=CONT" | none => "")
  | .align a o c => "ALIGN " ++ objName (.ax a) ++ " " ++ (if c then dec o else fmtTime f o)
  | .mkset h => "MKSET " ++ dec h.val
  | .mkclr h => "MKCLR " ++ dec h.val
  | .halt => "HALT"

/-- A rejection of an instruction-text: its code, and the token it is found at. -/
abbrev Rd (α : Type) := Except (Nat × Nat) α

/-- A number of an instruction: malformed, or out of range. (DEDUCED, notes/assumptions/95.md) -/
def readNum (lo hi : Nat) (t : Tok) : Rd Nat :=
  match readInteger false t.text with
  | .ok v => if inRange lo hi v then .ok v.toNat else .error (301, t.col)
  | .error _ => .error (103, t.col)

/-- An object named in an instruction: a name in the form of one that names none gets ER 201. -/
def readObjIn {α : Type} (letters : String) (pick : Obj → Option α) (t : Tok) : Rd α :=
  match objOf (up t.text) with
  | some o => (match pick o with | some a => .ok a | none => .error (103, t.col))
  | none =>
    if hasObjForm (up t.text) && String.ofList ((up t.text).takeWhile isUpperLetter) == letters then .error (201, t.col)
    else .error (103, t.col)

/-- R305: TIMEOUT=t, 51.2 ns to 10 s. (DEDUCED, notes/assumptions/95.md) -/
def readTimeout (t : Tok) (v : Text) : Rd Nat :=
  match readTime false v with
  | .ok x => if inRange 512000 100000000000000 x then .ok x.toNat else .error (301, t.col)
  | .error _ => .error (103, t.col)

/-- R305: what follows a wait. -/
def readWait (on : WaitOn) (ts : List Tok) : Rd SpireInstr :=
  let key (t : Tok) (k : String) : Option Text :=
    match cutAt '=' t.text with
    | (p, some v) => if upStr p == k then some v else none
    | _ => none
  let halts (t : Tok) (v : Text) : Rd Bool :=
    if upStr v == "CONT" then .ok false else if upStr v == "HALT" then .ok true else .error (103, t.col)
  let last (x : Option Nat) (ts : List Tok) : Rd SpireInstr :=
    match ts with
    | [] => .ok (.wait on x none)
    | [t] => (match key t "ONTIMEOUT" with
      | some v => do return .wait on x (some (← halts t v))
      | none => .error (103, t.col))
    | t :: u :: _ => if (key t "ONTIMEOUT").isSome then .error (103, u.col) else .error (103, t.col)
  match ts with
  | [] => .ok (.wait on none none)
  | t :: us => match key t "TIMEOUT" with
    | some v => do let x ← readTimeout t v; last (some x) us
    | none => last none ts

/-- R32, R305: ALIGN axis offset. (DEDUCED, notes/assumptions/95.md) -/
def readAlign (s : State) (a t : Tok) : Rd SpireInstr := do
  let x ← readObjIn "AX" (fun o => match o with | .ax a => some a | _ => none) a
  let cfg := s.axes[x].cfg
  let incr := decide (cfg.mode = .increment)
  match readOffset incr t.text with
  | .error c => .error (if incr && c == 105 then 105 else 103, t.col)
  | .ok v =>
    if inRange 0 ((if incr then cfg.counts else cfg.period) - 1 : Int) v then return .align x v.toNat incr
    else .error (301, t.col)

/-- R305: the instruction that a text spells. endCol: the column after its last character. -/
def readInstr (s : State) (endCol : Nat) (ts : List Tok) : Rd SpireInstr :=
  match ts with
  | [] => .error (103, endCol)
  | v :: args =>
    let w := upStr v.text
    let one (f : Tok → Rd SpireInstr) : Rd SpireInstr :=
      match args with
      | [] => .error (103, endCol)
      | [t] => f t
      | _ :: u :: _ => .error (103, u.col)
    let bare (i : SpireInstr) : Rd SpireInstr := match args with | [] => .ok i | u :: _ => .error (103, u.col)
    let marker (t : Tok) : Rd (Fin 4) := do return Fin.ofNat 4 (← readNum 0 3 t)
    if w == "PLAY" then one (fun t =>
      match up t.text with
      | 'S' :: ds =>
        if allDigits ds then do return .playSlot (Fin.ofNat 8 (← readNum 0 7 ⟨t.col, ds⟩))
        else do return .playSeg (← readObjIn "SEG" (fun o => match o with | .segn n => some n | _ => none) t)
      | _ => .error (103, t.col))
    else if w == "LOOP" then one (fun t =>
      if upStr t.text == "FOREVER" then .ok (.loop none) else do return .loop (some (← readNum 1 65535 t)))
    else if w == "ENDLOOP" then bare .endloop
    else if w == "CALL" then one (fun t => do return .call (← readNum 0 255 t))
    else if w == "RET" then bare .ret
    else if w == "WAIT" then
      match args with
      | [] => .error (103, endCol)
      | t :: rest =>
        if upStr t.text == "STEP" then readWait .step rest
        else do
          let e ← readObjIn "E" (fun o => match o with | .src e => some e | _ => none) t
          readWait (.event e) rest
    else if w == "ALIGN" then
      match args with
      | [] | [_] => .error (103, endCol)
      | [a, t] => readAlign s a t
      | _ :: _ :: u :: _ => .error (103, u.col)
    else if w == "MKSET" then one (fun t => do return .mkset (← marker t))
    else if w == "MKCLR" then one (fun t => do return .mkclr (← marker t))
    else if w == "HALT" then bare .halt
    else .error (103, v.col)

def readProgText (s : State) (v : RawVal) : Rd SpireInstr :=
  let t := v.text.toList
  readInstr s (v.col + t.length) (tokensFrom v.col t none)

/-- An instruction that holds a time value (R95). -/
def SpireInstr.timed : SpireInstr → Bool
  | .wait _ (some _) _ => true
  | .align _ _ c => !c
  | _ => false

/-! ### PROG (R305) -/

/-- The syntax codes of a PROG line, from left to right. -/
def progSyn (s : State) (index text : RawVal) : Option SynErr :=
  let ix : Option SynErr := match readInteger false index.text.toList with | .error c => some ⟨c, index.col⟩ | .ok _ => none
  let tx : Option SynErr := match readProgText s text with
    | .error (c, col) => if c < 200 then some ⟨c, col⟩ else none
    | .ok _ => none
  firstOf [ix, tx]

/-- R305: the group may be programmed. -/
def progTest (s : State) (g : Fin 8) : Except (Nat × String) Unit :=
  if s.groups[g].live || s.groups[g].queuedStart.isSome then .error (408, objName (.grp g)) else .ok ()

/-- An instruction at its index, by rising index. -/
def putInstr (i : Nat) (x : SpireInstr) : List (Nat × SpireInstr) → List (Nat × SpireInstr)
  | [] => [(i, x)]
  | (j, y) :: r => if j = i then (i, x) :: r else if i < j then (i, x) :: (j, y) :: r else (j, y) :: putInstr i x r

def theGroup (o : ObjArg) : Except (Nat × String) (Fin 8) := do
  match ← theObj o with
  | .grp g => return g
  | x => notApplicable x

/-- PROG group index instruction-text. -/
def progVerb (o : ObjArg) (index text : RawVal) (s : State) : Exec := do
  let g ← theGroup o
  match readInteger false index.text.toList with
  | .error c => reject c ""
  | .ok i =>
    if !inRange 0 255 i then reject 301 ""
    else match readProgText s text with
      | .error (c, _) => reject c ""
      | .ok x =>
        if s.ring && x.timed then reject 402 "" else
        progTest s g
        done ("PROG " ++ o.name ++ " " ++ decInt i ++ " " ++ x.text s.tb.timeFmt)
          (s.modGroup g (fun y => { y with program := putInstr i.toNat x y.program }))

/-- PROG group CLEAR. -/
def progClearVerb (o : ObjArg) (s : State) : Exec := do
  let g ← theGroup o
  progTest s g
  done ("PROG " ++ o.name ++ " CLEAR") (s.modGroup g (fun y => { y with program := [], state := .idle }))

/-! ### SEG DEFINE and SEG FREE (R292, R294) -/

def theSegment (o : ObjArg) : Except (Nat × String) (Fin 4096) := do
  match ← theObj o with
  | .segn n => return n
  | x => notApplicable x

def lengthField : FieldTy := .int false 0 (10 ^ 20) []

/-- A new segment takes its place by rising number. -/
def putSegment (x : Segment) : List Segment → List Segment
  | [] => [x]
  | y :: ys => if x.id.val < y.id.val then x :: y :: ys else y :: putSegment x ys

/-- `SEG DEFINE` (R292). (DEDUCED, notes/assumptions/47.md) -/
def segDefineVerb (o : ObjArg) (len : RawVal) (s : State) : Exec := do
  let n ← theSegment o
  match readField lengthField len.text.toList with
  | .ok (.val (.one (.int l))) =>
    let L := l.toNat
    let W := s.store.defWidth
    if L % 128 ≠ 0 then reject 307 o.name
    else if L < 1024 || 33554432 < L * W then reject 301 o.name
    else if (s.store.find n).isSome then reject 304 o.name
    else if s.store.free < blocksFor L W then reject 504 o.name
    else
      let st := s.store
      done ("SEG DEFINE " ++ o.name ++ " LENGTH=" ++ dec L)
        { s with store := { st with segs := putSegment { id := n, length := L, width := W, written := [] } st.segs } }
  | .ok _ => reject 103 ""
  | .error e => reject e.code ""

/-- `SEG FREE` (R294). (DEDUCED, notes/assumptions/47.md) -/
def segFreeVerb (o : ObjArg) (s : State) : Exec := do
  let n ← theSegment o
  if (s.store.find n).isNone then reject 210 o.name
  else if s.segActive n then reject 423 o.name
  else
    let st := s.store
    done ("SEG FREE " ++ o.name) { s with store := { st with segs := st.segs.filter (fun x => decide (x.id ≠ n)) } }

/-! ### The meanings -/

/-- PROG (R305). -/
def execProg (d : Nat) (fault : Bool) (s : State) : Host.Outcome State Fault Refusal :=
  .next (steward fault (fun c => match c with | .prog .. => true | _ => false)
    (fun c s => match c with | .prog _ i t => progSyn s i t | _ => none)
    (fun _ c s => match c with | .prog o i t => progVerb o i t s | _ => reject 511 "") (s.elapse d))

/-- PROG CLEAR (R305). -/
def execProgClear (d : Nat) (fault : Bool) (s : State) : Host.Outcome State Fault Refusal :=
  .next (steward fault (fun c => match c with | .progClear _ => true | _ => false) noSyn
    (fun _ c s => match c with | .progClear o => progClearVerb o s | _ => reject 511 "") (s.elapse d))

/-- SEG DEFINE (R292). -/
def execSegDefine (d : Nat) (fault : Bool) (s : State) : Host.Outcome State Fault Refusal :=
  .next (steward fault (fun c => match c with | .segDefine .. => true | _ => false)
    (fun c _ => match c with | .segDefine _ l => fieldSyn lengthField l | _ => none)
    (fun _ c s => match c with | .segDefine o l => segDefineVerb o l s | _ => reject 511 "") (s.elapse d))

/-- SEG FREE (R294). -/
def execSegFree (d : Nat) (fault : Bool) (s : State) : Host.Outcome State Fault Refusal :=
  .next (steward fault (fun c => match c with | .segFree _ => true | _ => false) noSyn
    (fun _ c s => match c with | .segFree o => segFreeVerb o s | _ => reject 511 "") (s.elapse d))

end Sys2Proof.Machine
end

