-- ==== Sys2Proof/Machine/Reads.lean ====
section
/-! DEFINITION. Configuration digests, and the lines that read: GET, SHOW, LIST, HELP, SNAPSHOT (spec/02 R44, R45; spec/03 R60,
R69, R70, R78, R81, R82, R95; spec/14 R379 to R382; spec/15 R394; spec/11 R294). -/
namespace Sys2Proof.Machine

/-! ### Digests (R379 to R382) -/

/-- A line of a canonical text: its path and its value. -/
abbrev CanonLine := String × String

/-- The order of the byte values of two texts. -/
def textBefore : Text → Text → Bool
  | [], _ => true
  | _ :: _, [] => false
  | a :: as, b :: bs => if a.toNat = b.toNat then textBefore as bs else decide (a.toNat < b.toNat)

def insertLine (x : CanonLine) : List CanonLine → List CanonLine
  | [] => [x]
  | y :: ys => if textBefore x.1.toList y.1.toList then x :: y :: ys else y :: insertLine x ys

/-- R379: the canonical text of some lines. -/
def canonText (xs : List CanonLine) : Text := (xs.foldr insertLine []).flatMap (fun x => (x.1 ++ "=" ++ x.2 ++ "\n").toList)

def hex32 (v : BitVec 32) : String := "0x" ++ String.ofList (hexPad 8 v.toNat)

/-- R379: the lines of the settings that differ from their defaults. -/
def settingLines (o : Obj) (s : State) : List CanonLine :=
  (propsOf o).filterMap (fun x =>
    match x.dflt with
    | some d =>
      let v := x.get s
      if v = d || (decide (o = .sys) && x.name == "TIMEFMT") then none
      else some (objName o ++ "." ++ x.name, fmtValue .fs v)
    | none => none)

/-- R379: the lines of a group's program and of a segment's blocks. -/
def extraLines (o : Obj) (s : State) : List CanonLine :=
  match o with
  | .grp g => s.groups[g].program.map (fun x => (objName o ++ ".PROG." ++ padStr 3 x.1, x.2.text .fs))
  | .segn n =>
    (match s.store.find n with
     | some x =>
       [(objName o ++ ".LENGTH", dec x.length), (objName o ++ ".WIDTH", dec x.width)] ++
         x.written.map (fun b => (objName o ++ ".BLOCK." ++ padStr 5 b.idx, hex32 b.check))
     | none => [])
  | _ => []

/-- R379: the children of an object. Only defined segments are children of SEG. -/
def State.childrenOf (s : State) (o : Obj) : List Obj :=
  match o with
  | .seg => s.store.segs.map (fun x => .segn x.id)
  | _ => children (some o)

/-- R379, R380: the digest of an object; fuel: the depth of the object tree. -/
def digestOf : Nat → Obj → State → BitVec 32
  | 0, _, _ => 0
  | n + 1, o, s =>
    let kids := (s.childrenOf o).filter (fun c => !(decide (c = .con) || decide (c = .hspi)))
    let lines := kids.filterMap (fun c =>
      let d := digestOf n c s
      if d = 0 then none else some (objName c ++ ".DIGEST", hex32 d))
    let t := canonText (settingLines o s ++ extraLines o s ++ lines)
    if t.isEmpty then 0 else crc32c (textBytes t)

def State.digest (s : State) (o : Obj) : BitVec 32 := digestOf 4 o s

/-- R69: DIGEST, which every object has. -/
def digestProp (o : Obj) : PropSpec :=
  { name := "DIGEST", ty := hexField 8, readOnly := true, timed := false, get := fun s => .hex 8 (s.digest o).toNat,
    put := fun _ s => s, dflt := none }

/-- A property of an object, DIGEST with the rest. -/
def propOf (o : Obj) (name : String) : Option PropSpec := if name == "DIGEST" then some (digestProp o) else findProp o name

/-! ### Tests of a path (R69, R82, R95, R294, R394) -/

/-- R394: the line addresses a cluster. -/
def addressTest (s : State) (o : Obj) (write : Bool) : Except (Nat × String) Unit :=
  match o with
  | .port p => s.clusterTest (if write then .setPort else .readPort) (clusterOf p) o
  | .cl k => s.clusterTest (if write then .setCl else .readCl) k o
  | _ => .ok ()

/-- R294: a property of a segment that is not defined. -/
def segTest (s : State) (o : Obj) : Except (Nat × String) Unit :=
  match o with
  | .segn n => if (s.store.find n).isNone then .error (210, objName o) else .ok ()
  | _ => .ok ()

/-- The property that a path names, and the first code that naming it gives. (DEDUCED, notes/assumptions/97.md) -/
def pathTest (s : State) (path : PathRef) (write : Bool) : Except (Nat × String) (Obj × PropSpec) := do
  let o ← theObj path.obj
  match propOf o path.prop with
  | none => .error (if isMoving o path.prop then 205 else 202, path.name)
  | some x =>
    segTest s o
    addressTest s o write
    if x.timed && s.ring then .error (402, "") else return (o, x)

/-! ### GET, SHOW, LIST, HELP, SNAPSHOT -/

/-- path=value. -/
def assignText (f : TimeFmt) (path : String) (v : Value) : String := path ++ "=" ++ fmtValue f v

/-- GET (R70, R78). -/
def getVerb (ps : List PathRef) (s : State) : Exec := do
  let xs ← ps.mapM (fun p => pathTest s p false)
  done (String.intercalate " " (xs.map (fun x => assignText s.tb.timeFmt (objName x.1 ++ "." ++ x.2.name) (x.2.get s)))) s

/-- SHOW (R70, R82). (DEDUCED, notes/assumptions/73.md) -/
def showVerb (o : ObjArg) (s : State) : Exec := do
  let x ← theObj o
  segTest s x
  addressTest s x false
  let ps := propsOf x ++ [digestProp x]
  if s.ring && ps.any PropSpec.timed then reject 402 "" else
  doneLines ("SHOW " ++ o.name) (ps.map (fun y => assignText s.tb.timeFmt (objName x ++ "." ++ y.name) (y.get s))) s

/-- LIST (R70). (DEDUCED, notes/assumptions/73.md) -/
def listVerb (o : Option ObjArg) (s : State) : Exec :=
  match o with
  | none => doneLines "LIST" ((children none).map objName) s
  | some a => do
    let x ← theObj a
    match x with
    | .cl k => s.clusterTest .readCl k x
    | _ => pure ()
    doneLines ("LIST " ++ a.name) ((s.childrenOf x).map objName) s

/-- HELP (R60): its text is no part of the contract. (DESIGN CHOICE, notes/assumptions/80.md) -/
def helpVerb (topic : Option String) (s : State) : Exec :=
  doneLines ("HELP" ++ (match topic with | some t => " " ++ t | none => "")) (Config.helpText topic) s

/-- SNAPSHOT (R44, R78, R95): the snapshot tick is the present tick. -/
def snapshotVerb (s : State) : Exec :=
  if s.ring then reject 402 "" else
  let s := snapshotAt s.tb.now s
  done ("SNAPSHOT SYS.SNAPSEQ=" ++ dec s.tb.snapSeq.toNat ++ " SYS.SNAPTIME=" ++ fmtTime s.tb.timeFmt s.tb.snapTime.toNat) s

/-- GET (R70, R78). -/
def execGet (d : Nat) (fault : Bool) (s : State) : Host.Outcome State Fault Refusal :=
  .next (steward fault (fun c => match c with | .get _ => true | _ => false) noSyn
    (fun _ c s => match c with | .get ps => getVerb ps s | _ => reject 511 "") (s.elapse d))

/-- SHOW (R70). -/
def execShowObject (d : Nat) (fault : Bool) (s : State) : Host.Outcome State Fault Refusal :=
  .next (steward fault (fun c => match c with | .showObject _ => true | _ => false) noSyn
    (fun _ c s => match c with | .showObject o => showVerb o s | _ => reject 511 "") (s.elapse d))

/-- LIST (R70). -/
def execList (d : Nat) (fault : Bool) (s : State) : Host.Outcome State Fault Refusal :=
  .next (steward fault (fun c => match c with | .list _ => true | _ => false) noSyn
    (fun _ c s => match c with | .list o => listVerb o s | _ => reject 511 "") (s.elapse d))

/-- HELP (R60, R70). -/
def execHelp (d : Nat) (fault : Bool) (s : State) : Host.Outcome State Fault Refusal :=
  .next (steward fault (fun c => match c with | .help _ => true | _ => false) noSyn
    (fun _ c s => match c with | .help t => helpVerb t s | _ => reject 511 "") (s.elapse d))

/-- SNAPSHOT (R44). -/
def execSnapshot (d : Nat) (fault : Bool) (s : State) : Host.Outcome State Fault Refusal :=
  .next (steward fault (fun c => match c with | .snapshot => true | _ => false) noSyn
    (fun _ c s => match c with | .snapshot => snapshotVerb s | _ => reject 511 "") (s.elapse d))

end Sys2Proof.Machine
end

