-- ==== Sys2Proof/Machine/ServiceRows.lean ====
section
/-! DEFINITION. The lines that take clusters in and out of service, that act on the whole device, on calibration tables and on
Belfry's log, and the restarts of the steward (spec/13 R359 to R362; spec/15 R389 to R412; spec/16 R417, R433, R434; spec/18
R487 to R492). -/
namespace Sys2Proof.Machine

/-! ### Clusters (R389 to R404) -/

/-- The cluster that an argument names. -/
def theCluster (o : ObjArg) : Except (Nat × String) (Fin 8) := do
  match ← theObj o with
  | .cl k => return k
  | x => notApplicable x

/-- DRAIN cluster [ DISCARD ] (R389). -/
def drainVerb (o : ObjArg) (discard : Bool) (s : State) : Exec := do
  let k ← theCluster o
  s.clusterTest .drain k (.cl k)
  done ("DRAIN " ++ objName (.cl k) ++ (if discard then " DISCARD" else "")) (drainCluster k discard s)

/-- POWER cluster OFF, POWER cluster ON (R391, R392). -/
def powerVerb (o : ObjArg) (on : Bool) (s : State) : Exec := do
  let k ← theCluster o
  s.clusterTest (if on then .powerOn else .powerOff) k (.cl k)
  done ("POWER " ++ objName (.cl k) ++ (if on then " ON" else " OFF"))
    (if on then powerOnCluster k s else powerOffCluster k s)

/-- R398: the join point that a position gives. -/
def joinPoint (rc : Recv) (k : Fin 8) (v : RawVal) (s : State) : Except (Nat × String) JoinPoint := do
  let name := objName (.cl k)
  if s.ring then .error (402, "") else
  match s.clusters[k].joinAxis with
  | none => .error (304, name)
  | some a =>
    if s.axes[a].cfg.mode = .increment then .error (304, name)
    else match readPos v.text.toList with
      | .error c => .error (c, "")
      | .ok p => do
        let (n, o) ← resolvePos s rc a p
        axisInsertion s a o
        match s.axes[a].frameStart n with
        | some t => leadTest joinLead rc.time (tadd t o)
        | none => .ok ()
        return .pos n o

/-- JOIN cluster AT position, JOIN cluster NEXT (R398). -/
def joinVerb (rc : Recv) (o : ObjArg) (v : Option RawVal) (s : State) : Exec := do
  let k ← theCluster o
  let name := objName (.cl k)
  s.clusterTest .join k (.cl k)
  match v with
  | none => done ("JOIN " ++ name ++ " NEXT") (joinCluster k .next s)
  | some v => do
    match ← joinPoint rc k v s with
    | .pos n off =>
      let text := match s.clusters[k].joinAxis with | some a => posText s a n off | none => ""
      done ("JOIN " ++ name ++ " AT " ++ text) (joinCluster k (.pos n off) s)
    | .next => done ("JOIN " ++ name ++ " NEXT") (joinCluster k .next s)

/-- R398, R552: after AT stands a position. -/
def joinSyn (s : State) (o : ObjArg) (v : Option RawVal) : Option SynErr :=
  let axis : Option (Fin 4) := match o with | .ok (.cl k) => s.clusters[k].joinAxis | _ => none
  match v with
  | none => none
  | some v =>
    let t := v.text.toList
    if !isPosText t then some ⟨103, v.col⟩
    else match readPos t with
      | .error c => if c < 200 then some ⟨c, v.col⟩ else none
      | .ok p => (offsetErr (isIncrement s axis) p.off).map (fun c => ⟨c, v.col⟩)

/-- Cluster RESET (R404). -/
def resetVerb (k : Fin 8) (s : State) : Exec := done (objName (.cl k) ++ " RESET") (resetCluster k s)

/-- DRAIN (R389). -/
def execDrain (d : Nat) (fault : Bool) (s : State) : Host.Outcome State Fault Refusal :=
  .next (steward fault (fun c => match c with | .drain .. => true | _ => false) noSyn
    (fun _ c s => match c with | .drain o x => drainVerb o x s | _ => reject 511 "") (s.elapse d))

/-- POWER_OFF (R391). -/
def execPowerOff (d : Nat) (fault : Bool) (s : State) : Host.Outcome State Fault Refusal :=
  .next (steward fault (fun c => match c with | .powerOff _ => true | _ => false) noSyn
    (fun _ c s => match c with | .powerOff o => powerVerb o false s | _ => reject 511 "") (s.elapse d))

/-- POWER_ON (R392). -/
def execPowerOn (d : Nat) (fault : Bool) (s : State) : Host.Outcome State Fault Refusal :=
  .next (steward fault (fun c => match c with | .powerOn _ => true | _ => false) noSyn
    (fun _ c s => match c with | .powerOn o => powerVerb o true s | _ => reject 511 "") (s.elapse d))

/-- JOIN (R398). -/
def execJoin (d : Nat) (fault : Bool) (s : State) : Host.Outcome State Fault Refusal :=
  .next (steward fault (fun c => match c with | .join .. => true | _ => false)
    (fun c s => match c with | .join o v => joinSyn s o v | _ => none)
    (fun r c s => match c with | .join o v => joinVerb r.received o v s | _ => reject 511 "") (s.elapse d))

/-- CLUSTER_RESET (R404). -/
def execClusterReset (d : Nat) (fault : Bool) (s : State) : Host.Outcome State Fault Refusal :=
  .next (steward fault (fun c => match c with | .clusterReset _ => true | _ => false) noSyn
    (fun _ c s => match c with | .clusterReset k => resetVerb k s | _ => reject 511 "") (s.elapse d))

/-! ### The device (R407, R408, R417, R487, R490, R492) -/

/-- The order of an action that waits for its OK. An earlier order that still waits keeps its instant.
(DEDUCED, notes/assumptions/77.md) -/
def orderAt (s : State) (old : Option Order) : Order :=
  match old with
  | some o => o
  | none => ⟨if s.tb.running then some s.tb.now else none, false⟩

/-- A line whose response sets off an action once it has left. -/
def doneThen (payload : String) (a : EndAction) (s : State) : Exec := .ok ⟨payload, [], [], some a, none, s⟩

/-- SYS RESET (R407). -/
def sysResetVerb (s : State) : Exec :=
  doneThen "SYS RESET" .hardwareReset (s.modBoot (fun b => { b with resetOrder := some (orderAt s b.resetOrder) }))

/-- A steward restart is arranged (R408). (DEDUCED, notes/assumptions/77.md) -/
def orderRestart (cause : RestartCause) (s : State) : State :=
  { s with steward := { s.steward with ordered := some (cause, orderAt s (s.steward.ordered.map (fun o => o.2))) } }

/-- R488: the flags of level 1, by bit. (DESIGN CHOICE, notes/assumptions/80.md) -/
def featureFlags : List String :=
  ["FASTPATH", "RUNAHEAD", "ECHO", "PAIRCAL", "CALIO", "MARCH", "KEPTAXIS", "SYNC", "STAGE", "CUSTKEY"]

/-- SYS FEATURES (R487, R488). (DESIGN CHOICE, notes/assumptions/80.md) -/
def featuresVerb (s : State) : Exec :=
  let x := s.boot.image
  let on := (featureFlags.zip (List.range featureFlags.length)).filter (fun f => x.features.getLsbD f.2)
  let text := if on.isEmpty then "NONE" else String.intercalate "," (on.map (fun f => f.1))
  done ("SYS FEATURES LEVEL=" ++ dec x.level ++ " FLAGS=" ++ text) s

/-- SYS VERSION (R490). -/
def versionVerb (s : State) : Exec :=
  done ("SYS VERSION IMAGE=" ++ versionText s.boot.image.version ++ " STEPPING=" ++ steppingLetter ++ " ROM=" ++
    dec Config.romRevision) s

/-- SYS UPDATE (R408, R476, R492). -/
def updateVerb (s : State) : Exec :=
  match s.boot.stageSeg with
  | none => reject 304 "SYS.STAGE"
  | some n =>
    match s.store.find n with
    | none => reject 210 (objName (.segn n))
    | some x =>
      match stagedImage s.boot x with
      | (.none, bs) => doneThen "SYS UPDATE" .restart (orderRestart .update (s.modBoot (fun b => { b with
          nextImage := some (imageOf bs) })))
      | (f, _) => .ok ⟨"", [], [], none, some 509, s.modBoot (fun b => { b with imageFault := f })⟩

/-- R417, R435: the first object that keeps the device awake, and its code. (DEDUCED, notes/assumptions/65.md) -/
def sleepTest (s : State) : Option (Nat × String) :=
  match (List.finRange 8).find? (fun k => decide (s.clusters[k].state ≠ .off)) with
  | some k => some (408, objName (.cl k))
  | none =>
    match (List.finRange 8).find? (fun g => s.groups[g].live) with
    | some g => some (408, objName (.grp g))
    | none =>
      match s.bel.axis with
      | none => none
      | some a =>
        let c := s.axes[a].cfg
        let bad := decide (c.mode ≠ .frame) || (match c.source with | .port _ | .mark => true | _ => false) ||
          decide (c.period < 200000000 ∨ 10000000000000 < c.period)
        if s.axes[a].state ≠ .confirmed then some (403, objName (.ax a))
        else if bad then some (304, objName (.ax a))
        else none

/-- SYS SLEEP (R417, R418). -/
def sleepVerb (s : State) : Exec :=
  match sleepTest s with
  | some e => .error e
  | none =>
    let o := orderAt s none
    doneThen "SYS SLEEP" .sleep (s.modBel (fun b => match b.step with
      | .accepted .. => b
      | _ => { b with step := .accepted o.ready o.left }))

/-- SYS_RESET (R407). -/
def execSysReset (d : Nat) (fault : Bool) (s : State) : Host.Outcome State Fault Refusal :=
  .next (steward fault (fun c => match c with | .sysReset => true | _ => false) noSyn (fun _ _ s => sysResetVerb s)
    (s.elapse d))

/-- SYS_FEATURES (R487). -/
def execSysFeatures (d : Nat) (fault : Bool) (s : State) : Host.Outcome State Fault Refusal :=
  .next (steward fault (fun c => match c with | .sysFeatures => true | _ => false) noSyn (fun _ _ s => featuresVerb s)
    (s.elapse d))

/-- SYS_VERSION (R490). -/
def execSysVersion (d : Nat) (fault : Bool) (s : State) : Host.Outcome State Fault Refusal :=
  .next (steward fault (fun c => match c with | .sysVersion => true | _ => false) noSyn (fun _ _ s => versionVerb s)
    (s.elapse d))

/-- SYS_RESTART (R408). -/
def execSysRestart (d : Nat) (fault : Bool) (s : State) : Host.Outcome State Fault Refusal :=
  .next (steward fault (fun c => match c with | .sysRestart => true | _ => false) noSyn
    (fun _ _ s => doneThen "SYS RESTART" .restart (orderRestart .command s)) (s.elapse d))

/-- SYS_UPDATE (R492). -/
def execSysUpdate (d : Nat) (fault : Bool) (s : State) : Host.Outcome State Fault Refusal :=
  .next (steward fault (fun c => match c with | .sysUpdate => true | _ => false) noSyn (fun _ _ s => updateVerb s)
    (s.elapse d))

/-- SYS_SLEEP (R417). -/
def execSysSleep (d : Nat) (fault : Bool) (s : State) : Host.Outcome State Fault Refusal :=
  .next (steward fault (fun c => match c with | .sysSleep => true | _ => false) noSyn (fun _ _ s => sleepVerb s)
    (s.elapse d))

/-! ### Calibration images (R359 to R362) -/

def hexOf (bs : List Byte) : String := String.join (bs.map (fun b => String.ofList (hexPad 2 b.toNat)))

/-- R359: line i of an export. -/
def exportLine (bs : List Byte) (i : Nat) : String := dec i ++ "/14 :" ++ hexOf (slice bs (96 * (i - 1)) 96)

/-- CAL EXPORT port (R359). (DEDUCED, notes/assumptions/53.md) -/
def exportVerb (o : ObjArg) (s : State) : Exec := do
  let p ← thePort o
  s.clusterTest .calExport (clusterOf p) (.port p)
  match s.ports[p].table with
  | none => reject 410 (objName (.port p))
  | some x =>
    let bs := calImage p x
    doneLines ("CAL EXPORT " ++ objName (.port p) ++ " CALGEN=" ++ dec x.gen)
      ((List.range 14).map (fun i => exportLine bs (i + 1))) s

/-- R361: the parts of a staging buffer by rising number; a repeated part replaces the earlier copy.
(DEDUCED, notes/assumptions/53.md) -/
def putPart (i : Nat) (bs : List Byte) : List (Nat × List Byte) → List (Nat × List Byte)
  | [] => [(i, bs)]
  | (j, cs) :: r => if i < j then (i, bs) :: (j, cs) :: r else if i = j then (i, bs) :: r else (j, cs) :: putPart i bs r

/-- CAL IMPORT port fraction hex-block (R361, R362): the part that completes the image is tested and swapped in.
(DEDUCED, notes/assumptions/53.md) -/
def importVerb (o : ObjArg) (i n : Nat) (block : List Byte) (s : State) : Exec := do
  let p ← thePort o
  s.clusterTest .calImport (clusterOf p) (.port p)
  if n ≠ 14 || decide (i < 1 ∨ 14 < i) || block.length ≠ 96 then reject 309 "" else
  let head := "CAL IMPORT " ++ objName (.port p) ++ " " ++ dec i ++ "/14 :" ++ hexOf block
  let parts := putPart i block s.ports[p].staging
  let store (ps : List (Nat × List Byte)) (s : State) : State := s.modPort p (fun q => { q with staging := ps })
  if parts.length < 14 then done head (store parts s)
  else match readImage s.ports[p] p (parts.flatMap (fun x => x.2)) s.cycle with
    | some x => done head (swapTable p x (store [] s))
    | none => .ok ⟨"", [], [], none, some 309, store [] s⟩

/-- CAL_EXPORT (R359). -/
def execCalExport (d : Nat) (fault : Bool) (s : State) : Host.Outcome State Fault Refusal :=
  .next (steward fault (fun c => match c with | .calExport _ => true | _ => false) noSyn
    (fun _ c s => match c with | .calExport o => exportVerb o s | _ => reject 511 "") (s.elapse d))

/-- CAL_IMPORT (R361). The line is not executed while its port is in a window (R355). (DEDUCED, notes/assumptions/53.md) -/
def execCalImport (d : Nat) (fault : Bool) (s : State) : Host.Outcome State Fault Refusal :=
  let t := s.elapse d
  let open' (o : ObjArg) : Bool := match o with | .ok (.port p) => (t.windowOf p).isSome | _ => false
  .next (steward fault (fun c => match c with | .calImport o .. => !open' o | _ => false) noSyn
    (fun _ c s => match c with | .calImport o i n bs => importVerb o i n bs s | _ => reject 511 "") t)

/-! ### Belfry's log (R433, R434) -/

/-- R433: the line of an entry. -/
def LogEntry.text (f : TimeFmt) (e : LogEntry) : String :=
  "SEQ=" ++ dec e.seq.toNat ++ " RULE=" ++ dec e.rule.val ++ " SRC=" ++ fmtAtom f (atomOf ruleSrcs e.src) ++ " BTIME=" ++
    dec e.btime ++ " TIME=" ++ (match e.time with | some t => fmtTime f t.toNat | none => "NONE") ++ " VALUE=" ++ decInt e.value

/-- BEL LOG (R95, R433). -/
def logVerb (s : State) : Exec :=
  if s.ring && s.bel.log.any (fun e => e.time.isSome) then reject 402 "" else
  doneLines "BEL LOG" (s.bel.log.map (LogEntry.text s.tb.timeFmt)) s

/-- BEL_LOG (R433). -/
def execBelLog (d : Nat) (fault : Bool) (s : State) : Host.Outcome State Fault Refusal :=
  .next (steward fault (fun c => match c with | .belLog => true | _ => false) noSyn (fun _ _ s => logVerb s) (s.elapse d))

/-- BEL_CLEAR (R434). -/
def execBelClear (d : Nat) (fault : Bool) (s : State) : Host.Outcome State Fault Refusal :=
  .next (steward fault (fun c => match c with | .belClear => true | _ => false) noSyn
    (fun _ _ s => done "BEL CLEAR" (clearLog s)) (s.elapse d))

/-! ### Restarts of the steward (R408 to R412) -/

/-- R407, R408: 1 ms after the OK is ready. -/
def orderTu : Nat := 10000000000

/-- The instant of an ordered action has come. (DEDUCED, notes/assumptions/77.md) -/
def Order.due (o : Order) (s : State) : Bool :=
  o.left || (match o.ready with | some t => tnotBefore s.tb.now (tadd t orderTu) | none => !s.tb.running)

/-- The device runs its image, awake. -/
def State.awake (s : State) : Bool := decide (s.boot.step = .running) && !s.bel.off

/-- STEWARD_RESTART_START (R408, R409): R0 of a restart that a line has arranged. -/
def restartStart (s : State) : State :=
  match s.steward.ordered with
  | some (c, o) =>
    if s.awake && o.due s then
      let s := stewardLeaves c s
      { s with steward := { s.steward with ordered := none } }
    else s
  | none => s

/-- R492: the image that an update has arranged runs from E383 on, if its restart instant has come. -/
def Boot.updated (ordered : Bool) (b : Boot) : Boot :=
  match b.nextImage with
  | some x => if ordered then b else { b with image := x, imageSrc := .update, nextImage := none }
  | none => b

/-- STEWARD_RESTART_END (R89, R410 to R412): E383 asserts, and its line is the first on both links.
(DEDUCED, notes/assumptions/77.md, 78.md) -/
def restartEnd (s : State) : State :=
  if !(s.awake && s.steward.absent) then s
  else
    let waits := match s.steward.ordered with | some (.update, _) => true | _ => false
    let s : State := { s with steward := { s.steward with absent := false }, boot := s.boot.updated waits }
    let s := if s.cal.hold then s else rotaResume s
    if s.tb.running then formEv .hspi evSteward (formEv .con evSteward (raise evSteward Flags.none s))
    else happen evSteward 1 s

/-- STEWARD_WATCHDOG (R408): R0 is at once. -/
def execStewardWatchdog (d : Nat) (s : State) : Host.Outcome State Fault Refusal :=
  let t := s.elapse d
  .next (if t.awake then stewardLeaves .watchdog t else t)

/-- STEWARD_RESTART_START (R409). -/
def execStewardRestartStart (d : Nat) (s : State) : Host.Outcome State Fault Refusal := .next (restartStart (s.elapse d))

/-- STEWARD_RESTART_END (R410). (DESIGN CHOICE, notes/assumptions/5.md) -/
def execStewardRestartEnd (d : Nat) (s : State) : Host.Outcome State Fault Refusal := .next (restartEnd (s.elapse d))

/-! ### Counts that another domain accepts (R48, R88, R89) -/

/-- R48: the count of a source that was held steady has been accepted and is cleared: what has come since is offered next.
(DEDUCED, notes/assumptions/42.md) -/
def nextHandover (src : Nat) (hs : List Handover) : List Handover :=
  hs.filterMap (fun h =>
    if h.src = src then (if h.later = 0 then none else some { h with offered := h.later, later := 0 }) else some h)

/-- R48: the fabric accepts a count; R432: with the rules' firings it stamps the entries of the log. -/
def acceptHandover (src : Fin 384) (n : Nat) (s : State) : State :=
  let s := s.modFabric (fun f => { f with handover := nextHandover src.val f.handover })
  let s := if src = evRule then s.modBel (stampLog s.cycle) else s
  raiseAt src s.cycle n Flags.none s

/-- The steward takes over a source's count for a link, E383 before any other (R89). -/
def acceptEv (k : Link) (src : Fin 384) (s : State) : State :=
  if src ≠ evSteward && (s.link k).heldEv.any (fun e => e.src = evSteward) then s else formEv k src s

/-- R48, R276: the hand-over of one source is accepted. (DEDUCED, notes/assumptions/42.md) -/
def handoverAccept (src : Fin 384) (s : State) : State :=
  match s.fabric.handover.find? (fun h => decide (h.src = src.val)), s.tb.running with
  | some h, true => acceptHandover src h.offered s
  | _, _ => if s.stewardHere then acceptEv .hspi src (acceptEv .con src s) else s

/-- HANDOVER_ACCEPT (R48). -/
def execHandoverAccept (d : Nat) (src : Fin 384) (s : State) : Host.Outcome State Fault Refusal :=
  .next (handoverAccept src (s.elapse d))

end Sys2Proof.Machine
end

