-- ==== Sys2Proof/Machine/BootRows.lean ====
section
/-! DEFINITION. The causes of a start, what a hardware reset clears, the boot ROM, and the start of an image (spec/15 R407;
spec/18 R464 to R486, R556). -/
namespace Sys2Proof.Machine

/-! ### What a start clears (R407, R464, R466, R556) -/

/-- R407: what Belfry keeps through a hardware reset: its P-class properties, the log and its count of cycles. An entry whose
hand-over is not accepted has TIME NONE (R432). (DEDUCED, notes/assumptions/63.md) -/
def Belfry.hardReset (b : Belfry) : Belfry :=
  let rule (n : Fin 16) (r : Rule) : Rule := { r with hits := b.rules[n].hits }
  { Belfry.default with
    rules := updAll Belfry.default.rules rule, log := b.log.map LogEntry.untimed, logSeq := b.logSeq, logMode := b.logMode,
    logLost := b.logLost, btime := b.btime, wakeCount := b.wakeCount, wakeRule := b.wakeRule, slept := b.slept }

/-- R474: the customer key slot is in fuses, which nothing clears. -/
def Boot.start (c : ResetCause) (b : Boot) : Boot :=
  { Boot.default c with keySlot := b.keySlot, keyHash := b.keyHash }

/-- R407: a power-on clears everything but the fuses. The commands that wait are not the device's.
(DEDUCED, notes/assumptions/63.md) -/
def powerOnStart (s : State) : State :=
  { State.reset with boot := s.boot.start .poweron, pending := s.pending }

/-- R407: a hardware reset keeps the P class and, until calibration replaces them, the tables of class K.
(DEDUCED, notes/assumptions/81.md) -/
def hardwareReset (c : ResetCause) (s : State) : State :=
  let keep (p : Fin 64) (q : Port) : Port := { q with table := s.ports[p].table }
  let count := if c = .brownout then s.boot.brownouts + 1 else s.boot.brownouts
  let boot := { s.boot.start c with brownouts := count, resetLow := decide (c = .pin) }
  { State.reset with ports := updAll State.reset.ports keep, bel := s.bel.hardReset, boot := boot, pending := s.pending }

/-- POWERON (R464). -/
def execPoweron (d : Nat) (s : State) : Host.Outcome State Fault Refusal := .next (powerOnStart (s.elapse d))

/-- RESET_PIN (R464, R465): in every power state. (DEDUCED, notes/assumptions/81.md) -/
def execResetPin (d : Nat) (s : State) : Host.Outcome State Fault Refusal := .next (hardwareReset .pin (s.elapse d))

/-- BROWNOUT (R464, R466): outside SLEEP. -/
def execBrownout (d : Nat) (s : State) : Host.Outcome State Fault Refusal :=
  let t := s.elapse d
  .next (if t.bel.off then t else hardwareReset .brownout t)

/-- HARDWARE_RESET_START (R407): the reset that SYS RESET has arranged begins. -/
def execHardwareResetStart (d : Nat) (s : State) : Host.Outcome State Fault Refusal :=
  let t := s.elapse d
  .next (match t.boot.resetOrder with
    | some o => if o.due t then hardwareReset .command t else t
    | none => t)

/-! ### The boot ROM (R468 to R472) -/

/-- R468: the mode that the straps choose. -/
def strapMode (bootsel1 bootsel0 : Bool) : BootMode :=
  if bootsel1 then .download else if bootsel0 then .flashOnly else .flashThenDownload

/-- BOOT_START (R464, R468): the start sequence begins; RESET# is high. (DEDUCED, notes/assumptions/81.md) -/
def bootStart (bootsel1 bootsel0 : Bool) (s : State) : State :=
  match s.boot.step with
  | .held =>
    let m := strapMode bootsel1 bootsel0
    s.modBoot (fun b =>
      { b with mode := m, resetLow := false, step := match m with | .download => .download | _ => .flash false })
  | _ => s

/-- R479, R480, R556: an image starts. A line that no response has been formed to is answered as during a restart.
(DEDUCED, notes/assumptions/72.md) -/
def startImage (src : ImageSrc) (x : Image) (s : State) : State :=
  let rs := s.steward.queue
  let s := s.modBoot (fun b => { b with step := .building, imageSrc := src, image := x, stage := .refwait })
  attn (foldS rs flushReq { s with steward := { s.steward with queue := [] } })

/-- R469 step 2: the SFDP signature. -/
def sfdpSignature : List Byte := [0x53, 0x46, 0x44, 0x50]

/-- A dword of the Basic Flash Parameter Table, counted from 1, at the pointer of the first parameter header; a table too
short for it reads as ones. (PRESUMED, notes/assumptions/94.md) -/
def bfptDword (sfdp : List Byte) (i : Nat) : BitVec 32 :=
  if natAt sfdp 11 1 < i then -1#32 else BitVec.ofNat 32 (natAt sfdp (natAt sfdp 12 3 + 4 * (i - 1)) 4)

/-- R469 step 2: the density in bytes. (PRESUMED, notes/assumptions/94.md) -/
def bfptDensity (sfdp : List Byte) : Nat :=
  let w := bfptDword sfdp 2
  (if w.getLsbD 31 then 2 ^ (w.extractLsb' 0 31).toNat else w.toNat + 1) / 8

/-- R469 step 2: 1-1-4 fast read is supported, and there is no QE bit. (PRESUMED, notes/assumptions/94.md) -/
def bfptQuad (sfdp : List Byte) : Bool :=
  (bfptDword sfdp 1).getLsbD 22 && decide ((bfptDword sfdp 15).extractLsb' 20 3 = 0#3)

/-- R469 steps 2 to 4: how the ROM reads the flash. (PRESUMED, notes/assumptions/94.md) -/
def flashSetup (sfdp : List Byte) : FlashSetup :=
  if sfdp.take 4 ≠ sfdpSignature then ⟨0x03, false, 0, 0, 32, none⟩
  else
    let w := bfptDword sfdp 3
    let density := some (bfptDensity sfdp)
    if bfptQuad sfdp then
      ⟨(w.extractLsb' 24 8).toNat, true, (w.extractLsb' 16 5).toNat, (w.extractLsb' 21 3).toNat, 8, density⟩
    else ⟨0x0B, false, 8, 0, 8, density⟩

/-- R470: the address of slot B, and the density from which it exists; one that is unknown gives none. -/
def slotBAt : Nat := 0x200000
def slotBFrom : Nat := 0x400000
def FlashSetup.hasSlotB (x : FlashSetup) : Bool := match x.density with | some n => decide (slotBFrom ≤ n) | none => false

/-- R469: the ROM reads only the first 16 MiB. -/
def flashMax : Nat := 0x1000000

/-- R469, R470: the bytes of a slot, as far as the ROM reads and the flash reaches. -/
def FlashSetup.slot (x : FlashSetup) (flash : List Byte) (slotB : Bool) : List Byte :=
  let all := flash.take (min flashMax (x.density.getD flashMax))
  if slotB then all.drop slotBAt else if x.hasSlotB then all.take slotBAt else all

/-- FLASH_BOOT_DONE (R469 to R471): a slot has been read and authenticated. -/
def flashDone (x : FlashRead) (s : State) : State :=
  match s.boot.step with
  | .flash slotB =>
    let setup := s.boot.flash.getD (flashSetup x.sfdp)
    let bytes := setup.slot x.flash slotB
    let s := s.modBoot (fun b => { b with flash := some setup })
    match authenticate s.boot.custKey none bytes with
    | .none => startImage (if slotB then .flashb else .flasha) (imageOf bytes) s
    | f =>
      let last := slotB || !setup.hasSlotB
      let next : BootStep :=
        if !last then .flash true else match s.boot.mode with | .flashOnly => .halted | _ => .download
      s.modBoot (fun b => { b with imageFault := f, step := next })
  | _ => s

/-- BOOT_START (R468). -/
def execBootStart (d : Nat) (bootsel1 bootsel0 : Bool) (s : State) : Host.Outcome State Fault Refusal :=
  .next (bootStart bootsel1 bootsel0 (s.elapse d))

/-- FLASH_BOOT_DONE (R470). -/
def execFlashBootDone (d : Nat) (read : FlashRead) (s : State) : Host.Outcome State Fault Refusal :=
  .next (flashDone read (s.elapse d))

/-! ### Download (R472) -/

/-- The boot ROM executes the line at the front, if its verb is one that is wanted. -/
def rom (want : Cmd → Bool) (syn : Cmd → Option SynErr) (run : Cmd → State → Exec) (s : State) : State :=
  if s.boot.step ≠ .download then s
  else match s.steward.queue with
    | [] => s
    | r :: rs => match r.parsed with
      | .bad _ => s
      | .good p =>
        if !want p.cmd then s
        else
          let s := { s with steward := { s.steward with queue := rs } }
          settleQueue (answer r (phases (syn p.cmd) p.tail false (fun _ => run p.cmd s)) s)

def sizeField : FieldTy := .int false 384 1048960 []
def offField : FieldTy := .hex 0 (2 ^ 64 - 1)

/-- LOAD SIZE=n. -/
def loadSizeVerb (v : RawVal) (s : State) : Exec :=
  match readField sizeField v.text.toList with
  | .ok (.val (.one (.int n))) =>
    done ("LOAD SIZE=" ++ decInt n) (s.modBoot (fun b => { b with dl := { b.dl with size := n.toNat, bytes := [] } }))
  | .ok _ => reject 103 ""
  | .error e => reject e.code ""

/-- A byte of the buffer, which is held by rising offset. -/
def putByte (o : Nat) (b : Byte) : List (Nat × Byte) → List (Nat × Byte)
  | [] => [(o, b)]
  | (i, c) :: r => if o < i then (o, b) :: (i, c) :: r else if o = i then (o, b) :: r else (i, c) :: putByte o b r

/-- LOAD offset hex-block. -/
def loadDataVerb (v : RawVal) (bs : List Byte) (s : State) : Exec :=
  match readField offField v.text.toList with
  | .ok (.val (.one (.hex _ o))) =>
    if s.boot.dl.size < o + bs.length then reject 301 ""
    else
      let put (m : List (Nat × Byte)) : List (Nat × Byte) :=
        (bs.zip (List.range bs.length)).foldl (fun m x => putByte (o + x.2) x.1 m) m
      done ("LOAD " ++ fmtAtom .human (.hex 0 o) ++ " N=" ++ dec bs.length)
        (s.modBoot (fun b => { b with dl := { b.dl with bytes := put b.dl.bytes } }))
  | .ok _ => reject 103 ""
  | .error e => reject e.code ""

def ImageFault.text (f : ImageFault) : String := (imageFaults.find? (fun x => decide (x.2 = f))).elim "NONE" (fun x => x.1)

/-- LOAD STATUS. -/
def loadStatusVerb (s : State) : Exec :=
  let x := s.boot.dl
  done ("LOAD STATUS SIZE=" ++ dec x.size ++ " RECEIVED=" ++ dec x.bytes.length ++ " FAULT=" ++ x.fault.text) s

/-- LOAD GO: the buffer is authenticated; a buffer with a byte unwritten fails with LENGTH.
(DEDUCED, notes/assumptions/72.md) -/
def loadGoVerb (s : State) : Exec :=
  let x := s.boot.dl
  let bs := x.bytes.map (fun b => b.2)
  let f := if x.bytes.length < x.size then ImageFault.length else authenticate s.boot.custKey none bs
  if f = .none then done "LOAD GO" (startImage .download (imageOf bs) s)
  else .ok ⟨"", [], [], none, some 509, s.modBoot (fun b => { b with imageFault := f, dl := { b.dl with fault := f } })⟩

/-- LOAD_SIZE (R472). -/
def execLoadSize (d : Nat) (s : State) : Host.Outcome State Fault Refusal :=
  .next (rom (fun c => match c with | .loadSize _ => true | _ => false)
    (fun c => match c with | .loadSize v => fieldSyn sizeField v | _ => none)
    (fun c s => match c with | .loadSize v => loadSizeVerb v s | _ => reject 511 "") (s.elapse d))

/-- LOAD_DATA (R472). -/
def execLoadData (d : Nat) (s : State) : Host.Outcome State Fault Refusal :=
  .next (rom (fun c => match c with | .loadData .. => true | _ => false)
    (fun c => match c with | .loadData v _ => fieldSyn offField v | _ => none)
    (fun c s => match c with | .loadData v bs => loadDataVerb v bs s | _ => reject 511 "") (s.elapse d))

/-- LOAD_STATUS (R472). -/
def execLoadStatus (d : Nat) (s : State) : Host.Outcome State Fault Refusal :=
  .next (rom (fun c => match c with | .loadStatus => true | _ => false) (fun _ => none) (fun _ s => loadStatusVerb s)
    (s.elapse d))

/-- LOAD_GO (R472). -/
def execLoadGo (d : Nat) (s : State) : Host.Outcome State Fault Refusal :=
  .next (rom (fun c => match c with | .loadGo => true | _ => false) (fun _ => none) (fun _ s => loadGoVerb s) (s.elapse d))

/-! ### The store is built (R480, R481) -/

/-- OBJECT_STORE_BUILT (R480, R481): lines are executed, and acquisition begins. -/
def storeBuilt (s : State) : State :=
  match s.boot.step with
  | .building =>
    let s := s.modBoot (fun b => { b with step := .running })
    acquireNext none { s with steward := { s.steward with absent := false } }
  | _ => s

/-- OBJECT_STORE_BUILT (R480). -/
def execObjectStoreBuilt (d : Nat) (s : State) : Host.Outcome State Fault Refusal := .next (storeBuilt (s.elapse d))

end Sys2Proof.Machine
end

