-- ==== Sys2Proof/Machine/ClusterRows.lean ====
section
/-! DEFINITION. The meanings of the happenings of the calibration rota, of the clusters and of the way into the central FIFO
(spec/05 R145, R249; spec/13; spec/15). -/
namespace Sys2Proof.Machine

/-- CAL_WINDOW_OPEN (R341). What the present fabric cycle asserts and triggers comes first (R493).
(DESIGN CHOICE, notes/assumptions/3.md) -/
def execCalWindowOpen (d : Nat) (p : Fin 64) (s : State) : Host.Outcome State Fault Refusal :=
  let s := foldS (portsOf (clusterOf p)) padsFirst (workCycle (s.elapse d))
  .next (if s.windowFirst p then openWindow p s else s)

/-- CAL_WINDOW_CLOSE (R350). -/
def execCalWindowClose (d : Nat) (p : Fin 64) (sample : CalSample) (high : Bool) (s : State) :
    Host.Outcome State Fault Refusal :=
  .next (closeWindow p sample high (s.elapse d))

/-- CAL_PORT_LATE (R343). -/
def execCalPortLate (d : Nat) (p : Fin 64) (s : State) : Host.Outcome State Fault Refusal :=
  .next (portLate p (s.elapse d))

/-- CAL_TABLE_SWAP (R355). -/
def execCalTableSwap (d : Nat) (p : Fin 64) (s : State) : Host.Outcome State Fault Refusal :=
  .next (rotaSwap p (s.elapse d))

/-- DRAIN_COMPLETE (R390). -/
def execDrainComplete (d : Nat) (k : Fin 8) (s : State) : Host.Outcome State Fault Refusal :=
  .next (drainComplete k (s.elapse d))

/-- CLUSTER_POWERUP_DONE (R387). (DESIGN CHOICE, notes/assumptions/5.md, 6.md) -/
def execClusterPowerupDone (d : Nat) (k : Fin 8) (bankMv : Nat) (s : State) : Host.Outcome State Fault Refusal :=
  .next (powerupDone k bankMv (s.elapse d))

/-- CLUSTER_CALIBRATE_DONE (R356). -/
def execClusterCalibrateDone (d : Nat) (k : Fin 8) (samples : List CalSample) (s : State) :
    Host.Outcome State Fault Refusal :=
  .next (calibrateDone k samples (s.elapse d))

/-- CLUSTER_ALIGN_DONE (R398). -/
def execClusterAlignDone (d : Nat) (k : Fin 8) (verified : Bool) (s : State) : Host.Outcome State Fault Refusal :=
  .next (alignDone k verified (s.elapse d))

/-- CLUSTER_JOIN (R401). -/
def execClusterJoin (d : Nat) (k : Fin 8) (s : State) : Host.Outcome State Fault Refusal :=
  .next (enterActive k (s.elapse d))

/-- CLUSTER_FAULT (R405). -/
def execClusterFault (d : Nat) (k : Fin 8) (cause : FaultCause) (bankMv : Nat) (s : State) :
    Host.Outcome State Fault Refusal :=
  .next (clusterFault k cause bankMv (s.elapse d))

/-- RECORD_TO_FIFO (R249). -/
def execRecordToFifo (d : Nat) (k : Fin 8) (s : State) : Host.Outcome State Fault Refusal :=
  .next (moveRecord k (s.elapse d))

end Sys2Proof.Machine
end

