-- ==== Sys2Proof/Machine/PatternRows.lean ====
section
/-! DEFINITION. The meanings of the happenings in the pattern groups and the generators (spec/11, spec/12). -/
namespace Sys2Proof.Machine

/-- R319: the fetch finds blocks (segment, index) with an error that ECC cannot correct; a block stays so until it is
written. (DEDUCED, notes/assumptions/44.md) -/
def markBad (bad : List (Nat × Nat)) (s : State) : State :=
  let block (id : Nat) (b : Block) : Block := if bad.contains (id, b.idx) then { b with bad := true } else b
  let seg (x : Segment) : Segment := { x with written := x.written.map (block x.id.val) }
  { s with store := { s.store with segs := s.store.segs.map seg } }

/-- SPIRE_PREFETCH (R296). (DESIGN CHOICE, notes/assumptions/82.md) -/
def execSpirePrefetch (d : Nat) (g : Fin 8) (bad : List (Nat × Nat)) (s : State) : Host.Outcome State Fault Refusal :=
  let s := markBad bad (s.elapse d)
  .next (s.modGroup g (prefetch s.store))

/-- SPIRE_BOUNDARY (R309). (DESIGN CHOICE, notes/assumptions/3.md) -/
def execSpireBoundary (d : Nat) (g : Fin 8) (s : State) : Host.Outcome State Fault Refusal :=
  .next (boundary g (s.elapse d))

/-- SPIRE_CHECKFAIL (R319). -/
def execSpireCheckfail (d : Nat) (g : Fin 8) (s : State) : Host.Outcome State Fault Refusal :=
  .next (checkFail g (s.elapse d))

/-- WAIT_TIMEOUT (R312). -/
def execWaitTimeout (d : Nat) (g : Fin 8) (s : State) : Host.Outcome State Fault Refusal :=
  .next (waitTimeout g (s.elapse d))

/-- AG_WORD (R322). -/
def execAgWord (d : Nat) (n : Fin 8) (s : State) : Host.Outcome State Fault Refusal :=
  .next (agWordStep n (s.elapse d))

/-- AG_SAMPLE (R333). -/
def execAgSample (d : Nat) (n : Fin 8) (s : State) : Host.Outcome State Fault Refusal :=
  .next (agSampleStep n (s.elapse d))

end Sys2Proof.Machine
end

