-- ==== Sys2Proof/Machine/PortRows.lean ====
section
/-! DEFINITION. The meanings of the happenings at ports, trigger inputs and measurement frames (spec/08, spec/09). Each lets the
time before it pass, and then has its effect where its condition holds (notes/assumptions/1.md). -/
namespace Sys2Proof.Machine

/-- EDGE_COMMIT (R194, R223, R314, R400). -/
def execEdgeCommit (d : Nat) (what : CommitOf) (s : State) : Host.Outcome State Fault Refusal :=
  let s := s.elapse d
  .next (match what with
    | .port p => commitPort p s.cycle s
    | .join k => commitJoin k s
    | .align g => commitAlign g s)

/-- PULSE_LEADING_EDGE (R225). (DESIGN CHOICE, notes/assumptions/3.md) -/
def execPulseLeadingEdge (d : Nat) (p : Fin 64) (s : State) : Host.Outcome State Fault Refusal :=
  let s := s.elapse d
  .next (match leadingDue s p with | some x => leaveLeading p x s | none => s)

/-- PULSE_TRAILING_EDGE (R220). -/
def execPulseTrailingEdge (d : Nat) (p : Fin 64) (s : State) : Host.Outcome State Fault Refusal :=
  let s := s.elapse d
  .next (match trailingDue s p with | some x => leaveTrailing p x s | none => s)

/-- PAD_TRIGGER (R217): the pad trigger at the front of a port, once its flags are known: 2 ns after its instant (R216,
R255). (DEDUCED, notes/assumptions/28.md) -/
def execPadTrigger (d : Nat) (p : Fin 64) (s : State) : Host.Outcome State Fault Refusal :=
  let s := s.elapse d
  .next (match s.ports[p].pads with
    | t :: _ => if tnotBefore s.tb.now (tadd t.instant lookBackTu) then decidePad p s else s
    | [] => s)

/-- INPUT_EDGE_CONVERT (R244). (DESIGN CHOICE, notes/assumptions/6.md) -/
def execInputEdgeConvert (d : Nat) (p : Fin 64) (falling : Bool) (stop : TimeWord) (code : EdgeCode) (s : State) :
    Host.Outcome State Fault Refusal :=
  .next (convert p falling stop code.code code.uv (s.elapse d))

/-- STAMP_FORMAT (R247). -/
def execStampFormat (d : Nat) (p : Fin 64) (s : State) : Host.Outcome State Fault Refusal :=
  .next (format p (s.elapse d))

/-- R358: the last completed pair of a port with CAL=PAIR. -/
def pairDone (p : Fin 64) (q : Nat) (s : State) : State :=
  let c := s.ports[p].cfg
  if c.pair && stampModes c.mode && s.portActive p && (s.windowOf p).isNone && decide (0 < q) then
    s.modPort p (fun x => { x with q := q })
  else s

/-- PAIR_MEASUREMENT (R358). -/
def execPairMeasurement (d : Nat) (p : Fin 64) (q : Nat) (s : State) : Host.Outcome State Fault Refusal :=
  .next (pairDone p q (s.elapse d))

/-- OVERRANGE_ASSERT (R257). -/
def execOverrangeAssert (d : Nat) (p : Fin 64) (a : TimeWord) (s : State) : Host.Outcome State Fault Refusal :=
  .next (overrangeOn p a (s.elapse d))

/-- OVERRANGE_DEASSERT (R255). -/
def execOverrangeDeassert (d : Nat) (p : Fin 64) (z : TimeWord) (s : State) : Host.Outcome State Fault Refusal :=
  .next (overrangeOff p z (s.elapse d))

/-- TRG_EDGE (R278). -/
def execTrgEdge (d : Nat) (n : Fin 8) (falling : Bool) (t : TimeWord) (s : State) : Host.Outcome State Fault Refusal :=
  .next (trgEdge n falling t (s.elapse d))

/-- TONE_CHANGE_TICK (R233). -/
def execToneChangeTick (d : Nat) (p : Fin 64) (s : State) : Host.Outcome State Fault Refusal :=
  .next (toneTick p (s.elapse d))

/-- MF_RUN_CLOSE (R265). (DESIGN CHOICE, notes/assumptions/3.md) -/
def execMfRunClose (d : Nat) (m : Fin 16) (s : State) : Host.Outcome State Fault Refusal :=
  let s := s.elapse d
  .next (if mfCloseDue s m then mfClose m s else s)

end Sys2Proof.Machine
end

