-- ==== Sys2Proof/Machine/Writes.lean ====
section
/-! DEFINITION. SET: the tests of its assignments, one by one and against the values that the whole line would leave, what a
write sets off in its block, and the response (spec/03 R62, R72, R78, R95; spec/15 R394; the write rules of spec/05 to
spec/18). -/
namespace Sys2Proof.Machine

/-- An assignment whose value has been read: its object, its property, its path and the value. -/
structure Write where
  obj : Obj
  prop : PropSpec
  path : String
  value : Value

/-! ### What a line as a whole may not leave (R72) -/

/-- R237, R238: the bank's supply admits its standard, or is not known. -/
def bankFits (c : Cluster) : Bool := decide (c.vddio = .none) || admits c.iostd c.vddio

def Port.busy (q : Port) : Bool := !q.queue.isEmpty || q.toneArmed

/-- R218, R253: a port named as a source is in a mode. -/
def State.modeOf (s : State) (p : Fin 64) : PortMode := s.ports[p].cfg.mode

def inputMode (m : PortMode) : Bool := match m with | .stamp | .gate => true | _ => false

/-- R220, R224: a queued pulse that takes its instant from an edge of an INCREMENT axis. -/
def ofCount (s : State) (x : Pulse) : Bool :=
  match x.axisFrame with | some (a, _, _) => decide (s.axes[a].cfg.mode = .increment) | none => false

/-- R240. -/
def threshFits (s : State) (p : Fin 64) : Bool :=
  match s.ports[p].cfg.thresh with
  | none => true
  | some v => let r := threshRange (s.clusterOfPort p).iostd; inRange r.1 r.2 v

/-- R232, R205, R221: a staged target is far enough ahead; else the code, with the object of a 302 (R79). -/
def toneTest (s : State) (p : Fin 64) : Option (Nat × String) :=
  let target : Option Target := match s.ports[p].cfg.toneAt with
    | .none => none
    | .time w => some (.word w)
    | .pos a n o _ => some (.pos a n o)
  match target with
  | none => none
  | some t =>
    match insertionTest s p t, timeTest s s.recvNow false t with
    | .error e, _ => some e
    | .ok _, .error e => some e
    | .ok _, .ok _ => none

/-- The first code whose condition holds. -/
def firstCode : List (Bool × Nat) → Option Nat
  | [] => none
  | (b, c) :: r => if b then some c else firstCode r

/-- The tests of a write of a port property. s: before the line; t: as the line would leave it. A port that is an input of a
generator stays in GATE mode (R325), but for PATTERN, which R212 alone decides (R299). (DEDUCED, notes/assumptions/74.md) -/
def portConflict (s t : State) (p : Fin 64) (name : String) : Option Nat :=
  let q := s.ports[p]
  let c := t.ports[p].cfg
  let short := decide (c.delay < insertionTu)
  if name == "MODE" then
    let swap := isPulseMode q.cfg.mode && isPulseMode c.mode && decide (q.cfg.mode ≠ c.mode)
    firstCode [(q.busy && !swap, 408),
      (decide (q.cfg.mode = .pattern) && decide (c.mode ≠ .pattern) && (t.laneOf p).isSome, 304),
      (decide (c.mode = .echo) && decide (c.width < 16000), 304),
      (decide (c.mode ≠ .gate) && decide (c.mode ≠ .pattern) &&
        t.ags.toList.any (fun x => decide (x.cfg.role ≠ .off) && x.cfg.inputs.contains p), 304)]
  else if name == "POLARITY" then firstCode [(q.cfg.output && q.busy, 408)]
  else if name == "AXIS" then firstCode [(q.queue.any (fun x => x.axisFrame.isSome), 408)]
  else if name == "OUTPUT" then
    firstCode [(c.output && (inputMode c.mode || !bankFits (t.clusterOfPort p)), 304)]
  else if name == "SWING" || name == "DRIVE" then firstCode [(q.cfg.output, 408)]
  else if name == "TRIGSRC" then
    firstCode [(match c.trigSrc with | some (.port r) => decide (r = p) || !inputMode (t.modeOf r) | _ => false, 304),
      (c.trigSrc.isSome && short, 302)]
  else if name == "DELAY" then
    firstCode [(c.trigSrc.isSome && short, 302), (short && q.queue.any (ofCount s), 302)]
  else if name == "WIDTH" then firstCode [(decide (c.mode = .echo) && decide (c.width < 16000), 304)]
  else if name == "GATESRC" then
    firstCode [(match c.gateSrc with | some r => decide (r = p) || decide (t.modeOf r ≠ .gate) | none => false, 304)]
  else if name == "THRESH" then firstCode [(!threshFits t p, 301)]
  else if name == "TONEAT" then (toneTest t p).map Prod.fst
  else none

/-- R187: what a write of MODE, SOURCE, PERIOD, COUNTSRC or RUNAHEAD may not leave. -/
def axisUnsound (t : State) (a : Fin 4) : Bool :=
  let c := t.axes[a].cfg
  (match c.source with | .port p => !inputMode (t.modeOf p) | _ => false) ||
    (decide (c.mode = .increment) && c.countSrc.isNone) || (!c.runAhead && decide (c.source = .mark)) ||
    (c.quietAt.zip c.quietLen).any (fun x => decide (c.period < x.1 + x.2))

/-- R205: the axis holds a pending edge at an offset that its triggered path cannot reach.
(DEDUCED, notes/assumptions/75.md) -/
def holdsShort (s : State) (a : Fin 4) : Bool :=
  let near (b : Fin 4) (o : Nat) : Bool := decide (b = a) && decide (o < insertionTu)
  s.ports.toList.any (fun q =>
    q.queue.any (fun x => !x.high && (match x.axisFrame with | some (b, _, o) => near b o | none => false)) ||
      (match q.cfg.toneAt with | .pos b _ o _ => near b o | _ => false)) ||
    s.clusters.toList.any (fun c => match c.fix with | some (.axis b _ o _ _ _) => near b o | _ => false) ||
    s.groups.toList.any (fun g => match g.waiting with | some (.align b o _ _ _) => near b o | _ => false)

def axisConflict (s t : State) (a : Fin 4) (name : String) : Option Nat :=
  let c := t.axes[a].cfg
  let v := c.vals
  let order := decide (v.tsettle ≤ v.tretract ∧ v.tretract ≤ v.catchTu ∧ 4 * v.catchTu ≤ c.period)
  let quiet := decide (c.quietAt.length = c.quietLen.length) &&
    (c.quietAt.zip c.quietLen).all (fun x => decide (x.1 + x.2 ≤ c.period))
  firstCode [
    (["MODE", "SOURCE", "PERIOD", "COUNTSRC", "RUNAHEAD"].contains name && axisUnsound t a, 304),
    (name == "RUNAHEAD" && !c.runAhead && decide (c.mode ≠ .increment) && holdsShort s a, 304),
    (["TSETTLE", "TRETRACT", "CATCH", "PERIOD"].contains name && !order, 304),
    (["QUIETAT", "QUIETLEN"].contains name && !quiet, 304)]

def clusterConflict (s t : State) (k : Fin 8) (name : String) : Option Nat :=
  if name == "IOSTD" then firstCode [(anyOutput k s, 408), (!bankFits t.clusters[k], 304)] else none

/-- Blocks on the properties of a reference (R155 for the active one). (DEDUCED, notes/assumptions/24.md) -/
def refxConflict (s t : State) (x : Fin 4) (name : String) : Option Nat :=
  let r := s.tb.refs[x]
  let u := t.tb.refs[x]
  let isActive := decide (s.tb.active = some x)
  if name == "FREQ" then firstCode [(isActive && decide (r.freq ≠ u.freq), 408)]
  else if name == "INPUT" then firstCode [(isActive && decide (r.input ≠ u.input), 408)]
  else if name == "COMPARE" then firstCode [(decide (u.compare = .ref x), 304)]
  else if ["WARN", "FAIL", "HYST"].contains name then firstCode [(decide (u.fail ≤ u.warn) || decide (u.warn ≤ u.hyst), 304)]
  else none

/-- The reference that a value of REF.ACTIVE names. -/
def valueRef : Value → Option (Fin 4) | .one (.obj (.refx x)) => some x | _ => none

/-- Blocks on the properties of `REF`, of which only ACTIVE has any. (DEDUCED, notes/assumptions/23.md) -/
def refConflict (s t : State) (name : String) (v : Value) : Option Nat :=
  if name == "ACTIVE" then
    firstCode [(t.tb.auto, 406),
      (match valueRef v with | some x => !(s.tb.refs[x].present && decide (t.tb.refs[x].role = .candidate)) | none => true, 304)]
  else none

/-- R258, R259. (DEDUCED, notes/assumptions/27.md) -/
def mfConflict (s t : State) (m : Fin 16) (name : String) : Option Nat :=
  let c := t.mfs[m].cfg
  let port (p : Fin 64) : Bool := stampModes (t.modeOf p)
  let ready := (match c.startPort with | some p => port p | none => false) && !c.stops.isEmpty && c.stops.all port &&
    (match c.armSrc with | .port p => decide (t.modeOf p = .gate) | _ => true)
  if name == "ENABLE" then firstCode [(c.enable && !ready, 304)]
  else firstCode [(s.mfs[m].cfg.enable && !(["RECORDS", "STATS", "STATFILTER"].contains name), 408)]

def taskConflict (t : State) (name : String) : Option Nat :=
  if name == "SUBS" || name == "CLASS" then firstCode [(decide (1024 < t.routes) || decide (64 < t.uRoutes), 502)] else none

/-- R325: two generators map the same lane of one group. -/
def lanesClash (t : State) (n : Fin 8) : Bool :=
  let c := t.ags[n].cfg
  let lanes (x : AgCfg) : List Nat := (List.range x.map.length).filter (fun i => decide (x.map[i]? ≠ some MapItem.x))
  let width := match c.group with | some g => t.groups[g].cfg.lanes.length | none => 0
  (List.finRange 8).any (fun m =>
    let d := t.ags[m].cfg
    m ≠ n && decide (d.role = .gen) && decide (d.group = c.group) &&
      (lanes c).any (fun i => decide (i < width) && (lanes d).contains i))

/-- R299, R320, R325. -/
def groupConflict (s t : State) (g : Fin 8) (name : String) : Option Nat :=
  let c := t.groups[g].cfg
  let taken (p : Fin 64) : Bool := (List.finRange 8).any (fun h => h ≠ g && t.groups[h].cfg.lanes.contains p)
  if name == "LANES" then
    firstCode [(s.groups[g].live, 408), (c.lanes.any (fun p => decide (t.modeOf p ≠ .pattern) || taken p), 304),
      ((List.finRange 8).any (fun n => decide (t.ags[n].cfg.role = .gen) && decide (t.ags[n].cfg.group = some g) && lanesClash t n), 304)]
  else if name == "IDLESEG" then
    firstCode [(s.groups[g].live, 408), (match c.idleSeg with | some n => (t.store.find n).isNone | none => false, 210)]
  else none

/-- R325: what a generator whose ROLE is not OFF may not hold. -/
def agUnsound (t : State) (n : Fin 8) : Bool :=
  let c := t.ags[n].cfg
  let gen := decide (c.role = .gen)
  let check := decide (c.role = .check)
  let march := decide (c.func = .march)
  let bad := c.group.isNone ||
    (gen && c.map.isEmpty) ||
    (gen && c.map.any (fun i => match i with
      | .a k => decide (c.aWidth ≤ k.val) || !march
      | .d k => decide (c.dWidth ≤ k.val)
      | .we | .re => !march
      | .x => false)) ||
    (gen && lanesClash t n) ||
    (gen && !c.inputs.isEmpty && !march) ||
    (check && (c.inputs.isEmpty || march || decide (c.gate ≠ .always))) ||
    (!c.inputs.isEmpty && (check || march) && decide (c.inputs.length ≠ c.dWidth)) ||
    c.inputs.any (fun p => decide (t.modeOf p ≠ .gate)) ||
    (!c.inputs.isEmpty && decide (c.rate < 10)) ||
    (match prbsOf c.func with | some (w, _, _) => decide (c.seed.toNat % 2 ^ w = 0) | none => false) ||
    (check && decide (c.lossWin < c.lossErr))
  decide (c.role ≠ .off) && bad

/-- R321, R325, R330, R331, R335. The group named is RUNNING or WAITING: the one before the line, or the one it would name.
-/
def agConflict (s t : State) (n : Fin 8) (name : String) : Option Nat :=
  let c := t.ags[n].cfg
  let live (x : Option (Fin 8)) : Bool := match x with | some g => s.groups[g].live | none => false
  let strobes := decide (c.strobeOff ≤ c.strobeOn) || decide (c.rate < c.strobeOff)
  firstCode [(live s.ags[n].cfg.group || live c.group, 408), (agUnsound t n, 304),
    (name == "COLBITS" && decide (c.aWidth < c.colBits), 304), (decide (c.func = .march) && strobes, 304),
    (decide (256 * c.rate * tickTu ≤ c.sampleAt), 304)]

/-- R426, R427. -/
def ruleUnsound (r : Rule) : Bool :=
  let level := match r.src with | .wake _ | .refa => true | _ => false
  let takes := match r.sense with | .high | .low => level | .above | .below => !level
  (decide (r.src ≠ .none) && !takes) ||
    (decide (r.max < r.min) && (match r.filter with | .period | .rate => true | _ => false))

/-- The rule that a property of Belfry belongs to. -/
def ruleOf (name : String) : Option (Fin 16) :=
  (List.finRange 16).find? (fun n => ("RULE" ++ dec n.val ++ ".").toList.isPrefixOf name.toList)

/-- R435: what the kept axis may not be. -/
def keptUnsound (t : State) : Bool :=
  match t.bel.axis with
  | none => false
  | some a =>
    let c := t.axes[a].cfg
    decide (c.mode ≠ .frame) || (match c.source with | .port _ | .mark => true | _ => false) ||
      decide (c.period < 200000000 ∨ 10000000000000 < c.period)

def belConflict (t : State) (name : String) : Option Nat :=
  if name == "AXIS" || name == "AXISWAKE" then firstCode [(keptUnsound t, 304)]
  else match ruleOf name with
    | some n => firstCode [(ruleUnsound t.bel.rules[n], 304)]
    | none => none

/-- R127, R147. (DEDUCED, notes/assumptions/24.md, 27.md) -/
def spConflict (s t : State) (name : String) : Option Nat :=
  let p := s.sp
  let q := t.sp
  let changed := (name == "RATE" && decide (p.rate ≠ q.rate)) || (name == "TXLANES" && decide (p.txLanes ≠ q.txLanes)) ||
    (name == "RXLANES" && decide (p.rxLanes ≠ q.rxLanes))
  firstCode [(p.enable && changed, 408),
    ((name == "UPORTS" || name == "TXLANES") && !q.uports.isEmpty && decide (q.txLanes = 1), 304)]

def sysConflict (s t : State) (name : String) (v : Value) : Option Nat :=
  if name == "SYNCPERIOD" then
    firstCode [(match v with | .one (.time x) => decide (x % 100000000 ≠ 0) | _ => false, 301), (decide (s.sync.role ≠ .none), 408)]
  else if name == "KEYPROG" then t.boot.keyTest
  else none

/-- The code that the block of an object gives a write, tested against the values the whole line would leave.
(DEDUCED, notes/assumptions/27.md, 64.md) -/
def conflictOf (s t : State) (w : Write) : Option Nat :=
  match w.obj with
  | .port p => portConflict s t p w.prop.name
  | .ax a => axisConflict s t a w.prop.name
  | .cl k => clusterConflict s t k w.prop.name
  | .refx x => refxConflict s t x w.prop.name
  | .ref => refConflict s t w.prop.name w.value
  | .mf m => mfConflict s t m w.prop.name
  | .tk _ => taskConflict t w.prop.name
  | .grp g => groupConflict s t g w.prop.name
  | .ag n => agConflict s t n w.prop.name
  | .bel => belConflict t w.prop.name
  | .sp => spConflict s t w.prop.name
  | .sys => sysConflict s t w.prop.name w.value
  | _ => none

/-- R79: the detail of the code that a write gives: its path; for BELOW-INSERTION, the delay or the axis at fault (R205,
R215, R224). -/
def conflictDetail (t : State) (w : Write) (code : Nat) : String :=
  match w.obj with
  | .port p =>
    if code ≠ 302 then w.path
    else if w.prop.name == "TONEAT" then (match toneTest t p with | some e => e.2 | none => w.path)
    else objName (.port p) ++ ".DELAY"
  | _ => w.path

/-! ### What a write sets off -/

/-- R261: MFm.ENABLE=ON makes a frame IDLE, or ARMED; OFF discards its run (R269). -/
def setFrame (m : Fin 16) (on : Bool) (s : State) : State :=
  if s.mfs[m].cfg.enable = on then s
  else
    let s := (mfAbort m s).modMf m (fun f => { f with cfg := { f.cfg with enable := on } })
    if !on then s
    else if s.mfs[m].cfg.armSrc = .always then mfArmed m s.cycle false s
    else mfFollow m s.cycle s

/-- R273: the statistics of a frame are cleared. -/
def clearStats (m : Fin 16) (s : State) : State := s.modMf m (fun f => { f with stats := [], early := 0 })

/-- R285: a task has new routes. old: its routes before. (DEDUCED, notes/assumptions/39.md) -/
def routesChanged (t : Fin 320) (old : Task) (s : State) : State :=
  let k := s.tasks[t]
  let place (src : Nat) : Option Nat := k.subs.idxOf? src
  let transit (d : Delivery) : Option Delivery :=
    if d.task ≠ t then some d
    else if old.isU ≠ k.isU then none
    else (place d.src).map (fun i => { d with sub := i })
  let made (d : Assertion) : Option Assertion :=
    match d.sub with
    | some i =>
      if d.task ≠ t then some d
      else if old.isU ≠ k.isU then none
      else match old.subs[i]? with
        | some src => (place src).map (fun j => { d with sub := some j })
        | none => none
    | none => some d
  let held (d : HeldDelivery) : Option HeldDelivery :=
    if d.task ≠ t then some d
    else match old.subs[d.sub]? with
      | some src => (place src).map (fun i => { d with sub := i })
      | none => none
  let fresh := k.subs.filter (fun n => !old.subs.contains n)
  let news := fresh.filterMap (fun n =>
    let os := s.fabric.recent.filter (fun r => decide (r.1 = n ∧ r.2.1 = s.cycle))
    if os.isEmpty then none
    else some { src := n, task := t, sub := (place n).getD 0, isU := k.isU, cycle := s.cycle, left := routeCycles,
                flags := os.foldl (fun f r => f.union r.2.2) Flags.none : Delivery })
  let s := s.modFabric (fun f =>
    { f with transit := f.transit.filterMap transit ++ news, held := f.held.filterMap held, asserted := f.asserted.filterMap made })
  s.modTask t (fun k => { k with drops := Vector.replicate 4 0 })

/-- R289: MFm.CONFONLY=OFF: every delivery that the task holds is discarded and counted.
(DEDUCED, notes/assumptions/40.md) -/
def confOff (t : Fin 320) (s : State) : State :=
  let mine := s.fabric.held.filter (fun d => decide (d.task = t))
  foldS mine (fun d s => dropDelivery t d.sub s)
    (s.modFabric (fun f => { f with held := f.held.filter (fun d => decide (d.task ≠ t)) }))

/-- R242: the comparator of a port still settles from the values of an earlier state. -/
def settleFrom (old : State) (p : Fin 64) (s : State) : State :=
  if old.threshInForce p = s.threshInForce p && decide (old.ports[p].cfg.hyst = s.ports[p].cfg.hyst) then s
  else s.modPort p (fun q => { q with settling := some ⟨old.threshInForce p, old.ports[p].cfg.hyst, s.tb.now⟩ })

/-- What a port holds for its mode, in a new mode (R212, R235, R301, R334). -/
def Port.newMode (t : TimeWord) (active : Bool) (old : PortMode) (q : Port) : Port :=
  { q with level := [], laneFrom := t, tone := if old = .tone then Tone.default else q.tone,
           emitted := if isPulseMode q.cfg.mode then q.emitted else [],
           blind := if decide (q.cfg.mode = .gate) && active then closeBlind t q.blind else openBlind t q.blind }

/-- R231: a port that enters TONE mode armed starts its tone; one that leaves it has none.
(DEDUCED, notes/assumptions/32.md) -/
def modeChanged (p : Fin 64) (old : PortMode) (s : State) : State :=
  if s.ports[p].cfg.mode = old then s
  else
    let s := mfFollowAll s.cycle (s.modPort p (Port.newMode s.cycle (s.portActive p && (s.windowOf p).isNone) old))
    if s.ports[p].toneArmed then startTone p s else s

/-- R242, R231: a port after a line that wrote some of its properties. old: the state before the line. -/
def portWritten (p : Fin 64) (old : State) (s : State) : State := modeChanged p old.ports[p].cfg.mode (settleFrom old p s)

/-- R240: a write of CLk.IOSTD returns the thresholds to AUTO. -/
def thresholdsAuto (k : Fin 8) (s : State) : State :=
  foldS (portsOf k) (fun p s => s.modPort p (fun q => { q with cfg := { q.cfg with thresh := none } })) s

/-- R342: CAL.PERIOD takes a value: a due time later than a period from now comes nearer. -/
def setPeriod (period : Nat) (s : State) : State :=
  let last := tadd s.cycle period
  let s := s.modCal (fun c => { c with period := period })
  { s with ports := updAll s.ports (fun _ q => if tlater q.due last then { q with due := last } else q) }

/-- The number, the word, the flag of a value. -/
def valueNat : Value → Nat | .one (.int i) => i.toNat | .one (.time t) => t.toNat | _ => 0

/-- How a write is applied: where its block does more than hold the value, by what the block does. -/
def applyWrite (w : Write) (s : State) : State :=
  let n := w.prop.name
  let on := decide (w.value = .kw "ON")
  match w.obj with
  | .port p => if n == "FTW" then changeFtw p (valueNat w.value) s.nextCycle s else w.prop.put w.value s
  | .cl k => if n == "IOSTD" then thresholdsAuto k (w.prop.put w.value s) else w.prop.put w.value s
  | .ref =>
    if n == "ACTIVE" then (match valueRef w.value with | some x => selectActive x s | none => s) else w.prop.put w.value s
  | .mf m => if n == "ENABLE" then setFrame m on s else w.prop.put w.value s
  | .sp => if n == "ENABLE" then setEnable on s else w.prop.put w.value s
  | .cal =>
    if n == "HOLD" then setHold on s
    else if n == "PERIOD" then setPeriod (valueNat w.value) s
    else w.prop.put w.value s
  | .sys =>
    if n == "SYNCROLE" then
      setRole (if w.value = .kw "LEADER" then .leader else if w.value = .kw "FOLLOWER" then .follower else .none) s
    else if n == "SYNCDELAY" then setDelay (valueNat w.value) s
    else w.prop.put w.value s
  | .con | .hspi => if n == "MODE" then s else w.prop.put w.value s
  | _ => w.prop.put w.value s

/-- The properties whose write restarts an axis (R187). -/
def restartNames : List String := ["MODE", "SOURCE", "EDGE", "PERIOD", "ORIGIN", "COUNTSRC", "COUNTS"]

/-- R198: the catch window of the awaited frame has opened. -/
def Axis.windowOpen (x : Axis) (now : TimeWord) : Bool :=
  match x.cfg.mode, x.state, x.anchor with
  | .frame, .confirmed, some an | .frame, .reacquire, some an =>
    tnotBefore now (tadd (predictFrom an x.period (an.n + 1)) (-(x.inForce.catchTu : Int)))
  | _, _, _ => false

/-- R187, R198, R204, R555: an axis after a line that wrote some of its properties. old: before the line. -/
def axisWritten (a : Fin 4) (old : AxisCfg) (names : List String) (s : State) : State :=
  let now := s.axes[a].cfg.runAhead
  let s := s.modAxis a (fun x => if x.windowOpen s.tb.now then x else { x with inForce := x.cfg.vals })
  if names.any restartNames.contains then restartAxis a s
  else if old.runAhead && !now then unbindAll a s
  else if !old.runAhead && now then runAheadOn a s
  else s

/-- What a line that wrote some properties of an object sets off once every value is stored. old: the state before the
line. -/
def objectWritten (old : State) (o : Obj) (names : List String) (s : State) : State :=
  match o with
  | .ax a => axisWritten a old.axes[a].cfg names s
  | .port p => portWritten p old s
  | .cl k => foldS (portsOf k) (settleFrom old) s
  | .mf m =>
    if names.any ["STARTPORT", "STARTEDGE", "STOPS", "STOPEDGE", "STOPMAX"].contains then clearStats m s else s
  | .tk t =>
    let s := if names.any ["SUBS", "CLASS"].contains then routesChanged t old.tasks[t] s else s
    if old.tasks[t].confOnly && !s.tasks[t].confOnly then confOff t s else s
  | .refx x =>
    let s := if old.tb.refs[x].freq ≠ s.tb.refs[x].freq || old.tb.refs[x].input ≠ s.tb.refs[x].input then inputChanged x s else s
    let s := if old.tb.refs[x].role ≠ s.tb.refs[x].role then roleChanged x s else s
    selectionChanged s
  | .ref => selectionChanged s
  | .bel => foldS ((names.filterMap ruleOf).eraseDups) (fun n s => s.modBel (fun b => { b with
      rules := upd b.rules n Rule.restart })) s
  | _ => s

/-- R273, R430: a keyword that only a write takes. -/
def statsCleared (ws : List Write) (s : State) : State :=
  foldS ws (fun w s => match w.obj with
    | .mf m => if w.prop.name == "STATS" && decide (w.value = .kw "CLEAR") then clearStats m s else s
    | _ => s) s

/-- The objects that a line writes, in order. -/
def objectsOf (ws : List Write) : List Obj := (ws.map Write.obj).eraseDups

/-- R240: standards are stored before thresholds. -/
def standardsFirst (ws : List Write) : List Write :=
  ws.filter (fun w => w.prop.name == "IOSTD") ++ ws.filter (fun w => w.prop.name != "IOSTD")

/-- The values as the whole line would leave them. -/
def trialState (ws : List Write) (s : State) : State :=
  (standardsFirst ws).foldl (fun t w =>
    let t := w.prop.put w.value t
    match w.obj with | .cl k => if w.prop.name == "IOSTD" then thresholdsAuto k t else t | _ => t) s

/-- R72: the assignments are applied. -/
def applyAll (ws : List Write) (s : State) : State :=
  let t := foldS (standardsFirst ws) applyWrite s
  let t := statsCleared ws t
  foldS (objectsOf ws) (fun o t =>
    objectWritten s o ((ws.filter (fun w => decide (w.obj = o))).map (fun w => w.prop.name)) t) t

/-! ### Reading the assignments -/

/-- The field of the property that an assignment names, if it names one. -/
def assignField (a : Assign) : Option FieldTy :=
  match a.path.obj with
  | .ok o => (propOf o a.path.prop).map PropSpec.ty
  | .bad _ => none

/-- The axis on which a position of an object is read. -/
def axisOfObj (s : State) : ObjArg → Option (Fin 4)
  | .ok (.port p) => s.ports[p].cfg.axis
  | _ => none

/-- R64, R93, R552: the syntax code of an assignment's value. (DEDUCED, notes/assumptions/74.md) -/
def assignSyn (s : State) (a : Assign) : Option SynErr :=
  let t := a.value.text.toList
  match assignField a with
  | none => (match readAny t with | .error e => some ⟨e.code, a.value.col + e.off⟩ | .ok _ => none)
  | some ty =>
    match readField ty t with
    | .error e => if e.code < 200 then some ⟨e.code, a.value.col + e.off⟩ else none
    | .ok (.pos p) => (offsetErr (isIncrement s (axisOfObj s a.path.obj)) p.off).map (fun c => ⟨c, a.value.col⟩)
    | .ok (.val _) => none

def setSyn (as : List Assign) (s : State) : Option SynErr := firstOf (as.map (assignSyn s))

/-- A write whose value is a position that is not resolved yet. -/
inductive Pre
  | value (w : Write)
  | pos (w : Write) (p : PosText)

/-- R79: the object name that the value of an assignment offends with: an item of a list, an end of a range. -/
def badName (t : Text) (off : Nat) : String :=
  match cutAt '-' (up ((t.drop off).takeWhile (fun c => c != ','))) with
  | (a, none) => String.ofList a
  | (a, some b) => String.ofList (if hasObjForm a && (objOf a).isNone then a else b)

/-- The tests of an assignment on its own (R69, R95, R294, R394, R203 of the codes), and its value.
(DEDUCED, notes/assumptions/64.md, 74.md) -/
def readWrite (s : State) (a : Assign) : Except (Nat × String) Pre := do
  let (o, x) ← pathTest s a.path true
  if x.readOnly then .error (203, a.path.name) else
  match readField x.ty a.value.text.toList with
  | .error e => .error (e.code, if e.code = 201 then badName a.value.text.toList e.off else a.path.name)
  | .ok (.val v) => return .value ⟨o, x, a.path.name, v⟩
  | .ok (.pos p) => return .pos ⟨o, x, a.path.name, .kw "NONE"⟩ p

/-- R31 to R34, R232: a position is resolved on the axis that the line would leave. -/
def resolvePre (t : State) (rc : Recv) : Pre → Except (Nat × String) Write
  | .value w => .ok w
  | .pos w p =>
    match w.obj with
    | .port q =>
      match t.ports[q].cfg.axis with
      | none => .error (304, w.path)
      | some a => do
        let (n, o) ← resolvePos t rc a p
        return { w with value := .one (.pos n.toNat o (decide (t.axes[a].cfg.mode = .increment))) }
    | _ => .error (303, w.path)

/-- The writes of a list that have a value. -/
def goodOf {α : Type} (xs : List (Except (Nat × String) α)) : List α :=
  xs.filterMap (fun x => match x with | .ok a => some a | .error _ => none)

def valuesOf (ps : List Pre) : List Write := ps.filterMap (fun p => match p with | .value w => some w | .pos .. => none)

/-- R72: the writes of a line, or the first failing assignment. -/
def readWrites (s : State) (rc : Recv) (as : List Assign) : Except (Nat × String) (List Write) :=
  let pres := as.map (readWrite s)
  let t0 := trialState (valuesOf (goodOf pres)) s
  let ws := pres.map (fun p => match p with | .ok x => resolvePre t0 rc x | .error e => .error e)
  let t := trialState (goodOf ws) s
  ws.mapM (fun w => match w with
    | .error e => .error e
    | .ok w => match conflictOf s t w with
      | some c => .error (c, conflictDetail t w c)
      | none => .ok w)

/-- R62: the mode that a write of CON.MODE or HSPI.MODE gives its link. -/
def modeWrite (w : Write) : Option (Link × LinkMode) :=
  let m := if w.value = .kw "TYPED" then LinkMode.typed else .machine
  if w.prop.name != "MODE" then none
  else match w.obj with
    | .con => some (.con, m)
    | .hspi => some (.hspi, m)
    | _ => none

/-- R27, R78: what the response reports of a write: the stored value. -/
def writeText (f : TimeFmt) (t : State) (w : Write) : String :=
  assignText f w.path (if w.prop.name == "ACTIVE" then w.value else w.prop.get t)

/-- SET (R72, R78). (DEDUCED, notes/assumptions/64.md) -/
def setVerb (rc : Recv) (as : List Assign) (s : State) : Exec := do
  let ws ← readWrites s rc as
  let text := String.intercalate " " (ws.map (writeText s.tb.timeFmt (trialState ws s)))
  let hunts := ws.any (fun w => decide (w.obj = .con) && w.prop.name == "BAUD")
  .ok ⟨text, [], ws.filterMap modeWrite, if hunts then some .hunt else none, none, applyAll ws s⟩

end Sys2Proof.Machine
end

