-- ==== Sys2Proof/Machine/SetRows.lean ====
section
/-! DEFINITION. The commands that execute a SET line: SET for every line but one that programs the customer key, a row of its
own for the lines that write a property of one kind, and KEY_PROGRAM (spec/03 R72, R78; spec/18 R477, R478). -/
namespace Sys2Proof.Machine

/-- A SET line has an assignment to a property of one kind. -/
def setHas (kind : Obj → String → Bool) (c : Cmd) : Bool :=
  match c with
  | .set as => as.any (fun a => match a.path.obj with | .ok o => kind o a.path.prop | .bad _ => false)
  | _ => false

def keyKind (o : Obj) (n : String) : Bool := match o with | .sys => n == "KEYPROG" | _ => false

/-- The steward executes a SET line that a test picks. (DESIGN CHOICE, notes/assumptions/9.md) -/
def setLine (fault : Bool) (want : Cmd → Bool) (s : State) : State :=
  steward fault want (fun c s => match c with | .set as => setSyn as s | _ => none)
    (fun r c s => match c with | .set as => setVerb r.received as s | _ => reject 511 "") s

/-- The steward executes a SET line that writes a property of one kind. (DESIGN CHOICE, notes/assumptions/9.md) -/
def setKind (fault : Bool) (kind : Obj → String → Bool) (s : State) : State :=
  setLine fault (fun c => setHas kind c && !setHas keyKind c) s

/-- SET (R72, R78). -/
def execSet (d : Nat) (fault : Bool) (s : State) : Host.Outcome State Fault Refusal :=
  .next (setLine fault (fun c => (match c with | .set _ => true | _ => false) && !setHas keyKind c) (s.elapse d))

/-- SET_LINK_MODE (R62): CON.MODE, HSPI.MODE. -/
def execSetLinkMode (d : Nat) (fault : Bool) (s : State) : Host.Outcome State Fault Refusal :=
  .next (setKind fault (fun o n => match o with | .con | .hspi => n == "MODE" | _ => false) (s.elapse d))

/-- SET_CON_BAUD (R99). -/
def execSetConBaud (d : Nat) (fault : Bool) (s : State) : Host.Outcome State Fault Refusal :=
  .next (setKind fault (fun o n => match o with | .con => n == "BAUD" | _ => false) (s.elapse d))

/-- SET_TIMEFMT (R30). -/
def execSetTimefmt (d : Nat) (fault : Bool) (s : State) : Host.Outcome State Fault Refusal :=
  .next (setKind fault (fun o n => match o with | .sys => n == "TIMEFMT" | _ => false) (s.elapse d))

/-- SET_SP_ENABLE (R125). -/
def execSetSpEnable (d : Nat) (fault : Bool) (s : State) : Host.Outcome State Fault Refusal :=
  .next (setKind fault (fun o n => match o with | .sp => n == "ENABLE" | _ => false) (s.elapse d))

/-- SET_AXIS_CONFIG (R187): a property whose write restarts its axis. -/
def execSetAxisConfig (d : Nat) (fault : Bool) (s : State) : Host.Outcome State Fault Refusal :=
  .next (setKind fault (fun o n => match o with | .ax _ => restartNames.contains n | _ => false) (s.elapse d))

/-- SET_AXIS_RUNAHEAD (R204, R555). -/
def execSetAxisRunahead (d : Nat) (fault : Bool) (s : State) : Host.Outcome State Fault Refusal :=
  .next (setKind fault (fun o n => match o with | .ax _ => n == "RUNAHEAD" | _ => false) (s.elapse d))

/-- SET_TASK_ROUTES (R284, R285). -/
def execSetTaskRoutes (d : Nat) (fault : Bool) (s : State) : Host.Outcome State Fault Refusal :=
  .next (setKind fault (fun o n => match o with | .tk _ => ["SUBS", "CLASS"].contains n | _ => false) (s.elapse d))

/-- SET_TASK_CONFONLY (R289). -/
def execSetTaskConfonly (d : Nat) (fault : Bool) (s : State) : Host.Outcome State Fault Refusal :=
  .next (setKind fault (fun o n => match o with | .tk _ => n == "CONFONLY" | _ => false) (s.elapse d))

/-- SET_MF_ENABLE (R259). -/
def execSetMfEnable (d : Nat) (fault : Bool) (s : State) : Host.Outcome State Fault Refusal :=
  .next (setKind fault (fun o n => match o with | .mf _ => n == "ENABLE" | _ => false) (s.elapse d))

/-- SET_MF_STATS_CLEAR (R273). -/
def execSetMfStatsClear (d : Nat) (fault : Bool) (s : State) : Host.Outcome State Fault Refusal :=
  .next (setKind fault (fun o n => match o with | .mf _ => n == "STATS" | _ => false) (s.elapse d))

/-- SET_PORT_MODE (R212). -/
def execSetPortMode (d : Nat) (fault : Bool) (s : State) : Host.Outcome State Fault Refusal :=
  .next (setKind fault (fun o n => match o with | .port _ => n == "MODE" | _ => false) (s.elapse d))

/-- SET_TONE_FTW (R232). -/
def execSetToneFtw (d : Nat) (fault : Bool) (s : State) : Host.Outcome State Fault Refusal :=
  .next (setKind fault (fun o n => match o with | .port _ => n == "FTW" | _ => false) (s.elapse d))

/-- SET_TONE_AT (R232). -/
def execSetToneAt (d : Nat) (fault : Bool) (s : State) : Host.Outcome State Fault Refusal :=
  .next (setKind fault (fun o n => match o with | .port _ => n == "TONEAT" | _ => false) (s.elapse d))

/-- SET_IOSTD (R238, R240). -/
def execSetIostd (d : Nat) (fault : Bool) (s : State) : Host.Outcome State Fault Refusal :=
  .next (setKind fault (fun o n => match o with | .cl _ => n == "IOSTD" | _ => false) (s.elapse d))

/-- SET_THRESHOLD (R240, R242): THRESH, HYST. -/
def execSetThreshold (d : Nat) (fault : Bool) (s : State) : Host.Outcome State Fault Refusal :=
  .next (setKind fault (fun o n => match o with | .port _ => ["THRESH", "HYST"].contains n | _ => false) (s.elapse d))

/-- SET_REF_ACTIVE (R173). -/
def execSetRefActive (d : Nat) (fault : Bool) (s : State) : Host.Outcome State Fault Refusal :=
  .next (setKind fault (fun o n => match o with | .ref => n == "ACTIVE" | _ => false) (s.elapse d))

/-- SET_REF_INPUT (R155): FREQ, INPUT. -/
def execSetRefInput (d : Nat) (fault : Bool) (s : State) : Host.Outcome State Fault Refusal :=
  .next (setKind fault (fun o n => match o with | .refx _ => ["FREQ", "INPUT"].contains n | _ => false) (s.elapse d))

/-- SET_REF_BW (R158). -/
def execSetRefBw (d : Nat) (fault : Bool) (s : State) : Host.Outcome State Fault Refusal :=
  .next (setKind fault (fun o n => match o with | .ref => n == "BW" | _ => false) (s.elapse d))

/-- SET_CAL_PERIOD (R342). -/
def execSetCalPeriod (d : Nat) (fault : Bool) (s : State) : Host.Outcome State Fault Refusal :=
  .next (setKind fault (fun o n => match o with | .cal => n == "PERIOD" | _ => false) (s.elapse d))

/-- SET_CAL_HOLD (R344). -/
def execSetCalHold (d : Nat) (fault : Bool) (s : State) : Host.Outcome State Fault Refusal :=
  .next (setKind fault (fun o n => match o with | .cal => n == "HOLD" | _ => false) (s.elapse d))

/-- SET_BEL_ALERT_CLEAR (R430). -/
def execSetBelAlertClear (d : Nat) (fault : Bool) (s : State) : Host.Outcome State Fault Refusal :=
  .next (setKind fault (fun o n => match o with | .bel => n == "ALERT" | _ => false) (s.elapse d))

/-- SET_BEL_RULE (R428). -/
def execSetBelRule (d : Nat) (fault : Bool) (s : State) : Host.Outcome State Fault Refusal :=
  .next (setKind fault (fun o n => match o with | .bel => (ruleOf n).isSome | _ => false) (s.elapse d))

/-- SET_SYNC_ROLE (R445, R448). -/
def execSetSyncRole (d : Nat) (fault : Bool) (s : State) : Host.Outcome State Fault Refusal :=
  .next (setKind fault (fun o n => match o with | .sys => n == "SYNCROLE" | _ => false) (s.elapse d))

/-- SET_SYNC_DELAY (R454). -/
def execSetSyncDelay (d : Nat) (fault : Bool) (s : State) : Host.Outcome State Fault Refusal :=
  .next (setKind fault (fun o n => match o with | .sys => n == "SYNCDELAY" | _ => false) (s.elapse d))

/-! ### The customer key (R477, R478) -/

/-- R477, R478: what an accepted line that programs the key does: a hash that reads back is in force with the whole line;
one that does not spoils the slot and nothing else. (DEDUCED, notes/assumptions/79.md) -/
def keyVerb (readBackOk : Bool) (rc : Recv) (as : List Assign) (s : State) : Exec := do
  let y ← setVerb rc as s
  if readBackOk then .ok { y with state := y.state.modBoot (Boot.burn true) }
  else .ok { y with onStart := [], onEnd := none, failed := some 511, state := s.modBoot (Boot.burn false) }

/-- KEY_PROGRAM (R477, R478). readBackOk: the fuses read back as they were programmed.
(DESIGN CHOICE, notes/assumptions/9.md) -/
def execKeyProgram (d : Nat) (fault : Bool) (readBackOk : Bool) (s : State) : Host.Outcome State Fault Refusal :=
  .next (steward fault (setHas keyKind) (fun c s => match c with | .set as => setSyn as s | _ => none)
    (fun r c s => match c with | .set as => keyVerb readBackOk r.received as s | _ => reject 511 "") (s.elapse d))

end Sys2Proof.Machine
end

