-- ==== Sys2Proof/Machine/StreamRows.lean ====
section
/-! DEFINITION. The meanings of the happenings of the stream port and of the memories' ECC (spec/05, spec/14 R384). -/
namespace Sys2Proof.Machine

/-- SP_LANE_LOCK (R123). (DESIGN CHOICE, notes/assumptions/93.md) -/
def execSpLaneLock (d : Nat) (r : LaneSeen) (s : State) : Host.Outcome State Fault Refusal :=
  .next (laneLock r.lane r.rd r.groups (s.elapse d))

/-- SP_LANE_LOSE_LOCK (R123). (DESIGN CHOICE, notes/assumptions/93.md) -/
def execSpLaneLoseLock (d : Nat) (r : LaneSeen) (s : State) : Host.Outcome State Fault Refusal :=
  .next (laneLoseLock r.lane r.rd r.groups (s.elapse d))

/-- SP_TS_IN_UP (R149). (DESIGN CHOICE, notes/assumptions/93.md) -/
def execSpTsInUp (d : Nat) (r : LaneSeen) (s : State) : Host.Outcome State Fault Refusal :=
  .next (tsInUp r.lane r.rd r.groups (s.elapse d))

/-- SP_LINK_UP (R125). (DESIGN CHOICE, notes/assumptions/93.md) -/
def execSpLinkUp (d : TrainSeen) (s : State) : Host.Outcome State Fault Refusal :=
  .next (linkUp d.seen (s.elapse d.d))

/-- SP_FRAME_SEND (R131): a frame starts on a lane, if it is the one that R132 gives.
(DESIGN CHOICE, notes/assumptions/82.md, 93.md) -/
def execSpFrameSend (d : Nat) (channel : Fin 6) (lane : Fin 4) (bad : List Nat) (s : State) : Host.Outcome State Fault Refusal :=
  let t := s.elapse d
  .next (if t.laneGiven channel = some lane then sendFrame channel bad t else t)

/-- CREDIT_REPEAT (R141). -/
def execCreditRepeat (d : Nat) (s : State) : Host.Outcome State Fault Refusal :=
  .next (repeatCredit (s.elapse d))

/-- UPLOAD_FRAME (R142). (DESIGN CHOICE, notes/assumptions/6.md, 93.md) -/
def execUploadFrame (d : Nat) (r : Fin 2) (rd : Bool) (groups : List CodeGroup) (leave : Nat) (s : State) :
    Host.Outcome State Fault Refusal :=
  .next (uploadFrame r rd groups leave (s.elapse d))

/-- ASSEMBLY_TIMEOUT (R142). -/
def execAssemblyTimeout (d : Nat) (k : Nat) (s : State) : Host.Outcome State Fault Refusal :=
  .next (assemblyTimeout k (s.elapse d))

/-- OVERFLOW_END (R145). (DESIGN CHOICE, notes/assumptions/3.md) -/
def execOverflowEnd (d : Nat) (s : State) : Host.Outcome State Fault Refusal :=
  .next (overflowEnds (s.elapse d))

/-- R375, R384: corrected errors of the segment store, the central FIFO and the object store are published, with the records
that the FIFO has dropped. (DEDUCED, notes/assumptions/55.md) -/
def publishEcc (seg fifo sys : Nat) (s : State) : State :=
  let s := s.modFifo (fun f =>
    { f with eccCorr := f.eccCorr + BitVec.ofNat 32 fifo, eccDrops := f.eccDrops + BitVec.ofNat 32 f.eccNew, eccNew := 0 })
  { s with store := { s.store with eccCorr := s.store.eccCorr + BitVec.ofNat 32 seg },
           sysEcc := s.sysEcc + BitVec.ofNat 32 sys }

/-- ECC_PUBLICATION (R384). (DESIGN CHOICE, notes/assumptions/82.md) -/
def execEccPublication (d : Nat) (seg fifo sys : Nat) (s : State) : Host.Outcome State Fault Refusal :=
  .next (publishEcc seg fifo sys (s.elapse d))

end Sys2Proof.Machine
end

