-- ==== Sys2Proof/Machine/SyncRows.lean ====
section
/-! DEFINITION. The meanings of the happenings of the SYNC train (spec/17). -/
namespace Sys2Proof.Machine

/-- SYNC_PULSE_SEND (R446). -/
def execSyncPulseSend (d : Nat) (s : State) : Host.Outcome State Fault Refusal := .next (sendPulse (s.elapse d))

/-- SYNC_RETURN_PULSE (R455). -/
def execSyncReturnPulse (d : Nat) (s : State) : Host.Outcome State Fault Refusal := .next (returnPulse (s.elapse d))

/-- SYNC_EDGE (R452). -/
def execSyncEdge (d : Nat) (falling : Bool) (t : TimeWord) (s : State) : Host.Outcome State Fault Refusal :=
  .next (syncEdge falling t (s.elapse d))

/-- SYNC_STEP (R450). -/
def execSyncStep (d : Nat) (s : State) : Host.Outcome State Fault Refusal := .next (syncStep (s.elapse d))

/-- SYNC_HOLD_TIMEOUT (R452). -/
def execSyncHoldTimeout (d : Nat) (s : State) : Host.Outcome State Fault Refusal := .next (holdTimeout (s.elapse d))

/-- SYNC_SLEW (R452). -/
def execSyncSlew (d : Nat) (s : State) : Host.Outcome State Fault Refusal := .next (slew (s.elapse d))

end Sys2Proof.Machine
end

