-- ==== Sys2Proof/Machine/TimebaseRows.lean ====
section
/-! DEFINITION. The meanings of the happenings of the references, of the timebase PLL and of Cupola (spec/06). -/
namespace Sys2Proof.Machine

/-- REF_LOST (R162). (DESIGN CHOICE, notes/assumptions/5.md) -/
def execRefLost (d : Nat) (x : Fin 4) (s : State) : Host.Outcome State Fault Refusal := .next (refLost x (s.elapse d))

/-- REF_PRESENT (R161). (DESIGN CHOICE, notes/assumptions/5.md) -/
def execRefPresent (d : Nat) (x : Fin 4) (s : State) : Host.Outcome State Fault Refusal := .next (refPresent x (s.elapse d))

/-- PLL_FREEZE (R163). -/
def execPllFreeze (d : Nat) (s : State) : Host.Outcome State Fault Refusal := .next (pllFreeze (s.elapse d))

/-- REF_GLITCH_RECOVER (R163). -/
def execRefGlitchRecover (d : Nat) (s : State) : Host.Outcome State Fault Refusal := .next (glitchRecover (s.elapse d))

/-- CUPOLA_WINDOW_1S (R166). (DESIGN CHOICE, notes/assumptions/6.md) -/
def execCupolaWindow1s (d : Nat) (x : Fin 4) (result : Counted) (s : State) : Host.Outcome State Fault Refusal :=
  .next (window1s x result.fx result.fc (s.elapse d))

/-- CUPOLA_WINDOW_10S (R166). (DESIGN CHOICE, notes/assumptions/6.md) -/
def execCupolaWindow10s (d : Nat) (x : Fin 4) (result : Counted) (s : State) : Host.Outcome State Fault Refusal :=
  .next (window10s x result.fx result.fc (s.elapse d))

/-- REF_SWITCH (R175). -/
def execRefSwitch (d : Nat) (s : State) : Host.Outcome State Fault Refusal := .next (refSwitch (s.elapse d))

/-- REVERT_WAIT (R174). -/
def execRevertWait (d : Nat) (x : Fin 4) (s : State) : Host.Outcome State Fault Refusal := .next (revertWait x (s.elapse d))

/-- PLL_LOCK (R157). -/
def execPllLock (d : Nat) (s : State) : Host.Outcome State Fault Refusal := .next (pllLock (s.elapse d))

/-- ACQUIRE_TIMEOUT (R156). -/
def execAcquireTimeout (d : Nat) (s : State) : Host.Outcome State Fault Refusal := .next (acquireTimeout (s.elapse d))

/-- LOCKLOSS (R160). -/
def execLockloss (d : Nat) (s : State) : Host.Outcome State Fault Refusal := .next (locklossRaised (s.elapse d))

end Sys2Proof.Machine
end

