-- ==== Sys2Proof/Machine/VerbRows.lean ====
section
/-! DEFINITION. The commands FIRE, ARM, DISARM, HALT, STEP, MARK, START, ABORT, SCHED and CANCEL as the steward executes them
(spec/03 R70 to R74; spec/07 R186; spec/08 R229; spec/09 R269; spec/11 R310, R317). A row acts on the line at the front of the
steward's queue if that line is of its verb. -/
namespace Sys2Proof.Machine

/-- FIRE (R70, R71). -/
def execFire (d : Nat) (fault : Bool) (s : State) : Host.Outcome State Fault Refusal :=
  .next (steward fault (fun c => match c with | .fire _ => true | _ => false) noSyn
    (fun _ c s => match c with | .fire o => fireVerb o s | _ => reject 511 "") (s.elapse d))

/-- ARM (R70, R229). -/
def execArm (d : Nat) (fault : Bool) (s : State) : Host.Outcome State Fault Refusal :=
  .next (steward fault (fun c => match c with | .arm _ => true | _ => false) noSyn
    (fun _ c s => match c with | .arm o => armVerb o s | _ => reject 511 "") (s.elapse d))

/-- DISARM (R70, R229). -/
def execDisarm (d : Nat) (fault : Bool) (s : State) : Host.Outcome State Fault Refusal :=
  .next (steward fault (fun c => match c with | .disarm _ => true | _ => false) noSyn
    (fun _ c s => match c with | .disarm o => disarmVerb o s | _ => reject 511 "") (s.elapse d))

/-- HALT (R70, R317). -/
def execHalt (d : Nat) (fault : Bool) (s : State) : Host.Outcome State Fault Refusal :=
  .next (steward fault (fun c => match c with | .halt _ => true | _ => false) noSyn
    (fun _ c s => match c with | .halt o => haltVerb o s | _ => reject 511 "") (s.elapse d))

/-- STEP (R70, R310). -/
def execStep (d : Nat) (fault : Bool) (s : State) : Host.Outcome State Fault Refusal :=
  .next (steward fault (fun c => match c with | .step _ => true | _ => false) noSyn
    (fun _ c s => match c with | .step o => stepVerb o s | _ => reject 511 "") (s.elapse d))

/-- MARK (R70, R186). -/
def execMark (d : Nat) (fault : Bool) (s : State) : Host.Outcome State Fault Refusal :=
  .next (steward fault (fun c => match c with | .mark _ => true | _ => false) noSyn
    (fun _ c s => match c with | .mark o => markVerb o s | _ => reject 511 "") (s.elapse d))

/-- START (R70). -/
def execStart (d : Nat) (fault : Bool) (s : State) : Host.Outcome State Fault Refusal :=
  .next (steward fault (fun c => match c with | .start _ => true | _ => false) noSyn
    (fun _ c s => match c with | .start o => startVerb o s | _ => reject 511 "") (s.elapse d))

/-- ABORT (R70, R269). -/
def execAbort (d : Nat) (fault : Bool) (s : State) : Host.Outcome State Fault Refusal :=
  .next (steward fault (fun c => match c with | .abort _ => true | _ => false) noSyn
    (fun _ c s => match c with | .abort o => abortVerb o s | _ => reject 511 "") (s.elapse d))

/-- SCHED (R73, R219 to R224). -/
def execSched (d : Nat) (fault : Bool) (s : State) : Host.Outcome State Fault Refusal :=
  .next (steward fault (fun c => match c with | .sched .. => true | _ => false)
    (fun c s => match c with | .sched o cl kv => schedSyn s o cl kv | _ => none)
    (fun r c s => match c with | .sched o cl kv => schedVerb false r.received o cl kv s | _ => reject 511 "") (s.elapse d))

/-- CANCEL (R74, R223). -/
def execCancel (d : Nat) (fault : Bool) (s : State) : Host.Outcome State Fault Refusal :=
  .next (steward fault (fun c => match c with | .cancel .. => true | _ => false)
    (fun c s => match c with | .cancel o v => cancelSyn s o v | _ => none)
    (fun r c s => match c with | .cancel o v => cancelVerb r.received o v s | _ => reject 511 "") (s.elapse d))

end Sys2Proof.Machine
end

