-- ==== Sys2Proof/Machine/Dispatch.lean ====
section
/-! DEFINITION. The meaning of every command: one arm per constructor. -/
namespace Sys2Proof.Machine

/-- A command's effect on everything but the queue of commands. -/
def exec (i : Instr) (s : State) : Host.Outcome State Fault Refusal :=
  match i with
  | .lineReceived d link lf span corrupt => Sys2Proof.Machine.execLineReceived d link lf span corrupt s
  | .typedCharacter d link b => Sys2Proof.Machine.execTypedCharacter d link b s
  | .editBackspace d link => Sys2Proof.Machine.execEditBackspace d link s
  | .editCtrlU d link => Sys2Proof.Machine.execEditCtrlU d link s
  | .editCtrlC d link => Sys2Proof.Machine.execEditCtrlC d link s
  | .editCtrlR d link => Sys2Proof.Machine.execEditCtrlR d link s
  | .editRecall d link => Sys2Proof.Machine.execEditRecall d link s
  | .conFramingError d => Sys2Proof.Machine.execConFramingError d s
  | .conBreak d => Sys2Proof.Machine.execConBreak d s
  | .autobaudCharacter d cycles readsCr => Sys2Proof.Machine.execAutobaudCharacter d cycles readsCr s
  | .hspiCsFall d sclkHigh => Sys2Proof.Machine.execHspiCsFall d sclkHigh s
  | .hspiCsRise d => Sys2Proof.Machine.execHspiCsRise d s
  | .get d fault => Sys2Proof.Machine.execGet d fault s
  | .set d fault => Sys2Proof.Machine.execSet d fault s
  | .showObject d fault => Sys2Proof.Machine.execShowObject d fault s
  | .list d fault => Sys2Proof.Machine.execList d fault s
  | .help d fault => Sys2Proof.Machine.execHelp d fault s
  | .snapshot d fault => Sys2Proof.Machine.execSnapshot d fault s
  | .fire d fault => Sys2Proof.Machine.execFire d fault s
  | .arm d fault => Sys2Proof.Machine.execArm d fault s
  | .disarm d fault => Sys2Proof.Machine.execDisarm d fault s
  | .halt d fault => Sys2Proof.Machine.execHalt d fault s
  | .step d fault => Sys2Proof.Machine.execStep d fault s
  | .mark d fault => Sys2Proof.Machine.execMark d fault s
  | .sched d fault => Sys2Proof.Machine.execSched d fault s
  | .cancel d fault => Sys2Proof.Machine.execCancel d fault s
  | .start d fault => Sys2Proof.Machine.execStart d fault s
  | .abort d fault => Sys2Proof.Machine.execAbort d fault s
  | .drain d fault => Sys2Proof.Machine.execDrain d fault s
  | .powerOff d fault => Sys2Proof.Machine.execPowerOff d fault s
  | .powerOn d fault => Sys2Proof.Machine.execPowerOn d fault s
  | .join d fault => Sys2Proof.Machine.execJoin d fault s
  | .prog d fault => Sys2Proof.Machine.execProg d fault s
  | .progClear d fault => Sys2Proof.Machine.execProgClear d fault s
  | .clusterReset d fault => Sys2Proof.Machine.execClusterReset d fault s
  | .sysReset d fault => Sys2Proof.Machine.execSysReset d fault s
  | .sysFeatures d fault => Sys2Proof.Machine.execSysFeatures d fault s
  | .sysVersion d fault => Sys2Proof.Machine.execSysVersion d fault s
  | .sysRestart d fault => Sys2Proof.Machine.execSysRestart d fault s
  | .sysUpdate d fault => Sys2Proof.Machine.execSysUpdate d fault s
  | .sysSleep d fault => Sys2Proof.Machine.execSysSleep d fault s
  | .calExport d fault => Sys2Proof.Machine.execCalExport d fault s
  | .calImport d fault => Sys2Proof.Machine.execCalImport d fault s
  | .segDefine d fault => Sys2Proof.Machine.execSegDefine d fault s
  | .segFree d fault => Sys2Proof.Machine.execSegFree d fault s
  | .belLog d fault => Sys2Proof.Machine.execBelLog d fault s
  | .belClear d fault => Sys2Proof.Machine.execBelClear d fault s
  | .loadSize d => Sys2Proof.Machine.execLoadSize d s
  | .loadData d => Sys2Proof.Machine.execLoadData d s
  | .loadStatus d => Sys2Proof.Machine.execLoadStatus d s
  | .loadGo d => Sys2Proof.Machine.execLoadGo d s
  | .setLinkMode d fault => Sys2Proof.Machine.execSetLinkMode d fault s
  | .setConBaud d fault => Sys2Proof.Machine.execSetConBaud d fault s
  | .setTimefmt d fault => Sys2Proof.Machine.execSetTimefmt d fault s
  | .setSpEnable d fault => Sys2Proof.Machine.execSetSpEnable d fault s
  | .setAxisConfig d fault => Sys2Proof.Machine.execSetAxisConfig d fault s
  | .setAxisRunahead d fault => Sys2Proof.Machine.execSetAxisRunahead d fault s
  | .setTaskRoutes d fault => Sys2Proof.Machine.execSetTaskRoutes d fault s
  | .setTaskConfonly d fault => Sys2Proof.Machine.execSetTaskConfonly d fault s
  | .setMfEnable d fault => Sys2Proof.Machine.execSetMfEnable d fault s
  | .setMfStatsClear d fault => Sys2Proof.Machine.execSetMfStatsClear d fault s
  | .setPortMode d fault => Sys2Proof.Machine.execSetPortMode d fault s
  | .setToneFtw d fault => Sys2Proof.Machine.execSetToneFtw d fault s
  | .setToneAt d fault => Sys2Proof.Machine.execSetToneAt d fault s
  | .setIostd d fault => Sys2Proof.Machine.execSetIostd d fault s
  | .setThreshold d fault => Sys2Proof.Machine.execSetThreshold d fault s
  | .setRefActive d fault => Sys2Proof.Machine.execSetRefActive d fault s
  | .setRefInput d fault => Sys2Proof.Machine.execSetRefInput d fault s
  | .setRefBw d fault => Sys2Proof.Machine.execSetRefBw d fault s
  | .setCalPeriod d fault => Sys2Proof.Machine.execSetCalPeriod d fault s
  | .setCalHold d fault => Sys2Proof.Machine.execSetCalHold d fault s
  | .setBelAlertClear d fault => Sys2Proof.Machine.execSetBelAlertClear d fault s
  | .setBelRule d fault => Sys2Proof.Machine.execSetBelRule d fault s
  | .setSyncRole d fault => Sys2Proof.Machine.execSetSyncRole d fault s
  | .setSyncDelay d fault => Sys2Proof.Machine.execSetSyncDelay d fault s
  | .keyProgram d fault readBackOk => Sys2Proof.Machine.execKeyProgram d fault readBackOk s
  | .handoverAccept d src => Sys2Proof.Machine.execHandoverAccept d src s
  | .routeDelivery d k => Sys2Proof.Machine.execRouteDelivery d k s
  | .spLaneLock d r => Sys2Proof.Machine.execSpLaneLock d r s
  | .spLaneLoseLock d r => Sys2Proof.Machine.execSpLaneLoseLock d r s
  | .spTsInUp d r => Sys2Proof.Machine.execSpTsInUp d r s
  | .spLinkUp d => Sys2Proof.Machine.execSpLinkUp d s
  | .spFrameSend d channel lane bad => Sys2Proof.Machine.execSpFrameSend d channel lane bad s
  | .creditRepeat d => Sys2Proof.Machine.execCreditRepeat d s
  | .uploadFrame d r rd groups leave => Sys2Proof.Machine.execUploadFrame d r rd groups leave s
  | .assemblyTimeout d k => Sys2Proof.Machine.execAssemblyTimeout d k s
  | .recordToFifo d k => Sys2Proof.Machine.execRecordToFifo d k s
  | .overflowEnd d => Sys2Proof.Machine.execOverflowEnd d s
  | .refLost d x => Sys2Proof.Machine.execRefLost d x s
  | .refPresent d x => Sys2Proof.Machine.execRefPresent d x s
  | .pllFreeze d => Sys2Proof.Machine.execPllFreeze d s
  | .refGlitchRecover d => Sys2Proof.Machine.execRefGlitchRecover d s
  | .cupolaWindow1s d x result => Sys2Proof.Machine.execCupolaWindow1s d x result s
  | .cupolaWindow10s d x result => Sys2Proof.Machine.execCupolaWindow10s d x result s
  | .refSwitch d => Sys2Proof.Machine.execRefSwitch d s
  | .revertWait d x => Sys2Proof.Machine.execRevertWait d x s
  | .pllLock d => Sys2Proof.Machine.execPllLock d s
  | .acquireTimeout d => Sys2Proof.Machine.execAcquireTimeout d s
  | .lockloss d => Sys2Proof.Machine.execLockloss d s
  | .axisIndexEdge d a => Sys2Proof.Machine.execAxisIndexEdge d a s
  | .axisCatchTimeout d a => Sys2Proof.Machine.execAxisCatchTimeout d a s
  | .reacquireWindowPass d a => Sys2Proof.Machine.execReacquireWindowPass d a s
  | .axisCountEdge d a => Sys2Proof.Machine.execAxisCountEdge d a s
  | .freeFrameStart d a => Sys2Proof.Machine.execFreeFrameStart d a s
  | .edgeCommit d what => Sys2Proof.Machine.execEdgeCommit d what s
  | .pulseLeadingEdge d p => Sys2Proof.Machine.execPulseLeadingEdge d p s
  | .pulseTrailingEdge d p => Sys2Proof.Machine.execPulseTrailingEdge d p s
  | .padTrigger d p => Sys2Proof.Machine.execPadTrigger d p s
  | .inputEdgeConvert d p falling stop code => Sys2Proof.Machine.execInputEdgeConvert d p falling stop code s
  | .stampFormat d p => Sys2Proof.Machine.execStampFormat d p s
  | .pairMeasurement d p q => Sys2Proof.Machine.execPairMeasurement d p q s
  | .overrangeAssert d p a => Sys2Proof.Machine.execOverrangeAssert d p a s
  | .overrangeDeassert d p z => Sys2Proof.Machine.execOverrangeDeassert d p z s
  | .trgEdge d n falling t => Sys2Proof.Machine.execTrgEdge d n falling t s
  | .toneChangeTick d p => Sys2Proof.Machine.execToneChangeTick d p s
  | .mfRunClose d m => Sys2Proof.Machine.execMfRunClose d m s
  | .spirePrefetch d g bad => Sys2Proof.Machine.execSpirePrefetch d g bad s
  | .spireBoundary d g => Sys2Proof.Machine.execSpireBoundary d g s
  | .spireCheckfail d g => Sys2Proof.Machine.execSpireCheckfail d g s
  | .waitTimeout d g => Sys2Proof.Machine.execWaitTimeout d g s
  | .agWord d n => Sys2Proof.Machine.execAgWord d n s
  | .agSample d n => Sys2Proof.Machine.execAgSample d n s
  | .calWindowOpen d p => Sys2Proof.Machine.execCalWindowOpen d p s
  | .calWindowClose d p sample high => Sys2Proof.Machine.execCalWindowClose d p sample high s
  | .calPortLate d p => Sys2Proof.Machine.execCalPortLate d p s
  | .calTableSwap d p => Sys2Proof.Machine.execCalTableSwap d p s
  | .drainComplete d k => Sys2Proof.Machine.execDrainComplete d k s
  | .clusterPowerupDone d k bankMv => Sys2Proof.Machine.execClusterPowerupDone d k bankMv s
  | .clusterCalibrateDone d k samples => Sys2Proof.Machine.execClusterCalibrateDone d k samples s
  | .clusterAlignDone d k verified => Sys2Proof.Machine.execClusterAlignDone d k verified s
  | .clusterJoin d k => Sys2Proof.Machine.execClusterJoin d k s
  | .clusterFault d k cause bankMv => Sys2Proof.Machine.execClusterFault d k cause bankMv s
  | .stewardWatchdog d => Sys2Proof.Machine.execStewardWatchdog d s
  | .stewardRestartStart d => Sys2Proof.Machine.execStewardRestartStart d s
  | .stewardRestartEnd d => Sys2Proof.Machine.execStewardRestartEnd d s
  | .hardwareResetStart d => Sys2Proof.Machine.execHardwareResetStart d s
  | .belfrySample d levels refa => Sys2Proof.Machine.execBelfrySample d levels refa s
  | .belfryConversion d reading => Sys2Proof.Machine.execBelfryConversion d reading s
  | .sleepEntryStart d => Sys2Proof.Machine.execSleepEntryStart d s
  | .sleepFrameHandover d => Sys2Proof.Machine.execSleepFrameHandover d s
  | .sleepFlushEnd d => Sys2Proof.Machine.execSleepFlushEnd d s
  | .sleepPowerdown d => Sys2Proof.Machine.execSleepPowerdown d s
  | .wakeSuppliesValid d => Sys2Proof.Machine.execWakeSuppliesValid d s
  | .keptAxisAnchor d => Sys2Proof.Machine.execKeptAxisAnchor d s
  | .resetPin d => Sys2Proof.Machine.execResetPin d s
  | .brownout d => Sys2Proof.Machine.execBrownout d s
  | .bootStart d bootsel1 bootsel0 => Sys2Proof.Machine.execBootStart d bootsel1 bootsel0 s
  | .flashBootDone d read => Sys2Proof.Machine.execFlashBootDone d read s
  | .objectStoreBuilt d => Sys2Proof.Machine.execObjectStoreBuilt d s
  | .syncPulseSend d => Sys2Proof.Machine.execSyncPulseSend d s
  | .syncReturnPulse d => Sys2Proof.Machine.execSyncReturnPulse d s
  | .syncEdge d falling t => Sys2Proof.Machine.execSyncEdge d falling t s
  | .syncStep d => Sys2Proof.Machine.execSyncStep d s
  | .syncHoldTimeout d => Sys2Proof.Machine.execSyncHoldTimeout d s
  | .syncSlew d => Sys2Proof.Machine.execSyncSlew d s
  | .poweron d => Sys2Proof.Machine.execPoweron d s
  | .lineCharacter d link b => Sys2Proof.Machine.execLineCharacter d link b s
  | .outputByteSent d link => Sys2Proof.Machine.execOutputByteSent d link s
  | .eccPublication d seg fifo sys => Sys2Proof.Machine.execEccPublication d seg fifo sys s

end Sys2Proof.Machine
end

