-- ==== Sys2Proof/Machine/Step.lean ====
section
/-! DEFINITION. One step of the block: it takes the command at the front of its queue. -/
namespace Sys2Proof.Machine

/-- The command at the front runs with the rest of the queue; with no command waiting, one fabric cycle passes
(notes/assumptions/2.md). (DESIGN CHOICE, notes/assumptions/2.md, 4.md) -/
def step (s : State) : Host.Outcome State Fault Refusal :=
  match s.pending with
  | [] => .next (idle s)
  | c :: cs => exec c { s with pending := cs }

/-- The command that a word spells put at the front of the queue: no word spells one.
(DESIGN CHOICE, notes/assumptions/4.md) -/
def State.withFetchWord (s : State) (nbits w : Nat) : State :=
  match decodeTableWord nbits w with
  | some c => { s with pending := c :: s.pending }
  | none => s

end Sys2Proof.Machine
end

