-- ==== Sys2Proof/Safety.lean ====
section
/-! DEFINITION. What the block keeps whatever command comes: the sizes of its stores, the order of what it lists, the clock
behind the time word, and the fuses (spec/05 R144, R145; spec/06 R157, R160; spec/11 R292; spec/16 R432; spec/18 R472, R474). -/
namespace Sys2Proof.Machine

/-- Numbers that rise from one to the next. -/
def Rising : List Nat → Prop
  | a :: b :: r => a < b ∧ Rising (b :: r)
  | _ => True

/-- R145: an overflow episode holds one count for each source, by rising source number; the last number is 65. -/
def dropsOk (ds : List DropRec) : Prop := Rising (ds.map (fun d => d.source)) ∧ ∀ d ∈ ds, d.source ≤ 65

/-- R144: the partitions of the central FIFO hold no more than their slots. -/
def Fifo.ok (f : Fifo) : Prop :=
  f.uUsed ≤ uSlots ∧ f.bUsed ≤ bSlots ∧ (∀ ds, f.bEpisode = some ds → dropsOk ds) ∧
    (∀ ds, f.uEpisode = some ds → dropsOk ds)

/-- The fabric clock comes from the PLL exactly while the timebase is locked or in holdover; a cycle has four ticks; the time
word runs only after the first lock. -/
def Timebase.ok (t : Timebase) : Prop :=
  t.phase < cycleTicks ∧ (t.clkSrc = .pll ↔ t.state = .locked ∨ t.state = .holdover) ∧ (t.running = true → t.started = true)

/-- R292, R294: the blocks of a segment that are written lie in it, by rising index. -/
def Segment.ok (x : Segment) : Prop := Rising (x.written.map (fun b => b.idx)) ∧ ∀ b ∈ x.written, b.idx < x.blocks

/-- R292: the defined segments, by rising number, share 16 384 blocks. -/
def SegStore.ok (st : SegStore) : Prop :=
  Rising (st.segs.map (fun x => x.id.val)) ∧ (st.segs.map Segment.blocks).sum ≤ 16384 ∧ ∀ x ∈ st.segs, x.ok

/-- R472: the bytes written to the download buffer lie in it, by rising offset. -/
def Download.ok (x : Download) : Prop := Rising (x.bytes.map (fun b => b.1)) ∧ ∀ b ∈ x.bytes, b.1 < x.size

/-- R432: Belfry's log has 64 entries. -/
def Belfry.ok (b : Belfry) : Prop := b.log.length ≤ 64

/-- Every bound of this file. -/
structure State.ok (s : State) : Prop where
  fifo : s.fifo.ok
  tb : s.tb.ok
  store : s.store.ok
  dl : s.boot.dl.ok
  bel : s.bel.ok

/-- R474: the fuses of the customer key slot are programmed once: a slot that is not empty stays as it is. -/
def fusesKept (b c : Boot) : Prop := b.keySlot ≠ .empty → c.keySlot = b.keySlot ∧ c.keyHash = b.keyHash

/-! ### Frames -/

/-- The parts of the state. -/
inductive Part
  | tb | axes | clusters | ports | trgs | mfs | fabric | tasks | store | groups | markers | ags | cal
  | steward | con | hspi | console | spi | sp | fifo | bel | sync | boot | sysEcc | pending
  deriving DecidableEq, Repr

/-- A part is the same in two states. -/
def Part.same (s t : State) : Part → Prop
  | .tb => t.tb = s.tb
  | .axes => t.axes = s.axes
  | .clusters => t.clusters = s.clusters
  | .ports => t.ports = s.ports
  | .trgs => t.trgs = s.trgs
  | .mfs => t.mfs = s.mfs
  | .fabric => t.fabric = s.fabric
  | .tasks => t.tasks = s.tasks
  | .store => t.store = s.store
  | .groups => t.groups = s.groups
  | .markers => t.markers = s.markers
  | .ags => t.ags = s.ags
  | .cal => t.cal = s.cal
  | .steward => t.steward = s.steward
  | .con => t.con = s.con
  | .hspi => t.hspi = s.hspi
  | .console => t.console = s.console
  | .spi => t.spi = s.spi
  | .sp => t.sp = s.sp
  | .fifo => t.fifo = s.fifo
  | .bel => t.bel = s.bel
  | .sync => t.sync = s.sync
  | .boot => t.boot = s.boot
  | .sysEcc => t.sysEcc = s.sysEcc
  | .pending => t.pending = s.pending

/-- Two states are the same but for some parts. -/
def SameBut (ps : List Part) (s t : State) : Prop := ∀ p : Part, p ∉ ps → p.same s t

/-- The part that holds a command link. -/
def linkPart : Link → Part | .con => .con | .hspi => .hspi

/-! ### Time with nothing due -/

/-- Nothing is due in the fabric cycles of the next d ticks: no assertion, delivery, task trigger, join, drain, result record,
frame in progress or overflow episode waits, and no stretch of renewTicks ends. -/
structure State.Calm (s : State) (d : Nat) : Prop where
  asserted : s.fabric.asserted = []
  transit : s.fabric.transit = []
  fires : s.ports.toList.any (fun q => !q.fires.isEmpty) = false
  clusters : s.clusters.toList.any (fun c => decide (c.state = .joining) || decide (c.state = .draining)) = false
  out : s.mfs.toList.any (fun f => !f.out.isEmpty) = false
  flights : s.fifo.flights = []
  episodes : s.fifo.inEpisode = false
  ticks : s.tb.ticks / renewTicks = (s.tb.ticks + d) / renewTicks

/-! ### A line that is executed -/

/-- The line at the front of the steward's queue is executed: the steward is there, the line's form holds a command, and it did
not come during an entry into SLEEP (R72, R90, R93, R418). -/
structure Front (u : State) (r : Req) (rest : List Req) (c : Cmd) : Prop where
  here : u.stewardHere = true
  queue : u.steward.queue = r :: rest
  parsed : r.parsed = .good ⟨c, none⟩
  busy : r.busy = false

/-- The boot ROM executes the line at the front: the download buffer takes commands, and the line's form holds one (R472). -/
structure RomFront (u : State) (r : Req) (rest : List Req) (c : Cmd) : Prop where
  step : u.boot.step = .download
  queue : u.steward.queue = r :: rest
  parsed : r.parsed = .good ⟨c, none⟩

/-- No line at the front of the steward's queue waits only for its turn to be answered. -/
def State.settled (u : State) : Prop := ∀ r rs, u.steward.queue = r :: rs → ∃ p, r.parsed = .good p

/-- The line at the front has been taken. -/
def State.took (u : State) (rest : List Req) : State := { u with steward := { u.steward with queue := rest } }

/-- The state after a line is answered OK, with the payload and the continuation lines given: the response stands in its
link's output, and lines behind it that are already decided are answered in their turn. -/
def Req.says (r : Req) (payload : String) (lines : List String) (v : State) : State :=
  settleQueue (answer r (.ok ⟨payload, lines, [], none, none, v⟩) v)

/-- The state after a line is answered OK in one line. -/
def Req.oked (r : Req) (payload : String) (v : State) : State := r.says payload [] v

/-- The state after a line is answered OK by a response whose last byte sets an action off (R99, R407, R408, R418). -/
def Req.thenDoes (r : Req) (payload : String) (a : EndAction) (v : State) : State :=
  settleQueue (answer r (.ok ⟨payload, [], [], some a, none, v⟩) v)

/-- The text of one assignment in a response (R78). -/
def setText (o : Obj) (name value : String) : String := objName o ++ "." ++ name ++ "=" ++ value

/-- The line at the front is SET o.name=text, one assignment, and the text reads as a value of the property (R72, R552). -/
structure SetsOne (u : State) (r : Req) (rest : List Req) (o : Obj) (name : String) (text : RawVal) (v : Value) : Prop where
  front : Front u r rest (.set [⟨⟨.ok o, name⟩, text⟩])
  reads : ∃ x, propOf o name = some x ∧ readField x.ty text.text.toList = .ok (.val v)

/-- The keywords of the modes of a link, of the modes of a port, of the standards of a cluster, of the senses of an edge, of
loop bandwidths, of the roles in time transfer, and of the forms of times. -/
def LinkMode.word : LinkMode → String | .typed => "TYPED" | .machine => "MACHINE"
def PortMode.word : PortMode → String
  | .pulse => "PULSE" | .echo => "ECHO" | .tone => "TONE" | .pattern => "PATTERN" | .stamp => "STAMP" | .gate => "GATE"
def IoStd.word : IoStd → String
  | .lvds => "LVDS" | .slvs400 => "SLVS400" | .lvcmos18 => "LVCMOS18" | .lvcmos25 => "LVCMOS25" | .lvcmos33 => "LVCMOS33"
def Sense.word : Sense → String | .rise => "RISE" | .fall => "FALL"
def RefBw.word : RefBw → String | .bw2k => "BW2K" | .bw20k => "BW20K" | .bw100k => "BW100K"
def SyncRole.word : SyncRole → String | .none => "NONE" | .leader => "LEADER" | .follower => "FOLLOWER"
def TimeFmt.word : TimeFmt → String | .human => "HUMAN" | .fs => "FS"
def switchWord (on : Bool) : String := if on then "ON" else "OFF"

/-- A task is asserted in the present fabric cycle (R71). -/
def State.asserts (v : State) (t : Fin 320) : State :=
  { v with fabric := { v.fabric with asserted := v.fabric.asserted ++ [⟨t, none, Flags.none⟩] } }

/-- The state after the line is answered with a code. -/
def Req.ered (r : Req) (code : Nat) (detail : String) (v : State) : State := settleQueue (answer r (.error (code, detail)) v)

/-- The terminator of a line has come: the partial line is taken. -/
def lineEnded (k : Link) (lf : Bool) (u : State) : State := attn (u.modLink k (LinkState.endLine lf))

/-- R118: the response that the host-link logic forms to an S line. -/
def rejection (a : Arrived) (code : Nat) : OutItem :=
  { kind := .standard, lines := Reply.text a.parts.tag a.parts.check a.computed (.er code ""), ev := none, rejection := true,
    outstanding := false, onStart := [], onEnd := none }

/-- The status byte of R107 and R108. -/
def hspiStatus (u : State) : Nat :=
  (if 4 ≤ u.unsentRejections .hspi then 128 else 0) + 16 * min u.hspi.uOut 4 + (if 8 ≤ u.hspi.sOut then 8 else 0) +
    (if u.steward.absent then 4 else 0) + (if u.hspi.urgentReady then 2 else 0) + (if u.hspi.waiting then 1 else 0)

/-- The bytes of an upload frame that carries a quarter of a block (R128, R129, R134, R139). -/
def uploadBytes (seg block quarter seq : Nat) (check : BitVec 32) (data : List Byte) : List Byte :=
  let body := [0x1C, 0x10] ++ bytesLE 2 seq ++ bytesLE 2 264 ++ bytesLE 2 0 ++ bytesLE 2 (seg + 4096 * quarter) ++
    bytesLE 2 block ++ bytesLE 4 check.toNat ++ data
  body ++ bytesLE 4 (crc32c body).toNat

/-- A group as a halt leaves it (R302, R304, R317). -/
def haltedGroup (c : HaltCause) (x : Group) : Group :=
  { x with state := .halted, cause := c, plan := [], cur := none, waiting := none, queuedStart := none, stopAt := none,
           restarts := [], markers := Vector.replicate 4 false, markNext := [], skipping := false,
           fetch := { x.fetch with done := true }, provNext := [] }

end Sys2Proof.Machine
end

