-- ==== Sys2Proof/Certificates/Slice0/Obligations.lean ====
section
/-! DEFINITION. The statements for the provers. In each of them s is the state before a command, d the ticks that pass before
it and u the state it meets; a statement names the whole next state, or its changed parts and its frame. -/

section
open Sys2Proof Sys2Proof.Machine

/-! ### The block -/

/-- With a command at the front of the queue, a step is that command's effect on the state with the rest of the queue. -/
def Obligations.StepRunsFrontCommand : Prop :=
  ∀ (c : Instr) (cs : List Instr) (s : State), step { s with pending := c :: cs } = exec c { s with pending := cs }

/-- Every command answers a next state in every state, and leaves the queue of commands as it is.
Its readings where the rules can be read otherwise: notes/assumptions/, entry 9. -/
def Obligations.EveryCommandCompletes : Prop :=
  ∀ (c : Instr) (s : State), ∃ t, exec c s = .next t ∧ t.pending = s.pending

/-- What the passing of time does (notes/assumptions/1.md, 2.md: the model's choice): nothing while the time word does not
run; otherwise, when nothing is due, the time word advances by 4000 tu a tick, and an empty queue lets one fabric cycle pass. -/
def Obligations.TimePasses : Prop :=
  (∀ (s : State) (d : Nat), s.tb.running = false ∨ d = 0 → s.elapse d = s) ∧
  (∀ (s : State) (d : Nat), s.tb.running = true → s.tb.ok → s.Calm d →
    (s.elapse d).tb.now = s.tb.now + BitVec.ofNat 64 (4000 * d) ∧ (s.elapse d).tb.phase = (s.tb.phase + d) % 4 ∧
    SameBut [.tb, .ports, .clusters, .groups, .fabric, .sp, .fifo] s (s.elapse d)) ∧
  (∀ s : State, s.pending = [] → s.tb.running = true → s.tb.ok → s.Calm 4 →
    ∃ t, step s = .next t ∧ t.tb.now = s.tb.now + 16000 ∧ t.tb.phase = s.tb.phase ∧
      SameBut [.tb, .ports, .clusters, .groups, .fabric, .sp, .fifo] s t)

/-- The reset values that the property tables and R39, R59, R388, R415, R451, R479 and R481 give. -/
def Obligations.ResetGivesDefaults : Prop :=
  let s := State.reset
  (s.tb.clkSrc = .ring ∧ s.tb.timeFmt = .human ∧ s.tb.bw = .bw20k ∧ s.tb.auto = true ∧ s.tb.holdAvg = 1000 ∧
    s.tb.snapSeq = 0 ∧ s.tb.active = none ∧ s.tb.running = false) ∧
  (∀ x : Fin 4, s.tb.refs[x].freq = 10000000 ∧ s.tb.refs[x].input = .diffAc ∧ s.tb.refs[x].compare = .ring ∧
    s.tb.refs[x].qual = .absent) ∧
  (∀ a : Fin 4, s.axes[a].cfg.mode = .free ∧ s.axes[a].cfg.source = .mark ∧ s.axes[a].cfg.period = 10000000000) ∧
  (∀ k : Fin 8, s.clusters[k].state = .off ∧ s.clusters[k].offCause = .startup ∧ s.clusters[k].epoch = 0 ∧
    s.clusters[k].iostd = .lvds ∧ s.clusters[k].drainWait = 100000000000) ∧
  (∀ p : Fin 64, s.ports[p].cfg.mode = .stamp ∧ s.ports[p].cfg.output = false ∧ s.ports[p].cfg.delay = 360000 ∧
    s.ports[p].cfg.width = 1000000 ∧ s.ports[p].cfg.retrig = .ignore ∧ s.ports[p].cfg.record = false ∧
    s.ports[p].queue = [] ∧ s.ports[p].seq = 0 ∧ s.ports[p].table = none) ∧
  (∀ n : Fin 8, s.trgs[n].input = .lvds ∧ s.trgs[n].edge = .rise) ∧
  (∀ m : Fin 16, s.mfs[m].cfg.enable = false ∧ s.mfs[m].cfg.window = 10000000 ∧ s.mfs[m].state = .idle) ∧
  (∀ t : Fin 320, s.tasks[t].subs = [] ∧ s.tasks[t].isU = false ∧ s.tasks[t].confOnly = false) ∧
  (s.store.segs = [] ∧ s.store.defWidth = 16) ∧
  (∀ g : Fin 8, s.groups[g].state = .idle ∧ s.groups[g].cfg.safe = .low ∧ s.groups[g].program = []) ∧
  (∀ n : Fin 8, s.ags[n].cfg.role = .off ∧ s.ags[n].cfg.seed = 0xFFFFFFFF#32) ∧
  (∀ h : Fin 16, s.markers[h].output = false) ∧
  (s.cal.period = 250000000000 ∧ s.cal.hold = false) ∧
  (s.con.mode = .typed ∧ s.hspi.mode = .machine ∧ s.con.evset = [(368, 383)] ∧ s.hspi.evset = []) ∧
  (s.console.baud = none ∧ s.console.rate = 0 ∧ s.console.running = false) ∧
  (s.sp.enable = false ∧ s.sp.rate = .lr3125 ∧ s.sp.txLanes = 4 ∧ s.sp.rxLanes = 2 ∧ s.sp.link = .down) ∧
  (s.fifo.bUsed = 0 ∧ s.fifo.urecs = []) ∧
  (s.bel.tempWarn = 1050 ∧ s.bel.log = [] ∧ s.bel.alert = false ∧ s.bel.logMode = .stop) ∧
  (s.sync.role = .none ∧ s.sync.state = .off ∧ s.sync.period = 10000000000) ∧
  (s.boot.cause = .poweron ∧ s.boot.keySlot = .empty ∧ s.boot.dl.size = 0) ∧
  s.pending = []

/-- The bounds of Safety.lean hold at reset. -/
def Obligations.ResetIsOk : Prop := State.reset.ok

/-- R144: the partitions of the central FIFO never hold more than their slots, and an episode lists each source once. -/
def Obligations.StepKeepsFifoBounds : Prop := ∀ s t : State, s.ok → step s = .next t → t.fifo.ok

/-- R39, R157, R160: the fabric clock comes from the PLL exactly while the timebase is locked or in holdover, a fabric cycle has
four ticks, and the time word runs only after a first lock. -/
def Obligations.StepKeepsTimebaseSound : Prop := ∀ s t : State, s.ok → step s = .next t → t.tb.ok

/-- R292, R294, R472, R432: the segments stay in rising order, share 16 384 blocks, and hold only blocks that lie in them; the
download buffer holds only bytes below its size, each offset once; Belfry's log never holds more than 64 entries.
Its readings where the rules can be read otherwise: notes/assumptions/, entry 60. -/
def Obligations.StepKeepsStoreBounds : Prop :=
  ∀ s t : State, s.ok → step s = .next t → t.store.ok ∧ t.boot.dl.ok ∧ t.bel.ok

/-- R474: no command changes a customer key slot that is programmed or spoiled, not even a power-on start. -/
def Obligations.KeyFusesProgramOnce : Prop := ∀ s t : State, s.ok → step s = .next t → fusesKept s.boot t.boot

/-! ### Command links (spec/03, spec/04) -/

/-- R102: the editing bytes of a typed-mode link that is not inside an escape sequence.
Its readings where the rules can be read otherwise: notes/assumptions/, entry 67. -/
def Obligations.TypedModeEdits : Prop :=
  ∀ (s : State) (d : Nat) (k : Link), let u := s.elapse d; let l := u.link k
    u.hears k = true → l.mode = .typed → l.esc = .none →
    let becomes (c : Instr) (part : List Char) (echo : List Byte) (prompted tooLong : Bool) : Prop :=
      exec c s = .next (attn (u.modLink k (fun l => { l with
        afterCr := false, part := part, echo := l.echo ++ echo, prompted := prompted, tooLong := tooLong })))
    (∀ b : Byte, 0x20 ≤ b.toNat → b.toNat ≤ 0x7E → l.part.length < 255 →
      becomes (.typedCharacter d k b) (l.part ++ [Char.ofNat b.toNat]) [b] true l.tooLong) ∧
    (∀ b : Byte, 0x20 ≤ b.toNat → b.toNat ≤ 0x7E → 255 ≤ l.part.length →
      becomes (.typedCharacter d k b) l.part [7] true true) ∧
    (l.part ≠ [] → becomes (.editBackspace d k) l.part.dropLast [8, 32, 8] true l.tooLong) ∧
    (l.part = [] → becomes (.editBackspace d k) [] [7] true l.tooLong) ∧
    becomes (.editCtrlU d k) [] [13, 10, 62, 32] true false ∧
    becomes (.editCtrlC d k) [] [94, 67, 13, 10, 62, 32] true false ∧
    becomes (.editCtrlR d k) l.part ([13, 10, 62, 32] ++ textBytes l.part) true l.tooLong ∧
    (l.lastLine.length ≤ 255 →
      becomes (.editRecall d k) l.lastLine ([13, 10, 62, 32] ++ textBytes l.lastLine) true false)

/-- R54, R58, R102, R103, R106: in machine mode every byte but a terminator, and on HSPI the idle fill, enters the line; none is
echoed. The terminator takes the partial line; in typed mode it is echoed as CR LF. An LF after a CR is part of the same
terminator. -/
def Obligations.LineBytesAndTerminators : Prop :=
  (∀ (s : State) (d : Nat) (k : Link) (b : Byte), let u := s.elapse d; let l := u.link k
    u.hears k = true → l.mode = .machine → b ≠ 13 → b ≠ 10 → (k = .hspi → b ≠ 0) → l.part.length < 255 →
    exec (.lineCharacter d k b) s = .next (attn (u.modLink k (fun l => { l with
      afterCr := false, part := l.part ++ [Char.ofNat b.toNat], tail := lastFive l.tail (Char.ofNat b.toNat) })))) ∧
  (∀ (s : State) (d : Nat), exec (.lineCharacter d .hspi 0) s = .next (s.elapse d)) ∧
  (∀ (k : Link) (lf : Bool) (u : State), let l := u.link k
    ((lineEnded k lf u).link k) = { l with
      part := [], tooLong := false, tail := [], afterCr := !lf, lastLine := l.part,
      echo := if l.mode = .typed then l.echo ++ [13, 10] else l.echo,
      prompted := if l.mode = .typed then false else l.prompted } ∧
    SameBut [linkPart k, .spi] u (lineEnded k lf u)) ∧
  (∀ (s : State) (d : Nat) (k : Link) (span : Nat) (corrupt : Bool), let u := s.elapse d
    u.hears k = true → (u.link k).afterCr = true →
    exec (.lineReceived d k true span corrupt) s = .next (u.modLink k (fun l => { l with afterCr := false })))

/-- R58: a blank line gets no response, and in typed mode the prompt again; a line that ran over is rejected with ER 108, be
it blank or not. (R55, R118: as a U response if it is a ! line; behind the lines of its link that wait for the steward; and not
while 4 rejection responses of its link are unsent.) -/
def Obligations.BlankLinesGetNoResponse : Prop :=
  ∀ (s : State) (d : Nat) (k : Link) (lf corrupt : Bool) (span : Nat), let u := s.elapse d; let l := u.link k
    let v := lineEnded k lf u; let a := arrivedLine k l
    u.hears k = true → u.settled → (lf && l.afterCr) = false → l.esc = .none →
    (l.tooLong = false → isBlank l.part = true → l.mode = .machine →
      exec (.lineReceived d k lf span corrupt) s = .next v) ∧
    (l.tooLong = false → isBlank l.part = true → l.mode = .typed →
      exec (.lineReceived d k lf span corrupt) s = .next (attn (v.modLink k (fun m =>
        { m with echo := m.echo ++ [62, 32], prompted := true })))) ∧
    (l.tooLong = true → 4 ≤ v.unsentRejections k → exec (.lineReceived d k lf span corrupt) s = .next v) ∧
    (l.tooLong = true → v.unsentRejections k < 4 →
      (a.urgent = true → exec (.lineReceived d k lf span corrupt) s =
        .next (putOut k { rejection a 108 with kind := .urgent } v)) ∧
      (a.urgent = false → (∀ r ∈ u.steward.queue, r.link ≠ k) → exec (.lineReceived d k lf span corrupt) s =
        .next (attn (v.modLink k (fun m => { m with standardQ := m.standardQ ++ [rejection a 108] })))) ∧
      (a.urgent = false → (∃ r ∈ u.steward.queue, r.link = k) → ∃ r, r.link = k ∧ r.parsed = .bad ⟨108, 0⟩ ∧
        exec (.lineReceived d k lf span corrupt) s =
          .next { v with steward := { v.steward with queue := u.steward.queue ++ [r] } }))

/-- R90, R91, R93, R118: an S line that passes the tests of the host-link logic goes to the end of the steward's queue and is
outstanding; while the steward is absent it is rejected with ER 503, and the ninth one outstanding with ER 506. A rejection
response is not formed while 4 of its link are unsent; it leaves after the responses to the lines received before it on its link.
Its readings where the rules can be read otherwise: notes/assumptions/, entry 69. -/
def Obligations.StandardLinesReachSteward : Prop :=
  (∀ (s : State) (d : Nat) (k : Link) (lf : Bool) (span : Nat), let u := s.elapse d; let l := u.link k
    let a := arrivedLine k l; let v := lineEnded k lf u
    u.hears k = true → u.settled → u.boot.step ≠ .download → (lf && l.afterCr) = false → l.esc = .none →
    isBlank l.part = false → a.test = none → a.parts.urgent = false →
    (u.stewardHere = true → l.sOut < 8 →
      let r : Req := { link := k, tag := a.parts.tag, check := a.parts.check, computed := lineCheck a.parts.body,
                       recv := if u.tb.running then some u.tb.now else none, frames := u.recvNow.frames,
                       busy := u.bel.entering,
                       parsed := match parseCommand a.parts.body a.parts.cursor with | .error e => .bad e | .ok p => .good p }
      let w := v.modLink k (fun m => { m with sOut := m.sOut + 1 })
      exec (.lineReceived d k lf span false) s =
        .next (settleQueue { w with steward := { w.steward with queue := w.steward.queue ++ [r] } })) ∧
    (u.stewardHere = false → exec (.lineReceived d k lf span false) s = .next (rejectStandard a 503 v)) ∧
    (u.stewardHere = true → 8 ≤ l.sOut → exec (.lineReceived d k lf span false) s = .next (rejectStandard a 506 v))) ∧
  (∀ (a : Arrived) (code : Nat) (v : State), isRejection code = true →
    (4 ≤ v.unsentRejections a.link → rejectStandard a code v = v) ∧
    (v.unsentRejections a.link < 4 → (∀ r ∈ v.steward.queue, r.link ≠ a.link) →
      rejectStandard a code v =
        attn (v.modLink a.link (fun m => { m with standardQ := m.standardQ ++ [rejection a code] }))) ∧
    (v.unsentRejections a.link < 4 → (∃ r ∈ v.steward.queue, r.link = a.link) →
      ∃ r, r.link = a.link ∧ r.parsed = .bad ⟨code, 0⟩ ∧
        rejectStandard a code v = { v with steward := { v.steward with queue := v.steward.queue ++ [r] } }))

/-- R98 to R101: a framing error and a break discard the partial line; a console whose rate is AUTO then hunts; a break returns
the link to typed mode. A hunting console runs at the rate that a CR measures.
Its readings where the rules can be read otherwise: notes/assumptions/, entry 71. -/
def Obligations.ConsoleHuntsAndRuns : Prop :=
  (∀ (s : State) (d : Nat), let u := s.elapse d
    let l := { u.con with part := [], tooLong := false, tail := [], esc := .none, afterCr := false }
    u.hears .con = true →
    (u.console.baud = none →
      exec (.conFramingError d) s = .next { u with con := l, console := { u.console with running := false, rate := 0 } }) ∧
    (u.console.baud ≠ none → exec (.conFramingError d) s = .next { u with con := l })) ∧
  (∀ (s : State) (d : Nat), let u := s.elapse d
    let l := { u.con with part := [], tooLong := false, tail := [], esc := .none, afterCr := false, mode := .typed }
    u.linksLive = true →
    (u.console.baud = none →
      exec (.conBreak d) s = .next { u with con := l, console := { u.console with running := false, rate := 0 } }) ∧
    (u.console.baud ≠ none → exec (.conBreak d) s = .next { u with con := l })) ∧
  (∀ (s : State) (d cycles : Nat), let u := s.elapse d
    let c := { u.console with running := true, rate := (divEven 1800000000 cycles).toNat }
    u.linksLive = true → u.console.running = false → u.console.baud = none → 9600 * cycles ≤ 1800000000 →
    1800000000 ≤ 3000000 * cycles →
    (u.con.mode = .machine → exec (.autobaudCharacter d cycles true) s = .next { u with console := c }) ∧
    (u.con.mode = .typed → u.boot.step = .running → u.boot.bannerDone = true →
      exec (.autobaudCharacter d cycles true) s = .next { u with
        console := c, con := { u.con with echo := u.con.echo ++ [62, 32] ++ textBytes u.con.part, prompted := true } }) ∧
    (u.con.mode = .typed → u.boot.step = .running → u.boot.bannerDone = false →
      exec (.autobaudCharacter d cycles true) s = .next { u with
        console := c, boot := { u.boot with bannerDone := true },
        con := { u.con with
          echo := u.con.echo ++ (bannerLines u.boot).flatMap (lineBytes .con) ++ [62, 32] ++ textBytes u.con.part,
          prompted := true } }))

/-- R100: a framing error discards the partial line, which gets no response. -/
def Obligations.FramingErrorDropsLine : Prop :=
  ∀ (s : State) (d : Nat), let u := s.elapse d
    u.hears .con = true →
    ∃ t, exec (.conFramingError d) s = .next t ∧ t.con.part = [] ∧ t.con.tooLong = false ∧
      t.con.urgentQ = u.con.urgentQ ∧ t.con.standardQ = u.con.standardQ ∧ t.con.echo = u.con.echo ∧
      t.con.current = u.con.current ∧ t.steward = u.steward ∧ t.hspi = u.hspi

/-- R90, R91, R104, R107, R108, R114: a transfer of the host SPI port begins at the falling edge of HSPI_CS#, with the clock
mode that SCLK shows and the status byte of that edge; it ends at the rising edge. An output byte leaves: the status byte is
the first of a transfer; of two responses that wait the urgent one starts; the first byte of a response ends its line's
outstanding state.
Its readings where the rules can be read otherwise: notes/assumptions/, entry 70. -/
def Obligations.OutputBytesLeaveInOrder : Prop :=
  (∀ (s : State) (d : Nat) (high : Bool), let u := s.elapse d
    u.bel.off = false → u.boot.resetLow = false → u.spi.selected = false → u.boot.step = .running →
    exec (.hspiCsFall d high) s = .next { u with spi := { u.spi with
      mode3 := high, selected := true, statusLeft := false, status := BitVec.ofNat 8 (hspiStatus u) } }) ∧
  (∀ (s : State) (d : Nat), let u := s.elapse d
    let ended (v : State) : State := { v with spi := { v.spi with selected := false, statusLeft := false } }
    exec (.hspiCsRise ⟨d, false⟩) s = .next (ended u) ∧
    (u.spi.selected = false ∨ u.spi.statusLeft = false → exec (.hspiCsRise ⟨d, true⟩) s = .next (ended u)) ∧
    (u.spi.selected = true → u.spi.statusLeft = true → u.hspi.leaving = [] → u.hspi.echo = [] →
      ∀ (x : OutItem) (xs : List OutItem) (line : String), x.lines = [line] → x.ev = none → u.hspi.mode = .machine →
        let going := { u.hspi with
          leaving := textBytes line.toList ++ [10], started := false, prompted := false,
          current := some { x with lines := [] } }
        (u.hspi.urgentQ = x :: xs →
          exec (.hspiCsRise ⟨d, true⟩) s = .next (ended { u with hspi := { going with urgentQ := xs } })) ∧
        (u.hspi.urgentQ = [] → u.hspi.paused = none → u.hspi.standardQ = x :: xs →
          exec (.hspiCsRise ⟨d, true⟩) s = .next (ended { u with hspi := { going with standardQ := xs } })))) ∧
  (∀ (s : State) (d : Nat), let u := s.elapse d
    u.spi.selected = true → u.spi.statusLeft = false →
    exec (.outputByteSent d .hspi) s = .next { u with spi := { u.spi with statusLeft := true } }) ∧
  (∀ (s : State) (d : Nat) (b : Byte) (bs : List Byte), let u := s.elapse d
    u.linksLive = true → u.console.running = true → u.con.leaving = b :: bs → u.con.current = none →
    exec (.outputByteSent d .con) s = .next (attn { u with con := { u.con with leaving := bs } })) ∧
  (∀ (s : State) (d : Nat) (x : OutItem) (xs : List OutItem) (line : String), let u := s.elapse d
    let bytes := (if u.con.mode = .typed ∧ u.con.prompted = true then [13, 10] else []) ++ textBytes line.toList ++ [13, 10]
    let going := { u.con with
      leaving := bytes.tail, started := true, prompted := false, current := some { x with lines := [], ev := none } }
    u.linksLive = true → u.console.running = true → u.con.leaving = [] → u.con.echo = [] → x.lines = [line] → x.ev = none →
    x.outstanding = true → x.onStart = [] →
    (x.kind = .urgent → u.con.urgentQ = x :: xs →
      exec (.outputByteSent d .con) s = .next (attn { u with con := { going with urgentQ := xs, uOut := u.con.uOut - 1 } })) ∧
    (x.kind = .standard → u.con.urgentQ = [] → u.con.paused = none → u.con.standardQ = x :: xs →
      exec (.outputByteSent d .con) s =
        .next (attn { u with con := { going with standardQ := xs, sOut := u.con.sOut - 1 } })))

/-! ### Lines that the steward executes (spec/03) -/

/-- R79, R81, R90, R91: how a line is answered. The response joins the output of the line's link, HSPI_ATTN# follows what waits
there, and nothing else changes; lines behind it are answered at once only if they are already decided. -/
def Obligations.AnswersJoinOutput : Prop :=
  (∀ (r : Req) (payload : String) (lines : List String) (v : State), v.settled →
    r.says payload lines v = attn (v.modLink r.link (fun l => { l with standardQ := l.standardQ ++ [{
      kind := .standard, lines := Reply.text r.tag r.check r.computed (.ok payload lines), ev := none, rejection := false,
      outstanding := true, onStart := [], onEnd := none }] }))) ∧
  (∀ (r : Req) (code : Nat) (detail : String) (v : State), v.settled →
    r.ered code detail v = attn (v.modLink r.link (fun l => { l with standardQ := l.standardQ ++ [{
      kind := .standard, lines := Reply.text r.tag r.check r.computed (.er code detail), ev := none, rejection := false,
      outstanding := true, onStart := [], onEnd := none }] }))) ∧
  (∀ v : State, SameBut [.con, .hspi, .spi, .steward] v (settleQueue v) ∧ (v.settled → settleQueue v = v) ∧
    ∃ done, v.steward.queue = done ++ (settleQueue v).steward.queue ∧ ∀ r ∈ done, ∃ e, r.parsed = .bad e)

/-- R70, R71, R279: FIRE, ARM, DISARM, HALT, STEP, MARK, START and ABORT assert their task once in the present fabric cycle. A
port's cluster is ACTIVE. -/
def Obligations.VerbsAssertTasks : Prop :=
  ∀ (s : State) (d : Nat) (r : Req) (rest : List Req), let u := s.elapse d; let v := u.took rest
    (∀ p : Fin 64, v.clusters[clusterOf p].state = .active →
      (Front u r rest (.fire (.ok (.port p))) →
        exec (.fire d false) s = .next (r.oked ("FIRE " ++ objName (.port p)) (v.asserts ⟨4 * p.val, by omega⟩))) ∧
      (Front u r rest (.arm (.ok (.port p))) →
        exec (.arm d false) s = .next (r.oked ("ARM " ++ objName (.port p)) (v.asserts ⟨4 * p.val + 1, by omega⟩))) ∧
      (Front u r rest (.disarm (.ok (.port p))) →
        exec (.disarm d false) s = .next (r.oked ("DISARM " ++ objName (.port p)) (v.asserts ⟨4 * p.val + 2, by omega⟩)))) ∧
    (∀ t : Fin 320, 256 ≤ t.val → Front u r rest (.fire (.ok (.tk t))) →
      exec (.fire d false) s = .next (r.oked ("FIRE " ++ objName (.tk t)) (v.asserts t))) ∧
    (∀ g : Fin 8, (Front u r rest (.start (.ok (.grp g))) →
        exec (.start d false) s = .next (r.oked ("START " ++ objName (.grp g)) (v.asserts ⟨256 + 3 * g.val, by omega⟩))) ∧
      (Front u r rest (.step (.ok (.grp g))) →
        exec (.step d false) s = .next (r.oked ("STEP " ++ objName (.grp g)) (v.asserts ⟨257 + 3 * g.val, by omega⟩))) ∧
      (Front u r rest (.halt (some (.ok (.grp g)))) →
        exec (.halt d false) s = .next (r.oked ("HALT " ++ objName (.grp g)) (v.asserts ⟨258 + 3 * g.val, by omega⟩)))) ∧
    (Front u r rest (.halt none) →
      exec (.halt d false) s = .next (r.oked "HALT ALL" { v with fabric := { v.fabric with
        asserted := v.fabric.asserted ++ (List.finRange 8).map (fun g => ⟨⟨258 + 3 * g.val, by omega⟩, none, Flags.none⟩) } })) ∧
    (∀ m : Fin 16, (Front u r rest (.start (.ok (.mf m))) →
        exec (.start d false) s = .next (r.oked ("START " ++ objName (.mf m)) (v.asserts ⟨280 + 2 * m.val, by omega⟩))) ∧
      (Front u r rest (.abort (.ok (.mf m))) →
        exec (.abort d false) s = .next (r.oked ("ABORT " ++ objName (.mf m)) (v.asserts ⟨281 + 2 * m.val, by omega⟩)))) ∧
    (∀ a : Fin 4, Front u r rest (.mark (.ok (.ax a))) →
      exec (.mark d false) s = .next (r.oked ("MARK " ++ objName (.ax a)) (v.asserts ⟨312 + a.val, by omega⟩)))

/-- R394: FIRE, ARM, DISARM and SCHED to a port whose cluster is DRAINING, OFF, in QUARANTINE or JOINING are rejected with 412,
410, 410 and 431, CANCEL with 410 and 431 where the table says so, the port named; nothing else changes. -/
def Obligations.PortLinesMeetClusterState : Prop :=
  let work : ClState → Option Nat
    | .active => none | .draining => some 412 | .off => some 410 | .quarantine => some 410 | .joining => some 431
  let cancel : ClState → Option Nat
    | .active => none | .draining => none | .off => some 410 | .quarantine => some 410 | .joining => some 431
  ∀ (s : State) (d : Nat) (r : Req) (rest : List Req) (p : Fin 64) (code : Nat), let u := s.elapse d; let v := u.took rest
    (work v.clusters[clusterOf p].state = some code →
      (Front u r rest (.fire (.ok (.port p))) → exec (.fire d false) s = .next (r.ered code (objName (.port p)) v)) ∧
      (Front u r rest (.arm (.ok (.port p))) → exec (.arm d false) s = .next (r.ered code (objName (.port p)) v)) ∧
      (Front u r rest (.disarm (.ok (.port p))) → exec (.disarm d false) s = .next (r.ered code (objName (.port p)) v)) ∧
      (∀ cl kv, Front u r rest (.sched (.ok (.port p)) cl kv) → schedSyn v (.ok (.port p)) cl kv = none →
        exec (.sched d false) s = .next (r.ered code (objName (.port p)) v))) ∧
    (cancel v.clusters[clusterOf p].state = some code → Front u r rest (.cancel (.ok (.port p)) none) →
      exec (.cancel d false) s = .next (r.ered code (objName (.port p)) v))

/-- R408: an uncorrectable error in an object-store word that a line reads ends the line with ER 511 and restarts the steward
at once, with cause STOREFAULT; the count of store faults rises by 1. Named rows stand for all that the steward executes. -/
def Obligations.StoreFaultRestartsSteward : Prop :=
  ∀ (s : State) (d : Nat) (r : Req) (rest : List Req), let u := s.elapse d; let v := u.took rest
    let w := answer r (.error (511, "")) v
    let t := stewardLeaves .storefault { w with steward := { w.steward with storeFaults := w.steward.storeFaults + 1 } }
    (∀ o, Front u r rest (.fire o) → exec (.fire d true) s = .next t) ∧
    (∀ ps, Front u r rest (.get ps) → exec (.get d true) s = .next t) ∧
    (Front u r rest .sysVersion → exec (.sysVersion d true) s = .next t) ∧
    (Front u r rest .belClear → exec (.belClear d true) s = .next t) ∧
    t.steward.absent = true ∧ t.steward.queue = [] ∧ t.steward.cause = .storefault ∧
    t.steward.storeFaults = u.steward.storeFaults + 1 ∧ t.steward.restarts = u.steward.restarts + 1

/-- R70, R78, R81: GET, SHOW, LIST and HELP answer what they name. -/
def Obligations.ReadsAnswerWhatTheyName : Prop :=
  ∀ (s : State) (d : Nat) (r : Req) (rest : List Req), let u := s.elapse d; let v := u.took rest
    (∀ (ps : List PathRef) (xs : List (Obj × PropSpec)), Front u r rest (.get ps) →
      ps.mapM (fun p => pathTest v p false) = .ok xs →
      exec (.get d false) s = .next (r.oked (String.intercalate " " (xs.map (fun x =>
        objName x.1 ++ "." ++ x.2.name ++ "=" ++ fmtValue v.tb.timeFmt (x.2.get v)))) v)) ∧
    (∀ o : Obj, Front u r rest (.showObject (.ok o)) → segTest v o = .ok () → addressTest v o false = .ok () →
      v.tb.clkSrc = .pll →
      let ps := propsOf o ++ [digestProp o]
      exec (.showObject d false) s = .next (r.says ("SHOW " ++ objName o ++ " LINES=" ++ dec ps.length)
        (ps.map (fun x => objName o ++ "." ++ x.name ++ "=" ++ fmtValue v.tb.timeFmt (x.get v))) v)) ∧
    (Front u r rest (.list none) →
      exec (.list d false) s = .next (r.says ("LIST LINES=" ++ dec (children none).length) ((children none).map objName) v)) ∧
    (∀ topic, Front u r rest (.help (some topic)) →
      exec (.help d false) s = .next (r.says ("HELP " ++ topic ++ " LINES=" ++ dec (Config.helpText (some topic)).length)
        (Config.helpText (some topic)) v))

/-- Lines that only read: whatever they are answered, they change no more than the output of the links and the steward's
queue. -/
def Obligations.ReadingLinesChangeNothing : Prop :=
  ∀ (s t : State) (d : Nat) (c : Instr),
    c ∈ [Instr.get d false, .showObject d false, .list d false, .help d false, .sysFeatures d false, .sysVersion d false,
      .calExport d false, .belLog d false] →
    exec c s = .next t → SameBut [.con, .hspi, .spi, .steward] (s.elapse d) t

/-- R44, R82 to R84: SNAPSHOT latches every moving value on the present tick and numbers it. -/
def Obligations.SnapshotLatchesOneTick : Prop :=
  ∀ (s : State) (d : Nat) (r : Req) (rest : List Req), let u := s.elapse d; let v := u.took rest
    Front u r rest .snapshot → v.tb.clkSrc = .pll →
    ∃ w : State, exec (.snapshot d false) s = .next (r.oked ("SNAPSHOT SYS.SNAPSEQ=" ++ dec (v.tb.snapSeq + 1).toNat ++
        " SYS.SNAPTIME=" ++ fmtTime v.tb.timeFmt v.tb.now.toNat) w) ∧
      w.tb = { v.tb with snapTime := v.tb.now, snapSeq := v.tb.snapSeq + 1 } ∧
      (∀ p : Fin 64, w.ports[p] = { v.ports[p] with latched := v.ports[p].counts }) ∧
      (∀ t : Fin 320, w.tasks[t] = { v.tasks[t] with
        latchedCollide := v.tasks[t].collide, latchedDrops := v.tasks[t].drops }) ∧
      (∀ a : Fin 4, w.axes[a] = { v.axes[a] with latched := v.axes[a].snap v.tb.now }) ∧
      (∀ m : Fin 16, w.mfs[m] = { v.mfs[m] with latchedStats := v.mfs[m].stats, latchedEarly := v.mfs[m].early }) ∧
      (∀ n : Fin 8, w.ags[n] = { v.ags[n] with latchedBits := v.ags[n].bits, latchedErrors := v.ags[n].errors }) ∧
      w.sp = { v.sp with latchedFrames := v.sp.frames } ∧
      SameBut [.tb, .ports, .tasks, .axes, .mfs, .ags, .sp] v w

/-- R95: while SYS.CLKSRC reads RING, SNAPSHOT, SCHED, and CANCEL with a target are rejected with ER 402 and have no effect. -/
def Obligations.RingClockForbidsTimes : Prop :=
  ∀ (s : State) (d : Nat) (r : Req) (rest : List Req) (p : Fin 64), let u := s.elapse d; let v := u.took rest
    v.tb.clkSrc = .ring → v.clusters[clusterOf p].state = .active →
    (Front u r rest .snapshot → exec (.snapshot d false) s = .next (r.ered 402 "" v)) ∧
    (∀ cl kv, Front u r rest (.sched (.ok (.port p)) cl kv) → schedSyn v (.ok (.port p)) cl kv = none →
      exec (.sched d false) s = .next (r.ered 402 "" v)) ∧
    (∀ x, Front u r rest (.cancel (.ok (.port p)) (some x)) → cancelSyn v (.ok (.port p)) (some x) = none →
      exec (.cancel d false) s = .next (r.ered 402 "" v))

/-! ### Scheduling (spec/03, spec/08) -/

/-- R17, R73, R74, R219, R221, R223: SCHED of one pulse at a time word: a PULSE or ECHO port of an ACTIVE cluster, a target at
least 250 ns and at most 2^62 tu ahead, room in the queue, no conflict with a pulse of it or with a calibration window.
A target too near is rejected with ER 305, one too far with ER 301, a port of another mode with ER 406, a full queue with ER
501; nothing is queued then. CANCEL port ALL removes the scheduled pulses that have not left and are not committed, and
reports how many.
Its readings where the rules can be read otherwise: notes/assumptions/, entries 29, 65. -/
def Obligations.SchedAndCancelLines : Prop :=
  (∀ (s : State) (d : Nat) (r : Req) (rest : List Req) (p : Fin 64) (text : RawVal) (i : Int), let u := s.elapse d
    let v := u.took rest; let q := v.ports[p]; let w : TimeWord := BitVec.ofInt 64 i; let trail := tadd w q.cfg.width
    Front u r rest (.sched (.ok (.port p)) ⟨false, text⟩ []) →
    readField atField text.text.toList = .ok (.val (.one (.time i))) →
    v.clusters[clusterOf p].state = .active → v.tb.clkSrc = .pll → (q.cfg.mode = .pulse ∨ q.cfg.mode = .echo) →
    2500000 ≤ tdiff w v.tb.now → tdiff w v.tb.now ≤ 2 ^ 62 → q.queue.length < 64 →
    (∀ y ∈ q.queue, y.conflicts (gapOf q.cfg.mode) w trail = false) → v.intrudes p w trail = none →
    exec (.sched d false) s = .next (r.oked ("SCHED " ++ objName (.port p) ++ " AT " ++ fmtTime v.tb.timeFmt w.toNat)
      { v with ports := v.ports.set p { q with queue := q.queue ++ [{
        origin := .schedTime w, lead := some w, width := q.cfg.width, trail := trail, committed := false, high := false,
        moved := false, late := none, flags := Flags.none, dtc := none, dtcTrail := none }] } })) ∧
  (∀ (s : State) (d : Nat) (r : Req) (rest : List Req) (p : Fin 64) (text : RawVal) (i : Int), let u := s.elapse d
    let v := u.took rest; let q := v.ports[p]; let w : TimeWord := BitVec.ofInt 64 i; let name := objName (.port p)
    Front u r rest (.sched (.ok (.port p)) ⟨false, text⟩ []) →
    readField atField text.text.toList = .ok (.val (.one (.time i))) →
    v.clusters[clusterOf p].state = .active → v.tb.clkSrc = .pll →
    ((q.cfg.mode ≠ .pulse ∧ q.cfg.mode ≠ .echo) → exec (.sched d false) s = .next (r.ered 406 name v)) ∧
    ((q.cfg.mode = .pulse ∨ q.cfg.mode = .echo) →
      (tdiff w v.tb.now < 2500000 → exec (.sched d false) s = .next (r.ered 305 "" v)) ∧
      (2 ^ 62 < tdiff w v.tb.now → exec (.sched d false) s = .next (r.ered 301 "" v)) ∧
      (2500000 ≤ tdiff w v.tb.now → tdiff w v.tb.now ≤ 2 ^ 62 → 64 ≤ q.queue.length →
        exec (.sched d false) s = .next (r.ered 501 name v)))) ∧
  (∀ (s : State) (d : Nat) (r : Req) (rest : List Req) (p : Fin 64), let u := s.elapse d; let v := u.took rest
    let q := v.ports[p]
    let goes (x : Pulse) : Bool :=
      (match x.origin with | .schedTime _ | .schedAxis .. => true | _ => false) && !x.high && !x.isCommitted v.cycle
    Front u r rest (.cancel (.ok (.port p)) none) →
    (v.clusters[clusterOf p].state = .active ∨ v.clusters[clusterOf p].state = .draining) →
    (q.cfg.mode = .pulse ∨ q.cfg.mode = .echo) →
    exec (.cancel d false) s = .next (r.oked ("CANCEL " ++ objName (.port p) ++ " ALL N=" ++ dec (q.queue.filter goes).length)
      { v with ports := v.ports.set p { q with queue := q.queue.filter (fun x => !goes x) } }))

/-! ### Clusters, programs, segments and the device (spec/11, spec/13, spec/15, spec/16, spec/18) -/

/-- R389, R391, R392, R398, R404: the cluster lines act, and what state the cluster takes.
Its readings where the rules can be read otherwise: notes/assumptions/, entry 51. -/
def Obligations.ClusterLinesTakeEffect : Prop :=
  ∀ (s : State) (d : Nat) (r : Req) (rest : List Req) (k : Fin 8), let u := s.elapse d; let v := u.took rest
    let c := v.clusters[k]; let name := objName (.cl k)
    (∀ x, Front u r rest (.drain (.ok (.cl k)) x) → c.state = .active →
      ∃ w, exec (.drain d false) s = .next (r.oked ("DRAIN " ++ name ++ (if x then " DISCARD" else "")) w) ∧
        w.clusters[k].state = .draining ∧ ∀ j : Fin 8, j ≠ k → w.clusters[j] = v.clusters[j]) ∧
    (Front u r rest (.powerOff (.ok (.cl k))) → (c.state = .off ∨ c.state = .quarantine ∨ c.state = .joining) →
      ∃ w, exec (.powerOff d false) s = .next (r.oked ("POWER " ++ name ++ " OFF") w) ∧ w.clusters[k].state = .off ∧
        w.clusters[k].powered = false ∧ w.clusters[k].vddio = .none ∧ w.clusters[k].joinAt = none ∧
        w.clusters[k].offCause = (if c.state = .off then c.offCause else .command) ∧
        ∀ p : Fin 64, clusterOf p = k → w.ports[p].table = none) ∧
    (Front u r rest (.powerOn (.ok (.cl k))) → c.state = .off →
      ∃ w, exec (.powerOn d false) s = .next (r.oked ("POWER " ++ name ++ " ON") w) ∧ w.clusters[k].state = .quarantine ∧
        w.clusters[k].phase = (if c.powered then .calibrate else .powerup) ∧ w.clusters[k].powered = true) ∧
    (Front u r rest (.powerOn (.ok (.cl k))) → c.state ≠ .off →
      exec (.powerOn d false) s = .next (r.oked ("POWER " ++ name ++ " ON") v)) ∧
    (Front u r rest (.join (.ok (.cl k)) none) → (c.state = .off ∨ (c.state = .quarantine ∧ c.phase ≠ .waitjoin)) →
      exec (.join d false) s = .next (r.oked ("JOIN " ++ name ++ " NEXT")
        { v with clusters := v.clusters.set k { c with joinAt := some .next } })) ∧
    (Front u r rest (.join (.ok (.cl k)) none) → c.state = .quarantine → c.phase = .waitjoin →
      ∃ w, exec (.join d false) s = .next (r.oked ("JOIN " ++ name ++ " NEXT") w) ∧ w.clusters[k].state = .joining ∧
        w.clusters[k].joinAt = some .next) ∧
    (Front u r rest (.clusterReset k) →
      ∃ w, exec (.clusterReset d false) s = .next (r.oked (name ++ " RESET") w) ∧
        w.clusters[k].state = (if c.state = .off then .off else .quarantine) ∧
        (c.state ≠ .off → w.clusters[k].phase = .calibrate) ∧ w.clusters[k].iostd = .lvds ∧
        w.clusters[k].vddio = (if c.state = .off then .none else c.bank) ∧
        w.clusters[k].epoch = c.epoch ∧ w.clusters[k].joinAxis = c.joinAxis ∧ w.clusters[k].joinAt = c.joinAt ∧
        (∀ p : Fin 64, clusterOf p = k → w.ports[p].queue = [] ∧ w.ports[p].seq = 0 ∧ w.ports[p].cfg = PortCfg.default))

/-- R294, R305: PROG writes one index, PROG CLEAR empties the program, SEG FREE releases the blocks of a segment. -/
def Obligations.ProgramsAndSegmentsAreWritten : Prop :=
  ∀ (s : State) (d : Nat) (r : Req) (rest : List Req), let u := s.elapse d; let v := u.took rest
    (∀ (g : Fin 8) (ix tx : RawVal) (i : Nat) (x : SpireInstr), let y := v.groups[g]
      Front u r rest (.prog (.ok (.grp g)) ix tx) → readInteger false ix.text.toList = .ok (i : Int) → i ≤ 255 →
      readProgText v tx = .ok x → (v.tb.clkSrc = .pll ∨ x.timed = false) → (y.state = .idle ∨ y.state = .halted) →
      y.queuedStart = none →
      exec (.prog d false) s = .next (r.oked ("PROG " ++ objName (.grp g) ++ " " ++ dec i ++ " " ++ x.text v.tb.timeFmt)
        { v with groups := v.groups.set g { y with program := putInstr i x y.program } })) ∧
    (∀ g : Fin 8, let y := v.groups[g]
      Front u r rest (.progClear (.ok (.grp g))) → (y.state = .idle ∨ y.state = .halted) → y.queuedStart = none →
      exec (.progClear d false) s = .next (r.oked ("PROG " ++ objName (.grp g) ++ " CLEAR")
        { v with groups := v.groups.set g { y with program := [], state := .idle } })) ∧
    (∀ n : Fin 4096, Front u r rest (.segFree (.ok (.segn n))) → v.store.find n ≠ none → v.segActive n = false →
      exec (.segFree d false) s = .next (r.oked ("SEG FREE " ++ objName (.segn n))
        { v with store := { v.store with segs := v.store.segs.filter (fun x => decide (x.id ≠ n)) } }))

/-- R292: SEG DEFINE defines a segment of L samples in the width of SEG.DEFWIDTH, which takes ceil(L W / 2048) of the 16 384
blocks; or it is rejected, with the codes of the rule in their order. -/
def Obligations.SegDefineTakesBlocks : Prop :=
  ∀ (s : State) (d : Nat) (r : Req) (rest : List Req) (n : Fin 4096) (len : RawVal) (l : Nat), let u := s.elapse d
    let v := u.took rest; let name := objName (.segn n); let b := (l * v.store.defWidth + 2047) / 2048
    let used := (v.store.segs.map Segment.blocks).sum
    Front u r rest (.segDefine (.ok (.segn n)) len) → readField lengthField len.text.toList = .ok (.val (.one (.int l))) →
    (l % 128 ≠ 0 → exec (.segDefine d false) s = .next (r.ered 307 name v)) ∧
    (l % 128 = 0 → (l < 1024 ∨ 33554432 < l * v.store.defWidth) →
      exec (.segDefine d false) s = .next (r.ered 301 name v)) ∧
    (l % 128 = 0 → 1024 ≤ l → l * v.store.defWidth ≤ 33554432 →
      (v.store.find n ≠ none → exec (.segDefine d false) s = .next (r.ered 304 name v)) ∧
      (v.store.find n = none → 16384 < used + b → v.store.ok →
        exec (.segDefine d false) s = .next (r.ered 504 name v)) ∧
      (v.store.find n = none → used + b ≤ 16384 →
        exec (.segDefine d false) s = .next (r.oked ("SEG DEFINE " ++ name ++ " LENGTH=" ++ dec l)
          { v with store := { v.store with segs := putSegment ⟨n, l, v.store.defWidth, []⟩ v.store.segs } })))

/-- R407, R408, R417, R487, R490, R492: the lines that act on the whole device. What they arrange begins later, when the last
byte of their OK has left.
Its readings where the rules can be read otherwise: notes/assumptions/, entry 77. -/
def Obligations.DeviceLinesArrangeActions : Prop :=
  ∀ (s : State) (d : Nat) (r : Req) (rest : List Req), let u := s.elapse d; let v := u.took rest
    let now : Order := ⟨if v.tb.running then some v.tb.now else none, false⟩
    (Front u r rest .sysReset → exec (.sysReset d false) s = .next (r.thenDoes "SYS RESET" .hardwareReset
      { v with boot := { v.boot with resetOrder := some (v.boot.resetOrder.getD now) } })) ∧
    (Front u r rest .sysRestart → v.steward.ordered = none →
      exec (.sysRestart d false) s = .next (r.thenDoes "SYS RESTART" .restart
        { v with steward := { v.steward with ordered := some (.command, now) } })) ∧
    (∀ n x, Front u r rest .sysUpdate → v.boot.stageSeg = some n → v.store.find n = some x → v.steward.ordered = none →
      let image := stagedImage v.boot x
      exec (.sysUpdate d false) s = .next (if image.1 = .none then r.thenDoes "SYS UPDATE" .restart
        { v with boot := { v.boot with nextImage := some (imageOf image.2) },
                 steward := { v.steward with ordered := some (.update, now) } }
        else r.ered 509 "" { v with boot := { v.boot with imageFault := image.1 } })) ∧
    (Front u r rest .sysSleep → (∀ k : Fin 8, v.clusters[k].state = .off) →
      (∀ g : Fin 8, v.groups[g].state = .idle ∨ v.groups[g].state = .halted) →
      (∀ a : Fin 4, v.bel.axis = some a → let x := v.axes[a]
        x.state = .confirmed ∧ x.cfg.mode = .frame ∧ (∀ p, x.cfg.source ≠ .port p) ∧ x.cfg.source ≠ .mark ∧
          200000000 ≤ x.cfg.period ∧ x.cfg.period ≤ 10000000000000) → v.bel.step = .awake →
      exec (.sysSleep d false) s = .next (r.thenDoes "SYS SLEEP" .sleep
        { v with bel := { v.bel with step := .accepted now.ready now.left } })) ∧
    (Front u r rest .sysVersion → exec (.sysVersion d false) s = .next (r.oked ("SYS VERSION IMAGE=" ++
      versionText v.boot.image.version ++ " STEPPING=" ++ steppingLetter ++ " ROM=" ++ dec Config.romRevision) v)) ∧
    (Front u r rest .sysFeatures → v.boot.image.features = 0 → exec (.sysFeatures d false) s = .next (r.oked
      ("SYS FEATURES LEVEL=" ++ dec v.boot.image.level ++ " FLAGS=" ++ "NONE") v))

/-- R417: the cases in which SYS SLEEP is rejected, and SLEEP is not entered; the detail names the first object that fails,
clusters first, then groups, then the axis (whose conditions are those of R435). -/
def Obligations.SleepIsRejected : Prop :=
  ∀ (s : State) (d : Nat) (r : Req) (rest : List Req), let u := s.elapse d; let v := u.took rest
    let works (g : Fin 8) : Prop := v.groups[g].state = .running ∨ v.groups[g].state = .waiting
    Front u r rest .sysSleep →
    (∀ k : Fin 8, v.clusters[k].state ≠ .off → (∀ j : Fin 8, j < k → v.clusters[j].state = .off) →
      exec (.sysSleep d false) s = .next (r.ered 408 (objName (.cl k)) v)) ∧
    ((∀ k : Fin 8, v.clusters[k].state = .off) →
      (∀ g : Fin 8, works g → (∀ h : Fin 8, h < g → ¬ works h) →
        exec (.sysSleep d false) s = .next (r.ered 408 (objName (.grp g)) v)) ∧
      ((∀ g : Fin 8, ¬ works g) → ∀ a : Fin 4, v.bel.axis = some a → let x := v.axes[a]
        (x.state ≠ .confirmed → exec (.sysSleep d false) s = .next (r.ered 403 (objName (.ax a)) v)) ∧
        (x.state = .confirmed → (x.cfg.mode ≠ .frame ∨ (∃ p, x.cfg.source = .port p) ∨ x.cfg.source = .mark ∨
            x.cfg.period < 200000000 ∨ 10000000000000 < x.cfg.period) →
          exec (.sysSleep d false) s = .next (r.ered 304 (objName (.ax a)) v))))

/-- R359, R361, R433, R434: the calibration image and Belfry's log as lines.
Its readings where the rules can be read otherwise: notes/assumptions/, entry 53. -/
def Obligations.TablesAndLogAsLines : Prop :=
  ∀ (s : State) (d : Nat) (r : Req) (rest : List Req), let u := s.elapse d; let v := u.took rest
    (∀ (p : Fin 64) (x : TableSet), Front u r rest (.calExport (.ok (.port p))) → v.ports[p].table = some x →
      (v.clusters[clusterOf p].state = .active ∨ v.clusters[clusterOf p].state = .draining ∨
        v.clusters[clusterOf p].state = .joining) →
      exec (.calExport d false) s = .next (r.says ("CAL EXPORT " ++ objName (.port p) ++ " CALGEN=" ++ dec x.gen ++
          " LINES=" ++ dec 14)
        ((List.range 14).map (fun i => dec (i + 1) ++ "/14 :" ++ hexOf (slice (calImage p x) (96 * i) 96))) v)) ∧
    (∀ (p : Fin 64) (i : Nat) (block : List Byte), Front u r rest (.calImport (.ok (.port p)) i 14 block) →
      v.clusters[clusterOf p].state = .active → u.windowOf p = none → 1 ≤ i → i ≤ 14 → block.length = 96 →
      (putPart i block v.ports[p].staging).length < 14 →
      exec (.calImport d false) s = .next (r.oked ("CAL IMPORT " ++ objName (.port p) ++ " " ++ dec i ++ "/14 :" ++ hexOf block)
        { v with ports := v.ports.set p { v.ports[p] with staging := putPart i block v.ports[p].staging } })) ∧
    (Front u r rest .belLog → v.tb.clkSrc = .pll →
      exec (.belLog d false) s = .next (r.says ("BEL LOG LINES=" ++ dec v.bel.log.length)
        (v.bel.log.map (LogEntry.text v.tb.timeFmt)) v)) ∧
    (Front u r rest .belClear →
      exec (.belClear d false) s = .next (r.oked "BEL CLEAR" { v with bel := { v.bel with log := [], logLost := 0 } }))


/-! ### Lines that write properties (spec/03 R72, R78)

Each names a SET line of one assignment. SET executes every such line; the other rows stand for the lines of one kind. -/

/-- R62, R30, R99: the mode of a link, the form of times, and the rate of the console. A link's new mode applies from the first
byte of the OK on; a rate after its last byte. -/
def Obligations.LinkLinesAndTimeForm : Prop :=
  ∀ (s : State) (d : Nat) (r : Req) (rest : List Req) (text : RawVal), let u := s.elapse d; let v := u.took rest
    (∀ (k : Link) (m : LinkMode), let o := (match k with | .con => Obj.con | .hspi => Obj.hspi)
      let t := settleQueue (answer r (.ok ⟨setText o "MODE" m.word, [], [(k, m)], none, none, v⟩) v)
      SetsOne u r rest o "MODE" text (.kw m.word) →
        exec (.setLinkMode d false) s = .next t ∧ exec (.set d false) s = .next t) ∧
    (∀ b : Nat, SetsOne u r rest .con "BAUD" text (.int b) →
      exec (.setConBaud d false) s = .next (r.thenDoes (setText .con "BAUD" (dec b)) .hunt
        { v with console := { v.console with baud := some b } })) ∧
    (SetsOne u r rest .con "BAUD" text (.kw "AUTO") →
      exec (.setConBaud d false) s = .next (r.thenDoes (setText .con "BAUD" "AUTO") .hunt
        { v with console := { v.console with baud := none } })) ∧
    (∀ f : TimeFmt, let t := r.oked (setText .sys "TIMEFMT" f.word) { v with tb := { v.tb with timeFmt := f } }
      SetsOne u r rest .sys "TIMEFMT" text (.kw f.word) →
        exec (.setTimefmt d false) s = .next t ∧ exec (.set d false) s = .next t)

/-- R212, R229, R232, R237, R240, R242: the mode and the tone of a port, the standard of a cluster, and the thresholds. -/
def Obligations.PortAndBankLines : Prop :=
  ∀ (s : State) (d : Nat) (r : Req) (rest : List Req) (text : RawVal) (p : Fin 64), let u := s.elapse d; let v := u.took rest
    let q := v.ports[p]; let o := Obj.port p; let f := v.tb.timeFmt
    ((v.clusters[clusterOf p].state = .active ∨ v.clusters[clusterOf p].state = .quarantine) →
      (∀ m : PortMode, SetsOne u r rest o "MODE" text (.kw m.word) → q.queue = [] → (q.cfg.mode = .tone → q.armed = false) →
        (q.cfg.mode = .pattern → m ≠ .pattern → v.laneOf p = none) → (m = .echo → 16000 ≤ q.cfg.width) →
        (m = .gate ∨ m = .pattern ∨ ∀ n : Fin 8, v.ags[n].cfg.role ≠ .off → p ∉ v.ags[n].cfg.inputs) →
        ∃ w, exec (.setPortMode d false) s = .next (r.oked (setText o "MODE" m.word) w) ∧
          w.ports[p].cfg = { q.cfg with mode := m } ∧
          SameBut [.ports, .mfs, .groups, .fabric, .con, .hspi, .sp, .fifo] v w) ∧
      (∀ n : Nat, SetsOne u r rest o "FTW" text (.int n) →
        let tone := if q.tone.running = true then toneChange q n (v.tu v.nextCycle) v.nextCycle else q.tone
        let y := { q with tone := tone, cfg := { q.cfg with ftw := n }, lastChange := v.nextCycle }
        exec (.setToneFtw d false) s = .next (r.oked (setText o "FTW" (dec n)) { v with ports := v.ports.set p y })) ∧
      (v.tb.clkSrc = .pll → SetsOne u r rest o "TONEAT" text (.kw "NONE") →
        exec (.setToneAt d false) s = .next (r.oked (setText o "TONEAT" "NONE")
          { v with ports := v.ports.set p { q with cfg := { q.cfg with toneAt := .none } } })) ∧
      (∀ i : Int, let w : TimeWord := BitVec.ofInt 64 i
        v.tb.clkSrc = .pll → SetsOne u r rest o "TONEAT" text (.time i) → 2500000 ≤ tdiff w v.tb.now →
        tdiff w v.tb.now ≤ 2 ^ 62 →
        exec (.setToneAt d false) s = .next (r.oked (setText o "TONEAT" (fmtTime f w.toNat))
          { v with ports := v.ports.set p { q with cfg := { q.cfg with toneAt := .time w } } })) ∧
      (∀ n : Nat, SetsOne u r rest o "HYST" text (.int n) →
        let y := { q with cfg := { q.cfg with hyst := n } }
        let z := if q.cfg.hyst = n then y else { y with settling := some ⟨v.threshInForce p, q.cfg.hyst, v.tb.now⟩ }
        let t := r.oked (setText o "HYST" (dec n)) { v with ports := v.ports.set p z }
        exec (.setThreshold d false) s = .next t ∧ exec (.set d false) s = .next t) ∧
      (SetsOne u r rest o "THRESH" text (.kw "AUTO") →
        let y := { q with cfg := { q.cfg with thresh := none } }
        let z := if v.threshInForce p = autoThresh v.clusters[clusterOf p].iostd then y
          else { y with settling := some ⟨v.threshInForce p, q.cfg.hyst, v.tb.now⟩ }
        exec (.setThreshold d false) s = .next (r.oked (setText o "THRESH" "AUTO") { v with ports := v.ports.set p z }))) ∧
    (∀ (k : Fin 8) (x : IoStd), let c := v.clusters[k]
      SetsOne u r rest (.cl k) "IOSTD" text (.kw x.word) → c.state ≠ .draining → c.state ≠ .joining →
      (∀ j : Fin 64, clusterOf j = k → v.ports[j].cfg.output = false) → (c.vddio = .none ∨ admits x c.vddio = true) →
      ∃ w, exec (.setIostd d false) s = .next (r.oked (setText (.cl k) "IOSTD" x.word) w) ∧
        w.clusters = v.clusters.set k { c with iostd := x } ∧
        (∀ j : Fin 64, let y := { v.ports[j] with cfg := { v.ports[j].cfg with thresh := none } }
          w.ports[j] = if clusterOf j ≠ k then v.ports[j] else if v.threshInForce j = autoThresh x then y
            else { y with settling := some ⟨v.threshInForce j, v.ports[j].cfg.hyst, v.tb.now⟩ }) ∧
        SameBut [.clusters, .ports] v w)

/-- R187, R198, R204, R555: lines that write an axis. A write of EDGE restarts the axis: it enters ACQUIRE, a FREE axis CONFIRMED,
with nothing of its old numbering. A write of RUNAHEAD from ON to OFF on a FRAME axis unbinds its bound edges that are not
committed; from OFF to ON it binds the edges of the frames up to the next; other writes of it change nothing else.
Its readings where the rules can be read otherwise: notes/assumptions/, entries 25, 87. -/
def Obligations.AxisLines : Prop :=
  ∀ (s : State) (d : Nat) (r : Req) (rest : List Req) (text : RawVal) (a : Fin 4), let u := s.elapse d; let v := u.took rest
    let x := v.axes[a]
    let counted (y z : Axis) : Axis := { z with retracts := y.retracts, retractedIn := y.retractedIn }
    let others (w : State) : Prop := (∀ b : Fin 4, b ≠ a → w.axes[b] = counted w.axes[b] v.axes[b]) ∧
      SameBut [.axes, .clusters, .ports, .mfs, .fabric, .tasks, .groups, .ags, .con, .hspi, .sp, .fifo] v w
    (∀ e : Sense, SetsOne u r rest (.ax a) "EDGE" text (.kw e.word) → let free := x.cfg.mode = .free
      let n := x.freeFrame v.tb.now
      ∃ w, exec (.setAxisConfig d false) s = .next (r.oked (setText (.ax a) "EDGE" e.word) w) ∧ others w ∧
        w.axes[a] = counted w.axes[a] { x with
          cfg := { x.cfg with edge := e }, inForce := x.cfg.vals, state := if free then .confirmed else .acquire,
          anchor := if free then some ⟨x.freeStart n, n, true⟩ else none, period := (x.cfg.period * 65536 : Nat), misses := 0,
          acquired := [], pendIdx := [], pendCnt := [], gen := x.gen + 1, lastTaken := none, decided := [], count := 0 }) ∧
    (∀ on : Bool, let c := { x.cfg with runAhead := on }
      let y := { x with cfg := c, inForce := if x.windowOpen v.tb.now then x.inForce else x.cfg.vals }
      let line (w : State) : Prop :=
        exec (.setAxisRunahead d false) s = .next (r.oked (setText (.ax a) "RUNAHEAD" (switchWord on)) w)
      SetsOne u r rest (.ax a) "RUNAHEAD" text (.kw (switchWord on)) →
      axisUnsound { v with axes := v.axes.set a { x with cfg := c } } a = false →
      (on = true ∨ x.cfg.mode = .increment ∨ holdsShort v a = false) →
      (x.cfg.runAhead = on ∨ x.cfg.mode ≠ .frame ∨ x.anchor = none → line { v with axes := v.axes.set a y }) ∧
      (∀ an : Anchor, x.cfg.mode = .frame → x.anchor = some an → x.cfg.runAhead = true → on = false →
        ∃ w, line w ∧ SameBut [.axes, .ports, .clusters, .groups] v w ∧ w.axes = v.axes.set a y ∧
          ∀ p : Fin 64, w.ports[p].queue = v.ports[p].queue.map (fun z => match z.axisFrame with
            | some (b, n, _) => if b = a ∧ 0 < fdiff n an.n ∧ z.isCommitted v.cycle = false then { z with lead := none } else z
            | none => z)) ∧
      (∀ an : Anchor, x.cfg.mode = .frame → x.anchor = some an → x.cfg.runAhead = false → on = true →
        ∃ w, line w ∧ others w ∧ w.axes[a] = counted w.axes[a] y))

/-- R261, R269, R273, R283 to R285, R289: lines that write a task or a measurement frame.
Its readings where the rules can be read otherwise: notes/assumptions/, entries 27, 39, 40. -/
def Obligations.TaskAndFrameLines : Prop :=
  ∀ (s : State) (d : Nat) (r : Req) (rest : List Req) (text : RawVal), let u := s.elapse d; let v := u.took rest
    (∀ t : Fin 320, let k := v.tasks[t]; let name := Obj.tk t
      (∀ ks : List Atom, let y := { k with subs := sortNat (evExpand (Lens.ranges ks)) }
        let w := { v with tasks := v.tasks.set t y }
        SetsOne u r rest name "SUBS" text (.list ks) → w.routes ≤ 1024 → w.uRoutes ≤ 64 →
          exec (.setTaskRoutes d false) s = .next (r.oked
            (setText name "SUBS" (fmtValue v.tb.timeFmt (.evset (y.subs.map (fun n => (n, n)))))) (routesChanged t k w)) ∧
          (routesChanged t k w).tasks[t] = { y with drops := Vector.replicate 4 0 }) ∧
      (∀ c : Bool, let word := if c then "U" else "S"; let w := { v with tasks := v.tasks.set t { k with isU := c } }
        SetsOne u r rest name "CLASS" text (.kw word) → w.routes ≤ 1024 → w.uRoutes ≤ 64 →
          exec (.setTaskRoutes d false) s = .next (r.oked (setText name "CLASS" word) (routesChanged t k w))) ∧
      (∀ on : Bool, let w := { v with tasks := v.tasks.set t { k with confOnly := on } }
        SetsOne u r rest name "CONFONLY" text (.kw (switchWord on)) →
          exec (.setTaskConfonly d false) s = .next (r.oked (setText name "CONFONLY" (switchWord on))
            (if k.confOnly = true ∧ on = false then confOff t w else w)))) ∧
    (∀ m : Fin 16, let x := v.mfs[m]; let name := Obj.mf m
      (SetsOne u r rest name "ENABLE" text (.kw "OFF") →
        let off := { x with cfg := { x.cfg with enable := false }, state := .idle, heldArm := false, heldRise := false,
                            fell := none, edges := [], starts := [] }
        exec (.setMfEnable d false) s = .next (r.oked (setText name "ENABLE" "OFF")
          (if x.cfg.enable = true then { v with mfs := v.mfs.set m off } else v))) ∧
      (∀ p : Fin 64, SetsOne u r rest name "ENABLE" text (.kw "ON") → x.cfg.startPort = some p →
        stampModes (v.modeOf p) = true → x.cfg.stops ≠ [] → (∀ q ∈ x.cfg.stops, stampModes (v.modeOf q) = true) →
        x.cfg.armSrc = .always → x.cfg.enable = false →
        let on := { x with cfg := { x.cfg with enable := true }, state := .armed v.cycle false, heldArm := false,
                           heldRise := false, fell := none, edges := [], starts := [] }
        exec (.setMfEnable d false) s = .next (r.oked (setText name "ENABLE" "ON") { v with mfs := v.mfs.set m on })) ∧
      (SetsOne u r rest name "STATS" text (.kw "CLEAR") →
        let y := { x with cfg := { x.cfg with statsHold := false }, stats := [], early := 0 }
        exec (.setMfStatsClear d false) s = .next (r.oked (setText name "STATS" "RUN") { v with mfs := v.mfs.set m y })))

/-- R155, R158, R173, R342, R344, R428, R430: lines that write the references, the calibration rota, and Belfry.
Its readings where the rules can be read otherwise: notes/assumptions/, entries 22, 23, 24. -/
def Obligations.ReferenceRotaAndBelfryLines : Prop :=
  ∀ (s : State) (d : Nat) (r : Req) (rest : List Req) (text : RawVal), let u := s.elapse d; let v := u.took rest
    (∀ x : Fin 4, let y := v.tb.refs[x]
      (SetsOne u r rest .ref "ACTIVE" text (.obj (.refx x)) → v.tb.auto = false → y.present = true → y.role = .candidate →
        exec (.setRefActive d false) s = .next (r.oked (setText .ref "ACTIVE" (objName (.refx x)))
          (selectionChanged (selectActive x v)))) ∧
      (∀ n : Nat, let w := { v with tb := { v.tb with refs := v.tb.refs.set x { y with freq := n } } }
        SetsOne u r rest (.refx x) "FREQ" text (.int n) → (v.tb.active ≠ some x ∨ n = y.freq) →
        exec (.setRefInput d false) s = .next (r.oked (setText (.refx x) "FREQ" (dec n))
          (selectionChanged (if n = y.freq then w else inputChanged x w))))) ∧
    (∀ b : RefBw, SetsOne u r rest .ref "BW" text (.kw b.word) →
        exec (.setRefBw d false) s = .next (r.oked (setText .ref "BW" b.word)
          (selectionChanged { v with tb := { v.tb with bw := b } }))) ∧
    (∀ n : Nat, let last := tadd v.cycle n
      SetsOne u r rest .cal "PERIOD" text (.time n) → v.tb.clkSrc = .pll →
      ∃ w, exec (.setCalPeriod d false) s = .next (r.oked (setText .cal "PERIOD" (fmtTime v.tb.timeFmt n)) w) ∧
        w.cal = { v.cal with period := n } ∧
        (∀ p : Fin 64, w.ports[p] = { v.ports[p] with due := if tlater v.ports[p].due last then last else v.ports[p].due }) ∧
        SameBut [.cal, .ports] v w) ∧
    (∀ on : Bool, SetsOne u r rest .cal "HOLD" text (.kw (switchWord on)) →
      ∃ w, exec (.setCalHold d false) s = .next (r.oked (setText .cal "HOLD" (switchWord on)) w) ∧
        w.cal = { v.cal with hold := on } ∧
        (∀ p : Fin 64, w.ports[p] = if v.cal.hold = true ∧ on = false ∧ tlater v.cycle v.ports[p].due = true then
          { v.ports[p] with due := v.cycle } else v.ports[p]) ∧
        SameBut [.cal, .ports] v w) ∧
    (SetsOne u r rest .bel "ALERT" text (.kw "CLEAR") →
      exec (.setBelAlertClear d false) s = .next (r.oked (setText .bel "ALERT" "CLEARED")
        { v with bel := { v.bel with alert := false } })) ∧
    (∀ (i : Fin 16) (n : Nat), let name := "RULE" ++ dec i.val ++ ".N"
      let y := { v.bel.rules[i] with n := n, fs := FilterState.fresh }
      SetsOne u r rest .bel name text (.int n) → ruleUnsound v.bel.rules[i] = false →
        exec (.setBelRule d false) s = .next (r.oked (setText .bel name (dec n))
          { v with bel := { v.bel with rules := v.bel.rules.set i y } }))

/-- R125, R445, R448, R454, R477, R478: lines that write the stream port, the time-transfer port, and the customer key's
fuses.
Its readings where the rules can be read otherwise: notes/assumptions/, entries 57, 79. -/
def Obligations.StreamSyncAndKeyLines : Prop :=
  ∀ (s : State) (d : Nat) (r : Req) (rest : List Req) (text : RawVal), let u := s.elapse d; let v := u.took rest
    (SetsOne u r rest .sp "ENABLE" text (.kw "ON") → v.sp.enable = false →
      exec (.setSpEnable d false) s = .next (r.oked (setText .sp "ENABLE" "ON")
        { v with sp := { v.sp with enable := true, link := .train, trainFrom := v.tb.now } })) ∧
    (SetsOne u r rest .sp "ENABLE" text (.kw "OFF") → v.sp.enable = true →
      ∃ w, exec (.setSpEnable d false) s = .next (r.oked (setText .sp "ENABLE" "OFF") w) ∧ w.sp.enable = false ∧
        w.sp.link = .down ∧ SameBut [.groups, .fabric, .con, .hspi, .sp, .fifo] v w) ∧
    (∀ x : SyncRole, SetsOne u r rest .sys "SYNCROLE" text (.kw x.word) →
        exec (.setSyncRole d false) s = .next (r.oked (setText .sys "SYNCROLE" x.word) (setRole x v)) ∧
        (setRole x v).sync.role = x ∧
        (v.sync.role ≠ x → (setRole x v).sync.state = (match x with | .none => .off | .leader => .lead | .follower => .hunt)) ∧
        SameBut [.sync, .clusters] v (setRole x v)) ∧
    (∀ n : Nat, let y := v.sync; let slews := if y.state = .locked ∨ y.state = .hold then y.r + ((n : Int) - y.delay) else y.r
      SetsOne u r rest .sys "SYNCDELAY" text (.time n) → v.tb.clkSrc = .pll →
        exec (.setSyncDelay d false) s = .next (r.oked (setText .sys "SYNCDELAY" (fmtTime v.tb.timeFmt n))
          { v with sync := { y with delay := n, r := slews } })) ∧
    (SetsOne u r rest .sys "KEYPROG" text (.kw "PROGRAM") → v.boot.keySlot = .empty →
      let carries := v.boot.image.carries v.boot.stagedKey
      let refused := r.ered 304 (objName .sys ++ "." ++ "KEYPROG") v
      exec (.keyProgram d false true) s = .next (if carries = true then r.oked (setText .sys "KEYPROG" "NONE")
        { v with boot := { v.boot with keySlot := .programmed, keyHash := v.boot.keyStage } } else refused) ∧
      exec (.keyProgram d false false) s = .next (if carries = true then
        r.ered 511 "" { v with boot := { v.boot with keySlot := .spoiled } } else refused)) ∧
    (SetsOne u r rest .sys "KEYPROG" text (.kw "PROGRAM") → v.boot.keySlot ≠ .empty →
      exec (.keyProgram d false true) s = .next (r.ered 510 (objName .sys ++ "." ++ "KEYPROG") v))

/-! ### The boot ROM, resets and the steward's restarts (spec/15, spec/18) -/

/-- R472: the lines of the boot ROM. LOAD SIZE empties the buffer, a LOAD of data stores its bytes, LOAD STATUS reports, LOAD GO
authenticates what the buffer holds and starts it.
Its readings where the rules can be read otherwise: notes/assumptions/, entry 72. -/
def Obligations.LoadLines : Prop :=
  ∀ (s : State) (d : Nat) (r : Req) (rest : List Req) (text : RawVal), let u := s.elapse d; let v := u.took rest
    let b := v.boot.dl
    (∀ n : Nat, RomFront u r rest (.loadSize text) → readField sizeField text.text.toList = .ok (.val (.one (.int n))) →
      exec (.loadSize d) s = .next (r.oked ("LOAD SIZE=" ++ dec n)
        { v with boot := { v.boot with dl := { b with size := n, bytes := [] } } })) ∧
    (∀ (k o : Nat) (bs : List Byte), RomFront u r rest (.loadData text bs) →
      readField offField text.text.toList = .ok (.val (.one (.hex k o))) →
      (o + bs.length ≤ b.size →
        ∃ m, exec (.loadData d) s = .next (r.oked ("LOAD " ++ fmtAtom .human (.hex 0 o) ++ " N=" ++ dec bs.length)
          { v with boot := { v.boot with dl := { b with bytes := m } } }) ∧
          (∀ i x, bs[i]? = some x → (o + i, x) ∈ m) ∧ (∀ e ∈ b.bytes, e.1 < o ∨ o + bs.length ≤ e.1 → e ∈ m) ∧
          (∀ e ∈ m, e ∈ b.bytes ∨ bs[e.1 - o]? = some e.2)) ∧
      (b.size < o + bs.length → exec (.loadData d) s = .next (r.ered 301 "" v))) ∧
    (RomFront u r rest .loadStatus → exec (.loadStatus d) s = .next (r.oked ("LOAD STATUS SIZE=" ++ dec b.size ++
      " RECEIVED=" ++ dec b.bytes.length ++ " FAULT=" ++ b.fault.text) v)) ∧
    (RomFront u r rest .loadGo → let image := b.bytes.map (fun e => e.2)
      let f := if b.bytes.length < b.size then ImageFault.length else authenticate v.boot.custKey none image
      exec (.loadGo d) s = .next (if f = .none then r.oked "LOAD GO" (startImage .download (imageOf image) v)
        else r.ered 509 "" { v with boot := { v.boot with imageFault := f, dl := { b with fault := f } } }))

/-- R407, R464, R466, R474: POWERON, RESET_PIN, BROWNOUT and HARDWARE_RESET_START complete, each in the state its reset makes;
and what each kind of reset clears and keeps. Only the fuses outlive a power-on; a hardware reset keeps the class P of
Belfry and the tables of the ports; in hibernation a brownout does nothing; an order that is not due waits.
Its readings where the rules can be read otherwise: notes/assumptions/, entries 12, 63, 81. -/
def Obligations.ResetsKeepWhatTheyKeep : Prop :=
  ∀ (s : State) (d : Nat), let u := s.elapse d; let b := u.boot
    exec (.poweron d) s = .next
      { State.reset with boot := { Boot.default .poweron with keySlot := b.keySlot, keyHash := b.keyHash },
                         pending := u.pending } ∧
    exec (.resetPin d) s = .next (hardwareReset .pin u) ∧
    (u.bel.off = false → exec (.brownout d) s = .next (hardwareReset .brownout u)) ∧
    (u.bel.off = true → exec (.brownout d) s = .next u) ∧
    (∀ o, b.resetOrder = some o → o.due u = true → exec (.hardwareResetStart d) s = .next (hardwareReset .command u)) ∧
    ((∀ o, b.resetOrder = some o → o.due u = false) → exec (.hardwareResetStart d) s = .next u) ∧
    (∀ c : ResetCause, let t := hardwareReset c u
      t.boot = { Boot.default c with keySlot := b.keySlot, keyHash := b.keyHash,
                                     brownouts := if c = .brownout then b.brownouts + 1 else b.brownouts,
                                     resetLow := decide (c = .pin) } ∧
      (∀ p : Fin 64, t.ports[p] = { State.reset.ports[p] with table := u.ports[p].table }) ∧
      t.bel.logMode = u.bel.logMode ∧ t.bel.log = u.bel.log.map LogEntry.untimed ∧ t.bel.logLost = u.bel.logLost ∧
      t.bel.btime = u.bel.btime ∧ t.bel.wakeCount = u.bel.wakeCount ∧ t.pending = u.pending ∧
      SameBut [.ports, .bel, .boot, .pending] State.reset t)

/-- R468 to R471, R479 to R481: the start sequence. The straps choose where the image comes from; an image that fails its
tests passes the start on, and the flash is read the way its SFDP tells when it is discovered; the image's store built, lines are executed.
Its readings where the rules can be read otherwise: notes/assumptions/, entries 5, 72, 94. -/
def Obligations.StartSequence : Prop :=
  ∀ (s : State) (d : Nat), let u := s.elapse d; let b := u.boot
    (∀ b1 b0 : Bool, b.step = .held →
      let m := if b1 then BootMode.download else if b0 then BootMode.flashOnly else BootMode.flashThenDownload
      let step := if b1 then BootStep.download else .flash false
      exec (.bootStart d b1 b0) s = .next { u with boot := { b with mode := m, resetLow := false, step := step } }) ∧
    (∀ (x : FlashRead) (slotB : Bool), b.step = .flash slotB → let setup := b.flash.getD (flashSetup x.sfdp)
      let bytes := setup.slot x.flash slotB; let f := authenticate b.custKey none bytes
      let step := if slotB = false ∧ setup.hasSlotB = true then BootStep.flash true
        else if b.mode = .flashOnly then .halted else .download
      exec (.flashBootDone d x) s = .next (if f = .none then startImage (if slotB then .flashb else .flasha) (imageOf bytes)
          { u with boot := { b with flash := some setup } }
        else { u with boot := { b with flash := some setup, imageFault := f, step := step } })) ∧
    (∀ (src : ImageSrc) (x : Image), let boot := { b with step := .building, imageSrc := src, image := x, stage := .refwait }
      (startImage src x u).boot = boot ∧ (startImage src x u).steward = { u.steward with queue := [] } ∧
      SameBut [.boot, .steward, .con, .hspi, .spi] u (startImage src x u)) ∧
    (b.step = .building → let job := (nextCandidate u.tb none).elim PllJob.idle (fun x => .attempt x u.tb.now)
      exec (.objectStoreBuilt d) s = .next
        { u with boot := { b with step := .running }, steward := { u.steward with absent := false },
                 tb := { u.tb with job := job } })

/-- R408 to R412, R492: STEWARD_WATCHDOG, STEWARD_RESTART_START and STEWARD_RESTART_END complete. At the start of a restart
the lines that wait are answered and parts of calibration images are dropped; at its end E383 asserts and an update's image
runs; a restart whose order is not due has not begun.
Its readings where the rules can be read otherwise: notes/assumptions/, entries 77, 78. -/
def Obligations.StewardRestarts : Prop :=
  ∀ (s : State) (d : Nat), let u := s.elapse d
    (u.awake = true → exec (.stewardWatchdog d) s = .next (stewardLeaves .watchdog u)) ∧
    (∀ c o, u.awake = true → u.steward.ordered = some (c, o) → o.due u = true → let t := stewardLeaves c u
      exec (.stewardRestartStart d) s = .next { t with steward := { t.steward with ordered := none } }) ∧
    (∀ c o, u.steward.ordered = some (c, o) → o.due u = false → exec (.stewardRestartStart d) s = .next u) ∧
    (∀ c : RestartCause, let t := stewardLeaves c u
      t.steward = { u.steward with queue := [], absent := true, restarts := u.steward.restarts + 1, cause := c } ∧
      (∀ p : Fin 64, t.ports[p] = { u.ports[p] with staging := [] }) ∧
      SameBut [.steward, .ports, .con, .hspi, .spi] u t) ∧
    (u.awake = true → u.steward.absent = true →
      let waits := match u.steward.ordered with | some (.update, _) => true | _ => false
      ∃ t, exec (.stewardRestartEnd d) s = .next t ∧ t.steward = { u.steward with absent := false } ∧
        (∀ x, u.boot.nextImage = some x → waits = false →
          t.boot = { u.boot with image := x, imageSrc := .update, nextImage := none }) ∧
        (u.boot.nextImage = none ∨ waits = true → t.boot = u.boot) ∧
        (u.cal.hold = true → t.ports = u.ports) ∧
        (u.tb.running = false → ∀ h, u.fabric.handover.find? (fun h => decide (h.src = 383)) = some h →
          t.fabric.handover.find? (fun h => decide (h.src = 383)) =
            some (if 0 < h.later then { h with later := h.later + 1 } else { h with offered := h.offered + 1 })) ∧
        SameBut [.steward, .boot, .ports, .groups, .fabric, .con, .hspi, .sp, .fifo, .spi] u t)

/-- R48, R88, R89, R145, R249, R283, R289, R384: counts and records move from one domain to the next.
Its readings where the rules can be read otherwise: notes/assumptions/, entries 36, 42, 55. -/
def Obligations.CountsRecordsAndDeliveriesMove : Prop :=
  ∀ (s : State) (d : Nat), let u := s.elapse d; let f := u.fabric
    (∀ (src : Fin 384) (h : Handover), f.handover.find? (fun h => decide (h.src = src.val)) = some h → u.tb.running = true →
      src ≠ 375 → exec (.handoverAccept d src) s = .next (raiseAt src u.cycle h.offered Flags.none
        { u with fabric := { f with handover := nextHandover src.val f.handover } }) ∧
      (∀ o : Nat, o ≠ src.val → (nextHandover src.val f.handover).find? (fun h => decide (h.src = o)) =
        f.handover.find? (fun h => decide (h.src = o)))) ∧
    (∀ src : Fin 384, f.handover.find? (fun h => decide (h.src = src.val)) = none → u.stewardHere = true →
      (∀ e ∈ u.con.heldEv, e.src ≠ 383) → (∀ e ∈ u.hspi.heldEv, e.src ≠ 383) →
      exec (.handoverAccept d src) s = .next (formEv .hspi src (formEv .con src u))) ∧
    (∀ (k : Nat) (x : Delivery), f.transit[k]? = some x → (∀ e ∈ f.transit.take k, e.src ≠ x.src ∨ e.task ≠ x.task) →
      (∀ e ∈ f.transit, e.isU = false ∨ e.left ≠ 0) → x.isU = false → x.left = 0 →
      (u.taskOpen x.task = true → u.tasks[x.task].confOnly = false →
        let task : Assertion := ⟨x.task, some x.sub, x.flags⟩
        exec (.routeDelivery d k) s =
          .next { u with fabric := { f with transit := f.transit.eraseIdx k, asserted := f.asserted ++ [task] } }) ∧
      (u.taskOpen x.task = false →
        exec (.routeDelivery d k) s = .next (dropDelivery x.task x.sub
          { u with fabric := { f with transit := f.transit.eraseIdx k } }))) ∧
    (∀ (k : Nat) (x : Delivery), f.transit[k]? = some x → (∀ e ∈ f.transit, e.isU = false ∨ e.left ≠ 0) →
      x.isU = true ∨ x.left ≠ 0 → exec (.routeDelivery d k) s = .next u) ∧
    (∀ (k : Fin 8) (p : Fin 64) (x : StampRec) (more : List StampRec), u.nextBuffer k = some p →
      u.ports[p].buffer = x :: more → x.uclass = false → u.fifo.fitsB [.stamp x] = true → u.clusters[k].moved ≠ some u.cycle →
      exec (.recordToFifo d k) s = .next
        { u with ports := u.ports.set p { u.ports[p] with buffer := more },
                 clusters := u.clusters.set k { u.clusters[k] with moved := some u.cycle, turn := portIn p },
                 fifo := { u.fifo with stamps := u.fifo.stamps ++ [.stamp x] } }) ∧
    (∀ k : Fin 8, u.clusters[k].moved = some u.cycle → exec (.recordToFifo d k) s = .next u) ∧
    (∀ ds, u.fifo.bEpisode = some ds → u.fifo.uEpisode = none → u.fifo.bUsed + 1024 ≤ 65472 →
      let out := u.fifo.overflows ++ ds.map (overflowRec u.tb.now false)
      ∃ t, exec (.overflowEnd d) s = .next t ∧ t.fifo = { u.fifo with bEpisode := none, overflows := out } ∧
        SameBut [.fifo, .sp] u t) ∧
    (∀ a b c : Nat, let g := u.fifo
      let fifo := { g with eccCorr := g.eccCorr + BitVec.ofNat 32 b, eccDrops := g.eccDrops + BitVec.ofNat 32 g.eccNew,
                           eccNew := 0 }
      let store := { u.store with eccCorr := u.store.eccCorr + BitVec.ofNat 32 a }
      exec (.eccPublication d a b c) s =
        .next { u with store := store, fifo := fifo, sysEcc := u.sysEcc + BitVec.ofNat 32 c })

/-! ### The stream port (spec/05) -/

/-- R121, R122, R128, R150: what the line code writes, a receive lane reads. Every symbol's code group, at either running
disparity, is that of this symbol alone; a frame comes out with its bytes and no error, one that ABORT ends is seen so, and
ordered sets of lanes 0 to 3 come out as they went in.
Its readings where the rules can be read otherwise: notes/assumptions/, entry 92. -/
def Obligations.LineCodeRoundTrips : Prop :=
  (∀ (rd : Bool) (x : Sym), symOf rd (groupOf rd x) = some x) ∧
  (∀ (rd : Bool) (x y : Sym), groupOf rd x = groupOf rd y → x = y) ∧
  (∀ (rd : Bool) (xs : List Sym), decodeGroups rd (encodeSyms rd xs) = xs.map some) ∧
  (∀ (rd : Bool) (bytes : List Byte), frameIn rd (encodeSyms rd (frameSyms bytes)) = some ⟨bytes, false, false⟩) ∧
  (∀ (rd : Bool) (bytes : List Byte),
    frameIn rd (encodeSyms rd (.sof :: bytes.map Sym.data ++ [.abort])) = some ⟨bytes, false, true⟩) ∧
  (∀ (rd rd' : Bool) (sets : List OrderedSet), (∀ l r t, .ts l r t ∈ sets → l.toNat < 4) →
    orderedSets (decodeGroups rd (encodeSyms rd (sets.flatMap (OrderedSet.syms rd')))) = some sets)

/-- R123, R125, R126, R133, R140, R149, R150: receive lanes gain and lose lock by what they receive; the link comes up and goes
down. A link that goes down ends the frames on its lanes with ABORT, gives their records back to their channels, drops the
open assemblies and what the receive buffers hold, counts, and raises E381.
Its readings where the rules can be read otherwise: notes/assumptions/, entries 54, 92, 93. -/
def Obligations.StreamLinkMoves : Prop :=
  ∀ (s : State) (d : Nat), let u := s.elapse d; let p := u.sp
    let lock (r : Fin 2) (on : Bool) := upd p.rx r (fun l => { l with locked := on })
    let down (rx : Vector RxLane 2) : State := raise 381 Flags.none { u with
      sp := { p with rx := rx.map (fun l => { l with buf := [] }), link := .train, trainFrom := u.tb.now, assemblies := [],
                     lanes := updAll p.lanes (abortLane p.rate u.fifo.flights), linkDowns := p.linkDowns + 1 },
      fifo := u.fifo.giveBack }
    (∀ (r : Fin 2) (rd : Bool) (gs : List CodeGroup), p.enable = true → r.val < p.rxLanes →
      (locksLane rd gs = true → exec (.spLaneLock d ⟨r, rd, gs⟩) s = .next { u with sp := { p with rx := lock r true } }) ∧
      (locksLane rd gs = false → exec (.spLaneLock d ⟨r, rd, gs⟩) s = .next u) ∧
      (p.link ≠ .up → p.rx[r].locked = true → losesLane rd gs = true →
        exec (.spLaneLoseLock d ⟨r, rd, gs⟩) s = .next { u with sp := { p with rx := lock r false } }) ∧
      (p.link = .up → p.rx[r].locked = true → losesLane rd gs = true →
        exec (.spLaneLoseLock d ⟨r, rd, gs⟩) s = .next (down (lock r false))) ∧
      (losesLane rd gs = false → exec (.spLaneLoseLock d ⟨r, rd, gs⟩) s = .next u) ∧
      (p.link = .up → hasTs rd gs = true → exec (.spTsInUp d ⟨r, rd, gs⟩) s = .next (down p.rx)) ∧
      (hasTs rd gs = false → exec (.spTsInUp d ⟨r, rd, gs⟩) s = .next u)) ∧
    (∀ seen : List (Bool × List CodeGroup), p.link = .train →
      (p.rxLanes = 0 → u.tb.running = false ∨ tnotBefore u.tb.now (tadd p.trainFrom 100000000) = true) →
      (p.rxLanes ≠ 0 → ∀ r : Fin 2, p.enable = true → r.val < p.rxLanes →
        p.rx[r].locked = true ∧ ∃ x, seen[r.val]? = some x ∧ trains x.1 x.2 = true) →
      exec (.spLinkUp ⟨d, seen⟩) s = .next { u with sp := { p with
        link := .up, seqs := Vector.replicate 6 0, creditDue := true, lane0Quiet := u.tb.now,
        lanes := p.lanes.map (fun _ => ⟨none, [], 32 * p.rate.symTicks⟩),
        rx := p.rx.map (fun l => { l with limit := 16, buf := [] }) } }) ∧
    (∀ (seen : List (Bool × List CodeGroup)) (r : Fin 2), p.enable = true → r.val < p.rxLanes →
      (∀ x, seen[r.val]? = some x → trains x.1 x.2 = false) → exec (.spLinkUp ⟨d, seen⟩) s = .next u) ∧
    (∀ l : Fin 4, (∀ x ∈ u.fifo.flights, x.lane ≠ l) →
      abortLane p.rate u.fifo.flights l p.lanes[l] = ⟨none, [], 0⟩) ∧
    (∀ ch : Fin 6, ch.val ≠ 0 → (u.fifo.giveBack.channel ch).1 =
      (u.fifo.flights.filter (fun x => decide (x.ch = ch))).flatMap (fun x => x.recs) ++ (u.fifo.channel ch).1) ∧
    u.fifo.giveBack.flights = []

/-- R50, R121, R122, R130 to R133, R140 to R143: the framer fills a frame with the first records of a channel and sends it on
the lane that its channel is given, where its code groups occupy the lane; an upload frame takes a receive buffer, and brings a
quarter to the assembly of its block when it leaves it; the last quarter has the block decided.
Its readings where the rules can be read otherwise: notes/assumptions/, entries 54, 92, 93. -/
def Obligations.StreamFramesAndUploads : Prop :=
  ∀ (s : State) (d : Nat), let u := s.elapse d; let p := u.sp
    let sends (ch : Fin 6) (lane : Fin 4) (ty : FrameType) (recs : List FifoRec) (payload : List Byte) (v : State) : State :=
      let frame : SpFrame := ⟨ch.val, ty, p.seqs[ch], recs, payload⟩
      let bytes := frameBytes lane.val frame
      let ticks := (bytes.length + 2) * p.rate.symTicks
      { v with fifo := { v.fifo with flights := v.fifo.flights ++ [⟨lane, ch, recs, ticks⟩] },
               sp := { v.sp with
                 lanes := v.sp.lanes.set lane ⟨some frame, frameGroups bytes, ticks + 2 * p.rate.symTicks⟩,
                 seqs := upd v.sp.seqs ch (fun n => n + 1),
                 lane0Quiet := if lane.val = 0 then tadd u.tb.now (ticks * 4000) else v.sp.lane0Quiet } }
    let noCredit : State := { u with sp := { p with creditDue := false } }
    (p.link = .up →
      (∀ (ch : Fin 6) (lane : Fin 4) (recs : List FifoRec) (n : Nat) (ty : FrameType), u.laneGiven ch = some lane →
        ch.val ≠ 0 → u.fifo.channel ch = (recs, n, ty) → recs ≠ [] → let out := recs.take n
        exec (.spFrameSend d ch lane []) s = .next (sends ch lane ty out (out.flatMap recBytes)
          { u with fifo := u.fifo.setChannel ch (recs.drop n) })) ∧
      (∀ lane : Fin 4, u.laneGiven 0 = some lane →
        (p.creditDue = true → exec (.spFrameSend d 0 lane []) s = .next (sends 0 lane .credit [] p.creditBytes noCredit)) ∧
        (p.creditDue = false → p.status ≠ [] → let told := (p.status.take 4).flatMap UpEntry.bytes
          exec (.spFrameSend d 0 lane []) s =
            .next (sends 0 lane .upstatus [] told { u with sp := { p with status := p.status.drop 4 } }))) ∧
      (∀ (ch : Fin 6) (lane : Fin 4), u.laneGiven ch ≠ some lane → exec (.spFrameSend d ch lane []) s = .next u) ∧
      (u.laneGiven 0 = some 0 → tnotBefore u.tb.now (tadd p.lane0Quiet 100000000) = true →
        exec (.creditRepeat d) s = .next (sends 0 0 .credit [] p.creditBytes noCredit)) ∧
      (∀ (r : Fin 2) (rd : Bool) (gs : List CodeGroup) (n : Nat), p.enable = true → r.val < p.rxLanes → p.rx[r].locked = true →
        let buf := p.rx[r].buf
        exec (.uploadFrame d r rd gs n) s = .next (leaveBuffers r (min n 16) (match frameIn rd gs with
          | some f => { u with sp := if 16 ≤ buf.length then { p with rxNoCredit := p.rxNoCredit + 1 }
                                     else { p with rx := upd p.rx r (fun l => { l with buf := buf ++ [f] }) } }
          | none => u)))) ∧
    (∀ (ch : Fin 6) (lane : Fin 4), p.uports = [] → ch.val ≠ 0 → (u.laneGiven ch = some lane →
        lane.val < p.txLanes ∧ p.lanes[lane].busy = 0 ∧ (ch.val = 1 ∨ u.fifo.urecs = []) ∧
        ∀ l : Fin 4, l < lane → l.val < p.txLanes → p.lanes[l].busy ≠ 0)) ∧
    (∀ (w : State) (r : Fin 2) (n : Nat), leaveBuffers r 0 w = w ∧ (w.sp.rx[r].buf = [] → leaveBuffers r n w = w) ∧
      (∀ (f : RxFrame) (rest : List RxFrame), w.sp.rx[r].buf = f :: rest → let v := takeUpload f w
        leaveBuffers r (n + 1) w = leaveBuffers r n { v with sp := { v.sp with
          rx := upd v.sp.rx r (fun l => { l with buf := rest, limit := l.limit + 1 }), creditDue := true } })) ∧
    (∀ (bytes : List Byte) (bad : Bool), takeUpload ⟨bytes, bad, true⟩ u = u ∧
      takeUpload ⟨bytes, true, false⟩ u = { u with sp := { p with rxBadCrc := p.rxBadCrc + 1 } }) ∧
    (∀ (seg block quarter seq : Nat) (check : BitVec 32) (data : List Byte), seg < 4096 → quarter < 4 → block < 65536 →
      seq < 65536 → data.length = 256 → takeUpload ⟨uploadBytes seg block quarter seq check data, false, false⟩ u =
        placeQuarter seg block quarter seq check data u) ∧
    (∀ (seg block quarter seq : Nat) (check : BitVec 32) (data : List Byte),
      (∀ a ∈ p.assemblies, a.seg ≠ seg ∨ a.block ≠ block) →
      placeQuarter seg block quarter seq check data u = if p.assemblies.length < 16 then
        { u with sp := { p with assemblies := p.assemblies ++ [⟨seg, block, [(quarter, check, data)], seq, u.tb.now⟩] } }
        else report ⟨seg, block, .noslot, seq⟩ u) ∧
    (∀ (a : Assembly) (id : Fin 4096) (seg : Segment) (check : BitVec 32) (q : Fin 4 → List Byte), a.seg = id.val →
      u.store.find id = some seg → a.block < seg.blocks → u.segActive id = false →
      (∀ x ∈ a.quarters, x.2.1 = check) →
      (∀ i : Fin 4, a.quarters.find? (fun x => decide (x.1 = i.val)) = some (i.val, check, q i)) →
      decideBlock a u = (.accepted, writeBlock id ⟨a.block, q 0 ++ q 1 ++ q 2 ++ q 3, check, false⟩ u)) ∧
    (∀ (k : Nat) (a : Assembly), p.assemblies[k]? = some a → tnotBefore u.tb.now (tadd a.lastArrival 100000000000) = true →
      exec (.assemblyTimeout d k) s = .next (report ⟨a.seg, a.block, .timeout, a.lastSeq⟩
        { u with sp := { p with assemblies := p.assemblies.eraseIdx k } }))

/-! ### References and the timebase (spec/06) -/

/-- R161 to R167, R169, R174, R177, R178: what becomes of a reference that is lost, comes back, glitches, or is compared.
Its readings where the rules can be read otherwise: notes/assumptions/, entries 5, 19, 20, 21, 91. -/
def Obligations.ReferencesAreWatched : Prop :=
  ∀ (s : State) (d : Nat), let u := s.elapse d; let t := u.tb
    let ref (x : Fin 4) (r : Ref) : State := { u with tb := { t with refs := t.refs.set x r } }
    (∀ x : Fin 4, let r := t.refs[x]
      r.role ≠ .off → r.present = true →
      let v := noteBad (happen 368 1 (ref x { r with
        present := false, losses := r.losses + 1, qual := .absent, presentFor := 0, whole := false, had10 := false,
        bad1 := true, bad10 := true, goodFor := if r.qual = .absent then r.goodFor else 0 }))
      ((t.active ≠ some x ∨ t.state ≠ .locked) → (∀ l, t.job ≠ .buildOut x l) → exec (.refLost d x) s = .next v) ∧
      (∀ y, t.active = some x → t.state = .locked → t.job = .buildOut y false →
        exec (.refLost d x) s = .next { v with tb := { v.tb with job := .buildOut y true } }) ∧
      (t.active = some x → t.state = .locked → t.noSwitch = true →
        (∀ y, t.auto = true → bestCandidate v.tb (some x) = some y →
          exec (.refLost d x) s = .next (spanBegin { v with tb := { v.tb with job := .buildOut y true } })) ∧
        ((t.auto = false ∨ bestCandidate v.tb (some x) = none) → 25000000 ≤ t.lockTicks →
          exec (.refLost d x) s = .next (spanEnd (happen 372 1
            { v with tb := { v.tb with state := .holdover, holdovers := t.holdovers + 1, job := .idle } }))) ∧
        ((t.auto = false ∨ bestCandidate v.tb (some x) = none) → t.lockTicks < 25000000 →
          exec (.refLost d x) s = .next (lockloss v)))) ∧
    (∀ x : Fin 4, let r := t.refs[x]
      r.role ≠ .off → r.present = false →
      let v := ref x { r with
        present := true, qual := .unqual, presentFor := 0, whole := false, had10 := false, bad1 := true, bad10 := true,
        goodFor := if r.qual = .unqual then r.goodFor else 0 }
      exec (.refPresent d x) s = .next
        (if t.job = .idle ∧ u.boot.step = .running ∧ t.acquiring = true ∧ u.bel.dark = false then acquireNext none v else v)) ∧
    (t.state = .locked → t.job = .idle →
      exec (.pllFreeze d) s = .next (spanBegin { u with tb := { t with job := .frozen } })) ∧
    (∀ x : Fin 4, let r := t.refs[x]
      t.active = some x → t.job = .frozen → r.present = true → exec (.refGlitchRecover d) s = .next (spanEnd
        { u with tb := { t with refs := t.refs.set x { r with glitches := r.glitches + 1 }, job := .idle } })) ∧
    (∀ (x : Fin 4) (fx fc : Nat), let r := t.refs[x]
      r.role ≠ .off →
      let nominal := match r.compare with | .ref y => t.refs[y].freq | _ => 400000000
      let ppb := clipOffset (divEven ((fx * nominal * 1000000000 : Nat) : Int) (fc * r.freq) - 1000000000)
      let watched (w : State) : Prop := ∀ y : Fin 4, y ≠ x →
        ∃ b1 b10, w.tb.refs[y] = { t.refs[y] with bad1 := b1, bad10 := b10 } ∧
        (t.refs[y].bad1 = true → b1 = true) ∧ (t.refs[y].bad10 = true → b10 = true)
      (∃ w, exec (.cupolaWindow1s d x ⟨fx, fc⟩) s = .next w ∧ watched w ∧
        (r.present = true → r.bad1 = false → u.compareOk r = true → 0 < fc * r.freq → w.tb.refs[x].offset1 = ppb ∧
          w.tb.refs[x].cmpValid = true ∧ (r.inFail = false →
            (w.tb.refs[x].inFail = true ↔ (if r.compare = .ring then 50000000 else r.fail) < ppb.natAbs))) ∧
        (r.present = false ∨ r.bad1 = true ∨ u.compareOk r = false ∨ fc * r.freq = 0 → w.tb.refs[x].offset1 = r.offset1 ∧
          w.tb.refs[x].cmpValid = false ∧ w.tb.refs[x].inFail = r.inFail)) ∧
      (∃ w, exec (.cupolaWindow10s d x ⟨fx, fc⟩) s = .next w ∧ watched w ∧
        (r.present = true → r.bad10 = false → u.compareOk r = true → 0 < fc * r.freq → w.tb.refs[x].offset10 = ppb ∧
          w.tb.refs[x].cmpValid = true ∧
          (r.inFail = false → r.inWarn = false → (w.tb.refs[x].inWarn = true ↔ r.compare ≠ .ring ∧
            (r.warn < ppb.natAbs ∨ (r.wanderMax ≠ 0 ∧ r.wanderMax < r.wander))))) ∧
        (r.present = false ∨ r.bad10 = true ∨ u.compareOk r = false ∨ fc * r.freq = 0 → w.tb.refs[x].offset10 = r.offset10 ∧
          w.tb.refs[x].cmpValid = false)))

/-- R156, R157, R159, R160, R174, R175, R482: attempts, the lock, switches, and LOCKLOSS, after which no cluster, axis, frame
or group works on.
Its readings where the rules can be read otherwise: notes/assumptions/, entries 25, 26. -/
def Obligations.LockSwitchAndLockloss : Prop :=
  ∀ (s : State) (d : Nat), let u := s.elapse d; let t := u.tb
    let attempt (after : Option (Fin 4)) := (nextCandidate t after).elim PllJob.idle (fun x => .attempt x t.now)
    (∀ (y : Fin 4) (l : Bool), t.job = .buildOut y l → (t.state = .locked ∨ t.state = .holdover) →
      exec (.refSwitch d) s = .next (spanEnd (happen 371 1
        { u with tb := { t with state := .locked, active := some y, switches := t.switches + 1, job := .idle } }))) ∧
    (∀ x a : Fin 4, t.state = .locked → t.job = .idle → t.auto = true → t.revert = true → t.active = some a →
      t.place x < t.place a → t.refs[x].role = .candidate → t.refs[x].qual = .good → t.revertWait ≤ t.refs[x].goodFor →
      exec (.revertWait d x) s = .next (spanBegin { u with tb := { t with job := .buildOut x false } })) ∧
    (∀ (x : Fin 4) (since : TimeWord), t.job = .attempt x since → (t.state = .acquire ∨ t.state = .unlocked) →
      ((t.running = false ∨ tnotBefore t.now (tadd since 4000000000) = true) →
        exec (.acquireTimeout d) s = .next { u with tb := { t with job := attempt (some x) } }) ∧
      (t.refs[x].role = .candidate → u.bel.step ≠ .relock →
        ∃ w, exec (.pllLock d) s = .next w ∧
          w.tb = { t with state := .locked, active := some x, clkSrc := .pll, job := .idle, lockTicks := 0, running := true,
                          started := true, now := if t.started then t.now else 0, phase := if t.started then t.phase else 0 } ∧
          ∀ a : Fin 4, u.axes[a].cfg.mode = .free → w.axes[a].state = .confirmed)) ∧
    (t.state = .locked → ∃ w, exec (.lockloss d) s = .next w ∧
      w.tb = { t with state := .unlocked, clkSrc := .ring, lockLosses := t.lockLosses + 1, lockTicks := 0,
                      job := attempt none } ∧
      w.sp.link = (if u.sp.enable then .train else .down) ∧
      (∀ a : Fin 4, w.axes[a].state = .lost) ∧ (∀ k : Fin 8, w.clusters[k].state = .off) ∧
      (∀ (m : Fin 16) r, w.mfs[m].state ≠ .opened r) ∧ ∀ g : Fin 8, w.groups[g].live = false)

/-! ### The axes (spec/07) -/

/-- R189 to R192, R197, R199, R200, R206 to R208: what an index edge, a missing one, a count edge and the start of a free frame
do to an axis. t is the edge, n the awaited frame, e its error against the prediction. (The period estimate has 16 fractional
bits; how its limits are rounded to them: notes/assumptions/16.md.) -/
def Obligations.AxesFollowTheirEdges : Prop :=
  ∀ (s : State) (d : Nat) (a : Fin 4), let u := s.elapse d; let x := u.axes[a]
    let others (w : State) := ∀ b : Fin 4, b ≠ a →
      (w.axes[b].state, w.axes[b].anchor, w.axes[b].period) = (u.axes[b].state, u.axes[b].anchor, u.axes[b].period)
    (∀ (t : TimeWord) (rest : List TimeWord), x.pendIdx = t :: rest → (∀ c ∈ x.pendCnt, tnotBefore t c.1 = false) →
      x.cfg.mode = .frame →
      (x.state = .lost → x.acquired = [] → exec (.axisIndexEdge d a) s = .next (raise (evAxis a 0) Flags.none
        { u with axes := u.axes.set a { x with
          pendIdx := rest, lastTaken := some t, state := .acquire, acquired := [t] } })) ∧
      (∀ t1, x.state = .acquire → x.acquired = [t1] → let i := tdiff t t1
        exec (.axisIndexEdge d a) s = .next (raise (evAxis a 0) Flags.none { u with axes := u.axes.set a (
          if (i - x.cfg.period).natAbs * 1000000 ≤ x.cfg.period * x.cfg.vals.pull then
            { x with pendIdx := rest, lastTaken := some t, acquired := [t1, t], period := i * 65536 }
          else { x with pendIdx := rest, lastTaken := some t, acquired := [t] }) })) ∧
      (∀ t1 t2, x.state = .acquire → x.acquired = [t1, t2] → let e := tdiff t (tadd t2 (x.period / 65536))
        (e.natAbs ≤ x.cfg.vals.catchTu → ∃ w, exec (.axisIndexEdge d a) s = .next w ∧ w.axes[a].state = .confirmed ∧
          w.axes[a].anchor = some ⟨t, x.cfg.firstFrame, true⟩ ∧ w.axes[a].pendIdx = rest ∧ others w) ∧
        (x.cfg.vals.catchTu < e.natAbs → ∃ w, exec (.axisIndexEdge d a) s = .next w ∧ w.axes[a].state = .acquire ∧
          w.axes[a].acquired = [t] ∧ w.axes[a].pendIdx = rest ∧ others w)) ∧
      (∀ an, x.anchor = some an → let n := an.n + 1; let p := predictFrom an x.period n; let e := testError x t p
        let good (w : State) : Prop := w.axes[a].state = .confirmed ∧ w.axes[a].anchor = some ⟨t, n, true⟩ ∧
          w.axes[a].misses = 0 ∧ w.axes[a].lastError = tdiff t p ∧ w.axes[a].pendIdx = rest ∧
          w.axes[a].period = clampPeriod x.cfg.period x.inForce.pull
            (x.period + divEven (tdiff t p * 65536) (2 ^ x.inForce.gain)) ∧ others w
        let late (w : State) : Prop := w.axes[a].state = .reacquire ∧ w.axes[a].anchor = some ⟨t, n, true⟩ ∧
          w.axes[a].misses = 0 ∧ w.axes[a].period = x.period ∧ w.axes[a].pendIdx = rest ∧ others w
        (x.state = .confirmed →
          (x.inForce.catchTu < e.natAbs →
            exec (.axisIndexEdge d a) s = .next { u with axes := u.axes.set a { x with pendIdx := rest } }) ∧
          (e.natAbs ≤ x.inForce.catchTu → x.inForce.tretract < e.natAbs →
            ∃ w, exec (.axisIndexEdge d a) s = .next w ∧ late w ∧ w.axes[a].slips = x.slips + 1) ∧
          (e.natAbs ≤ x.inForce.catchTu → e.natAbs ≤ x.inForce.tretract →
            ∃ w, exec (.axisIndexEdge d a) s = .next w ∧ good w)) ∧
        (x.state = .reacquire → tlater (tadd p (-(x.period / 131072))) t = false →
          (an.real = true → e.natAbs ≤ x.inForce.catchTu → ∃ w, exec (.axisIndexEdge d a) s = .next w ∧ good w) ∧
          (an.real = false ∨ x.inForce.catchTu < e.natAbs → ∃ w, exec (.axisIndexEdge d a) s = .next w ∧ late w)))) ∧
    (∀ an, x.cfg.mode = .frame → x.anchor = some an → x.pendIdx = [] →
      let n := an.n + 1; let p := predictFrom an x.period n
      let passed (misses : Nat) (w : State) : Prop := w.axes[a].state = .reacquire ∧ w.axes[a].anchor = some ⟨p, n, false⟩ ∧
        w.axes[a].misses = misses ∧ w.axes[a].period = x.period ∧ others w
      (x.state = .confirmed → tnotBefore u.cycle (tadd p (x.inForce.catchTu + 960000)) = true →
        ∃ w, exec (.axisCatchTimeout d a) s = .next w ∧ w.axes[a].losses = x.losses + 1 ∧
          (x.inForce.missmax ≠ 1 → passed 1 w) ∧ (x.inForce.missmax = 1 → w.axes[a].state = .lost ∧ w.axes[a].anchor = none)) ∧
      (x.state = .reacquire → tnotBefore u.cycle (tadd p (x.period / 131072 + 960000)) = true →
        ∃ w, exec (.reacquireWindowPass d a) s = .next w ∧
          (x.misses + 1 < x.inForce.missmax → passed (x.misses + 1) w) ∧
          (x.inForce.missmax ≤ x.misses + 1 → w.axes[a].state = .lost ∧ w.axes[a].anchor = none ∧
            w.axes[a].losses = x.losses + 1))) ∧
    (∀ (t : TimeWord) (ovr : Bool) (rest : List (TimeWord × Bool)), x.pendCnt = (t, ovr) :: rest → x.pendIdx = [] →
      x.cfg.mode = .increment → let n := x.count + 1; let out := x.cfg.vals.missmax * x.cfg.counts < n
      ∃ w, exec (.axisCountEdge d a) s = .next w ∧ w.axes[a].pendCnt = rest ∧ w.axes[a].count = n ∧ others w ∧
        (x.state = .acquire → w.axes[a].state = .acquire) ∧
        (x.state = .reacquire → w.axes[a].state = (if out then .lost else .reacquire)) ∧
        (∀ an, x.state = .confirmed → x.anchor = some an → w.axes[a].state =
          (if x.count = x.cfg.counts + x.cfg.countTol then (if out then .lost else .reacquire) else .confirmed))) ∧
    (∀ (t : TimeWord) (rest : List TimeWord), x.pendIdx = t :: rest → (∀ c ∈ x.pendCnt, tnotBefore t c.1 = false) →
      x.cfg.mode = .increment → let fits := x.count ≤ x.cfg.counts + x.cfg.countTol ∧ x.cfg.counts ≤ x.count + x.cfg.countTol
      (∀ an, x.state = .confirmed → x.anchor = some an → ∃ w, exec (.axisIndexEdge d a) s = .next w ∧
        w.axes[a].state = .confirmed ∧ w.axes[a].anchor = some ⟨t, an.n + 1, true⟩ ∧ w.axes[a].count = 0 ∧
        w.axes[a].slips = (if fits then x.slips else x.slips + 1) ∧ w.axes[a].pendIdx = rest ∧ others w) ∧
      (x.state = .acquire → ∃ w, exec (.axisIndexEdge d a) s = .next w ∧ w.axes[a].count = 0 ∧ w.axes[a].pendIdx = rest ∧
        others w ∧ (fits → x.acquired ≠ [] →
          w.axes[a].state = .confirmed ∧ w.axes[a].anchor = some ⟨t, x.cfg.firstFrame, true⟩) ∧
        (¬ fits ∨ x.acquired = [] → w.axes[a].state = .acquire ∧ w.axes[a].acquired = [t]))) ∧
    (∀ an, x.cfg.mode = .free → x.state = .confirmed → x.anchor = some an →
      let next : Frame := if 2 ^ 64 ≤ (an.n.toNat + 1) * x.cfg.period then 0 else an.n + 1
      let start := x.cfg.origin + BitVec.ofNat 64 (next.toNat * x.cfg.period)
      tnotBefore u.tb.now start = true →
        exec (.freeFrameStart d a) s = .next (raiseAt (evAxis a 0) (u.cycleOf start) 1 Flags.none
          { u with axes := u.axes.set a { x with anchor := some ⟨start, next, true⟩ } }))

/-! ### Ports: pulses, tones, conversions (spec/08, spec/09) -/

/-- R225, R390: the leading edge of a pulse leaves a port: EMIT in the fabric cycle that contains the edge, with the flags of
the pulse, and EMITS 1 higher; while the cluster is DRAINING the pulse is counted and raises nothing. The trailing edge raises
no event. In ECHO mode with the pad driven, the edge awaits its conversion (R250). -/
def Obligations.LeadingEdgeEmits : Prop :=
  ∀ (s : State) (d : Nat) (p : Fin 64) (x : Pulse), let u := s.elapse d; let q := u.ports[p]; let k := clusterOf p
    (q.cfg.mode = .pulse ∨ q.cfg.mode = .echo) →
    let echoed (rising : Bool) := if q.cfg.mode = .echo ∧ q.cfg.output = true then
      q.emitted ++ [⟨rising, x.late.isSome, x.flags⟩] else q.emitted
    (∀ l : TimeWord, leadingDue u p = some x → x.lead = some l →
      let y := { q with queue := replacePulse x { x with high := true } q.queue, outHigh := true, emitted := echoed true }
      (u.portActive p = true → exec (.pulseLeadingEdge d p) s = .next (raiseAt (evPort p 0) (u.cycleOf l) 1 x.flags
        { u with ports := u.ports.set p { y with counts := { q.counts with emits := q.counts.emits + 1 } } })) ∧
      (u.portActive p = false → exec (.pulseLeadingEdge d p) s = .next { u with
        ports := u.ports.set p y,
        clusters := u.clusters.set k { u.clusters[k] with emittedSoFar := u.clusters[k].emittedSoFar + 1 } })) ∧
    (trailingDue u p = some x → exec (.pulseTrailingEdge d p) s = .next { u with ports := u.ports.set p { q with
      queue := q.queue.erase x, outHigh := false, lastTrail := some x.trail, emitted := echoed false } })

/-- R194, R214 to R217, R223, R229, R232, R314, R353, R400: entries are committed 16 ns before they leave, with a DTC setting
for each of their edges. A pad trigger is decided by the arm state at its instant, once nothing can refuse it any more, and
places a pulse DELAY after its instant. A staged tone change happens on its tick.
Its readings where the rules can be read otherwise: notes/assumptions/, entries 29, 33, 43. -/
def Obligations.PortsCommitAndTrigger : Prop :=
  ∀ (s : State) (d : Nat) (p : Fin 64), let u := s.elapse d; let q := u.ports[p]; let c := u.cycle
    (∃ w, exec (.edgeCommit d (.port p)) s = .next w ∧ SameBut [.ports] u w ∧ (∀ b : Fin 64, b ≠ p → w.ports[b] = u.ports[b]) ∧
      w.ports[p].queue.length = q.queue.length ∧
      ∀ (i : Nat) (x : Pulse) (l : TimeWord), q.queue[i]? = some x → x.lead = some l → x.axisFrame = none →
        w.ports[p].queue[i]? = some (if x.committed = false ∧ tdiff l c < 160000 then
          { x with committed := true, dtc := q.table.map (fun t => dtcSetting t.c l),
                   dtcTrail := q.table.map (fun t => dtcSetting t.c x.trail) } else x)) ∧
    (∀ (k : Fin 8) a n o j, u.clusters[k].fix = some (.axis a n o j true false) →
      ∃ w, exec (.edgeCommit d (.join k)) s = .next w ∧ SameBut [.clusters] u w ∧
        w.clusters[k].fix = some (.axis a n o j true (decide (tdiff j c < 160000)))) ∧
    (∀ (g : Fin 8) a o n b, u.groups[g].waiting = some (.align a o (some n) (some b) false) →
      ∃ w, exec (.edgeCommit d (.align g)) s = .next w ∧ SameBut [.groups] u w ∧
        w.groups[g].waiting = some (.align a o (some n) (some b) (decide (tdiff b c < 160000)))) ∧
    (∀ (t : PadTrig) (rest : List PadTrig), q.pads = t :: rest →
      (tnotBefore u.tb.now (tadd t.instant 20000) = false → exec (.padTrigger d p) s = .next u) ∧
      (tnotBefore u.tb.now (tadd t.instant 20000) = true →
        let l := tadd t.instant t.delay; let v := { u with ports := u.ports.set p { q with pads := rest } }
        let refused := match t.source with | some r => u.ovdAt r t.instant = true ∨ u.nbrAt r t.instant = true | none => False
        (q.armedAt t.instant = false ∨ u.portActive p = false → exec (.padTrigger d p) s = .next v) ∧
        (q.cfg.mode = .pulse → u.portActive p = true → q.armedAt t.instant = true → (refused ∨ 64 ≤ q.queue.length) →
          exec (.padTrigger d p) s = .next (miss p Flags.none v)) ∧
        (q.cfg.mode = .pulse → u.portActive p = true → q.armedAt t.instant = true → ¬ refused → q.queue.length < 64 →
          u.windowOf p = none → (∀ y ∈ q.queue, y.conflicts 8000 l (tadd l t.width) = false) →
          gapHeld 8000 q.lastTrail l = false →
          let by_ : Trigger := ⟨t.instant, tadd t.instant 360000, t.delay, t.width, Flags.none, .padTrigger t.instant⟩
          let x := newPulse by_ l t.width false
          let y := { q with pads := rest, queue := q.queue ++ [x] }
          exec (.padTrigger d p) s =
            .next { u with ports := u.ports.set p (if q.cfg.once then y.setArmed t.instant false else y) }))) ∧
    (∀ t, stagedTick q.cfg.toneAt = some t → let y := { q with cfg := { q.cfg with toneAt := .none } }
      (tnotBefore u.tb.now t = true → exec (.toneChangeTick d p) s = .next { u with ports := u.ports.set p { y with
        tone := if q.tone.running then toneChange y q.cfg.ftwNext (u.tu t) t else q.tone,
        cfg := { y.cfg with ftw := q.cfg.ftwNext }, lastChange := t } }) ∧
      (tnotBefore u.tb.now t = false → exec (.toneChangeTick d p) s = .next u))

/-- R239, R241, R243 to R249, R251, R254, R255, R257, R278, R354, R358: conversions, records, over-range and trigger inputs. An
edge that a port does not convert does nothing; one that it converts waits for the formatter, which takes it 2 ns after the edge
at the earliest and 4 ns after the one before; its record forms at once, or waits for its gate.
Its readings where the rules can be read otherwise: notes/assumptions/, entries 28, 32, 38, 85. -/
def Obligations.InputsConvertAndStamp : Prop :=
  ∀ (s : State) (d : Nat) (p : Fin 64), let u := s.elapse d; let q := u.ports[p]
    let port (x : Port) : State := { u with ports := u.ports.set p x }
    (∀ (falling : Bool) (stop : TimeWord) (code : Nat) (uv : Int) (t : TableSet), q.table = some t →
      let sense := if falling then Sense.fall else .rise
      let own := takeEmitted (falling == q.cfg.invert) q.emitted
      let live := u.converting p = true ∧ (u.selects p sense = true ∨ own.1 ≠ none) ∧ u.detects p t falling uv = true ∧
        code < 384 ∧ tnotBefore u.tb.now stop = true ∧ stop.toNat % 4000 = u.tb.now.toNat % 4000
      let paired := q.cfg.pair = true ∧ 0 < q.q
      let coded : Int := t.d.getD code 0
      let delay := if paired then 400 + divEven ((coded - 400) * (t.qref : Int)) q.q else coded
      let edge := tadd stop (-delay - (if falling then t.fallSkew else 0))
      let dead := ∃ l, q.lastConv = some l ∧ ((tdiff edge l).natAbs : Int) < if q.cfg.pair then 96000 else 16000
      let c : Conv := ⟨stop, code, edge, sense, if paired then some q.q else none, q.cfg.mode = .echo ∨ own.1 ≠ none,
        own.1 ≠ none, own.1.elim false (fun e => e.late), own.1.elim Flags.none (fun e => e.flags)⟩
      (¬ live → exec (.inputEdgeConvert d p falling stop ⟨code, uv⟩) s = .next u) ∧
      (live → dead → exec (.inputEdgeConvert d p falling stop ⟨code, uv⟩) s =
        .next (miss p Flags.none (port { q with emitted := own.2 }))) ∧
      (live → ¬ dead → 4 ≤ q.stage.length → exec (.inputEdgeConvert d p falling stop ⟨code, uv⟩) s =
        .next (miss p Flags.none (port { q with emitted := own.2, lastConv := some edge }))) ∧
      (live → ¬ dead → q.stage.length < 4 →
        let v := port { q with emitted := own.2, lastConv := some edge, stage := q.stage ++ [c] }
        exec (.inputEdgeConvert d p falling stop ⟨code, uv⟩) s =
          .next (if c.echo then v else padEdges (.port p) sense edge v))) ∧
    (∀ (c : Conv) (rest : List Conv) (t : TableSet), q.stage = c :: rest → q.table = some t → q.gated = [] →
      let ready := 20000 ≤ tdiff u.tb.now c.edge ∧ ∀ w, q.taken = some w → 40000 ≤ (tdiff u.tb.now w).natAbs
      (¬ ready → exec (.stampFormat d p) s = .next u) ∧
      (ready → c.echo = false → c.flags = Flags.none → q.cfg.mode ≠ .echo →
        let c1 := { c with edge := convTime t c.stop c.code (decide (c.sense = .fall)) c.q }
        let v := consume p c1 false false (port { q with stage := rest, taken := some u.tb.now })
        let recorded := stampModes q.cfg.mode = true ∧ q.cfg.record = true ∧ senseIn q.cfg.stampEdge c.sense = true
        let x := v.ports[p]
        (¬ recorded → exec (.stampFormat d p) s = .next v) ∧
        (recorded → q.cfg.gateSrc ≠ none →
          exec (.stampFormat d p) s = .next { v with ports := v.ports.set p { x with gated := [c1] } }) ∧
        (recorded → q.cfg.gateSrc = none → x.hasSlot = false → exec (.stampFormat d p) s = .next (miss p Flags.none v)) ∧
        (recorded → q.cfg.gateSrc = none → x.hasSlot = true →
          let r0 : StampRec := ⟨tadd c1.edge (-q.cfg.inOffset), p, decide (c.sense = .fall),
            v.convFlags p c1 false false, (v.clusterOfPort p).epoch, x.seq, 0⟩
          exec (.stampFormat d p) s = .next (raisePortAt p 1 v.cycle 1 Flags.none { v with ports := v.ports.set p { x with
            seq := x.seq + 1, buffer := x.buffer ++ [{ r0 with check := crc16 (stampBytes r0) }],
            counts := { x.counts with stamps := x.counts.stamps + 1 } } })))) ∧
    (∀ c : Conv, q.gated = [c] → q.stage = [] →
      (tdiff u.tb.now c.edge < 960000 → exec (.stampFormat d p) s = .next u) ∧
      (960000 ≤ tdiff u.tb.now c.edge → let v := port { q with gated := [] }
        exec (.stampFormat d p) s = .next (if u.gateOpenAt p c.edge then formConv p c v else v))) ∧
    (∀ n, q.cfg.pair = true → stampModes q.cfg.mode = true → u.portActive p = true → u.windowOf p = none → 0 < n →
      exec (.pairMeasurement d p n) s = .next (port { q with q := n })) ∧
    (∀ t, stampModes q.cfg.mode = true → q.overrange = false → tnotBefore u.tb.now t = true → q.ovSpans = [] →
      u.portActive p = true → exec (.overrangeAssert d p t) s = .next (raiseAt (evPort p 3) u.cycle 1 Flags.none
        (port { q with overrange := true, ovSpans := [⟨t, none⟩], counts := { q.counts with ovd := q.counts.ovd + 1 } }))) ∧
    (∀ t v vs, q.overrange = true → tnotBefore u.tb.now t = true → q.ovSpans = v :: vs →
      exec (.overrangeDeassert d p t) s = .next (port { q with overrange := false, ovSpans := { v with z := some t } :: vs })) ∧
    (∀ (n : Fin 8) (falling : Bool) (t : TimeWord), u.tb.started = true → tnotBefore u.tb.now t = true →
      let sense := if falling then Sense.fall else .rise; let x := u.trgs[n]
      let v := { u with trgs := u.trgs.set n { x with level := pushLevel ⟨t, !falling⟩ x.level } }
      let w := if senseIn x.edge sense then raise (evTrg n) Flags.none v else v
      exec (.trgEdge d n falling t) s = .next (mfSourceChange (.trg n) (!falling) t (padEdges (.trg n) sense t
        (axisCount (.trg n) sense t false (axisIndex (.trg n) sense t false w)))))

/-- R83, R184, R264 to R267, R271: an edge of a source becomes a usable index edge; a run of a measurement frame closes and its
results form, and wait to be moved into the FIFO one by one.
Its readings where the rules can be read otherwise: notes/assumptions/, entries 18, 34. -/
def Obligations.IndexEdgesAndRuns : Prop :=
  ∀ (s : State) (d : Nat) (m : Fin 16), let u := s.elapse d; let f := u.mfs[m]
    (∀ (src : EdgeSrc) (sense : Sense) (t : TimeWord) (flagged : Bool) (a : Fin 4), let x := u.axes[a]
      let spaced : Bool := match x.lastUsable with | some e => decide (1000000 ≤ (tdiff t e).natAbs) | none => true
      (axisIndex src sense t flagged u).axes[a] = if x.cfg.mode ≠ .free ∧ x.cfg.source = src ∧
          (src = .mark ∨ x.cfg.edge = sense) ∧ flagged = false ∧ u.tbLocked = true ∧ spaced = true
        then { x with pendIdx := x.pendIdx ++ [t], lastUsable := some t } else x) ∧
    (∀ r : MfRun, f.state = .opened r → mfCloseDue u m = true → let e := runEnd f r
      exec (.mfRunClose d m) s = .next (mfForm m (mfAfterRun m e { u with mfs := u.mfs.set m { f with
        early := f.early + BitVec.ofNat 48 (runEarly f r), closed := f.closed ++ [runResults u f r],
        edges := f.edges.filter (fun x => tnotBefore x.time e) } }))) ∧
    (∀ x : MfPre, f.cfg.filter = [] → f.cfg.statsHold = false →
      let interval : BitVec 64 := match x.stop with | some e => e.time - x.start.time | none => BitVec.allOnes 64
      ∃ r : ResultRec, (r.mf, r.start, r.interval, r.run, r.seq) = (m, x.start.time, interval, x.run, f.seq) ∧
        (r.stopPort, r.stopIdx, r.startPort) = (x.stopPort, BitVec.ofNat 8 x.idx, x.start.port) ∧
        mfResult m x u = { u with mfs := u.mfs.set m { f with
          seq := f.seq + 1, out := if f.cfg.records then f.out ++ [.result r] else f.out,
          stats := match x.stop with | some _ => addStat x.idx interval.toNat f.stats | none => f.stats } }) ∧
    (∀ (idx n : Nat) (rest : List StatCell) (c : StatCell), c.idx = idx → addStat idx n (c :: rest) =
      ⟨idx, (c.n + 1) % 2 ^ 48, c.sum + n, c.sumSq + n * n, min c.min n, max c.max n⟩ :: rest)

/-! ### Pattern groups and generators (spec/11, spec/12) -/

/-- R296, R304, R309, R310, R312, R317, R319: the engine fetches no further than it needs; a step, a wait or a halt follows the
step that ends; STOP cuts; a failing block halts or skips; a wait times out. The sample SAFE=HOLD keeps is the last one played
before the instant: `played`.
Its readings where the rules can be read otherwise: notes/assumptions/, entries 44, 45, 46. -/
def Obligations.PatternGroupsGoOn : Prop :=
  ∀ (s : State) (d : Nat) (g : Fin 8), let u := s.elapse d; let x := u.groups[g]
    let parts : List Part := [.groups, .ags, .fabric, .con, .hspi, .sp, .fifo]
    (∀ bad, ∃ w, exec (.spirePrefetch d g bad) s = .next w ∧ SameBut [.groups, .store] u w ∧
      (∀ h : Fin 8, h ≠ g → w.groups[h] = u.groups[h]) ∧ (x.live = false → w.groups[g] = x) ∧ w.groups[g].cur = x.cur ∧
      (∃ more, w.groups[g].plan = x.plan ++ more) ∧
      (w.groups[g].plan.filter isPlay).length ≤ max (x.plan.filter isPlay).length x.needed) ∧
    (∀ r, x.state = .running → x.cur = some r → x.restarts = [] → r.failAt = none → r.failed = false → x.waiting = none →
      let played (t : TimeWord) :=
        let n := min (tdiff t r.start / 4000).toNat r.seg.length
        if n = 0 then x.lastSample else some (r.seg.sample (n - 1))
      let k := { x with lastSample := played r.ends, skipping := false }
      (0 < r.seg.length → r.seg.length ≤ 33554432 → played r.ends = some (r.seg.sample (r.seg.length - 1))) ∧
      (∀ t, x.stopAt = some t → tnotBefore u.tb.now t = true → tnotBefore r.ends t = true →
        (r.ends = t → x.fetch.done = true) → ∃ w, exec (.spireBoundary d g) s = .next w ∧ SameBut parts u w ∧
          w.groups[g] = haltedGroup .stop { x with lastSample := played t }) ∧
      (x.stopAt = none → tnotBefore u.tb.now r.ends = true → x.fetch.done = true →
        (∀ i y rest, x.plan = .play i y :: rest → ∃ w, exec (.spireBoundary d g) s = .next w ∧ SameBut parts u w ∧
          w.groups[g] = { k with
            plan := rest, stepIdx := i, cur := some ⟨i, y, r.ends, y.firstFail, false⟩,
            begun := true, markers := applyMarks x.markNext x.markers, markNext := [], prov := x.prov ++ x.provNext,
            provNext := [] }) ∧
        (∀ i t h rest, x.plan = .wait i .step t h :: rest → x.counted = [] → ∃ w, exec (.spireBoundary d g) s = .next w ∧
          SameBut parts u w ∧ w.groups[g] = { k with
            state := .waiting, plan := rest, stepIdx := i, cur := none, waitFrom := r.ends, counted := [],
            waiting := some (.wait .step r.ends t h none) }) ∧
        (∀ c rest, x.plan = .halt c :: rest → ∃ w, exec (.spireBoundary d g) s = .next w ∧ SameBut parts u w ∧
          w.groups[g] = haltedGroup c k))) ∧
    (∀ r n, x.cur = some r → r.failAt = some n → r.failed = false → tnotBefore u.tb.now (tadd r.start (n * 4000)) = true →
      x.waiting = none →
      let k := { x with cur := some { r with failed := true }, checkFails := x.checkFails + 1, skipping := true }
      let m := min (min (tdiff (tadd r.start (n * 4000)) r.start / 4000).toNat r.seg.length) n
      ∃ w, exec (.spireCheckfail d g) s = .next w ∧ SameBut parts u w ∧
        w.groups[g] = if x.cfg.skip then k else
          haltedGroup .check { k with lastSample := if m = 0 then x.lastSample else some (r.seg.sample (m - 1)) }) ∧
    (∀ on b t h, x.waiting = some (.wait on b (some t) h none) → let at_ := granuleFrom x.grid (tadd b t)
      tnotBefore u.tb.now (tadd b t) = true →
      exec (.waitTimeout d g) s = .next { u with groups := u.groups.set g { x with
        waiting := some (.wait on b (some t) h (some at_)) } }) ∧
    (∀ on b t at_, x.waiting = some (.wait on b t true (some at_)) → x.state = .waiting → x.cur = none → x.restarts = [] →
      x.stopAt = none → tnotBefore u.tb.now at_ = true → ∃ w, exec (.spireBoundary d g) s = .next w ∧ SameBut parts u w ∧
        w.groups[g] = haltedGroup .timeout { x with lastSample := u.lastPlayed g at_ })

/-- R322, R326, R333, R334, R336 to R338: a generator's word, or a checker's, begins on its grid; a comparison takes the word
that is due first once every conversion up to its sample instant has reached the checker, and nothing is compared before.
Its readings where the rules can be read otherwise: notes/assumptions/, entries 14, 47. -/
def Obligations.GeneratorsRunAndCheck : Prop :=
  ∀ (s : State) (d : Nat) (n : Fin 8), let u := s.elapse d; let x := u.ags[n]
    let start := tadd x.wordGrid (x.next * x.cfg.rate * 4000)
    (∀ a b i, x.state = .running → x.cfg.role = .gen → x.word = none → x.finished = false → tnotBefore u.tb.now start = true →
      prbsOf x.cfg.func = some (a, b, i) → let w : AgWord := ⟨start, 0, (prbsBits a b x.cfg.inverts x.cfg.dWidth x.reg).1,
          false, false, none⟩
      exec (.agWord d n) s = .next { u with ags := u.ags.set n { x with next := x.next + 1, word := some w } }) ∧
    (x.state = .running → x.cfg.role = .check → x.finished = false → tnotBefore u.tb.now start = true →
      let w : AgWord := ⟨start, 0, 0, false, true, none⟩
      exec (.agWord d n) s = .next { u with ags := u.ags.set n { x with
        next := x.next + 1, word := some w, due := x.due ++ [w] } }) ∧
    (∀ w rest, x.past = [] → x.due = w :: rest → let t := tadd w.start x.cfg.sampleAt
      let ready : Bool := tnotBefore u.tb.now (tadd t 960000) && x.cfg.inputs.all (fun p => u.ports[p].converted t)
      (ready = false → exec (.agSample d n) s = .next u) ∧
      (ready = true →
        let bits : List RxBit := x.cfg.inputs.map (fun p => (checkLevel u.ports[p] t, compared u.ports[p] t))
        ∃ y, exec (.agSample d n) s = .next { u with ags := u.ags.set n y } ∧ y.due = rest ∧ y.past = [] ∧ y.cfg = x.cfg ∧
          (∀ v a e, w.expect = some (v, a, e) →
            y.bits = x.bits + BitVec.ofNat 48 (bits.filter (fun b => b.2)).length ∧
            y.errors = x.errors + BitVec.ofNat 48 (bits.zipIdx.filter (fun b => b.1.2 && v.testBit b.2 != b.1.1)).length ∧
            y.lock = x.lock) ∧
          (w.expect = none → x.lock = false → bits ≠ [] → (∀ b ∈ bits, b.2 = false) →
            y.acq = ⟨[], none, 0⟩ ∧ y.lock = false ∧ y.bits = x.bits ∧ y.errors = x.errors)))

/-! ### Calibration and clusters (spec/13, spec/15) -/

/-- R341 to R343, R346, R347, R350, R352, R355: a window opens only on a due port of an ACTIVE cluster with no window open;
it closes 1.6 us later, a tone going on by R234; a port becomes late; a full histogram becomes the port's next table.
Its readings where the rules can be read otherwise: notes/assumptions/, entries 6, 49. -/
def Obligations.CalibrationWindowsAndTables : Prop :=
  ∀ (s : State) (d : Nat) (p : Fin 64), let u := s.elapse d; let q := u.ports[p]; let k := clusterOf p; let o := u.cycle
    let c := u.clusters[k]
    (let v := foldS (portsOf k) padsFirst (workCycle u); let q := v.ports[p]; let c := v.clusters[k]; let o := v.cycle
      (v.windowFirst p = true → c.state = .active ∧ c.window = none ∧ tnotBefore o q.due = true ∧
        v.cal.hold = false ∧ v.steward.absent = false ∧
        let n := tadd q.due v.cal.period
        exec (.calWindowOpen d p) s = .next (raise (evCluster k 2) Flags.none { v with
          clusters := v.clusters.set k { c with window := some ⟨portIn p, o, v.cal.span.isSome⟩ },
          ports := v.ports.set p { q with
            due := if tlater n o then n else tadd o v.cal.period, calLate := false, lateSeen := false,
            outHeld := if driving q.cfg.mode && q.cfg.output then some (v.padLevel p) else none,
            blind := openBlind o q.blind },
          cal := { v.cal with lastOpen := some p, doomed := if v.cal.span.isSome then v.cal.doomed + 1 else v.cal.doomed } })) ∧
      (v.windowFirst p = false → exec (.calWindowOpen d p) s = .next v)) ∧
    (∀ (x : CalSample) (high v : Bool) (opened : TimeWord), c.window = some ⟨portIn p, opened, v⟩ →
      let w := tadd opened 16000000
      let a := if v then { q.accum with dtcNext := (q.accum.dtcNext + 8) % 250 } else accumulate x q.accum
      (tnotBefore u.tb.now w = true → q.cfg.mode ≠ .tone → exec (.calWindowClose d p x high) s = .next (levelSample p w high
        { u with clusters := u.clusters.set k { c with window := none },
                 ports := u.ports.set p { q with outHeld := none, accum := a } })) ∧
      (tnotBefore u.tb.now w = true → q.cfg.mode = .tone → exec (.calWindowClose d p x high) s = .next { u with
        clusters := u.clusters.set k { c with window := none },
        ports := u.ports.set p { q with
          outHeld := none, accum := a,
          tone := match q.outHeld with | some held => toneResume q held (u.tu opened) (u.tu w) | none => q.tone } }) ∧
      (accumulate x q.accum).total ≤ max 262144 q.accum.total ∧ (accumulate x q.accum).total ≤ q.accum.total + 410 ∧
      (tnotBefore u.tb.now w = false → exec (.calWindowClose d p x high) s = .next u)) ∧
    (u.portActive p = true → u.cal.hold = false → u.steward.absent = false → q.lateSeen = false →
      tnotBefore u.tb.now (tadd q.due u.cal.period) = true →
      exec (.calPortLate d p) s = .next (raise 379 Flags.none { u with
        ports := u.ports.set p { q with calLate := true, lateSeen := true },
        cal := { u.cal with rotaLates := u.cal.rotaLates + 1 } })) ∧
    (262144 ≤ q.accum.total → u.steward.absent = false → u.windowOf p = none → q.table.isSome = true →
      let t := tableOf q q.accum .rota u.cycle u.bel.temp
      t.gen = (match q.lastGen with | none => 0 | some g => (g + 1) % 16) ∧ t.origin = .rota ∧ t.d.length = 384 ∧
      t.c.length = 250 ∧
      exec (.calTableSwap d p) s = .next (raise 378 Flags.none { u with
        ports := u.ports.set p { q with table := some t, lastGen := some t.gen, accum := CalAccum.empty } })) ∧
    (q.accum.total < 262144 ∨ u.steward.absent = true ∨ u.windowOf p ≠ none ∨ q.table = none →
      exec (.calTableSwap d p) s = .next u)

/-- R387, R390, R395, R398, R401, R405: how a cluster goes from one state to the next.
Its readings where the rules can be read otherwise: notes/assumptions/, entries 50, 51, 52. -/
def Obligations.ClustersComeAndGo : Prop :=
  ∀ (s : State) (d : Nat) (k : Fin 8), let u := s.elapse d; let c := u.clusters[k]
    let bankOf (mv : Nat) : Vddio :=
      if 1620 ≤ mv ∧ mv ≤ 1980 then .v18 else if 2250 ≤ mv ∧ mv ≤ 2750 then .v25
      else if 2970 ≤ mv ∧ mv ≤ 3630 then .v33 else .none
    let faulted (cause : FaultCause) (w : State) : Prop :=
      w.clusters[k].state = .off ∧ w.clusters[k].offCause = .fault ∧ w.clusters[k].faultCause = cause ∧
      w.clusters[k].discarded = min 512 (u.queued k) ∧ w.clusters[k].epoch = c.epoch ∧ w.clusters[k].powered = c.powered ∧
      (∀ p : Fin 64, clusterOf p = k → w.ports[p].queue = [] ∧ w.ports[p].cfg = u.ports[p].cfg ∧
        w.ports[p].seq = u.ports[p].seq) ∧
      (∀ j : Fin 8, j ≠ k → w.clusters[j].state = u.clusters[j].state) ∧ w.tb = u.tb
    (c.state = .draining → (∀ p ∈ portsOf k, u.ports[p].queue = [] ∧ u.ports[p].completing (u.tu u.tb.now) = false) →
      ∃ w, exec (.drainComplete d k) s = .next w ∧ SameBut [.clusters, .ports, .boot, .bel] u w ∧
        w.clusters = u.clusters.set k { c with
          state := .off, phase := .none, offCause := .drain,
          drainEmitted := min 512 c.emittedSoFar, discarded := min 512 c.removedSoFar, window := none } ∧
        ∀ p : Fin 64, clusterOf p ≠ k → w.ports[p] = u.ports[p]) ∧
    (∀ mv, c.state = .quarantine → c.phase = .powerup → ∃ w, exec (.clusterPowerupDone d k mv) s = .next w ∧
      SameBut [.clusters] u w ∧ w.clusters[k].state = .quarantine ∧ w.clusters[k].phase = .calibrate ∧
      w.clusters[k].vddio = bankOf mv ∧ w.clusters[k].bank = bankOf mv ∧
      ∀ j : Fin 8, j ≠ k → w.clusters[j].state = u.clusters[j].state ∧
          w.clusters[j].phase = u.clusters[j].phase) ∧
    (∀ xs : List CalSample, c.state = .quarantine → c.phase = .calibrate → c.calTurn = true → c.calDone = false →
      u.steward.absent = false → u.tbLocked = true → xs.length = 8 →
      (∀ x ∈ xs, let a := measured (if c.short then 65536 else 262144) (if c.short then 16 else 64) x
        a.total = (if c.short then 65536 else 262144) ∧ a.points.length = 250) →
      let set (i : Fin 8) (x : CalSample) : TableSet := calibrated c.short u.ports[portOf k i] x u.cycle
      ((∀ i x, xs[i.val]? = some x → c.short = true ∨ tableFits (set i x) = true) →
        ∃ w, exec (.clusterCalibrateDone d k xs) s = .next w ∧ w.clusters[k].state = .quarantine ∧
          w.clusters[k].phase = (if u.alignHeld then .calibrate else .align) ∧ w.clusters[k].calDone = u.alignHeld ∧
          (∀ i x, xs[i.val]? = some x → w.ports[portOf k i].table = some (set i x)) ∧
          ∀ p : Fin 64, clusterOf p ≠ k → w.ports[p] = u.ports[p]) ∧
      (c.short = false → (∃ i x, xs[i.val]? = some x ∧ tableFits (set i x) = false) →
        ∃ w, exec (.clusterCalibrateDone d k xs) s = .next w ∧ faulted .calfail w)) ∧
    (∀ ok, c.state = .quarantine → c.phase = .align →
      let bad := ok = true ∧ anyOutput k u = true ∧ admits c.iostd c.vddio = false
      (ok = false → ∃ w, exec (.clusterAlignDone d k ok) s = .next w ∧ faulted .align w) ∧
      (bad → ∃ w, exec (.clusterAlignDone d k ok) s = .next w ∧ faulted .banksupply w) ∧
      (ok = true → ¬ bad → c.joinAt = none →
        exec (.clusterAlignDone d k ok) s = .next { u with clusters := u.clusters.set k { c with phase := .waitjoin } }) ∧
      (ok = true → ¬ bad → c.joinAt ≠ none → ∃ w, exec (.clusterAlignDone d k ok) s = .next w ∧
        SameBut [.clusters, .boot, .bel] u w ∧ w.clusters[k].state = .joining ∧ w.clusters[k].phase = .none ∧
        w.clusters[k].joinAt = c.joinAt ∧ ∀ j : Fin 8, j ≠ k → w.clusters[j] = u.clusters[j])) ∧
    (∀ j, c.state = .joining → (c.fix = some (.fixed j) ∨ ∃ a n o, c.fix = some (.axis a n o j true true)) →
      let t := u.cycleFrom j
      tnotBefore u.tb.now j = true → tnotBefore u.tb.now t = true →
      ∃ w, exec (.clusterJoin d k) s = .next w ∧ w.tb = u.tb ∧
        w.clusters = u.clusters.set k { c with
          state := .active, phase := .none, joinAt := none, fix := none, joinProv := [],
          epoch := if c.entered then c.epoch + 1 else c.epoch, entered := true, entries := c.entries + 1, short := false,
          span := some (t, none) } ∧
        ∀ p : Fin 64, clusterOf p = k → w.ports[p].due = t ∧ w.ports[p].cfg = u.ports[p].cfg ∧
            w.ports[p].queue = u.ports[p].queue) ∧
    (∀ mv, c.state ≠ .off → c.powered = true → let v := bankOf mv
      (∃ w, exec (.clusterFault d k .coresupply mv) s = .next w ∧ faulted .coresupply w) ∧
      (v ≠ c.bank → (anyOutput k u = true ∨ (admits c.iostd c.bank = true ∧ admits c.iostd v = false)) →
        ∃ w, exec (.clusterFault d k .banksupply mv) s = .next w ∧ faulted .banksupply w) ∧
      (v ≠ c.bank → anyOutput k u = false → (admits c.iostd c.bank = true → admits c.iostd v = true) →
        exec (.clusterFault d k .banksupply mv) s = .next { u with
          clusters := u.clusters.set k { c with vddio := v, bank := v } }) ∧
      (v = c.bank → exec (.clusterFault d k .banksupply mv) s = .next u))

/-! ### Belfry and SLEEP (spec/16) -/

/-- R422 to R429: four Belfry cycles pass, the levels are sampled, and every rule whose source was sampled or converted takes the
value into its filter, which a firing with COUNT adds to.
Its readings where the rules can be read otherwise: notes/assumptions/, entry 59. -/
def Obligations.BelfrySamplesMeetRules : Prop :=
  ∀ (s : State) (d : Nat), let u := s.elapse d; let b := u.bel
    let ruled (value : RuleSrc → Option Int) (w : State) : Prop :=
      ∀ n : Fin 16, let r := b.rules[n]; w.bel.rules[n] = match value r.src with
        | none => r
        | some v => { (r.sample v).1 with
            hits := if (r.sample v).2.isSome && r.action.contains .count then r.hits + 1 else r.hits }
    (∀ (levels : BitVec 4) (refa : Bool), ∃ w, exec (.belfrySample d levels refa) s = .next w ∧ SameBut [.bel, .fabric] u w ∧
      w.bel.btime = b.btime + 4 ∧ w.bel.refaAct = refa ∧
      (∀ n : Fin 4, let high := levels.getLsbD n.val; let x := b.wakes[n]; w.bel.wakes[n].last = high ∧
        w.bel.wakes[n].level = if x.last = high then high else x.level) ∧
      ruled (fun x => match x with
        | .wake n => some (if w.bel.wakes[n].level then 1 else 0) | .refa => some (if refa then 1 else 0) | _ => none) w) ∧
    (∀ x : BelfryReading, ∃ w, exec (.belfryConversion d x) s = .next w ∧ SameBut [.bel, .fabric] u w ∧ w.bel.temp = x.temp ∧
      w.bel.tempHigh = ((!b.tempHigh && decide (b.tempWarn < x.temp)) || (b.tempHigh && decide (b.tempWarn - 50 < x.temp))) ∧
      w.bel.btime = b.btime ∧ w.bel.wakes = b.wakes ∧
      ruled (fun y => match y with
        | .temp => some x.temp | .vbel => some x.vbel | .vcore => some x.vcore | .vio k => some (x.vio.getD k.val 0 : Nat)
        | _ => none) w)

/-- R418 to R421, R436, R438 to R440: the way into SLEEP, what it takes away, and the way out.
Its readings where the rules can be read otherwise: notes/assumptions/, entries 58, 61, 62. -/
def Obligations.SleepComesAndGoes : Prop :=
  ∀ (s : State) (d : Nat), let u := s.elapse d; let b := u.bel
    (u.entryDue = true → ∃ w, exec (.sleepEntryStart d) s = .next w ∧ SameBut [.mfs, .tasks, .fabric, .bel] u w ∧
      w.bel.step = (match b.axis with
        | none => .flush u.tb.now
        | some a => match u.axes[a].state, u.axes[a].anchor with
          | .confirmed, some an => .frame an.n u.axes[a].gen
          | _, _ => .flush u.tb.now) ∧
      w.bel.entryAt = some u.tb.now ∧ w.bel.counter = none ∧ w.fabric.held = [] ∧
      ∀ m : Fin 16, w.mfs[m].cfg = u.mfs[m].cfg ∧ ∀ r, w.mfs[m].state ≠ .opened r) ∧
    (u.entryDue = false → exec (.sleepEntryStart d) s = .next u) ∧
    (∀ n gen a, b.step = .frame n gen → b.axis = some a → let x := u.axes[a]
      (x.state ≠ .confirmed ∨ x.gen ≠ gen → exec (.sleepFrameHandover d) s = .next { u with
        bel := { b with step := .flush u.tb.now } }) ∧
      (∀ an, x.state = .confirmed → x.anchor = some an → x.gen = gen →
        let passed := 0 ≤ fdiff an.n (n + 1) ∧
          tnotBefore u.tb.now (tadd (predictFrom an x.period (n + 1)) (x.period / 131072)) = true
        (passed → exec (.sleepFrameHandover d) s = .next { u with
          bel := { b with counter := some (n + 1), step := .flush u.tb.now } }) ∧
        (¬ passed → exec (.sleepFrameHandover d) s = .next u))) ∧
    (∀ since, b.step = .flush since →
      let ended := u.fifo.records = 0 ∨ u.tb.running = false ∨ tnotBefore u.tb.now (tadd since b.flushWait) = true
      (ended → ∃ w, exec (.sleepFlushEnd d) s = .next w ∧ w.bel.step = .flushed ∧ w.bel.flushDrops = u.fifo.records ∧
        w.sp.link = .down ∧ w.sp.enable = u.sp.enable ∧ w.steward.queue = [] ∧ w.con.standardQ = [] ∧ w.hspi.standardQ = [] ∧
        w.spi.attnLow = false) ∧
      (¬ ended → exec (.sleepFlushEnd d) s = .next u)) ∧
    (b.step = .flushed → ∃ w, exec (.sleepPowerdown d) s = .next w ∧
      w.bel.step = (if b.wakeDuringEntry.isSome then .waking else .asleep) ∧
      (∀ n, b.wakeDuringEntry = some n → w.bel.wakeCount = b.wakeCount + 1 ∧ w.bel.wakeRule = some n) ∧
      w.bel.readyHigh = false ∧ w.tb = { u.tb with
        running := false, state := .acquire, clkSrc := .ring, job := .idle, lockTicks := 0, phase := 0 } ∧
      (∀ p : Fin 64, let q := w.ports[p]; q.cfg = u.ports[p].cfg ∧ q.table = none ∧ q.queue = [] ∧ q.buffer = [] ∧ q.seq = 0) ∧
      (∀ k : Fin 8, let c := w.clusters[k]; c.state = .off ∧ c.powered = false ∧ c.vddio = .none ∧
        c.epoch = u.clusters[k].epoch ∧ c.iostd = u.clusters[k].iostd) ∧
      (∀ g : Fin 8, w.groups[g].live = false ∧ w.groups[g].program = u.groups[g].program) ∧
      w.store.segs = u.store.segs.map (fun x => if b.segRetain then x else { x with written := [] }) ∧
      SameBut [.tb, .ports, .clusters, .mfs, .tasks, .groups, .ags, .trgs, .store, .fabric, .fifo, .sp, .con, .hspi, .spi, .cal,
        .sync, .steward, .bel] u w) ∧
    (b.step = .waking → ∃ w, exec (.wakeSuppliesValid d) s = .next w ∧ SameBut [.bel, .clusters, .fabric, .tb] u w ∧
      w.bel = { b with step := .relock } ∧ w.tb.now = u.tb.now ∧
      (∀ k : Fin 8, k ∈ b.wakeCl → w.clusters[k].state = .quarantine ∧ w.clusters[k].phase = .powerup ∧
        w.clusters[k].short = true ∧ w.clusters[k].joinAt = some .next ∧ w.clusters[k].iostd = u.clusters[k].iostd) ∧
      (∀ k : Fin 8, k ∉ b.wakeCl → w.clusters[k] = u.clusters[k]) ∧
      (∀ x, u.tb.active = some x → u.tb.refs[x].role = .candidate →
        (u.tb.refs[x].present = true ∨ (x = 0 ∧ b.refaAct = true)) → w.tb.job = .attempt x u.tb.now)) ∧
    (∀ a n t rest, b.axis = some a → b.counter = some n → u.axes[a].state = .reacquire → u.axes[a].anchor = none →
      u.axes[a].pendIdx = t :: rest →
      (tnotBefore u.cycle (tadd t 50000000) = true → exec (.keptAxisAnchor d) s = .next (raise (evAxis a 0) Flags.none { u with
        bel := { b with keptFrame := some n, counter := none }, axes := u.axes.set a { u.axes[a] with
          anchor := some ⟨t, n, true⟩, misses := 0, lastTaken := some t, pendIdx := rest } })) ∧
      (tnotBefore u.cycle (tadd t 50000000) = false → exec (.keptAxisAnchor d) s = .next u))

/-! ### Alignment of several devices (spec/17) -/

/-- R444 to R456: the train, the return pulse, the tracking, the decoding and the slew of a follower, the
slew once in each fabric cycle, and the step.
Its readings where the rules can be read otherwise: notes/assumptions/, entry 57. -/
def Obligations.SyncTrainAligns : Prop :=
  ∀ (s : State) (d : Nat), let u := s.elapse d; let y := u.sync
    (∀ t : Train, y.role = .leader → y.train = some t → u.tbLocked = true → let i := t.k % 65
      let at_ := tadd t.g (t.k * y.period)
      tnotBefore u.tb.now at_ = true →
      let width : Nat := if i = 0 then 3000000 else if t.word.getLsbD (64 - i) then 2000000 else 1000000
      let w : State := { u with sync := { y with
        out := ((at_, width) :: y.out).take 8,
        train := some { t with k := t.k + 1, word := if i = 0 then at_ else t.word } } }
      exec (.syncPulseSend d) s = .next w ∧
      (u.padsOff = false → ∀ z, tnotBefore z at_ = true → tnotBefore z (tadd at_ width) = false → w.syncoutPad z = .high) ∧
      ∀ e : Int, -500000 < e → e < 500000 → readWidth ((width : Int) + e) =
        if i = 0 then .start else if t.word.getLsbD (64 - i) then .one else .zero) ∧
    (y.role = .follower → y.ret = true → (y.state = .locked ∨ y.state = .hold) → let half := y.period / 2
      let rise := tadd y.s (half + tdiff u.tb.now (tadd y.s half) / (max 1 y.period : Nat) * y.period)
      (∀ o os, y.out = o :: os → o.1 ≠ rise) →
      exec (.syncReturnPulse d) s = .next { u with sync := { y with out := ((rise, 1000000) :: y.out).take 8 } }) ∧
    (∀ (falling : Bool) (t : TimeWord), u.tb.started = true → tnotBefore u.tb.now t = true →
      ∃ w, exec (.syncEdge d falling t) s = .next w ∧ SameBut [.axes, .sync] u w ∧ (y.role ≠ .follower → w.sync = y) ∧
      (y.role = .follower → falling = false → y.state = .locked →
        let v := tdiff (tadd y.s y.delay) t - y.r; let z := w.sync
        z.s = tadd y.s y.period ∧ z.msg = y.msg ∧ z.rise = some (t, y.s) ∧
        (v.natAbs ≤ y.catchTu → z.rejected = 0 ∧ z.lastPass = t ∧ z.state = .locked ∧ z.errs = y.errs ∧
          (y.n + 1 < y.avg → z.sum = y.sum + v ∧ z.n = y.n + 1 ∧ z.r = y.r) ∧
          (y.avg ≤ y.n + 1 → z.error = divEven (y.sum + v) (max 1 (y.n + 1)) ∧ z.r = y.r + z.error ∧ z.sum = 0 ∧ z.n = 0)) ∧
        (y.catchTu < v.natAbs → z.errs = y.errs + 1 ∧ z.rejected = y.rejected + 1 ∧ z.r = y.r ∧ z.sum = y.sum ∧ z.n = y.n ∧
          z.state = if y.avg ≤ y.rejected + 1 then .hold else .locked)) ∧
      (∀ r x, y.role = .follower → falling = true → y.rise = some (r, x) → let p := readWidth (tdiff t r)
        (y.msg = none → p ≠ .start → w.sync = { y with rise := none }) ∧
        (y.msg = none → p = .start → w.sync = { y with
          rise := none, msg := some ⟨x, [r], []⟩, values := y.values.take 1 }) ∧
        (∀ m l b, y.msg = some m → m.rises.getLast? = some l → (tdiff r (tadd l y.period)).natAbs ≤ y.catchTu →
          p = (if b then .one else .zero) → m.bits.length < 63 → w.sync = { y with
            rise := none, msg := some { m with rises := m.rises ++ [r], bits := m.bits ++ [b] } }))) ∧
    (∀ w : TimeWord, spell ((List.range 64).map (fun i => w.getLsbD (63 - i))) = w) ∧
    (u.stepFree = true → u.tb.running = true → ∃ w, exec (.syncStep d) s = .next w ∧ w.tb.now = tadd u.tb.now y.offset ∧
      w.sync.state = .locked ∧ w.sync.steps = y.steps + 1 ∧ w.sync.r = 0 ∧ w.sync.sum = 0 ∧ w.sync.n = 0 ∧
      w.sync.role = y.role) ∧
    (u.stepFree = false → exec (.syncStep d) s = .next u) ∧
    (y.role = .follower → y.state = .locked → tnotBefore u.tb.now (tadd y.lastPass (4 * y.period)) = true →
      exec (.syncHoldTimeout d) s = .next { u with sync := { y with state := .hold } }) ∧
    (y.r ≠ 0 → (y.state = .locked ∨ y.state = .hold) → u.tb.running = true → y.slewed ≠ some u.cycleTick →
      let f := y.frac + y.slew * 16000
      let move := min (f / 1000000000) y.r.natAbs; let m : Int := if y.r < 0 then -(move : Int) else move
      exec (.syncSlew d) s = .next { u with
        tb := { u.tb with now := tadd u.tb.now m },
        sync := { y with r := y.r - m, frac := if y.r - m = 0 then 0 else f % 1000000000,
                         slewed := some u.cycleTick } }) ∧
    (y.r = 0 ∨ y.slewed = some u.cycleTick → exec (.syncSlew d) s = .next u)
end
end

