-- ==== Sys2Proof/Laws/Keeps.lean ====
section
/-! SUPPORT. What an operation over the state keeps, whatever it does beside: the commands that wait, the bounds of
Safety.lean, and the fuses; and the lemmas for the operations of Machine/Ops.lean. For every other operation the files
Keeps<Family>.lean have one lemma of this form, which a proof about a command cites instead of unfolding the operation. -/
namespace Sys2Proof.Machine

/-- t is a state that an operation has led to from s. -/
structure Keeps (s t : State) : Prop where
  pending : t.pending = s.pending
  fifo : s.fifo.ok → t.fifo.ok
  tb : s.tb.ok → t.tb.ok
  store : s.store.ok → t.store.ok
  dl : s.boot.dl.ok → t.boot.dl.ok
  bel : s.bel.ok → t.bel.ok
  fuses : fusesKept s.boot t.boot

theorem fusesKept.refl (b : Boot) : fusesKept b b := fun _ => ⟨rfl, rfl⟩

theorem fusesKept.trans {a b c : Boot} (h : fusesKept a b) (k : fusesKept b c) : fusesKept a c := fun ha => by
  obtain ⟨h1, h2⟩ := h ha
  obtain ⟨k1, k2⟩ := k (h1 ▸ ha)
  exact ⟨k1.trans h1, k2.trans h2⟩

theorem Keeps.refl (s : State) : Keeps s s := ⟨rfl, id, id, id, id, id, fusesKept.refl _⟩

theorem Keeps.trans {s t u : State} (h : Keeps s t) (k : Keeps t u) : Keeps s u :=
  ⟨k.pending.trans h.pending, k.fifo ∘ h.fifo, k.tb ∘ h.tb, k.store ∘ h.store, k.dl ∘ h.dl, k.bel ∘ h.bel,
   h.fuses.trans k.fuses⟩

/-- The parts of the state that Keeps speaks of. -/
def State.kernel (s : State) :
    List Instr × Fifo × Timebase × SegStore × Download × KeySlot × Vector (BitVec 64) 4 × List LogEntry :=
  (s.pending, s.fifo, s.tb, s.store, s.boot.dl, s.boot.keySlot, s.boot.keyHash, s.bel.log)

theorem Keeps.of_kernel {s t : State} (e : t.kernel = s.kernel) : Keeps s t := by
  simp only [State.kernel, Prod.mk.injEq] at e
  obtain ⟨e1, e2, e3, e4, e5, e6, e7, e8⟩ := e
  refine ⟨e1, ?_, ?_, ?_, ?_, ?_, ?_⟩
  · rw [e2]; exact id
  · rw [e3]; exact id
  · rw [e4]; exact id
  · rw [e5]; exact id
  · unfold Belfry.ok; rw [e8]; exact id
  · exact fun _ => ⟨e6, e7⟩

/-- A state whose kernel is that of one already reached. -/
theorem Keeps.upd {s t u : State} (h : Keeps s t) (e : u.kernel = t.kernel) : Keeps s u := h.trans (.of_kernel e)

/-- An update of parts that Keeps does not speak of. -/
theorem Keeps.mk_of {s t : State} {axes' : Vector Axis 4} {clusters' : Vector Cluster 8} {ports' : Vector Port 64} {trgs' :
    Vector Trg 8} {mfs' : Vector Mf 16} {fabric' : Fabric} {tasks' : Vector Task 320} {groups' : Vector Group 8} {markers' :
    Vector Marker 16} {ags' : Vector Ag 8} {cal' : CalState} {steward' : Steward} {con' : LinkState} {hspi' : LinkState}
    {console' : Console} {spi' : Hspi} {sp' : Stream} {sync' : Sync} {sysEcc' : Count32}
    (h : Keeps s t) : Keeps s ⟨t.tb, axes', clusters', ports', trgs', mfs', fabric', tasks', t.store, groups', markers', ags',
      cal', steward', con', hspi', console', spi', sp', t.fifo, t.bel, sync', t.boot, sysEcc', t.pending⟩ := h.upd rfl

theorem Keeps.ite {s t u : State} {c : Prop} [Decidable c] (ht : Keeps s t) (hu : Keeps s u) :
    Keeps s (if c then t else u) := by split <;> assumption

theorem Keeps.cond {s t u : State} {c : Bool} (ht : Keeps s t) (hu : Keeps s u) : Keeps s (bif c then t else u) := by
  cases c <;> assumption

/-! ### Updates of one part -/

variable {s0 s : State}

theorem modPort_keeps (h : Keeps s0 s) (p : Fin 64) (f : Port → Port) : Keeps s0 (s.modPort p f) := h.upd rfl
theorem modCluster_keeps (h : Keeps s0 s) (k : Fin 8) (f : Cluster → Cluster) : Keeps s0 (s.modCluster k f) := h.upd rfl
theorem modAxis_keeps (h : Keeps s0 s) (a : Fin 4) (f : Axis → Axis) : Keeps s0 (s.modAxis a f) := h.upd rfl
theorem modMf_keeps (h : Keeps s0 s) (m : Fin 16) (f : Mf → Mf) : Keeps s0 (s.modMf m f) := h.upd rfl
theorem modTask_keeps (h : Keeps s0 s) (t : Fin 320) (f : Task → Task) : Keeps s0 (s.modTask t f) := h.upd rfl
theorem modGroup_keeps (h : Keeps s0 s) (g : Fin 8) (f : Group → Group) : Keeps s0 (s.modGroup g f) := h.upd rfl
theorem modAg_keeps (h : Keeps s0 s) (n : Fin 8) (f : Ag → Ag) : Keeps s0 (s.modAg n f) := h.upd rfl
theorem modTrg_keeps (h : Keeps s0 s) (n : Fin 8) (f : Trg → Trg) : Keeps s0 (s.modTrg n f) := h.upd rfl
theorem modFabric_keeps (h : Keeps s0 s) (f : Fabric → Fabric) : Keeps s0 (s.modFabric f) := h.upd rfl
theorem modSp_keeps (h : Keeps s0 s) (f : Stream → Stream) : Keeps s0 (s.modSp f) := h.upd rfl
theorem modSync_keeps (h : Keeps s0 s) (f : Sync → Sync) : Keeps s0 (s.modSync f) := h.upd rfl
theorem modCal_keeps (h : Keeps s0 s) (f : CalState → CalState) : Keeps s0 (s.modCal f) := h.upd rfl

theorem modLink_keeps (h : Keeps s0 s) (k : Link) (f : LinkState → LinkState) : Keeps s0 (s.modLink k f) := by
  cases k <;> exact h.upd rfl

theorem modTb_keeps (h : Keeps s0 s) (f : Timebase → Timebase) (hf : s.tb.ok → (f s.tb).ok) : Keeps s0 (s.modTb f) :=
  h.trans ⟨rfl, id, hf, id, id, id, fusesKept.refl _⟩

theorem modBel_keeps (h : Keeps s0 s) (f : Belfry → Belfry) (hf : s.bel.ok → (f s.bel).ok) : Keeps s0 (s.modBel f) :=
  h.trans ⟨rfl, id, id, id, id, hf, fusesKept.refl _⟩

theorem modBoot_keeps (h : Keeps s0 s) (f : Boot → Boot) (hd : s.boot.dl.ok → (f s.boot).dl.ok)
    (hf : fusesKept s.boot (f s.boot)) : Keeps s0 (s.modBoot f) :=
  h.trans ⟨rfl, id, id, id, hd, id, hf⟩

theorem modFifo_keeps (h : Keeps s0 s) (f : Fifo → Fifo) (hf : s.fifo.ok → (f s.fifo).ok) : Keeps s0 (s.modFifo f) :=
  h.trans ⟨rfl, hf, id, id, id, id, fusesKept.refl _⟩

/-- A new central FIFO. -/
theorem fifo_keeps (h : Keeps s0 s) (f : Fifo) (hf : s.fifo.ok → f.ok) : Keeps s0 { s with fifo := f } :=
  h.trans ⟨rfl, hf, id, id, id, id, fusesKept.refl _⟩

/-- A new segment store. -/
theorem store_keeps (h : Keeps s0 s) (st : SegStore) (hf : s.store.ok → st.ok) : Keeps s0 { s with store := st } :=
  h.trans ⟨rfl, id, id, hf, id, id, fusesKept.refl _⟩

/-! ### Repetition -/

theorem foldS_keeps {α : Type} {xs : List α} {f : α → State → State} (h : Keeps s0 s)
    (hf : ∀ x t, Keeps s0 t → Keeps s0 (f x t)) : Keeps s0 (foldS xs f s) := by
  unfold foldS
  induction xs generalizing s with
  | nil => exact h
  | cons x xs ih => exact ih (hf x s h)

theorem eachFin_keeps {n : Nat} {f : Fin n → State → State} (h : Keeps s0 s)
    (hf : ∀ x t, Keeps s0 t → Keeps s0 (f x t)) : Keeps s0 (eachFin n f s) := foldS_keeps h hf

/-! ### The central FIFO (R144, R145) -/

theorem Rising.cons_addDrop {src : Nat} {q : Seq16} {a : Nat} :
    ∀ {ds : List DropRec}, Rising (a :: ds.map (fun d => d.source)) → a < src →
      Rising (a :: (addDrop src q ds).map (fun d => d.source))
  | [], _, h => ⟨h, trivial⟩
  | d :: ds, hr, h => by
    unfold addDrop
    split
    · exact hr
    · split
      · exact ⟨h, by assumption, hr.2⟩
      · exact ⟨hr.1, Rising.cons_addDrop hr.2 (by dsimp only; omega)⟩

theorem addDrop_ok {src : Nat} {q : Seq16} (hs : src ≤ 65) : ∀ {ds : List DropRec}, dropsOk ds → dropsOk (addDrop src q ds)
  | [], _ => ⟨trivial, by simp [addDrop, hs]⟩
  | d :: ds, ⟨hr, hb⟩ => by
    have hd : d.source ≤ 65 := hb d (by simp)
    have hds : ∀ e ∈ ds, e.source ≤ 65 := fun e he => hb e (by simp [he])
    have ht : dropsOk ds := ⟨by cases ds with | nil => trivial | cons => exact hr.2, hds⟩
    unfold addDrop
    split
    · exact ⟨hr, fun e he => by
        rcases List.mem_cons.1 he with rfl | h
        · exact hd
        · exact hds e h⟩
    · split
      · exact ⟨⟨by assumption, hr⟩, fun e he => by
          rcases List.mem_cons.1 he with rfl | h
          · exact hs
          · exact hb e h⟩
      · exact ⟨Rising.cons_addDrop hr (by dsimp only; omega), fun e he => by
          rcases List.mem_cons.1 he with rfl | h
          · exact hd
          · exact (addDrop_ok hs ht).2 e h⟩

theorem FifoRec.dropSource_le (r : FifoRec) : r.dropSource ≤ 65 := by
  cases r <;> simp [FifoRec.dropSource]; omega

theorem addDrops_ok (rs : List FifoRec) : ∀ {ds : List DropRec}, dropsOk ds →
    dropsOk (rs.foldl (fun ds r => addDrop r.dropSource r.dropSeq ds) ds) := by
  induction rs with
  | nil => exact id
  | cons r rs ih => exact fun h => ih (addDrop_ok r.dropSource_le h)

theorem Fifo.append_used (f : Fifo) (r : FifoRec) : (f.append r).bUsed = f.bUsed + r.slots := by
  cases r <;> simp [Fifo.append, Fifo.bUsed, FifoRec.slots] <;> omega

theorem Fifo.appends_used (rs : List FifoRec) : ∀ f : Fifo,
    (rs.foldl Fifo.append f).bUsed = f.bUsed + (rs.map FifoRec.slots).sum := by
  induction rs with
  | nil => simp
  | cons r rs ih => intro f; simp [ih, Fifo.append_used]; omega

theorem Fifo.append_rest (f : Fifo) (r : FifoRec) :
    (f.append r).uUsed = f.uUsed ∧ (f.append r).bEpisode = f.bEpisode ∧ (f.append r).uEpisode = f.uEpisode := by
  cases r <;> exact ⟨rfl, rfl, rfl⟩

theorem Fifo.appends_rest (rs : List FifoRec) : ∀ f : Fifo, (rs.foldl Fifo.append f).uUsed = f.uUsed ∧
    (rs.foldl Fifo.append f).bEpisode = f.bEpisode ∧ (rs.foldl Fifo.append f).uEpisode = f.uEpisode := by
  induction rs with
  | nil => exact fun f => ⟨rfl, rfl, rfl⟩
  | cons r rs ih =>
    intro f
    obtain ⟨a, b, c⟩ := ih (f.append r)
    obtain ⟨x, y, z⟩ := f.append_rest r
    exact ⟨a.trans x, b.trans y, c.trans z⟩

/-- Records that arrive together at the B partition leave it within its slots. -/
theorem Fifo.pushB_ok (f : Fifo) (rs : List FifoRec) (h : f.ok) : (f.pushB rs).1.ok := by
  obtain ⟨h1, h2, h3, h4⟩ := h
  unfold Fifo.pushB
  split
  · rename_i fits
    obtain ⟨a, b, c⟩ := Fifo.appends_rest rs f
    refine ⟨a ▸ h1, ?_, b ▸ h3, c ▸ h4⟩
    rw [Fifo.appends_used]
    simpa [Fifo.fitsB] using fits
  · refine ⟨h1, h2, fun ds e => ?_, h4⟩
    cases e
    apply addDrops_ok
    cases hb : f.bEpisode with
    | none => exact ⟨trivial, by simp⟩
    | some ds => exact h3 ds hb

theorem Fifo.pushU_ok (f : Fifo) (r : FifoRec) (h : f.ok) : (f.pushU r).1.ok := by
  obtain ⟨h1, h2, h3, h4⟩ := h
  unfold Fifo.pushU
  split
  · rename_i room
    exact ⟨by simp only [Fifo.uUsed, List.length_append, List.length_singleton] at room ⊢; omega, h2, h3, h4⟩
  · refine ⟨h1, h2, h3, fun ds e => ?_⟩
    cases e
    apply addDrop_ok r.dropSource_le
    cases hb : f.uEpisode with
    | none => exact ⟨trivial, by simp⟩
    | some ds => exact h4 ds hb

/-! ### Assertions -/

theorem pushEvent_keeps (h : Keeps s0 s) (src : Fin 384) (cyc : TimeWord) (fl : Flags) :
    Keeps s0 (pushEvent src cyc fl s).1 := by
  have hf (rs : List FifoRec) : Keeps s0 { s with fifo := (s.fifo.pushB rs).1 } := fifo_keeps h _ (Fifo.pushB_ok _ _)
  exact .ite (modSp_keeps (hf _) _) (hf _)

theorem pushEvents_keeps (src : Fin 384) (cyc : TimeWord) (fl : Flags) : ∀ (n : Nat) (r : State × Bool), Keeps s0 r.1 →
    Keeps s0 (pushEvents src cyc fl n r).1
  | 0, _, h => h
  | n + 1, _, h => pushEvents_keeps src cyc fl n _ (pushEvent_keeps h src cyc fl)

theorem raiseCore_keeps (h : Keeps s0 s) (src : Fin 384) (cyc : TimeWord) (n : Nat) (fl : Flags) :
    Keeps s0 (raiseCore src cyc n fl s).1 := by
  unfold raiseCore
  extract_lets s1 old s2 s3 s4 s5
  have h1 : Keeps s0 s1 := h.upd rfl
  have h3 : Keeps s0 s3 := modFabric_keeps (modFabric_keeps h1 _) _
  have h4 : Keeps s0 s4 := .ite (modLink_keeps h3 _ _) h3
  have h5 : Keeps s0 s5 := .ite (modLink_keeps h4 _ _) h4
  clear_value s5
  split
  · exact pushEvents_keeps src cyc fl n _ h5
  · exact h5

theorem overflowStarted_keeps {r : State × Bool} (h : Keeps s0 r.1) : Keeps s0 (overflowStarted r) :=
  .ite (.ite (raiseCore_keeps (raiseCore_keeps h _ _ _ _) _ _ _ _) (raiseCore_keeps h _ _ _ _)) h

theorem raiseAt_keeps (h : Keeps s0 s) (src : Fin 384) (cyc : TimeWord) (n : Nat) (fl : Flags) :
    Keeps s0 (raiseAt src cyc n fl s) := .ite h (overflowStarted_keeps (raiseCore_keeps h _ _ _ _))

theorem raise_keeps (h : Keeps s0 s) (src : Fin 384) (fl : Flags) : Keeps s0 (raise src fl s) := raiseAt_keeps h _ _ _ _

theorem happen_keeps (h : Keeps s0 s) (src : Fin 384) (n : Nat) : Keeps s0 (happen src n s) :=
  .ite h (modFabric_keeps h _)

theorem raisePortAt_keeps (h : Keeps s0 s) (p : Fin 64) (i : Fin 4) (cyc : TimeWord) (n : Nat) (fl : Flags) :
    Keeps s0 (raisePortAt p i cyc n fl s) := .ite (raiseAt_keeps h _ _ _ _) h

theorem missAt_keeps (h : Keeps s0 s) (p : Fin 64) (cyc : TimeWord) (fl : Flags) : Keeps s0 (missAt p cyc fl s) :=
  .ite (raiseAt_keeps (modPort_keeps h _ _) _ _ _ _) h

theorem miss_keeps (h : Keeps s0 s) (p : Fin 64) (fl : Flags) : Keeps s0 (miss p fl s) := missAt_keeps h _ _ _

/-- R145: an episode has at most one count for each of the 66 sources. -/
theorem dropsOk.length_le {ds : List DropRec} (h : dropsOk ds) : ds.length ≤ 66 := by
  have key : ∀ (xs : List Nat) (a : Nat), Rising (a :: xs) → (∀ x ∈ a :: xs, x ≤ 65) → a + xs.length ≤ 65 := by
    intro xs
    induction xs with
    | nil => intro a _ h; have := h a (by simp); simp only [List.length_nil]; omega
    | cons b xs ih =>
      intro a hr hb
      have := ih b hr.2 fun x hx => hb x (List.mem_cons_of_mem _ hx)
      have := hr.1
      simp only [List.length_cons]
      omega
  cases ds with
  | nil => simp
  | cons d ds =>
    have hr : Rising (d.source :: ds.map (fun d => d.source)) := h.1
    have := key (ds.map (fun d => d.source)) d.source hr (by
      intro x hx
      rcases List.mem_cons.1 hx with rfl | hx
      · exact h.2 d (by simp)
      · obtain ⟨e, he, rfl⟩ := List.mem_map.1 hx
        exact h.2 e (by simp [he]))
    simp only [List.length_map] at this
    simp only [List.length_cons]
    omega

theorem endB_keeps {s0 s : State} (h : Keeps s0 s) : Keeps s0 (endB s) := by
  unfold endB
  split
  · rename_i ds hd
    split
    · rename_i c
      extract_lets t s1
      have k1 : Keeps s0 s1 := modFifo_keeps h _ fun ⟨h1, h2, h3, h4⟩ => by
        have := (h3 ds hd).length_le
        refine ⟨h1, ?_, fun _ e => by simp at e, h4⟩
        unfold Fifo.bUsed at c ⊢
        simp only [List.length_append, List.length_map]
        omega
      exact .ite (modSp_keeps k1 _) k1
    · exact h
  · exact h

theorem endU_keeps {s0 s : State} (h : Keeps s0 s) : Keeps s0 (endU s) := by
  unfold endU
  split
  · rename_i ds hd
    split
    · rename_i c
      simp only [Bool.and_eq_true, decide_eq_true_eq] at c
      refine modFifo_keeps h _ fun ⟨h1, h2, h3, h4⟩ => ?_
      refine ⟨h1, ?_, h3, fun _ e => by simp at e⟩
      unfold Fifo.bUsed at c ⊢
      simp only [List.length_append, List.length_map]
      omega
    · exact h
  · exact h

theorem overflowEnds_keeps {s0 s : State} (h : Keeps s0 s) : Keeps s0 (overflowEnds s) := endU_keeps (endB_keeps h)

/-! ### Time that passes (R14, R131, R133) -/

theorem flownSlots_cons (u : Bool) (x : Flight) (fs : List Flight) :
    flownSlots u (x :: fs) = (if decide (x.ch.val = 1) == u then x.slots else 0) + flownSlots u fs := by
  unfold flownSlots
  rw [List.filter_cons]
  split <;> simp

theorem flownSlots_map (u : Bool) (f : Flight → Flight) (hf : ∀ x, (f x).ch = x.ch ∧ (f x).recs = x.recs) (fs : List Flight) :
    flownSlots u (fs.map f) = flownSlots u fs := by
  induction fs with
  | nil => rfl
  | cons x fs ih => rw [List.map_cons, flownSlots_cons, flownSlots_cons, ih]; unfold Flight.slots; rw [(hf x).1, (hf x).2]

theorem flownSlots_filter (u : Bool) (p : Flight → Bool) (fs : List Flight) :
    flownSlots u (fs.filter p) ≤ flownSlots u fs := by
  induction fs with
  | nil => exact Nat.le_refl _
  | cons x fs ih =>
    rw [List.filter_cons, flownSlots_cons]
    split
    · rw [flownSlots_cons]; omega
    · omega

theorem ageLanes_keeps {s0 s : State} (h : Keeps s0 s) (d : Nat) : Keeps s0 (ageLanes d s) := by
  unfold ageLanes
  extract_lets lane fly
  have hf : ∀ x, (fly x).ch = x.ch ∧ (fly x).recs = x.recs := fun _ => ⟨rfl, rfl⟩
  refine .ite h (modFifo_keeps (modSp_keeps h _) _ fun ⟨h1, h2, h3, h4⟩ => ⟨?_, ?_, h3, h4⟩)
  · simpa only [Fifo.uUsed, flownSlots_map _ fly hf] using h1
  · simpa only [Fifo.bUsed, flownSlots_map _ fly hf] using h2

theorem landFlights_keeps {s0 s : State} (h : Keeps s0 s) : Keeps s0 (landFlights s) := by
  unfold landFlights
  extract_lets done n
  refine .ite h (overflowEnds_keeps (modSp_keeps (modFifo_keeps h _ fun ⟨h1, h2, h3, h4⟩ => ⟨?_, ?_, h3, h4⟩) _))
  · have := flownSlots_filter true (fun x => !done x) s.fifo.flights
    unfold Fifo.uUsed at h1 ⊢
    dsimp only
    omega
  · have := flownSlots_filter false (fun x => !done x) s.fifo.flights
    unfold Fifo.bUsed at h2 ⊢
    dsimp only
    omega

theorem renewed_keeps {s0 s : State} (h : Keeps s0 s) (d : Nat) : Keeps s0 (s.renewed d) := .ite h (h.upd rfl)

end Sys2Proof.Machine
end

