-- ==== Sys2Proof/Laws/KeepsPorts.lean ====
section
/-! SUPPORT. Lemmas of Laws/Keeps.lean for the port queues, measurement, conversion, tones and the generators. -/
namespace Sys2Proof.Machine

theorem retracted_keeps {s0 s : State} (h : Keeps s0 s) (a : Fin 4) (n : Nat) : Keeps s0 (retracted a n s) := by
  unfold retracted
  repeat' first
    | with_reducible assumption | with_reducible apply modAxis_keeps | with_reducible apply raise_keeps
    | with_reducible refine Keeps.ite ?_ ?_ | split | dsimp only

theorem dropPulse_keeps {s0 s : State} (h : Keeps s0 s) (p : Fin 64) (x : Pulse) : Keeps s0 (dropPulse p x s) := by
  unfold dropPulse
  repeat' first
    | with_reducible assumption | with_reducible apply modPort_keeps | with_reducible refine Keeps.ite ?_ ?_ | split
    | dsimp only

theorem addPulse_keeps {s0 s : State} (h : Keeps s0 s) (p : Fin 64) (x : Pulse) : Keeps s0 (addPulse p x s) := by
  unfold addPulse
  repeat' first
    | with_reducible assumption | with_reducible apply modPort_keeps | with_reducible refine Keeps.ite ?_ ?_ | split
    | dsimp only

theorem countRemoved_keeps {s0 s : State} (h : Keeps s0 s) (p : Fin 64) (n : Nat) : Keeps s0 (countRemoved p n s) := by
  unfold countRemoved
  repeat' first
    | with_reducible assumption | with_reducible apply modCluster_keeps | with_reducible refine Keeps.ite ?_ ?_ | split
    | dsimp only

theorem retractPulse_keeps {s0 s : State} (h : Keeps s0 s) (p : Fin 64) (x : Pulse) (withMiss : Bool) :
    Keeps s0 (retractPulse p x withMiss s) := by
  unfold retractPulse
  extract_lets s1 s2
  have k1 : Keeps s0 s1 := countRemoved_keeps (dropPulse_keeps h _ _) _ _
  have k2 : Keeps s0 s2 := by
    unfold s2
    split
    · exact retracted_keeps k1 _ _
    · exact k1
  exact .ite (miss_keeps k2 _ _) k2

theorem deferPulse_keeps {s0 s : State} (h : Keeps s0 s) (p : Fin 64) (o : TimeWord) (x : Pulse) (nominal : TimeWord) :
    Keeps s0 (deferPulse p o x nominal s).1 := by
  unfold deferPulse
  exact foldS_keeps (modPort_keeps h _ _) fun _ _ h => miss_keeps h _ _

theorem deferScheduled_keeps {s0 s : State} (h : Keeps s0 s) (p : Fin 64) (o : TimeWord) (x : Pulse) (nominal : TimeWord) :
    Keeps s0 (deferScheduled p o x nominal s) :=
  .ite (deferPulse_keeps h p o x nominal) (countRemoved_keeps (deferPulse_keeps h p o x nominal) _ _)

theorem accepted_keeps {s0 s : State} (h : Keeps s0 s) (p : Fin 64) (t : Trigger) : Keeps s0 (accepted p t s) := by
  unfold accepted
  repeat' first
    | with_reducible assumption | intro _ _ _ | with_reducible apply modPort_keeps | with_reducible refine Keeps.ite ?_ ?_
    | split | dsimp only

theorem deferTriggered_keeps {s0 s : State} (h : Keeps s0 s) (p : Fin 64) (o : TimeWord) (t : Trigger) (x : Pulse)
    (nominal : TimeWord) : Keeps s0 (deferTriggered p o t x nominal s) :=
  .ite (accepted_keeps (deferPulse_keeps h p o x nominal) _ _) (deferPulse_keeps h p o x nominal)

theorem placeTriggered_keeps {s0 s : State} (h : Keeps s0 s) (p : Fin 64) (t : Trigger) (l : TimeWord) :
    Keeps s0 (placeTriggered p t l s) := by
  unfold placeTriggered
  repeat' first
    | with_reducible assumption | intro _ _ _ | with_reducible apply deferTriggered_keeps | with_reducible apply miss_keeps
    | with_reducible apply accepted_keeps | with_reducible apply addPulse_keeps | with_reducible apply modPort_keeps
    | with_reducible refine Keeps.ite ?_ ?_ | (with_reducible refine foldS_keeps ?_ (fun _ _ _ => ?_)) | split | dsimp only

theorem decideTrigger_keeps {s0 s : State} (h : Keeps s0 s) (p : Fin 64) (armed refused : Bool) (t : Trigger) :
    Keeps s0 (decideTrigger p armed refused t s) := by
  unfold decideTrigger
  repeat' first
    | with_reducible assumption | with_reducible apply miss_keeps | with_reducible apply deferTriggered_keeps
    | with_reducible apply placeTriggered_keeps | with_reducible refine Keeps.ite ?_ ?_ | split | dsimp only

theorem meetBound_keeps (p : Fin 64) (x : Pulse) : ∀ (n : Nat) {s0 s : State}, Keeps s0 s → Keeps s0 (meetBound p x n s)
  | 0, _, _, h => addPulse_keeps h _ _
  | n + 1, s0, s, h => by
    unfold meetBound
    repeat' first
      | with_reducible assumption | intro _ _ _ | with_reducible apply addPulse_keeps
      | with_reducible apply meetBound_keeps p x n | with_reducible apply retractPulse_keeps | with_reducible apply miss_keeps
      | with_reducible apply countRemoved_keeps | with_reducible apply retracted_keeps | with_reducible refine Keeps.ite ?_ ?_
      | with_reducible refine Keeps.cond ?_ ?_ | (with_reducible refine eachFin_keeps ?_ (fun _ _ _ => ?_))
      | (with_reducible refine foldS_keeps ?_ (fun _ _ _ => ?_)) | with_reducible exact Keeps.mk_of (by assumption) | split
      | dsimp only

theorem settlePulse_keeps {s0 s : State} (h : Keeps s0 s) (p : Fin 64) (x : Pulse) : Keeps s0 (settlePulse p x s) := by
  unfold settlePulse
  repeat' first
    | with_reducible assumption | with_reducible apply addPulse_keeps | with_reducible apply deferScheduled_keeps
    | with_reducible apply miss_keeps | with_reducible apply countRemoved_keeps | with_reducible apply meetBound_keeps
    | with_reducible refine Keeps.ite ?_ ?_ | split | dsimp only

theorem commitPort_keeps {s0 s : State} (h : Keeps s0 s) (p : Fin 64) (cyc : TimeWord) : Keeps s0 (commitPort p cyc s) := by
  unfold commitPort
  repeat' first
    | with_reducible assumption | with_reducible apply modPort_keeps | with_reducible refine Keeps.ite ?_ ?_ | split
    | dsimp only

theorem leaveLeading_keeps {s0 s : State} (h : Keeps s0 s) (p : Fin 64) (x : Pulse) : Keeps s0 (leaveLeading p x s) := by
  unfold leaveLeading
  extract_lets t s2
  have ks2 : Keeps s0 s2 := by repeat' first
    | with_reducible assumption | with_reducible apply modPort_keeps | with_reducible apply raiseAt_keeps
    | with_reducible apply modCluster_keeps | with_reducible refine Keeps.ite ?_ ?_ | split | dsimp only
  clear_value s2
  repeat' first
    | with_reducible assumption | with_reducible apply modPort_keeps | with_reducible apply raiseAt_keeps
    | with_reducible apply modCluster_keeps | with_reducible refine Keeps.ite ?_ ?_ | split | dsimp only

theorem leaveTrailing_keeps {s0 s : State} (h : Keeps s0 s) (p : Fin 64) (x : Pulse) : Keeps s0 (leaveTrailing p x s) := by
  unfold leaveTrailing
  repeat' first
    | with_reducible assumption | with_reducible apply modPort_keeps | with_reducible refine Keeps.ite ?_ ?_ | split
    | dsimp only

theorem mfOpen_keeps {s0 s : State} (h : Keeps s0 s) (m : Fin 16) (e : MfEdge) (early : Option TimeWord) :
    Keeps s0 (mfOpen m e early s) := by
  unfold mfOpen
  repeat' first
    | with_reducible assumption | with_reducible apply modMf_keeps | with_reducible refine Keeps.ite ?_ ?_ | split
    | dsimp only

theorem mfStart_keeps {s0 s : State} (h : Keeps s0 s) (m : Fin 16) (e : MfEdge) : Keeps s0 (mfStart m e s) := by
  unfold mfStart
  extract_lets f
  repeat' first
    | with_reducible assumption | with_reducible apply modMf_keeps | with_reducible apply mfOpen_keeps
    | with_reducible apply miss_keeps | with_reducible refine Keeps.ite ?_ ?_ | split | dsimp only

theorem mfReplay_keeps {s0 s : State} (h : Keeps s0 s) (m : Fin 16) : Keeps s0 (mfReplay m s) := by
  unfold mfReplay
  extract_lets es
  repeat' first
    | with_reducible assumption | intro _ _ _ | with_reducible apply mfStart_keeps | with_reducible apply modMf_keeps
    | with_reducible refine Keeps.ite ?_ ?_ | with_reducible refine foldS_keeps ?_ ?_ | split | dsimp only

theorem mfArmed_keeps {s0 s : State} (h : Keeps s0 s) (m : Fin 16) (i : TimeWord) (byLevel : Bool) :
    Keeps s0 (mfArmed m i byLevel s) := by
  unfold mfArmed
  repeat' first
    | with_reducible assumption | intro _ _ _ | with_reducible apply mfReplay_keeps | with_reducible apply modMf_keeps
    | with_reducible refine Keeps.ite ?_ ?_ | split | dsimp only

theorem mfArm_keeps {s0 s : State} (h : Keeps s0 s) (m : Fin 16) (i : TimeWord) : Keeps s0 (mfArm m i s) := by
  unfold mfArm
  repeat' first
    | with_reducible assumption | intro _ _ _ | with_reducible apply mfArmed_keeps | with_reducible apply modMf_keeps
    | with_reducible refine Keeps.ite ?_ ?_ | split | dsimp only

theorem mfFollow_keeps {s0 s : State} (h : Keeps s0 s) (m : Fin 16) (t : TimeWord) : Keeps s0 (mfFollow m t s) := by
  unfold mfFollow
  repeat' first
    | with_reducible assumption | intro _ _ _ | with_reducible apply mfArmed_keeps | with_reducible apply modMf_keeps
    | with_reducible refine Keeps.ite ?_ ?_ | split | dsimp only

theorem mfSourceChange_keeps {s0 s : State} (h : Keeps s0 s) (src : ArmSrc) (high : Bool) (t : TimeWord) :
    Keeps s0 (mfSourceChange src high t s) := by
  unfold mfSourceChange
  repeat' first
    | with_reducible assumption | intro _ _ _ | with_reducible apply mfFollow_keeps | with_reducible apply mfArm_keeps
    | with_reducible refine Keeps.ite ?_ ?_ | with_reducible refine eachFin_keeps ?_ ?_ | split | dsimp only

theorem mfFollowAll_keeps {s0 s : State} (h : Keeps s0 s) (t : TimeWord) : Keeps s0 (mfFollowAll t s) := by
  unfold mfFollowAll
  repeat' first
    | with_reducible assumption | intro _ _ _ | with_reducible apply mfFollow_keeps | with_reducible refine Keeps.ite ?_ ?_
    | with_reducible refine eachFin_keeps ?_ ?_ | split | dsimp only

theorem mfStop_keeps {s0 s : State} (h : Keeps s0 s) (m : Fin 16) (e : MfEdge) : Keeps s0 (mfStop m e s) := by
  unfold mfStop
  repeat' first
    | with_reducible assumption | with_reducible apply modMf_keeps | with_reducible refine Keeps.ite ?_ ?_ | split
    | dsimp only

theorem mfEdge_keeps {s0 s : State} (h : Keeps s0 s) (e : MfEdge) : Keeps s0 (mfEdge e s) := by
  unfold mfEdge
  repeat' first
    | with_reducible assumption | intro _ _ _ | with_reducible apply mfStop_keeps | with_reducible apply mfStart_keeps
    | with_reducible refine Keeps.ite ?_ ?_ | with_reducible refine eachFin_keeps ?_ ?_ | split | dsimp only

theorem mfAbort_keeps {s0 s : State} (h : Keeps s0 s) (m : Fin 16) : Keeps s0 (mfAbort m s) := by
  unfold mfAbort
  repeat' first
    | with_reducible assumption | with_reducible apply modMf_keeps | with_reducible refine Keeps.ite ?_ ?_ | split
    | dsimp only

theorem mfStartTask_keeps {s0 s : State} (h : Keeps s0 s) (m : Fin 16) (cyc : TimeWord) : Keeps s0 (mfStartTask m cyc s) := by
  unfold mfStartTask
  extract_lets f
  repeat' first
    | with_reducible assumption | with_reducible apply mfArm_keeps | with_reducible refine Keeps.ite ?_ ?_ | split
    | dsimp only

theorem mfResult_keeps {s0 s : State} (h : Keeps s0 s) (m : Fin 16) (x : MfPre) : Keeps s0 (mfResult m x s) := by
  unfold mfResult
  repeat' first
    | with_reducible assumption | intro _ _ _ | with_reducible apply modMf_keeps | with_reducible refine Keeps.ite ?_ ?_
    | with_reducible exact Keeps.mk_of (by assumption) | split | dsimp only

theorem mfForm_keeps {s0 s : State} (h : Keeps s0 s) (m : Fin 16) : Keeps s0 (mfForm m s) := by
  unfold mfForm
  extract_lets runs s'
  have ks' : Keeps s0 s' := by repeat' first
    | with_reducible assumption | intro _ _ _ | with_reducible apply modMf_keeps | with_reducible apply mfResult_keeps
    | with_reducible refine Keeps.ite ?_ ?_ | with_reducible refine foldS_keeps ?_ ?_ | split | dsimp only
  clear_value s'
  repeat' first
    | with_reducible assumption | intro _ _ _ | with_reducible apply modMf_keeps | with_reducible apply mfResult_keeps
    | with_reducible refine Keeps.ite ?_ ?_ | with_reducible refine foldS_keeps ?_ ?_ | split | dsimp only

theorem mfAfterRun_keeps {s0 s : State} (h : Keeps s0 s) (m : Fin 16) (end_ : TimeWord) : Keeps s0 (mfAfterRun m end_ s) := by
  unfold mfAfterRun
  repeat' first
    | with_reducible assumption | intro _ _ _ | with_reducible apply modMf_keeps | with_reducible apply mfFollow_keeps
    | with_reducible apply mfArmed_keeps | with_reducible apply mfReplay_keeps | with_reducible refine Keeps.ite ?_ ?_
    | split | dsimp only

theorem mfClose_keeps {s0 s : State} (h : Keeps s0 s) (m : Fin 16) : Keeps s0 (mfClose m s) := by
  unfold mfClose
  extract_lets f
  repeat' first
    | with_reducible assumption | with_reducible apply modMf_keeps | with_reducible apply mfForm_keeps
    | with_reducible apply mfAfterRun_keeps | with_reducible refine Keeps.ite ?_ ?_ | split | dsimp only

theorem axisIndex_keeps {s0 s : State} (h : Keeps s0 s) (src : EdgeSrc) (sense : Sense) (t : TimeWord) (flagged : Bool) :
    Keeps s0 (axisIndex src sense t flagged s) := by
  unfold axisIndex
  repeat' first
    | with_reducible assumption | intro _ _ _ | with_reducible apply modAxis_keeps | with_reducible refine Keeps.ite ?_ ?_
    | with_reducible refine eachFin_keeps ?_ ?_ | split | dsimp only

theorem axisCount_keeps {s0 s : State} (h : Keeps s0 s) (src : EdgeSrc) (sense : Sense) (t : TimeWord) (flagged : Bool) :
    Keeps s0 (axisCount src sense t flagged s) := by
  unfold axisCount
  repeat' first
    | with_reducible assumption | intro _ _ _ | with_reducible apply modAxis_keeps | with_reducible refine Keeps.ite ?_ ?_
    | with_reducible refine eachFin_keeps ?_ ?_ | split | dsimp only

theorem padEdges_keeps {s0 s : State} (h : Keeps s0 s) (src : EdgeSrc) (sense : Sense) (t : TimeWord) :
    Keeps s0 (padEdges src sense t s) := by
  unfold padEdges
  repeat' first
    | with_reducible assumption | intro _ _ _ | with_reducible apply modPort_keeps | with_reducible refine Keeps.ite ?_ ?_
    | (with_reducible refine eachFin_keeps ?_ (fun _ _ _ => ?_)) | split | dsimp only

theorem consume_keeps {s0 s : State} (h : Keeps s0 s) (p : Fin 64) (c : Conv) (prov shifted : Bool) :
    Keeps s0 (consume p c prov shifted s) := by
  unfold consume
  repeat' first
    | with_reducible assumption | intro _ _ _ | with_reducible apply mfEdge_keeps | with_reducible apply axisIndex_keeps
    | with_reducible apply axisCount_keeps | with_reducible apply modPort_keeps | with_reducible apply mfSourceChange_keeps
    | with_reducible refine Keeps.ite ?_ ?_ | split | dsimp only

theorem convert_keeps {s0 s : State} (h : Keeps s0 s) (p : Fin 64) (falling : Bool) (stop : TimeWord) (code : Nat) (uv : Int) :
    Keeps s0 (convert p falling stop code uv s) := by
  unfold convert
  repeat' first
    | with_reducible assumption | intro _ _ _ | with_reducible apply modPort_keeps | with_reducible apply miss_keeps
    | with_reducible apply padEdges_keeps | with_reducible refine Keeps.ite ?_ ?_
    | with_reducible exact Keeps.mk_of (by assumption) | split | dsimp only

theorem formStamp_keeps {s0 s : State} (h :
    Keeps s0 s) (p : Fin 64) (time : TimeWord) (falling : Bool) (flags : BitVec 16) (fl : Flags) :
    Keeps s0 (formStamp p time falling flags fl s) := by
  unfold formStamp
  extract_lets q r0 r s4
  have ks4 : Keeps s0 s4 := by repeat' first
    | with_reducible assumption | with_reducible apply modPort_keeps | with_reducible apply raisePortAt_keeps
    | with_reducible refine Keeps.ite ?_ ?_ | split | dsimp only
  clear_value s4
  repeat' first
    | with_reducible assumption | with_reducible apply modPort_keeps | with_reducible apply raisePortAt_keeps
    | with_reducible refine Keeps.ite ?_ ?_ | split | dsimp only

theorem formConv_keeps {s0 s : State} (h : Keeps s0 s) (p : Fin 64) (c : Conv) : Keeps s0 (formConv p c s) := by
  unfold formConv
  repeat' first
    | with_reducible assumption | intro _ _ _ | with_reducible apply miss_keeps | with_reducible apply formStamp_keeps
    | with_reducible apply modPort_keeps | with_reducible refine Keeps.ite ?_ ?_ | split | dsimp only

theorem gateConv_keeps {s0 s : State} (h : Keeps s0 s) (p : Fin 64) (c : Conv) : Keeps s0 (gateConv p c s) := by
  unfold gateConv
  repeat' first
    | with_reducible assumption | intro _ _ _ | with_reducible apply formConv_keeps | with_reducible apply modPort_keeps
    | with_reducible refine Keeps.ite ?_ ?_ | split | dsimp only

theorem formatNext_keeps {s0 s : State} (h : Keeps s0 s) (p : Fin 64) : Keeps s0 (formatNext p s) := by
  unfold formatNext
  repeat' first
    | with_reducible assumption | intro _ _ _ | with_reducible apply modPort_keeps | with_reducible apply gateConv_keeps
    | with_reducible apply consume_keeps | with_reducible refine Keeps.ite ?_ ?_ | split | dsimp only

theorem decideGated_keeps (p : Fin 64) : ∀ (n : Nat) {s0 s : State}, Keeps s0 s → Keeps s0 (decideGated p n s)
  | 0, _, _, h => h
  | n + 1, s0, s, h => by
    unfold decideGated
    split
    · exact h
    · exact .ite h (decideGated_keeps p n (.ite (formConv_keeps (modPort_keeps h _ _) _ _) (modPort_keeps h _ _)))

theorem format_keeps {s0 s : State} (h : Keeps s0 s) (p : Fin 64) : Keeps s0 (format p s) :=
  formatNext_keeps (decideGated_keeps p _ h) p

theorem markHold_keeps {s0 s : State} (h : Keeps s0 s) (p : Fin 64) (t : TimeWord) : Keeps s0 (markHold p t s) := by
  unfold markHold
  repeat' first
    | with_reducible assumption | intro _ _ _ | with_reducible refine Keeps.ite ?_ ?_
    | with_reducible exact Keeps.mk_of (by assumption) | split | dsimp only

theorem formHeld_keeps {s0 s : State} (h : Keeps s0 s) (p : Fin 64) (e : HeldEcho) : Keeps s0 (formHeld p e s) := by
  unfold formHeld
  repeat' first
    | with_reducible assumption | with_reducible apply markHold_keeps | with_reducible apply formStamp_keeps
    | with_reducible refine Keeps.ite ?_ ?_ | split | dsimp only

theorem releaseHeld_keeps {s0 s : State} (h : Keeps s0 s) (p : Fin 64) : Keeps s0 (releaseHeld p s) := by
  unfold releaseHeld
  extract_lets q ready s3
  have ks3 : Keeps s0 s3 := by repeat' first
    | with_reducible assumption | intro _ _ _ | with_reducible apply modPort_keeps | with_reducible apply formHeld_keeps
    | with_reducible refine Keeps.ite ?_ ?_ | with_reducible refine foldS_keeps ?_ ?_ | split | dsimp only
  clear_value s3
  repeat' first
    | with_reducible assumption | intro _ _ _ | with_reducible apply modPort_keeps | with_reducible apply formHeld_keeps
    | with_reducible refine Keeps.ite ?_ ?_ | with_reducible refine foldS_keeps ?_ ?_ | split | dsimp only

theorem overrangeOn_keeps {s0 s : State} (h : Keeps s0 s) (p : Fin 64) (a : TimeWord) : Keeps s0 (overrangeOn p a s) := by
  unfold overrangeOn
  extract_lets q
  repeat' first
    | with_reducible assumption | with_reducible apply modPort_keeps | with_reducible apply raiseAt_keeps
    | with_reducible refine Keeps.ite ?_ ?_ | split | dsimp only

theorem overrangeOff_keeps {s0 s : State} (h : Keeps s0 s) (p : Fin 64) (z : TimeWord) : Keeps s0 (overrangeOff p z s) := by
  unfold overrangeOff
  repeat' first
    | with_reducible assumption | with_reducible apply modPort_keeps | with_reducible refine Keeps.ite ?_ ?_ | split
    | dsimp only

theorem trgEdge_keeps {s0 s : State} (h : Keeps s0 s) (n : Fin 8) (falling : Bool) (t : TimeWord) :
    Keeps s0 (trgEdge n falling t s) := by
  unfold trgEdge
  repeat' first
    | with_reducible assumption | intro _ _ _ | with_reducible apply modTrg_keeps | with_reducible apply raise_keeps
    | with_reducible apply axisIndex_keeps | with_reducible apply axisCount_keeps | with_reducible apply padEdges_keeps
    | with_reducible apply mfSourceChange_keeps | with_reducible refine Keeps.ite ?_ ?_ | split | dsimp only

theorem changeFtw_keeps {s0 s : State} (h : Keeps s0 s) (p : Fin 64) (new : Nat) (T : TimeWord) :
    Keeps s0 (changeFtw p new T s) := by
  unfold changeFtw
  repeat' first
    | with_reducible assumption | with_reducible apply modPort_keeps | with_reducible refine Keeps.ite ?_ ?_ | split
    | dsimp only

theorem startTone_keeps {s0 s : State} (h : Keeps s0 s) (p : Fin 64) : Keeps s0 (startTone p s) := by
  unfold startTone
  repeat' first
    | with_reducible assumption | intro _ _ _ | with_reducible apply modPort_keeps | with_reducible refine Keeps.ite ?_ ?_
    | split | dsimp only

theorem armPort_keeps {s0 s : State} (h : Keeps s0 s) (p : Fin 64) : Keeps s0 (armPort p s) := by
  unfold armPort
  repeat' first
    | with_reducible assumption | intro _ _ _ | with_reducible apply modPort_keeps | with_reducible apply startTone_keeps
    | with_reducible refine Keeps.ite ?_ ?_ | split | dsimp only

theorem disarmPort_keeps {s0 s : State} (h : Keeps s0 s) (p : Fin 64) : Keeps s0 (disarmPort p s) := by
  unfold disarmPort
  repeat' first
    | with_reducible assumption | with_reducible apply modPort_keeps | with_reducible refine Keeps.ite ?_ ?_ | split
    | dsimp only

theorem toneTick_keeps {s0 s : State} (h : Keeps s0 s) (p : Fin 64) : Keeps s0 (toneTick p s) := by
  unfold toneTick
  extract_lets q
  repeat' first
    | with_reducible assumption | with_reducible apply changeFtw_keeps | with_reducible apply modPort_keeps
    | with_reducible refine Keeps.ite ?_ ?_ | split | dsimp only

theorem modAgs_keeps {s0 s : State} (h : Keeps s0 s) (g : Fin 8) (f : Ag → Ag) : Keeps s0 (modAgs g f s) := h.upd rfl

theorem sampleInputs_keeps {s0 s : State} (h : Keeps s0 s) (g : Fin 8) (t : TimeWord) : Keeps s0 (sampleInputs g t s) := by
  unfold sampleInputs
  extract_lets ps
  repeat' first
    | with_reducible assumption | intro _ _ _ | with_reducible apply modPort_keeps | with_reducible refine Keeps.ite ?_ ?_
    | with_reducible refine foldS_keeps ?_ ?_ | split | dsimp only

theorem agLoad_keeps {s0 s : State} (h : Keeps s0 s) (g : Fin 8) (S : TimeWord) : Keeps s0 (agLoad g S s) := by
  unfold agLoad
  repeat' first
    | with_reducible assumption | with_reducible apply sampleInputs_keeps | with_reducible apply modAgs_keeps
    | with_reducible refine Keeps.ite ?_ ?_ | split | dsimp only

theorem agGate_keeps {s0 s : State} (h : Keeps s0 s) (g : Fin 8) (t : TimeWord) : Keeps s0 (agGate g t s) := by
  unfold agGate
  extract_lets x
  repeat' first
    | with_reducible assumption | with_reducible apply modAgs_keeps | with_reducible refine Keeps.ite ?_ ?_ | split
    | dsimp only

theorem agStop_keeps {s0 s : State} (h : Keeps s0 s) (g : Fin 8) (t : TimeWord) : Keeps s0 (agStop g t s) := by
  unfold agStop
  repeat' first
    | with_reducible assumption | with_reducible apply modAgs_keeps | with_reducible refine Keeps.ite ?_ ?_ | split
    | dsimp only

theorem agRealign_keeps {s0 s : State} (h : Keeps s0 s) (g : Fin 8) (t : TimeWord) : Keeps s0 (agRealign g t s) := by
  unfold agRealign
  repeat' first
    | with_reducible assumption | with_reducible apply modAgs_keeps | with_reducible refine Keeps.ite ?_ ?_ | split
    | dsimp only

theorem agWordStep_keeps {s0 s : State} (h : Keeps s0 s) (n : Fin 8) : Keeps s0 (agWordStep n s) := by
  unfold agWordStep
  extract_lets x
  repeat' first
    | with_reducible assumption | with_reducible apply modAg_keeps | with_reducible refine Keeps.ite ?_ ?_ | split
    | dsimp only

theorem agSampleStep_keeps {s0 s : State} (h : Keeps s0 s) (n : Fin 8) : Keeps s0 (agSampleStep n s) := by
  unfold agSampleStep
  extract_lets x
  repeat' first
    | with_reducible assumption | with_reducible apply modAg_keeps | with_reducible refine Keeps.ite ?_ ?_ | split
    | dsimp only

end Sys2Proof.Machine
end

