-- ==== Sys2Proof/Laws/KeepsAxes.lean ====
section
/-! SUPPORT. Lemmas of Laws/Keeps.lean for the pattern sequencers and the axes. -/
namespace Sys2Proof.Machine

theorem raiseGroup_keeps {s0 s : State} (h : Keeps s0 s) (g : Fin 8) (i : Fin 6) (t : TimeWord) (n : Nat) :
    Keeps s0 (raiseGroup g i t n s) := by
  unfold raiseGroup
  repeat' first
    | with_reducible assumption | with_reducible apply raiseAt_keeps | with_reducible refine Keeps.ite ?_ ?_ | split
    | dsimp only

theorem keepSample_keeps {s0 s : State} (h : Keeps s0 s) (g : Fin 8) (t : TimeWord) : Keeps s0 (keepSample g t s) := by
  unfold keepSample
  repeat' first
    | with_reducible assumption | intro _ _ _ | with_reducible apply modGroup_keeps | with_reducible refine Keeps.ite ?_ ?_
    | split | dsimp only

theorem haltGroup_keeps {s0 s : State} (h : Keeps s0 s) (g : Fin 8) (c : HaltCause) (t : TimeWord) :
    Keeps s0 (haltGroup g c t s) := by
  unfold haltGroup
  repeat' first
    | with_reducible assumption | intro _ _ _ | with_reducible apply keepSample_keeps | with_reducible apply modGroup_keeps
    | with_reducible apply agStop_keeps | with_reducible apply raiseGroup_keeps | with_reducible refine Keeps.ite ?_ ?_
    | split | dsimp only

theorem groupStart_keeps {s0 s : State} (h : Keeps s0 s) (g : Fin 8) (cyc : TimeWord) (fl : Flags) :
    Keeps s0 (groupStart g cyc fl s) := by
  unfold groupStart
  repeat' first
    | with_reducible assumption | intro _ _ _ | with_reducible apply agLoad_keeps | with_reducible apply modGroup_keeps
    | with_reducible refine Keeps.ite ?_ ?_ | split | dsimp only

theorem groupStep_keeps {s0 s : State} (h : Keeps s0 s) (g : Fin 8) (n : Nat) (cyc : TimeWord) (fl : Flags) (started : Bool) :
    Keeps s0 (groupStep g n cyc fl started s) := by
  unfold groupStep
  repeat' first
    | with_reducible assumption | with_reducible apply modGroup_keeps | with_reducible refine Keeps.ite ?_ ?_ | split
    | dsimp only

theorem groupStop_keeps {s0 s : State} (h : Keeps s0 s) (g : Fin 8) (cyc : TimeWord) : Keeps s0 (groupStop g cyc s) := by
  unfold groupStop
  repeat' first
    | with_reducible assumption | with_reducible apply modGroup_keeps | with_reducible refine Keeps.ite ?_ ?_ | split
    | dsimp only

theorem advance_keeps (g : Fin 8) : ∀ (n : Nat) (t : TimeWord) {s0 s : State}, Keeps s0 s → Keeps s0 (advance g n t s)
  | 0, _, _, _, h => h
  | n + 1, t, s0, s, h => by
    unfold advance
    repeat' first
      | with_reducible assumption | intro _ _ _ | with_reducible apply advance_keeps g n | with_reducible apply modGroup_keeps
      | with_reducible apply agGate_keeps | with_reducible apply raiseGroup_keeps | with_reducible apply haltGroup_keeps
      | with_reducible apply agLoad_keeps | with_reducible apply keepSample_keeps | with_reducible refine Keeps.ite ?_ ?_
      | with_reducible refine Keeps.cond ?_ ?_ | (with_reducible refine eachFin_keeps ?_ (fun _ _ _ => ?_)) | (with_reducible refine foldS_keeps ?_ (fun _ _ _ => ?_))
      | with_reducible exact Keeps.mk_of (by assumption) | split | dsimp only

theorem checkFail_keeps {s0 s : State} (h : Keeps s0 s) (g : Fin 8) : Keeps s0 (checkFail g s) := by
  unfold checkFail
  repeat' first
    | with_reducible assumption | with_reducible apply modGroup_keeps | with_reducible apply agGate_keeps
    | with_reducible apply raiseGroup_keeps | with_reducible apply haltGroup_keeps | with_reducible refine Keeps.ite ?_ ?_
    | split | dsimp only

theorem finishStep_keeps {s0 s : State} (h : Keeps s0 s) (g : Fin 8) (r : StepRun) : Keeps s0 (finishStep g r s) := by
  unfold finishStep
  repeat' first
    | with_reducible assumption | intro _ _ _ | with_reducible apply keepSample_keeps | with_reducible apply modGroup_keeps
    | with_reducible apply raiseGroup_keeps | with_reducible refine Keeps.ite ?_ ?_ | split | dsimp only

theorem stepEnd_keeps {s0 s : State} (h : Keeps s0 s) (g : Fin 8) (r : StepRun) : Keeps s0 (stepEnd g r s) := by
  unfold stepEnd
  repeat' first
    | with_reducible assumption | with_reducible apply advance_keeps | with_reducible apply finishStep_keeps
    | with_reducible refine Keeps.ite ?_ ?_ | split | dsimp only

theorem finishTied_keeps {s0 s : State} (h : Keeps s0 s) (g : Fin 8) (t : TimeWord) : Keeps s0 (finishTied g t s) := by
  unfold finishTied
  repeat' first
    | with_reducible assumption | with_reducible apply finishStep_keeps | with_reducible refine Keeps.ite ?_ ?_ | split
    | dsimp only

theorem stopNow_keeps {s0 s : State} (h : Keeps s0 s) (g : Fin 8) (t : TimeWord) : Keeps s0 (stopNow g t s) := by
  unfold stopNow
  repeat' first
    | with_reducible assumption | with_reducible apply haltGroup_keeps | with_reducible apply finishTied_keeps
    | with_reducible refine Keeps.ite ?_ ?_ | split | dsimp only

theorem restartNow_keeps {s0 s : State} (h : Keeps s0 s) (g : Fin 8) (t : TimeWord) (r : Restart) :
    Keeps s0 (restartNow g t r s) := by
  unfold restartNow
  repeat' first
    | with_reducible assumption | intro _ _ _ | with_reducible apply keepSample_keeps
    | with_reducible apply finishTied_keeps | with_reducible apply agLoad_keeps | with_reducible apply modGroup_keeps
    | with_reducible apply advance_keeps | with_reducible apply raiseGroup_keeps | with_reducible refine Keeps.ite ?_ ?_
    | split | dsimp only

theorem boundary_keeps {s0 s : State} (h : Keeps s0 s) (g : Fin 8) : Keeps s0 (boundary g s) := by
  unfold boundary
  repeat' first
    | with_reducible assumption | intro _ _ _ | with_reducible apply checkFail_keeps | with_reducible apply stopNow_keeps
    | with_reducible apply restartNow_keeps | with_reducible apply modGroup_keeps | with_reducible apply advance_keeps
    | with_reducible apply raiseGroup_keeps | with_reducible apply stepEnd_keeps | with_reducible apply haltGroup_keeps
    | with_reducible apply keepSample_keeps | with_reducible apply agRealign_keeps | with_reducible refine Keeps.ite ?_ ?_
    | split | dsimp only

theorem waitTimeout_keeps {s0 s : State} (h : Keeps s0 s) (g : Fin 8) : Keeps s0 (waitTimeout g s) := by
  unfold waitTimeout
  repeat' first
    | with_reducible assumption | intro _ _ _ | with_reducible apply modGroup_keeps | with_reducible refine Keeps.ite ?_ ?_
    | split | dsimp only

theorem groupsLockloss_keeps {s0 s : State} (h : Keeps s0 s) : Keeps s0 (groupsLockloss s) := by
  unfold groupsLockloss
  repeat' first
    | with_reducible assumption | intro _ _ _ | with_reducible apply haltGroup_keeps | with_reducible refine Keeps.ite ?_ ?_
    | with_reducible refine eachFin_keeps ?_ ?_ | split | dsimp only

theorem dropDelivery_keeps {s0 s : State} (h : Keeps s0 s) (t : Fin 320) (sub : Nat) : Keeps s0 (dropDelivery t sub s) := by
  unfold dropDelivery
  repeat' first
    | with_reducible assumption | with_reducible apply modTask_keeps | with_reducible refine Keeps.ite ?_ ?_ | split
    | dsimp only

theorem assertTask_keeps {s0 s : State} (h : Keeps s0 s) (t : Fin 320) (sub : Option Nat) (fl : Flags) :
    Keeps s0 (assertTask t sub fl s) := by
  unfold assertTask
  repeat' first
    | with_reducible assumption | with_reducible apply modFabric_keeps | with_reducible refine Keeps.ite ?_ ?_ | split
    | dsimp only

theorem releaseDelivery_keeps {s0 s : State} (h : Keeps s0 s) (d : HeldDelivery) : Keeps s0 (releaseDelivery d s) := by
  unfold releaseDelivery
  repeat' first
    | with_reducible assumption | with_reducible apply dropDelivery_keeps | with_reducible apply modFabric_keeps
    | with_reducible apply assertTask_keeps | with_reducible refine Keeps.ite ?_ ?_ | split | dsimp only

theorem releaseDeliveries_keeps {s0 s : State} (h : Keeps s0 s) : Keeps s0 (releaseDeliveries s) := by
  unfold releaseDeliveries
  repeat' first
    | with_reducible assumption | intro _ _ _ | with_reducible apply releaseDelivery_keeps
    | with_reducible apply modFabric_keeps | with_reducible refine Keeps.ite ?_ ?_ | with_reducible refine foldS_keeps ?_ ?_
    | split | dsimp only

theorem release_keeps {s0 s : State} (h : Keeps s0 s) : Keeps s0 (release s) := by
  unfold release
  repeat' first
    | with_reducible assumption | intro _ _ _ | with_reducible apply releaseDeliveries_keeps
    | with_reducible apply mfForm_keeps | with_reducible apply releaseHeld_keeps | with_reducible refine Keeps.ite ?_ ?_
    | with_reducible refine eachFin_keeps ?_ ?_ | split | dsimp only

theorem retractSome_keeps {s0 s : State} (h : Keeps s0 s) (a : Fin 4) (sel : Frame → Bool → Bool) :
    Keeps s0 (retractSome a sel s) := by
  unfold retractSome
  repeat' first
    | with_reducible assumption | intro _ _ _ | with_reducible apply retractPulse_keeps
    | with_reducible apply retracted_keeps | with_reducible apply modPort_keeps | with_reducible apply modCluster_keeps
    | with_reducible apply modGroup_keeps | with_reducible refine Keeps.ite ?_ ?_
    | (with_reducible refine eachFin_keeps ?_ (fun _ _ _ => ?_)) | (with_reducible refine foldS_keeps ?_ (fun _ _ _ => ?_))
    | split | dsimp only

theorem retractEdges_keeps {s0 s : State} (h : Keeps s0 s) (a : Fin 4) (sel : Frame → Bool) :
    Keeps s0 (retractEdges a sel s) := by
  unfold retractEdges
  repeat' first
    | with_reducible assumption | intro _ _ _ | with_reducible apply retractSome_keeps
    | with_reducible refine Keeps.ite ?_ ?_ | split | dsimp only

theorem placeAll_keeps {s0 s : State} (h : Keeps s0 s) (p : Fin 64) (test : Bool) (xs : List Pulse) :
    Keeps s0 (placeAll p test xs s) := by
  unfold placeAll
  repeat' first
    | with_reducible assumption | intro _ _ _ | with_reducible apply retracted_keeps | with_reducible apply miss_keeps
    | with_reducible apply countRemoved_keeps | with_reducible apply settlePulse_keeps | with_reducible refine Keeps.ite ?_ ?_
    | with_reducible refine foldS_keeps ?_ ?_ | split | dsimp only

theorem rePlace_keeps {s0 s : State} (h :
    Keeps s0 s) (p : Fin 64) (test : Bool) (pick : Pulse → Bool) (time : Pulse → TimeWord) :
    Keeps s0 (rePlace p test pick time s) := by
  unfold rePlace
  extract_lets xs
  repeat' first
    | with_reducible assumption | with_reducible apply modPort_keeps | with_reducible apply placeAll_keeps
    | with_reducible refine Keeps.ite ?_ ?_ | split | dsimp only

theorem bindFrame_keeps {s0 s : State} (h :
    Keeps s0 s) (a : Fin 4) (n : Frame) (base : TimeWord) (test : Bool) (align64 : Bool) :
    Keeps s0 (bindFrame a n base test align64 s) := by
  unfold bindFrame
  extract_lets s1 s2
  have ks1 : Keeps s0 s1 := by repeat' first
    | with_reducible assumption | intro _ _ _ | with_reducible apply rePlace_keeps | with_reducible apply miss_keeps
    | with_reducible apply retracted_keeps | with_reducible apply modPort_keeps | with_reducible apply modCluster_keeps
    | with_reducible apply modGroup_keeps | with_reducible refine Keeps.ite ?_ ?_ | with_reducible refine eachFin_keeps ?_ ?_
    | split | dsimp only
  clear_value s1
  have ks2 : Keeps s0 s2 := by repeat' first
    | with_reducible assumption | intro _ _ _ | with_reducible apply rePlace_keeps | with_reducible apply miss_keeps
    | with_reducible apply retracted_keeps | with_reducible apply modPort_keeps | with_reducible apply modCluster_keeps
    | with_reducible apply modGroup_keeps | with_reducible refine Keeps.ite ?_ ?_ | with_reducible refine eachFin_keeps ?_ ?_
    | split | dsimp only
  clear_value s2
  repeat' first
    | with_reducible assumption | intro _ _ _ | with_reducible apply rePlace_keeps | with_reducible apply miss_keeps
    | with_reducible apply retracted_keeps | with_reducible apply modPort_keeps | with_reducible apply modCluster_keeps
    | with_reducible apply modGroup_keeps | with_reducible refine Keeps.ite ?_ ?_ | with_reducible refine eachFin_keeps ?_ ?_
    | split | dsimp only

theorem moveFrame_keeps {s0 s : State} (h : Keeps s0 s) (a : Fin 4) (n : Frame) (e : Int) : Keeps s0 (moveFrame a n e s) := by
  unfold moveFrame
  repeat' first
    | with_reducible assumption | intro _ _ _ | with_reducible apply rePlace_keeps | with_reducible apply miss_keeps
    | with_reducible apply retracted_keeps | with_reducible apply modPort_keeps | with_reducible apply modCluster_keeps
    | with_reducible apply modGroup_keeps | with_reducible refine Keeps.ite ?_ ?_ | with_reducible refine eachFin_keeps ?_ ?_
    | split | dsimp only

theorem unbindAll_keeps {s0 s : State} (h : Keeps s0 s) (a : Fin 4) : Keeps s0 (unbindAll a s) := by
  unfold unbindAll
  repeat' first
    | with_reducible assumption | intro _ _ _ | with_reducible apply modPort_keeps | with_reducible apply modCluster_keeps
    | with_reducible apply modGroup_keeps | with_reducible refine Keeps.ite ?_ ?_
    | (with_reducible refine eachFin_keeps ?_ (fun _ _ _ => ?_)) | split | dsimp only

theorem fixJoin_keeps {s0 s : State} (h : Keeps s0 s) (k : Fin 8) (e : TimeWord) : Keeps s0 (fixJoin k e s) := by
  unfold fixJoin
  repeat' first
    | with_reducible assumption | with_reducible apply modCluster_keeps | with_reducible refine Keeps.ite ?_ ?_ | split
    | dsimp only

theorem resolveWaiting_keeps {s0 s : State} (h : Keeps s0 s) (a : Fin 4) : Keeps s0 (resolveWaiting a s) := by
  unfold resolveWaiting
  repeat' first
    | with_reducible assumption | intro _ _ _ | with_reducible apply fixJoin_keeps | with_reducible apply haltGroup_keeps
    | with_reducible apply modGroup_keeps | with_reducible refine Keeps.ite ?_ ?_ | with_reducible refine eachFin_keeps ?_ ?_
    | split | dsimp only

theorem haltAligned_keeps {s0 s : State} (h : Keeps s0 s) (a : Fin 4) : Keeps s0 (haltAligned a s) := by
  unfold haltAligned
  repeat' first
    | with_reducible assumption | intro _ _ _ | with_reducible apply haltGroup_keeps | with_reducible refine Keeps.ite ?_ ?_
    | with_reducible refine eachFin_keeps ?_ ?_ | split | dsimp only

theorem raiseAxis_keeps {s0 s : State} (h : Keeps s0 s) (a : Fin 4) (i : Fin 6) : Keeps s0 (raiseAxis a i s) := by
  unfold raiseAxis
  repeat' first
    | with_reducible assumption | with_reducible apply raise_keeps | with_reducible refine Keeps.ite ?_ ?_ | split
    | dsimp only

theorem axisLoss_keeps {s0 s : State} (h : Keeps s0 s) (a : Fin 4) : Keeps s0 (axisLoss a s) := by
  unfold axisLoss
  repeat' first
    | with_reducible assumption | with_reducible apply raiseAxis_keeps | with_reducible apply modAxis_keeps
    | with_reducible refine Keeps.ite ?_ ?_ | split | dsimp only

theorem enterLost_keeps {s0 s : State} (h : Keeps s0 s) (a : Fin 4) (withLoss : Bool) : Keeps s0 (enterLost a withLoss s) := by
  unfold enterLost
  extract_lets s1 s2 s3
  have ks1 : Keeps s0 s1 := by repeat' first
    | with_reducible assumption | with_reducible apply retractEdges_keeps | with_reducible apply modAxis_keeps
    | with_reducible apply axisLoss_keeps | with_reducible apply release_keeps | with_reducible apply haltAligned_keeps
    | with_reducible refine Keeps.ite ?_ ?_ | split | dsimp only
  clear_value s1
  have ks2 : Keeps s0 s2 := by repeat' first
    | with_reducible assumption | with_reducible apply retractEdges_keeps | with_reducible apply modAxis_keeps
    | with_reducible apply axisLoss_keeps | with_reducible apply release_keeps | with_reducible apply haltAligned_keeps
    | with_reducible refine Keeps.ite ?_ ?_ | split | dsimp only
  clear_value s2
  have ks3 : Keeps s0 s3 := by repeat' first
    | with_reducible assumption | with_reducible apply retractEdges_keeps | with_reducible apply modAxis_keeps
    | with_reducible apply axisLoss_keeps | with_reducible apply release_keeps | with_reducible apply haltAligned_keeps
    | with_reducible refine Keeps.ite ?_ ?_ | split | dsimp only
  clear_value s3
  repeat' first
    | with_reducible assumption | with_reducible apply retractEdges_keeps | with_reducible apply modAxis_keeps
    | with_reducible apply axisLoss_keeps | with_reducible apply release_keeps | with_reducible apply haltAligned_keeps
    | with_reducible refine Keeps.ite ?_ ?_ | split | dsimp only

theorem restartAxis_keeps {s0 s : State} (h : Keeps s0 s) (a : Fin 4) : Keeps s0 (restartAxis a s) := by
  unfold restartAxis
  extract_lets s1 s2 s3
  have ks1 : Keeps s0 s1 := by repeat' first
    | with_reducible assumption | with_reducible apply retractEdges_keeps | with_reducible apply modAxis_keeps
    | with_reducible apply raiseAxis_keeps | with_reducible apply resolveWaiting_keeps | with_reducible apply release_keeps
    | with_reducible apply haltAligned_keeps | with_reducible refine Keeps.ite ?_ ?_ | split | dsimp only
  clear_value s1
  have ks2 : Keeps s0 s2 := by repeat' first
    | with_reducible assumption | with_reducible apply retractEdges_keeps | with_reducible apply modAxis_keeps
    | with_reducible apply raiseAxis_keeps | with_reducible apply resolveWaiting_keeps | with_reducible apply release_keeps
    | with_reducible apply haltAligned_keeps | with_reducible refine Keeps.ite ?_ ?_ | split | dsimp only
  clear_value s2
  have ks3 : Keeps s0 s3 := by repeat' first
    | with_reducible assumption | with_reducible apply retractEdges_keeps | with_reducible apply modAxis_keeps
    | with_reducible apply raiseAxis_keeps | with_reducible apply resolveWaiting_keeps | with_reducible apply release_keeps
    | with_reducible apply haltAligned_keeps | with_reducible refine Keeps.ite ?_ ?_ | split | dsimp only
  clear_value s3
  repeat' first
    | with_reducible assumption | with_reducible apply retractEdges_keeps | with_reducible apply modAxis_keeps
    | with_reducible apply raiseAxis_keeps | with_reducible apply resolveWaiting_keeps | with_reducible apply release_keeps
    | with_reducible apply haltAligned_keeps | with_reducible refine Keeps.ite ?_ ?_ | split | dsimp only

theorem wrapAt_keeps {s0 s : State} (h : Keeps s0 s) (a : Fin 4) (n : Frame) : Keeps s0 (wrapAt a n s) := by
  unfold wrapAt
  repeat' first
    | with_reducible assumption | with_reducible apply raiseAxis_keeps | with_reducible refine Keeps.ite ?_ ?_ | split
    | dsimp only

theorem decideNow_keeps {s0 s : State} (h : Keeps s0 s) (f : ProvFrame) : Keeps s0 (decideNow f s) := by
  unfold decideNow
  repeat' first
    | with_reducible assumption | intro _ _ _ | with_reducible refine Keeps.ite ?_ ?_
    | with_reducible exact Keeps.mk_of (by assumption) | split | dsimp only

theorem confirmFrame_keeps {s0 s : State} (h : Keeps s0 s) (a : Fin 4) (n : Frame) (t : TimeWord) (reacquired : Bool) :
    Keeps s0 (confirmFrame a n t reacquired s) := by
  unfold confirmFrame
  repeat' first
    | with_reducible assumption | intro _ _ _ | with_reducible apply decideNow_keeps | with_reducible apply modAxis_keeps
    | with_reducible apply retractSome_keeps | with_reducible apply bindFrame_keeps | with_reducible apply moveFrame_keeps
    | with_reducible apply release_keeps | with_reducible apply raiseAxis_keeps | with_reducible apply raise_keeps
    | with_reducible apply resolveWaiting_keeps | with_reducible apply wrapAt_keeps | with_reducible refine Keeps.ite ?_ ?_
    | split | dsimp only

theorem retractUpTo_keeps {s0 s : State} (h : Keeps s0 s) (a : Fin 4) (n : Frame) : Keeps s0 (retractUpTo a n s) := by
  unfold retractUpTo
  repeat' first
    | with_reducible assumption | intro _ _ _ | with_reducible apply retractSome_keeps
    | with_reducible refine Keeps.ite ?_ ?_ | split | dsimp only

theorem retractFrame_keeps {s0 s : State} (h : Keeps s0 s) (a : Fin 4) (n : Frame) (at_ : TimeWord) (real : Bool) (misses : Nat) :
    Keeps s0 (retractFrame a n at_ real misses s) := by
  unfold retractFrame
  repeat' first
    | with_reducible assumption | intro _ _ _ | with_reducible apply decideNow_keeps
    | with_reducible apply retractUpTo_keeps | with_reducible apply retractEdges_keeps | with_reducible apply modAxis_keeps
    | with_reducible apply retracted_keeps | with_reducible apply wrapAt_keeps | with_reducible apply release_keeps
    | with_reducible refine Keeps.ite ?_ ?_ | split | dsimp only

theorem acquireEdge_keeps {s0 s : State} (h : Keeps s0 s) (a : Fin 4) (t : TimeWord) : Keeps s0 (acquireEdge a t s) := by
  unfold acquireEdge
  extract_lets x keep
  repeat' first
    | with_reducible assumption | with_reducible apply raiseAxis_keeps | with_reducible apply modAxis_keeps
    | with_reducible apply resolveWaiting_keeps | with_reducible apply raise_keeps | with_reducible refine Keeps.ite ?_ ?_
    | split | dsimp only

theorem confirmedEdge_keeps {s0 s : State} (h : Keeps s0 s) (a : Fin 4) (t : TimeWord) : Keeps s0 (confirmedEdge a t s) := by
  unfold confirmedEdge
  extract_lets x
  repeat' first
    | with_reducible assumption | with_reducible apply retractFrame_keeps | with_reducible apply raiseAxis_keeps
    | with_reducible apply modAxis_keeps | with_reducible apply confirmFrame_keeps | with_reducible refine Keeps.ite ?_ ?_
    | split | dsimp only

theorem reacquireEdge_keeps {s0 s : State} (h : Keeps s0 s) (a : Fin 4) (t : TimeWord) : Keeps s0 (reacquireEdge a t s) := by
  unfold reacquireEdge
  extract_lets x
  repeat' first
    | with_reducible assumption | with_reducible apply confirmFrame_keeps | with_reducible apply raiseAxis_keeps
    | with_reducible apply retractFrame_keeps | with_reducible apply modAxis_keeps | with_reducible refine Keeps.ite ?_ ?_
    | split | dsimp only

theorem countTone_keeps {s0 s : State} (h :
    Keeps s0 s) (p : Fin 64) (a : Fin 4) (n : Frame) (k : Nat) (t : TimeWord) (flagged : Bool) :
    Keeps s0 (countTone p a n k t flagged s) := by
  unfold countTone
  extract_lets put
  repeat' first
    | with_reducible assumption | with_reducible apply modPort_keeps | with_reducible apply miss_keeps
    | with_reducible apply retracted_keeps | with_reducible refine Keeps.ite ?_ ?_ | split | dsimp only

theorem emitCount_keeps {s0 s : State} (h : Keeps s0 s) (a : Fin 4) (n : Frame) (k : Nat) (t : TimeWord) (flagged : Bool) :
    Keeps s0 (emitCount a n k t flagged s) := by
  unfold emitCount
  repeat' first
    | with_reducible assumption | intro _ _ _ | with_reducible apply retractPulse_keeps | with_reducible apply rePlace_keeps
    | with_reducible apply countTone_keeps | with_reducible refine Keeps.ite ?_ ?_ | with_reducible refine eachFin_keeps ?_ ?_
    | with_reducible refine foldS_keeps ?_ ?_ | split | dsimp only

theorem joinEdge_keeps {s0 s : State} (h : Keeps s0 s) (a : Fin 4) (t : TimeWord) : Keeps s0 (joinEdge a t s) := by
  unfold joinEdge
  repeat' first
    | with_reducible assumption | intro _ _ _ | with_reducible apply modCluster_keeps | with_reducible refine Keeps.ite ?_ ?_
    | with_reducible refine eachFin_keeps ?_ ?_ | split | dsimp only

theorem wrapOver_keeps {s0 s : State} (h : Keeps s0 s) (a : Fin 4) (old n : Frame) : Keeps s0 (wrapOver a old n s) := by
  unfold wrapOver
  repeat' first
    | with_reducible assumption | with_reducible apply raiseAxis_keeps | with_reducible refine Keeps.ite ?_ ?_ | split
    | dsimp only

theorem incrementEdge_keeps {s0 s : State} (h : Keeps s0 s) (a : Fin 4) (t : TimeWord) : Keeps s0 (incrementEdge a t s) := by
  unfold incrementEdge
  repeat' first
    | with_reducible assumption | intro _ _ _ | with_reducible apply raiseAxis_keeps | with_reducible apply modAxis_keeps
    | with_reducible apply resolveWaiting_keeps | with_reducible apply emitCount_keeps
    | with_reducible apply retractEdges_keeps | with_reducible apply wrapAt_keeps | with_reducible apply wrapOver_keeps
    | with_reducible apply joinEdge_keeps | with_reducible refine Keeps.ite ?_ ?_ | split | dsimp only

theorem countEdge_keeps {s0 s : State} (h : Keeps s0 s) (a : Fin 4) (t : TimeWord) (flagged : Bool) :
    Keeps s0 (countEdge a t flagged s) := by
  unfold countEdge
  extract_lets s1 x
  have ks1 : Keeps s0 s1 := by repeat' first
    | with_reducible assumption | with_reducible apply modAxis_keeps | with_reducible apply emitCount_keeps
    | with_reducible apply retractEdges_keeps | with_reducible apply axisLoss_keeps | with_reducible apply enterLost_keeps
    | with_reducible refine Keeps.ite ?_ ?_ | split | dsimp only
  clear_value s1
  repeat' first
    | with_reducible assumption | with_reducible apply modAxis_keeps | with_reducible apply emitCount_keeps
    | with_reducible apply retractEdges_keeps | with_reducible apply axisLoss_keeps | with_reducible apply enterLost_keeps
    | with_reducible refine Keeps.ite ?_ ?_ | split | dsimp only

theorem indexEdge_keeps {s0 s : State} (h : Keeps s0 s) (a : Fin 4) : Keeps s0 (indexEdge a s) := by
  unfold indexEdge
  extract_lets x
  repeat' first
    | with_reducible assumption | with_reducible apply modAxis_keeps | with_reducible apply incrementEdge_keeps
    | with_reducible apply acquireEdge_keeps | with_reducible apply confirmedEdge_keeps
    | with_reducible apply reacquireEdge_keeps | with_reducible refine Keeps.ite ?_ ?_ | split | dsimp only

theorem countEdgeFront_keeps {s0 s : State} (h : Keeps s0 s) (a : Fin 4) : Keeps s0 (countEdgeFront a s) := by
  unfold countEdgeFront
  extract_lets x
  repeat' first
    | with_reducible assumption | with_reducible apply modAxis_keeps | with_reducible apply countEdge_keeps
    | with_reducible refine Keeps.ite ?_ ?_ | split | dsimp only

theorem catchTimeout_keeps {s0 s : State} (h : Keeps s0 s) (a : Fin 4) : Keeps s0 (catchTimeout a s) := by
  unfold catchTimeout
  extract_lets x
  repeat' first
    | with_reducible assumption | with_reducible apply retractFrame_keeps | with_reducible apply axisLoss_keeps
    | with_reducible apply modAxis_keeps | with_reducible apply enterLost_keeps | with_reducible refine Keeps.ite ?_ ?_
    | split | dsimp only

theorem reacquirePass_keeps {s0 s : State} (h : Keeps s0 s) (a : Fin 4) : Keeps s0 (reacquirePass a s) := by
  unfold reacquirePass
  extract_lets x
  repeat' first
    | with_reducible assumption | with_reducible apply retractFrame_keeps | with_reducible apply enterLost_keeps
    | with_reducible refine Keeps.ite ?_ ?_ | split | dsimp only

theorem freeStartEvent_keeps {s0 s : State} (h : Keeps s0 s) (a : Fin 4) : Keeps s0 (freeStartEvent a s) := by
  unfold freeStartEvent
  extract_lets x
  repeat' first
    | with_reducible assumption | with_reducible apply modAxis_keeps | with_reducible apply raiseAt_keeps
    | with_reducible refine Keeps.ite ?_ ?_ | split | dsimp only

theorem freeLock_keeps {s0 s : State} (h : Keeps s0 s) (a : Fin 4) : Keeps s0 (freeLock a s) := by
  unfold freeLock
  repeat' first
    | with_reducible assumption | with_reducible apply modAxis_keeps | with_reducible apply resolveWaiting_keeps
    | with_reducible apply raiseAxis_keeps | with_reducible refine Keeps.ite ?_ ?_ | split | dsimp only

theorem runAheadOn_keeps {s0 s : State} (h : Keeps s0 s) (a : Fin 4) : Keeps s0 (runAheadOn a s) := by
  unfold runAheadOn
  extract_lets x
  repeat' first
    | with_reducible assumption | intro _ _ _ | with_reducible apply bindFrame_keeps | with_reducible refine Keeps.ite ?_ ?_
    | with_reducible refine foldS_keeps ?_ ?_ | split | dsimp only

theorem commitJoin_keeps {s0 s : State} (h : Keeps s0 s) (k : Fin 8) : Keeps s0 (commitJoin k s) := by
  unfold commitJoin
  repeat' first
    | with_reducible assumption | with_reducible apply modCluster_keeps | with_reducible refine Keeps.ite ?_ ?_ | split
    | dsimp only

theorem commitAlign_keeps {s0 s : State} (h : Keeps s0 s) (g : Fin 8) : Keeps s0 (commitAlign g s) := by
  unfold commitAlign
  repeat' first
    | with_reducible assumption | with_reducible apply modGroup_keeps | with_reducible refine Keeps.ite ?_ ?_ | split
    | dsimp only

theorem commitAll_keeps {s0 s : State} (h : Keeps s0 s) : Keeps s0 (commitAll s) := by
  unfold commitAll
  extract_lets s1
  have ks1 : Keeps s0 s1 := by repeat' first
    | with_reducible assumption | intro _ _ _ | with_reducible apply commitPort_keeps | with_reducible apply commitAlign_keeps
    | with_reducible apply commitJoin_keeps | with_reducible refine Keeps.ite ?_ ?_
    | with_reducible refine eachFin_keeps ?_ ?_ | split | dsimp only
  clear_value s1
  repeat' first
    | with_reducible assumption | intro _ _ _ | with_reducible apply commitPort_keeps | with_reducible apply commitAlign_keeps
    | with_reducible apply commitJoin_keeps | with_reducible refine Keeps.ite ?_ ?_
    | with_reducible refine eachFin_keeps ?_ ?_ | split | dsimp only

end Sys2Proof.Machine
end

