-- ==== Sys2Proof/Laws/KeepsClusters.lean ====
section
/-! SUPPORT. Lemmas of Laws/Keeps.lean for calibration, the clusters, the event fabric and the passing of time. -/
namespace Sys2Proof.Machine

theorem openWindow_keeps {s0 s : State} (h : Keeps s0 s) (p : Fin 64) : Keeps s0 (openWindow p s) := by
  unfold openWindow
  extract_lets o level void s4 s5 s6
  have ks4 : Keeps s0 s4 := by repeat' first
    | with_reducible assumption | with_reducible apply modCluster_keeps | with_reducible apply modPort_keeps
    | with_reducible apply modCal_keeps | with_reducible apply raise_keeps | with_reducible refine Keeps.ite ?_ ?_ | split
    | dsimp only
  clear_value s4
  have ks5 : Keeps s0 s5 := by repeat' first
    | with_reducible assumption | with_reducible apply modCluster_keeps | with_reducible apply modPort_keeps
    | with_reducible apply modCal_keeps | with_reducible apply raise_keeps | with_reducible refine Keeps.ite ?_ ?_ | split
    | dsimp only
  clear_value s5
  have ks6 : Keeps s0 s6 := by repeat' first
    | with_reducible assumption | with_reducible apply modCluster_keeps | with_reducible apply modPort_keeps
    | with_reducible apply modCal_keeps | with_reducible apply raise_keeps | with_reducible refine Keeps.ite ?_ ?_ | split
    | dsimp only
  clear_value s6
  repeat' first
    | with_reducible assumption | with_reducible apply modCluster_keeps | with_reducible apply modPort_keeps
    | with_reducible apply modCal_keeps | with_reducible apply raise_keeps | with_reducible refine Keeps.ite ?_ ?_ | split
    | dsimp only

theorem putTable_keeps {s0 s : State} (h : Keeps s0 s) (p : Fin 64) (x : TableSet) : Keeps s0 (putTable p x s) := by
  unfold putTable
  repeat' first
    | with_reducible assumption | with_reducible apply modPort_keeps | with_reducible refine Keeps.ite ?_ ?_ | split
    | dsimp only

theorem swapTable_keeps {s0 s : State} (h : Keeps s0 s) (p : Fin 64) (x : TableSet) : Keeps s0 (swapTable p x s) := by
  unfold swapTable
  repeat' first
    | with_reducible assumption | with_reducible apply raise_keeps | with_reducible apply modPort_keeps
    | with_reducible apply putTable_keeps | with_reducible refine Keeps.ite ?_ ?_ | split | dsimp only

theorem rotaSwap_keeps {s0 s : State} (h : Keeps s0 s) (p : Fin 64) : Keeps s0 (rotaSwap p s) := by
  unfold rotaSwap
  extract_lets q
  repeat' first
    | with_reducible assumption | with_reducible apply swapTable_keeps | with_reducible refine Keeps.ite ?_ ?_ | split
    | dsimp only

theorem levelSample_keeps {s0 s : State} (h : Keeps s0 s) (p : Fin 64) (w : TimeWord) (high : Bool) :
    Keeps s0 (levelSample p w high s) := by
  unfold levelSample
  extract_lets q s2
  have ks2 : Keeps s0 s2 := by repeat' first
    | with_reducible assumption | with_reducible apply modPort_keeps | with_reducible apply mfSourceChange_keeps
    | with_reducible refine Keeps.ite ?_ ?_ | split | dsimp only
  clear_value s2
  repeat' first
    | with_reducible assumption | with_reducible apply modPort_keeps | with_reducible apply mfSourceChange_keeps
    | with_reducible refine Keeps.ite ?_ ?_ | split | dsimp only

theorem resumeTone_keeps {s0 s : State} (h : Keeps s0 s) (p : Fin 64) (o w : TimeWord) : Keeps s0 (resumeTone p o w s) := by
  unfold resumeTone
  repeat' first
    | with_reducible assumption | intro _ _ _ | with_reducible apply modPort_keeps | with_reducible refine Keeps.ite ?_ ?_
    | split | dsimp only

theorem closeWindow_keeps {s0 s : State} (h : Keeps s0 s) (p : Fin 64) (x : CalSample) (high : Bool) :
    Keeps s0 (closeWindow p x high s) := by
  unfold closeWindow
  repeat' first
    | with_reducible assumption | intro _ _ _ | with_reducible apply modCluster_keeps
    | with_reducible apply resumeTone_keeps | with_reducible apply modPort_keeps | with_reducible apply levelSample_keeps
    | with_reducible refine Keeps.ite ?_ ?_ | split | dsimp only

theorem portLate_keeps {s0 s : State} (h : Keeps s0 s) (p : Fin 64) : Keeps s0 (portLate p s) := by
  unfold portLate
  extract_lets q
  repeat' first
    | with_reducible assumption | with_reducible apply modPort_keeps | with_reducible apply raise_keeps
    | with_reducible apply modCal_keeps | with_reducible refine Keeps.ite ?_ ?_ | split | dsimp only

theorem rotaResume_keeps {s0 s : State} (h : Keeps s0 s) : Keeps s0 (rotaResume s) := by
  unfold rotaResume
  repeat' first
    | with_reducible assumption | with_reducible refine Keeps.ite ?_ ?_ | with_reducible exact Keeps.mk_of h
    | with_reducible exact Keeps.mk_of (by assumption) | split | dsimp only

theorem setHold_keeps {s0 s : State} (h : Keeps s0 s) (on : Bool) : Keeps s0 (setHold on s) := by
  unfold setHold
  repeat' first
    | with_reducible assumption | with_reducible apply modCal_keeps | with_reducible apply rotaResume_keeps
    | with_reducible refine Keeps.ite ?_ ?_ | split | dsimp only

theorem spanBegin_keeps {s0 s : State} (h : Keeps s0 s) : Keeps s0 (spanBegin s) := by
  unfold spanBegin
  repeat' first
    | with_reducible assumption | with_reducible apply modCal_keeps | with_reducible refine Keeps.ite ?_ ?_
    | with_reducible exact Keeps.mk_of h | with_reducible exact Keeps.mk_of (by assumption) | split | dsimp only

theorem spanEnd_keeps {s0 s : State} (h : Keeps s0 s) : Keeps s0 (spanEnd s) := by
  unfold spanEnd
  repeat' first
    | with_reducible assumption | with_reducible apply modCal_keeps | with_reducible refine Keeps.ite ?_ ?_ | split
    | dsimp only

theorem arriveStamp_keeps {s0 s : State} (h : Keeps s0 s) (r : StampRec) : Keeps s0 (arriveStamp r s) := by
  unfold arriveStamp
  extract_lets fits x s1
  have k1 : Keeps s0 s1 := overflowStarted_keeps (fifo_keeps h _ (by
    unfold x
    split
    · exact Fifo.pushU_ok _ _
    · exact Fifo.pushB_ok _ _))
  exact .ite k1 (modPort_keeps k1 _ _)

theorem takeRecord_keeps {s0 s : State} (h : Keeps s0 s) (k : Fin 8) : Keeps s0 (takeRecord k s) := by
  unfold takeRecord
  repeat' first
    | with_reducible assumption | intro _ _ _ | with_reducible apply arriveStamp_keeps | with_reducible apply modPort_keeps
    | with_reducible apply modCluster_keeps | with_reducible refine Keeps.ite ?_ ?_ | split | dsimp only

theorem moveRecord_keeps {s0 s : State} (h : Keeps s0 s) (k : Fin 8) : Keeps s0 (moveRecord k s) := by
  unfold moveRecord
  repeat' first
    | with_reducible assumption | intro _ _ _ | with_reducible apply takeRecord_keeps
    | with_reducible apply modCluster_keeps | with_reducible refine Keeps.ite ?_ ?_ | split | dsimp only

theorem emptyBuffers_keeps (k : Fin 8) : ∀ (n : Nat) {s0 s : State}, Keeps s0 s → Keeps s0 (emptyBuffers k n s)
  | 0, _, _, h => h
  | n + 1, _, _, h => .ite h (emptyBuffers_keeps k n (takeRecord_keeps h k))

theorem leaveActive_keeps {s0 s : State} (h : Keeps s0 s) (k : Fin 8) : Keeps s0 (leaveActive k s) := by
  unfold leaveActive
  repeat' first
    | with_reducible assumption | intro _ _ _ | with_reducible apply modCluster_keeps | with_reducible apply modPort_keeps
    | with_reducible refine Keeps.ite ?_ ?_ | with_reducible refine foldS_keeps ?_ ?_ | split | dsimp only

theorem endWork_keeps {s0 s : State} (h : Keeps s0 s) (k : Fin 8) (st : ClState) : Keeps s0 (endWork k st s) := by
  unfold endWork
  extract_lets s1 s2 s3
  have ks1 : Keeps s0 s1 := by repeat' first
    | with_reducible assumption | intro _ _ _ | with_reducible apply leaveActive_keeps | with_reducible apply modPort_keeps
    | with_reducible apply modCluster_keeps | with_reducible apply mfFollowAll_keeps | with_reducible apply emptyBuffers_keeps
    | with_reducible refine Keeps.ite ?_ ?_ | with_reducible refine foldS_keeps ?_ ?_ | split | dsimp only
  clear_value s1
  have ks2 : Keeps s0 s2 := by repeat' first
    | with_reducible assumption | intro _ _ _ | with_reducible apply leaveActive_keeps | with_reducible apply modPort_keeps
    | with_reducible apply modCluster_keeps | with_reducible apply mfFollowAll_keeps | with_reducible apply emptyBuffers_keeps
    | with_reducible refine Keeps.ite ?_ ?_ | with_reducible refine foldS_keeps ?_ ?_ | split | dsimp only
  clear_value s2
  have ks3 : Keeps s0 s3 := by repeat' first
    | with_reducible assumption | intro _ _ _ | with_reducible apply leaveActive_keeps | with_reducible apply modPort_keeps
    | with_reducible apply modCluster_keeps | with_reducible apply mfFollowAll_keeps | with_reducible apply emptyBuffers_keeps
    | with_reducible refine Keeps.ite ?_ ?_ | with_reducible refine foldS_keeps ?_ ?_ | split | dsimp only
  clear_value s3
  repeat' first
    | with_reducible assumption | intro _ _ _ | with_reducible apply leaveActive_keeps | with_reducible apply modPort_keeps
    | with_reducible apply modCluster_keeps | with_reducible apply mfFollowAll_keeps | with_reducible apply emptyBuffers_keeps
    | with_reducible refine Keeps.ite ?_ ?_ | with_reducible refine foldS_keeps ?_ ?_ | split | dsimp only

theorem startupEnd_keeps {s0 s : State} (h : Keeps s0 s) : Keeps s0 (startupEnd s) := by
  unfold startupEnd
  repeat' first
    | with_reducible assumption | with_reducible apply modBel_keeps | with_reducible apply modBoot_keeps
    | with_reducible refine Keeps.ite ?_ ?_ | exact fun h => h | exact fun _ => ⟨rfl, rfl⟩ | split | dsimp only

theorem wakeEnd_keeps {s0 s : State} (h : Keeps s0 s) : Keeps s0 (wakeEnd s) := by
  unfold wakeEnd
  repeat' first
    | with_reducible assumption | with_reducible apply modBel_keeps | with_reducible refine Keeps.ite ?_ ?_ | exact fun h => h
    | exact fun _ => ⟨rfl, rfl⟩ | split | dsimp only

theorem startAligns_keeps {s0 s : State} (h : Keeps s0 s) : Keeps s0 (startAligns s) := by
  unfold startAligns
  repeat' first
    | with_reducible assumption | with_reducible refine Keeps.ite ?_ ?_ | with_reducible exact Keeps.mk_of h
    | with_reducible exact Keeps.mk_of (by assumption) | split | dsimp only

theorem nextTurns_keeps {s0 s : State} (h : Keeps s0 s) : Keeps s0 (nextTurns s) := by
  unfold nextTurns
  extract_lets free go
  repeat' first
    | with_reducible assumption | with_reducible refine Keeps.ite ?_ ?_ | with_reducible exact Keeps.mk_of h
    | with_reducible exact Keeps.mk_of (by assumption) | split | dsimp only

theorem quarantine_keeps {s0 s : State} (h : Keeps s0 s) (k : Fin 8) (ph : ClPhase) (turn : Bool) :
    Keeps s0 (quarantine k ph turn s) := by
  unfold quarantine
  extract_lets s1
  have ks1 : Keeps s0 s1 := by repeat' first
    | with_reducible assumption | with_reducible apply modCluster_keeps | with_reducible apply raise_keeps
    | with_reducible refine Keeps.ite ?_ ?_ | split | dsimp only
  clear_value s1
  repeat' first
    | with_reducible assumption | with_reducible apply modCluster_keeps | with_reducible apply raise_keeps
    | with_reducible refine Keeps.ite ?_ ?_ | split | dsimp only

theorem faultCluster_keeps {s0 s : State} (h : Keeps s0 s) (k : Fin 8) (cause : FaultCause) :
    Keeps s0 (faultCluster k cause s) := by
  unfold faultCluster
  repeat' first
    | with_reducible assumption | with_reducible apply endWork_keeps | with_reducible apply modCluster_keeps
    | with_reducible apply wakeEnd_keeps | with_reducible apply startupEnd_keeps | with_reducible apply nextTurns_keeps
    | with_reducible apply raise_keeps | with_reducible refine Keeps.ite ?_ ?_ | split | dsimp only

theorem powerupDone_keeps {s0 s : State} (h : Keeps s0 s) (k : Fin 8) (mv : Nat) : Keeps s0 (powerupDone k mv s) := by
  unfold powerupDone
  repeat' first
    | with_reducible assumption | intro _ _ _ | with_reducible apply quarantine_keeps | with_reducible apply nextTurns_keeps
    | with_reducible apply modCluster_keeps | with_reducible refine Keeps.ite ?_ ?_ | split | dsimp only

theorem calibrateDone_keeps {s0 s : State} (h : Keeps s0 s) (k : Fin 8) (xs : List CalSample) :
    Keeps s0 (calibrateDone k xs s) := by
  unfold calibrateDone
  extract_lets c pairs enough
  repeat' first
    | with_reducible assumption | intro _ _ _ | with_reducible apply faultCluster_keeps | with_reducible apply putTable_keeps
    | with_reducible apply raiseAt_keeps | with_reducible apply startAligns_keeps | with_reducible apply nextTurns_keeps
    | with_reducible apply modCluster_keeps | with_reducible refine Keeps.ite ?_ ?_ | with_reducible refine foldS_keeps ?_ ?_
    | split | dsimp only

theorem enterJoining_keeps {s0 s : State} (h : Keeps s0 s) (k : Fin 8) : Keeps s0 (enterJoining k s) := by
  unfold enterJoining
  repeat' first
    | with_reducible assumption | with_reducible apply startupEnd_keeps | with_reducible apply fixJoin_keeps
    | with_reducible apply modCluster_keeps | with_reducible refine Keeps.ite ?_ ?_ | split | dsimp only

theorem alignDone_keeps {s0 s : State} (h : Keeps s0 s) (k : Fin 8) (verified : Bool) : Keeps s0 (alignDone k verified s) := by
  unfold alignDone
  extract_lets c
  repeat' first
    | with_reducible assumption | with_reducible apply faultCluster_keeps | with_reducible apply modCluster_keeps
    | with_reducible apply enterJoining_keeps | with_reducible refine Keeps.ite ?_ ?_ | split | dsimp only

theorem enterActive_keeps {s0 s : State} (h : Keeps s0 s) (k : Fin 8) : Keeps s0 (enterActive k s) := by
  unfold enterActive
  extract_lets s1 c
  have ks1 : Keeps s0 s1 := by repeat' first
    | with_reducible assumption | intro _ _ _ | with_reducible apply commitJoin_keeps | with_reducible apply modCluster_keeps
    | with_reducible apply modPort_keeps | with_reducible apply raiseAt_keeps | with_reducible apply wakeEnd_keeps
    | with_reducible apply startupEnd_keeps | with_reducible apply mfFollowAll_keeps | with_reducible refine Keeps.ite ?_ ?_
    | with_reducible refine foldS_keeps ?_ ?_ | split | dsimp only
  clear_value s1
  repeat' first
    | with_reducible assumption | intro _ _ _ | with_reducible apply commitJoin_keeps | with_reducible apply modCluster_keeps
    | with_reducible apply modPort_keeps | with_reducible apply raiseAt_keeps | with_reducible apply wakeEnd_keeps
    | with_reducible apply startupEnd_keeps | with_reducible apply mfFollowAll_keeps | with_reducible refine Keeps.ite ?_ ?_
    | with_reducible refine foldS_keeps ?_ ?_ | split | dsimp only

theorem drainPort_keeps {s0 s : State} (h : Keeps s0 s) (discard : Bool) (wait : Nat) (p : Fin 64) :
    Keeps s0 (drainPort discard wait p s) := by
  unfold drainPort
  extract_lets c goes n
  repeat' first
    | with_reducible assumption | with_reducible apply countRemoved_keeps | with_reducible apply modPort_keeps
    | with_reducible refine Keeps.ite ?_ ?_ | split | dsimp only

theorem drainCluster_keeps {s0 s : State} (h : Keeps s0 s) (k : Fin 8) (discard : Bool) :
    Keeps s0 (drainCluster k discard s) := by
  unfold drainCluster
  extract_lets c
  repeat' first
    | with_reducible assumption | intro _ _ _ | with_reducible apply leaveActive_keeps | with_reducible apply modCluster_keeps
    | with_reducible apply drainPort_keeps | with_reducible apply disarmPort_keeps | with_reducible apply mfFollowAll_keeps
    | with_reducible refine Keeps.ite ?_ ?_ | with_reducible refine foldS_keeps ?_ ?_ | split | dsimp only

theorem drainEnd_keeps {s0 s : State} (h : Keeps s0 s) (k : Fin 8) (extra : Nat) : Keeps s0 (drainEnd k extra s) := by
  unfold drainEnd
  extract_lets s1
  have ks1 : Keeps s0 s1 := by repeat' first
    | with_reducible assumption | intro _ _ _ | with_reducible apply modCluster_keeps | with_reducible apply startupEnd_keeps
    | with_reducible apply modPort_keeps | with_reducible refine Keeps.ite ?_ ?_ | with_reducible refine foldS_keeps ?_ ?_
    | split | dsimp only
  clear_value s1
  repeat' first
    | with_reducible assumption | intro _ _ _ | with_reducible apply modCluster_keeps | with_reducible apply startupEnd_keeps
    | with_reducible apply modPort_keeps | with_reducible refine Keeps.ite ?_ ?_ | with_reducible refine foldS_keeps ?_ ?_
    | split | dsimp only

theorem drainComplete_keeps {s0 s : State} (h : Keeps s0 s) (k : Fin 8) : Keeps s0 (drainComplete k s) := by
  unfold drainComplete
  extract_lets idle
  repeat' first
    | with_reducible assumption | with_reducible apply drainEnd_keeps | with_reducible refine Keeps.ite ?_ ?_ | split
    | dsimp only

theorem powerOffCluster_keeps {s0 s : State} (h : Keeps s0 s) (k : Fin 8) : Keeps s0 (powerOffCluster k s) := by
  unfold powerOffCluster
  extract_lets s1 s2 s3 s4
  have k1 : Keeps s0 s1 := by
    unfold s1
    repeat' first
      | with_reducible assumption | intro _ _ _ | with_reducible apply modCluster_keeps | with_reducible apply endWork_keeps
      | with_reducible refine Keeps.ite ?_ ?_ | with_reducible refine Keeps.cond ?_ ?_
      | (with_reducible refine eachFin_keeps ?_ (fun _ _ _ => ?_)) | (with_reducible refine foldS_keeps ?_ (fun _ _ _ => ?_))
      | with_reducible exact Keeps.mk_of (by assumption) | split | dsimp only
  have k4 : Keeps s0 s4 := foldS_keeps (modCluster_keeps (emptyBuffers_keeps k _ k1) _ _) (fun _ _ h => modPort_keeps h _ _)
  exact .ite k1 (wakeEnd_keeps (startupEnd_keeps (nextTurns_keeps k4)))

theorem resetValues_keeps {s0 s : State} (h : Keeps s0 s) (k : Fin 8) : Keeps s0 (resetValues k s) := by
  unfold resetValues
  extract_lets s1
  have ks1 : Keeps s0 s1 := by repeat' first
    | with_reducible assumption | intro _ _ _ | with_reducible apply modCluster_keeps | with_reducible apply modPort_keeps
    | with_reducible refine Keeps.ite ?_ ?_ | with_reducible refine foldS_keeps ?_ ?_ | split | dsimp only
  clear_value s1
  repeat' first
    | with_reducible assumption | intro _ _ _ | with_reducible apply modCluster_keeps | with_reducible apply modPort_keeps
    | with_reducible refine Keeps.ite ?_ ?_ | with_reducible refine foldS_keeps ?_ ?_ | split | dsimp only

theorem resetCluster_keeps {s0 s : State} (h : Keeps s0 s) (k : Fin 8) : Keeps s0 (resetCluster k s) := by
  unfold resetCluster
  extract_lets n off s3 s4
  have ks3 : Keeps s0 s3 := by repeat' first
    | with_reducible assumption | with_reducible apply emptyBuffers_keeps | with_reducible apply endWork_keeps
    | with_reducible apply modCluster_keeps | with_reducible apply resetValues_keeps | with_reducible apply wakeEnd_keeps
    | with_reducible apply nextTurns_keeps | with_reducible apply quarantine_keeps | with_reducible refine Keeps.ite ?_ ?_
    | split | dsimp only
  clear_value s3
  have ks4 : Keeps s0 s4 := by repeat' first
    | with_reducible assumption | with_reducible apply emptyBuffers_keeps | with_reducible apply endWork_keeps
    | with_reducible apply modCluster_keeps | with_reducible apply resetValues_keeps | with_reducible apply wakeEnd_keeps
    | with_reducible apply nextTurns_keeps | with_reducible apply quarantine_keeps | with_reducible refine Keeps.ite ?_ ?_
    | split | dsimp only
  clear_value s4
  repeat' first
    | with_reducible assumption | with_reducible apply emptyBuffers_keeps | with_reducible apply endWork_keeps
    | with_reducible apply modCluster_keeps | with_reducible apply resetValues_keeps | with_reducible apply wakeEnd_keeps
    | with_reducible apply nextTurns_keeps | with_reducible apply quarantine_keeps | with_reducible refine Keeps.ite ?_ ?_
    | split | dsimp only

theorem powerOnCluster_keeps {s0 s : State} (h : Keeps s0 s) (k : Fin 8) : Keeps s0 (powerOnCluster k s) := by
  unfold powerOnCluster
  extract_lets c
  repeat' first
    | with_reducible assumption | with_reducible apply quarantine_keeps | with_reducible apply resetValues_keeps
    | with_reducible apply emptyBuffers_keeps | with_reducible refine Keeps.ite ?_ ?_ | split | dsimp only

theorem clusterFault_keeps {s0 s : State} (h : Keeps s0 s) (k : Fin 8) (cause : FaultCause) (mv : Nat) :
    Keeps s0 (clusterFault k cause mv s) := by
  unfold clusterFault
  repeat' first
    | with_reducible assumption | intro _ _ _ | with_reducible apply faultCluster_keeps
    | with_reducible apply modCluster_keeps | with_reducible refine Keeps.ite ?_ ?_ | split | dsimp only

theorem clusterLockloss_keeps {s0 s : State} (h : Keeps s0 s) (k : Fin 8) : Keeps s0 (clusterLockloss k s) := by
  unfold clusterLockloss
  extract_lets c n
  repeat' first
    | with_reducible assumption | with_reducible apply drainEnd_keeps | with_reducible apply endWork_keeps
    | with_reducible apply modCluster_keeps | with_reducible refine Keeps.ite ?_ ?_ | split | dsimp only

theorem clustersLockloss_keeps {s0 s : State} (h : Keeps s0 s) : Keeps s0 (clustersLockloss s) := by
  unfold clustersLockloss
  repeat' first
    | with_reducible assumption | intro _ _ _ | with_reducible apply clusterLockloss_keeps
    | with_reducible refine Keeps.ite ?_ ?_ | with_reducible refine eachFin_keeps ?_ ?_ | split | dsimp only

theorem clusterLock_keeps {s0 s : State} (h : Keeps s0 s) (k : Fin 8) : Keeps s0 (clusterLock k s) := by
  unfold clusterLock
  extract_lets c
  repeat' first
    | with_reducible assumption | with_reducible apply quarantine_keeps | with_reducible apply modCluster_keeps
    | with_reducible refine Keeps.ite ?_ ?_ | split | dsimp only

theorem clustersLock_keeps {s0 s : State} (h : Keeps s0 s) : Keeps s0 (clustersLock s) := by
  unfold clustersLock
  repeat' first
    | with_reducible assumption | intro _ _ _ | with_reducible apply nextTurns_keeps | with_reducible apply clusterLock_keeps
    | with_reducible refine Keeps.ite ?_ ?_ | with_reducible refine eachFin_keeps ?_ ?_ | split | dsimp only

theorem wakeCluster_keeps {s0 s : State} (h : Keeps s0 s) (k : Fin 8) : Keeps s0 (wakeCluster k s) := by
  unfold wakeCluster
  repeat' first
    | with_reducible assumption | with_reducible apply happen_keeps | with_reducible apply modCluster_keeps
    | with_reducible refine Keeps.ite ?_ ?_ | split | dsimp only

theorem joinCluster_keeps {s0 s : State} (h : Keeps s0 s) (k : Fin 8) (jp : JoinPoint) : Keeps s0 (joinCluster k jp s) := by
  unfold joinCluster
  extract_lets s1 c
  have ks1 : Keeps s0 s1 := by repeat' first
    | with_reducible assumption | with_reducible apply modCluster_keeps | with_reducible apply fixJoin_keeps
    | with_reducible apply enterJoining_keeps | with_reducible refine Keeps.ite ?_ ?_ | split | dsimp only
  clear_value s1
  repeat' first
    | with_reducible assumption | with_reducible apply modCluster_keeps | with_reducible apply fixJoin_keeps
    | with_reducible apply enterJoining_keeps | with_reducible refine Keeps.ite ?_ ?_ | split | dsimp only

theorem snapshotAt_keeps {s0 s : State} (h : Keeps s0 s) (w : TimeWord) : Keeps s0 (snapshotAt w s) :=
  h.trans ⟨rfl, id, id, id, id, id, fusesKept.refl _⟩

theorem receive_keeps {s0 s : State} (h : Keeps s0 s) (d : Delivery) : Keeps s0 (receive d s) := by
  unfold receive
  repeat' first
    | with_reducible assumption | with_reducible apply dropDelivery_keeps | with_reducible apply assertTask_keeps
    | with_reducible apply modFabric_keeps | with_reducible refine Keeps.ite ?_ ?_ | split | dsimp only

theorem deliverDue_keeps {s0 s : State} (h : Keeps s0 s) : Keeps s0 (deliverDue s) := by
  unfold deliverDue
  repeat' first
    | with_reducible assumption | intro _ _ _ | with_reducible apply receive_keeps | with_reducible apply modFabric_keeps
    | with_reducible refine Keeps.ite ?_ ?_ | (with_reducible refine foldS_keeps ?_ (fun _ _ _ => ?_)) | split | dsimp only

theorem routeDelivery_keeps {s0 s : State} (h : Keeps s0 s) (k : Nat) : Keeps s0 (routeDelivery k s) := by
  unfold routeDelivery
  repeat' first
    | with_reducible assumption | intro _ _ _ | with_reducible apply deliverDue_keeps | with_reducible apply receive_keeps
    | with_reducible apply modFabric_keeps | with_reducible refine Keeps.ite ?_ ?_ | split | dsimp only

theorem collide_keeps {s0 s : State} (h : Keeps s0 s) (k : TaskKind) (n : Nat) : Keeps s0 (collide k n s) := by
  unfold collide
  repeat' first
    | with_reducible assumption | with_reducible apply modTask_keeps | with_reducible refine Keeps.ite ?_ ?_ | split
    | dsimp only

theorem decidePair_keeps {s0 s : State} (h :
    Keeps s0 s) (xs : List Assertion) (win lose : TaskKind) (onWin onLose : State → State)
    (hw : Keeps s0 (onWin s)) (hl : Keeps s0 (onLose s)) : Keeps s0 (decidePair xs win lose onWin onLose s) := by
  unfold decidePair
  repeat' first
    | with_reducible assumption | intro _ _ _ | with_reducible apply collide_keeps | with_reducible refine Keeps.ite ?_ ?_
    | with_reducible refine Keeps.cond ?_ ?_ | (with_reducible refine eachFin_keeps ?_ (fun _ _ _ => ?_))
    | (with_reducible refine foldS_keeps ?_ (fun _ _ _ => ?_)) | with_reducible exact Keeps.mk_of (by assumption) | split
    | dsimp only

theorem pairPort_keeps {s0 s : State} (h : Keeps s0 s) (xs : List Assertion) (p : Fin 64) : Keeps s0 (pairPort xs p s) := by
  unfold pairPort
  repeat' first
    | with_reducible assumption | with_reducible apply decidePair_keeps | with_reducible apply disarmPort_keeps
    | with_reducible apply armPort_keeps | with_reducible refine Keeps.ite ?_ ?_ | split | dsimp only

theorem gatePort_keeps {s0 s : State} (h : Keeps s0 s) (xs : List Assertion) (p : Fin 64) : Keeps s0 (gatePort xs p s) := by
  unfold gatePort
  extract_lets a
  repeat' first
    | with_reducible assumption | with_reducible apply collide_keeps | with_reducible apply modPort_keeps
    | with_reducible refine Keeps.ite ?_ ?_ | split | dsimp only

theorem firePort_keeps {s0 s : State} (h : Keeps s0 s) (xs : List Assertion) (p : Fin 64) : Keeps s0 (firePort xs p s) := by
  unfold firePort
  repeat' first
    | with_reducible assumption | intro _ _ _ | with_reducible apply collide_keeps | with_reducible apply miss_keeps
    | with_reducible apply modPort_keeps | with_reducible refine Keeps.ite ?_ ?_ | split | dsimp only

theorem actGroup_keeps {s0 s : State} (h : Keeps s0 s) (xs : List Assertion) (g : Fin 8) : Keeps s0 (actGroup xs g s) := by
  unfold actGroup
  extract_lets stops starts steps s1
  have k1 : Keeps s0 s1 := .ite (collide_keeps (groupStart_keeps h _ _ _) _ _) h
  exact .ite (collide_keeps (collide_keeps (collide_keeps (groupStop_keeps h _ _) _ _) _ _) _ _)
    (.ite (collide_keeps (groupStep_keeps k1 _ _ _ _ _) _ _) k1)

theorem actMf_keeps {s0 s : State} (h : Keeps s0 s) (xs : List Assertion) (m : Fin 16) : Keeps s0 (actMf xs m s) := by
  unfold actMf
  repeat' first
    | with_reducible assumption | with_reducible apply decidePair_keeps | with_reducible apply mfAbort_keeps
    | with_reducible apply mfStartTask_keeps | with_reducible refine Keeps.ite ?_ ?_ | split | dsimp only

theorem axisMark_keeps {s0 s : State} (h : Keeps s0 s) (a : Fin 4) (t : TimeWord) : Keeps s0 (axisMark a t s) := by
  unfold axisMark
  extract_lets x
  repeat' first
    | with_reducible assumption | with_reducible apply modAxis_keeps | with_reducible refine Keeps.ite ?_ ?_ | split
    | dsimp only

theorem actOnce_keeps {s0 s : State} (h : Keeps s0 s) (xs : List Assertion) (k : TaskKind) (act : State → State) (ha :
    Keeps s0 (act s)) :
    Keeps s0 (actOnce xs k act s) := .ite h (collide_keeps ha _ _)

theorem flushFence_keeps {s0 s : State} (h : Keeps s0 s) : Keeps s0 (flushFence s) := by
  unfold flushFence
  extract_lets t fits r s1
  have k1 : Keeps s0 s1 := overflowStarted_keeps (fifo_keeps h _ (Fifo.pushB_ok _ _))
  exact .ite (modSp_keeps k1 _) k1

theorem admitted_keeps (xs : List Assertion) {s0 s : State} (h : Keeps s0 s) : Keeps s0 (xs.foldr admitted ([], s)).2 := by
  induction xs with
  | nil => exact h
  | cons x xs ih =>
    unfold admitted at ih ⊢
    simp only [List.foldr_cons]
    split
    · exact ih
    · dsimp only
      split
      · exact dropDelivery_keeps ih _ _
      · exact ih

theorem actAll_keeps {s0 s : State} (h : Keeps s0 s) : Keeps s0 (actAll s) := by
  unfold actAll
  extract_lets r xs ps s1 s2 s3 s4 s5 s6 s7 s8
  have k0 : Keeps s0 r.2 := admitted_keeps _ (modFabric_keeps h _)
  have k3 : Keeps s0 s3 := foldS_keeps (foldS_keeps (foldS_keeps k0 fun _ _ h => pairPort_keeps h _ _)
    fun _ _ h => gatePort_keeps h _ _) fun _ _ h => firePort_keeps h _ _
  have k5 : Keeps s0 s5 := eachFin_keeps (eachFin_keeps k3 fun _ _ h => actGroup_keeps h _ _) fun _ _ h => actMf_keeps h _ _
  have k6 : Keeps s0 s6 := eachFin_keeps k5 fun _ _ h => actOnce_keeps h _ _ _ (axisMark_keeps h _ _)
  have k7 : Keeps s0 s7 := decidePair_keeps k6 _ _ _ _ _ (setHold_keeps k6 _) (setHold_keeps k6 _)
  have k8 : Keeps s0 s8 := actOnce_keeps k7 _ _ _ (flushFence_keeps k7)
  exact actOnce_keeps k8 _ _ _ (snapshotAt_keeps k8 _)

theorem pruneProv_keeps {s0 s : State} (h : Keeps s0 s) : Keeps s0 (pruneProv s) := by
  unfold pruneProv
  extract_lets keep
  repeat' first
    | with_reducible assumption | with_reducible refine Keeps.ite ?_ ?_ | with_reducible exact Keeps.mk_of h
    | with_reducible exact Keeps.mk_of (by assumption) | split | dsimp only

theorem drainsDue_keeps {s0 s : State} (h : Keeps s0 s) : Keeps s0 (drainsDue s) := by
  unfold drainsDue
  repeat' first
    | with_reducible assumption | intro _ _ _ | with_reducible apply drainComplete_keeps
    | with_reducible refine Keeps.ite ?_ ?_ | (with_reducible refine eachFin_keeps ?_ (fun _ _ _ => ?_)) | split
    | dsimp only

theorem mfOut_keeps {s0 s : State} (h : Keeps s0 s) (m : Fin 16) : Keeps s0 (mfOut m s) := by
  unfold mfOut
  split
  · exact h
  · exact overflowStarted_keeps (fifo_keeps (modMf_keeps h _ _) _ (Fifo.pushB_ok _ _))

theorem outCycle_keeps {s0 s : State} (h : Keeps s0 s) : Keeps s0 (outCycle s) := by
  unfold outCycle
  repeat' first
    | with_reducible assumption | intro _ _ _ | with_reducible apply mfOut_keeps | with_reducible refine Keeps.ite ?_ ?_
    | (with_reducible refine eachFin_keeps ?_ (fun _ _ _ => ?_)) | split | dsimp only

theorem decideFire_keeps {s0 s : State} (h : Keeps s0 s) (p : Fin 64) (t : TaskTrig) : Keeps s0 (decideFire p t s) := by
  unfold decideFire
  repeat' first
    | with_reducible assumption | with_reducible apply decideTrigger_keeps | with_reducible refine Keeps.ite ?_ ?_ | split
    | dsimp only

theorem decidePad_keeps {s0 s : State} (h : Keeps s0 s) (p : Fin 64) : Keeps s0 (decidePad p s) := by
  unfold decidePad
  split
  · exact h
  · exact decideTrigger_keeps (modPort_keeps h _ _) _ _ _ _

theorem decidePads_keeps (p : Fin 64) (limit : TimeWord) : ∀ (n : Nat) {s0 s : State}, Keeps s0 s →
    Keeps s0 (decidePads p limit n s)
  | 0, _, _, h => h
  | n + 1, s0, s, h => by
    unfold decidePads
    split
    · exact .ite (decidePads_keeps p limit n (decidePad_keeps h _)) h
    · exact h

theorem padsFirst_keeps {s0 s : State} (h : Keeps s0 s) (p : Fin 64) : Keeps s0 (padsFirst p s) := decidePads_keeps _ _ _ h

theorem fireDue_keeps {s0 s : State} (h : Keeps s0 s) (p : Fin 64) : Keeps s0 (fireDue p s) := by
  unfold fireDue
  repeat' first
    | with_reducible assumption | intro _ _ _ | with_reducible apply decideFire_keeps | with_reducible apply padsFirst_keeps
    | with_reducible apply commitPort_keeps | with_reducible apply modPort_keeps | with_reducible refine Keeps.ite ?_ ?_
    | split | dsimp only

theorem firesDue_keeps {s0 s : State} (h : Keeps s0 s) : Keeps s0 (firesDue s) := by
  unfold firesDue
  repeat' first
    | with_reducible assumption | intro _ _ _ | with_reducible apply fireDue_keeps | with_reducible refine Keeps.ite ?_ ?_
    | (with_reducible refine eachFin_keeps ?_ (fun _ _ _ => ?_)) | split | dsimp only

theorem actCycle_keeps {s0 s : State} (h : Keeps s0 s) : Keeps s0 (actCycle s) := by
  unfold actCycle
  repeat' first
    | with_reducible assumption | with_reducible apply deliverDue_keeps | with_reducible apply firesDue_keeps
    | with_reducible apply actAll_keeps | with_reducible refine Keeps.ite ?_ ?_ | split | dsimp only

theorem joinsDue_keeps {s0 s : State} (h : Keeps s0 s) : Keeps s0 (joinsDue s) := by
  unfold joinsDue
  repeat' first
    | with_reducible assumption | intro _ _ _ | with_reducible apply enterActive_keeps
    | with_reducible refine Keeps.ite ?_ ?_ | (with_reducible refine eachFin_keeps ?_ (fun _ _ _ => ?_)) | split
    | dsimp only

theorem workCycle_keeps {s0 s : State} (h : Keeps s0 s) : Keeps s0 (workCycle s) := actCycle_keeps (joinsDue_keeps h)

theorem closeCycle_keeps {s0 s : State} (h : Keeps s0 s) : Keeps s0 (closeCycle s) := by
  unfold closeCycle
  extract_lets t
  have k : Keeps s0 t := drainsDue_keeps (pruneProv_keeps (outCycle_keeps (workCycle_keeps h)))
  exact .ite (overflowEnds_keeps k) k

theorem passTicks_keeps {s0 s : State} (h : Keeps s0 s) (d : Nat) : Keeps s0 (passTicks d s) :=
  landFlights_keeps (ageLanes_keeps (modTb_keeps h _ fun ⟨_, b, c⟩ => ⟨Nat.mod_lt _ (by decide), b, c⟩) _)

theorem ageAll_keeps {s0 s : State} (h : Keeps s0 s) (m : Nat) : Keeps s0 (ageAll m s) := by
  unfold ageAll
  extract_lets t1
  have kt1 : Keeps s0 t1 := by repeat' first
    | with_reducible assumption | intro _ _ _ | with_reducible apply modFabric_keeps | with_reducible refine Keeps.ite ?_ ?_
    | with_reducible exact Keeps.mk_of (by assumption) | split | dsimp only
  clear_value t1
  repeat' first
    | with_reducible assumption | intro _ _ _ | with_reducible apply modFabric_keeps | with_reducible refine Keeps.ite ?_ ?_
    | with_reducible exact Keeps.mk_of (by assumption) | split | dsimp only

theorem endCycles_keeps : ∀ (fuel n : Nat) {s0 s : State}, Keeps s0 s → Keeps s0 (endCycles fuel n s)
  | 0, _, _, _, h => h
  | fuel + 1, _, _, _, h =>
    .ite h (endCycles_keeps fuel _ (ageAll_keeps (passTicks_keeps (closeCycle_keeps h) _) _))

theorem elapse_keeps {s0 s : State} (h : Keeps s0 s) (d : Nat) : Keeps s0 (s.elapse d) := by
  unfold State.elapse
  extract_lets s1 n
  have k1 : Keeps s0 s1 := renewed_keeps h d
  exact .ite h (.ite (commitAll_keeps (passTicks_keeps k1 _))
    (commitAll_keeps (passTicks_keeps (endCycles_keeps _ _ k1) _)))

theorem idle_keeps {s0 s : State} (h : Keeps s0 s) : Keeps s0 (idle s) := elapse_keeps h 4

theorem pairDone_keeps {s0 s : State} (h : Keeps s0 s) (p : Fin 64) (q : Nat) : Keeps s0 (pairDone p q s) := by
  unfold pairDone
  extract_lets c
  repeat' first
    | with_reducible assumption | with_reducible apply modPort_keeps | with_reducible refine Keeps.ite ?_ ?_ | split
    | dsimp only

theorem Segment.mapWritten_ok {x : Segment} {f : Block → Block} (hf : ∀ b, (f b).idx = b.idx) (h : x.ok) :
    ({ x with written := x.written.map f } : Segment).ok := by
  refine ⟨?_, fun b hb => ?_⟩
  · have : (x.written.map f).map (fun b => b.idx) = x.written.map (fun b => b.idx) := by
      rw [List.map_map]; exact List.map_congr_left fun b _ => hf b
    rw [this]; exact h.1
  · obtain ⟨c, hc, rfl⟩ := List.mem_map.1 hb
    rw [hf]; exact h.2 c hc

/-- Segments whose contents change, but not their numbers and sizes. -/
theorem SegStore.map_ok {st st' : SegStore} {f : Segment → Segment} (e : st'.segs = st.segs.map f)
    (hi : ∀ x, (f x).id = x.id) (hb : ∀ x, (f x).blocks = x.blocks) (hf : ∀ x ∈ st.segs, x.ok → (f x).ok) (h : st.ok) :
        st'.ok := by
  obtain ⟨h1, h2, h3⟩ := h
  refine ⟨?_, ?_, ?_⟩
  · rw [e, List.map_map]
    have : (fun x : Segment => x.id.val) ∘ f = fun x => x.id.val := funext fun x => by simp [hi]
    rw [this]; exact h1
  · rw [e, List.map_map]
    have : Segment.blocks ∘ f = Segment.blocks := funext hb
    rw [this]; exact h2
  · rw [e]
    intro y hy
    obtain ⟨x, hx, rfl⟩ := List.mem_map.1 hy
    exact hf x hx (h3 x hx)

theorem markBad_keeps {s0 s : State} (h : Keeps s0 s) (bad : List (Nat × Nat)) : Keeps s0 (markBad bad s) := by
  refine store_keeps h _ (SegStore.map_ok rfl (fun _ => rfl) (fun _ => rfl) fun x _ hx => Segment.mapWritten_ok (fun b =>
      ?_) hx)
  dsimp only
  split <;> rfl

end Sys2Proof.Machine
end

