-- ==== Sys2Proof/Laws/KeepsStream.lean ====
section
/-! SUPPORT. Lemmas of Laws/Keeps.lean for the stream port, the multi-device link, the timebase, Belfry and sleep. -/
namespace Sys2Proof.Machine

theorem eccDrop_keeps {s0 s : State} (h : Keeps s0 s) (rs : List FifoRec) : Keeps s0 (eccDrop rs s) := by
  unfold eccDrop
  extract_lets s1
  have ks1 : Keeps s0 s1 := by repeat' first
    | with_reducible assumption | intro _ _ _ | with_reducible apply modFifo_keeps | with_reducible apply modPort_keeps
    | with_reducible refine Keeps.ite ?_ ?_ | with_reducible refine foldS_keeps ?_ ?_ | exact fun h => h
    | exact fun _ => ⟨rfl, rfl⟩ | split | dsimp only
  clear_value s1
  repeat' first
    | with_reducible assumption | intro _ _ _ | with_reducible apply modFifo_keeps | with_reducible apply modPort_keeps
    | with_reducible refine Keeps.ite ?_ ?_ | with_reducible refine foldS_keeps ?_ ?_ | exact fun h => h
    | exact fun _ => ⟨rfl, rfl⟩ | split | dsimp only

/-- What a channel held is no less than what a frame takes of it and what stays (R131, R375). -/
theorem takeGood_length (bad : List Nat) (rs : List FifoRec) : ∀ m i : Nat,
    (takeGood bad m i rs).1.length + (takeGood bad m i rs).2.2.length ≤ rs.length := by
  induction rs with
  | nil => exact fun _ _ => Nat.le_refl _
  | cons r rs ih =>
    intro m i
    unfold takeGood
    have h1 := ih m (i + 1)
    have h2 := ih (m - 1) (i + 1)
    split
    · simp
    · split <;> simp only [List.length_cons] <;> omega

/-- R144: the slots that n records of a channel take in a partition; u: the U partition. -/
def channelSlots (u : Bool) (ch : Fin 6) (n : Nat) : Nat :=
  if decide (ch.val = 1) == u then (if ch.val = 3 then 2 * n else n) else 0

theorem channelSlots_mono {u : Bool} {ch : Fin 6} {a b c : Nat} (h : a + b ≤ c) :
    channelSlots u ch a + channelSlots u ch b ≤ channelSlots u ch c := by
  unfold channelSlots; split <;> (try split) <;> omega

theorem channelSlots_add {u : Bool} {ch : Fin 6} {a b : Nat} :
    channelSlots u ch (a + b) = channelSlots u ch a + channelSlots u ch b := by
  unfold channelSlots; split <;> (try split) <;> omega

theorem flownSlots_append (u : Bool) (x : Flight) (fs : List Flight) :
    flownSlots u (fs ++ [x]) = flownSlots u fs + channelSlots u x.ch x.recs.length := by
  induction fs with
  | nil => rw [List.nil_append, flownSlots_cons]; simp [channelSlots, Flight.slots, flownSlots]
  | cons y fs ih => rw [List.cons_append, flownSlots_cons, ih, flownSlots_cons]; omega

/-- The channels of the FIFO alone, without the frames in progress. -/
def Fifo.held (u : Bool) (f : Fifo) : Nat :=
  if u then f.urecs.length else f.stamps.length + 2 * f.results.length + f.events.length + f.overflows.length

theorem Fifo.uUsed_held (f : Fifo) : f.uUsed = f.held true + flownSlots true f.flights := rfl

theorem Fifo.bUsed_held (f : Fifo) : f.bUsed = f.held false + flownSlots false f.flights := rfl

theorem Fifo.setChannel_held (u : Bool) (f : Fifo) (ch : Fin 6) (rs : List FifoRec) :
    (f.setChannel ch rs).held u + channelSlots u ch (f.channel ch).1.length = f.held u + channelSlots u ch rs.length := by
  rcases ch with ⟨n, hn⟩
  cases u <;> (match n, hn with
    | 0, _ => simp [Fifo.held, Fifo.setChannel, Fifo.channel, channelSlots] <;> omega
    | 1, _ => simp [Fifo.held, Fifo.setChannel, Fifo.channel, channelSlots] <;> omega
    | 2, _ => simp [Fifo.held, Fifo.setChannel, Fifo.channel, channelSlots] <;> omega
    | 3, _ => simp [Fifo.held, Fifo.setChannel, Fifo.channel, channelSlots] <;> omega
    | 4, _ => simp [Fifo.held, Fifo.setChannel, Fifo.channel, channelSlots] <;> omega
    | 5, _ => simp [Fifo.held, Fifo.setChannel, Fifo.channel, channelSlots] <;> omega)

theorem Fifo.setChannel_rest (f : Fifo) (ch : Fin 6) (rs : List FifoRec) :
    (f.setChannel ch rs).flights = f.flights ∧ (f.setChannel ch rs).bEpisode = f.bEpisode ∧
      (f.setChannel ch rs).uEpisode = f.uEpisode := by
  unfold Fifo.setChannel
  split <;> exact ⟨rfl, rfl, rfl⟩

/-- A FIFO with the episodes of another, in which no partition holds more, keeps the bounds. -/
theorem Fifo.ok_of_le {f g : Fifo} (hu : g.uUsed ≤ f.uUsed) (hb : g.bUsed ≤ f.bUsed) (e1 : g.bEpisode = f.bEpisode)
    (e2 : g.uEpisode = f.uEpisode) (h : f.ok) : g.ok :=
  ⟨Nat.le_trans hu h.1, Nat.le_trans hb h.2.1, e1 ▸ h.2.2.1, e2 ▸ h.2.2.2⟩

/-- A frame that starts holds in the partition of its channel what its records held there. -/
theorem Fifo.launch_ok {f : Fifo} {ch : Fin 6} {recs rest : List FifoRec} {lane : Fin 4} {t e : Nat}
    (hl : recs.length + rest.length ≤ (f.channel ch).1.length) (h : f.ok) :
    ({ f.setChannel ch rest with flights := f.flights ++ [⟨lane, ch, recs, t⟩], eccNew := e } : Fifo).ok := by
  obtain ⟨-, e2, e3⟩ := f.setChannel_rest ch rest
  have key : ∀ u, (f.setChannel ch rest).held u + channelSlots u ch recs.length ≤ f.held u := fun u => by
    have := f.setChannel_held u ch rest
    have := channelSlots_mono (u := u) (ch := ch) hl
    omega
  refine Fifo.ok_of_le (f := f) ?_ ?_ e2 e3 h
  · have := key true
    rw [Fifo.uUsed_held, Fifo.uUsed_held, flownSlots_append]
    simp only [Fifo.held] at this ⊢
    simp only [if_true] at this ⊢
    omega
  · have := key false
    rw [Fifo.bUsed_held, Fifo.bUsed_held, flownSlots_append]
    simp only [Fifo.held] at this ⊢
    simp only [Bool.false_eq_true, if_false] at this ⊢
    omega

theorem eccDrop_fifo (rs : List FifoRec) (s : State) :
    (eccDrop rs s).fifo = { s.fifo with eccNew := s.fifo.eccNew + rs.length } := by
  have key : ∀ (xs : List FifoRec) (t : State), (foldS xs (fun r s => match r with
      | .stamp x => s.modPort x.port (fun q => { q with counts := { q.counts with drops := q.counts.drops + 1 } })
      | _ => s) t).fifo = t.fifo := by
    intro xs
    unfold foldS
    induction xs with
    | nil => exact fun _ => rfl
    | cons x xs ih => intro t; rw [List.foldl_cons, ih]; cases x <;> rfl
  exact key _ _

/-- A frame without records. -/
theorem putFrame_keeps {s0 s : State} (h : Keeps s0 s) (ch : Fin 6) (lane : Fin 4) (ty : FrameType) (payload : List Byte) :
    Keeps s0 (putFrame ch lane ty [] payload s) := by
  unfold putFrame
  extract_lets f bytes ticks t
  refine modSp_keeps (modFifo_keeps h _ fun k => ?_) _
  refine Fifo.ok_of_le (f := s.fifo) ?_ ?_ rfl rfl k
  · rw [Fifo.uUsed_held, Fifo.uUsed_held, flownSlots_append]
    simp [channelSlots, Fifo.held]
  · rw [Fifo.bUsed_held, Fifo.bUsed_held, flownSlots_append]
    simp [channelSlots, Fifo.held]

theorem sendControl_keeps {s0 s : State} (h : Keeps s0 s) (lane : Fin 4) : Keeps s0 (sendControl lane s) := by
  unfold sendControl
  repeat' first
    | with_reducible assumption | with_reducible apply modSp_keeps | with_reducible apply putFrame_keeps
    | with_reducible refine Keeps.ite ?_ ?_ | split | dsimp only

theorem sendFrame_keeps {s0 s : State} (h : Keeps s0 s) (ch : Fin 6) (bad : List Nat) : Keeps s0 (sendFrame ch bad s) := by
  unfold sendFrame
  refine .ite h ?_
  split
  · exact h
  rename_i lane _
  refine .ite (sendControl_keeps h lane) ?_
  extract_lets c x t
  have hl : x.1.length + x.2.2.length ≤ (s.fifo.channel ch).1.length := takeGood_length bad c.1 c.2.1 0
  have et : t.fifo = _ := eccDrop_fifo x.2.1 (s.modFifo (fun f => f.setChannel ch x.2.2))
  have kt : Keeps s t := eccDrop_keeps (modFifo_keeps (Keeps.refl s) _ fun k => by
    obtain ⟨e1, e2, e3⟩ := s.fifo.setChannel_rest ch x.2.2
    have key : ∀ u, (s.fifo.setChannel ch x.2.2).held u ≤ s.fifo.held u := fun u => by
      have := s.fifo.setChannel_held u ch x.2.2
      have := channelSlots_mono (u := u) (ch := ch) hl
      omega
    refine Fifo.ok_of_le ?_ ?_ e2 e3 k
    · rw [Fifo.uUsed_held, Fifo.uUsed_held, e1]; exact Nat.add_le_add_right (key true) _
    · rw [Fifo.bUsed_held, Fifo.bUsed_held, e1]; exact Nat.add_le_add_right (key false) _) _
  refine .ite (h.trans kt) (h.trans ⟨kt.pending, fun k => ?_, kt.tb, kt.store, kt.dl, kt.bel, kt.fuses⟩)
  have e1 : (s.fifo.setChannel ch x.2.2).flights = s.fifo.flights := (s.fifo.setChannel_rest ch x.2.2).1
  have := Fifo.launch_ok (lane := lane) (t := ((frameBytes lane.val ⟨ch.val, c.2.2, t.sp.seqs[ch], x.1,
    x.1.flatMap recBytes⟩).length + 2) * t.sp.rate.symTicks) (e := t.fifo.eccNew) hl k
  simpa only [putFrame, State.modSp, State.modFifo, et, e1] using this

theorem repeatCredit_keeps {s0 s : State} (h : Keeps s0 s) : Keeps s0 (repeatCredit s) := by
  unfold repeatCredit
  repeat' first
    | with_reducible assumption | with_reducible apply modSp_keeps | with_reducible apply putFrame_keeps
    | with_reducible refine Keeps.ite ?_ ?_ | split | dsimp only

/-- The records of frames that are cut return to their channels within the bounds (R133, R150). -/
theorem Fifo.giveBack_ok (f : Fifo) (h : f.ok) : f.giveBack.ok := by
  unfold Fifo.giveBack
  extract_lets put
  have key : ∀ fs : List Flight, (∀ u, (fs.foldr (fun x f => put f x) f).held u ≤ f.held u + flownSlots u fs) ∧
      (fs.foldr (fun x f => put f x) f).bEpisode = f.bEpisode ∧ (fs.foldr (fun x f => put f x) f).uEpisode = f.uEpisode := by
    intro fs
    induction fs with
    | nil => exact ⟨fun u => Nat.le_add_right _ _, rfl, rfl⟩
    | cons x fs ih =>
      obtain ⟨i1, i2, i3⟩ := ih
      rw [List.foldr_cons]
      generalize fs.foldr (fun x f => put f x) f = g at i1 i2 i3
      unfold put
      split
      · refine ⟨fun u => ?_, i2, i3⟩
        have := i1 u
        rw [flownSlots_cons]
        omega
      · obtain ⟨-, e2, e3⟩ := g.setChannel_rest x.ch (x.recs ++ (g.channel x.ch).1)
        refine ⟨fun u => ?_, e2.trans i2, e3.trans i3⟩
        have h1 := g.setChannel_held u x.ch (x.recs ++ (g.channel x.ch).1)
        have h2 := i1 u
        rw [List.length_append, channelSlots_add] at h1
        have h3 : (if (decide (x.ch.val = 1) == u) = true then x.slots else 0) = channelSlots u x.ch x.recs.length := rfl
        rw [flownSlots_cons, h3]
        omega
  obtain ⟨k1, k2, k3⟩ := key f.flights
  refine Fifo.ok_of_le (f := f) ?_ ?_ k2 k3 h
  · exact Nat.le_trans (Nat.le_of_eq (Nat.add_zero _)) (k1 true)
  · exact Nat.le_trans (Nat.le_of_eq (Nat.add_zero _)) (k1 false)

theorem linkDown_keeps {s0 s : State} (h : Keeps s0 s) : Keeps s0 (linkDown s) := by
  unfold linkDown
  extract_lets was s1 s2
  have k2 : Keeps s0 s2 := modFifo_keeps (modSp_keeps h _) _ (Fifo.giveBack_ok _)
  exact .ite (raise_keeps (modSp_keeps k2 _) _ _) k2

theorem laneLock_keeps {s0 s : State} (h : Keeps s0 s) (r : Fin 2) (rd : Bool) (gs : List CodeGroup) :
    Keeps s0 (laneLock r rd gs s) := by
  unfold laneLock
  repeat' first
    | with_reducible assumption | intro _ _ _ | with_reducible apply modSp_keeps | with_reducible refine Keeps.ite ?_ ?_
    | split | dsimp only

theorem laneLoseLock_keeps {s0 s : State} (h : Keeps s0 s) (r : Fin 2) (rd : Bool) (gs : List CodeGroup) :
    Keeps s0 (laneLoseLock r rd gs s) := by
  unfold laneLoseLock
  repeat' first
    | with_reducible assumption | intro _ _ _ | with_reducible apply modSp_keeps | with_reducible apply linkDown_keeps
    | with_reducible refine Keeps.ite ?_ ?_ | split | dsimp only

theorem tsInUp_keeps {s0 s : State} (h : Keeps s0 s) (r : Fin 2) (rd : Bool) (gs : List CodeGroup) :
    Keeps s0 (tsInUp r rd gs s) := by
  unfold tsInUp
  repeat' first
    | with_reducible assumption | with_reducible apply linkDown_keeps | with_reducible refine Keeps.ite ?_ ?_ | split
    | dsimp only

theorem linkUp_keeps {s0 s : State} (h : Keeps s0 s) (seen : List (Bool × List CodeGroup)) : Keeps s0 (linkUp seen s) := by
  unfold linkUp
  repeat' first
    | with_reducible assumption | intro _ _ _ | with_reducible apply modSp_keeps | with_reducible refine Keeps.ite ?_ ?_
    | split | dsimp only

theorem setEnable_keeps {s0 s : State} (h : Keeps s0 s) (on : Bool) : Keeps s0 (setEnable on s) := by
  unfold setEnable
  repeat' first
    | with_reducible assumption | with_reducible apply modSp_keeps | with_reducible apply linkDown_keeps
    | with_reducible refine Keeps.ite ?_ ?_ | split | dsimp only

theorem report_keeps {s0 s : State} (h : Keeps s0 s) (e : UpEntry) : Keeps s0 (report e s) := by
  unfold report
  repeat' first
    | with_reducible assumption | with_reducible apply modSp_keeps | with_reducible refine Keeps.ite ?_ ?_ | split
    | dsimp only

theorem Rising.tail {a : Nat} : ∀ {xs : List Nat}, Rising (a :: xs) → Rising xs
  | [], _ => trivial
  | _ :: _, h => h.2

theorem Rising.lt {a : Nat} : ∀ {xs : List Nat}, Rising (a :: xs) → ∀ x ∈ xs, a < x
  | [], _, _, hx => by simp at hx
  | b :: xs, h, x, hx => by
    rcases List.mem_cons.1 hx with rfl | hx
    · exact h.1
    · exact Nat.lt_trans h.1 (Rising.lt h.2 x hx)

theorem Rising.cons_putBlock {b : Block} {a : Nat} : ∀ {xs : List Block}, Rising (a :: xs.map (fun b => b.idx)) → a < b.idx →
    Rising (a :: (putBlock b xs).map (fun b => b.idx))
  | [], _, h => ⟨h, trivial⟩
  | x :: xs, hr, h => by
    unfold putBlock
    split
    · rename_i e
      simpa [e] using hr
    · split
      · exact ⟨h, by assumption, hr.2⟩
      · exact ⟨hr.1, Rising.cons_putBlock hr.2 (by dsimp only; omega)⟩

theorem putBlock_mem {b c : Block} : ∀ {xs : List Block}, c ∈ putBlock b xs → c = b ∨ c ∈ xs
  | [], h => by simpa [putBlock] using h
  | x :: xs, h => by
    unfold putBlock at h
    split at h
    · rcases List.mem_cons.1 h with e | e <;> simp [e]
    · split at h
      · rcases List.mem_cons.1 h with e | e
        · exact .inl e
        · exact .inr e
      · rcases List.mem_cons.1 h with e | e
        · simp [e]
        · rcases putBlock_mem e with k | k <;> simp [k]

theorem putBlock_rising {b : Block} : ∀ {xs : List Block}, Rising (xs.map (fun b => b.idx)) →
    Rising ((putBlock b xs).map (fun b => b.idx))
  | [], _ => trivial
  | x :: xs, h => by
    unfold putBlock
    split
    · rename_i e
      simpa [e] using h
    · split
      · exact ⟨by assumption, h⟩
      · exact Rising.cons_putBlock h (by dsimp only; omega)

/-- A segment of the store is the one its number finds. -/
theorem SegStore.find_of_mem {id : Fin 4096} : ∀ {xs : List Segment}, Rising (xs.map
    (fun x => x.id.val)) → ∀ x ∈ xs, x.id = id →
    xs.find? (fun x => decide (x.id = id)) = some x
  | [], _, x, hx, _ => by simp at hx
  | y :: ys, hr, x, hx, e => by
    rcases List.mem_cons.1 hx with rfl | hm
    · simp [e]
    · have hlt : y.id.val < x.id.val := Rising.lt hr _ (List.mem_map.2 ⟨x, hm, rfl⟩)
      have hne : y.id ≠ id := fun k => by rw [k, e] at hlt; omega
      simp only [List.find?_cons, hne, decide_false]
      exact find_of_mem (Rising.tail hr) x hm e

theorem writeBlock_keeps {s0 s : State} (h :
    Keeps s0 s) (id : Fin 4096) (b : Block) (hb : ∀ x, s.store.find id = some x → b.idx < x.blocks) :
    Keeps s0 (writeBlock id b s) := by
  refine store_keeps h _ fun hk => SegStore.map_ok rfl (fun x => ?_) (fun x => ?_) (fun x hx ok => ?_) hk
  · split <;> rfl
  · split <;> rfl
  · split
    · rename_i e
      refine ⟨putBlock_rising ok.1, fun c hc => ?_⟩
      rcases putBlock_mem hc with rfl | k
      · exact hb x (SegStore.find_of_mem hk.1 x hx e)
      · exact ok.2 c k
    · exact ok

theorem decideBlock_keeps {s0 s : State} (h : Keeps s0 s) (a : Assembly) : Keeps s0 (decideBlock a s).2 := by
  unfold decideBlock
  extract_lets checks same id
  split
  · exact h
  · split
    · exact h
    · split
      · exact h
      · split
        · exact h
        · rename_i seg hf _ _
          exact writeBlock_keeps h _ _ fun x e => by
            rw [hf] at e
            cases e
            dsimp only
            omega

theorem placeQuarter_keeps {s0 s : State} (h :
    Keeps s0 s) (seg block quarter seq : Nat) (check : BitVec 32) (data : List Byte) :
    Keeps s0 (placeQuarter seg block quarter seq check data s) := by
  unfold placeQuarter
  extract_lets mine
  repeat' first
    | with_reducible assumption | intro _ _ _ | with_reducible apply report_keeps | with_reducible apply modSp_keeps
    | with_reducible apply decideBlock_keeps | with_reducible refine Keeps.ite ?_ ?_ | with_reducible refine Keeps.cond ?_ ?_
    | (with_reducible refine eachFin_keeps ?_ (fun _ _ _ => ?_)) | (with_reducible refine foldS_keeps ?_ (fun _ _ _ => ?_))
    | with_reducible exact Keeps.mk_of (by assumption) | split | dsimp only

theorem takeUpload_keeps {s0 s : State} (h : Keeps s0 s) (f : RxFrame) : Keeps s0 (takeUpload f s) := by
  unfold takeUpload
  repeat' first
    | with_reducible assumption | intro _ _ _ | with_reducible apply modSp_keeps | with_reducible apply report_keeps
    | with_reducible apply format_keeps | with_reducible apply placeQuarter_keeps | with_reducible refine Keeps.ite ?_ ?_
    | split | dsimp only

theorem arriveFrame_keeps {s0 s : State} (h : Keeps s0 s) (r : Fin 2) (f : RxFrame) : Keeps s0 (arriveFrame r f s) := by
  unfold arriveFrame
  repeat' first
    | with_reducible assumption | intro _ _ _ | with_reducible apply modSp_keeps | with_reducible refine Keeps.ite ?_ ?_
    | split | dsimp only

theorem leaveBuffers_keeps (r : Fin 2) : ∀ (n : Nat) {s0 s : State}, Keeps s0 s → Keeps s0 (leaveBuffers r n s)
  | 0, _, _, h => h
  | n + 1, s0, s, h => by
    refine leaveBuffers_keeps r n ?_
    unfold leaveBuffer
    split
    · exact h
    · exact modSp_keeps (takeUpload_keeps h _) _

theorem uploadFrame_keeps {s0 s : State} (h : Keeps s0 s) (r : Fin 2) (rd : Bool) (gs : List CodeGroup) (n : Nat) :
    Keeps s0 (uploadFrame r rd gs n s) := by
  refine .ite h (leaveBuffers_keeps r _ ?_)
  split
  · exact arriveFrame_keeps h _ _
  · exact h

theorem assemblyTimeout_keeps {s0 s : State} (h : Keeps s0 s) (k : Nat) : Keeps s0 (assemblyTimeout k s) := by
  unfold assemblyTimeout
  repeat' first
    | with_reducible assumption | with_reducible apply report_keeps | with_reducible apply modSp_keeps
    | with_reducible refine Keeps.ite ?_ ?_ | split | dsimp only

theorem publishEcc_keeps {s0 s : State} (h : Keeps s0 s) (seg fifo sys : Nat) : Keeps s0 (publishEcc seg fifo sys s) := by
  have k1 := modFifo_keeps h (fun f =>
    { f with eccCorr := f.eccCorr + BitVec.ofNat 32 fifo, eccDrops := f.eccDrops + BitVec.ofNat 32 f.eccNew, eccNew := 0 })
        (fun h => h)
  exact k1.trans ⟨rfl, id, id, fun h => h, id, id, fusesKept.refl _⟩

theorem sendPulse_keeps {s0 s : State} (h : Keeps s0 s) : Keeps s0 (sendPulse s) := by
  unfold sendPulse
  repeat' first
    | with_reducible assumption | with_reducible apply modSync_keeps | with_reducible refine Keeps.ite ?_ ?_ | split
    | dsimp only

theorem returnPulse_keeps {s0 s : State} (h : Keeps s0 s) : Keeps s0 (returnPulse s) := by
  unfold returnPulse
  extract_lets y live half k rise sent
  repeat' first
    | with_reducible assumption | with_reducible apply modSync_keeps | with_reducible refine Keeps.ite ?_ ?_ | split
    | dsimp only

theorem syncEdge_keeps {s0 s : State} (h : Keeps s0 s) (falling : Bool) (t : TimeWord) : Keeps s0 (syncEdge falling t s) := by
  unfold syncEdge
  repeat' first
    | with_reducible assumption | with_reducible apply axisIndex_keeps | with_reducible apply axisCount_keeps
    | with_reducible apply modSync_keeps | with_reducible refine Keeps.ite ?_ ?_ | split | dsimp only

theorem holdTimeout_keeps {s0 s : State} (h : Keeps s0 s) : Keeps s0 (holdTimeout s) := by
  unfold holdTimeout
  extract_lets y
  repeat' first
    | with_reducible assumption | with_reducible apply modSync_keeps | with_reducible refine Keeps.ite ?_ ?_ | split
    | dsimp only

theorem slew_keeps {s0 s : State} (h : Keeps s0 s) : Keeps s0 (slew s) := by
  unfold slew
  extract_lets y live
  repeat' first
    | with_reducible assumption | with_reducible apply modSync_keeps | with_reducible apply modTb_keeps
    | with_reducible refine Keeps.ite ?_ ?_ | exact fun h => h | exact fun _ => ⟨rfl, rfl⟩ | split | dsimp only

theorem shift_keeps {s0 s : State} (h : Keeps s0 s) (o : Int) : Keeps s0 (s.shift o) :=
  h.trans ⟨rfl, id, fun h => h, id, id, id, fusesKept.refl _⟩

theorem abortOpen_keeps {s0 s : State} (h : Keeps s0 s) : Keeps s0 (abortOpen s) := by
  unfold abortOpen
  repeat' first
    | with_reducible assumption | intro _ _ _ | with_reducible apply mfAbort_keeps | with_reducible refine Keeps.ite ?_ ?_
    | with_reducible refine eachFin_keeps ?_ ?_ | split | dsimp only

theorem syncStep_keeps {s0 s : State} (h : Keeps s0 s) : Keeps s0 (syncStep s) := by
  unfold syncStep
  repeat' first
    | with_reducible assumption | intro _ _ _ | with_reducible apply abortOpen_keeps | with_reducible apply shift_keeps
    | with_reducible apply restartAxis_keeps | with_reducible apply flushFence_keeps | with_reducible apply modSync_keeps
    | with_reducible apply startAligns_keeps | with_reducible refine Keeps.ite ?_ ?_
    | with_reducible refine eachFin_keeps ?_ ?_ | split | dsimp only

theorem setRole_keeps {s0 s : State} (h : Keeps s0 s) (x : SyncRole) : Keeps s0 (setRole x s) := by
  unfold setRole
  extract_lets y
  repeat' first
    | with_reducible assumption | with_reducible apply startAligns_keeps | with_reducible apply modSync_keeps
    | with_reducible refine Keeps.ite ?_ ?_ | split | dsimp only

theorem setDelay_keeps {s0 s : State} (h : Keeps s0 s) (v : Nat) : Keeps s0 (setDelay v s) := by
  unfold setDelay
  repeat' first
    | with_reducible assumption | with_reducible apply modSync_keeps | with_reducible refine Keeps.ite ?_ ?_ | split
    | dsimp only

theorem syncLock_keeps {s0 s : State} (h : Keeps s0 s) : Keeps s0 (syncLock s) := by
  unfold syncLock
  repeat' first
    | with_reducible assumption | with_reducible apply modSync_keeps | with_reducible refine Keeps.ite ?_ ?_ | split
    | dsimp only

theorem syncLockloss_keeps {s0 s : State} (h : Keeps s0 s) : Keeps s0 (syncLockloss s) := by
  unfold syncLockloss
  repeat' first
    | with_reducible assumption | with_reducible apply modSync_keeps | with_reducible refine Keeps.ite ?_ ?_ | split
    | dsimp only

theorem putLog_ok (running : Bool) (n : Fin 16) (src : RuleSrc) (value : Int) (b : Belfry) (h : b.ok) :
    (putLog running n src value b).1.ok := by
  unfold putLog
  extract_lets e b'
  have hb : b'.log.length ≤ 64 := h
  split
  · simp only [Belfry.ok, List.length_append, List.length_singleton]; omega
  · split
    · exact hb
    · simp only [Belfry.ok, List.length_append, List.length_singleton, List.length_drop]; omega

theorem wakeAction_ok (n : Fin 16) (b : Belfry) (h : b.ok) : (wakeAction n b).ok := by
  have e : (wakeAction n b).log = b.log := by
    unfold wakeAction
    cases b.step <;> first | rfl | (dsimp only; cases b.wakeDuringEntry <;> rfl)
  unfold Belfry.ok
  rw [e]
  exact h

theorem fireRule_keeps {s0 s : State} (h : Keeps s0 s) (n : Fin 16) (value : Int) : Keeps s0 (fireRule n value s) := by
  unfold fireRule
  extract_lets r acts s1 s2 s3 x s4 s5
  have k1 : Keeps s0 s1 := happen_keeps h _ _
  have k2 : Keeps s0 s2 := .ite (modBel_keeps k1 _ fun h => h) k1
  have k3 : Keeps s0 s3 := .ite (happen_keeps (modBel_keeps k2 _ fun h => h) _ _) k2
  have k4 : Keeps s0 s4 := modBel_keeps k3 _ (putLog_ok _ _ _ _ _)
  have k5 : Keeps s0 s5 := .ite (.ite (happen_keeps k4 _ _) k4) k3
  exact .ite (modBel_keeps k5 _ (wakeAction_ok _ _)) k5

theorem runRules_keeps {s0 s : State} (h : Keeps s0 s) (value : RuleSrc → Option Int) : Keeps s0 (runRules value s) := by
  unfold runRules
  refine eachFin_keeps h fun n t h => ?_
  dsimp only
  split
  · exact h
  · have k := modBel_keeps h (fun b => { b with rules := upd b.rules n (fun _ => (t.bel.rules[n].sample ‹Int›).1) }) fun h => h
    split
    · exact fireRule_keeps k _ _
    · exact k

theorem countFrame_keeps {s0 s : State} (h : Keeps s0 s) (before : Bool) (after : Bool) :
    Keeps s0 (countFrame before after s) := by
  unfold countFrame
  repeat' first
    | with_reducible assumption | with_reducible apply modBel_keeps | with_reducible refine Keeps.ite ?_ ?_
    | with_reducible refine Keeps.cond ?_ ?_ | exact fun h => h | exact fun _ => ⟨rfl, rfl⟩ | split | dsimp only

theorem belfrySample_keeps {s0 s : State} (h : Keeps s0 s) (levels : BitVec 4) (refa : Bool) :
    Keeps s0 (belfrySample levels refa s) := by
  unfold belfrySample
  extract_lets before s1 s2
  exact runRules_keeps (countFrame_keeps (modBel_keeps h _ fun h => h) _ _) _

theorem takeTemp_keeps {s0 s : State} (h : Keeps s0 s) (t : Int) : Keeps s0 (takeTemp t s) := by
  unfold takeTemp
  extract_lets b up high s4
  have ks4 : Keeps s0 s4 := by repeat' first
    | with_reducible assumption | with_reducible apply modBel_keeps | with_reducible apply happen_keeps
    | with_reducible refine Keeps.ite ?_ ?_ | exact fun h => h | exact fun _ => ⟨rfl, rfl⟩ | split | dsimp only
  clear_value s4
  repeat' first
    | with_reducible assumption | with_reducible apply modBel_keeps | with_reducible apply happen_keeps
    | with_reducible refine Keeps.ite ?_ ?_ | exact fun h => h | exact fun _ => ⟨rfl, rfl⟩ | split | dsimp only

theorem belfryConversion_keeps {s0 s : State} (h : Keeps s0 s) (x : BelfryReading) : Keeps s0 (belfryConversion x s) := by
  unfold belfryConversion
  repeat' first
    | with_reducible assumption | with_reducible apply runRules_keeps | with_reducible apply takeTemp_keeps
    | with_reducible refine Keeps.ite ?_ ?_ | split | dsimp only

theorem clearAlert_keeps {s0 s : State} (h : Keeps s0 s) : Keeps s0 (clearAlert s) := by
  unfold clearAlert
  repeat' first
    | with_reducible assumption | with_reducible apply modBel_keeps | with_reducible refine Keeps.ite ?_ ?_ | exact fun h => h
    | exact fun _ => ⟨rfl, rfl⟩ | split | dsimp only

theorem clearLog_keeps {s0 s : State} (h : Keeps s0 s) : Keeps s0 (clearLog s) := modBel_keeps h _ fun _ => by simp [Belfry.ok]

theorem modRef_keeps {s0 s : State} (h : Keeps s0 s) (x : Fin 4) (f : Ref → Ref) : Keeps s0 (State.modRef s x f) := by
  unfold State.modRef
  repeat' first
    | with_reducible assumption | with_reducible apply modTb_keeps | with_reducible refine Keeps.ite ?_ ?_ | exact fun h => h
    | exact fun _ => ⟨rfl, rfl⟩ | split | dsimp only

theorem requalify_keeps {s0 s : State} (h : Keeps s0 s) (x : Fin 4) : Keeps s0 (requalify x s) := by
  unfold requalify
  extract_lets r q s1
  have k1 : Keeps s0 s1 := modRef_keeps h _ _
  refine .ite h ?_
  clear_value q
  cases q <;> first | exact k1 | exact happen_keeps k1 _ _

theorem acquireNext_keeps {s0 s : State} (h : Keeps s0 s) (after : Option (Fin 4)) : Keeps s0 (acquireNext after s) := by
  unfold acquireNext
  extract_lets now
  repeat' first
    | with_reducible assumption | with_reducible apply modTb_keeps | with_reducible refine Keeps.ite ?_ ?_ | exact fun h => h
    | exact fun _ => ⟨rfl, rfl⟩ | split | dsimp only

theorem axisLockloss_keeps {s0 s : State} (h : Keeps s0 s) (a : Fin 4) : Keeps s0 (axisLockloss a s) := by
  unfold axisLockloss
  extract_lets s1
  have ks1 : Keeps s0 s1 := by repeat' first
    | with_reducible assumption | with_reducible apply enterLost_keeps | with_reducible apply modAxis_keeps
    | with_reducible refine Keeps.ite ?_ ?_ | split | dsimp only
  clear_value s1
  repeat' first
    | with_reducible assumption | with_reducible apply enterLost_keeps | with_reducible apply modAxis_keeps
    | with_reducible refine Keeps.ite ?_ ?_ | split | dsimp only

theorem lockloss_keeps {s0 s : State} (h : Keeps s0 s) : Keeps s0 (lockloss s) := by
  unfold lockloss
  extract_lets s1 s2 s3 s4 s5 s6 s7
  have k1 : Keeps s0 s1 := raise_keeps h _ _
  have k2 : Keeps s0 s2 := modTb_keeps k1 _ fun ⟨a, _, c⟩ => ⟨a, by simp, c⟩
  have k4 : Keeps s0 s4 := clustersLockloss_keeps (linkDown_keeps k2)
  have k7 : Keeps s0 s7 := abortOpen_keeps (eachFin_keeps (groupsLockloss_keeps k4) fun _ _ h => axisLockloss_keeps h _)
  exact acquireNext_keeps (syncLockloss_keeps (spanEnd_keeps k7)) _

theorem beginSwitch_keeps {s0 s : State} (h : Keeps s0 s) (y : Fin 4) (lost : Bool) : Keeps s0 (beginSwitch y lost s) :=
  spanBegin_keeps (modTb_keeps h _ fun h => h)

theorem enterHoldover_keeps {s0 s : State} (h : Keeps s0 s) (hl : s.tb.state = .locked) : Keeps s0 (enterHoldover s) := by
  unfold enterHoldover
  extract_lets s1
  exact .ite (lockloss_keeps h) (spanEnd_keeps (happen_keeps (modTb_keeps h _ fun ⟨a, b, c⟩ => ⟨a, by simpa [hl] using b, c⟩) _ _))

theorem activeFailed_keeps {s0 s : State} (h : Keeps s0 s) (hl : s.tb.state = .locked) : Keeps s0 (activeFailed s) := by
  unfold activeFailed
  split
  · exact beginSwitch_keeps h _ _
  · exact enterHoldover_keeps h hl

theorem autoChecks_keeps {s0 s : State} (h : Keeps s0 s) : Keeps s0 (autoChecks s) := by
  unfold autoChecks
  repeat' first
    | with_reducible assumption | intro _ _ _ | with_reducible apply idle_keeps | with_reducible apply beginSwitch_keeps
    | with_reducible refine Keeps.ite ?_ ?_ | split | dsimp only

theorem abandonSwitch_keeps {s0 s : State} (h : Keeps s0 s) (x : Fin 4) : Keeps s0 (abandonSwitch x s) := by
  unfold abandonSwitch
  split
  · rename_i y lost _
    refine .ite h ?_
    extract_lets s1
    have k1 : Keeps s0 s1 := modTb_keeps h _ fun h => h
    split
    · rename_i c
      simp only [Bool.and_eq_true, decide_eq_true_eq] at c
      exact activeFailed_keeps k1 c.1
    · exact autoChecks_keeps (spanEnd_keeps k1)
  · exact h

theorem activeGone_keeps {s0 s : State} (h : Keeps s0 s) (hl : s.tb.state = .locked) (n : Nat) : Keeps s0 (activeGone n s) := by
  unfold activeGone
  extract_lets s1
  have k1 : Keeps s0 s1 := modTb_keeps h _ fun h => h
  split
  · exact modTb_keeps k1 _ fun h => h
  · exact activeFailed_keeps k1 hl

theorem followsRef_locked {t : Timebase} {x : Fin 4} (h : t.followsRef x = true) : t.state = .locked := by
  simp only [Timebase.followsRef, Bool.and_eq_true, decide_eq_true_eq] at h
  exact h.1.1

theorem referenceGone_keeps {s0 s : State} (h : Keeps s0 s) (x : Fin 4) : Keeps s0 (referenceGone x s) := by
  unfold referenceGone
  split
  · exact activeGone_keeps h (followsRef_locked (by assumption)) _
  · exact abandonSwitch_keeps h _

theorem noteBad_keeps {s0 s : State} (h : Keeps s0 s) : Keeps s0 (noteBad s) := by
  unfold noteBad
  exact modTb_keeps h _ fun h => h

theorem refLost_keeps {s0 s : State} (h : Keeps s0 s) (x : Fin 4) : Keeps s0 (refLost x s) := by
  unfold refLost
  repeat' first
    | with_reducible assumption | intro _ _ _ | with_reducible apply modRef_keeps | with_reducible apply referenceGone_keeps
    | with_reducible apply noteBad_keeps | with_reducible apply requalify_keeps | with_reducible apply happen_keeps
    | with_reducible refine Keeps.ite ?_ ?_ | split | dsimp only

theorem acquireIdle_keeps {s0 s : State} (h : Keeps s0 s) : Keeps s0 (acquireIdle s) := by
  unfold acquireIdle
  repeat' first
    | with_reducible assumption | with_reducible apply idle_keeps | with_reducible apply acquireNext_keeps
    | with_reducible refine Keeps.ite ?_ ?_ | split | dsimp only

theorem refPresent_keeps {s0 s : State} (h : Keeps s0 s) (x : Fin 4) : Keeps s0 (refPresent x s) := by
  unfold refPresent
  repeat' first
    | with_reducible assumption | intro _ _ _ | with_reducible apply acquireIdle_keeps
    | with_reducible apply requalify_keeps | with_reducible apply modRef_keeps | with_reducible refine Keeps.ite ?_ ?_
    | split | dsimp only

theorem pllFreeze_keeps {s0 s : State} (h : Keeps s0 s) : Keeps s0 (pllFreeze s) := by
  unfold pllFreeze
  repeat' first
    | with_reducible assumption | with_reducible apply spanBegin_keeps | with_reducible apply modTb_keeps
    | with_reducible refine Keeps.ite ?_ ?_ | exact fun h => h | exact fun _ => ⟨rfl, rfl⟩ | split | dsimp only

theorem glitchRecover_keeps {s0 s : State} (h : Keeps s0 s) : Keeps s0 (glitchRecover s) := by
  unfold glitchRecover
  repeat' first
    | with_reducible assumption | with_reducible apply spanEnd_keeps | with_reducible apply modTb_keeps
    | with_reducible apply modRef_keeps | with_reducible refine Keeps.ite ?_ ?_ | exact fun h => h | exact fun _ => ⟨rfl, rfl⟩
    | split | dsimp only

theorem refSwitch_keeps {s0 s : State} (h : Keeps s0 s) : Keeps s0 (refSwitch s) := by
  unfold refSwitch
  split
  · split
    · rename_i c
      exact spanEnd_keeps (happen_keeps (modTb_keeps h _ fun ⟨a, b, d⟩ => ⟨a, by simpa using b.2 (by simpa using c), d⟩) _ _)
    · exact h
  · exact h

theorem revertWait_keeps {s0 s : State} (h : Keeps s0 s) (x : Fin 4) : Keeps s0 (revertWait x s) := by
  unfold revertWait
  repeat' first
    | with_reducible assumption | with_reducible apply idle_keeps | with_reducible apply beginSwitch_keeps
    | with_reducible refine Keeps.ite ?_ ?_ | split | dsimp only

theorem selectActive_keeps {s0 s : State} (h : Keeps s0 s) (y : Fin 4) : Keeps s0 (selectActive y s) := by
  unfold selectActive
  repeat' first
    | with_reducible assumption | with_reducible apply spanEnd_keeps | with_reducible apply modTb_keeps
    | with_reducible apply beginSwitch_keeps | with_reducible refine Keeps.ite ?_ ?_ | exact fun h => h
    | exact fun _ => ⟨rfl, rfl⟩ | split | dsimp only

theorem nextWindow_keeps {s0 s : State} (h : Keeps s0 s) (x : Fin 4) (ten : Bool) : Keeps s0 (nextWindow x ten s) := by
  unfold nextWindow
  repeat' first
    | with_reducible assumption | intro _ _ _ | with_reducible apply noteBad_keeps | with_reducible apply modRef_keeps
    | with_reducible refine Keeps.ite ?_ ?_ | split | dsimp only

theorem window1s_keeps {s0 s : State} (h : Keeps s0 s) (x : Fin 4) (fx fc : Nat) : Keeps s0 (window1s x fx fc s) := by
  unfold window1s
  extract_lets was v s1 failed s2
  have k1 : Keeps s0 s1 := nextWindow_keeps (requalify_keeps (modRef_keeps h _ _) _) _ _
  have k2 : Keeps s0 s2 := by
    unfold s2
    split
    · rename_i c
      exact activeGone_keeps k1 (followsRef_locked (Bool.and_eq_true_iff.1 c).2) _
    · exact k1
  exact .ite h (autoChecks_keeps k2)

theorem window10s_keeps {s0 s : State} (h : Keeps s0 s) (x : Fin 4) (fx fc : Nat) : Keeps s0 (window10s x fx fc s) := by
  unfold window10s
  repeat' first
    | with_reducible assumption | with_reducible apply autoChecks_keeps | with_reducible apply nextWindow_keeps
    | with_reducible apply requalify_keeps | with_reducible apply modRef_keeps | with_reducible refine Keeps.ite ?_ ?_
    | split | dsimp only

theorem abandonAttempt_keeps {s0 s : State} (h : Keeps s0 s) (x : Fin 4) : Keeps s0 (abandonAttempt x s) := by
  unfold abandonAttempt
  repeat' first
    | with_reducible assumption | with_reducible apply acquireNext_keeps | with_reducible refine Keeps.ite ?_ ?_ | split
    | dsimp only

theorem roleChanged_keeps {s0 s : State} (h : Keeps s0 s) (x : Fin 4) : Keeps s0 (roleChanged x s) := by
  unfold roleChanged
  repeat' first
    | with_reducible assumption | intro _ _ _ | with_reducible apply noteBad_keeps
    | with_reducible apply referenceGone_keeps | with_reducible apply requalify_keeps | with_reducible apply modRef_keeps
    | with_reducible apply abandonSwitch_keeps | with_reducible apply acquireIdle_keeps
    | with_reducible apply autoChecks_keeps | with_reducible apply abandonAttempt_keeps
    | with_reducible refine Keeps.ite ?_ ?_ | split | dsimp only

theorem inputChanged_keeps {s0 s : State} (h : Keeps s0 s) (x : Fin 4) : Keeps s0 (inputChanged x s) := by
  unfold inputChanged
  repeat' first
    | with_reducible assumption | with_reducible apply autoChecks_keeps | with_reducible apply requalify_keeps
    | with_reducible apply modRef_keeps | with_reducible refine Keeps.ite ?_ ?_ | split | dsimp only

theorem selectionChanged_keeps {s0 s : State} (h : Keeps s0 s) : Keeps s0 (selectionChanged s) := by
  unfold selectionChanged
  extract_lets s1
  have k1 : Keeps s0 s1 := by
    unfold s1
    apply noteBad_keeps
    apply modTb_keeps h
    exact fun h => h
  clear_value s1
  exact acquireIdle_keeps (autoChecks_keeps (eachFin_keeps k1 fun _ _ h => requalify_keeps h _))

theorem trgLock_keeps {s0 s : State} (h : Keeps s0 s) (n : Fin 8) : Keeps s0 (trgLock n s) := by
  unfold trgLock
  repeat' first
    | with_reducible assumption | with_reducible apply modTrg_keeps | with_reducible refine Keeps.ite ?_ ?_ | split
    | dsimp only

theorem axisWake_keeps {s0 s : State} (h : Keeps s0 s) (a : Fin 4) : Keeps s0 (axisWake a s) := by
  unfold axisWake
  extract_lets clear
  repeat' first
    | with_reducible assumption | with_reducible apply freeLock_keeps | with_reducible apply modAxis_keeps
    | with_reducible apply enterLost_keeps | with_reducible refine Keeps.ite ?_ ?_ | split | dsimp only

theorem wakeLock_keeps {s0 s : State} (h : Keeps s0 s) : Keeps s0 (wakeLock s) := by
  unfold wakeLock
  generalize BitVec.ofNat 48 (s.bel.btime - s.bel.sleptFrom) = b
  generalize sleepTu = w
  extract_lets _ s1 s2 s3 s4
  have k1 : Keeps s0 s1 := modBel_keeps h _ fun h => h
  have k2 : Keeps s0 s2 := modTb_keeps k1 _ fun ⟨a, b, c⟩ => ⟨a, b, c⟩
  have k4 : Keeps s0 s4 := eachFin_keeps (happen_keeps (modSp_keeps k2 _) _ _) fun _ _ h => trgLock_keeps h _
  clear_value s4
  exact wakeEnd_keeps (syncLock_keeps (mfFollowAll_keeps (eachFin_keeps k4 fun _ _ h => axisWake_keeps h _) _))

theorem firstLock_keeps {s0 s : State} (h : Keeps s0 s) : Keeps s0 (firstLock s) := by
  unfold firstLock
  extract_lets s1 s2 s3 s4
  have ks1 : Keeps s0 s1 := by repeat' first
    | with_reducible assumption | intro _ _ _ | with_reducible apply modBoot_keeps | with_reducible apply modBel_keeps
    | with_reducible apply trgLock_keeps | with_reducible apply raise_keeps | with_reducible apply startupEnd_keeps
    | with_reducible apply syncLock_keeps | with_reducible apply clustersLock_keeps | with_reducible apply mfFollowAll_keeps
    | with_reducible apply freeLock_keeps | with_reducible refine Keeps.ite ?_ ?_ | with_reducible refine eachFin_keeps ?_ ?_
    | exact fun h => h | exact fun _ => ⟨rfl, rfl⟩ | split | dsimp only
  clear_value s1
  have ks2 : Keeps s0 s2 := by repeat' first
    | with_reducible assumption | intro _ _ _ | with_reducible apply modBoot_keeps | with_reducible apply modBel_keeps
    | with_reducible apply trgLock_keeps | with_reducible apply raise_keeps | with_reducible apply startupEnd_keeps
    | with_reducible apply syncLock_keeps | with_reducible apply clustersLock_keeps | with_reducible apply mfFollowAll_keeps
    | with_reducible apply freeLock_keeps | with_reducible refine Keeps.ite ?_ ?_ | with_reducible refine eachFin_keeps ?_ ?_
    | exact fun h => h | exact fun _ => ⟨rfl, rfl⟩ | split | dsimp only
  clear_value s2
  have ks3 : Keeps s0 s3 := by repeat' first
    | with_reducible assumption | intro _ _ _ | with_reducible apply modBoot_keeps | with_reducible apply modBel_keeps
    | with_reducible apply trgLock_keeps | with_reducible apply raise_keeps | with_reducible apply startupEnd_keeps
    | with_reducible apply syncLock_keeps | with_reducible apply clustersLock_keeps | with_reducible apply mfFollowAll_keeps
    | with_reducible apply freeLock_keeps | with_reducible refine Keeps.ite ?_ ?_ | with_reducible refine eachFin_keeps ?_ ?_
    | exact fun h => h | exact fun _ => ⟨rfl, rfl⟩ | split | dsimp only
  clear_value s3
  have ks4 : Keeps s0 s4 := by repeat' first
    | with_reducible assumption | intro _ _ _ | with_reducible apply modBoot_keeps | with_reducible apply modBel_keeps
    | with_reducible apply trgLock_keeps | with_reducible apply raise_keeps | with_reducible apply startupEnd_keeps
    | with_reducible apply syncLock_keeps | with_reducible apply clustersLock_keeps | with_reducible apply mfFollowAll_keeps
    | with_reducible apply freeLock_keeps | with_reducible refine Keeps.ite ?_ ?_ | with_reducible refine eachFin_keeps ?_ ?_
    | exact fun h => h | exact fun _ => ⟨rfl, rfl⟩ | split | dsimp only
  clear_value s4
  repeat' first
    | with_reducible assumption | intro _ _ _ | with_reducible apply modBoot_keeps | with_reducible apply modBel_keeps
    | with_reducible apply trgLock_keeps | with_reducible apply raise_keeps | with_reducible apply startupEnd_keeps
    | with_reducible apply syncLock_keeps | with_reducible apply clustersLock_keeps | with_reducible apply mfFollowAll_keeps
    | with_reducible apply freeLock_keeps | with_reducible refine Keeps.ite ?_ ?_ | with_reducible refine eachFin_keeps ?_ ?_
    | exact fun h => h | exact fun _ => ⟨rfl, rfl⟩ | split | dsimp only

theorem relock_keeps {s0 s : State} (h : Keeps s0 s) : Keeps s0 (relock s) := by
  unfold relock
  extract_lets s1
  have ks1 : Keeps s0 s1 := by repeat' first
    | with_reducible assumption | intro _ _ _ | with_reducible apply trgLock_keeps | with_reducible apply syncLock_keeps
    | with_reducible apply clustersLock_keeps | with_reducible apply mfFollowAll_keeps | with_reducible apply freeLock_keeps
    | with_reducible refine Keeps.ite ?_ ?_ | with_reducible refine eachFin_keeps ?_ ?_ | split | dsimp only
  clear_value s1
  repeat' first
    | with_reducible assumption | intro _ _ _ | with_reducible apply trgLock_keeps | with_reducible apply syncLock_keeps
    | with_reducible apply clustersLock_keeps | with_reducible apply mfFollowAll_keeps | with_reducible apply freeLock_keeps
    | with_reducible refine Keeps.ite ?_ ?_ | with_reducible refine eachFin_keeps ?_ ?_ | split | dsimp only

theorem pllLock_keeps {s0 s : State} (h : Keeps s0 s) : Keeps s0 (pllLock s) := by
  unfold pllLock
  split
  · extract_lets waking first s1
    have k1 : Keeps s0 s1 := modTb_keeps h _ fun ⟨a, _, _⟩ => ⟨by dsimp only; split <;> first
      | decide | exact a, by simp, fun _ => rfl⟩
    clear_value s1
    exact .ite h (.ite (firstLock_keeps k1) (.ite (wakeLock_keeps k1) (relock_keeps k1)))
  · exact h

theorem acquireTimeout_keeps {s0 s : State} (h : Keeps s0 s) : Keeps s0 (acquireTimeout s) := by
  unfold acquireTimeout
  repeat' first
    | with_reducible assumption | with_reducible apply acquireNext_keeps | with_reducible refine Keeps.ite ?_ ?_ | split
    | dsimp only

theorem locklossRaised_keeps {s0 s : State} (h : Keeps s0 s) : Keeps s0 (locklossRaised s) := by
  unfold locklossRaised
  repeat' first
    | with_reducible assumption | with_reducible apply lockloss_keeps | with_reducible refine Keeps.ite ?_ ?_ | split
    | dsimp only

theorem dropHeld_keeps {s0 s : State} (h : Keeps s0 s) : Keeps s0 (dropHeld s) := by
  unfold dropHeld
  extract_lets s'
  have ks' : Keeps s0 s' := by repeat' first
    | with_reducible assumption | intro _ _ _ | with_reducible apply modFabric_keeps | with_reducible apply dropDelivery_keeps
    | with_reducible refine Keeps.ite ?_ ?_ | with_reducible refine foldS_keeps ?_ ?_ | split | dsimp only
  clear_value s'
  repeat' first
    | with_reducible assumption | intro _ _ _ | with_reducible apply modFabric_keeps | with_reducible apply dropDelivery_keeps
    | with_reducible refine Keeps.ite ?_ ?_ | with_reducible refine foldS_keeps ?_ ?_ | split | dsimp only

theorem sleepEntryStart_keeps {s0 s : State} (h : Keeps s0 s) : Keeps s0 (sleepEntryStart s) := by
  unfold sleepEntryStart
  extract_lets s1 flush next
  have k1 : Keeps s0 s1 := dropHeld_keeps (abortOpen_keeps h)
  clear_value next s1
  exact .ite h (modBel_keeps k1 _ fun h => h)

theorem sleepFrameHandover_keeps {s0 s : State} (h : Keeps s0 s) : Keeps s0 (sleepFrameHandover s) := by
  unfold sleepFrameHandover
  repeat' first
    | with_reducible assumption | with_reducible apply modBel_keeps | with_reducible refine Keeps.ite ?_ ?_ | exact fun h => h
    | exact fun _ => ⟨rfl, rfl⟩ | split | dsimp only

theorem Fifo.clear_ok (f : Fifo) : f.clear.ok := by
  refine ⟨Nat.zero_le _, Nat.zero_le _, ?_, ?_⟩ <;> simp [Fifo.clear, Fifo.empty]

theorem sleepFlushEnd_keeps {s0 s : State} (h : Keeps s0 s) : Keeps s0 (sleepFlushEnd s) := by
  unfold sleepFlushEnd
  split
  · extract_lets left s1 s2 s3
    have k1 : Keeps s0 s1 := modSp_keeps (linkDown_keeps h) _
    have k2 : Keeps s0 s2 := modFifo_keeps k1 _ fun _ => Fifo.clear_ok _
    have k3 : Keeps s0 s3 := modLink_keeps (modLink_keeps k2 _ _) _ _
    exact .ite (k3.trans ⟨rfl, id, id, id, id, fun h => h, fusesKept.refl _⟩) h
  · exact h

theorem Segment.sleep_ok (retain : Bool) (x : Segment) (h : x.ok) : (x.sleep retain).ok := by
  unfold Segment.sleep
  split
  · exact h
  · exact ⟨trivial, by simp⟩

theorem sleepPowerdown_keeps {s0 s : State} (h : Keeps s0 s) : Keeps s0 (sleepPowerdown s) := by
  unfold sleepPowerdown
  split
  · extract_lets s1 src b1 b2
    have k1 : Keeps s0 s1 := dropHeld_keeps h
    refine k1.trans ⟨rfl, fun _ => s1.fifo.clear_ok, fun _ => ⟨Nat.zero_lt_succ 3, by simp, by simp⟩, fun hs => ?_, id,
        fun hb => ?_,
      fusesKept.refl _⟩
    · refine SegStore.map_ok rfl (fun x => ?_) (fun x => ?_) (fun x _ => Segment.sleep_ok _ x) hs
      · unfold Segment.sleep; split <;> rfl
      · unfold Segment.sleep; split <;> rfl
    · have hz : b1.log = s1.bel.log.map LogEntry.untimed := rfl
      have h1 : b1.ok := by unfold Belfry.ok; rw [hz, List.length_map]; exact hb
      have h2 : b2.ok := by
        clear_value b1
        unfold b2
        split <;> exact h1
      exact h2
  · exact h

theorem wakeAcquire_keeps {s0 s : State} (h : Keeps s0 s) : Keeps s0 (wakeAcquire s) := by
  unfold wakeAcquire
  repeat' first
    | with_reducible assumption | with_reducible apply modTb_keeps | with_reducible apply acquireNext_keeps
    | with_reducible refine Keeps.ite ?_ ?_ | exact fun h => h | exact fun _ => ⟨rfl, rfl⟩ | split | dsimp only

theorem wakeSuppliesValid_keeps {s0 s : State} (h : Keeps s0 s) : Keeps s0 (wakeSuppliesValid s) := by
  unfold wakeSuppliesValid
  split
  · extract_lets s1 s2 s3
    have k1 : Keeps s0 s1 := modBel_keeps h _ fun h => h
    have k2 : Keeps s0 s2 := foldS_keeps k1 fun _ _ h => wakeCluster_keeps h _
    exact wakeAcquire_keeps (noteBad_keeps (modTb_keeps k2 _ fun h => h))
  · exact h

theorem keptAxisAnchor_keeps {s0 s : State} (h : Keeps s0 s) : Keeps s0 (keptAxisAnchor s) := by
  unfold keptAxisAnchor
  repeat' first
    | with_reducible assumption | with_reducible apply modBel_keeps | with_reducible apply modAxis_keeps
    | with_reducible apply raiseAxis_keeps | with_reducible refine Keeps.ite ?_ ?_ | exact fun h => h
    | exact fun _ => ⟨rfl, rfl⟩ | split | dsimp only

end Sys2Proof.Machine
end

