-- ==== Sys2Proof/Laws/KeepsLinks.lean ====
section
/-! SUPPORT. Lemmas of Laws/Keeps.lean for the command links, the answers and the verbs that assert tasks. -/
namespace Sys2Proof.Machine

theorem attn_keeps {s0 s : State} (h : Keeps s0 s) : Keeps s0 (attn s) := by
  unfold attn
  repeat' first
    | with_reducible assumption | with_reducible refine Keeps.ite ?_ ?_ | with_reducible exact Keeps.mk_of h
    | with_reducible exact Keeps.mk_of (by assumption) | split | dsimp only

theorem putOut_keeps {s0 s : State} (h : Keeps s0 s) (k : Link) (i : OutItem) : Keeps s0 (putOut k i s) := by
  unfold putOut
  extract_lets low s1 s2
  have k1 : Keeps s0 s1 := by
    unfold s1
    split
    · exact modLink_keeps h _ _
    · exact modLink_keeps h _ _
  clear_value s1
  exact attn_keeps (.ite (.mk_of k1) k1)

theorem formEv_keeps {s0 s : State} (h : Keeps s0 s) (k : Link) (src : Fin 384) : Keeps s0 (formEv k src s) := by
  unfold formEv
  extract_lets l
  repeat' first
    | with_reducible assumption | with_reducible apply modLink_keeps | with_reducible apply putOut_keeps
    | with_reducible refine Keeps.ite ?_ ?_ | split | dsimp only

theorem setModes_keeps {s0 s : State} (h : Keeps s0 s) (ms : List (Link × LinkMode)) : Keeps s0 (setModes ms s) := by
  unfold setModes
  repeat' first
    | with_reducible assumption | intro _ _ _ | with_reducible apply modLink_keeps | with_reducible refine Keeps.ite ?_ ?_
    | with_reducible refine foldS_keeps ?_ ?_ | split | dsimp only

theorem consoleRuns_keeps {s0 s : State} (h : Keeps s0 s) : Keeps s0 (consoleRuns s) := by
  unfold consoleRuns
  extract_lets c s1 put s2
  have k1 : Keeps s0 s1 := .mk_of h
  have kp (ls : List String) {t : State} (h : Keeps s0 t) : Keeps s0 (put ls t) := modLink_keeps h _ _
  have kb (f : Boot → Boot) (e : (f s1.boot).dl = s1.boot.dl) (g : (f s1.boot).keySlot = s1.boot.keySlot)
      (i : (f s1.boot).keyHash = s1.boot.keyHash) : Keeps s0 (s1.modBoot f) :=
    modBoot_keeps k1 _ (by rw [e]; exact id) fun _ => ⟨g, i⟩
  have k2 : Keeps s0 s2 := by
    unfold s2
    split
    · exact .ite k1 (kp _ (kb _ rfl rfl rfl))
    · exact .ite k1 (kp _ (kb _ rfl rfl rfl))
  exact .ite k1 (modLink_keeps k2 _ _)

theorem hunt_keeps {s0 s : State} (h : Keeps s0 s) : Keeps s0 (hunt s) := by
  unfold hunt
  repeat' first
    | with_reducible assumption | with_reducible refine Keeps.ite ?_ ?_ | with_reducible exact Keeps.mk_of h
    | with_reducible exact Keeps.mk_of (by assumption) | split | dsimp only

theorem newBaud_keeps {s0 s : State} (h : Keeps s0 s) : Keeps s0 (newBaud s) := by
  unfold newBaud
  repeat' first
    | with_reducible assumption | with_reducible apply hunt_keeps | with_reducible apply consoleRuns_keeps
    | with_reducible refine Keeps.ite ?_ ?_ | with_reducible exact Keeps.mk_of h
    | with_reducible exact Keeps.mk_of (by assumption) | split | dsimp only

theorem onLeft_keeps {s0 s : State} (h : Keeps s0 s) (a : EndAction) : Keeps s0 (onLeft a s) := by
  unfold onLeft
  repeat' first
    | with_reducible assumption | with_reducible apply newBaud_keeps | with_reducible apply modBoot_keeps
    | with_reducible apply modBel_keeps | with_reducible refine Keeps.ite ?_ ?_ | with_reducible exact Keeps.mk_of h
    | with_reducible exact Keeps.mk_of (by assumption) | exact fun h => h | exact fun _ => ⟨rfl, rfl⟩ | split | dsimp only

theorem sendByte_keeps {s0 s : State} (h : Keeps s0 s) (k : Link) : Keeps s0 (sendByte k s) := by
  unfold sendByte
  extract_lets l
  repeat' first
    | with_reducible assumption | with_reducible apply attn_keeps | with_reducible apply modLink_keeps
    | with_reducible apply setModes_keeps | with_reducible apply onLeft_keeps | with_reducible refine Keeps.ite ?_ ?_ | split
    | dsimp only

theorem outputByte_keeps {s0 s : State} (h : Keeps s0 s) (k : Link) : Keeps s0 (outputByte k s) := by
  unfold outputByte
  repeat' first
    | with_reducible assumption | with_reducible apply sendByte_keeps | with_reducible refine Keeps.ite ?_ ?_
    | with_reducible exact Keeps.mk_of h | with_reducible exact Keeps.mk_of (by assumption) | split | dsimp only

theorem csFall_keeps {s0 s : State} (h : Keeps s0 s) (sclkHigh : Bool) : Keeps s0 (csFall sclkHigh s) := by
  unfold csFall
  repeat' first
    | with_reducible assumption | with_reducible refine Keeps.ite ?_ ?_ | with_reducible exact Keeps.mk_of h
    | with_reducible exact Keeps.mk_of (by assumption) | split | dsimp only

theorem csRise_keeps {s0 s : State} (h : Keeps s0 s) (cut : Bool) : Keeps s0 (csRise cut s) := by
  unfold csRise
  extract_lets t1
  have kt1 : Keeps s0 t1 := by repeat' first
    | with_reducible assumption | with_reducible apply modLink_keeps | with_reducible refine Keeps.ite ?_ ?_
    | with_reducible exact Keeps.mk_of (by assumption) | split | dsimp only
  clear_value t1
  repeat' first
    | with_reducible assumption | with_reducible apply modLink_keeps | with_reducible refine Keeps.ite ?_ ?_
    | with_reducible exact Keeps.mk_of (by assumption) | split | dsimp only

/-- Every state that an execution leaves is one that keeps what s0 has. -/
def KeepsX (s0 : State) (x : Exec) : Prop := ∀ d, x = .ok d → Keeps s0 d.state

theorem KeepsX.error (s0 : State) (e : Nat × String) : KeepsX s0 (.error e) := fun _ h => by simp at h

theorem KeepsX.bind {s0 : State} {α : Type} {x : Except (Nat × String) α} {f : α → Exec} (h : ∀ a, KeepsX s0 (f a)) :
    KeepsX s0 (x >>= f) := by
  cases x with
  | error e => exact .error s0 e
  | ok a => exact h a

theorem KeepsX.ok {s0 : State} {d : Done} (h : Keeps s0 d.state) : KeepsX s0 (.ok d) := fun _ e => by cases e; exact h

theorem phases_keeps {s0 : State} {run : Unit → Exec} (h : KeepsX s0 (run ())) (syn tail : Option SynErr) (busy : Bool) :
    KeepsX s0 (phases syn tail busy run) := by
  unfold phases
  repeat' first | exact .error _ _ | exact h | split

theorem done_keeps {s0 s : State} (h : Keeps s0 s) (payload : String) : KeepsX s0 (done payload s) := by
  unfold done
  repeat' first
    | exact KeepsX.error _ _ | with_reducible assumption | with_reducible refine KeepsX.bind (fun _ => ?_)
    | with_reducible refine KeepsX.ok ?_ | split | dsimp only

theorem doneLines_keeps {s0 s : State} (h : Keeps s0 s) (head : String) (lines : List String) :
    KeepsX s0 (doneLines head lines s) := by
  unfold doneLines
  repeat' first
    | exact KeepsX.error _ _ | with_reducible assumption | with_reducible refine KeepsX.bind (fun _ => ?_)
    | with_reducible refine KeepsX.ok ?_ | split | dsimp only

theorem answer_keeps {s0 s : State} (h : Keeps s0 s) (r : Req) (x : Exec) (hx : KeepsX s0 x) : Keeps s0 (answer r x s) := by
  unfold answer
  extract_lets item
  split
  · exact putOut_keeps h _ _
  · exact putOut_keeps (hx _ rfl) _ _

theorem flushReq_keeps {s0 s : State} (h : Keeps s0 s) (r : Req) : Keeps s0 (flushReq r s) := by
  unfold flushReq
  extract_lets rep
  repeat' first
    | with_reducible assumption | with_reducible apply putOut_keeps | with_reducible refine Keeps.ite ?_ ?_ | split
    | dsimp only

theorem stewardLeaves_keeps {s0 s : State} (h : Keeps s0 s) (cause : RestartCause) : Keeps s0 (stewardLeaves cause s) := by
  unfold stewardLeaves
  extract_lets rs w s3 empty s5
  have ks3 : Keeps s0 s3 := by repeat' first
    | with_reducible assumption | intro _ _ _ | with_reducible apply attn_keeps | with_reducible apply flushReq_keeps
    | with_reducible refine Keeps.ite ?_ ?_ | with_reducible refine foldS_keeps ?_ ?_ | with_reducible exact Keeps.mk_of h
    | with_reducible exact Keeps.mk_of (by assumption) | split | dsimp only
  clear_value s3
  have ks5 : Keeps s0 s5 := by repeat' first
    | with_reducible assumption | intro _ _ _ | with_reducible apply attn_keeps | with_reducible apply flushReq_keeps
    | with_reducible refine Keeps.ite ?_ ?_ | with_reducible refine foldS_keeps ?_ ?_ | with_reducible exact Keeps.mk_of ks3
    | with_reducible exact Keeps.mk_of h | with_reducible exact Keeps.mk_of (by assumption) | split | dsimp only
  clear_value s5
  repeat' first
    | with_reducible assumption | intro _ _ _ | with_reducible apply attn_keeps | with_reducible apply flushReq_keeps
    | with_reducible refine Keeps.ite ?_ ?_ | with_reducible refine foldS_keeps ?_ ?_ | with_reducible exact Keeps.mk_of ks5
    | with_reducible exact Keeps.mk_of ks3 | with_reducible exact Keeps.mk_of h
    | with_reducible exact Keeps.mk_of (by assumption) | split | dsimp only

theorem storeFault_keeps {s0 s : State} (h : Keeps s0 s) (r : Req) : Keeps s0 (storeFault r s) := by
  unfold storeFault
  extract_lets s1
  have k1 : Keeps s0 s1 := answer_keeps h _ _ (.error _ _)
  exact stewardLeaves_keeps (.mk_of k1) _

theorem answerBad_keeps {s0 s : State} (h : Keeps s0 s) (r : Req) (e : SynErr) : Keeps s0 (answerBad r e s) := by
  unfold answerBad
  repeat' first
    | with_reducible assumption | with_reducible apply putOut_keeps | with_reducible refine Keeps.ite ?_ ?_ | split
    | dsimp only

theorem drainBad_keeps : ∀ (n : Nat) {s0 s : State}, Keeps s0 s → Keeps s0 (drainBad n s)
  | 0, _, _, h => h
  | n + 1, s0, s, h => by
    unfold drainBad
    split
    · exact h
    · split
      · exact h
      · exact .ite h (drainBad_keeps n (answerBad_keeps (.mk_of h) _ _))

theorem settleQueue_keeps {s0 s : State} (h : Keeps s0 s) : Keeps s0 (settleQueue s) := by
  unfold settleQueue
  repeat' first
    | with_reducible assumption | with_reducible apply drainBad_keeps | with_reducible refine Keeps.ite ?_ ?_ | split
    | dsimp only

theorem steward_keeps {s0 s : State} (h : Keeps s0 s) (fault : Bool) (want : Cmd → Bool) (syn : Cmd → State → Option SynErr)
    (run : Req → Cmd → State → Exec)
    (hr : ∀ r c (t : State), want c = true → Keeps s0 t → KeepsX s0 (run r c t)) : Keeps s0 (steward fault want syn run s) := by
  unfold steward
  split
  · exact h
  · split
    · exact h
    · split
      · exact h
      · extract_lets w s1
        have k1 : Keeps s0 s1 := .mk_of h
        clear_value s1
        split
        · exact h
        · rename_i hw
          refine .ite (storeFault_keeps k1 _) (settleQueue_keeps (answer_keeps k1 _ _ (phases_keeps (hr _ _ _ ?_ k1) _ _ _)))
          simpa using hw

theorem assertKind_keeps {s0 s : State} (h : Keeps s0 s) (k : TaskKind) : Keeps s0 (assertKind k s) := by
  unfold assertKind
  repeat' first
    | with_reducible assumption | with_reducible apply assertTask_keeps | with_reducible refine Keeps.ite ?_ ?_ | split
    | dsimp only

theorem fireVerb_keeps {s0 s : State} (h : Keeps s0 s) (o : ObjArg) : KeepsX s0 (fireVerb o s) := by
  unfold fireVerb
  repeat' first
    | exact KeepsX.error _ _ | with_reducible assumption | with_reducible apply done_keeps
    | with_reducible apply assertKind_keeps | with_reducible apply assertTask_keeps
    | with_reducible refine KeepsX.bind (fun _ => ?_) | with_reducible refine KeepsX.ok ?_ | split | dsimp only

theorem armVerb_keeps {s0 s : State} (h : Keeps s0 s) (o : ObjArg) : KeepsX s0 (armVerb o s) := by
  unfold armVerb
  repeat' first
    | exact KeepsX.error _ _ | with_reducible assumption | with_reducible apply done_keeps
    | with_reducible apply assertKind_keeps | with_reducible refine KeepsX.bind (fun _ => ?_)
    | with_reducible refine KeepsX.ok ?_ | split | dsimp only

theorem disarmVerb_keeps {s0 s : State} (h : Keeps s0 s) (o : ObjArg) : KeepsX s0 (disarmVerb o s) := by
  unfold disarmVerb
  repeat' first
    | exact KeepsX.error _ _ | with_reducible assumption | with_reducible apply done_keeps
    | with_reducible apply assertKind_keeps | with_reducible refine KeepsX.bind (fun _ => ?_)
    | with_reducible refine KeepsX.ok ?_ | split | dsimp only

theorem haltVerb_keeps {s0 s : State} (h : Keeps s0 s) (o : Option ObjArg) : KeepsX s0 (haltVerb o s) := by
  unfold haltVerb
  repeat' first
    | exact KeepsX.error _ _ | with_reducible assumption | intro _ _ _ | with_reducible apply done_keeps
    | with_reducible apply assertKind_keeps | with_reducible refine eachFin_keeps ?_ ?_
    | with_reducible refine KeepsX.bind (fun _ => ?_) | with_reducible refine KeepsX.ok ?_ | split | dsimp only

theorem stepVerb_keeps {s0 s : State} (h : Keeps s0 s) (o : ObjArg) : KeepsX s0 (stepVerb o s) := by
  unfold stepVerb
  repeat' first
    | exact KeepsX.error _ _ | with_reducible assumption | with_reducible apply done_keeps
    | with_reducible apply assertKind_keeps | with_reducible refine KeepsX.bind (fun _ => ?_)
    | with_reducible refine KeepsX.ok ?_ | split | dsimp only

theorem markVerb_keeps {s0 s : State} (h : Keeps s0 s) (o : ObjArg) : KeepsX s0 (markVerb o s) := by
  unfold markVerb
  repeat' first
    | exact KeepsX.error _ _ | with_reducible assumption | with_reducible apply done_keeps
    | with_reducible apply assertKind_keeps | with_reducible refine KeepsX.bind (fun _ => ?_)
    | with_reducible refine KeepsX.ok ?_ | split | dsimp only

theorem startVerb_keeps {s0 s : State} (h : Keeps s0 s) (o : ObjArg) : KeepsX s0 (startVerb o s) := by
  unfold startVerb
  repeat' first
    | exact KeepsX.error _ _ | with_reducible assumption | with_reducible apply done_keeps
    | with_reducible apply assertKind_keeps | with_reducible refine KeepsX.bind (fun _ => ?_)
    | with_reducible refine KeepsX.ok ?_ | split | dsimp only

theorem abortVerb_keeps {s0 s : State} (h : Keeps s0 s) (o : ObjArg) : KeepsX s0 (abortVerb o s) := by
  unfold abortVerb
  repeat' first
    | exact KeepsX.error _ _ | with_reducible assumption | with_reducible apply done_keeps
    | with_reducible apply assertKind_keeps | with_reducible refine KeepsX.bind (fun _ => ?_)
    | with_reducible refine KeepsX.ok ?_ | split | dsimp only

theorem schedVerb_keeps {s0 s : State} (h :
    Keeps s0 s) (urgent : Bool) (rc : Recv) (o : ObjArg) (cl : Clause) (kv : List KeyVal) :
    KeepsX s0 (schedVerb urgent rc o cl kv s) := by
  unfold schedVerb
  repeat' first
    | exact KeepsX.error _ _ | with_reducible assumption | intro _ _ _ | with_reducible apply done_keeps
    | with_reducible apply settlePulse_keeps | with_reducible refine foldS_keeps ?_ ?_
    | with_reducible refine KeepsX.bind (fun _ => ?_) | with_reducible refine KeepsX.ok ?_ | split | dsimp only

theorem cancelPulses_keeps {s0 s : State} (h : Keeps s0 s) (p : Fin 64) (pick : Pulse → Bool) :
    Keeps s0 (cancelPulses p pick s).1 := by
  unfold cancelPulses
  extract_lets goes q
  split
  · exact h
  · exact modPort_keeps h _ _

theorem cancelVerb_keeps {s0 s : State} (h : Keeps s0 s) (rc : Recv) (o : ObjArg) (v : Option RawVal) :
    KeepsX s0 (cancelVerb rc o v s) := by
  unfold cancelVerb
  repeat' first
    | exact KeepsX.error _ _ | with_reducible assumption | with_reducible apply reject_keeps | with_reducible apply done_keeps
    | with_reducible apply cancelPulses_keeps | with_reducible refine KeepsX.bind (fun _ => ?_)
    | with_reducible refine KeepsX.ok ?_ | split | dsimp only

theorem urgentRun_keeps {s0 s : State} (h : Keeps s0 s) (c : Cmd) : KeepsX s0 (urgentRun c s) := by
  unfold urgentRun
  repeat' first
    | exact KeepsX.error _ _ | with_reducible assumption | with_reducible apply fireVerb_keeps
    | with_reducible apply armVerb_keeps | with_reducible apply disarmVerb_keeps | with_reducible apply haltVerb_keeps
    | with_reducible apply stepVerb_keeps | with_reducible apply markVerb_keeps | with_reducible apply schedVerb_keeps
    | with_reducible apply cancelVerb_keeps | with_reducible refine KeepsX.bind (fun _ => ?_)
    | with_reducible refine KeepsX.ok ?_ | split | dsimp only

theorem linkByte_keeps {s0 s : State} (h : Keeps s0 s) (k : Link) (b : Byte) : Keeps s0 (linkByte k b s) := by
  unfold linkByte
  repeat' first
    | with_reducible assumption | with_reducible apply attn_keeps | with_reducible apply modLink_keeps
    | with_reducible refine Keeps.ite ?_ ?_ | split | dsimp only

theorem rejectUrgent_keeps {s0 s : State} (h : Keeps s0 s) (a : Arrived) (rep : Reply) (counts : Bool) :
    Keeps s0 (rejectUrgent a rep counts s) := by
  unfold rejectUrgent
  repeat' first
    | with_reducible assumption | with_reducible apply modLink_keeps | with_reducible apply putOut_keeps
    | with_reducible refine Keeps.ite ?_ ?_ | split | dsimp only

theorem rejectStandard_keeps {s0 s : State} (h : Keeps s0 s) (a : Arrived) (code : Nat) :
    Keeps s0 (rejectStandard a code s) := by
  unfold rejectStandard
  repeat' first
    | with_reducible assumption | with_reducible apply answerBad_keeps | with_reducible refine Keeps.ite ?_ ?_
    | with_reducible exact Keeps.mk_of h | with_reducible exact Keeps.mk_of (by assumption) | split | dsimp only

theorem rejectLine_keeps {s0 s : State} (h : Keeps s0 s) (a : Arrived) (code : Nat) : Keeps s0 (rejectLine a code s) := by
  unfold rejectLine
  repeat' first
    | with_reducible assumption | with_reducible apply modLink_keeps | with_reducible apply rejectUrgent_keeps
    | with_reducible apply rejectStandard_keeps | with_reducible refine Keeps.ite ?_ ?_ | split | dsimp only

theorem urgentExec_keeps {s0 s : State} (h : Keeps s0 s) (a : Arrived) (corrupt : Bool) :
    KeepsX s0 (urgentExec a corrupt s) := by
  unfold urgentExec
  split
  · exact .error _ _
  · split
    · exact .error _ _
    · exact phases_keeps (urgentRun_keeps h _) _ _ _

theorem urgentLine_keeps {s0 s : State} (h : Keeps s0 s) (a : Arrived) (span : Nat) (corrupt : Bool) :
    Keeps s0 (urgentLine a span corrupt s) := by
  unfold urgentLine
  split
  · exact rejectUrgent_keeps h _ _ _
  · split
    · exact rejectUrgent_keeps h _ _ _
    · split
      · exact rejectUrgent_keeps h _ _ _
      · rename_i y e
        exact putOut_keeps (modLink_keeps (urgentExec_keeps h _ _ _ e) _ _) _ _

theorem standardLine_keeps {s0 s : State} (h : Keeps s0 s) (a : Arrived) (corrupt : Bool) :
    Keeps s0 (standardLine a corrupt s) := by
  unfold standardLine
  extract_lets r s1
  have k1 : Keeps s0 s1 := modLink_keeps h _ _
  exact .ite (rejectStandard_keeps h _ _) (.ite (rejectStandard_keeps h _ _) (settleQueue_keeps (.mk_of k1)))

theorem meetLine_keeps {s0 s : State} (h : Keeps s0 s) (a : Arrived) (span : Nat) (corrupt : Bool) :
    Keeps s0 (meetLine a span corrupt s) := by
  unfold meetLine
  repeat' first
    | with_reducible assumption | with_reducible apply rejectLine_keeps | with_reducible apply urgentLine_keeps
    | with_reducible apply standardLine_keeps | with_reducible refine Keeps.ite ?_ ?_ | split | dsimp only

theorem lineReceived_keeps {s0 s : State} (h : Keeps s0 s) (k : Link) (lf : Bool) (span : Nat) (corrupt : Bool) :
    Keeps s0 (lineReceived k lf span corrupt s) := by
  unfold lineReceived
  repeat' first
    | with_reducible assumption | with_reducible apply modLink_keeps | with_reducible apply attn_keeps
    | with_reducible apply settleQueue_keeps | with_reducible apply meetLine_keeps | with_reducible refine Keeps.ite ?_ ?_
    | split | dsimp only

theorem autobaud_keeps {s0 s : State} (h : Keeps s0 s) (cycles : Nat) (readsCr : Bool) :
    Keeps s0 (autobaud cycles readsCr s) := by
  unfold autobaud
  extract_lets inside
  repeat' first
    | with_reducible assumption | with_reducible apply consoleRuns_keeps | with_reducible refine Keeps.ite ?_ ?_
    | with_reducible exact Keeps.mk_of h | with_reducible exact Keeps.mk_of (by assumption) | split | dsimp only

theorem rehunt_keeps {s0 s : State} (h : Keeps s0 s) : Keeps s0 (rehunt s) := by
  unfold rehunt
  repeat' first
    | with_reducible assumption | with_reducible apply hunt_keeps | with_reducible refine Keeps.ite ?_ ?_ | split | dsimp only

theorem framingError_keeps {s0 s : State} (h : Keeps s0 s) : Keeps s0 (framingError s) := by
  unfold framingError
  repeat' first
    | with_reducible assumption | with_reducible apply rehunt_keeps | with_reducible apply modLink_keeps
    | with_reducible refine Keeps.ite ?_ ?_ | split | dsimp only

theorem conBreak_keeps {s0 s : State} (h : Keeps s0 s) : Keeps s0 (conBreak s) := by
  unfold conBreak
  repeat' first
    | with_reducible assumption | with_reducible apply rehunt_keeps | with_reducible apply modLink_keeps
    | with_reducible refine Keeps.ite ?_ ?_ | split | dsimp only

end Sys2Proof.Machine
end

