-- ==== Sys2Proof/Laws/KeepsProps.lean ====
section
/-! SUPPORT. Lemmas of Laws/Keeps.lean for the property tables, programs, segments and reads. -/
namespace Sys2Proof.Machine

/-- A change of the state that keeps what a state has kept. -/
def KeepsF (f : State → State) : Prop := ∀ {s0 s : State}, Keeps s0 s → Keeps s0 (f s)

/-- Whatever is written in a record through a lens, Keeps speaks of none of it. -/
def Lens.Free {R : Type} (l : Lens R) : Prop := ∀ f, KeepsF (l.mod f)

theorem Lens.Free.part {R Q : Type} {l : Lens R} (h : l.Free) (get : R → Q) (mod : (Q → Q) → R → R) : (l.part get mod).Free :=
  fun f => h (mod f)

/-- A property whose writes keep what a state has kept. -/
def PropSpec.Keeps (x : PropSpec) : Prop := ∀ v, KeepsF (x.put v)

theorem refLens_free (x : Fin 4) : (refLens x).Free := fun f _ _ h =>
  modTb_keeps h (fun t => { t with refs := upd t.refs x f }) fun h => h
theorem axisLens_free (a : Fin 4) : (axisLens a).Free := fun _ _ _ h => modAxis_keeps h _ _
theorem axisCfgLens_free (a : Fin 4) : (axisCfgLens a).Free := (axisLens_free a).part _ _
theorem clusterLens_free (k : Fin 8) : (clusterLens k).Free := fun _ _ _ h => modCluster_keeps h _ _
theorem portLens_free (p : Fin 64) : (portLens p).Free := fun _ _ _ h => modPort_keeps h _ _
theorem cfgLens_free (p : Fin 64) : (cfgLens p).Free := (portLens_free p).part _ _
theorem trgLens_free (n : Fin 8) : (trgLens n).Free := fun _ _ _ h => modTrg_keeps h _ _
theorem mfLens_free (m : Fin 16) : (mfLens m).Free := fun _ _ _ h => modMf_keeps h _ _
theorem mfCfgLens_free (m : Fin 16) : (mfCfgLens m).Free := (mfLens_free m).part _ _
theorem taskLens_free (t : Fin 320) : (taskLens t).Free := fun _ _ _ h => modTask_keeps h _ _
theorem groupLens_free (g : Fin 8) : (groupLens g).Free := fun _ _ _ h => modGroup_keeps h _ _
theorem groupCfgLens_free (g : Fin 8) : (groupCfgLens g).Free := (groupLens_free g).part _ _
theorem markerLens_free (n : Fin 16) : (markerLens n).Free := fun _ _ _ h => .mk_of h
theorem agLens_free (n : Fin 8) : (agLens n).Free := fun _ _ _ h => modAg_keeps h _ _
theorem agCfgLens_free (n : Fin 8) : (agCfgLens n).Free := (agLens_free n).part _ _
theorem calLens_free : calLens.Free := fun _ _ _ h => modCal_keeps h _
theorem spLens_free : spLens.Free := fun _ _ _ h => modSp_keeps h _
theorem ruleLens_free (n : Fin 16) : (ruleLens n).Free := fun f _ _ h =>
  modBel_keeps h (fun b => { b with rules := upd b.rules n f }) fun h => h
theorem wakeLens_free (n : Fin 4) : (wakeLens n).Free := fun f _ _ h =>
  modBel_keeps h (fun b => { b with wakes := upd b.wakes n f }) fun h => h
theorem syncLens_free : syncLens.Free := fun _ _ _ h => modSync_keeps h _
theorem linkLens_free (k : Link) : (linkLens k).Free := fun _ _ _ h => modLink_keeps h _ _
theorem consoleLens_free : consoleLens.Free := fun _ _ _ h => .mk_of h


/-- Changes of a kind, made in a record through a lens, keep what a state has kept. -/
def Lens.On {R : Type} (l : Lens R) (P : (R → R) → Prop) : Prop := ∀ f, P f → KeepsF (l.mod f)

theorem Lens.Free.on {R : Type} {l : Lens R} (h : l.Free) : l.On fun _ => True := fun _ _ => h _

def TbKeep (f : Timebase → Timebase) : Prop := ∀ t, t.ok → (f t).ok
def BelKeep (f : Belfry → Belfry) : Prop := ∀ b, b.ok → (f b).ok
def BootKeep (f : Boot → Boot) : Prop := ∀ b, (b.dl.ok → (f b).dl.ok) ∧ fusesKept b (f b)
def StoreKeep (f : SegStore → SegStore) : Prop := ∀ t, t.ok → (f t).ok

theorem TbKeep.id : TbKeep id := fun _ h => h
theorem BelKeep.id : BelKeep id := fun _ h => h
theorem BootKeep.id : BootKeep id := fun b => ⟨fun h => h, fusesKept.refl b⟩
theorem StoreKeep.id : StoreKeep id := fun _ h => h

theorem tbLens_on : tbLens.On TbKeep := fun _ hf _ _ h => modTb_keeps h _ (hf _)
theorem belLens_on : belLens.On BelKeep := fun _ hf _ _ h => modBel_keeps h _ (hf _)
theorem bootLens_on : bootLens.On BootKeep := fun _ hf _ _ h => modBoot_keeps h _ (hf _).1 (hf _).2
theorem storeLens_on : storeLens.On StoreKeep := fun _ hf _ _ h => store_keeps h _ (hf _)

namespace Lens
variable {R : Type} {l : Lens R} {P : (R → R) → Prop}

theorem prop_keeps (h : l.On P) {name : String} {ty : FieldTy} {timed : Bool} {get : R → Value} {set : Value → R → R}
    (hs : ∀ v, P (set v)) : (l.prop name ty timed get set).Keeps := fun v => h _ (hs v)

theorem ro_keeps {name : String} {ty : FieldTy} {get : R → Value} : (l.ro name ty get).Keeps := fun _ _ _ h => h

theorem roTime_keeps {name : String} {ty : FieldTy} {get : R → Value} : (l.roTime name ty get).Keeps := fun _ _ _ h => h

theorem roKw_keeps {α : Type} [DecidableEq α] {name : String} {xs : List (String × α)} {get : R → α} :
    (l.roKw name xs get).Keeps := fun _ _ _ h => h

theorem count_keeps {w : Nat} {name : String} {get : R → BitVec w} : (l.count name get).Keeps := fun _ _ _ h => h

theorem choice_keeps {α : Type} [DecidableEq α] (h : l.On P) (hi : P id) {name : String} {xs : List (Atom × α)} {get : R → α}
    {set : α → R → R} (hs : ∀ a, P (set a)) : (l.choice name xs get set).Keeps := by
  refine prop_keeps h fun v => ?_
  cases v with
  | one k => dsimp only; cases valueOf xs k with
    | none => exact hi
    | some a => exact hs a
  | list _ => exact hi

theorem kw_keeps {α : Type} [DecidableEq α] (h : l.On P) (hi : P id) {name : String} {xs : List (String × α)} {get : R → α}
    {set : α → R → R} (hs : ∀ a, P (set a)) : (l.kw name xs get set).Keeps := choice_keeps h hi hs

theorem flag_keeps (h : l.On P) (hi : P id) {name : String} {get : R → Bool} {set : Bool → R → R} (hs : ∀ a, P (set a)) :
    (l.flag name get set).Keeps := choice_keeps h hi hs

theorem int_keeps (h : l.On P) (hi : P id) {name : String} {lo hi' : Int} {get : R → Int} {set : Int → R → R}
    (hs : ∀ a, P (set a)) : (l.int name lo hi' get set).Keeps := by
  refine prop_keeps h fun v => ?_
  split
  · exact hs _
  · exact hi

theorem nat_keeps (h : l.On P) (hi : P id) {name : String} {lo hi' : Nat} {get : R → Nat} {set : Nat → R → R}
    (hs : ∀ a, P (set a)) : (l.nat name lo hi' get set).Keeps := int_keeps h hi fun _ => hs _

theorem natOf_keeps (h : l.On P) (hi : P id) {name : String} {vals : List Nat} {get : R → Nat} {set : Nat → R → R}
    (hs : ∀ a, P (set a)) : (l.natOf name vals get set).Keeps := by
  refine prop_keeps h fun v => ?_
  split
  · exact hs _
  · exact hi

theorem time_keeps (h : l.On P) (hi : P id) {name : String} {signed : Bool} {lo hi' : Int} {get : R → Int} {set : Int → R → R}
    (hs : ∀ a, P (set a)) : (l.time name signed lo hi' get set).Keeps := by
  refine prop_keeps h fun v => ?_
  split
  · exact hs _
  · exact hi

theorem natTime_keeps (h : l.On P) (hi : P id) {name : String} {lo hi' : Nat} {get : R → Nat} {set : Nat → R → R}
    (hs : ∀ a, P (set a)) : (l.natTime name lo hi' get set).Keeps := time_keeps h hi fun _ => hs _

theorem word_keeps (h : l.On P) (hi : P id) {name : String} {get : R → TimeWord} {set : TimeWord → R → R}
    (hs : ∀ a, P (set a)) : (l.word name get set).Keeps := time_keeps h hi fun _ => hs _

theorem hex_keeps (h : l.On P) (hi : P id) {name : String} {bits : Nat} {get : R → Nat} {set : Nat → R → R}
    (hs : ∀ a, P (set a)) : (l.hex name bits get set).Keeps := by
  refine prop_keeps h fun v => ?_
  split
  · exact hs _
  · exact hi

theorem list_keeps {α : Type} [DecidableEq α] (h : l.On P) (hi : P id) {name : String} {xs : List (Atom × α)} {noneOk : Bool}
    {maxLen tooMany : Nat} {unique : Bool} {get : R → List α} {set : List α → R → R} (hs : ∀ a, P (set a)) :
    (l.list name xs noneOk maxLen tooMany unique get set).Keeps := by
  refine prop_keeps h fun v => ?_
  split
  · exact hs _
  · exact hi

theorem evset_keeps (h : l.On P) (hi : P id) {name : String} {get : R → List (Nat × Nat)} {set : List (Nat × Nat) → R → R}
    (hs : ∀ a, P (set a)) : (l.evset name get set).Keeps := by
  refine prop_keeps h fun v => ?_
  split
  · exact hs _
  · exact hi

end Lens

theorem putToneAt_keeps {s0 s : State} (h : Keeps s0 s) (p : Fin 64) (v : Value) : Keeps s0 (putToneAt p v s) := by
  unfold putToneAt
  extract_lets t
  repeat' first
    | with_reducible assumption | with_reducible apply modPort_keeps | with_reducible refine Keeps.ite ?_ ?_ | split
    | dsimp only

theorem putThresh_keeps {s0 s : State} (h : Keeps s0 s) (p : Fin 64) (v : Value) : Keeps s0 (putThresh p v s) := by
  unfold putThresh
  extract_lets t
  repeat' first
    | with_reducible assumption | with_reducible apply modPort_keeps | with_reducible refine Keeps.ite ?_ ?_ | split
    | dsimp only

theorem progVerb_keeps {s0 s : State} (h : Keeps s0 s) (o : ObjArg) (index : RawVal) (text : RawVal) :
    KeepsX s0 (progVerb o index text s) := by
  unfold progVerb
  repeat' first
    | exact KeepsX.error _ _ | with_reducible assumption | with_reducible apply done_keeps
    | with_reducible apply modGroup_keeps | with_reducible refine KeepsX.bind (fun _ => ?_)
    | with_reducible refine KeepsX.ok ?_ | split | dsimp only

theorem progClearVerb_keeps {s0 s : State} (h : Keeps s0 s) (o : ObjArg) : KeepsX s0 (progClearVerb o s) := by
  unfold progClearVerb
  repeat' first
    | exact KeepsX.error _ _ | with_reducible assumption | with_reducible apply done_keeps
    | with_reducible apply modGroup_keeps | with_reducible refine KeepsX.bind (fun _ => ?_)
    | with_reducible refine KeepsX.ok ?_ | split | dsimp only

theorem Rising.cons_putSegment {x : Segment} {a : Nat} : ∀ {ys : List Segment},
    Rising (a :: ys.map (fun y => y.id.val)) → a < x.id.val → (∀ y ∈ ys, y.id ≠ x.id) →
    Rising (a :: (putSegment x ys).map (fun y => y.id.val))
  | [], _, h, _ => ⟨h, trivial⟩
  | y :: ys, hr, h, hn => by
    unfold putSegment
    split
    · exact ⟨h, by assumption, hr.2⟩
    · have ne : y.id.val ≠ x.id.val := fun e => hn y (by simp) (Fin.ext e)
      exact ⟨hr.1, Rising.cons_putSegment hr.2 (by dsimp only; omega) fun z hz => hn z (by simp [hz])⟩

theorem putSegment_rising {x : Segment} : ∀ {ys : List Segment}, Rising (ys.map (fun y => y.id.val)) →
    (∀ y ∈ ys, y.id ≠ x.id) → Rising ((putSegment x ys).map (fun y => y.id.val))
  | [], _, _ => trivial
  | y :: ys, h, hn => by
    unfold putSegment
    split
    · exact ⟨by assumption, h⟩
    · have ne : y.id.val ≠ x.id.val := fun e => hn y (by simp) (Fin.ext e)
      exact Rising.cons_putSegment h (by dsimp only; omega) fun z hz => hn z (by simp [hz])

theorem putSegment_sum (x : Segment) : ∀ ys : List Segment,
    ((putSegment x ys).map Segment.blocks).sum = x.blocks + (ys.map Segment.blocks).sum
  | [] => by simp [putSegment]
  | y :: ys => by
    unfold putSegment
    split
    · simp
    · simp [putSegment_sum x ys]; omega

theorem putSegment_mem {x z : Segment} : ∀ {ys : List Segment}, z ∈ putSegment x ys → z = x ∨ z ∈ ys
  | [], h => by simpa [putSegment] using h
  | y :: ys, h => by
    unfold putSegment at h
    split at h
    · rcases List.mem_cons.1 h with e | e
      · exact .inl e
      · exact .inr e
    · rcases List.mem_cons.1 h with e | e
      · simp [e]
      · rcases putSegment_mem e with k | k <;> simp [k]

/-- A new segment in a store that has room for it and no segment of its number. -/
theorem SegStore.put_ok {st : SegStore} {x : Segment} (hn : st.find x.id = none) (hb : x.blocks ≤ st.free) (hx : x.ok)
    (h : st.ok) : ({ st with segs := putSegment x st.segs } : SegStore).ok := by
  obtain ⟨h1, h2, h3⟩ := h
  refine ⟨putSegment_rising h1 fun y hy e => ?_, ?_, fun z hz => ?_⟩
  · have := List.find?_eq_none.1 hn y hy
    simp [e] at this
  · rw [putSegment_sum]
    unfold SegStore.free at hb
    omega
  · rcases putSegment_mem hz with rfl | k
    · exact hx
    · exact h3 z k

theorem Segment.new_ok (id : Fin 4096) (l w : Nat) : ({ id := id, length := l, width := w, written := [] } : Segment).ok :=
  ⟨trivial, by simp⟩

theorem segDefineVerb_keeps {s0 s : State} (h : Keeps s0 s) (o : ObjArg) (len : RawVal) :
    KeepsX s0 (segDefineVerb o len s) := by
  unfold segDefineVerb
  refine KeepsX.bind fun n => ?_
  split
  · dsimp only
    repeat' first | exact KeepsX.error _ _ | split
    rename_i hf hs
    refine done_keeps (store_keeps h _ (SegStore.put_ok ?_ ?_ (Segment.new_ok _ _ _))) _
    · simpa using hf
    · simp only [Segment.blocks]
      omega
  · exact .error _ _
  · exact .error _ _

theorem Rising.cons_filter {p : Segment → Bool} {a : Nat} : ∀ {ys : List Segment}, Rising (a :: ys.map (fun y => y.id.val)) →
    Rising (a :: (ys.filter p).map (fun y => y.id.val))
  | [], h => h
  | y :: ys, h => by
    rw [List.filter_cons]
    split
    · exact ⟨h.1, Rising.cons_filter h.2⟩
    · refine Rising.cons_filter ?_
      cases ys with
      | nil => exact trivial
      | cons z zs => exact ⟨Nat.lt_trans h.1 h.2.1, h.2.2⟩

theorem SegStore.filter_ok {st : SegStore} (p : Segment → Bool) (h : st.ok) :
    ({ st with segs := st.segs.filter p } : SegStore).ok := by
  obtain ⟨h1, h2, h3⟩ := h
  refine ⟨?_, ?_, fun x hx => h3 x (List.mem_filter.1 hx).1⟩
  · dsimp only
    generalize st.segs = ys at h1
    induction ys with
    | nil => trivial
    | cons y ys ih =>
      rw [List.filter_cons]
      split
      · exact Rising.cons_filter h1
      · exact ih (Rising.tail h1)
  · have key : ∀ ys : List Segment, ((ys.filter p).map Segment.blocks).sum ≤ (ys.map Segment.blocks).sum := by
      intro ys
      induction ys with
      | nil => simp
      | cons y ys ih => rw [List.filter_cons]; split <;> simp <;> omega
    exact Nat.le_trans (key _) h2

theorem segFreeVerb_keeps {s0 s : State} (h : Keeps s0 s) (o : ObjArg) : KeepsX s0 (segFreeVerb o s) := by
  unfold segFreeVerb
  refine KeepsX.bind fun n => ?_
  dsimp only
  repeat' first | exact KeepsX.error _ _ | split
  exact done_keeps (store_keeps h _ (SegStore.filter_ok _)) _

theorem sysProps_keeps : ∀ y ∈ sysProps, y.Keeps := by
  unfold sysProps
  repeat' first
    | exact List.forall_mem_nil _ | with_reducible refine List.forall_mem_cons.2 ⟨?_, ?_⟩
    | with_reducible refine List.forall_mem_append.2 ⟨?_, ?_⟩ | with_reducible exact Lens.roKw_keeps
    | with_reducible exact Lens.ro_keeps | with_reducible exact Lens.roTime_keeps | with_reducible exact Lens.count_keeps
    | with_reducible refine Lens.kw_keeps (syncLens_free).on trivial ?_
    | with_reducible refine Lens.flag_keeps (syncLens_free).on trivial ?_
    | with_reducible refine Lens.nat_keeps (syncLens_free).on trivial ?_
    | with_reducible refine Lens.natTime_keeps (syncLens_free).on trivial ?_
    | with_reducible refine Lens.time_keeps (syncLens_free).on trivial ?_
    | with_reducible refine Lens.prop_keeps (syncLens_free).on ?_ | exact fun _ => trivial
    | with_reducible refine Lens.kw_keeps tbLens_on TbKeep.id ?_
    | with_reducible refine Lens.flag_keeps tbLens_on TbKeep.id ?_
    | with_reducible refine Lens.nat_keeps tbLens_on TbKeep.id ?_
    | with_reducible refine Lens.natTime_keeps tbLens_on TbKeep.id ?_
    | with_reducible refine Lens.time_keeps tbLens_on TbKeep.id ?_ | with_reducible refine Lens.prop_keeps tbLens_on ?_
    | exact fun _ _ h => h | with_reducible refine Lens.kw_keeps bootLens_on BootKeep.id ?_
    | with_reducible refine Lens.flag_keeps bootLens_on BootKeep.id ?_
    | with_reducible refine Lens.nat_keeps bootLens_on BootKeep.id ?_
    | with_reducible refine Lens.natTime_keeps bootLens_on BootKeep.id ?_
    | with_reducible refine Lens.time_keeps bootLens_on BootKeep.id ?_ | with_reducible refine Lens.prop_keeps bootLens_on ?_
    | exact fun _ _ => ⟨fun h => h, fun _ => ⟨rfl, rfl⟩⟩ | (intro y hy; obtain ⟨i, _, rfl⟩ := List.mem_map.1 hy; first
    | exact fun _ _ _ h => h | exact Lens.hex_keeps bootLens_on BootKeep.id fun _ _ => ⟨fun h => h, fun _ => ⟨rfl, rfl⟩⟩)
    | exact fun _ _ _ h => h

theorem refProps_keeps : ∀ y ∈ refProps, y.Keeps := by
  unfold refProps
  repeat' first
    | exact List.forall_mem_nil _ | with_reducible refine List.forall_mem_cons.2 ⟨?_, ?_⟩
    | with_reducible refine List.forall_mem_append.2 ⟨?_, ?_⟩ | with_reducible exact Lens.roKw_keeps
    | with_reducible exact Lens.count_keeps | with_reducible refine Lens.kw_keeps tbLens_on TbKeep.id ?_
    | with_reducible refine Lens.choice_keeps tbLens_on TbKeep.id ?_
    | with_reducible refine Lens.flag_keeps tbLens_on TbKeep.id ?_
    | with_reducible refine Lens.nat_keeps tbLens_on TbKeep.id ?_
    | with_reducible refine Lens.list_keeps tbLens_on TbKeep.id ?_ | exact fun _ _ h => h
    | exact fun v => (Lens.choice_keeps tbLens_on TbKeep.id (fun _ _ h => h) :
        (tbLens.choice "ACTIVE" (orNone refAtoms) Timebase.active (fun _ t => t)).Keeps) v

theorem refxProps_keeps (x : Fin 4) : ∀ y ∈ refxProps x, y.Keeps := by
  unfold refxProps
  repeat' first
    | exact List.forall_mem_nil _ | with_reducible refine List.forall_mem_cons.2 ⟨?_, ?_⟩
    | with_reducible refine List.forall_mem_append.2 ⟨?_, ?_⟩ | with_reducible exact Lens.roKw_keeps
    | with_reducible exact Lens.ro_keeps | with_reducible exact Lens.count_keeps
    | with_reducible refine Lens.kw_keeps (refLens_free x).on trivial ?_
    | with_reducible refine Lens.choice_keeps (refLens_free x).on trivial ?_
    | with_reducible refine Lens.nat_keeps (refLens_free x).on trivial ?_ | exact fun _ => trivial

theorem axisProps_keeps (a : Fin 4) : ∀ y ∈ axisProps a, y.Keeps := by
  unfold axisProps
  repeat' first
    | exact List.forall_mem_nil _ | with_reducible refine List.forall_mem_cons.2 ⟨?_, ?_⟩
    | with_reducible refine List.forall_mem_append.2 ⟨?_, ?_⟩ | with_reducible exact Lens.roKw_keeps
    | with_reducible exact Lens.ro_keeps | with_reducible exact Lens.roTime_keeps | with_reducible exact Lens.count_keeps
    | with_reducible refine Lens.kw_keeps (axisCfgLens_free a).on trivial ?_
    | with_reducible refine Lens.choice_keeps (axisCfgLens_free a).on trivial ?_
    | with_reducible refine Lens.flag_keeps (axisCfgLens_free a).on trivial ?_
    | with_reducible refine Lens.nat_keeps (axisCfgLens_free a).on trivial ?_
    | with_reducible refine Lens.natTime_keeps (axisCfgLens_free a).on trivial ?_
    | with_reducible refine Lens.word_keeps (axisCfgLens_free a).on trivial ?_
    | with_reducible refine Lens.prop_keeps (axisCfgLens_free a).on ?_ | exact fun _ => trivial
    | with_reducible refine Lens.nat_keeps ((axisCfgLens_free a).part _ _).on trivial ?_
    | with_reducible refine Lens.natTime_keeps ((axisCfgLens_free a).part _ _).on trivial ?_
    | exact Lens.prop_keeps (axisCfgLens_free a).on fun _ => trivial

theorem clusterProps_keeps (k : Fin 8) : ∀ y ∈ clusterProps k, y.Keeps := by
  unfold clusterProps
  repeat' first
    | exact List.forall_mem_nil _ | with_reducible refine List.forall_mem_cons.2 ⟨?_, ?_⟩
    | with_reducible refine List.forall_mem_append.2 ⟨?_, ?_⟩ | with_reducible exact Lens.roKw_keeps
    | with_reducible exact Lens.ro_keeps | with_reducible exact Lens.roTime_keeps | with_reducible exact Lens.count_keeps
    | with_reducible refine Lens.kw_keeps (clusterLens_free k).on trivial ?_
    | with_reducible refine Lens.choice_keeps (clusterLens_free k).on trivial ?_
    | with_reducible refine Lens.natTime_keeps (clusterLens_free k).on trivial ?_ | exact fun _ => trivial

theorem portProps_keeps (p : Fin 64) : ∀ y ∈ portProps p, y.Keeps := by
  unfold portProps
  repeat' first
    | exact List.forall_mem_nil _ | with_reducible refine List.forall_mem_cons.2 ⟨?_, ?_⟩
    | with_reducible refine List.forall_mem_append.2 ⟨?_, ?_⟩ | with_reducible exact Lens.roKw_keeps
    | with_reducible exact Lens.ro_keeps | with_reducible exact Lens.roTime_keeps | with_reducible exact Lens.count_keeps
    | with_reducible refine Lens.kw_keeps (cfgLens_free p).on trivial ?_
    | with_reducible refine Lens.choice_keeps (cfgLens_free p).on trivial ?_
    | with_reducible refine Lens.flag_keeps (cfgLens_free p).on trivial ?_
    | with_reducible refine Lens.nat_keeps (cfgLens_free p).on trivial ?_
    | with_reducible refine Lens.natTime_keeps (cfgLens_free p).on trivial ?_
    | with_reducible refine Lens.natOf_keeps (cfgLens_free p).on trivial ?_
    | with_reducible refine Lens.time_keeps (cfgLens_free p).on trivial ?_
    | with_reducible refine Lens.word_keeps (cfgLens_free p).on trivial ?_ | exact fun _ => trivial
    | exact fun _ _ _ h => modPort_keeps h _ _

theorem trgProps_keeps (n : Fin 8) : ∀ y ∈ trgProps n, y.Keeps := by
  unfold trgProps
  repeat' first
    | exact List.forall_mem_nil _ | with_reducible refine List.forall_mem_cons.2 ⟨?_, ?_⟩
    | with_reducible refine List.forall_mem_append.2 ⟨?_, ?_⟩
    | with_reducible refine Lens.kw_keeps (trgLens_free n).on trivial ?_
    | with_reducible refine Lens.choice_keeps (trgLens_free n).on trivial ?_ | exact fun _ => trivial

theorem statProps_keeps (m : Fin 16) (k : Nat) : ∀ y ∈ statProps m k, y.Keeps := by
  unfold statProps
  repeat' first
    | exact List.forall_mem_nil _ | with_reducible refine List.forall_mem_cons.2 ⟨?_, ?_⟩
    | with_reducible refine List.forall_mem_append.2 ⟨?_, ?_⟩ | with_reducible exact Lens.ro_keeps
    | with_reducible exact Lens.roTime_keeps

theorem mfProps_keeps (m : Fin 16) : ∀ y ∈ mfProps m, y.Keeps := by
  unfold mfProps
  repeat' first
    | exact List.forall_mem_nil _ | with_reducible refine List.forall_mem_cons.2 ⟨?_, ?_⟩
    | with_reducible refine List.forall_mem_append.2 ⟨?_, ?_⟩ | with_reducible exact Lens.count_keeps
    | with_reducible refine Lens.kw_keeps (mfCfgLens_free m).on trivial ?_
    | with_reducible refine Lens.choice_keeps (mfCfgLens_free m).on trivial ?_
    | with_reducible refine Lens.flag_keeps (mfCfgLens_free m).on trivial ?_
    | with_reducible refine Lens.nat_keeps (mfCfgLens_free m).on trivial ?_
    | with_reducible refine Lens.natTime_keeps (mfCfgLens_free m).on trivial ?_
    | with_reducible refine Lens.list_keeps (mfCfgLens_free m).on trivial ?_ | exact fun _ => trivial
    | (intro y hy; obtain ⟨i, _, h⟩ := List.mem_flatMap.1 hy; exact statProps_keeps _ _ _ h)
    | exact fun v => mfCfgLens_free m (fun c => { c with statsHold := decide (v = .kw "HOLD") })

theorem taskProps_keeps (t : Fin 320) : ∀ y ∈ taskProps t, y.Keeps := by
  unfold taskProps
  repeat' first
    | exact List.forall_mem_nil _ | with_reducible refine List.forall_mem_cons.2 ⟨?_, ?_⟩
    | with_reducible refine List.forall_mem_append.2 ⟨?_, ?_⟩ | with_reducible exact Lens.ro_keeps
    | with_reducible exact Lens.count_keeps | with_reducible refine Lens.kw_keeps (taskLens_free t).on trivial ?_
    | with_reducible refine Lens.flag_keeps (taskLens_free t).on trivial ?_
    | with_reducible refine Lens.list_keeps (taskLens_free t).on trivial ?_
    | with_reducible refine Lens.evset_keeps (taskLens_free t).on trivial ?_
    | with_reducible refine Lens.prop_keeps (taskLens_free t).on ?_ | exact fun _ => trivial

theorem evtProps_keeps : ∀ y ∈ evtProps, y.Keeps := by
  unfold evtProps
  repeat' first
    | exact List.forall_mem_nil _ | with_reducible refine List.forall_mem_cons.2 ⟨?_, ?_⟩
    | with_reducible refine List.forall_mem_append.2 ⟨?_, ?_⟩ | with_reducible exact Lens.ro_keeps

theorem segProps_keeps : ∀ y ∈ segProps, y.Keeps := by
  unfold segProps
  repeat' first
    | exact List.forall_mem_nil _ | with_reducible refine List.forall_mem_cons.2 ⟨?_, ?_⟩
    | with_reducible refine List.forall_mem_append.2 ⟨?_, ?_⟩ | with_reducible exact Lens.ro_keeps
    | with_reducible exact Lens.count_keeps | with_reducible refine Lens.natOf_keeps storeLens_on StoreKeep.id ?_
    | exact fun _ _ h => h

theorem segnProps_keeps (n : Fin 4096) : ∀ y ∈ segnProps n, y.Keeps := by
  unfold segnProps
  repeat' first
    | exact List.forall_mem_nil _ | with_reducible refine List.forall_mem_cons.2 ⟨?_, ?_⟩
    | with_reducible refine List.forall_mem_append.2 ⟨?_, ?_⟩ | with_reducible exact Lens.roKw_keeps
    | with_reducible exact Lens.ro_keeps

theorem groupProps_keeps (g : Fin 8) : ∀ y ∈ groupProps g, y.Keeps := by
  unfold groupProps
  repeat' first
    | exact List.forall_mem_nil _ | with_reducible refine List.forall_mem_cons.2 ⟨?_, ?_⟩
    | with_reducible refine List.forall_mem_append.2 ⟨?_, ?_⟩ | with_reducible exact Lens.roKw_keeps
    | with_reducible exact Lens.ro_keeps | with_reducible exact Lens.count_keeps
    | with_reducible refine Lens.kw_keeps (groupCfgLens_free g).on trivial ?_
    | with_reducible refine Lens.list_keeps (groupCfgLens_free g).on trivial ?_
    | with_reducible refine Lens.prop_keeps (groupCfgLens_free g).on ?_ | exact fun _ => trivial

theorem markerProps_keeps (n : Fin 16) : ∀ y ∈ markerProps n, y.Keeps := by
  unfold markerProps
  repeat' first
    | exact List.forall_mem_nil _ | with_reducible refine List.forall_mem_cons.2 ⟨?_, ?_⟩
    | with_reducible refine List.forall_mem_append.2 ⟨?_, ?_⟩
    | with_reducible refine Lens.kw_keeps (markerLens_free n).on trivial ?_
    | with_reducible refine Lens.choice_keeps (markerLens_free n).on trivial ?_
    | with_reducible refine Lens.flag_keeps (markerLens_free n).on trivial ?_ | exact fun _ => trivial

theorem agProps_keeps (n : Fin 8) : ∀ y ∈ agProps n, y.Keeps := by
  unfold agProps
  repeat' first
    | exact List.forall_mem_nil _ | with_reducible refine List.forall_mem_cons.2 ⟨?_, ?_⟩
    | with_reducible refine List.forall_mem_append.2 ⟨?_, ?_⟩ | with_reducible exact Lens.roKw_keeps
    | with_reducible exact Lens.ro_keeps | with_reducible exact Lens.roTime_keeps | with_reducible exact Lens.count_keeps
    | with_reducible refine Lens.kw_keeps (agCfgLens_free n).on trivial ?_
    | with_reducible refine Lens.choice_keeps (agCfgLens_free n).on trivial ?_
    | with_reducible refine Lens.nat_keeps (agCfgLens_free n).on trivial ?_
    | with_reducible refine Lens.natTime_keeps (agCfgLens_free n).on trivial ?_
    | with_reducible refine Lens.int_keeps (agCfgLens_free n).on trivial ?_
    | with_reducible refine Lens.time_keeps (agCfgLens_free n).on trivial ?_
    | with_reducible refine Lens.hex_keeps (agCfgLens_free n).on trivial ?_
    | with_reducible refine Lens.list_keeps (agCfgLens_free n).on trivial ?_
    | with_reducible refine Lens.prop_keeps (agCfgLens_free n).on ?_ | exact fun _ => trivial

theorem calProps_keeps : ∀ y ∈ calProps, y.Keeps := by
  unfold calProps
  repeat' first
    | exact List.forall_mem_nil _ | with_reducible refine List.forall_mem_cons.2 ⟨?_, ?_⟩
    | with_reducible refine List.forall_mem_append.2 ⟨?_, ?_⟩ | with_reducible exact Lens.ro_keeps
    | with_reducible exact Lens.count_keeps | with_reducible refine Lens.flag_keeps (calLens_free).on trivial ?_
    | with_reducible refine Lens.natTime_keeps (calLens_free).on trivial ?_ | exact fun _ => trivial

theorem ruleProps_keeps (n : Fin 16) : ∀ y ∈ ruleProps n, y.Keeps := by
  unfold ruleProps
  repeat' first
    | exact List.forall_mem_nil _ | with_reducible refine List.forall_mem_cons.2 ⟨?_, ?_⟩
    | with_reducible refine List.forall_mem_append.2 ⟨?_, ?_⟩ | with_reducible exact Lens.count_keeps
    | with_reducible refine Lens.kw_keeps (ruleLens_free n).on trivial ?_
    | with_reducible refine Lens.choice_keeps (ruleLens_free n).on trivial ?_
    | with_reducible refine Lens.nat_keeps (ruleLens_free n).on trivial ?_
    | with_reducible refine Lens.int_keeps (ruleLens_free n).on trivial ?_
    | with_reducible refine Lens.time_keeps (ruleLens_free n).on trivial ?_
    | with_reducible refine Lens.list_keeps (ruleLens_free n).on trivial ?_ | exact fun _ => trivial

theorem belProps_keeps : ∀ y ∈ belProps, y.Keeps := by
  unfold belProps
  repeat' first
    | exact List.forall_mem_nil _ | with_reducible refine List.forall_mem_cons.2 ⟨?_, ?_⟩
    | with_reducible refine List.forall_mem_append.2 ⟨?_, ?_⟩ | with_reducible exact Lens.roKw_keeps
    | with_reducible exact Lens.ro_keeps | with_reducible exact Lens.count_keeps
    | with_reducible refine Lens.kw_keeps belLens_on BelKeep.id ?_
    | with_reducible refine Lens.choice_keeps belLens_on BelKeep.id ?_
    | with_reducible refine Lens.flag_keeps belLens_on BelKeep.id ?_
    | with_reducible refine Lens.nat_keeps belLens_on BelKeep.id ?_
    | with_reducible refine Lens.natTime_keeps belLens_on BelKeep.id ?_
    | with_reducible refine Lens.list_keeps belLens_on BelKeep.id ?_ | with_reducible refine Lens.prop_keeps belLens_on ?_
    | exact fun _ _ h => h | (intro v b h; dsimp only; split <;> exact h)
    | (intro y hy; obtain ⟨i, _, h⟩ := List.mem_flatMap.1 hy; exact ruleProps_keeps _ _ h)
    | exact fun _ _ _ h => clearAlert_keeps h

theorem wakeProps_keeps (n : Fin 4) : ∀ y ∈ wakeProps n, y.Keeps := by
  unfold wakeProps
  repeat' first
    | exact List.forall_mem_nil _ | with_reducible refine List.forall_mem_cons.2 ⟨?_, ?_⟩
    | with_reducible refine List.forall_mem_append.2 ⟨?_, ?_⟩ | with_reducible exact Lens.roKw_keeps
    | with_reducible refine Lens.kw_keeps (wakeLens_free n).on trivial ?_ | exact fun _ => trivial

theorem spProps_keeps : ∀ y ∈ spProps, y.Keeps := by
  unfold spProps
  repeat' first
    | exact List.forall_mem_nil _ | with_reducible refine List.forall_mem_cons.2 ⟨?_, ?_⟩
    | with_reducible refine List.forall_mem_append.2 ⟨?_, ?_⟩ | with_reducible exact Lens.roKw_keeps
    | with_reducible exact Lens.count_keeps | with_reducible refine Lens.kw_keeps (spLens_free).on trivial ?_
    | with_reducible refine Lens.flag_keeps (spLens_free).on trivial ?_
    | with_reducible refine Lens.natOf_keeps (spLens_free).on trivial ?_
    | with_reducible refine Lens.list_keeps (spLens_free).on trivial ?_
    | with_reducible refine Lens.evset_keeps (spLens_free).on trivial ?_ | exact fun _ => trivial

theorem linkProps_keeps (k : Link) : ∀ y ∈ linkProps k, y.Keeps := by
  unfold linkProps
  repeat' first
    | exact List.forall_mem_nil _ | with_reducible refine List.forall_mem_cons.2 ⟨?_, ?_⟩
    | with_reducible refine List.forall_mem_append.2 ⟨?_, ?_⟩ | with_reducible exact Lens.count_keeps
    | with_reducible refine Lens.kw_keeps (linkLens_free k).on trivial ?_
    | with_reducible refine Lens.evset_keeps (linkLens_free k).on trivial ?_ | exact fun _ => trivial

theorem consoleProps_keeps : ∀ y ∈ consoleProps, y.Keeps := by
  unfold consoleProps
  repeat' first
    | exact List.forall_mem_nil _ | with_reducible refine List.forall_mem_cons.2 ⟨?_, ?_⟩
    | with_reducible refine List.forall_mem_append.2 ⟨?_, ?_⟩ | with_reducible exact Lens.roKw_keeps
    | with_reducible exact Lens.ro_keeps | with_reducible refine Lens.kw_keeps (consoleLens_free).on trivial ?_
    | with_reducible refine Lens.prop_keeps (consoleLens_free).on ?_ | exact fun _ => trivial

theorem hspiProps_keeps : ∀ y ∈ hspiProps, y.Keeps := by
  unfold hspiProps
  repeat' first
    | exact List.forall_mem_nil _ | with_reducible refine List.forall_mem_cons.2 ⟨?_, ?_⟩
    | with_reducible refine List.forall_mem_append.2 ⟨?_, ?_⟩ | with_reducible exact Lens.ro_keeps

theorem propsOf_keeps (o : Obj) : ∀ x ∈ propsOf o, x.Keeps := by
  cases o with
  | sys => exact sysProps_keeps
  | ref => exact refProps_keeps
  | refx x => exact refxProps_keeps x
  | ax a => exact axisProps_keeps a
  | cl k => exact clusterProps_keeps k
  | port p => exact portProps_keeps p
  | trg n => exact trgProps_keeps n
  | mf m => exact mfProps_keeps m
  | evt => exact evtProps_keeps
  | src _ => exact List.forall_mem_nil _
  | tk t => exact taskProps_keeps t
  | grp g => exact groupProps_keeps g
  | seg => exact segProps_keeps
  | segn n => exact segnProps_keeps n
  | mk n => exact markerProps_keeps n
  | ag n => exact agProps_keeps n
  | cal => exact calProps_keeps
  | bel => exact belProps_keeps
  | wake n => exact wakeProps_keeps n
  | sp => exact spProps_keeps
  | con => exact List.forall_mem_append.2 ⟨linkProps_keeps _, consoleProps_keeps⟩
  | hspi => exact List.forall_mem_append.2 ⟨linkProps_keeps _, hspiProps_keeps⟩

theorem propOf_keeps {o : Obj} {name : String} {x : PropSpec} (h : propOf o name = some x) : x.Keeps := by
  unfold propOf at h
  split at h
  · cases h
    exact fun _ _ _ h => h
  · exact propsOf_keeps o x (List.mem_of_find?_eq_some h)

theorem getVerb_keeps {s0 s : State} (h : Keeps s0 s) (ps : List PathRef) : KeepsX s0 (getVerb ps s) := by
  unfold getVerb
  repeat' first
    | exact KeepsX.error _ _ | with_reducible assumption | with_reducible apply done_keeps
    | with_reducible refine KeepsX.bind (fun _ => ?_) | with_reducible refine KeepsX.ok ?_ | split | dsimp only

theorem showVerb_keeps {s0 s : State} (h : Keeps s0 s) (o : ObjArg) : KeepsX s0 (showVerb o s) := by
  unfold showVerb
  repeat' first
    | exact KeepsX.error _ _ | with_reducible assumption | with_reducible apply doneLines_keeps
    | with_reducible refine KeepsX.bind (fun _ => ?_) | with_reducible refine KeepsX.ok ?_ | split | dsimp only

theorem listVerb_keeps {s0 s : State} (h : Keeps s0 s) (o : Option ObjArg) : KeepsX s0 (listVerb o s) := by
  unfold listVerb
  repeat' first
    | exact KeepsX.error _ _ | with_reducible assumption | with_reducible apply doneLines_keeps
    | with_reducible refine KeepsX.bind (fun _ => ?_) | with_reducible refine KeepsX.ok ?_ | split | dsimp only

theorem helpVerb_keeps {s0 s : State} (h : Keeps s0 s) (topic : Option String) : KeepsX s0 (helpVerb topic s) := by
  unfold helpVerb
  repeat' first
    | exact KeepsX.error _ _ | with_reducible assumption | with_reducible apply doneLines_keeps
    | with_reducible refine KeepsX.bind (fun _ => ?_) | with_reducible refine KeepsX.ok ?_ | split | dsimp only

theorem snapshotVerb_keeps {s0 s : State} (h : Keeps s0 s) : KeepsX s0 (snapshotVerb s) := by
  unfold snapshotVerb
  repeat' first
    | exact KeepsX.error _ _ | with_reducible assumption | with_reducible apply snapshotAt_keeps
    | with_reducible apply done_keeps | with_reducible refine KeepsX.bind (fun _ => ?_) | with_reducible refine KeepsX.ok ?_
    | split | dsimp only

end Sys2Proof.Machine
end

