-- ==== Sys2Proof/Laws/KeepsWrites.lean ====
section
/-! SUPPORT. Lemmas of Laws/Keeps.lean for what a SET line writes. -/
namespace Sys2Proof.Machine

theorem setFrame_keeps {s0 s : State} (h : Keeps s0 s) (m : Fin 16) (on : Bool) : Keeps s0 (setFrame m on s) := by
  unfold setFrame
  repeat' first
    | with_reducible assumption | with_reducible apply modMf_keeps | with_reducible apply mfAbort_keeps
    | with_reducible apply mfArmed_keeps | with_reducible apply mfFollow_keeps | with_reducible refine Keeps.ite ?_ ?_ | split
    | dsimp only

theorem clearStats_keeps {s0 s : State} (h : Keeps s0 s) (m : Fin 16) : Keeps s0 (clearStats m s) := by
  unfold clearStats
  repeat' first
    | with_reducible assumption | with_reducible apply modMf_keeps | with_reducible refine Keeps.ite ?_ ?_ | split
    | dsimp only

theorem routesChanged_keeps {s0 s : State} (h : Keeps s0 s) (t : Fin 320) (old : Task) :
    Keeps s0 (routesChanged t old s) := by
  unfold routesChanged
  repeat' first
    | with_reducible assumption | intro _ _ _ | with_reducible apply modFabric_keeps | with_reducible apply modTask_keeps
    | with_reducible refine Keeps.ite ?_ ?_ | with_reducible exact Keeps.mk_of (by assumption) | split | dsimp only

theorem confOff_keeps {s0 s : State} (h : Keeps s0 s) (t : Fin 320) : Keeps s0 (confOff t s) := by
  unfold confOff
  extract_lets mine
  repeat' first
    | with_reducible assumption | intro _ _ _ | with_reducible apply dropDelivery_keeps | with_reducible apply modFabric_keeps
    | with_reducible refine Keeps.ite ?_ ?_ | with_reducible refine foldS_keeps ?_ ?_ | split | dsimp only

theorem modeChanged_keeps {s0 s : State} (h : Keeps s0 s) (p : Fin 64) (old : PortMode) : Keeps s0 (modeChanged p old s) := by
  unfold modeChanged
  repeat' first
    | with_reducible assumption | with_reducible apply mfFollowAll_keeps | with_reducible apply modPort_keeps
    | with_reducible apply startTone_keeps | with_reducible refine Keeps.ite ?_ ?_ | split | dsimp only

theorem thresholdsAuto_keeps {s0 s : State} (h : Keeps s0 s) (k : Fin 8) : Keeps s0 (thresholdsAuto k s) := by
  unfold thresholdsAuto
  repeat' first
    | with_reducible assumption | intro _ _ _ | with_reducible apply modPort_keeps | with_reducible refine Keeps.ite ?_ ?_
    | with_reducible refine foldS_keeps ?_ ?_ | split | dsimp only

theorem setPeriod_keeps {s0 s : State} (h : Keeps s0 s) (period : Nat) : Keeps s0 (setPeriod period s) := by
  unfold setPeriod
  extract_lets last s2
  have ks2 : Keeps s0 s2 := by repeat' first
    | with_reducible assumption | with_reducible apply modCal_keeps | with_reducible refine Keeps.ite ?_ ?_
    | with_reducible exact Keeps.mk_of h | with_reducible exact Keeps.mk_of (by assumption) | split | dsimp only
  clear_value s2
  repeat' first
    | with_reducible assumption | with_reducible apply modCal_keeps | with_reducible refine Keeps.ite ?_ ?_
    | with_reducible exact Keeps.mk_of ks2 | with_reducible exact Keeps.mk_of h
    | with_reducible exact Keeps.mk_of (by assumption) | split | dsimp only

theorem applyWrite_keeps {s0 s : State} (h : Keeps s0 s) (w : Write) (hw : w.prop.Keeps) : Keeps s0 (applyWrite w s) := by
  have hp : Keeps s0 (w.prop.put w.value s) := hw _ h
  unfold applyWrite
  extract_lets n on
  clear_value n on
  cases w.obj <;> dsimp only
  all_goals
    repeat' first
      | with_reducible exact hp | with_reducible exact h | with_reducible refine Keeps.ite ?_ ?_
      | with_reducible apply changeFtw_keeps | with_reducible apply thresholdsAuto_keeps
      | with_reducible apply selectActive_keeps | with_reducible apply setFrame_keeps | with_reducible apply setEnable_keeps
      | with_reducible apply setHold_keeps | with_reducible apply setPeriod_keeps | with_reducible apply setRole_keeps
      | with_reducible apply setDelay_keeps | split

theorem axisWritten_keeps {s0 s : State} (h : Keeps s0 s) (a : Fin 4) (old : AxisCfg) (names : List String) :
    Keeps s0 (axisWritten a old names s) := by
  unfold axisWritten
  repeat' first
    | with_reducible assumption | intro _ _ _ | with_reducible apply modAxis_keeps | with_reducible apply restartAxis_keeps
    | with_reducible apply unbindAll_keeps | with_reducible apply runAheadOn_keeps | with_reducible refine Keeps.ite ?_ ?_
    | split | dsimp only

theorem statsCleared_keeps {s0 s : State} (h : Keeps s0 s) (ws : List Write) : Keeps s0 (statsCleared ws s) := by
  unfold statsCleared
  repeat' first
    | with_reducible assumption | intro _ _ _ | with_reducible apply clearStats_keeps | with_reducible refine Keeps.ite ?_ ?_
    | with_reducible refine foldS_keeps ?_ ?_ | split | dsimp only

theorem settleFrom_keeps {s0 s : State} (h : Keeps s0 s) (old : State) (p : Fin 64) : Keeps s0 (settleFrom old p s) := by
  unfold settleFrom
  repeat' first
    | with_reducible assumption | intro _ _ _ | with_reducible apply modPort_keeps | with_reducible refine Keeps.ite ?_ ?_
    | split | dsimp only

theorem portWritten_keeps {s0 s : State} (h : Keeps s0 s) (p : Fin 64) (old : State) : Keeps s0 (portWritten p old s) := by
  unfold portWritten
  repeat' first
    | with_reducible assumption | with_reducible apply modeChanged_keeps | with_reducible apply settleFrom_keeps
    | with_reducible refine Keeps.ite ?_ ?_ | split | dsimp only

theorem objectWritten_keeps {s0 s : State} (h : Keeps s0 s) (old : State) (o : Obj) (names : List String) :
    Keeps s0 (objectWritten old o names s) := by
  unfold objectWritten
  cases o with
  | ax a => exact axisWritten_keeps h _ _ _
  | port p => exact portWritten_keeps h _ _
  | cl k => exact foldS_keeps h fun _ _ h => settleFrom_keeps h _ _
  | mf m =>
    dsimp only
    with_reducible refine Keeps.ite ?_ ?_
    · exact clearStats_keeps h _
    · exact h
  | tk t =>
    dsimp -zeta only
    extract_lets s1
    have k1 : Keeps s0 s1 := by
      unfold s1
      with_reducible refine Keeps.ite ?_ ?_
      · exact routesChanged_keeps h _ _
      · exact h
    clear_value s1
    with_reducible refine Keeps.ite ?_ ?_
    · exact confOff_keeps k1 _
    · exact k1
  | refx x =>
    dsimp -zeta only
    extract_lets s1 s2
    have k1 : Keeps s0 s1 := by
      unfold s1
      with_reducible refine Keeps.ite ?_ ?_
      · exact inputChanged_keeps h _
      · exact h
    clear_value s1
    have k2 : Keeps s0 s2 := by
      unfold s2
      with_reducible refine Keeps.ite ?_ ?_
      · exact roleChanged_keeps k1 _
      · exact k1
    exact selectionChanged_keeps k2
  | ref => exact selectionChanged_keeps h
  | bel =>
    exact foldS_keeps h fun n t h => modBel_keeps h (fun b => { b with rules := upd b.rules n Rule.restart })
      fun (h : t.bel.log.length ≤ 64) => h
  | _ => exact h

theorem applyAll_keeps {s0 s : State} (h : Keeps s0 s) (ws : List Write) (hw : ∀ w ∈ ws, w.prop.Keeps) :
    Keeps s0 (applyAll ws s) := by
  have hs : ∀ w ∈ standardsFirst ws, w.prop.Keeps := fun w h => by
    unfold standardsFirst at h
    rcases List.mem_append.1 h with h | h <;> exact hw w (List.mem_filter.1 h).1
  have key : ∀ (xs : List Write) (t : State), (∀ w ∈ xs, w.prop.Keeps) → Keeps s0 t → Keeps s0 (foldS xs applyWrite t) := by
    intro xs
    induction xs with
    | nil => exact fun _ _ h => h
    | cons x xs ih => exact fun t hx h => ih _ (fun w hw => hx w (by simp [hw])) (applyWrite_keeps h _ (hx x (by simp)))
  exact foldS_keeps (statsCleared_keeps (key _ _ hs h) _) fun _ _ h => objectWritten_keeps h _ _ _

theorem trialState_keeps {s0 s : State} (h : Keeps s0 s) (ws : List Write) (hw : ∀ w ∈ ws, w.prop.Keeps) :
    Keeps s0 (trialState ws s) := by
  have hs : ∀ w ∈ standardsFirst ws, w.prop.Keeps := fun w h => by
    unfold standardsFirst at h
    rcases List.mem_append.1 h with h | h <;> exact hw w (List.mem_filter.1 h).1
  unfold trialState
  generalize standardsFirst ws = xs at hs
  induction xs generalizing s with
  | nil => exact h
  | cons w xs ih =>
    refine ih ?_ fun w hw => hs w (by simp [hw])
    have hp : Keeps s0 (w.prop.put w.value s) := hs w (by simp) _ h
    dsimp only
    split
    · exact .ite (thresholdsAuto_keeps hp _) hp
    · exact hp

theorem mapM_ok {α β ε : Type} (f : α → Except ε β) : ∀ {xs : List α} {ys : List β}, xs.mapM f = .ok ys →
    (∀ x ∈ xs, ∃ y ∈ ys, f x = .ok y) ∧ ∀ y ∈ ys, ∃ x ∈ xs, f x = .ok y
  | [], ys, e => by
    cases e
    simp
  | x :: xs, ys, e => by
    rw [List.mapM_cons] at e
    cases hx : f x with
    | error k => rw [hx] at e; cases e
    | ok y =>
      rw [hx] at e
      cases hs : xs.mapM f with
      | error k => rw [hs] at e; cases e
      | ok zs =>
        rw [hs] at e
        cases e
        obtain ⟨h1, h2⟩ := mapM_ok f hs
        refine ⟨fun a ha => ?_, fun b hb => ?_⟩
        · rcases List.mem_cons.1 ha with rfl | ha
          · exact ⟨y, by simp, hx⟩
          · obtain ⟨b, hb, e⟩ := h1 a ha
            exact ⟨b, by simp [hb], e⟩
        · rcases List.mem_cons.1 hb with rfl | hb
          · exact ⟨x, by simp, hx⟩
          · obtain ⟨a, ha, e⟩ := h2 b hb
            exact ⟨a, by simp [ha], e⟩

/-- The write of an assignment that is read. -/
def Pre.write : Pre → Write
  | .value w => w
  | .pos w _ => w

theorem pathTest_ok {s : State} {p : PathRef} {wr : Bool} {r : Obj × PropSpec} (e : pathTest s p wr = .ok r) :
    theObj p.obj = .ok r.1 ∧ propOf r.1 p.prop = some r.2 := by
  unfold pathTest at e
  cases ho : theObj p.obj with
  | error k => rw [ho] at e; cases e
  | ok o =>
    rw [ho] at e
    dsimp only [bind, Except.bind] at e
    cases hp : propOf o p.prop with
    | none => rw [hp] at e; cases e
    | some x =>
      rw [hp] at e
      dsimp only at e
      repeat' split at e
      all_goals first | (cases e; done) | skip
      all_goals
        cases e
        exact ⟨rfl, hp⟩

theorem readWrite_ok {s : State} {a : Assign} {p : Pre} (e : readWrite s a = .ok p) :
    theObj a.path.obj = .ok p.write.obj ∧ propOf p.write.obj a.path.prop = some p.write.prop := by
  unfold readWrite at e
  cases hp : pathTest s a.path true with
  | error k => rw [hp] at e; cases e
  | ok r =>
    rw [hp] at e
    dsimp only [bind, Except.bind] at e
    have := pathTest_ok hp
    repeat' split at e
    all_goals first | (cases e; done) | skip
    all_goals
      cases e
      exact this

theorem resolvePre_ok {t : State} {rc : Recv} {p : Pre} {w : Write} (e : resolvePre t rc p = .ok w) :
    w.obj = p.write.obj ∧ w.prop = p.write.prop := by
  unfold resolvePre at e
  split at e
  · cases e
    exact ⟨rfl, rfl⟩
  · split at e
    · split at e
      · cases e
      · dsimp only [bind, Except.bind] at e
        split at e
        · cases e
        · cases e
          exact ⟨rfl, rfl⟩
    · cases e

/-- The writes that a line is read as: each is of a property of its table, no assignment conflicts, and one that is read
names what the line names. -/
theorem readWrites_ok {s : State} {rc : Recv} {as : List Assign} {ws : List Write} (e : readWrites s rc as = .ok ws) :
    (∀ w ∈ ws, w.prop.Keeps) ∧ ∃ t, Keeps s t ∧
      ∀ a ∈ as, ∃ w ∈ ws, theObj a.path.obj = .ok w.obj ∧ propOf w.obj a.path.prop = some w.prop ∧ conflictOf s t w = none := by
  unfold readWrites at e
  extract_lets pres t0 us t at e
  obtain ⟨h1, h2⟩ := mapM_ok _ e
  have src : ∀ p ∈ List.map (readWrite s) as, ∀ x, p = .ok x → x.write.prop.Keeps := by
    intro p hp x ex
    obtain ⟨a, _, rfl⟩ := List.mem_map.1 hp
    exact propOf_keeps (readWrite_ok ex).2
  have good : ∀ (t : State) (p : Except (Nat × String) Pre) (w : Write), p ∈ List.map (readWrite s) as →
      (match p with | .ok x => resolvePre t rc x | .error e => .error e) = .ok w → w.prop.Keeps := by
    intro t p w hp ew
    cases p with
    | error k => cases ew
    | ok x =>
      rw [(resolvePre_ok ew).2]
      exact src _ hp x rfl
  refine ⟨fun w hw => ?_, t, trialState_keeps (.refl s) _ ?_, fun a ha => ?_⟩
  rotate_right
  · obtain ⟨w, hw, ew⟩ := h1 _ (List.mem_map.2 ⟨_, List.mem_map.2 ⟨a, ha, rfl⟩, rfl⟩)
    refine ⟨w, hw, ?_⟩
    cases hr : readWrite s a with
    | error k => rw [hr] at ew; cases ew
    | ok x =>
      rw [hr] at ew
      dsimp only at ew
      split at ew
      · cases ew
      · rename_i v ev
        split at ew
        · cases ew
        · rename_i hc
          cases ew
          have := readWrite_ok hr
          rw [← (resolvePre_ok ev).1, ← (resolvePre_ok ev).2] at this
          exact ⟨this.1, this.2, hc⟩
  · obtain ⟨x, hx, ew⟩ := h2 w hw
    obtain ⟨p, hp, rfl⟩ := List.mem_map.1 hx
    split at ew
    · cases ew
    · rename_i v ev
      split at ew
      · cases ew
      · cases ew
        exact good _ p _ hp ev
  · intro w hw
    unfold goodOf at hw
    obtain ⟨x, hx, ew⟩ := List.mem_filterMap.1 hw
    obtain ⟨p, hp, rfl⟩ := List.mem_map.1 hx
    split at ew
    · rename_i v ev
      cases ew
      exact good _ p _ hp ev
    · cases ew

theorem setVerb_keeps {s0 s : State} (h : Keeps s0 s) (rc : Recv) (as : List Assign) : KeepsX s0 (setVerb rc as s) := by
  unfold setVerb
  cases hr : readWrites s rc as with
  | error e => exact .error _ _
  | ok ws => exact .ok (applyAll_keeps h _ (readWrites_ok hr).1)

theorem setLine_keeps {s0 s : State} (h : Keeps s0 s) (fault : Bool) (want : Cmd → Bool) : Keeps s0 (setLine fault want s) := by
  unfold setLine
  refine steward_keeps h _ _ _ _ fun r c t _ ht => ?_
  split
  · exact setVerb_keeps ht _ _
  · exact .error _ _

theorem setKind_keeps {s0 s : State} (h : Keeps s0 s) (fault : Bool) (kind : Obj → String → Bool) :
    Keeps s0 (setKind fault kind s) := by
  unfold setKind
  repeat' first
    | with_reducible assumption | with_reducible apply setLine_keeps | with_reducible refine Keeps.ite ?_ ?_ | split
    | dsimp only

/-- R510: a line that writes SYS.KEYPROG is executed only while the slot is empty. -/
theorem setVerb_keySlot {s : State} {rc : Recv} {as : List Assign} {d : Done} (hk : setHas keyKind (.set as) = true)
    (e : setVerb rc as s = .ok d) : s.boot.keySlot = .empty := by
  unfold setVerb at e
  cases hr : readWrites s rc as with
  | error k => rw [hr] at e; cases e
  | ok ws =>
    obtain ⟨_, t, ht, ha⟩ := readWrites_ok hr
    simp only [setHas, List.any_eq_true] at hk
    obtain ⟨a, ham, hko⟩ := hk
    obtain ⟨w, _, ho, hp, hc⟩ := ha a ham
    have hobj : a.path.obj = .ok w.obj := by
      unfold theObj at ho
      split at ho
      · rename_i x hx
        cases ho
        exact hx
      · cases ho
    rw [hobj] at hko
    dsimp only at hko
    unfold keyKind at hko
    split at hko
    · rename_i hs
      have hn : a.path.prop = "KEYPROG" := by simpa using hko
      rw [hs, hn] at hp
      have hw : w.prop.name = "KEYPROG" := by
        unfold propOf at hp
        rw [if_neg (by decide)] at hp
        have := List.find?_some hp
        simpa using this
      unfold conflictOf at hc
      rw [hs] at hc
      dsimp only at hc
      rw [hw] at hc
      have hct : t.boot.keyTest = none := by simpa [sysConflict] using hc
      by_cases hne : s.boot.keySlot = .empty
      · exact hne
      · have := (ht.fuses hne).1
        unfold Boot.keyTest at hct
        rw [this] at hct
        simp at hct
    · cases hko

theorem keyVerb_keeps {s0 s : State} (h :
    Keeps s0 s) (ok : Bool) (rc : Recv) (as : List Assign) (hk : setHas keyKind (.set as) = true) :
    KeepsX s0 (keyVerb ok rc as s) := by
  unfold keyVerb
  cases hv : setVerb rc as s with
  | error e => exact .error _ _
  | ok d =>
    have he := setVerb_keySlot hk hv
    have burn {t : State} (ht : Keeps s0 t) (b : Bool) : Keeps s0 (t.modBoot (Boot.burn b)) := by
      refine ⟨ht.pending, ht.fifo, ht.tb, ht.store, fun hd => ?_, ht.bel, fun hne => absurd ?_ hne⟩
      · have : (Boot.burn b t.boot).dl = t.boot.dl := by unfold Boot.burn; split <;> rfl
        show (Boot.burn b t.boot).dl.ok
        rw [this]
        exact ht.dl hd
      · rw [← (h.fuses hne).1]; exact he
    dsimp only [bind, Except.bind]
    split
    · exact .ok (burn (setVerb_keeps h _ _ d hv) true)
    · exact .ok (burn h false)

end Sys2Proof.Machine
end

