-- ==== Sys2Proof/Laws/KeepsService.lean ====
section
/-! SUPPORT. Lemmas of Laws/Keeps.lean for service, restart and start-up. -/
namespace Sys2Proof.Machine

theorem drainVerb_keeps {s0 s : State} (h : Keeps s0 s) (o : ObjArg) (discard : Bool) : KeepsX s0 (drainVerb o discard s) := by
  unfold drainVerb
  repeat' first
    | exact KeepsX.error _ _ | with_reducible assumption | with_reducible apply done_keeps
    | with_reducible apply drainCluster_keeps | with_reducible refine KeepsX.bind (fun _ => ?_)
    | with_reducible refine KeepsX.ok ?_ | split | dsimp only

theorem powerVerb_keeps {s0 s : State} (h : Keeps s0 s) (o : ObjArg) (on : Bool) : KeepsX s0 (powerVerb o on s) := by
  unfold powerVerb
  repeat' first
    | exact KeepsX.error _ _ | with_reducible assumption | with_reducible apply done_keeps
    | with_reducible apply powerOnCluster_keeps | with_reducible apply powerOffCluster_keeps
    | with_reducible refine KeepsX.bind (fun _ => ?_) | with_reducible refine KeepsX.ok ?_ | split | dsimp only

theorem joinVerb_keeps {s0 s : State} (h : Keeps s0 s) (rc : Recv) (o : ObjArg) (v : Option RawVal) :
    KeepsX s0 (joinVerb rc o v s) := by
  unfold joinVerb
  repeat' first
    | exact KeepsX.error _ _ | with_reducible assumption | with_reducible apply done_keeps
    | with_reducible apply joinCluster_keeps | with_reducible refine KeepsX.bind (fun _ => ?_)
    | with_reducible refine KeepsX.ok ?_ | split | dsimp only

theorem resetVerb_keeps {s0 s : State} (h : Keeps s0 s) (k : Fin 8) : KeepsX s0 (resetVerb k s) := by
  unfold resetVerb
  repeat' first
    | exact KeepsX.error _ _ | with_reducible assumption | with_reducible apply done_keeps
    | with_reducible apply resetCluster_keeps | with_reducible refine KeepsX.bind (fun _ => ?_)
    | with_reducible refine KeepsX.ok ?_ | split | dsimp only

theorem doneThen_keeps {s0 s : State} (h : Keeps s0 s) (payload : String) (a : EndAction) :
    KeepsX s0 (doneThen payload a s) := by
  unfold doneThen
  repeat' first
    | exact KeepsX.error _ _ | with_reducible assumption | with_reducible refine KeepsX.bind (fun _ => ?_)
    | with_reducible refine KeepsX.ok ?_ | split | dsimp only

theorem sysResetVerb_keeps {s0 s : State} (h : Keeps s0 s) : KeepsX s0 (sysResetVerb s) := by
  unfold sysResetVerb
  repeat' first
    | exact KeepsX.error _ _ | with_reducible assumption | with_reducible apply doneThen_keeps
    | with_reducible apply modBoot_keeps | exact fun h => h | exact fun _ => ⟨rfl, rfl⟩
    | with_reducible refine KeepsX.bind (fun _ => ?_) | with_reducible refine KeepsX.ok ?_ | split | dsimp only

theorem orderRestart_keeps {s0 s : State} (h : Keeps s0 s) (cause : RestartCause) : Keeps s0 (orderRestart cause s) := by
  unfold orderRestart
  repeat' first
    | with_reducible assumption | with_reducible refine Keeps.ite ?_ ?_ | with_reducible exact Keeps.mk_of h
    | with_reducible exact Keeps.mk_of (by assumption) | split | dsimp only

theorem featuresVerb_keeps {s0 s : State} (h : Keeps s0 s) : KeepsX s0 (featuresVerb s) := by
  unfold featuresVerb
  repeat' first
    | exact KeepsX.error _ _ | with_reducible assumption | with_reducible apply done_keeps
    | with_reducible refine KeepsX.bind (fun _ => ?_) | with_reducible refine KeepsX.ok ?_ | split | dsimp only

theorem versionVerb_keeps {s0 s : State} (h : Keeps s0 s) : KeepsX s0 (versionVerb s) := by
  unfold versionVerb
  repeat' first
    | exact KeepsX.error _ _ | with_reducible assumption | with_reducible apply done_keeps
    | with_reducible refine KeepsX.bind (fun _ => ?_) | with_reducible refine KeepsX.ok ?_ | split | dsimp only

theorem updateVerb_keeps {s0 s : State} (h : Keeps s0 s) : KeepsX s0 (updateVerb s) := by
  unfold updateVerb
  repeat' first
    | exact KeepsX.error _ _ | with_reducible assumption | with_reducible apply doneThen_keeps
    | with_reducible apply orderRestart_keeps | with_reducible apply modBoot_keeps | exact fun h => h
    | exact fun _ => ⟨rfl, rfl⟩ | with_reducible refine KeepsX.bind (fun _ => ?_) | with_reducible refine KeepsX.ok ?_ | split
    | dsimp only

theorem sleepVerb_keeps {s0 s : State} (h : Keeps s0 s) : KeepsX s0 (sleepVerb s) := by
  unfold sleepVerb
  repeat' first
    | exact KeepsX.error _ _ | with_reducible assumption | with_reducible apply doneThen_keeps
    | with_reducible apply modBel_keeps | exact fun h => h | exact fun _ => ⟨rfl, rfl⟩
    | with_reducible refine KeepsX.bind (fun _ => ?_) | with_reducible refine KeepsX.ok ?_ | split | dsimp only

theorem exportVerb_keeps {s0 s : State} (h : Keeps s0 s) (o : ObjArg) : KeepsX s0 (exportVerb o s) := by
  unfold exportVerb
  repeat' first
    | exact KeepsX.error _ _ | with_reducible assumption | with_reducible apply doneLines_keeps
    | with_reducible refine KeepsX.bind (fun _ => ?_) | with_reducible refine KeepsX.ok ?_ | split | dsimp only

theorem importVerb_keeps {s0 s : State} (h : Keeps s0 s) (o : ObjArg) (i : Nat) (n : Nat) (block : List Byte) :
    KeepsX s0 (importVerb o i n block s) := by
  unfold importVerb
  repeat' first
    | exact KeepsX.error _ _ | with_reducible assumption | with_reducible apply modPort_keeps
    | with_reducible apply done_keeps | with_reducible apply swapTable_keeps | with_reducible refine KeepsX.bind (fun _ => ?_)
    | with_reducible refine KeepsX.ok ?_ | split | dsimp only

theorem logVerb_keeps {s0 s : State} (h : Keeps s0 s) : KeepsX s0 (logVerb s) := by
  unfold logVerb
  repeat' first
    | exact KeepsX.error _ _ | with_reducible assumption | with_reducible apply doneLines_keeps
    | with_reducible refine KeepsX.bind (fun _ => ?_) | with_reducible refine KeepsX.ok ?_ | split | dsimp only

theorem restartStart_keeps {s0 s : State} (h : Keeps s0 s) : Keeps s0 (restartStart s) := by
  unfold restartStart
  split
  · extract_lets s1
    have k1 : Keeps s0 s1 := stewardLeaves_keeps h _
    exact .ite (.mk_of k1) h
  · exact h

theorem restartEnd_keeps {s0 s : State} (h : Keeps s0 s) : Keeps s0 (restartEnd s) := by
  unfold restartEnd
  extract_lets waits c s1 s2
  have e (w : Bool) : (s.boot.updated w).dl = s.boot.dl ∧ (s.boot.updated w).keySlot = s.boot.keySlot ∧
      (s.boot.updated w).keyHash = s.boot.keyHash := by
    unfold Boot.updated
    split
    · cases w <;> exact ⟨rfl, rfl, rfl⟩
    · exact ⟨rfl, rfl, rfl⟩
  have k1 : Keeps s0 s1 := h.trans ⟨rfl, id, id, id, fun k => (e waits).1.symm ▸ k, id, fun _ => (e waits).2⟩
  clear_value s1
  have k2 : Keeps s0 s2 := .ite k1 (rotaResume_keeps k1)
  clear_value s2
  exact .ite h (.ite (formEv_keeps (formEv_keeps (raise_keeps k2 _ _) _ _) _ _) (happen_keeps k2 _ _))

theorem acceptHandover_keeps {s0 s : State} (h : Keeps s0 s) (src : Fin 384) (n : Nat) : Keeps s0 (acceptHandover src n s) := by
  unfold acceptHandover
  extract_lets s1 s2
  have k1 : Keeps s0 s1 := modFabric_keeps h _
  exact raiseAt_keeps (.ite (modBel_keeps k1 _ fun h => by simpa [Belfry.ok, stampLog] using h) k1) _ _ _ _

theorem acceptEv_keeps {s0 s : State} (h : Keeps s0 s) (k : Link) (src : Fin 384) : Keeps s0 (acceptEv k src s) := by
  unfold acceptEv
  repeat' first
    | with_reducible assumption | with_reducible apply formEv_keeps | with_reducible refine Keeps.ite ?_ ?_ | split
    | dsimp only

theorem handoverAccept_keeps {s0 s : State} (h : Keeps s0 s) (src : Fin 384) : Keeps s0 (handoverAccept src s) := by
  unfold handoverAccept
  repeat' first
    | with_reducible assumption | with_reducible apply acceptHandover_keeps | with_reducible apply acceptEv_keeps
    | with_reducible refine Keeps.ite ?_ ?_ | split | dsimp only

theorem reset_ok : State.reset.ok := by
  constructor
  · exact ⟨by decide, by decide, by simp [State.reset, Fifo.empty], by simp [State.reset, Fifo.empty]⟩
  · exact ⟨by decide, by decide, by decide⟩
  · exact ⟨trivial, by decide, by simp [State.reset, SegStore.empty]⟩
  · exact ⟨trivial, by simp [State.reset, Boot.default]⟩
  · exact (by decide : (0 : Nat) ≤ 64)

theorem Boot.start_dl (b : Boot) (c : ResetCause) : (b.start c).dl.ok := ⟨trivial, by simp [Boot.start, Boot.default]⟩

theorem powerOnStart_keeps {s0 s : State} (h : Keeps s0 s) : Keeps s0 (powerOnStart s) :=
  h.trans ⟨rfl, fun _ => reset_ok.fifo, fun _ => reset_ok.tb, fun _ => reset_ok.store, fun _ => s.boot.start_dl _,
    fun _ => reset_ok.bel, fun _ => ⟨rfl, rfl⟩⟩

theorem hardwareReset_keeps {s0 s : State} (h : Keeps s0 s) (c : ResetCause) : Keeps s0 (hardwareReset c s) :=
  h.trans ⟨rfl, fun _ => reset_ok.fifo, fun _ => reset_ok.tb, fun _ => reset_ok.store, fun _ => s.boot.start_dl c,
    fun hb => by
      have : (hardwareReset c s).bel.log = s.bel.log.map LogEntry.untimed := rfl
      unfold Belfry.ok
      rw [this, List.length_map]
      exact hb, fun _ => ⟨rfl, rfl⟩⟩

theorem bootStart_keeps {s0 s : State} (h : Keeps s0 s) (bootsel1 : Bool) (bootsel0 : Bool) :
    Keeps s0 (bootStart bootsel1 bootsel0 s) := by
  unfold bootStart
  repeat' first
    | with_reducible assumption | with_reducible apply modBoot_keeps | with_reducible refine Keeps.ite ?_ ?_
    | exact fun h => h | exact fun _ => ⟨rfl, rfl⟩ | split | dsimp only

theorem startImage_keeps {s0 s : State} (h : Keeps s0 s) (src : ImageSrc) (x : Image) : Keeps s0 (startImage src x s) := by
  unfold startImage
  extract_lets rs s2
  have ks2 : Keeps s0 s2 := by repeat' first
    | with_reducible assumption | intro _ _ _ | with_reducible apply modBoot_keeps | with_reducible apply attn_keeps
    | with_reducible apply flushReq_keeps | with_reducible refine Keeps.ite ?_ ?_ | with_reducible refine foldS_keeps ?_ ?_
    | with_reducible exact Keeps.mk_of h | with_reducible exact Keeps.mk_of (by assumption) | exact fun h => h
    | exact fun _ => ⟨rfl, rfl⟩ | split | dsimp only
  clear_value s2
  repeat' first
    | with_reducible assumption | intro _ _ _ | with_reducible apply modBoot_keeps | with_reducible apply attn_keeps
    | with_reducible apply flushReq_keeps | with_reducible refine Keeps.ite ?_ ?_ | with_reducible refine foldS_keeps ?_ ?_
    | with_reducible exact Keeps.mk_of ks2 | with_reducible exact Keeps.mk_of h
    | with_reducible exact Keeps.mk_of (by assumption) | exact fun h => h | exact fun _ => ⟨rfl, rfl⟩ | split | dsimp only

theorem flashDone_keeps {s0 s : State} (h : Keeps s0 s) (x : FlashRead) : Keeps s0 (flashDone x s) := by
  unfold flashDone
  repeat' first
    | with_reducible assumption | with_reducible apply startImage_keeps | with_reducible apply modBoot_keeps
    | with_reducible refine Keeps.ite ?_ ?_ | exact fun h => h | exact fun _ => ⟨rfl, rfl⟩ | split | dsimp only

theorem rom_keeps {s0 s : State} (h : Keeps s0 s) (want : Cmd → Bool) (syn : Cmd → Option SynErr) (run : Cmd → State → Exec)
    (hr : ∀ c (t : State), Keeps s0 t → KeepsX s0 (run c t)) : Keeps s0 (rom want syn run s) := by
  unfold rom
  split
  · exact h
  · split
    · exact h
    · split
      · exact h
      · extract_lets w s1
        have k1 : Keeps s0 s1 := .mk_of h
        clear_value s1
        exact .ite h (settleQueue_keeps (answer_keeps k1 _ _ (phases_keeps (hr _ _ k1) _ _ _)))

theorem loadSizeVerb_keeps {s0 s : State} (h : Keeps s0 s) (v : RawVal) : KeepsX s0 (loadSizeVerb v s) := by
  unfold loadSizeVerb
  split
  · refine done_keeps (modBoot_keeps h _ (fun _ => ?_) fun _ => ⟨rfl, rfl⟩) _
    exact ⟨trivial, by simp⟩
  · exact .error _ _
  · exact .error _ _

theorem Rising.cons_putByte {o a : Nat} {b : Byte} : ∀ {xs : List (Nat × Byte)}, Rising (a :: xs.map (fun x => x.1)) → a < o →
    Rising (a :: (putByte o b xs).map (fun x => x.1))
  | [], _, h => ⟨h, trivial⟩
  | (i, c) :: r, hr, h => by
    unfold putByte
    split
    · exact ⟨h, by assumption, hr.2⟩
    · split
      · rename_i e
        subst e
        exact hr
      · exact ⟨hr.1, Rising.cons_putByte hr.2 (by dsimp only; omega)⟩

theorem putByte_rising {o : Nat} {b : Byte} : ∀ {xs : List (Nat × Byte)}, Rising (xs.map (fun x => x.1)) →
    Rising ((putByte o b xs).map (fun x => x.1))
  | [], _ => trivial
  | (i, c) :: r, h => by
    unfold putByte
    split
    · exact ⟨by assumption, h⟩
    · split
      · rename_i e
        subst e
        exact h
      · exact Rising.cons_putByte h (by dsimp only; omega)

theorem putByte_mem {o : Nat} {b : Byte} {x : Nat × Byte} : ∀ {xs : List (Nat × Byte)}, x ∈ putByte o b xs → x.1 = o ∨ x ∈ xs
  | [], h => by simp only [putByte, List.mem_singleton] at h; exact .inl (by rw [h])
  | (i, c) :: r, h => by
    unfold putByte at h
    split at h
    · rcases List.mem_cons.1 h with e | e
      · exact .inl (by rw [e])
      · exact .inr e
    · split at h
      · rcases List.mem_cons.1 h with e | e
        · exact .inl (by rw [e])
        · simp [e]
      · rcases List.mem_cons.1 h with e | e
        · simp [e]
        · rcases putByte_mem e with k | k <;> simp [k]

theorem putBytes_ok (n o : Nat) : ∀ (xs : List (Byte × Nat)) (m : List (Nat × Byte)), (∀ x ∈ xs, o + x.2 < n) →
    Rising (m.map (fun x => x.1)) → (∀ x ∈ m, x.1 < n) →
    Rising ((xs.foldl (fun m x => putByte (o + x.2) x.1 m) m).map (fun x => x.1)) ∧
      ∀ x ∈ xs.foldl (fun m x => putByte (o + x.2) x.1 m) m, x.1 < n
  | [], _, _, h, k => ⟨h, k⟩
  | x :: xs, m, hx, h, k => putBytes_ok n o xs _ (fun y hy => hx y (by simp [hy])) (putByte_rising h) fun y hy => by
      rcases putByte_mem hy with e | e
      · rw [e]; exact hx x (by simp)
      · exact k y e

theorem loadDataVerb_keeps {s0 s : State} (h : Keeps s0 s) (v : RawVal) (bs : List Byte) : KeepsX s0 (loadDataVerb v bs s) := by
  unfold loadDataVerb
  split
  · split
    · exact .error _ _
    · extract_lets put
      refine done_keeps (modBoot_keeps h _ (fun ⟨h1, h2⟩ => ?_) fun _ => ⟨rfl, rfl⟩) _
      refine putBytes_ok _ _ _ _ (fun x hx => ?_) h1 h2
      have := List.mem_range.1 (List.of_mem_zip hx).2
      dsimp only at this ⊢
      omega
  · exact .error _ _
  · exact .error _ _

theorem loadStatusVerb_keeps {s0 s : State} (h : Keeps s0 s) : KeepsX s0 (loadStatusVerb s) := by
  unfold loadStatusVerb
  repeat' first
    | exact KeepsX.error _ _ | with_reducible assumption | with_reducible apply done_keeps
    | with_reducible refine KeepsX.bind (fun _ => ?_) | with_reducible refine KeepsX.ok ?_ | split | dsimp only

theorem loadGoVerb_keeps {s0 s : State} (h : Keeps s0 s) : KeepsX s0 (loadGoVerb s) := by
  unfold loadGoVerb
  repeat' first
    | exact KeepsX.error _ _ | with_reducible assumption | with_reducible apply done_keeps
    | with_reducible apply startImage_keeps | with_reducible apply modBoot_keeps | exact fun h => h
    | exact fun _ => ⟨rfl, rfl⟩ | with_reducible refine KeepsX.bind (fun _ => ?_) | with_reducible refine KeepsX.ok ?_ | split
    | dsimp only

theorem storeBuilt_keeps {s0 s : State} (h : Keeps s0 s) : Keeps s0 (storeBuilt s) := by
  unfold storeBuilt
  split
  · extract_lets s1
    have k1 : Keeps s0 s1 := modBoot_keeps h _ (fun h => h) fun _ => ⟨rfl, rfl⟩
    exact acquireNext_keeps (.mk_of k1) _
  · exact h

end Sys2Proof.Machine
end

