-- ==== Sys2Proof/Laws/KeepsExec.lean ====
section
/-! SUPPORT. What every command keeps: one lemma for each meaning, and the one for exec and step. -/
namespace Sys2Proof.Machine

/-- Every next state of an outcome keeps what s has. -/
def KeepsO (s : State) (o : Host.Outcome State Fault Refusal) : Prop := ∀ t, o = .next t → Keeps s t

theorem KeepsO.next {s t : State} (h : Keeps s t) : KeepsO s (.next t) := fun _ e => by cases e; exact h

theorem execLineReceived_keeps (d : Nat) (k : Link) (lf : Bool) (span : Nat) (corrupt : Bool) (s : State) :
    KeepsO s (execLineReceived d k lf span corrupt s) := by
  unfold execLineReceived
  refine .next ?_
  repeat' first
    | with_reducible exact Keeps.refl _ | with_reducible apply lineReceived_keeps | with_reducible apply elapse_keeps
    | with_reducible refine Keeps.ite ?_ ?_ | split | dsimp only

theorem execTypedCharacter_keeps (d : Nat) (k : Link) (b : Byte) (s : State) : KeepsO s (execTypedCharacter d k b s) := by
  unfold execTypedCharacter
  refine .next ?_
  repeat' first
    | with_reducible exact Keeps.refl _ | with_reducible apply linkByte_keeps | with_reducible apply elapse_keeps
    | with_reducible refine Keeps.ite ?_ ?_ | split | dsimp only

theorem execEditBackspace_keeps (d : Nat) (k : Link) (s : State) : KeepsO s (execEditBackspace d k s) := by
  unfold execEditBackspace
  refine .next ?_
  repeat' first
    | with_reducible exact Keeps.refl _ | with_reducible apply linkByte_keeps | with_reducible apply elapse_keeps
    | with_reducible refine Keeps.ite ?_ ?_ | split | dsimp only

theorem execEditCtrlU_keeps (d : Nat) (k : Link) (s : State) : KeepsO s (execEditCtrlU d k s) := by
  unfold execEditCtrlU
  refine .next ?_
  repeat' first
    | with_reducible exact Keeps.refl _ | with_reducible apply linkByte_keeps | with_reducible apply elapse_keeps
    | with_reducible refine Keeps.ite ?_ ?_ | split | dsimp only

theorem execEditCtrlC_keeps (d : Nat) (k : Link) (s : State) : KeepsO s (execEditCtrlC d k s) := by
  unfold execEditCtrlC
  refine .next ?_
  repeat' first
    | with_reducible exact Keeps.refl _ | with_reducible apply linkByte_keeps | with_reducible apply elapse_keeps
    | with_reducible refine Keeps.ite ?_ ?_ | split | dsimp only

theorem execEditCtrlR_keeps (d : Nat) (k : Link) (s : State) : KeepsO s (execEditCtrlR d k s) := by
  unfold execEditCtrlR
  refine .next ?_
  repeat' first
    | with_reducible exact Keeps.refl _ | with_reducible apply linkByte_keeps | with_reducible apply elapse_keeps
    | with_reducible refine Keeps.ite ?_ ?_ | split | dsimp only

theorem execEditRecall_keeps (d : Nat) (k : Link) (s : State) : KeepsO s (execEditRecall d k s) := by
  unfold execEditRecall
  refine .next ?_
  repeat' first
    | with_reducible exact Keeps.refl _ | with_reducible apply linkByte_keeps | with_reducible apply elapse_keeps
    | with_reducible refine Keeps.ite ?_ ?_ | split | dsimp only

theorem execConFramingError_keeps (d : Nat) (s : State) : KeepsO s (execConFramingError d s) := by
  unfold execConFramingError
  refine .next ?_
  repeat' first
    | with_reducible exact Keeps.refl _ | with_reducible apply framingError_keeps | with_reducible apply elapse_keeps
    | with_reducible refine Keeps.ite ?_ ?_ | split | dsimp only

theorem execConBreak_keeps (d : Nat) (s : State) : KeepsO s (execConBreak d s) := by
  unfold execConBreak
  refine .next ?_
  repeat' first
    | with_reducible exact Keeps.refl _ | with_reducible apply conBreak_keeps | with_reducible apply elapse_keeps
    | with_reducible refine Keeps.ite ?_ ?_ | split | dsimp only

theorem execAutobaudCharacter_keeps (d : Nat) (cycles : Nat) (readsCr : Bool) (s : State) :
    KeepsO s (execAutobaudCharacter d cycles readsCr s) := by
  unfold execAutobaudCharacter
  refine .next ?_
  repeat' first
    | with_reducible exact Keeps.refl _ | with_reducible apply autobaud_keeps | with_reducible apply elapse_keeps
    | with_reducible refine Keeps.ite ?_ ?_ | split | dsimp only

theorem execHspiCsFall_keeps (d : Nat) (sclkHigh : Bool) (s : State) : KeepsO s (execHspiCsFall d sclkHigh s) := by
  unfold execHspiCsFall
  refine .next ?_
  repeat' first
    | with_reducible exact Keeps.refl _ | with_reducible apply elapse_keeps | with_reducible apply csFall_keeps
    | with_reducible refine Keeps.ite ?_ ?_ | split | dsimp only

theorem execHspiCsRise_keeps (d : CsEnd) (s : State) : KeepsO s (execHspiCsRise d s) := by
  unfold execHspiCsRise
  refine .next ?_
  repeat' first
    | with_reducible exact Keeps.refl _ | with_reducible apply csRise_keeps | with_reducible apply elapse_keeps
    | with_reducible refine Keeps.ite ?_ ?_ | split | dsimp only

theorem execGet_keeps (d : Nat) (fault : Bool) (s : State) : KeepsO s (execGet d fault s) := by
  unfold execGet
  refine .next ?_
  repeat' first
    | with_reducible exact Keeps.refl _ | with_reducible apply steward_keeps | with_reducible apply getVerb_keeps
    | with_reducible apply elapse_keeps | with_reducible refine Keeps.ite ?_ ?_ | (intro _ _ _ _ _) | exact KeepsX.error _ _
    | assumption | split | dsimp only

theorem execSet_keeps (d : Nat) (fault : Bool) (s : State) : KeepsO s (execSet d fault s) := by
  unfold execSet
  refine .next ?_
  repeat' first
    | with_reducible exact Keeps.refl _ | with_reducible apply setLine_keeps | with_reducible apply elapse_keeps
    | with_reducible refine Keeps.ite ?_ ?_ | split | dsimp only

theorem execShowObject_keeps (d : Nat) (fault : Bool) (s : State) : KeepsO s (execShowObject d fault s) := by
  unfold execShowObject
  refine .next ?_
  repeat' first
    | with_reducible exact Keeps.refl _ | with_reducible apply steward_keeps | with_reducible apply showVerb_keeps
    | with_reducible apply elapse_keeps | with_reducible refine Keeps.ite ?_ ?_ | (intro _ _ _ _ _) | exact KeepsX.error _ _
    | assumption | split | dsimp only

theorem execList_keeps (d : Nat) (fault : Bool) (s : State) : KeepsO s (execList d fault s) := by
  unfold execList
  refine .next ?_
  repeat' first
    | with_reducible exact Keeps.refl _ | with_reducible apply steward_keeps | with_reducible apply listVerb_keeps
    | with_reducible apply elapse_keeps | with_reducible refine Keeps.ite ?_ ?_ | (intro _ _ _ _ _) | exact KeepsX.error _ _
    | assumption | split | dsimp only

theorem execHelp_keeps (d : Nat) (fault : Bool) (s : State) : KeepsO s (execHelp d fault s) := by
  unfold execHelp
  refine .next ?_
  repeat' first
    | with_reducible exact Keeps.refl _ | with_reducible apply steward_keeps | with_reducible apply helpVerb_keeps
    | with_reducible apply elapse_keeps | with_reducible refine Keeps.ite ?_ ?_ | (intro _ _ _ _ _) | exact KeepsX.error _ _
    | assumption | split | dsimp only

theorem execSnapshot_keeps (d : Nat) (fault : Bool) (s : State) : KeepsO s (execSnapshot d fault s) := by
  unfold execSnapshot
  refine .next ?_
  repeat' first
    | with_reducible exact Keeps.refl _ | with_reducible apply steward_keeps | with_reducible apply snapshotVerb_keeps
    | with_reducible apply elapse_keeps | with_reducible refine Keeps.ite ?_ ?_ | (intro _ _ _ _ _) | exact KeepsX.error _ _
    | assumption | split | dsimp only

theorem execFire_keeps (d : Nat) (fault : Bool) (s : State) : KeepsO s (execFire d fault s) := by
  unfold execFire
  refine .next ?_
  repeat' first
    | with_reducible exact Keeps.refl _ | with_reducible apply steward_keeps | with_reducible apply fireVerb_keeps
    | with_reducible apply elapse_keeps | with_reducible refine Keeps.ite ?_ ?_ | (intro _ _ _ _ _) | exact KeepsX.error _ _
    | assumption | split | dsimp only

theorem execArm_keeps (d : Nat) (fault : Bool) (s : State) : KeepsO s (execArm d fault s) := by
  unfold execArm
  refine .next ?_
  repeat' first
    | with_reducible exact Keeps.refl _ | with_reducible apply steward_keeps | with_reducible apply armVerb_keeps
    | with_reducible apply elapse_keeps | with_reducible refine Keeps.ite ?_ ?_ | (intro _ _ _ _ _) | exact KeepsX.error _ _
    | assumption | split | dsimp only

theorem execDisarm_keeps (d : Nat) (fault : Bool) (s : State) : KeepsO s (execDisarm d fault s) := by
  unfold execDisarm
  refine .next ?_
  repeat' first
    | with_reducible exact Keeps.refl _ | with_reducible apply steward_keeps | with_reducible apply disarmVerb_keeps
    | with_reducible apply elapse_keeps | with_reducible refine Keeps.ite ?_ ?_ | (intro _ _ _ _ _) | exact KeepsX.error _ _
    | assumption | split | dsimp only

theorem execHalt_keeps (d : Nat) (fault : Bool) (s : State) : KeepsO s (execHalt d fault s) := by
  unfold execHalt
  refine .next ?_
  repeat' first
    | with_reducible exact Keeps.refl _ | with_reducible apply steward_keeps | with_reducible apply haltVerb_keeps
    | with_reducible apply elapse_keeps | with_reducible refine Keeps.ite ?_ ?_ | (intro _ _ _ _ _) | exact KeepsX.error _ _
    | assumption | split | dsimp only

theorem execStep_keeps (d : Nat) (fault : Bool) (s : State) : KeepsO s (execStep d fault s) := by
  unfold execStep
  refine .next ?_
  repeat' first
    | with_reducible exact Keeps.refl _ | with_reducible apply steward_keeps | with_reducible apply stepVerb_keeps
    | with_reducible apply elapse_keeps | with_reducible refine Keeps.ite ?_ ?_ | (intro _ _ _ _ _) | exact KeepsX.error _ _
    | assumption | split | dsimp only

theorem execMark_keeps (d : Nat) (fault : Bool) (s : State) : KeepsO s (execMark d fault s) := by
  unfold execMark
  refine .next ?_
  repeat' first
    | with_reducible exact Keeps.refl _ | with_reducible apply steward_keeps | with_reducible apply markVerb_keeps
    | with_reducible apply elapse_keeps | with_reducible refine Keeps.ite ?_ ?_ | (intro _ _ _ _ _) | exact KeepsX.error _ _
    | assumption | split | dsimp only

theorem execSched_keeps (d : Nat) (fault : Bool) (s : State) : KeepsO s (execSched d fault s) := by
  unfold execSched
  refine .next ?_
  repeat' first
    | with_reducible exact Keeps.refl _ | with_reducible apply steward_keeps | with_reducible apply schedVerb_keeps
    | with_reducible apply elapse_keeps | with_reducible refine Keeps.ite ?_ ?_ | (intro _ _ _ _ _) | exact KeepsX.error _ _
    | assumption | split | dsimp only

theorem execCancel_keeps (d : Nat) (fault : Bool) (s : State) : KeepsO s (execCancel d fault s) := by
  unfold execCancel
  refine .next ?_
  repeat' first
    | with_reducible exact Keeps.refl _ | with_reducible apply steward_keeps | with_reducible apply cancelVerb_keeps
    | with_reducible apply elapse_keeps | with_reducible refine Keeps.ite ?_ ?_ | (intro _ _ _ _ _) | exact KeepsX.error _ _
    | assumption | split | dsimp only

theorem execStart_keeps (d : Nat) (fault : Bool) (s : State) : KeepsO s (execStart d fault s) := by
  unfold execStart
  refine .next ?_
  repeat' first
    | with_reducible exact Keeps.refl _ | with_reducible apply steward_keeps | with_reducible apply startVerb_keeps
    | with_reducible apply elapse_keeps | with_reducible refine Keeps.ite ?_ ?_ | (intro _ _ _ _ _) | exact KeepsX.error _ _
    | assumption | split | dsimp only

theorem execAbort_keeps (d : Nat) (fault : Bool) (s : State) : KeepsO s (execAbort d fault s) := by
  unfold execAbort
  refine .next ?_
  repeat' first
    | with_reducible exact Keeps.refl _ | with_reducible apply steward_keeps | with_reducible apply abortVerb_keeps
    | with_reducible apply elapse_keeps | with_reducible refine Keeps.ite ?_ ?_ | (intro _ _ _ _ _) | exact KeepsX.error _ _
    | assumption | split | dsimp only

theorem execDrain_keeps (d : Nat) (fault : Bool) (s : State) : KeepsO s (execDrain d fault s) := by
  unfold execDrain
  refine .next ?_
  repeat' first
    | with_reducible exact Keeps.refl _ | with_reducible apply steward_keeps | with_reducible apply drainVerb_keeps
    | with_reducible apply elapse_keeps | with_reducible refine Keeps.ite ?_ ?_ | (intro _ _ _ _ _) | exact KeepsX.error _ _
    | assumption | split | dsimp only

theorem execPowerOff_keeps (d : Nat) (fault : Bool) (s : State) : KeepsO s (execPowerOff d fault s) := by
  unfold execPowerOff
  refine .next ?_
  repeat' first
    | with_reducible exact Keeps.refl _ | with_reducible apply steward_keeps | with_reducible apply powerVerb_keeps
    | with_reducible apply elapse_keeps | with_reducible refine Keeps.ite ?_ ?_ | (intro _ _ _ _ _) | exact KeepsX.error _ _
    | assumption | split | dsimp only

theorem execPowerOn_keeps (d : Nat) (fault : Bool) (s : State) : KeepsO s (execPowerOn d fault s) := by
  unfold execPowerOn
  refine .next ?_
  repeat' first
    | with_reducible exact Keeps.refl _ | with_reducible apply steward_keeps | with_reducible apply powerVerb_keeps
    | with_reducible apply elapse_keeps | with_reducible refine Keeps.ite ?_ ?_ | (intro _ _ _ _ _) | exact KeepsX.error _ _
    | assumption | split | dsimp only

theorem execJoin_keeps (d : Nat) (fault : Bool) (s : State) : KeepsO s (execJoin d fault s) := by
  unfold execJoin
  refine .next ?_
  repeat' first
    | with_reducible exact Keeps.refl _ | with_reducible apply steward_keeps | with_reducible apply joinVerb_keeps
    | with_reducible apply elapse_keeps | with_reducible refine Keeps.ite ?_ ?_ | (intro _ _ _ _ _) | exact KeepsX.error _ _
    | assumption | split | dsimp only

theorem execProg_keeps (d : Nat) (fault : Bool) (s : State) : KeepsO s (execProg d fault s) := by
  unfold execProg
  refine .next ?_
  repeat' first
    | with_reducible exact Keeps.refl _ | with_reducible apply steward_keeps | with_reducible apply progVerb_keeps
    | with_reducible apply elapse_keeps | with_reducible refine Keeps.ite ?_ ?_ | (intro _ _ _ _ _) | exact KeepsX.error _ _
    | assumption | split | dsimp only

theorem execProgClear_keeps (d : Nat) (fault : Bool) (s : State) : KeepsO s (execProgClear d fault s) := by
  unfold execProgClear
  refine .next ?_
  repeat' first
    | with_reducible exact Keeps.refl _ | with_reducible apply steward_keeps | with_reducible apply progClearVerb_keeps
    | with_reducible apply elapse_keeps | with_reducible refine Keeps.ite ?_ ?_ | (intro _ _ _ _ _) | exact KeepsX.error _ _
    | assumption | split | dsimp only

theorem execClusterReset_keeps (d : Nat) (fault : Bool) (s : State) : KeepsO s (execClusterReset d fault s) := by
  unfold execClusterReset
  refine .next ?_
  repeat' first
    | with_reducible exact Keeps.refl _ | with_reducible apply steward_keeps | with_reducible apply resetVerb_keeps
    | with_reducible apply elapse_keeps | with_reducible refine Keeps.ite ?_ ?_ | (intro _ _ _ _ _) | exact KeepsX.error _ _
    | assumption | split | dsimp only

theorem execSysReset_keeps (d : Nat) (fault : Bool) (s : State) : KeepsO s (execSysReset d fault s) := by
  unfold execSysReset
  refine .next ?_
  repeat' first
    | with_reducible exact Keeps.refl _ | with_reducible apply steward_keeps | with_reducible apply sysResetVerb_keeps
    | with_reducible apply elapse_keeps | with_reducible refine Keeps.ite ?_ ?_ | (intro _ _ _ _ _) | exact KeepsX.error _ _
    | assumption | split | dsimp only

theorem execSysFeatures_keeps (d : Nat) (fault : Bool) (s : State) : KeepsO s (execSysFeatures d fault s) := by
  unfold execSysFeatures
  refine .next ?_
  repeat' first
    | with_reducible exact Keeps.refl _ | with_reducible apply steward_keeps | with_reducible apply featuresVerb_keeps
    | with_reducible apply elapse_keeps | with_reducible refine Keeps.ite ?_ ?_ | (intro _ _ _ _ _) | exact KeepsX.error _ _
    | assumption | split | dsimp only

theorem execSysVersion_keeps (d : Nat) (fault : Bool) (s : State) : KeepsO s (execSysVersion d fault s) := by
  unfold execSysVersion
  refine .next ?_
  repeat' first
    | with_reducible exact Keeps.refl _ | with_reducible apply steward_keeps | with_reducible apply versionVerb_keeps
    | with_reducible apply elapse_keeps | with_reducible refine Keeps.ite ?_ ?_ | (intro _ _ _ _ _) | exact KeepsX.error _ _
    | assumption | split | dsimp only

theorem execSysRestart_keeps (d : Nat) (fault : Bool) (s : State) : KeepsO s (execSysRestart d fault s) := by
  unfold execSysRestart
  refine .next ?_
  repeat' first
    | with_reducible exact Keeps.refl _ | with_reducible apply steward_keeps | with_reducible apply doneThen_keeps
    | with_reducible apply orderRestart_keeps | with_reducible apply elapse_keeps | with_reducible refine Keeps.ite ?_ ?_
    | (intro _ _ _ _ _) | exact KeepsX.error _ _ | assumption | split | dsimp only

theorem execSysUpdate_keeps (d : Nat) (fault : Bool) (s : State) : KeepsO s (execSysUpdate d fault s) := by
  unfold execSysUpdate
  refine .next ?_
  repeat' first
    | with_reducible exact Keeps.refl _ | with_reducible apply steward_keeps | with_reducible apply updateVerb_keeps
    | with_reducible apply elapse_keeps | with_reducible refine Keeps.ite ?_ ?_ | (intro _ _ _ _ _) | exact KeepsX.error _ _
    | assumption | split | dsimp only

theorem execSysSleep_keeps (d : Nat) (fault : Bool) (s : State) : KeepsO s (execSysSleep d fault s) := by
  unfold execSysSleep
  refine .next ?_
  repeat' first
    | with_reducible exact Keeps.refl _ | with_reducible apply steward_keeps | with_reducible apply sleepVerb_keeps
    | with_reducible apply elapse_keeps | with_reducible refine Keeps.ite ?_ ?_ | (intro _ _ _ _ _) | exact KeepsX.error _ _
    | assumption | split | dsimp only

theorem execCalExport_keeps (d : Nat) (fault : Bool) (s : State) : KeepsO s (execCalExport d fault s) := by
  unfold execCalExport
  refine .next ?_
  repeat' first
    | with_reducible exact Keeps.refl _ | with_reducible apply steward_keeps | with_reducible apply exportVerb_keeps
    | with_reducible apply elapse_keeps | with_reducible refine Keeps.ite ?_ ?_ | (intro _ _ _ _ _) | exact KeepsX.error _ _
    | assumption | split | dsimp only

theorem execCalImport_keeps (d : Nat) (fault : Bool) (s : State) : KeepsO s (execCalImport d fault s) := by
  unfold execCalImport
  refine .next ?_
  repeat' first
    | with_reducible exact Keeps.refl _ | with_reducible apply elapse_keeps | with_reducible apply steward_keeps
    | with_reducible apply importVerb_keeps | with_reducible refine Keeps.ite ?_ ?_ | (intro _ _ _ _ _)
    | exact KeepsX.error _ _ | assumption | split | dsimp only

theorem execSegDefine_keeps (d : Nat) (fault : Bool) (s : State) : KeepsO s (execSegDefine d fault s) := by
  unfold execSegDefine
  refine .next ?_
  repeat' first
    | with_reducible exact Keeps.refl _ | with_reducible apply steward_keeps | with_reducible apply segDefineVerb_keeps
    | with_reducible apply elapse_keeps | with_reducible refine Keeps.ite ?_ ?_ | (intro _ _ _ _ _) | exact KeepsX.error _ _
    | assumption | split | dsimp only

theorem execSegFree_keeps (d : Nat) (fault : Bool) (s : State) : KeepsO s (execSegFree d fault s) := by
  unfold execSegFree
  refine .next ?_
  repeat' first
    | with_reducible exact Keeps.refl _ | with_reducible apply steward_keeps | with_reducible apply segFreeVerb_keeps
    | with_reducible apply elapse_keeps | with_reducible refine Keeps.ite ?_ ?_ | (intro _ _ _ _ _) | exact KeepsX.error _ _
    | assumption | split | dsimp only

theorem execBelLog_keeps (d : Nat) (fault : Bool) (s : State) : KeepsO s (execBelLog d fault s) := by
  unfold execBelLog
  refine .next ?_
  repeat' first
    | with_reducible exact Keeps.refl _ | with_reducible apply steward_keeps | with_reducible apply logVerb_keeps
    | with_reducible apply elapse_keeps | with_reducible refine Keeps.ite ?_ ?_ | (intro _ _ _ _ _) | exact KeepsX.error _ _
    | assumption | split | dsimp only

theorem execBelClear_keeps (d : Nat) (fault : Bool) (s : State) : KeepsO s (execBelClear d fault s) := by
  unfold execBelClear
  refine .next ?_
  repeat' first
    | with_reducible exact Keeps.refl _ | with_reducible apply steward_keeps | with_reducible apply done_keeps
    | with_reducible apply clearLog_keeps | with_reducible apply elapse_keeps | with_reducible refine Keeps.ite ?_ ?_
    | (intro _ _ _ _ _) | exact KeepsX.error _ _ | assumption | split | dsimp only

theorem execLoadSize_keeps (d : Nat) (s : State) : KeepsO s (execLoadSize d s) := by
  unfold execLoadSize
  refine .next ?_
  repeat' first
    | with_reducible exact Keeps.refl _ | with_reducible apply rom_keeps | with_reducible apply loadSizeVerb_keeps
    | with_reducible apply elapse_keeps | with_reducible refine Keeps.ite ?_ ?_ | (intro _ _ _) | exact KeepsX.error _ _
    | assumption | split | dsimp only

theorem execLoadData_keeps (d : Nat) (s : State) : KeepsO s (execLoadData d s) := by
  unfold execLoadData
  refine .next ?_
  repeat' first
    | with_reducible exact Keeps.refl _ | with_reducible apply rom_keeps | with_reducible apply loadDataVerb_keeps
    | with_reducible apply elapse_keeps | with_reducible refine Keeps.ite ?_ ?_ | (intro _ _ _) | exact KeepsX.error _ _
    | assumption | split | dsimp only

theorem execLoadStatus_keeps (d : Nat) (s : State) : KeepsO s (execLoadStatus d s) := by
  unfold execLoadStatus
  refine .next ?_
  repeat' first
    | with_reducible exact Keeps.refl _ | with_reducible apply rom_keeps | with_reducible apply loadStatusVerb_keeps
    | with_reducible apply elapse_keeps | with_reducible refine Keeps.ite ?_ ?_ | (intro _ _ _) | exact KeepsX.error _ _
    | assumption | split | dsimp only

theorem execLoadGo_keeps (d : Nat) (s : State) : KeepsO s (execLoadGo d s) := by
  unfold execLoadGo
  refine .next ?_
  repeat' first
    | with_reducible exact Keeps.refl _ | with_reducible apply rom_keeps | with_reducible apply loadGoVerb_keeps
    | with_reducible apply elapse_keeps | with_reducible refine Keeps.ite ?_ ?_ | (intro _ _ _) | exact KeepsX.error _ _
    | assumption | split | dsimp only

theorem execSetLinkMode_keeps (d : Nat) (fault : Bool) (s : State) : KeepsO s (execSetLinkMode d fault s) := by
  unfold execSetLinkMode
  refine .next ?_
  repeat' first
    | with_reducible exact Keeps.refl _ | with_reducible apply setKind_keeps | with_reducible apply elapse_keeps
    | with_reducible refine Keeps.ite ?_ ?_ | split | dsimp only

theorem execSetConBaud_keeps (d : Nat) (fault : Bool) (s : State) : KeepsO s (execSetConBaud d fault s) := by
  unfold execSetConBaud
  refine .next ?_
  repeat' first
    | with_reducible exact Keeps.refl _ | with_reducible apply setKind_keeps | with_reducible apply elapse_keeps
    | with_reducible refine Keeps.ite ?_ ?_ | split | dsimp only

theorem execSetTimefmt_keeps (d : Nat) (fault : Bool) (s : State) : KeepsO s (execSetTimefmt d fault s) := by
  unfold execSetTimefmt
  refine .next ?_
  repeat' first
    | with_reducible exact Keeps.refl _ | with_reducible apply setKind_keeps | with_reducible apply elapse_keeps
    | with_reducible refine Keeps.ite ?_ ?_ | split | dsimp only

theorem execSetSpEnable_keeps (d : Nat) (fault : Bool) (s : State) : KeepsO s (execSetSpEnable d fault s) := by
  unfold execSetSpEnable
  refine .next ?_
  repeat' first
    | with_reducible exact Keeps.refl _ | with_reducible apply setKind_keeps | with_reducible apply elapse_keeps
    | with_reducible refine Keeps.ite ?_ ?_ | split | dsimp only

theorem execSetAxisConfig_keeps (d : Nat) (fault : Bool) (s : State) : KeepsO s (execSetAxisConfig d fault s) := by
  unfold execSetAxisConfig
  refine .next ?_
  repeat' first
    | with_reducible exact Keeps.refl _ | with_reducible apply setKind_keeps | with_reducible apply elapse_keeps
    | with_reducible refine Keeps.ite ?_ ?_ | split | dsimp only

theorem execSetAxisRunahead_keeps (d : Nat) (fault : Bool) (s : State) : KeepsO s (execSetAxisRunahead d fault s) := by
  unfold execSetAxisRunahead
  refine .next ?_
  repeat' first
    | with_reducible exact Keeps.refl _ | with_reducible apply setKind_keeps | with_reducible apply elapse_keeps
    | with_reducible refine Keeps.ite ?_ ?_ | split | dsimp only

theorem execSetTaskRoutes_keeps (d : Nat) (fault : Bool) (s : State) : KeepsO s (execSetTaskRoutes d fault s) := by
  unfold execSetTaskRoutes
  refine .next ?_
  repeat' first
    | with_reducible exact Keeps.refl _ | with_reducible apply setKind_keeps | with_reducible apply elapse_keeps
    | with_reducible refine Keeps.ite ?_ ?_ | split | dsimp only

theorem execSetTaskConfonly_keeps (d : Nat) (fault : Bool) (s : State) : KeepsO s (execSetTaskConfonly d fault s) := by
  unfold execSetTaskConfonly
  refine .next ?_
  repeat' first
    | with_reducible exact Keeps.refl _ | with_reducible apply setKind_keeps | with_reducible apply elapse_keeps
    | with_reducible refine Keeps.ite ?_ ?_ | split | dsimp only

theorem execSetMfEnable_keeps (d : Nat) (fault : Bool) (s : State) : KeepsO s (execSetMfEnable d fault s) := by
  unfold execSetMfEnable
  refine .next ?_
  repeat' first
    | with_reducible exact Keeps.refl _ | with_reducible apply setKind_keeps | with_reducible apply elapse_keeps
    | with_reducible refine Keeps.ite ?_ ?_ | split | dsimp only

theorem execSetMfStatsClear_keeps (d : Nat) (fault : Bool) (s : State) : KeepsO s (execSetMfStatsClear d fault s) := by
  unfold execSetMfStatsClear
  refine .next ?_
  repeat' first
    | with_reducible exact Keeps.refl _ | with_reducible apply setKind_keeps | with_reducible apply elapse_keeps
    | with_reducible refine Keeps.ite ?_ ?_ | split | dsimp only

theorem execSetPortMode_keeps (d : Nat) (fault : Bool) (s : State) : KeepsO s (execSetPortMode d fault s) := by
  unfold execSetPortMode
  refine .next ?_
  repeat' first
    | with_reducible exact Keeps.refl _ | with_reducible apply setKind_keeps | with_reducible apply elapse_keeps
    | with_reducible refine Keeps.ite ?_ ?_ | split | dsimp only

theorem execSetToneFtw_keeps (d : Nat) (fault : Bool) (s : State) : KeepsO s (execSetToneFtw d fault s) := by
  unfold execSetToneFtw
  refine .next ?_
  repeat' first
    | with_reducible exact Keeps.refl _ | with_reducible apply setKind_keeps | with_reducible apply elapse_keeps
    | with_reducible refine Keeps.ite ?_ ?_ | split | dsimp only

theorem execSetToneAt_keeps (d : Nat) (fault : Bool) (s : State) : KeepsO s (execSetToneAt d fault s) := by
  unfold execSetToneAt
  refine .next ?_
  repeat' first
    | with_reducible exact Keeps.refl _ | with_reducible apply setKind_keeps | with_reducible apply elapse_keeps
    | with_reducible refine Keeps.ite ?_ ?_ | split | dsimp only

theorem execSetIostd_keeps (d : Nat) (fault : Bool) (s : State) : KeepsO s (execSetIostd d fault s) := by
  unfold execSetIostd
  refine .next ?_
  repeat' first
    | with_reducible exact Keeps.refl _ | with_reducible apply setKind_keeps | with_reducible apply elapse_keeps
    | with_reducible refine Keeps.ite ?_ ?_ | split | dsimp only

theorem execSetThreshold_keeps (d : Nat) (fault : Bool) (s : State) : KeepsO s (execSetThreshold d fault s) := by
  unfold execSetThreshold
  refine .next ?_
  repeat' first
    | with_reducible exact Keeps.refl _ | with_reducible apply setKind_keeps | with_reducible apply elapse_keeps
    | with_reducible refine Keeps.ite ?_ ?_ | split | dsimp only

theorem execSetRefActive_keeps (d : Nat) (fault : Bool) (s : State) : KeepsO s (execSetRefActive d fault s) := by
  unfold execSetRefActive
  refine .next ?_
  repeat' first
    | with_reducible exact Keeps.refl _ | with_reducible apply setKind_keeps | with_reducible apply elapse_keeps
    | with_reducible refine Keeps.ite ?_ ?_ | split | dsimp only

theorem execSetRefInput_keeps (d : Nat) (fault : Bool) (s : State) : KeepsO s (execSetRefInput d fault s) := by
  unfold execSetRefInput
  refine .next ?_
  repeat' first
    | with_reducible exact Keeps.refl _ | with_reducible apply setKind_keeps | with_reducible apply elapse_keeps
    | with_reducible refine Keeps.ite ?_ ?_ | split | dsimp only

theorem execSetRefBw_keeps (d : Nat) (fault : Bool) (s : State) : KeepsO s (execSetRefBw d fault s) := by
  unfold execSetRefBw
  refine .next ?_
  repeat' first
    | with_reducible exact Keeps.refl _ | with_reducible apply setKind_keeps | with_reducible apply elapse_keeps
    | with_reducible refine Keeps.ite ?_ ?_ | split | dsimp only

theorem execSetCalPeriod_keeps (d : Nat) (fault : Bool) (s : State) : KeepsO s (execSetCalPeriod d fault s) := by
  unfold execSetCalPeriod
  refine .next ?_
  repeat' first
    | with_reducible exact Keeps.refl _ | with_reducible apply setKind_keeps | with_reducible apply elapse_keeps
    | with_reducible refine Keeps.ite ?_ ?_ | split | dsimp only

theorem execSetCalHold_keeps (d : Nat) (fault : Bool) (s : State) : KeepsO s (execSetCalHold d fault s) := by
  unfold execSetCalHold
  refine .next ?_
  repeat' first
    | with_reducible exact Keeps.refl _ | with_reducible apply setKind_keeps | with_reducible apply elapse_keeps
    | with_reducible refine Keeps.ite ?_ ?_ | split | dsimp only

theorem execSetBelAlertClear_keeps (d : Nat) (fault : Bool) (s : State) : KeepsO s (execSetBelAlertClear d fault s) := by
  unfold execSetBelAlertClear
  refine .next ?_
  repeat' first
    | with_reducible exact Keeps.refl _ | with_reducible apply setKind_keeps | with_reducible apply elapse_keeps
    | with_reducible refine Keeps.ite ?_ ?_ | split | dsimp only

theorem execSetBelRule_keeps (d : Nat) (fault : Bool) (s : State) : KeepsO s (execSetBelRule d fault s) := by
  unfold execSetBelRule
  refine .next ?_
  repeat' first
    | with_reducible exact Keeps.refl _ | with_reducible apply setKind_keeps | with_reducible apply elapse_keeps
    | with_reducible refine Keeps.ite ?_ ?_ | split | dsimp only

theorem execSetSyncRole_keeps (d : Nat) (fault : Bool) (s : State) : KeepsO s (execSetSyncRole d fault s) := by
  unfold execSetSyncRole
  refine .next ?_
  repeat' first
    | with_reducible exact Keeps.refl _ | with_reducible apply setKind_keeps | with_reducible apply elapse_keeps
    | with_reducible refine Keeps.ite ?_ ?_ | split | dsimp only

theorem execSetSyncDelay_keeps (d : Nat) (fault : Bool) (s : State) : KeepsO s (execSetSyncDelay d fault s) := by
  unfold execSetSyncDelay
  refine .next ?_
  repeat' first
    | with_reducible exact Keeps.refl _ | with_reducible apply setKind_keeps | with_reducible apply elapse_keeps
    | with_reducible refine Keeps.ite ?_ ?_ | split | dsimp only

theorem execKeyProgram_keeps (d : Nat) (fault : Bool) (readBackOk : Bool) (s : State) :
    KeepsO s (execKeyProgram d fault readBackOk s) := by
  unfold execKeyProgram
  refine .next ?_
  repeat' first
    | with_reducible exact Keeps.refl _ | with_reducible apply steward_keeps | with_reducible apply keyVerb_keeps
    | with_reducible apply elapse_keeps | with_reducible refine Keeps.ite ?_ ?_ | (intro _ _ _ _ _) | exact KeepsX.error _ _
    | assumption | split | dsimp only

theorem execHandoverAccept_keeps (d : Nat) (src : Fin 384) (s : State) : KeepsO s (execHandoverAccept d src s) := by
  unfold execHandoverAccept
  refine .next ?_
  repeat' first
    | with_reducible exact Keeps.refl _ | with_reducible apply handoverAccept_keeps | with_reducible apply elapse_keeps
    | with_reducible refine Keeps.ite ?_ ?_ | split | dsimp only

theorem execRouteDelivery_keeps (d : Nat) (k : Nat) (s : State) : KeepsO s (execRouteDelivery d k s) := by
  unfold execRouteDelivery
  refine .next ?_
  repeat' first
    | with_reducible exact Keeps.refl _ | with_reducible apply routeDelivery_keeps | with_reducible apply elapse_keeps
    | with_reducible refine Keeps.ite ?_ ?_ | split | dsimp only

theorem execSpLaneLock_keeps (d : Nat) (r : LaneSeen) (s : State) :
    KeepsO s (execSpLaneLock d r s) := by
  unfold execSpLaneLock
  refine .next ?_
  repeat' first
    | with_reducible exact Keeps.refl _ | with_reducible apply laneLock_keeps | with_reducible apply elapse_keeps
    | with_reducible refine Keeps.ite ?_ ?_ | split | dsimp only

theorem execSpLaneLoseLock_keeps (d : Nat) (r : LaneSeen) (s : State) :
    KeepsO s (execSpLaneLoseLock d r s) := by
  unfold execSpLaneLoseLock
  refine .next ?_
  repeat' first
    | with_reducible exact Keeps.refl _ | with_reducible apply laneLoseLock_keeps | with_reducible apply elapse_keeps
    | with_reducible refine Keeps.ite ?_ ?_ | split | dsimp only

theorem execSpTsInUp_keeps (d : Nat) (r : LaneSeen) (s : State) :
    KeepsO s (execSpTsInUp d r s) := by
  unfold execSpTsInUp
  refine .next ?_
  repeat' first
    | with_reducible exact Keeps.refl _ | with_reducible apply tsInUp_keeps | with_reducible apply elapse_keeps
    | with_reducible refine Keeps.ite ?_ ?_ | split | dsimp only

theorem execSpLinkUp_keeps (d : TrainSeen) (s : State) : KeepsO s (execSpLinkUp d s) := by
  unfold execSpLinkUp
  refine .next ?_
  repeat' first
    | with_reducible exact Keeps.refl _ | with_reducible apply linkUp_keeps | with_reducible apply elapse_keeps
    | with_reducible refine Keeps.ite ?_ ?_ | split | dsimp only

theorem execSpFrameSend_keeps (d : Nat) (channel : Fin 6) (lane : Fin 4) (bad : List Nat) (s : State) :
    KeepsO s (execSpFrameSend d channel lane bad s) := by
  unfold execSpFrameSend
  refine .next ?_
  repeat' first
    | with_reducible exact Keeps.refl _ | with_reducible apply sendFrame_keeps | with_reducible apply elapse_keeps
    | with_reducible refine Keeps.ite ?_ ?_ | split | dsimp only

theorem execCreditRepeat_keeps (d : Nat) (s : State) : KeepsO s (execCreditRepeat d s) := by
  unfold execCreditRepeat
  refine .next ?_
  repeat' first
    | with_reducible exact Keeps.refl _ | with_reducible apply repeatCredit_keeps | with_reducible apply elapse_keeps
    | with_reducible refine Keeps.ite ?_ ?_ | split | dsimp only

theorem execUploadFrame_keeps (d : Nat) (r : Fin 2) (rd : Bool) (groups : List CodeGroup) (leave : Nat) (s : State) :
    KeepsO s (execUploadFrame d r rd groups leave s) := by
  unfold execUploadFrame
  refine .next ?_
  repeat' first
    | with_reducible exact Keeps.refl _ | with_reducible apply uploadFrame_keeps | with_reducible apply elapse_keeps
    | with_reducible refine Keeps.ite ?_ ?_ | split | dsimp only

theorem execAssemblyTimeout_keeps (d : Nat) (k : Nat) (s : State) : KeepsO s (execAssemblyTimeout d k s) := by
  unfold execAssemblyTimeout
  refine .next ?_
  repeat' first
    | with_reducible exact Keeps.refl _ | with_reducible apply assemblyTimeout_keeps | with_reducible apply elapse_keeps
    | with_reducible refine Keeps.ite ?_ ?_ | split | dsimp only

theorem execRecordToFifo_keeps (d : Nat) (k : Fin 8) (s : State) : KeepsO s (execRecordToFifo d k s) := by
  unfold execRecordToFifo
  refine .next ?_
  repeat' first
    | with_reducible exact Keeps.refl _ | with_reducible apply moveRecord_keeps | with_reducible apply elapse_keeps
    | with_reducible refine Keeps.ite ?_ ?_ | split | dsimp only

theorem execOverflowEnd_keeps (d : Nat) (s : State) : KeepsO s (execOverflowEnd d s) := by
  unfold execOverflowEnd
  refine .next ?_
  repeat' first
    | with_reducible exact Keeps.refl _ | with_reducible apply overflowEnds_keeps | with_reducible apply elapse_keeps
    | with_reducible refine Keeps.ite ?_ ?_ | split | dsimp only

theorem execRefLost_keeps (d : Nat) (x : Fin 4) (s : State) : KeepsO s (execRefLost d x s) := by
  unfold execRefLost
  refine .next ?_
  repeat' first
    | with_reducible exact Keeps.refl _ | with_reducible apply refLost_keeps | with_reducible apply elapse_keeps
    | with_reducible refine Keeps.ite ?_ ?_ | split | dsimp only

theorem execRefPresent_keeps (d : Nat) (x : Fin 4) (s : State) : KeepsO s (execRefPresent d x s) := by
  unfold execRefPresent
  refine .next ?_
  repeat' first
    | with_reducible exact Keeps.refl _ | with_reducible apply refPresent_keeps | with_reducible apply elapse_keeps
    | with_reducible refine Keeps.ite ?_ ?_ | split | dsimp only

theorem execPllFreeze_keeps (d : Nat) (s : State) : KeepsO s (execPllFreeze d s) := by
  unfold execPllFreeze
  refine .next ?_
  repeat' first
    | with_reducible exact Keeps.refl _ | with_reducible apply pllFreeze_keeps | with_reducible apply elapse_keeps
    | with_reducible refine Keeps.ite ?_ ?_ | split | dsimp only

theorem execRefGlitchRecover_keeps (d : Nat) (s : State) : KeepsO s (execRefGlitchRecover d s) := by
  unfold execRefGlitchRecover
  refine .next ?_
  repeat' first
    | with_reducible exact Keeps.refl _ | with_reducible apply glitchRecover_keeps | with_reducible apply elapse_keeps
    | with_reducible refine Keeps.ite ?_ ?_ | split | dsimp only

theorem execCupolaWindow1s_keeps (d : Nat) (x : Fin 4) (result : Counted) (s : State) :
    KeepsO s (execCupolaWindow1s d x result s) := by
  unfold execCupolaWindow1s
  refine .next ?_
  repeat' first
    | with_reducible exact Keeps.refl _ | with_reducible apply window1s_keeps | with_reducible apply elapse_keeps
    | with_reducible refine Keeps.ite ?_ ?_ | split | dsimp only

theorem execCupolaWindow10s_keeps (d : Nat) (x : Fin 4) (result : Counted) (s : State) :
    KeepsO s (execCupolaWindow10s d x result s) := by
  unfold execCupolaWindow10s
  refine .next ?_
  repeat' first
    | with_reducible exact Keeps.refl _ | with_reducible apply window10s_keeps | with_reducible apply elapse_keeps
    | with_reducible refine Keeps.ite ?_ ?_ | split | dsimp only

theorem execRefSwitch_keeps (d : Nat) (s : State) : KeepsO s (execRefSwitch d s) := by
  unfold execRefSwitch
  refine .next ?_
  repeat' first
    | with_reducible exact Keeps.refl _ | with_reducible apply refSwitch_keeps | with_reducible apply elapse_keeps
    | with_reducible refine Keeps.ite ?_ ?_ | split | dsimp only

theorem execRevertWait_keeps (d : Nat) (x : Fin 4) (s : State) : KeepsO s (execRevertWait d x s) := by
  unfold execRevertWait
  refine .next ?_
  repeat' first
    | with_reducible exact Keeps.refl _ | with_reducible apply revertWait_keeps | with_reducible apply elapse_keeps
    | with_reducible refine Keeps.ite ?_ ?_ | split | dsimp only

theorem execPllLock_keeps (d : Nat) (s : State) : KeepsO s (execPllLock d s) := by
  unfold execPllLock
  refine .next ?_
  repeat' first
    | with_reducible exact Keeps.refl _ | with_reducible apply pllLock_keeps | with_reducible apply elapse_keeps
    | with_reducible refine Keeps.ite ?_ ?_ | split | dsimp only

theorem execAcquireTimeout_keeps (d : Nat) (s : State) : KeepsO s (execAcquireTimeout d s) := by
  unfold execAcquireTimeout
  refine .next ?_
  repeat' first
    | with_reducible exact Keeps.refl _ | with_reducible apply acquireTimeout_keeps | with_reducible apply elapse_keeps
    | with_reducible refine Keeps.ite ?_ ?_ | split | dsimp only

theorem execLockloss_keeps (d : Nat) (s : State) : KeepsO s (execLockloss d s) := by
  unfold execLockloss
  refine .next ?_
  repeat' first
    | with_reducible exact Keeps.refl _ | with_reducible apply locklossRaised_keeps | with_reducible apply elapse_keeps
    | with_reducible refine Keeps.ite ?_ ?_ | split | dsimp only

theorem execAxisIndexEdge_keeps (d : Nat) (a : Fin 4) (s : State) : KeepsO s (execAxisIndexEdge d a s) := by
  unfold execAxisIndexEdge
  refine .next ?_
  repeat' first
    | with_reducible exact Keeps.refl _ | with_reducible apply indexEdge_keeps | with_reducible apply elapse_keeps
    | with_reducible refine Keeps.ite ?_ ?_ | split | dsimp only

theorem execAxisCatchTimeout_keeps (d : Nat) (a : Fin 4) (s : State) : KeepsO s (execAxisCatchTimeout d a s) := by
  unfold execAxisCatchTimeout
  refine .next ?_
  repeat' first
    | with_reducible exact Keeps.refl _ | with_reducible apply catchTimeout_keeps | with_reducible apply elapse_keeps
    | with_reducible refine Keeps.ite ?_ ?_ | split | dsimp only

theorem execReacquireWindowPass_keeps (d : Nat) (a : Fin 4) (s : State) : KeepsO s (execReacquireWindowPass d a s) := by
  unfold execReacquireWindowPass
  refine .next ?_
  repeat' first
    | with_reducible exact Keeps.refl _ | with_reducible apply reacquirePass_keeps | with_reducible apply elapse_keeps
    | with_reducible refine Keeps.ite ?_ ?_ | split | dsimp only

theorem execAxisCountEdge_keeps (d : Nat) (a : Fin 4) (s : State) : KeepsO s (execAxisCountEdge d a s) := by
  unfold execAxisCountEdge
  refine .next ?_
  repeat' first
    | with_reducible exact Keeps.refl _ | with_reducible apply countEdgeFront_keeps | with_reducible apply elapse_keeps
    | with_reducible refine Keeps.ite ?_ ?_ | split | dsimp only

theorem execFreeFrameStart_keeps (d : Nat) (a : Fin 4) (s : State) : KeepsO s (execFreeFrameStart d a s) := by
  unfold execFreeFrameStart
  refine .next ?_
  repeat' first
    | with_reducible exact Keeps.refl _ | with_reducible apply freeStartEvent_keeps | with_reducible apply elapse_keeps
    | with_reducible refine Keeps.ite ?_ ?_ | split | dsimp only

theorem execEdgeCommit_keeps (d : Nat) (what : CommitOf) (s : State) : KeepsO s (execEdgeCommit d what s) := by
  unfold execEdgeCommit
  refine .next ?_
  repeat' first
    | with_reducible exact Keeps.refl _ | with_reducible apply elapse_keeps | with_reducible apply commitPort_keeps
    | with_reducible apply commitJoin_keeps | with_reducible apply commitAlign_keeps | with_reducible refine Keeps.ite ?_ ?_
    | split | dsimp only

theorem execPulseLeadingEdge_keeps (d : Nat) (p : Fin 64) (s : State) : KeepsO s (execPulseLeadingEdge d p s) := by
  unfold execPulseLeadingEdge
  refine .next ?_
  repeat' first
    | with_reducible exact Keeps.refl _ | with_reducible apply elapse_keeps | with_reducible apply leaveLeading_keeps
    | with_reducible refine Keeps.ite ?_ ?_ | split | dsimp only

theorem execPulseTrailingEdge_keeps (d : Nat) (p : Fin 64) (s : State) : KeepsO s (execPulseTrailingEdge d p s) := by
  unfold execPulseTrailingEdge
  refine .next ?_
  repeat' first
    | with_reducible exact Keeps.refl _ | with_reducible apply elapse_keeps | with_reducible apply leaveTrailing_keeps
    | with_reducible refine Keeps.ite ?_ ?_ | split | dsimp only

theorem execPadTrigger_keeps (d : Nat) (p : Fin 64) (s : State) : KeepsO s (execPadTrigger d p s) := by
  unfold execPadTrigger
  refine .next ?_
  repeat' first
    | with_reducible exact Keeps.refl _ | with_reducible apply decidePad_keeps | with_reducible apply elapse_keeps
    | with_reducible refine Keeps.ite ?_ ?_ | split | dsimp only

theorem execInputEdgeConvert_keeps (d : Nat) (p : Fin 64) (falling : Bool) (stop : TimeWord) (code : EdgeCode) (s : State) :
    KeepsO s (execInputEdgeConvert d p falling stop code s) := by
  unfold execInputEdgeConvert
  refine .next ?_
  repeat' first
    | with_reducible exact Keeps.refl _ | with_reducible apply convert_keeps | with_reducible apply elapse_keeps
    | with_reducible refine Keeps.ite ?_ ?_ | split | dsimp only

theorem execStampFormat_keeps (d : Nat) (p : Fin 64) (s : State) : KeepsO s (execStampFormat d p s) := by
  unfold execStampFormat
  refine .next ?_
  repeat' first
    | with_reducible exact Keeps.refl _ | with_reducible apply format_keeps | with_reducible apply elapse_keeps
    | with_reducible refine Keeps.ite ?_ ?_ | split | dsimp only

theorem execPairMeasurement_keeps (d : Nat) (p : Fin 64) (q : Nat) (s : State) : KeepsO s (execPairMeasurement d p q s) := by
  unfold execPairMeasurement
  refine .next ?_
  repeat' first
    | with_reducible exact Keeps.refl _ | with_reducible apply pairDone_keeps | with_reducible apply elapse_keeps
    | with_reducible refine Keeps.ite ?_ ?_ | split | dsimp only

theorem execOverrangeAssert_keeps (d : Nat) (p : Fin 64) (a : TimeWord) (s : State) :
    KeepsO s (execOverrangeAssert d p a s) := by
  unfold execOverrangeAssert
  refine .next ?_
  repeat' first
    | with_reducible exact Keeps.refl _ | with_reducible apply overrangeOn_keeps | with_reducible apply elapse_keeps
    | with_reducible refine Keeps.ite ?_ ?_ | split | dsimp only

theorem execOverrangeDeassert_keeps (d : Nat) (p : Fin 64) (z : TimeWord) (s : State) :
    KeepsO s (execOverrangeDeassert d p z s) := by
  unfold execOverrangeDeassert
  refine .next ?_
  repeat' first
    | with_reducible exact Keeps.refl _ | with_reducible apply overrangeOff_keeps | with_reducible apply elapse_keeps
    | with_reducible refine Keeps.ite ?_ ?_ | split | dsimp only

theorem execTrgEdge_keeps (d : Nat) (n : Fin 8) (falling : Bool) (t : TimeWord) (s : State) :
    KeepsO s (execTrgEdge d n falling t s) := by
  unfold execTrgEdge
  refine .next ?_
  repeat' first
    | with_reducible exact Keeps.refl _ | with_reducible apply trgEdge_keeps | with_reducible apply elapse_keeps
    | with_reducible refine Keeps.ite ?_ ?_ | split | dsimp only

theorem execToneChangeTick_keeps (d : Nat) (p : Fin 64) (s : State) : KeepsO s (execToneChangeTick d p s) := by
  unfold execToneChangeTick
  refine .next ?_
  repeat' first
    | with_reducible exact Keeps.refl _ | with_reducible apply toneTick_keeps | with_reducible apply elapse_keeps
    | with_reducible refine Keeps.ite ?_ ?_ | split | dsimp only

theorem execMfRunClose_keeps (d : Nat) (m : Fin 16) (s : State) : KeepsO s (execMfRunClose d m s) := by
  unfold execMfRunClose
  refine .next ?_
  repeat' first
    | with_reducible exact Keeps.refl _ | with_reducible apply elapse_keeps | with_reducible apply mfClose_keeps
    | with_reducible refine Keeps.ite ?_ ?_ | split | dsimp only

theorem execSpirePrefetch_keeps (d : Nat) (g : Fin 8) (bad : List (Nat × Nat)) (s : State) :
    KeepsO s (execSpirePrefetch d g bad s) := by
  unfold execSpirePrefetch
  refine .next ?_
  repeat' first
    | with_reducible exact Keeps.refl _ | with_reducible apply markBad_keeps | with_reducible apply elapse_keeps
    | with_reducible apply modGroup_keeps | with_reducible apply store_keeps | with_reducible refine Keeps.ite ?_ ?_ | split
    | dsimp only

theorem execSpireBoundary_keeps (d : Nat) (g : Fin 8) (s : State) : KeepsO s (execSpireBoundary d g s) := by
  unfold execSpireBoundary
  refine .next ?_
  repeat' first
    | with_reducible exact Keeps.refl _ | with_reducible apply boundary_keeps | with_reducible apply elapse_keeps
    | with_reducible refine Keeps.ite ?_ ?_ | split | dsimp only

theorem execSpireCheckfail_keeps (d : Nat) (g : Fin 8) (s : State) : KeepsO s (execSpireCheckfail d g s) := by
  unfold execSpireCheckfail
  refine .next ?_
  repeat' first
    | with_reducible exact Keeps.refl _ | with_reducible apply checkFail_keeps | with_reducible apply elapse_keeps
    | with_reducible refine Keeps.ite ?_ ?_ | split | dsimp only

theorem execWaitTimeout_keeps (d : Nat) (g : Fin 8) (s : State) : KeepsO s (execWaitTimeout d g s) := by
  unfold execWaitTimeout
  refine .next ?_
  repeat' first
    | with_reducible exact Keeps.refl _ | with_reducible apply waitTimeout_keeps | with_reducible apply elapse_keeps
    | with_reducible refine Keeps.ite ?_ ?_ | split | dsimp only

theorem execAgWord_keeps (d : Nat) (n : Fin 8) (s : State) : KeepsO s (execAgWord d n s) := by
  unfold execAgWord
  refine .next ?_
  repeat' first
    | with_reducible exact Keeps.refl _ | with_reducible apply agWordStep_keeps | with_reducible apply elapse_keeps
    | with_reducible refine Keeps.ite ?_ ?_ | split | dsimp only

theorem execAgSample_keeps (d : Nat) (n : Fin 8) (s : State) : KeepsO s (execAgSample d n s) := by
  unfold execAgSample
  refine .next ?_
  repeat' first
    | with_reducible exact Keeps.refl _ | with_reducible apply agSampleStep_keeps | with_reducible apply elapse_keeps
    | with_reducible refine Keeps.ite ?_ ?_ | split | dsimp only

theorem execCalWindowOpen_keeps (d : Nat) (p : Fin 64) (s : State) : KeepsO s (execCalWindowOpen d p s) := by
  have k : Keeps s (foldS (portsOf (clusterOf p)) padsFirst (workCycle (s.elapse d))) :=
    foldS_keeps (workCycle_keeps (elapse_keeps (Keeps.refl s) d)) fun _ _ h => padsFirst_keeps h _
  exact .next (.ite (openWindow_keeps k _) k)

theorem execCalWindowClose_keeps (d : Nat) (p : Fin 64) (sample : CalSample) (high : Bool) (s : State) :
    KeepsO s (execCalWindowClose d p sample high s) := by
  unfold execCalWindowClose
  refine .next ?_
  repeat' first
    | with_reducible exact Keeps.refl _ | with_reducible apply closeWindow_keeps | with_reducible apply elapse_keeps
    | with_reducible refine Keeps.ite ?_ ?_ | split | dsimp only

theorem execCalPortLate_keeps (d : Nat) (p : Fin 64) (s : State) : KeepsO s (execCalPortLate d p s) := by
  unfold execCalPortLate
  refine .next ?_
  repeat' first
    | with_reducible exact Keeps.refl _ | with_reducible apply portLate_keeps | with_reducible apply elapse_keeps
    | with_reducible refine Keeps.ite ?_ ?_ | split | dsimp only

theorem execCalTableSwap_keeps (d : Nat) (p : Fin 64) (s : State) : KeepsO s (execCalTableSwap d p s) := by
  unfold execCalTableSwap
  refine .next ?_
  repeat' first
    | with_reducible exact Keeps.refl _ | with_reducible apply rotaSwap_keeps | with_reducible apply elapse_keeps
    | with_reducible refine Keeps.ite ?_ ?_ | split | dsimp only

theorem execDrainComplete_keeps (d : Nat) (k : Fin 8) (s : State) : KeepsO s (execDrainComplete d k s) := by
  unfold execDrainComplete
  refine .next ?_
  repeat' first
    | with_reducible exact Keeps.refl _ | with_reducible apply drainComplete_keeps | with_reducible apply elapse_keeps
    | with_reducible refine Keeps.ite ?_ ?_ | split | dsimp only

theorem execClusterPowerupDone_keeps (d : Nat) (k : Fin 8) (bankMv : Nat) (s : State) :
    KeepsO s (execClusterPowerupDone d k bankMv s) := by
  unfold execClusterPowerupDone
  refine .next ?_
  repeat' first
    | with_reducible exact Keeps.refl _ | with_reducible apply powerupDone_keeps | with_reducible apply elapse_keeps
    | with_reducible refine Keeps.ite ?_ ?_ | split | dsimp only

theorem execClusterCalibrateDone_keeps (d : Nat) (k : Fin 8) (samples : List CalSample) (s : State) :
    KeepsO s (execClusterCalibrateDone d k samples s) := by
  unfold execClusterCalibrateDone
  refine .next ?_
  repeat' first
    | with_reducible exact Keeps.refl _ | with_reducible apply calibrateDone_keeps | with_reducible apply elapse_keeps
    | with_reducible refine Keeps.ite ?_ ?_ | split | dsimp only

theorem execClusterAlignDone_keeps (d : Nat) (k : Fin 8) (verified : Bool) (s : State) :
    KeepsO s (execClusterAlignDone d k verified s) := by
  unfold execClusterAlignDone
  refine .next ?_
  repeat' first
    | with_reducible exact Keeps.refl _ | with_reducible apply alignDone_keeps | with_reducible apply elapse_keeps
    | with_reducible refine Keeps.ite ?_ ?_ | split | dsimp only

theorem execClusterJoin_keeps (d : Nat) (k : Fin 8) (s : State) : KeepsO s (execClusterJoin d k s) := by
  unfold execClusterJoin
  refine .next ?_
  repeat' first
    | with_reducible exact Keeps.refl _ | with_reducible apply enterActive_keeps | with_reducible apply elapse_keeps
    | with_reducible refine Keeps.ite ?_ ?_ | split | dsimp only

theorem execClusterFault_keeps (d : Nat) (k : Fin 8) (cause : FaultCause) (bankMv : Nat) (s : State) :
    KeepsO s (execClusterFault d k cause bankMv s) := by
  unfold execClusterFault
  refine .next ?_
  repeat' first
    | with_reducible exact Keeps.refl _ | with_reducible apply clusterFault_keeps | with_reducible apply elapse_keeps
    | with_reducible refine Keeps.ite ?_ ?_ | split | dsimp only

theorem execStewardWatchdog_keeps (d : Nat) (s : State) : KeepsO s (execStewardWatchdog d s) := by
  unfold execStewardWatchdog
  refine .next ?_
  repeat' first
    | with_reducible exact Keeps.refl _ | with_reducible apply elapse_keeps | with_reducible apply stewardLeaves_keeps
    | with_reducible refine Keeps.ite ?_ ?_ | split | dsimp only

theorem execStewardRestartStart_keeps (d : Nat) (s : State) : KeepsO s (execStewardRestartStart d s) := by
  unfold execStewardRestartStart
  refine .next ?_
  repeat' first
    | with_reducible exact Keeps.refl _ | with_reducible apply restartStart_keeps | with_reducible apply elapse_keeps
    | with_reducible refine Keeps.ite ?_ ?_ | split | dsimp only

theorem execStewardRestartEnd_keeps (d : Nat) (s : State) : KeepsO s (execStewardRestartEnd d s) := by
  unfold execStewardRestartEnd
  refine .next ?_
  repeat' first
    | with_reducible exact Keeps.refl _ | with_reducible apply restartEnd_keeps | with_reducible apply elapse_keeps
    | with_reducible refine Keeps.ite ?_ ?_ | split | dsimp only

theorem execHardwareResetStart_keeps (d : Nat) (s : State) : KeepsO s (execHardwareResetStart d s) := by
  unfold execHardwareResetStart
  refine .next ?_
  repeat' first
    | with_reducible exact Keeps.refl _ | with_reducible apply elapse_keeps | with_reducible apply hardwareReset_keeps
    | with_reducible refine Keeps.ite ?_ ?_ | split | dsimp only

theorem execBelfrySample_keeps (d : Nat) (levels : BitVec 4) (refa : Bool) (s : State) :
    KeepsO s (execBelfrySample d levels refa s) := by
  unfold execBelfrySample
  refine .next ?_
  repeat' first
    | with_reducible exact Keeps.refl _ | with_reducible apply belfrySample_keeps | with_reducible apply elapse_keeps
    | with_reducible refine Keeps.ite ?_ ?_ | split | dsimp only

theorem execBelfryConversion_keeps (d : Nat) (reading : BelfryReading) (s : State) :
    KeepsO s (execBelfryConversion d reading s) := by
  unfold execBelfryConversion
  refine .next ?_
  repeat' first
    | with_reducible exact Keeps.refl _ | with_reducible apply belfryConversion_keeps | with_reducible apply elapse_keeps
    | with_reducible refine Keeps.ite ?_ ?_ | split | dsimp only

theorem execSleepEntryStart_keeps (d : Nat) (s : State) : KeepsO s (execSleepEntryStart d s) := by
  unfold execSleepEntryStart
  refine .next ?_
  repeat' first
    | with_reducible exact Keeps.refl _ | with_reducible apply sleepEntryStart_keeps | with_reducible apply elapse_keeps
    | with_reducible refine Keeps.ite ?_ ?_ | split | dsimp only

theorem execSleepFrameHandover_keeps (d : Nat) (s : State) : KeepsO s (execSleepFrameHandover d s) := by
  unfold execSleepFrameHandover
  refine .next ?_
  repeat' first
    | with_reducible exact Keeps.refl _ | with_reducible apply sleepFrameHandover_keeps | with_reducible apply elapse_keeps
    | with_reducible refine Keeps.ite ?_ ?_ | split | dsimp only

theorem execSleepFlushEnd_keeps (d : Nat) (s : State) : KeepsO s (execSleepFlushEnd d s) := by
  unfold execSleepFlushEnd
  refine .next ?_
  repeat' first
    | with_reducible exact Keeps.refl _ | with_reducible apply sleepFlushEnd_keeps | with_reducible apply elapse_keeps
    | with_reducible refine Keeps.ite ?_ ?_ | split | dsimp only

theorem execSleepPowerdown_keeps (d : Nat) (s : State) : KeepsO s (execSleepPowerdown d s) := by
  unfold execSleepPowerdown
  refine .next ?_
  repeat' first
    | with_reducible exact Keeps.refl _ | with_reducible apply sleepPowerdown_keeps | with_reducible apply elapse_keeps
    | with_reducible refine Keeps.ite ?_ ?_ | split | dsimp only

theorem execWakeSuppliesValid_keeps (d : Nat) (s : State) : KeepsO s (execWakeSuppliesValid d s) := by
  unfold execWakeSuppliesValid
  refine .next ?_
  repeat' first
    | with_reducible exact Keeps.refl _ | with_reducible apply wakeSuppliesValid_keeps | with_reducible apply elapse_keeps
    | with_reducible refine Keeps.ite ?_ ?_ | split | dsimp only

theorem execKeptAxisAnchor_keeps (d : Nat) (s : State) : KeepsO s (execKeptAxisAnchor d s) := by
  unfold execKeptAxisAnchor
  refine .next ?_
  repeat' first
    | with_reducible exact Keeps.refl _ | with_reducible apply keptAxisAnchor_keeps | with_reducible apply elapse_keeps
    | with_reducible refine Keeps.ite ?_ ?_ | split | dsimp only

theorem execResetPin_keeps (d : Nat) (s : State) : KeepsO s (execResetPin d s) := by
  unfold execResetPin
  refine .next ?_
  repeat' first
    | with_reducible exact Keeps.refl _ | with_reducible apply hardwareReset_keeps | with_reducible apply elapse_keeps
    | with_reducible refine Keeps.ite ?_ ?_ | split | dsimp only

theorem execBrownout_keeps (d : Nat) (s : State) : KeepsO s (execBrownout d s) := by
  unfold execBrownout
  refine .next ?_
  repeat' first
    | with_reducible exact Keeps.refl _ | with_reducible apply elapse_keeps | with_reducible apply hardwareReset_keeps
    | with_reducible refine Keeps.ite ?_ ?_ | split | dsimp only

theorem execBootStart_keeps (d : Nat) (bootsel1 : Bool) (bootsel0 : Bool) (s : State) :
    KeepsO s (execBootStart d bootsel1 bootsel0 s) := by
  unfold execBootStart
  refine .next ?_
  repeat' first
    | with_reducible exact Keeps.refl _ | with_reducible apply bootStart_keeps | with_reducible apply elapse_keeps
    | with_reducible refine Keeps.ite ?_ ?_ | split | dsimp only

theorem execFlashBootDone_keeps (d : Nat) (read : FlashRead) (s : State) : KeepsO s (execFlashBootDone d read s) := by
  unfold execFlashBootDone
  refine .next ?_
  repeat' first
    | with_reducible exact Keeps.refl _ | with_reducible apply flashDone_keeps | with_reducible apply elapse_keeps
    | with_reducible refine Keeps.ite ?_ ?_ | split | dsimp only

theorem execObjectStoreBuilt_keeps (d : Nat) (s : State) : KeepsO s (execObjectStoreBuilt d s) := by
  unfold execObjectStoreBuilt
  refine .next ?_
  repeat' first
    | with_reducible exact Keeps.refl _ | with_reducible apply storeBuilt_keeps | with_reducible apply elapse_keeps
    | with_reducible refine Keeps.ite ?_ ?_ | split | dsimp only

theorem execSyncPulseSend_keeps (d : Nat) (s : State) : KeepsO s (execSyncPulseSend d s) := by
  unfold execSyncPulseSend
  refine .next ?_
  repeat' first
    | with_reducible exact Keeps.refl _ | with_reducible apply sendPulse_keeps | with_reducible apply elapse_keeps
    | with_reducible refine Keeps.ite ?_ ?_ | split | dsimp only

theorem execSyncReturnPulse_keeps (d : Nat) (s : State) : KeepsO s (execSyncReturnPulse d s) := by
  unfold execSyncReturnPulse
  refine .next ?_
  repeat' first
    | with_reducible exact Keeps.refl _ | with_reducible apply returnPulse_keeps | with_reducible apply elapse_keeps
    | with_reducible refine Keeps.ite ?_ ?_ | split | dsimp only

theorem execSyncEdge_keeps (d : Nat) (falling : Bool) (t : TimeWord) (s : State) : KeepsO s (execSyncEdge d falling t s) := by
  unfold execSyncEdge
  refine .next ?_
  repeat' first
    | with_reducible exact Keeps.refl _ | with_reducible apply syncEdge_keeps | with_reducible apply elapse_keeps
    | with_reducible refine Keeps.ite ?_ ?_ | split | dsimp only

theorem execSyncStep_keeps (d : Nat) (s : State) : KeepsO s (execSyncStep d s) := by
  unfold execSyncStep
  refine .next ?_
  repeat' first
    | with_reducible exact Keeps.refl _ | with_reducible apply syncStep_keeps | with_reducible apply elapse_keeps
    | with_reducible refine Keeps.ite ?_ ?_ | split | dsimp only

theorem execSyncHoldTimeout_keeps (d : Nat) (s : State) : KeepsO s (execSyncHoldTimeout d s) := by
  unfold execSyncHoldTimeout
  refine .next ?_
  repeat' first
    | with_reducible exact Keeps.refl _ | with_reducible apply holdTimeout_keeps | with_reducible apply elapse_keeps
    | with_reducible refine Keeps.ite ?_ ?_ | split | dsimp only

theorem execSyncSlew_keeps (d : Nat) (s : State) : KeepsO s (execSyncSlew d s) := by
  unfold execSyncSlew
  refine .next ?_
  repeat' first
    | with_reducible exact Keeps.refl _ | with_reducible apply slew_keeps | with_reducible apply elapse_keeps
    | with_reducible refine Keeps.ite ?_ ?_ | split | dsimp only

theorem execPoweron_keeps (d : Nat) (s : State) : KeepsO s (execPoweron d s) := by
  unfold execPoweron
  refine .next ?_
  repeat' first
    | with_reducible exact Keeps.refl _ | with_reducible apply powerOnStart_keeps | with_reducible apply elapse_keeps
    | with_reducible refine Keeps.ite ?_ ?_ | split | dsimp only

theorem execLineCharacter_keeps (d : Nat) (k : Link) (b : Byte) (s : State) : KeepsO s (execLineCharacter d k b s) := by
  unfold execLineCharacter
  refine .next ?_
  repeat' first
    | with_reducible exact Keeps.refl _ | with_reducible apply linkByte_keeps | with_reducible apply elapse_keeps
    | with_reducible refine Keeps.ite ?_ ?_ | split | dsimp only

theorem execOutputByteSent_keeps (d : Nat) (k : Link) (s : State) : KeepsO s (execOutputByteSent d k s) := by
  unfold execOutputByteSent
  refine .next ?_
  repeat' first
    | with_reducible exact Keeps.refl _ | with_reducible apply elapse_keeps | with_reducible apply outputByte_keeps
    | with_reducible refine Keeps.ite ?_ ?_ | split | dsimp only

theorem execEccPublication_keeps (d : Nat) (seg : Nat) (fifo : Nat) (sys : Nat) (s : State) :
    KeepsO s (execEccPublication d seg fifo sys s) := by
  unfold execEccPublication
  refine .next ?_
  repeat' first
    | with_reducible exact Keeps.refl _ | with_reducible apply publishEcc_keeps | with_reducible apply elapse_keeps
    | with_reducible refine Keeps.ite ?_ ?_ | split | dsimp only

/-- R44, R144, R157, R292, R432, R472, R474: what every command keeps. -/
theorem exec_keeps (c : Instr) (s : State) : KeepsO s (exec c s) := by
  cases c with
  | lineReceived d link lf span corrupt => exact execLineReceived_keeps d link lf span corrupt s
  | typedCharacter d link b => exact execTypedCharacter_keeps d link b s
  | editBackspace d link => exact execEditBackspace_keeps d link s
  | editCtrlU d link => exact execEditCtrlU_keeps d link s
  | editCtrlC d link => exact execEditCtrlC_keeps d link s
  | editCtrlR d link => exact execEditCtrlR_keeps d link s
  | editRecall d link => exact execEditRecall_keeps d link s
  | conFramingError d => exact execConFramingError_keeps d s
  | conBreak d => exact execConBreak_keeps d s
  | autobaudCharacter d cycles readsCr => exact execAutobaudCharacter_keeps d cycles readsCr s
  | hspiCsFall d sclkHigh => exact execHspiCsFall_keeps d sclkHigh s
  | hspiCsRise d => exact execHspiCsRise_keeps d s
  | get d fault => exact execGet_keeps d fault s
  | set d fault => exact execSet_keeps d fault s
  | showObject d fault => exact execShowObject_keeps d fault s
  | list d fault => exact execList_keeps d fault s
  | help d fault => exact execHelp_keeps d fault s
  | snapshot d fault => exact execSnapshot_keeps d fault s
  | fire d fault => exact execFire_keeps d fault s
  | arm d fault => exact execArm_keeps d fault s
  | disarm d fault => exact execDisarm_keeps d fault s
  | halt d fault => exact execHalt_keeps d fault s
  | step d fault => exact execStep_keeps d fault s
  | mark d fault => exact execMark_keeps d fault s
  | sched d fault => exact execSched_keeps d fault s
  | cancel d fault => exact execCancel_keeps d fault s
  | start d fault => exact execStart_keeps d fault s
  | abort d fault => exact execAbort_keeps d fault s
  | drain d fault => exact execDrain_keeps d fault s
  | powerOff d fault => exact execPowerOff_keeps d fault s
  | powerOn d fault => exact execPowerOn_keeps d fault s
  | join d fault => exact execJoin_keeps d fault s
  | prog d fault => exact execProg_keeps d fault s
  | progClear d fault => exact execProgClear_keeps d fault s
  | clusterReset d fault => exact execClusterReset_keeps d fault s
  | sysReset d fault => exact execSysReset_keeps d fault s
  | sysFeatures d fault => exact execSysFeatures_keeps d fault s
  | sysVersion d fault => exact execSysVersion_keeps d fault s
  | sysRestart d fault => exact execSysRestart_keeps d fault s
  | sysUpdate d fault => exact execSysUpdate_keeps d fault s
  | sysSleep d fault => exact execSysSleep_keeps d fault s
  | calExport d fault => exact execCalExport_keeps d fault s
  | calImport d fault => exact execCalImport_keeps d fault s
  | segDefine d fault => exact execSegDefine_keeps d fault s
  | segFree d fault => exact execSegFree_keeps d fault s
  | belLog d fault => exact execBelLog_keeps d fault s
  | belClear d fault => exact execBelClear_keeps d fault s
  | loadSize d => exact execLoadSize_keeps d s
  | loadData d => exact execLoadData_keeps d s
  | loadStatus d => exact execLoadStatus_keeps d s
  | loadGo d => exact execLoadGo_keeps d s
  | setLinkMode d fault => exact execSetLinkMode_keeps d fault s
  | setConBaud d fault => exact execSetConBaud_keeps d fault s
  | setTimefmt d fault => exact execSetTimefmt_keeps d fault s
  | setSpEnable d fault => exact execSetSpEnable_keeps d fault s
  | setAxisConfig d fault => exact execSetAxisConfig_keeps d fault s
  | setAxisRunahead d fault => exact execSetAxisRunahead_keeps d fault s
  | setTaskRoutes d fault => exact execSetTaskRoutes_keeps d fault s
  | setTaskConfonly d fault => exact execSetTaskConfonly_keeps d fault s
  | setMfEnable d fault => exact execSetMfEnable_keeps d fault s
  | setMfStatsClear d fault => exact execSetMfStatsClear_keeps d fault s
  | setPortMode d fault => exact execSetPortMode_keeps d fault s
  | setToneFtw d fault => exact execSetToneFtw_keeps d fault s
  | setToneAt d fault => exact execSetToneAt_keeps d fault s
  | setIostd d fault => exact execSetIostd_keeps d fault s
  | setThreshold d fault => exact execSetThreshold_keeps d fault s
  | setRefActive d fault => exact execSetRefActive_keeps d fault s
  | setRefInput d fault => exact execSetRefInput_keeps d fault s
  | setRefBw d fault => exact execSetRefBw_keeps d fault s
  | setCalPeriod d fault => exact execSetCalPeriod_keeps d fault s
  | setCalHold d fault => exact execSetCalHold_keeps d fault s
  | setBelAlertClear d fault => exact execSetBelAlertClear_keeps d fault s
  | setBelRule d fault => exact execSetBelRule_keeps d fault s
  | setSyncRole d fault => exact execSetSyncRole_keeps d fault s
  | setSyncDelay d fault => exact execSetSyncDelay_keeps d fault s
  | keyProgram d fault readBackOk => exact execKeyProgram_keeps d fault readBackOk s
  | handoverAccept d src => exact execHandoverAccept_keeps d src s
  | routeDelivery d k => exact execRouteDelivery_keeps d k s
  | spLaneLock d r => exact execSpLaneLock_keeps d r s
  | spLaneLoseLock d r => exact execSpLaneLoseLock_keeps d r s
  | spTsInUp d r => exact execSpTsInUp_keeps d r s
  | spLinkUp d => exact execSpLinkUp_keeps d s
  | spFrameSend d channel lane bad => exact execSpFrameSend_keeps d channel lane bad s
  | creditRepeat d => exact execCreditRepeat_keeps d s
  | uploadFrame d r rd groups leave => exact execUploadFrame_keeps d r rd groups leave s
  | assemblyTimeout d k => exact execAssemblyTimeout_keeps d k s
  | recordToFifo d k => exact execRecordToFifo_keeps d k s
  | overflowEnd d => exact execOverflowEnd_keeps d s
  | refLost d x => exact execRefLost_keeps d x s
  | refPresent d x => exact execRefPresent_keeps d x s
  | pllFreeze d => exact execPllFreeze_keeps d s
  | refGlitchRecover d => exact execRefGlitchRecover_keeps d s
  | cupolaWindow1s d x result => exact execCupolaWindow1s_keeps d x result s
  | cupolaWindow10s d x result => exact execCupolaWindow10s_keeps d x result s
  | refSwitch d => exact execRefSwitch_keeps d s
  | revertWait d x => exact execRevertWait_keeps d x s
  | pllLock d => exact execPllLock_keeps d s
  | acquireTimeout d => exact execAcquireTimeout_keeps d s
  | lockloss d => exact execLockloss_keeps d s
  | axisIndexEdge d a => exact execAxisIndexEdge_keeps d a s
  | axisCatchTimeout d a => exact execAxisCatchTimeout_keeps d a s
  | reacquireWindowPass d a => exact execReacquireWindowPass_keeps d a s
  | axisCountEdge d a => exact execAxisCountEdge_keeps d a s
  | freeFrameStart d a => exact execFreeFrameStart_keeps d a s
  | edgeCommit d what => exact execEdgeCommit_keeps d what s
  | pulseLeadingEdge d p => exact execPulseLeadingEdge_keeps d p s
  | pulseTrailingEdge d p => exact execPulseTrailingEdge_keeps d p s
  | padTrigger d p => exact execPadTrigger_keeps d p s
  | inputEdgeConvert d p falling stop code => exact execInputEdgeConvert_keeps d p falling stop code s
  | stampFormat d p => exact execStampFormat_keeps d p s
  | pairMeasurement d p q => exact execPairMeasurement_keeps d p q s
  | overrangeAssert d p a => exact execOverrangeAssert_keeps d p a s
  | overrangeDeassert d p z => exact execOverrangeDeassert_keeps d p z s
  | trgEdge d n falling t => exact execTrgEdge_keeps d n falling t s
  | toneChangeTick d p => exact execToneChangeTick_keeps d p s
  | mfRunClose d m => exact execMfRunClose_keeps d m s
  | spirePrefetch d g bad => exact execSpirePrefetch_keeps d g bad s
  | spireBoundary d g => exact execSpireBoundary_keeps d g s
  | spireCheckfail d g => exact execSpireCheckfail_keeps d g s
  | waitTimeout d g => exact execWaitTimeout_keeps d g s
  | agWord d n => exact execAgWord_keeps d n s
  | agSample d n => exact execAgSample_keeps d n s
  | calWindowOpen d p => exact execCalWindowOpen_keeps d p s
  | calWindowClose d p sample high => exact execCalWindowClose_keeps d p sample high s
  | calPortLate d p => exact execCalPortLate_keeps d p s
  | calTableSwap d p => exact execCalTableSwap_keeps d p s
  | drainComplete d k => exact execDrainComplete_keeps d k s
  | clusterPowerupDone d k bankMv => exact execClusterPowerupDone_keeps d k bankMv s
  | clusterCalibrateDone d k samples => exact execClusterCalibrateDone_keeps d k samples s
  | clusterAlignDone d k verified => exact execClusterAlignDone_keeps d k verified s
  | clusterJoin d k => exact execClusterJoin_keeps d k s
  | clusterFault d k cause bankMv => exact execClusterFault_keeps d k cause bankMv s
  | stewardWatchdog d => exact execStewardWatchdog_keeps d s
  | stewardRestartStart d => exact execStewardRestartStart_keeps d s
  | stewardRestartEnd d => exact execStewardRestartEnd_keeps d s
  | hardwareResetStart d => exact execHardwareResetStart_keeps d s
  | belfrySample d levels refa => exact execBelfrySample_keeps d levels refa s
  | belfryConversion d reading => exact execBelfryConversion_keeps d reading s
  | sleepEntryStart d => exact execSleepEntryStart_keeps d s
  | sleepFrameHandover d => exact execSleepFrameHandover_keeps d s
  | sleepFlushEnd d => exact execSleepFlushEnd_keeps d s
  | sleepPowerdown d => exact execSleepPowerdown_keeps d s
  | wakeSuppliesValid d => exact execWakeSuppliesValid_keeps d s
  | keptAxisAnchor d => exact execKeptAxisAnchor_keeps d s
  | resetPin d => exact execResetPin_keeps d s
  | brownout d => exact execBrownout_keeps d s
  | bootStart d bootsel1 bootsel0 => exact execBootStart_keeps d bootsel1 bootsel0 s
  | flashBootDone d read => exact execFlashBootDone_keeps d read s
  | objectStoreBuilt d => exact execObjectStoreBuilt_keeps d s
  | syncPulseSend d => exact execSyncPulseSend_keeps d s
  | syncReturnPulse d => exact execSyncReturnPulse_keeps d s
  | syncEdge d falling t => exact execSyncEdge_keeps d falling t s
  | syncStep d => exact execSyncStep_keeps d s
  | syncHoldTimeout d => exact execSyncHoldTimeout_keeps d s
  | syncSlew d => exact execSyncSlew_keeps d s
  | poweron d => exact execPoweron_keeps d s
  | lineCharacter d link b => exact execLineCharacter_keeps d link b s
  | outputByteSent d link => exact execOutputByteSent_keeps d link s
  | eccPublication d seg fifo sys => exact execEccPublication_keeps d seg fifo sys s

end Sys2Proof.Machine
end

