-- ==== Sys2Proof/Laws/State.lean ====
section
/-! SUPPORT. What an update of one part of the state leaves in each field, and what an entry of a vector holds after it. -/
namespace Sys2Proof.Machine
namespace State

variable (s : State)

/-! ### modTb -/

section
variable (f : Timebase → Timebase)
@[simp] theorem modTb_tb : (s.modTb f).tb = f s.tb := rfl
@[simp] theorem modTb_axes : (s.modTb f).axes = s.axes := rfl
@[simp] theorem modTb_clusters : (s.modTb f).clusters = s.clusters := rfl
@[simp] theorem modTb_ports : (s.modTb f).ports = s.ports := rfl
@[simp] theorem modTb_trgs : (s.modTb f).trgs = s.trgs := rfl
@[simp] theorem modTb_mfs : (s.modTb f).mfs = s.mfs := rfl
@[simp] theorem modTb_fabric : (s.modTb f).fabric = s.fabric := rfl
@[simp] theorem modTb_tasks : (s.modTb f).tasks = s.tasks := rfl
@[simp] theorem modTb_store : (s.modTb f).store = s.store := rfl
@[simp] theorem modTb_groups : (s.modTb f).groups = s.groups := rfl
@[simp] theorem modTb_markers : (s.modTb f).markers = s.markers := rfl
@[simp] theorem modTb_ags : (s.modTb f).ags = s.ags := rfl
@[simp] theorem modTb_cal : (s.modTb f).cal = s.cal := rfl
@[simp] theorem modTb_steward : (s.modTb f).steward = s.steward := rfl
@[simp] theorem modTb_con : (s.modTb f).con = s.con := rfl
@[simp] theorem modTb_hspi : (s.modTb f).hspi = s.hspi := rfl
@[simp] theorem modTb_console : (s.modTb f).console = s.console := rfl
@[simp] theorem modTb_spi : (s.modTb f).spi = s.spi := rfl
@[simp] theorem modTb_sp : (s.modTb f).sp = s.sp := rfl
@[simp] theorem modTb_fifo : (s.modTb f).fifo = s.fifo := rfl
@[simp] theorem modTb_bel : (s.modTb f).bel = s.bel := rfl
@[simp] theorem modTb_sync : (s.modTb f).sync = s.sync := rfl
@[simp] theorem modTb_boot : (s.modTb f).boot = s.boot := rfl
@[simp] theorem modTb_sysEcc : (s.modTb f).sysEcc = s.sysEcc := rfl
@[simp] theorem modTb_pending : (s.modTb f).pending = s.pending := rfl
end

/-! ### modPort -/

section
variable (p : Fin 64) (f : Port → Port)
@[simp] theorem modPort_tb : (s.modPort p f).tb = s.tb := rfl
@[simp] theorem modPort_axes : (s.modPort p f).axes = s.axes := rfl
@[simp] theorem modPort_clusters : (s.modPort p f).clusters = s.clusters := rfl
@[simp] theorem modPort_ports : (s.modPort p f).ports = upd s.ports p f := rfl
@[simp] theorem modPort_trgs : (s.modPort p f).trgs = s.trgs := rfl
@[simp] theorem modPort_mfs : (s.modPort p f).mfs = s.mfs := rfl
@[simp] theorem modPort_fabric : (s.modPort p f).fabric = s.fabric := rfl
@[simp] theorem modPort_tasks : (s.modPort p f).tasks = s.tasks := rfl
@[simp] theorem modPort_store : (s.modPort p f).store = s.store := rfl
@[simp] theorem modPort_groups : (s.modPort p f).groups = s.groups := rfl
@[simp] theorem modPort_markers : (s.modPort p f).markers = s.markers := rfl
@[simp] theorem modPort_ags : (s.modPort p f).ags = s.ags := rfl
@[simp] theorem modPort_cal : (s.modPort p f).cal = s.cal := rfl
@[simp] theorem modPort_steward : (s.modPort p f).steward = s.steward := rfl
@[simp] theorem modPort_con : (s.modPort p f).con = s.con := rfl
@[simp] theorem modPort_hspi : (s.modPort p f).hspi = s.hspi := rfl
@[simp] theorem modPort_console : (s.modPort p f).console = s.console := rfl
@[simp] theorem modPort_spi : (s.modPort p f).spi = s.spi := rfl
@[simp] theorem modPort_sp : (s.modPort p f).sp = s.sp := rfl
@[simp] theorem modPort_fifo : (s.modPort p f).fifo = s.fifo := rfl
@[simp] theorem modPort_bel : (s.modPort p f).bel = s.bel := rfl
@[simp] theorem modPort_sync : (s.modPort p f).sync = s.sync := rfl
@[simp] theorem modPort_boot : (s.modPort p f).boot = s.boot := rfl
@[simp] theorem modPort_sysEcc : (s.modPort p f).sysEcc = s.sysEcc := rfl
@[simp] theorem modPort_pending : (s.modPort p f).pending = s.pending := rfl
end

/-! ### modCluster -/

section
variable (k : Fin 8) (f : Cluster → Cluster)
@[simp] theorem modCluster_tb : (s.modCluster k f).tb = s.tb := rfl
@[simp] theorem modCluster_axes : (s.modCluster k f).axes = s.axes := rfl
@[simp] theorem modCluster_clusters : (s.modCluster k f).clusters = upd s.clusters k f := rfl
@[simp] theorem modCluster_ports : (s.modCluster k f).ports = s.ports := rfl
@[simp] theorem modCluster_trgs : (s.modCluster k f).trgs = s.trgs := rfl
@[simp] theorem modCluster_mfs : (s.modCluster k f).mfs = s.mfs := rfl
@[simp] theorem modCluster_fabric : (s.modCluster k f).fabric = s.fabric := rfl
@[simp] theorem modCluster_tasks : (s.modCluster k f).tasks = s.tasks := rfl
@[simp] theorem modCluster_store : (s.modCluster k f).store = s.store := rfl
@[simp] theorem modCluster_groups : (s.modCluster k f).groups = s.groups := rfl
@[simp] theorem modCluster_markers : (s.modCluster k f).markers = s.markers := rfl
@[simp] theorem modCluster_ags : (s.modCluster k f).ags = s.ags := rfl
@[simp] theorem modCluster_cal : (s.modCluster k f).cal = s.cal := rfl
@[simp] theorem modCluster_steward : (s.modCluster k f).steward = s.steward := rfl
@[simp] theorem modCluster_con : (s.modCluster k f).con = s.con := rfl
@[simp] theorem modCluster_hspi : (s.modCluster k f).hspi = s.hspi := rfl
@[simp] theorem modCluster_console : (s.modCluster k f).console = s.console := rfl
@[simp] theorem modCluster_spi : (s.modCluster k f).spi = s.spi := rfl
@[simp] theorem modCluster_sp : (s.modCluster k f).sp = s.sp := rfl
@[simp] theorem modCluster_fifo : (s.modCluster k f).fifo = s.fifo := rfl
@[simp] theorem modCluster_bel : (s.modCluster k f).bel = s.bel := rfl
@[simp] theorem modCluster_sync : (s.modCluster k f).sync = s.sync := rfl
@[simp] theorem modCluster_boot : (s.modCluster k f).boot = s.boot := rfl
@[simp] theorem modCluster_sysEcc : (s.modCluster k f).sysEcc = s.sysEcc := rfl
@[simp] theorem modCluster_pending : (s.modCluster k f).pending = s.pending := rfl
end

/-! ### modAxis -/

section
variable (a : Fin 4) (f : Axis → Axis)
@[simp] theorem modAxis_tb : (s.modAxis a f).tb = s.tb := rfl
@[simp] theorem modAxis_axes : (s.modAxis a f).axes = upd s.axes a f := rfl
@[simp] theorem modAxis_clusters : (s.modAxis a f).clusters = s.clusters := rfl
@[simp] theorem modAxis_ports : (s.modAxis a f).ports = s.ports := rfl
@[simp] theorem modAxis_trgs : (s.modAxis a f).trgs = s.trgs := rfl
@[simp] theorem modAxis_mfs : (s.modAxis a f).mfs = s.mfs := rfl
@[simp] theorem modAxis_fabric : (s.modAxis a f).fabric = s.fabric := rfl
@[simp] theorem modAxis_tasks : (s.modAxis a f).tasks = s.tasks := rfl
@[simp] theorem modAxis_store : (s.modAxis a f).store = s.store := rfl
@[simp] theorem modAxis_groups : (s.modAxis a f).groups = s.groups := rfl
@[simp] theorem modAxis_markers : (s.modAxis a f).markers = s.markers := rfl
@[simp] theorem modAxis_ags : (s.modAxis a f).ags = s.ags := rfl
@[simp] theorem modAxis_cal : (s.modAxis a f).cal = s.cal := rfl
@[simp] theorem modAxis_steward : (s.modAxis a f).steward = s.steward := rfl
@[simp] theorem modAxis_con : (s.modAxis a f).con = s.con := rfl
@[simp] theorem modAxis_hspi : (s.modAxis a f).hspi = s.hspi := rfl
@[simp] theorem modAxis_console : (s.modAxis a f).console = s.console := rfl
@[simp] theorem modAxis_spi : (s.modAxis a f).spi = s.spi := rfl
@[simp] theorem modAxis_sp : (s.modAxis a f).sp = s.sp := rfl
@[simp] theorem modAxis_fifo : (s.modAxis a f).fifo = s.fifo := rfl
@[simp] theorem modAxis_bel : (s.modAxis a f).bel = s.bel := rfl
@[simp] theorem modAxis_sync : (s.modAxis a f).sync = s.sync := rfl
@[simp] theorem modAxis_boot : (s.modAxis a f).boot = s.boot := rfl
@[simp] theorem modAxis_sysEcc : (s.modAxis a f).sysEcc = s.sysEcc := rfl
@[simp] theorem modAxis_pending : (s.modAxis a f).pending = s.pending := rfl
end

/-! ### modMf -/

section
variable (m : Fin 16) (f : Mf → Mf)
@[simp] theorem modMf_tb : (s.modMf m f).tb = s.tb := rfl
@[simp] theorem modMf_axes : (s.modMf m f).axes = s.axes := rfl
@[simp] theorem modMf_clusters : (s.modMf m f).clusters = s.clusters := rfl
@[simp] theorem modMf_ports : (s.modMf m f).ports = s.ports := rfl
@[simp] theorem modMf_trgs : (s.modMf m f).trgs = s.trgs := rfl
@[simp] theorem modMf_mfs : (s.modMf m f).mfs = upd s.mfs m f := rfl
@[simp] theorem modMf_fabric : (s.modMf m f).fabric = s.fabric := rfl
@[simp] theorem modMf_tasks : (s.modMf m f).tasks = s.tasks := rfl
@[simp] theorem modMf_store : (s.modMf m f).store = s.store := rfl
@[simp] theorem modMf_groups : (s.modMf m f).groups = s.groups := rfl
@[simp] theorem modMf_markers : (s.modMf m f).markers = s.markers := rfl
@[simp] theorem modMf_ags : (s.modMf m f).ags = s.ags := rfl
@[simp] theorem modMf_cal : (s.modMf m f).cal = s.cal := rfl
@[simp] theorem modMf_steward : (s.modMf m f).steward = s.steward := rfl
@[simp] theorem modMf_con : (s.modMf m f).con = s.con := rfl
@[simp] theorem modMf_hspi : (s.modMf m f).hspi = s.hspi := rfl
@[simp] theorem modMf_console : (s.modMf m f).console = s.console := rfl
@[simp] theorem modMf_spi : (s.modMf m f).spi = s.spi := rfl
@[simp] theorem modMf_sp : (s.modMf m f).sp = s.sp := rfl
@[simp] theorem modMf_fifo : (s.modMf m f).fifo = s.fifo := rfl
@[simp] theorem modMf_bel : (s.modMf m f).bel = s.bel := rfl
@[simp] theorem modMf_sync : (s.modMf m f).sync = s.sync := rfl
@[simp] theorem modMf_boot : (s.modMf m f).boot = s.boot := rfl
@[simp] theorem modMf_sysEcc : (s.modMf m f).sysEcc = s.sysEcc := rfl
@[simp] theorem modMf_pending : (s.modMf m f).pending = s.pending := rfl
end

/-! ### modTask -/

section
variable (t : Fin 320) (f : Task → Task)
@[simp] theorem modTask_tb : (s.modTask t f).tb = s.tb := rfl
@[simp] theorem modTask_axes : (s.modTask t f).axes = s.axes := rfl
@[simp] theorem modTask_clusters : (s.modTask t f).clusters = s.clusters := rfl
@[simp] theorem modTask_ports : (s.modTask t f).ports = s.ports := rfl
@[simp] theorem modTask_trgs : (s.modTask t f).trgs = s.trgs := rfl
@[simp] theorem modTask_mfs : (s.modTask t f).mfs = s.mfs := rfl
@[simp] theorem modTask_fabric : (s.modTask t f).fabric = s.fabric := rfl
@[simp] theorem modTask_tasks : (s.modTask t f).tasks = upd s.tasks t f := rfl
@[simp] theorem modTask_store : (s.modTask t f).store = s.store := rfl
@[simp] theorem modTask_groups : (s.modTask t f).groups = s.groups := rfl
@[simp] theorem modTask_markers : (s.modTask t f).markers = s.markers := rfl
@[simp] theorem modTask_ags : (s.modTask t f).ags = s.ags := rfl
@[simp] theorem modTask_cal : (s.modTask t f).cal = s.cal := rfl
@[simp] theorem modTask_steward : (s.modTask t f).steward = s.steward := rfl
@[simp] theorem modTask_con : (s.modTask t f).con = s.con := rfl
@[simp] theorem modTask_hspi : (s.modTask t f).hspi = s.hspi := rfl
@[simp] theorem modTask_console : (s.modTask t f).console = s.console := rfl
@[simp] theorem modTask_spi : (s.modTask t f).spi = s.spi := rfl
@[simp] theorem modTask_sp : (s.modTask t f).sp = s.sp := rfl
@[simp] theorem modTask_fifo : (s.modTask t f).fifo = s.fifo := rfl
@[simp] theorem modTask_bel : (s.modTask t f).bel = s.bel := rfl
@[simp] theorem modTask_sync : (s.modTask t f).sync = s.sync := rfl
@[simp] theorem modTask_boot : (s.modTask t f).boot = s.boot := rfl
@[simp] theorem modTask_sysEcc : (s.modTask t f).sysEcc = s.sysEcc := rfl
@[simp] theorem modTask_pending : (s.modTask t f).pending = s.pending := rfl
end

/-! ### modGroup -/

section
variable (g : Fin 8) (f : Group → Group)
@[simp] theorem modGroup_tb : (s.modGroup g f).tb = s.tb := rfl
@[simp] theorem modGroup_axes : (s.modGroup g f).axes = s.axes := rfl
@[simp] theorem modGroup_clusters : (s.modGroup g f).clusters = s.clusters := rfl
@[simp] theorem modGroup_ports : (s.modGroup g f).ports = s.ports := rfl
@[simp] theorem modGroup_trgs : (s.modGroup g f).trgs = s.trgs := rfl
@[simp] theorem modGroup_mfs : (s.modGroup g f).mfs = s.mfs := rfl
@[simp] theorem modGroup_fabric : (s.modGroup g f).fabric = s.fabric := rfl
@[simp] theorem modGroup_tasks : (s.modGroup g f).tasks = s.tasks := rfl
@[simp] theorem modGroup_store : (s.modGroup g f).store = s.store := rfl
@[simp] theorem modGroup_groups : (s.modGroup g f).groups = upd s.groups g f := rfl
@[simp] theorem modGroup_markers : (s.modGroup g f).markers = s.markers := rfl
@[simp] theorem modGroup_ags : (s.modGroup g f).ags = s.ags := rfl
@[simp] theorem modGroup_cal : (s.modGroup g f).cal = s.cal := rfl
@[simp] theorem modGroup_steward : (s.modGroup g f).steward = s.steward := rfl
@[simp] theorem modGroup_con : (s.modGroup g f).con = s.con := rfl
@[simp] theorem modGroup_hspi : (s.modGroup g f).hspi = s.hspi := rfl
@[simp] theorem modGroup_console : (s.modGroup g f).console = s.console := rfl
@[simp] theorem modGroup_spi : (s.modGroup g f).spi = s.spi := rfl
@[simp] theorem modGroup_sp : (s.modGroup g f).sp = s.sp := rfl
@[simp] theorem modGroup_fifo : (s.modGroup g f).fifo = s.fifo := rfl
@[simp] theorem modGroup_bel : (s.modGroup g f).bel = s.bel := rfl
@[simp] theorem modGroup_sync : (s.modGroup g f).sync = s.sync := rfl
@[simp] theorem modGroup_boot : (s.modGroup g f).boot = s.boot := rfl
@[simp] theorem modGroup_sysEcc : (s.modGroup g f).sysEcc = s.sysEcc := rfl
@[simp] theorem modGroup_pending : (s.modGroup g f).pending = s.pending := rfl
end

/-! ### modAg -/

section
variable (n : Fin 8) (f : Ag → Ag)
@[simp] theorem modAg_tb : (s.modAg n f).tb = s.tb := rfl
@[simp] theorem modAg_axes : (s.modAg n f).axes = s.axes := rfl
@[simp] theorem modAg_clusters : (s.modAg n f).clusters = s.clusters := rfl
@[simp] theorem modAg_ports : (s.modAg n f).ports = s.ports := rfl
@[simp] theorem modAg_trgs : (s.modAg n f).trgs = s.trgs := rfl
@[simp] theorem modAg_mfs : (s.modAg n f).mfs = s.mfs := rfl
@[simp] theorem modAg_fabric : (s.modAg n f).fabric = s.fabric := rfl
@[simp] theorem modAg_tasks : (s.modAg n f).tasks = s.tasks := rfl
@[simp] theorem modAg_store : (s.modAg n f).store = s.store := rfl
@[simp] theorem modAg_groups : (s.modAg n f).groups = s.groups := rfl
@[simp] theorem modAg_markers : (s.modAg n f).markers = s.markers := rfl
@[simp] theorem modAg_ags : (s.modAg n f).ags = upd s.ags n f := rfl
@[simp] theorem modAg_cal : (s.modAg n f).cal = s.cal := rfl
@[simp] theorem modAg_steward : (s.modAg n f).steward = s.steward := rfl
@[simp] theorem modAg_con : (s.modAg n f).con = s.con := rfl
@[simp] theorem modAg_hspi : (s.modAg n f).hspi = s.hspi := rfl
@[simp] theorem modAg_console : (s.modAg n f).console = s.console := rfl
@[simp] theorem modAg_spi : (s.modAg n f).spi = s.spi := rfl
@[simp] theorem modAg_sp : (s.modAg n f).sp = s.sp := rfl
@[simp] theorem modAg_fifo : (s.modAg n f).fifo = s.fifo := rfl
@[simp] theorem modAg_bel : (s.modAg n f).bel = s.bel := rfl
@[simp] theorem modAg_sync : (s.modAg n f).sync = s.sync := rfl
@[simp] theorem modAg_boot : (s.modAg n f).boot = s.boot := rfl
@[simp] theorem modAg_sysEcc : (s.modAg n f).sysEcc = s.sysEcc := rfl
@[simp] theorem modAg_pending : (s.modAg n f).pending = s.pending := rfl
end

/-! ### modTrg -/

section
variable (n : Fin 8) (f : Trg → Trg)
@[simp] theorem modTrg_tb : (s.modTrg n f).tb = s.tb := rfl
@[simp] theorem modTrg_axes : (s.modTrg n f).axes = s.axes := rfl
@[simp] theorem modTrg_clusters : (s.modTrg n f).clusters = s.clusters := rfl
@[simp] theorem modTrg_ports : (s.modTrg n f).ports = s.ports := rfl
@[simp] theorem modTrg_trgs : (s.modTrg n f).trgs = upd s.trgs n f := rfl
@[simp] theorem modTrg_mfs : (s.modTrg n f).mfs = s.mfs := rfl
@[simp] theorem modTrg_fabric : (s.modTrg n f).fabric = s.fabric := rfl
@[simp] theorem modTrg_tasks : (s.modTrg n f).tasks = s.tasks := rfl
@[simp] theorem modTrg_store : (s.modTrg n f).store = s.store := rfl
@[simp] theorem modTrg_groups : (s.modTrg n f).groups = s.groups := rfl
@[simp] theorem modTrg_markers : (s.modTrg n f).markers = s.markers := rfl
@[simp] theorem modTrg_ags : (s.modTrg n f).ags = s.ags := rfl
@[simp] theorem modTrg_cal : (s.modTrg n f).cal = s.cal := rfl
@[simp] theorem modTrg_steward : (s.modTrg n f).steward = s.steward := rfl
@[simp] theorem modTrg_con : (s.modTrg n f).con = s.con := rfl
@[simp] theorem modTrg_hspi : (s.modTrg n f).hspi = s.hspi := rfl
@[simp] theorem modTrg_console : (s.modTrg n f).console = s.console := rfl
@[simp] theorem modTrg_spi : (s.modTrg n f).spi = s.spi := rfl
@[simp] theorem modTrg_sp : (s.modTrg n f).sp = s.sp := rfl
@[simp] theorem modTrg_fifo : (s.modTrg n f).fifo = s.fifo := rfl
@[simp] theorem modTrg_bel : (s.modTrg n f).bel = s.bel := rfl
@[simp] theorem modTrg_sync : (s.modTrg n f).sync = s.sync := rfl
@[simp] theorem modTrg_boot : (s.modTrg n f).boot = s.boot := rfl
@[simp] theorem modTrg_sysEcc : (s.modTrg n f).sysEcc = s.sysEcc := rfl
@[simp] theorem modTrg_pending : (s.modTrg n f).pending = s.pending := rfl
end

/-! ### modFabric -/

section
variable (f : Fabric → Fabric)
@[simp] theorem modFabric_tb : (s.modFabric f).tb = s.tb := rfl
@[simp] theorem modFabric_axes : (s.modFabric f).axes = s.axes := rfl
@[simp] theorem modFabric_clusters : (s.modFabric f).clusters = s.clusters := rfl
@[simp] theorem modFabric_ports : (s.modFabric f).ports = s.ports := rfl
@[simp] theorem modFabric_trgs : (s.modFabric f).trgs = s.trgs := rfl
@[simp] theorem modFabric_mfs : (s.modFabric f).mfs = s.mfs := rfl
@[simp] theorem modFabric_fabric : (s.modFabric f).fabric = f s.fabric := rfl
@[simp] theorem modFabric_tasks : (s.modFabric f).tasks = s.tasks := rfl
@[simp] theorem modFabric_store : (s.modFabric f).store = s.store := rfl
@[simp] theorem modFabric_groups : (s.modFabric f).groups = s.groups := rfl
@[simp] theorem modFabric_markers : (s.modFabric f).markers = s.markers := rfl
@[simp] theorem modFabric_ags : (s.modFabric f).ags = s.ags := rfl
@[simp] theorem modFabric_cal : (s.modFabric f).cal = s.cal := rfl
@[simp] theorem modFabric_steward : (s.modFabric f).steward = s.steward := rfl
@[simp] theorem modFabric_con : (s.modFabric f).con = s.con := rfl
@[simp] theorem modFabric_hspi : (s.modFabric f).hspi = s.hspi := rfl
@[simp] theorem modFabric_console : (s.modFabric f).console = s.console := rfl
@[simp] theorem modFabric_spi : (s.modFabric f).spi = s.spi := rfl
@[simp] theorem modFabric_sp : (s.modFabric f).sp = s.sp := rfl
@[simp] theorem modFabric_fifo : (s.modFabric f).fifo = s.fifo := rfl
@[simp] theorem modFabric_bel : (s.modFabric f).bel = s.bel := rfl
@[simp] theorem modFabric_sync : (s.modFabric f).sync = s.sync := rfl
@[simp] theorem modFabric_boot : (s.modFabric f).boot = s.boot := rfl
@[simp] theorem modFabric_sysEcc : (s.modFabric f).sysEcc = s.sysEcc := rfl
@[simp] theorem modFabric_pending : (s.modFabric f).pending = s.pending := rfl
end

/-! ### modFifo -/

section
variable (f : Fifo → Fifo)
@[simp] theorem modFifo_tb : (s.modFifo f).tb = s.tb := rfl
@[simp] theorem modFifo_axes : (s.modFifo f).axes = s.axes := rfl
@[simp] theorem modFifo_clusters : (s.modFifo f).clusters = s.clusters := rfl
@[simp] theorem modFifo_ports : (s.modFifo f).ports = s.ports := rfl
@[simp] theorem modFifo_trgs : (s.modFifo f).trgs = s.trgs := rfl
@[simp] theorem modFifo_mfs : (s.modFifo f).mfs = s.mfs := rfl
@[simp] theorem modFifo_fabric : (s.modFifo f).fabric = s.fabric := rfl
@[simp] theorem modFifo_tasks : (s.modFifo f).tasks = s.tasks := rfl
@[simp] theorem modFifo_store : (s.modFifo f).store = s.store := rfl
@[simp] theorem modFifo_groups : (s.modFifo f).groups = s.groups := rfl
@[simp] theorem modFifo_markers : (s.modFifo f).markers = s.markers := rfl
@[simp] theorem modFifo_ags : (s.modFifo f).ags = s.ags := rfl
@[simp] theorem modFifo_cal : (s.modFifo f).cal = s.cal := rfl
@[simp] theorem modFifo_steward : (s.modFifo f).steward = s.steward := rfl
@[simp] theorem modFifo_con : (s.modFifo f).con = s.con := rfl
@[simp] theorem modFifo_hspi : (s.modFifo f).hspi = s.hspi := rfl
@[simp] theorem modFifo_console : (s.modFifo f).console = s.console := rfl
@[simp] theorem modFifo_spi : (s.modFifo f).spi = s.spi := rfl
@[simp] theorem modFifo_sp : (s.modFifo f).sp = s.sp := rfl
@[simp] theorem modFifo_fifo : (s.modFifo f).fifo = f s.fifo := rfl
@[simp] theorem modFifo_bel : (s.modFifo f).bel = s.bel := rfl
@[simp] theorem modFifo_sync : (s.modFifo f).sync = s.sync := rfl
@[simp] theorem modFifo_boot : (s.modFifo f).boot = s.boot := rfl
@[simp] theorem modFifo_sysEcc : (s.modFifo f).sysEcc = s.sysEcc := rfl
@[simp] theorem modFifo_pending : (s.modFifo f).pending = s.pending := rfl
end

/-! ### modSp -/

section
variable (f : Stream → Stream)
@[simp] theorem modSp_tb : (s.modSp f).tb = s.tb := rfl
@[simp] theorem modSp_axes : (s.modSp f).axes = s.axes := rfl
@[simp] theorem modSp_clusters : (s.modSp f).clusters = s.clusters := rfl
@[simp] theorem modSp_ports : (s.modSp f).ports = s.ports := rfl
@[simp] theorem modSp_trgs : (s.modSp f).trgs = s.trgs := rfl
@[simp] theorem modSp_mfs : (s.modSp f).mfs = s.mfs := rfl
@[simp] theorem modSp_fabric : (s.modSp f).fabric = s.fabric := rfl
@[simp] theorem modSp_tasks : (s.modSp f).tasks = s.tasks := rfl
@[simp] theorem modSp_store : (s.modSp f).store = s.store := rfl
@[simp] theorem modSp_groups : (s.modSp f).groups = s.groups := rfl
@[simp] theorem modSp_markers : (s.modSp f).markers = s.markers := rfl
@[simp] theorem modSp_ags : (s.modSp f).ags = s.ags := rfl
@[simp] theorem modSp_cal : (s.modSp f).cal = s.cal := rfl
@[simp] theorem modSp_steward : (s.modSp f).steward = s.steward := rfl
@[simp] theorem modSp_con : (s.modSp f).con = s.con := rfl
@[simp] theorem modSp_hspi : (s.modSp f).hspi = s.hspi := rfl
@[simp] theorem modSp_console : (s.modSp f).console = s.console := rfl
@[simp] theorem modSp_spi : (s.modSp f).spi = s.spi := rfl
@[simp] theorem modSp_sp : (s.modSp f).sp = f s.sp := rfl
@[simp] theorem modSp_fifo : (s.modSp f).fifo = s.fifo := rfl
@[simp] theorem modSp_bel : (s.modSp f).bel = s.bel := rfl
@[simp] theorem modSp_sync : (s.modSp f).sync = s.sync := rfl
@[simp] theorem modSp_boot : (s.modSp f).boot = s.boot := rfl
@[simp] theorem modSp_sysEcc : (s.modSp f).sysEcc = s.sysEcc := rfl
@[simp] theorem modSp_pending : (s.modSp f).pending = s.pending := rfl
end

/-! ### modBel -/

section
variable (f : Belfry → Belfry)
@[simp] theorem modBel_tb : (s.modBel f).tb = s.tb := rfl
@[simp] theorem modBel_axes : (s.modBel f).axes = s.axes := rfl
@[simp] theorem modBel_clusters : (s.modBel f).clusters = s.clusters := rfl
@[simp] theorem modBel_ports : (s.modBel f).ports = s.ports := rfl
@[simp] theorem modBel_trgs : (s.modBel f).trgs = s.trgs := rfl
@[simp] theorem modBel_mfs : (s.modBel f).mfs = s.mfs := rfl
@[simp] theorem modBel_fabric : (s.modBel f).fabric = s.fabric := rfl
@[simp] theorem modBel_tasks : (s.modBel f).tasks = s.tasks := rfl
@[simp] theorem modBel_store : (s.modBel f).store = s.store := rfl
@[simp] theorem modBel_groups : (s.modBel f).groups = s.groups := rfl
@[simp] theorem modBel_markers : (s.modBel f).markers = s.markers := rfl
@[simp] theorem modBel_ags : (s.modBel f).ags = s.ags := rfl
@[simp] theorem modBel_cal : (s.modBel f).cal = s.cal := rfl
@[simp] theorem modBel_steward : (s.modBel f).steward = s.steward := rfl
@[simp] theorem modBel_con : (s.modBel f).con = s.con := rfl
@[simp] theorem modBel_hspi : (s.modBel f).hspi = s.hspi := rfl
@[simp] theorem modBel_console : (s.modBel f).console = s.console := rfl
@[simp] theorem modBel_spi : (s.modBel f).spi = s.spi := rfl
@[simp] theorem modBel_sp : (s.modBel f).sp = s.sp := rfl
@[simp] theorem modBel_fifo : (s.modBel f).fifo = s.fifo := rfl
@[simp] theorem modBel_bel : (s.modBel f).bel = f s.bel := rfl
@[simp] theorem modBel_sync : (s.modBel f).sync = s.sync := rfl
@[simp] theorem modBel_boot : (s.modBel f).boot = s.boot := rfl
@[simp] theorem modBel_sysEcc : (s.modBel f).sysEcc = s.sysEcc := rfl
@[simp] theorem modBel_pending : (s.modBel f).pending = s.pending := rfl
end

/-! ### modSync -/

section
variable (f : Sync → Sync)
@[simp] theorem modSync_tb : (s.modSync f).tb = s.tb := rfl
@[simp] theorem modSync_axes : (s.modSync f).axes = s.axes := rfl
@[simp] theorem modSync_clusters : (s.modSync f).clusters = s.clusters := rfl
@[simp] theorem modSync_ports : (s.modSync f).ports = s.ports := rfl
@[simp] theorem modSync_trgs : (s.modSync f).trgs = s.trgs := rfl
@[simp] theorem modSync_mfs : (s.modSync f).mfs = s.mfs := rfl
@[simp] theorem modSync_fabric : (s.modSync f).fabric = s.fabric := rfl
@[simp] theorem modSync_tasks : (s.modSync f).tasks = s.tasks := rfl
@[simp] theorem modSync_store : (s.modSync f).store = s.store := rfl
@[simp] theorem modSync_groups : (s.modSync f).groups = s.groups := rfl
@[simp] theorem modSync_markers : (s.modSync f).markers = s.markers := rfl
@[simp] theorem modSync_ags : (s.modSync f).ags = s.ags := rfl
@[simp] theorem modSync_cal : (s.modSync f).cal = s.cal := rfl
@[simp] theorem modSync_steward : (s.modSync f).steward = s.steward := rfl
@[simp] theorem modSync_con : (s.modSync f).con = s.con := rfl
@[simp] theorem modSync_hspi : (s.modSync f).hspi = s.hspi := rfl
@[simp] theorem modSync_console : (s.modSync f).console = s.console := rfl
@[simp] theorem modSync_spi : (s.modSync f).spi = s.spi := rfl
@[simp] theorem modSync_sp : (s.modSync f).sp = s.sp := rfl
@[simp] theorem modSync_fifo : (s.modSync f).fifo = s.fifo := rfl
@[simp] theorem modSync_bel : (s.modSync f).bel = s.bel := rfl
@[simp] theorem modSync_sync : (s.modSync f).sync = f s.sync := rfl
@[simp] theorem modSync_boot : (s.modSync f).boot = s.boot := rfl
@[simp] theorem modSync_sysEcc : (s.modSync f).sysEcc = s.sysEcc := rfl
@[simp] theorem modSync_pending : (s.modSync f).pending = s.pending := rfl
end

/-! ### modBoot -/

section
variable (f : Boot → Boot)
@[simp] theorem modBoot_tb : (s.modBoot f).tb = s.tb := rfl
@[simp] theorem modBoot_axes : (s.modBoot f).axes = s.axes := rfl
@[simp] theorem modBoot_clusters : (s.modBoot f).clusters = s.clusters := rfl
@[simp] theorem modBoot_ports : (s.modBoot f).ports = s.ports := rfl
@[simp] theorem modBoot_trgs : (s.modBoot f).trgs = s.trgs := rfl
@[simp] theorem modBoot_mfs : (s.modBoot f).mfs = s.mfs := rfl
@[simp] theorem modBoot_fabric : (s.modBoot f).fabric = s.fabric := rfl
@[simp] theorem modBoot_tasks : (s.modBoot f).tasks = s.tasks := rfl
@[simp] theorem modBoot_store : (s.modBoot f).store = s.store := rfl
@[simp] theorem modBoot_groups : (s.modBoot f).groups = s.groups := rfl
@[simp] theorem modBoot_markers : (s.modBoot f).markers = s.markers := rfl
@[simp] theorem modBoot_ags : (s.modBoot f).ags = s.ags := rfl
@[simp] theorem modBoot_cal : (s.modBoot f).cal = s.cal := rfl
@[simp] theorem modBoot_steward : (s.modBoot f).steward = s.steward := rfl
@[simp] theorem modBoot_con : (s.modBoot f).con = s.con := rfl
@[simp] theorem modBoot_hspi : (s.modBoot f).hspi = s.hspi := rfl
@[simp] theorem modBoot_console : (s.modBoot f).console = s.console := rfl
@[simp] theorem modBoot_spi : (s.modBoot f).spi = s.spi := rfl
@[simp] theorem modBoot_sp : (s.modBoot f).sp = s.sp := rfl
@[simp] theorem modBoot_fifo : (s.modBoot f).fifo = s.fifo := rfl
@[simp] theorem modBoot_bel : (s.modBoot f).bel = s.bel := rfl
@[simp] theorem modBoot_sync : (s.modBoot f).sync = s.sync := rfl
@[simp] theorem modBoot_boot : (s.modBoot f).boot = f s.boot := rfl
@[simp] theorem modBoot_sysEcc : (s.modBoot f).sysEcc = s.sysEcc := rfl
@[simp] theorem modBoot_pending : (s.modBoot f).pending = s.pending := rfl
end

/-! ### modCal -/

section
variable (f : CalState → CalState)
@[simp] theorem modCal_tb : (s.modCal f).tb = s.tb := rfl
@[simp] theorem modCal_axes : (s.modCal f).axes = s.axes := rfl
@[simp] theorem modCal_clusters : (s.modCal f).clusters = s.clusters := rfl
@[simp] theorem modCal_ports : (s.modCal f).ports = s.ports := rfl
@[simp] theorem modCal_trgs : (s.modCal f).trgs = s.trgs := rfl
@[simp] theorem modCal_mfs : (s.modCal f).mfs = s.mfs := rfl
@[simp] theorem modCal_fabric : (s.modCal f).fabric = s.fabric := rfl
@[simp] theorem modCal_tasks : (s.modCal f).tasks = s.tasks := rfl
@[simp] theorem modCal_store : (s.modCal f).store = s.store := rfl
@[simp] theorem modCal_groups : (s.modCal f).groups = s.groups := rfl
@[simp] theorem modCal_markers : (s.modCal f).markers = s.markers := rfl
@[simp] theorem modCal_ags : (s.modCal f).ags = s.ags := rfl
@[simp] theorem modCal_cal : (s.modCal f).cal = f s.cal := rfl
@[simp] theorem modCal_steward : (s.modCal f).steward = s.steward := rfl
@[simp] theorem modCal_con : (s.modCal f).con = s.con := rfl
@[simp] theorem modCal_hspi : (s.modCal f).hspi = s.hspi := rfl
@[simp] theorem modCal_console : (s.modCal f).console = s.console := rfl
@[simp] theorem modCal_spi : (s.modCal f).spi = s.spi := rfl
@[simp] theorem modCal_sp : (s.modCal f).sp = s.sp := rfl
@[simp] theorem modCal_fifo : (s.modCal f).fifo = s.fifo := rfl
@[simp] theorem modCal_bel : (s.modCal f).bel = s.bel := rfl
@[simp] theorem modCal_sync : (s.modCal f).sync = s.sync := rfl
@[simp] theorem modCal_boot : (s.modCal f).boot = s.boot := rfl
@[simp] theorem modCal_sysEcc : (s.modCal f).sysEcc = s.sysEcc := rfl
@[simp] theorem modCal_pending : (s.modCal f).pending = s.pending := rfl
end

/-! ### modLink -/

section
variable (k : Link) (f : LinkState → LinkState)
@[simp] theorem modLink_tb : (s.modLink k f).tb = s.tb := by cases k <;> rfl
@[simp] theorem modLink_axes : (s.modLink k f).axes = s.axes := by cases k <;> rfl
@[simp] theorem modLink_clusters : (s.modLink k f).clusters = s.clusters := by cases k <;> rfl
@[simp] theorem modLink_ports : (s.modLink k f).ports = s.ports := by cases k <;> rfl
@[simp] theorem modLink_trgs : (s.modLink k f).trgs = s.trgs := by cases k <;> rfl
@[simp] theorem modLink_mfs : (s.modLink k f).mfs = s.mfs := by cases k <;> rfl
@[simp] theorem modLink_fabric : (s.modLink k f).fabric = s.fabric := by cases k <;> rfl
@[simp] theorem modLink_tasks : (s.modLink k f).tasks = s.tasks := by cases k <;> rfl
@[simp] theorem modLink_store : (s.modLink k f).store = s.store := by cases k <;> rfl
@[simp] theorem modLink_groups : (s.modLink k f).groups = s.groups := by cases k <;> rfl
@[simp] theorem modLink_markers : (s.modLink k f).markers = s.markers := by cases k <;> rfl
@[simp] theorem modLink_ags : (s.modLink k f).ags = s.ags := by cases k <;> rfl
@[simp] theorem modLink_cal : (s.modLink k f).cal = s.cal := by cases k <;> rfl
@[simp] theorem modLink_steward : (s.modLink k f).steward = s.steward := by cases k <;> rfl
@[simp] theorem modLink_console : (s.modLink k f).console = s.console := by cases k <;> rfl
@[simp] theorem modLink_spi : (s.modLink k f).spi = s.spi := by cases k <;> rfl
@[simp] theorem modLink_sp : (s.modLink k f).sp = s.sp := by cases k <;> rfl
@[simp] theorem modLink_fifo : (s.modLink k f).fifo = s.fifo := by cases k <;> rfl
@[simp] theorem modLink_bel : (s.modLink k f).bel = s.bel := by cases k <;> rfl
@[simp] theorem modLink_sync : (s.modLink k f).sync = s.sync := by cases k <;> rfl
@[simp] theorem modLink_boot : (s.modLink k f).boot = s.boot := by cases k <;> rfl
@[simp] theorem modLink_sysEcc : (s.modLink k f).sysEcc = s.sysEcc := by cases k <;> rfl
@[simp] theorem modLink_pending : (s.modLink k f).pending = s.pending := by cases k <;> rfl
@[simp] theorem modLink_con_con : (s.modLink .con f).con = f s.con := rfl
@[simp] theorem modLink_con_hspi : (s.modLink .con f).hspi = s.hspi := rfl
@[simp] theorem modLink_hspi_con : (s.modLink .hspi f).con = s.con := rfl
@[simp] theorem modLink_hspi_hspi : (s.modLink .hspi f).hspi = f s.hspi := rfl
@[simp] theorem modLink_link : (s.modLink k f).link k = f (s.link k) := by cases k <;> rfl
end

end State

/-! ### Entries of a vector -/

variable {α : Type} {n : Nat}

theorem upd_same (v : Vector α n) (i : Fin n) (f : α → α) : (upd v i f)[i] = f v[i] := by simp [upd]

/-- The form of an entry that simp reads. -/
@[simp] theorem upd_same_val (v : Vector α n) (i : Fin n) (f : α → α) : (upd v i f)[i.val] = f v[i.val] := upd_same v i f

theorem upd_other (v : Vector α n) (i j : Fin n) (f : α → α) (h : i ≠ j) : (upd v i f)[j] = v[j] := by
  have : i.val ≠ j.val := fun e => h (Fin.ext e)
  simp [upd, Vector.getElem_set_ne, this]

theorem updAll_get (v : Vector α n) (f : Fin n → α → α) (i : Fin n) : (updAll v f)[i] = f i v[i] := by simp [updAll]

@[simp] theorem updAll_get_val (v : Vector α n) (f : Fin n → α → α) (i : Fin n) : (updAll v f)[i.val] = f i v[i.val] :=
  updAll_get v f i

end Sys2Proof.Machine
end

