-- ==== Sys2Proof/Laws/Frames.lean ====
section
/-! SUPPORT. The algebra of SameBut (what an operation leaves alone), and the parts that the shared operations may change. -/
namespace Sys2Proof.Machine
open Sys2Proof

theorem SameBut.refl (ps s) : SameBut ps s s := by intro p _; cases p <;> rfl
theorem SameBut.trans {ps s t u} (h : SameBut ps s t) (k : SameBut ps t u) : SameBut ps s u := by
  intro p hp; have a := h p hp; have b := k p hp; cases p <;> exact b.trans a
theorem SameBut.mono {ps qs s t} (h : SameBut ps s t) (k : ∀ p ∈ ps, p ∈ qs) : SameBut qs s t := fun p hp => h p (fun hq =>
    hp (k p hq))
theorem foldS_same {α} {ps : List Part} {f : α → State → State} (h : ∀ a s, SameBut ps s (f a s)) (xs : List α) (s : State) :
    SameBut ps s (foldS xs f s) := by
  unfold foldS
  induction xs generalizing s with
  | nil => exact .refl _ _
  | cons x xs ih => exact (h x s).trans (ih (f x s))
theorem linkByte_typed (k : Link) (v : State) (b : Byte) (f : LinkState → LinkState) (g1 : v.hears k = true) (g2 :
    (v.link k).mode = .typed) (h1 : b ≠ 13) (h2 : b ≠ 10) (h3 : b ≠ 0) (h : ({ v.link k with afterCr := false } :
    LinkState).typedByte b = f (v.link k)) : linkByte k b v = attn (v.modLink k f) := by
  unfold linkByte
  rw [if_neg (by simp only [g1, h1, h2, h3]; simp)]
  congr 1
  cases k <;> simp only [State.modLink, State.link] at g2 h ⊢ <;> rw [← h, g2]
theorem hears_attn_mod (k : Link) (v : State) (f : LinkState → LinkState) : (attn (v.modLink k f)).hears k = v.hears k := by
  cases k <;> rfl
theorem link_attn_mod (k : Link) (v : State) (f : LinkState → LinkState) : (attn (v.modLink k f)).link k = f (v.link k) := by
  cases k <;> rfl
theorem attn_attn_mod (k : Link) (v : State) (f g : LinkState → LinkState) :
    attn ((attn (v.modLink k f)).modLink k g) = attn (v.modLink k (fun l => g (f l))) := by
  cases k <;> rfl
theorem Outcome_next_inj {s t : State} : (Host.Outcome.next s : Host.Outcome State Fault Refusal) = .next t ↔ s = t :=
    ⟨fun h => by cases h; rfl, fun h => h ▸ rfl⟩
theorem settleQueue_id (s : State) (h : s.settled) : settleQueue s = s := by
  unfold settleQueue
  cases hq : s.steward.queue with
  | nil => rfl
  | cons r rs =>
    obtain ⟨p, hp⟩ := h r rs hq
    simp [drainBad, hq, hp]
theorem putOut_std (k : Link) (i : OutItem) (s : State) (h : i.kind = .standard) : putOut k i s = attn (s.modLink k (fun l =>
    { l with standardQ := l.standardQ ++ [i] })) := by
  unfold putOut
  simp only [h, decide_false, Bool.and_false, Bool.false_and, Bool.false_eq_true, if_false, reduceCtorEq]
theorem settled_attnmod {s : State} (h : s.settled) (k f) : (attn (s.modLink k f)).settled := by
  cases k <;> exact h
theorem Front.run {u : State} {r rest c} (h : Front u r rest c) (fault want syn run) (hw : want c = true) :
   steward fault want syn run u = if fault then storeFault r (u.took rest) else settleQueue (answer r (match syn c (u.took rest) with | some e => .error (e.code, e.detail) | none => run r c (u.took rest)) (u.took rest)) := by
  unfold steward
  have hb : ¬ (!u.stewardHere) = true := by simp [h.here]
  rw [if_neg hb]
  simp only [h.queue, h.parsed, hw]
  simp only [Bool.not_true, Bool.false_eq_true, if_false]
  split
  · rfl
  · show settleQueue (answer r (phases (syn c (u.took rest)) none r.busy _) (u.took rest)) = _
    unfold phases
    cases syn c (u.took rest) <;> simp [h.busy] <;> rfl
theorem SameBut.step {ps qs s0 s t} (h : SameBut ps s0 s) (k : SameBut qs s t) (hq : ∀ p ∈ qs, p ∈ ps := by decide) :
    SameBut ps s0 t := h.trans (k.mono hq)
theorem SameBut.ite {ps s t u} {c : Prop} [Decidable c] (ht : SameBut ps s t) (hu : SameBut ps s u) :
    SameBut ps s (if c then t else u) := by split <;> assumption
/-- The parts that raising an event may change. -/
abbrev raiseParts : List Part := [.groups, .fabric, .con, .hspi, .sp, .fifo]
theorem pushEvent_same {src cyc fl s} : SameBut [.sp, .fifo] s (pushEvent src cyc fl s).1 := by
  unfold pushEvent; refine .ite ?_ ?_ <;> (intro p hp; cases p <;> first | rfl | (exfalso; revert hp; decide))
theorem pushEvents_same (src cyc fl) : ∀ n r, SameBut [.sp, .fifo] r.1 (pushEvents src cyc fl n r).1
  | 0, r => .refl _ _
  | n + 1, r => pushEvent_same.trans (pushEvents_same src cyc fl n _)
theorem raiseCore_same {src cyc n fl s} : SameBut raiseParts s (raiseCore src cyc n fl s).1 := by
  unfold raiseCore
  extract_lets s1 old s2 s3 s4 s5
  have h3 : SameBut raiseParts s s3 := by (intro p hp; cases p <;> first | rfl | (exfalso; revert hp; decide))
  have h4 : SameBut raiseParts s s4 := by
    refine h3.trans ?_
    show SameBut _ _ (if _ then _ else _); split
    · (intro p hp; cases p <;> first | rfl | (exfalso; revert hp; decide))
    · exact .refl _ _
  have h5 : SameBut raiseParts s s5 := by
    refine h4.trans ?_
    show SameBut _ _ (if _ then _ else _); split
    · (intro p hp; cases p <;> first | rfl | (exfalso; revert hp; decide))
    · exact .refl _ _
  split
  · exact h5.step (pushEvents_same src cyc fl n (s5, false))
  · exact h5
theorem overflowStarted_same {r} : SameBut raiseParts r.1 (overflowStarted r) := by
  unfold overflowStarted; split
  · exact .ite (raiseCore_same.trans raiseCore_same) raiseCore_same
  · exact .refl _ _
theorem raiseAt_same {src cyc n fl s} : SameBut raiseParts s (raiseAt src cyc n fl s) := by
  unfold raiseAt; split
  · exact .refl _ _
  · exact (raiseCore_same).trans overflowStarted_same
theorem raise_same {src fl s} : SameBut raiseParts s (raise src fl s) := raiseAt_same
theorem modCluster_same {k f s} : SameBut [.clusters] s (s.modCluster k f) := by (intro p hp; cases p <;>
    first | rfl | (exfalso; revert hp; decide))
theorem modPort_same {k f s} : SameBut [.ports] s (s.modPort k f) := by (intro p hp; cases p <;> first | rfl | (exfalso; revert hp; decide))
theorem modMf_same {k f s} : SameBut [.mfs] s (s.modMf k f) := by (intro p hp; cases p <;> first | rfl | (exfalso; revert hp; decide))
theorem raisePortAt_same {p i c n fl s} : SameBut raiseParts s (raisePortAt p i c n fl s) := by
  unfold raisePortAt; split
  · exact raiseAt_same
  · exact .refl _ _
theorem missAt_same {p c fl s} : SameBut (.ports :: raiseParts) s (missAt p c fl s) := by
  unfold missAt; split
  · exact (modPort_same.mono (by decide)).step raiseAt_same
  · exact .refl _ _
/-- The parts that a step of a measurement frame may change. -/
abbrev mfParts : List Part := .mfs :: .ports :: raiseParts
theorem mfOpen_same {m e x s} : SameBut mfParts s (mfOpen m e x s) := by (intro p hp; cases p <;> first | rfl | (exfalso; revert hp; decide))
theorem mfStart_same {m e s} : SameBut mfParts s (mfStart m e s) := by
  unfold mfStart; dsimp only
  have mod (f) : SameBut mfParts s (s.modMf m f) := modMf_same.mono (by decide)
  split
  · exact .ite mfOpen_same (mod _)
  · exact .ite mfOpen_same (.refl _ _)
  · refine .ite (.refl _ _) (.ite ?_ (mod _))
    have h : SameBut mfParts s (miss e.port Flags.none s) := missAt_same.mono (by decide)
    exact .ite (h.trans mfOpen_same) h
theorem mfReplay_same {m s} : SameBut mfParts s (mfReplay m s) := by
  unfold mfReplay
  exact (modMf_same.mono (by decide)).trans (foldS_same (fun _ _ => mfStart_same) _ _)
theorem mfArmed_same {m i b s} : SameBut mfParts s (mfArmed m i b s) := (modMf_same.mono (by decide)).trans mfReplay_same
theorem mfFollow_same {m t s} : SameBut mfParts s (mfFollow m t s) := by
  unfold mfFollow; dsimp only
  have mod (f) : SameBut mfParts s (s.modMf m f) := modMf_same.mono (by decide)
  refine .ite (.refl _ _) ?_
  split
  · exact mfArmed_same
  · exact mod _
  · exact mod _
  · exact .refl _ _
theorem mfFollowAll_same {t s} : SameBut mfParts s (mfFollowAll t s) := foldS_same (fun _ _ => mfFollow_same) _ _
/-- A view of every port is the same in two states. -/
def PV {β} (π : Port → β) (s t : State) : Prop := ∀ p : Fin 64, π t.ports[p] = π s.ports[p]
section
variable {β : Type} {π : Port → β}
theorem PV.refl (s) : PV π s s := fun _ => rfl
theorem PV.trans {s t u} (h : PV π s t) (k : PV π t u) : PV π s u := fun p => (k p).trans (h p)
theorem PV.of_eq {s t : State} (h : t.ports = s.ports) : PV π s t := fun p => by rw [h]
theorem PV.ite {s t u} {c : Prop} [Decidable c] (ht : PV π s t) (hu : PV π s u) : PV π s (if c then t else u) := by split <;>
    assumption
theorem PV.mod {s : State} {k : Fin 64} {f} (h : π (f s.ports[k]) = π s.ports[k]) : PV π s (s.modPort k f) := by
  intro j
  by_cases e : k = j
  · subst e; exact (congrArg π (upd_same _ _ _)).trans h
  · exact congrArg π (upd_other _ _ _ _ e)
theorem foldPV {α} {f : α → State → State} (h : ∀ a s, PV π s (f a s)) (xs : List α) (s : State) : PV π s (foldS xs f s) := by
  unfold foldS
  induction xs generalizing s with
  | nil => exact PV.refl _
  | cons x xs ih => exact (h x s).trans (ih (f x s))
theorem raiseAt_pv {src cyc n fl s} : PV π s (raiseAt src cyc n fl s) := .of_eq (raiseAt_same .ports (by decide))
theorem missAt_pv (hπ : ∀ q c, π { q with counts := c } = π q) {p c fl s} : PV π s (missAt p c fl s) := by
  unfold missAt
  exact .ite ((PV.mod (hπ _ _)).trans raiseAt_pv) (.refl _)
theorem mfStart_pv (hπ : ∀ q c, π { q with counts := c } = π q) {m e s} : PV π s (mfStart m e s) := by
  unfold mfStart; dsimp only
  have mod (f) : PV π s (s.modMf m f) := .of_eq rfl
  have op {x} : PV π s (mfOpen m e x s) := .of_eq rfl
  split
  · exact .ite op (mod _)
  · exact .ite op (.refl _)
  · refine .ite (.refl _) (.ite ?_ (mod _))
    have h : PV π s (miss e.port Flags.none s) := missAt_pv hπ
    exact .ite (h.trans (.of_eq rfl)) h
theorem mfReplay_pv (hπ : ∀ q c, π { q with counts := c } = π q) {m s} : PV π s (mfReplay m s) := by
  unfold mfReplay
  exact PV.trans (t := s.modMf m (fun f => { f with starts := [] })) (.of_eq rfl) (foldPV (fun _ _ => mfStart_pv hπ) _ _)
theorem mfFollow_pv (hπ : ∀ q c, π { q with counts := c } = π q) {m t s} : PV π s (mfFollow m t s) := by
  unfold mfFollow; dsimp only
  have mod (f) : PV π s (s.modMf m f) := .of_eq rfl
  refine .ite (.refl _) ?_
  split
  · exact (mod _).trans (mfReplay_pv hπ)
  · exact mod _
  · exact mod _
  · exact .refl _
theorem mfFollowAll_pv (hπ : ∀ q c, π { q with counts := c } = π q) {t s} : PV π s (mfFollowAll t s) := foldPV (fun _ _ =>
    mfFollow_pv hπ) _ _
end
theorem portsOf_mem {k : Fin 8} {p} (h : p ∈ portsOf k) : clusterOf p = k := by
  revert k p; decide +kernel
theorem mem_portsOf {k : Fin 8} {p} (h : clusterOf p = k) : p ∈ portsOf k := by
  revert k p; decide +kernel
theorem fold_ports {xs : List (Fin 64)} {g : Port → Port} (hg : ∀ q, g (g q) = g q) {s : State} : ∀ p ∈ xs,
    (foldS xs (fun p s => s.modPort p g) s).ports[p] = g s.ports[p] := by
  unfold foldS
  induction xs generalizing s with
  | nil => intro p h; simp at h
  | cons x xs ih =>
    intro p hp
    simp only [List.foldl_cons]
    by_cases hx : p ∈ xs
    · rw [ih p hx]
      by_cases e : x = p
      · subst e; rw [show (s.modPort x g).ports[x] = _ from upd_same ..]; rw [hg]
      · rw [show (s.modPort x g).ports[p] = _ from upd_other _ _ _ _ e]
    · have e : p = x := by simpa [hx] using hp
      subst e
      have : ∀ (ys : List (Fin 64)) (t : State), p ∉ ys → (ys.foldl (fun t x => t.modPort x g) t).ports[p] = t.ports[p] := by
        intro ys; induction ys with
        | nil => intro t _; rfl
        | cons y ys ih2 =>
          intro t h
          simp only [List.mem_cons, not_or] at h
          simp only [List.foldl_cons]
          rw [ih2 _ h.2]
          exact upd_other _ _ _ _ (Ne.symm h.1)
      rw [this xs _ hx]
      exact upd_same ..
theorem fold_ports_other {xs : List (Fin 64)} {g : Port → Port} {s : State} {p} (h : p ∉ xs) : (foldS xs (fun p s =>
    s.modPort p g) s).ports[p] = s.ports[p] := by
  unfold foldS
  induction xs generalizing s with
  | nil => rfl
  | cons y ys ih =>
    simp only [List.mem_cons, not_or] at h
    simp only [List.foldl_cons]
    rw [ih h.2]
    exact upd_other _ _ _ _ (Ne.symm h.1)
/-- The stream port is the same in two states but for its last marker. -/
def SV (s t : State) : Prop := { t.sp with lastMark := none } = { s.sp with lastMark := none }
theorem SV.refl (s) : SV s s := rfl
theorem SV.trans {s t u} (h : SV s t) (k : SV t u) : SV s u := Eq.trans k h
theorem SV.of_eq {s t : State} (h : t.sp = s.sp) : SV s t := by unfold SV; rw [h]
theorem pushEvent_sv {src cyc fl s} : SV s (pushEvent src cyc fl s).1 := by
  unfold pushEvent
  extract_lets due rec1 rs r s'
  show SV s (if due && s.fifo.fitsB rs then _ else _)
  cases due && s.fifo.fitsB rs <;> rfl
theorem pushEvents_sv (src cyc fl) : ∀ n r, SV r.1 (pushEvents src cyc fl n r).1
  | 0, r => SV.refl _
  | n + 1, r => SV.trans (t := (pushEvent src cyc fl r.1).1) pushEvent_sv (pushEvents_sv src cyc fl n (_, _))
theorem raiseCore_sv {src cyc n fl s} : SV s (raiseCore src cyc n fl s).1 := by
  unfold raiseCore
  extract_lets s1 old s2 s3 s4 s5
  have h3 : SV s s3 := SV.of_eq rfl
  have h4 : SV s3 s4 := by show SV _ (if _ then _ else _); split <;> exact SV.of_eq rfl
  have h5 : SV s4 s5 := by show SV _ (if _ then _ else _); split <;> exact SV.of_eq rfl
  split
  · exact ((h3.trans h4).trans h5).trans (pushEvents_sv src cyc fl n (s5, false))
  · exact (h3.trans h4).trans h5
theorem overflowStarted_sv {r} : SV r.1 (overflowStarted r) := by
  unfold overflowStarted; split
  · extract_lets q
    have h : SV r.1 q.1 := raiseCore_sv
    split
    · exact h.trans raiseCore_sv
    · exact h
  · exact SV.refl _
theorem raiseAt_sv {src cyc n fl s} : SV s (raiseAt src cyc n fl s) := by
  unfold raiseAt; split
  · exact SV.refl _
  · exact SV.trans raiseCore_sv overflowStarted_sv
theorem SV.enable {s t} (h : SV s t) : t.sp.enable = s.sp.enable := (congrArg Stream.enable h : ({ t.sp with lastMark := none }
    : Stream).enable = _)
theorem SV.link {s t} (h : SV s t) : t.sp.link = s.sp.link := (congrArg Stream.link h : ({ t.sp with lastMark := none } :
    Stream).link = _)
theorem elapse_zero (s : State) (d) (h : s.tb.running = false ∨ d = 0) : s.elapse d = s := by
  unfold State.elapse; rw [if_pos]; simpa using h
theorem commitAll_same (s) : SameBut [.ports, .clusters, .groups] s (commitAll s) := by
  unfold commitAll
  have h1 : SameBut [.ports, .clusters, .groups] s (eachFin 64 (fun p s => commitPort p s.cycle s) s) :=
    foldS_same (fun p s => by unfold commitPort; (intro p hp; cases p <;> first | rfl | (exfalso; revert hp; decide))) _ _
  refine h1.trans (SameBut.trans (foldS_same (fun p s => ?_) _ _) (foldS_same (fun p s => ?_) _ _))
  · unfold commitJoin; split
    · split
      · (intro p hp; cases p <;> first | rfl | (exfalso; revert hp; decide))
      · exact .refl _ _
    · exact .refl _ _
  · unfold commitAlign; split
    · split
      · (intro p hp; cases p <;> first | rfl | (exfalso; revert hp; decide))
      · exact .refl _ _
    · exact .refl _ _
theorem State.Calm.closeCycle {s : State} {d : Nat} (h : s.Calm d) : closeCycle s = pruneProv s := by
  have nj : s.clusters.toList.any (fun c => decide (c.state = .joining)) = false := by
    have := h.clusters
    simp only [List.any_eq_false, Bool.or_eq_true, not_or] at this ⊢
    exact fun c hc => (this c hc).1
  have nd : s.clusters.toList.any (fun c => decide (c.state = .draining)) = false := by
    have := h.clusters
    simp only [List.any_eq_false, Bool.or_eq_true, not_or] at this ⊢
    exact fun c hc => (this c hc).2
  have nf : s.ports.toList.any (fun q => q.fires.any (fun t => decide (t.left = 0))) = false := by
    have := h.fires
    simp only [List.any_eq_false, Bool.not_eq_true', Bool.not_eq_false, List.isEmpty_iff] at this ⊢
    intro q hq
    simp [this q hq]
  have e1 : joinsDue s = s := if_neg (by simp [nj])
  have e2 : deliverDue s = s := if_neg (by simp [h.transit])
  have e3 : firesDue s = s := if_neg (by simp [nf])
  have e4 : workCycle s = s := by
    simp only [workCycle, actCycle, e1, e2, h.asserted, List.isEmpty_nil, if_true, e3]
  have e5 : outCycle s = s := if_neg (by simp [h.out])
  have e6 : drainsDue (pruneProv s) = pruneProv s := if_neg (by simpa [pruneProv] using nd)
  have e7 : (pruneProv s).fifo.inEpisode = false := h.episodes
  simp only [Machine.closeCycle, e4, e5, e6, e7, Bool.false_eq_true, if_false]

theorem Timebase.tick_tick (t : Timebase) (a b : Nat) : (t.tick a).tick b = t.tick (a + b) := by
  have hf : (t.tick a).follows = t.follows := rfl
  unfold Timebase.tick at hf ⊢
  simp only [Timebase.mk.injEq, true_and, hf, and_true]
  refine ⟨?_, by omega, by omega, by split <;> omega⟩
  rw [BitVec.add_assoc, ← BitVec.ofNat_add, Nat.add_mul]

/-- The ticks pass with no frame in progress. -/
theorem passTicks_tb (d : Nat) (s : State) (h : s.fifo.flights = []) :
    (passTicks d s).tb = s.tb.tick d ∧ SameBut [.tb, .sp, .fifo] s (passTicks d s) ∧ (passTicks d s).fifo.flights = [] := by
  have e : (ageLanes d (s.modTb (Timebase.tick d))).fifo.flights = [] := by
    unfold ageLanes
    split
    · exact h
    · exact congrArg (List.map _) h
  have el : passTicks d s = ageLanes d (s.modTb (Timebase.tick d)) := by
    unfold passTicks landFlights
    simp only [e, List.countP_nil, if_true]
  rw [el]
  refine ⟨?_, ?_, e⟩ <;> unfold ageLanes <;> split
  · rfl
  · rfl
  · intro p hp; cases p <;> first | rfl | (exfalso; revert hp; decide)
  · intro p hp; cases p <;> first | rfl | (exfalso; revert hp; decide)

/-- A stretch of time in which nothing is due: the groups lose the frames that are decided, what falls due is committed, and
the ticks pass. -/
theorem State.Calm.elapse {s : State} {d : Nat} (h : s.Calm d) (hr : s.tb.running = true) (hp : s.tb.phase < 4) (hd : d ≠ 0) :
    (s.elapse d).tb = s.tb.tick d ∧ SameBut [.tb, .ports, .clusters, .groups, .fabric, .sp, .fifo] s (s.elapse d) := by
  have er : s.renewed d = s := if_pos h.ticks
  have hc : ∀ v, (commitAll v).tb = v.tb ∧ SameBut [.tb, .ports, .clusters, .groups, .fabric, .sp, .fifo] v (commitAll v) :=
    fun v => ⟨commitAll_same v .tb (by decide), (commitAll_same v).mono (by decide)⟩
  unfold State.elapse
  rw [if_neg (by simp [hr, hd])]
  extract_lets v n
  have ev : v = s := er
  have en : n = (s.tb.phase + d) / 4 := by unfold n; rw [ev]
  split
  · obtain ⟨a, b, -⟩ := passTicks_tb d v (by rw [ev]; exact h.flights)
    exact ⟨(hc _).1.trans (a.trans (by rw [ev])), (ev ▸ b.mono (by decide) : SameBut _ s _).trans (hc _).2⟩
  · rename_i hn
    have e1 : endCycles n n v = passCycles n (pruneProv s) := by
      obtain ⟨k, hk⟩ : ∃ k, n = k + 1 := ⟨n - 1, by omega⟩
      have ew : cyclesToWork n (pruneProv s) = n := by
        have f1 : (pruneProv s).fabric.transit = [] := h.transit
        have f2 : (pruneProv s).ports.toList.flatMap (fun q => q.fires.map (fun t => t.left)) = [] := by
          rw [List.flatMap_eq_nil_iff]
          intro q hq
          have := h.fires
          simp only [List.any_eq_false, Bool.not_eq_true', Bool.not_eq_false, List.isEmpty_iff] at this
          rw [this q hq]; rfl
        have f3 : (pruneProv s).fifo.flights = [] := h.flights
        have f4 : (pruneProv s).cyclesToJoins = [] := by
          unfold State.cyclesToJoins
          rw [List.filterMap_eq_nil_iff]
          intro c hc
          have := h.clusters
          simp only [List.any_eq_false, Bool.or_eq_true, not_or, decide_eq_true_eq] at this
          split
          · rename_i hj _; exact absurd hj (this c hc).1
          · rfl
        have f5 : (pruneProv s).mfs.toList.any (fun f => !f.out.isEmpty) = false := h.out
        simp only [cyclesToWork, f1, f2, f3, f4, f5]
        simp
        omega
      rw [hk, endCycles, if_neg (by omega), ev, h.closeCycle, ← hk]
      dsimp only
      rw [ew, Nat.sub_self]
      cases k <;> simp [endCycles]
    rw [e1]
    have ef : (pruneProv s).fifo.flights = [] := h.flights
    obtain ⟨a, b, c⟩ := passTicks_tb (4 * n - (pruneProv s).tb.phase) (pruneProv s) ef
    have ep : passCycles n (pruneProv s) = (passTicks (4 * n - (pruneProv s).tb.phase) (pruneProv s)).modFabric (fun f =>
        { f with transit := f.transit.map (fun d => { d with left := d.left - n }) }) := by
      unfold passCycles ageAll
      refine if_neg ?_
      have : (passTicks (4 * n - (pruneProv s).tb.phase) (pruneProv s)).ports = (pruneProv s).ports := b .ports (by decide)
      simp only [State.modFabric, this]
      have e : (pruneProv s).ports = s.ports := rfl
      rw [e, h.fires]; decide
    have g : ∀ (x : State) f, SameBut [.tb, .ports, .clusters, .groups, .fabric, .sp, .fifo] x (x.modFabric f) :=
      fun x f p hp => by cases p <;> first | rfl | (exfalso; revert hp; decide)
    have g0 : SameBut [.tb, .ports, .clusters, .groups, .fabric, .sp, .fifo] s (pruneProv s) :=
      fun p hp => by cases p <;> first | rfl | (exfalso; revert hp; decide)
    obtain ⟨a2, b2, -⟩ := passTicks_tb ((v.tb.phase + d) % 4) (passCycles n (pruneProv s)) (by rw [ep]; exact c)
    refine ⟨(hc _).1.trans (a2.trans ?_), ?_⟩
    · rw [ep]
      show (passTicks _ (pruneProv s)).tb.tick _ = _
      rw [a, Timebase.tick_tick]
      have : 4 * n - (pruneProv s).tb.phase + (v.tb.phase + d) % 4 = d := by
        show 4 * n - s.tb.phase + (v.tb.phase + d) % 4 = d
        rw [ev]; omega
      rw [this]; rfl
    · refine SameBut.trans ?_ (hc _).2
      refine SameBut.trans ?_ (b2.mono (by decide))
      rw [ep]
      exact g0.trans ((b.mono (by decide)).trans (g _ _))

end Sys2Proof.Machine
end

