-- ==== Sys2Proof/Laws/Mild.lean ====
section
/-! SUPPORT. Operations that leave the timebase, the stream port, and the states of the clusters and the axes alone,
    or change the state of one cluster. -/
namespace Sys2Proof.Machine
open Sys2Proof

/-- The timebase, the stream port, and the states of the clusters and the axes are the same in two states. -/
structure Mild (s t : State) : Prop where
  tb : t.tb = s.tb
  sp : SV s t
  cl : ∀ k : Fin 8, t.clusters[k].state = s.clusters[k].state
  ax : ∀ a : Fin 4, t.axes[a].state = s.axes[a].state ∧ t.axes[a].cfg = s.axes[a].cfg
theorem Mild.refl (s) : Mild s s := ⟨rfl, SV.refl _, fun _ => rfl, fun _ => ⟨rfl, rfl⟩⟩
theorem Mild.trans {s t u} (h : Mild s t) (k : Mild t u) : Mild s u :=
  ⟨k.tb.trans h.tb, h.sp.trans k.sp, fun j => (k.cl j).trans (h.cl j), fun a => ⟨(k.ax a).1.trans (h.ax a).1, (k.ax a).2.trans
      (h.ax a).2⟩⟩
theorem Mild.ite {s t u} {c : Prop} [Decidable c] (ht : Mild s t) (hu : Mild s u) : Mild s (if c then t else u) := by split <;>
    assumption
theorem foldMild {α} {f : α → State → State} (h : ∀ a s, Mild s (f a s)) (xs : List α) (s : State) : Mild s (foldS xs f s) := by
  unfold foldS
  induction xs generalizing s with
  | nil => exact .refl _
  | cons x xs ih => exact (h x s).trans (ih (f x s))
theorem eachMild {n} {f : Fin n → State → State} (h : ∀ a s, Mild s (f a s)) (s : State) : Mild s (eachFin n f s) :=
    foldMild h _ s
theorem Mild.of {ps s t} (h : SameBut ps s t) (hn : ∀ p ∈ [Part.tb, .sp, .clusters, .axes], p ∉ ps := by decide) : Mild s t :=
    by
  have t0 := h .tb (hn _ (by simp)); have t1 := h .sp (hn _ (by simp)); have t2 := h .clusters (hn _ (by simp)); have t3 :=
      h .axes (hn _ (by simp))
  simp only [Part.same] at t0 t1 t2 t3
  exact ⟨t0, SV.of_eq t1, fun k => by rw [t2], fun a => by rw [t3]; exact ⟨rfl, rfl⟩⟩
theorem Mild.mk' {s t : State} (h0 : t.tb = s.tb) (h1 : t.sp = s.sp) (h2 : t.clusters = s.clusters) (h3 : t.axes = s.axes) :
    Mild s t :=
  ⟨h0, SV.of_eq h1, fun k => by rw [h2], fun a => by rw [h3]; exact ⟨rfl, rfl⟩⟩
theorem Mild.cluster {s : State} {k f} (h : (f s.clusters[k]).state = s.clusters[k].state) : Mild s (s.modCluster k f) := by
  refine ⟨rfl, SV.refl _, fun j => ?_, fun a => ⟨rfl, rfl⟩⟩
  by_cases e : k = j
  · subst e; exact (congrArg Cluster.state (upd_same _ _ _)).trans h
  · exact congrArg Cluster.state (upd_other _ _ _ _ e)
theorem Mild.axis {s : State} {a f} (h : (f s.axes[a]).state = s.axes[a].state ∧ (f s.axes[a]).cfg = s.axes[a].cfg) :
    Mild s (s.modAxis a f) := by
  refine ⟨rfl, SV.refl _, fun k => rfl, fun j => ?_⟩
  by_cases e : a = j
  · subst e; exact ⟨(congrArg Axis.state (upd_same _ _ _)).trans h.1, (congrArg Axis.cfg (upd_same _ _ _)).trans h.2⟩
  · exact ⟨congrArg Axis.state (upd_other _ _ _ _ e), congrArg Axis.cfg (upd_other _ _ _ _ e)⟩
theorem Mild.port {s : State} {p f} : Mild s (s.modPort p f) := Mild.mk' rfl rfl rfl rfl
theorem Mild.group {s : State} {g f} : Mild s (s.modGroup g f) := Mild.mk' rfl rfl rfl rfl
theorem raiseAt_mild {src cyc n fl s} : Mild s (raiseAt src cyc n fl s) :=
  ⟨raiseAt_same .tb (by decide), raiseAt_sv, fun k => congrArg (fun v => v[k].state) (raiseAt_same .clusters (by decide) :
      (raiseAt src cyc n fl s).clusters = _), fun a => by
    have : (raiseAt src cyc n fl s).axes = s.axes := raiseAt_same .axes (by decide)
    rw [this]; exact ⟨rfl, rfl⟩⟩
theorem raise_mild {src fl s} : Mild s (raise src fl s) := raiseAt_mild
theorem missAt_mild {p c fl s} : Mild s (missAt p c fl s) := by
  unfold missAt; exact .ite (Mild.port.trans raiseAt_mild) (.refl _)
theorem happen_same {src n s} : SameBut [.fabric] s (happen src n s) := by unfold happen; exact .ite (.refl _ _) (by (intro p hp; cases p <;> first | rfl | (exfalso; revert hp; decide)))
theorem raisePortAt_mild {p i c n fl s} : Mild s (raisePortAt p i c n fl s) := by
  unfold raisePortAt; exact .ite raiseAt_mild (.refl _)
theorem retracted_mild {a n s} : Mild s (retracted a n s) := by
  unfold retracted
  refine .ite (.refl _) ?_
  dsimp only
  exact .ite (Mild.trans (Mild.axis ⟨rfl, rfl⟩) raise_mild) (Mild.axis ⟨rfl, rfl⟩)
theorem countRemoved_mild {p n s} : Mild s (countRemoved p n s) := by
  unfold countRemoved
  refine Mild.cluster ?_
  split <;> rfl
theorem retractPulse_mild {p x b s} : Mild s (retractPulse p x b s) := by
  unfold retractPulse
  extract_lets s1 s2
  have h1 : Mild s s1 := Mild.trans (t := dropPulse p x s) Mild.port countRemoved_mild
  have h2 : Mild s s2 := by
    refine h1.trans ?_
    show Mild s1 (match x.axisFrame with | some (a, _, _) => retracted a 1 s1 | none => s1)
    split
    · exact retracted_mild
    · exact .refl _
  exact .ite (h2.trans missAt_mild) h2
theorem retractSome_mild {a sel s} : Mild s (retractSome a sel s) := by
  unfold retractSome
  refine Mild.trans (Mild.trans (eachMild (fun p s => ?_) _) (eachMild (fun k s => ?_) _)) (eachMild (fun g s => ?_) _)
  · extract_lets c xs s1
    have h : Mild s s1 := foldMild (fun _ _ => retractPulse_mild) _ _
    split
    · exact .ite ((h.trans Mild.port).trans retracted_mild) h
    · exact h
  · split
    · exact .ite ((Mild.cluster rfl).trans retracted_mild) (.refl _)
    · exact .refl _
  · split
    · exact .ite (Mild.group.trans retracted_mild) (.refl _)
    · exact .refl _
theorem retractEdges_mild {a sel s} : Mild s (retractEdges a sel s) := retractSome_mild
/-- The parts that halting a group may change. -/
abbrev haltParts : List Part := .ags :: raiseParts
theorem modGroup_same {g f s} : SameBut [.groups] s (s.modGroup g f) := by (intro p hp; cases p <;> first | rfl | (exfalso; revert hp; decide))
theorem agStop_same {g t s} : SameBut [.ags] s (agStop g t s) := by (intro p hp; cases p <;> first | rfl | (exfalso; revert hp; decide))
theorem haltGroup_same {g c t s} : SameBut haltParts s (haltGroup g c t s) := by
  unfold haltGroup keepSample
  extract_lets v s1
  have h1 : SameBut [.groups] s s1 := modGroup_same.trans modGroup_same
  exact (h1.mono (by decide)).trans ((raiseAt_same.mono (by decide)).trans (agStop_same.mono (by decide)))
theorem haltGroup_mild {g c t s} : Mild s (haltGroup g c t s) := by
  unfold haltGroup keepSample
  extract_lets v s1
  have h1 : Mild s s1 := Mild.group.trans Mild.group
  refine h1.trans (Mild.trans (t := raiseGroup g 5 t 1 s1) raiseAt_mild ?_)
  generalize raiseGroup g 5 t 1 s1 = w
  exact Mild.of agStop_same
theorem haltAligned_mild {a s} : Mild s (haltAligned a s) := by
  refine eachMild (fun g s => ?_) _
  split
  · exact .ite haltGroup_mild (.refl _)
  · exact .refl _
theorem markHold_same {p t s} : SameBut [.mfs] s (markHold p t s) := by intro p hp; cases p <;> first | rfl | (exfalso; revert hp; decide)
theorem formHeld_mild {p h s} : Mild s (formHeld p h s) := by
  unfold formHeld formStamp
  extract_lets shifted keep fl s1
  have h1 : Mild s s1 := .ite (Mild.of markHold_same) (.refl _)
  clear_value s1
  exact h1.trans (Mild.port.trans raisePortAt_mild)
theorem releaseHeld_mild {p s} : Mild s (releaseHeld p s) := Mild.port.trans (foldMild (fun _ _ => formHeld_mild) _ _)
theorem overflowStarted_mild {r} : Mild r.1 (overflowStarted r) := by
  refine ⟨overflowStarted_same .tb (by decide), overflowStarted_sv, fun k => ?_, fun a => ?_⟩
  · exact congrArg (fun v => v[k].state) (overflowStarted_same .clusters (by decide) : (overflowStarted r).clusters = _)
  · have : (overflowStarted r).axes = r.1.axes := overflowStarted_same .axes (by decide)
    rw [this]; exact ⟨rfl, rfl⟩
theorem mfResult_mild {m x s} : Mild s (mfResult m x s) := by
  unfold mfResult
  extract_lets _ _ _ _ _ r _ s1
  have h1 : Mild s s1 := Mild.of modMf_same
  exact .ite (h1.trans (Mild.of modMf_same)) h1
theorem mfForm_mild {m s} : Mild s (mfForm m s) := by
  unfold mfForm
  extract_lets runs s'
  exact Mild.trans (t := s') (Mild.mk' rfl rfl rfl rfl) (foldMild (fun _ _ => mfResult_mild) _ _)
theorem dropDelivery_mild {t k s} : Mild s (dropDelivery t k s) := Mild.mk' rfl rfl rfl rfl
theorem releaseDelivery_mild {d s} : Mild s (releaseDelivery d s) := by
  unfold releaseDelivery
  exact .ite dropDelivery_mild (.ite (Mild.mk' rfl rfl rfl rfl) (.ite dropDelivery_mild (Mild.mk' rfl rfl rfl rfl)))
theorem releaseDeliveries_mild {s} : Mild s (releaseDeliveries s) :=
  Mild.trans (t := s.modFabric (fun f => { f with held := [] })) (Mild.mk' rfl rfl rfl rfl)
    (foldMild (fun _ _ => releaseDelivery_mild) _ _)
theorem release_mild {s} : Mild s (release s) :=
  ((eachMild (fun _ _ => releaseHeld_mild) _).trans (eachMild (fun _ _ => mfForm_mild) _)).trans releaseDeliveries_mild
theorem mfFollowAll_mild {t s} : Mild s (mfFollowAll t s) := by
  refine ⟨mfFollowAll_same .tb (by decide), ?_, fun k => ?_, fun a => ?_⟩
  rotate_left
  · exact congrArg (fun v => v[k].state) (mfFollowAll_same .clusters (by decide) : (mfFollowAll t s).clusters = _)
  · have : (mfFollowAll t s).axes = s.axes := mfFollowAll_same .axes (by decide)
    rw [this]; exact ⟨rfl, rfl⟩
  · have mod : ∀ m f (s : State), SV s (s.modMf m f) := fun _ _ _ => SV.of_eq rfl
    have op : ∀ m e x s, SV s (mfOpen m e x s) := fun _ _ _ _ => SV.of_eq rfl
    have ite : ∀ {s t u : State} {c : Prop} [Decidable c], SV s t → SV s u → SV s (if c then t else u) := by
      intro s t u c _ h k; split <;> assumption
    have ms : ∀ m e s, SV s (mfStart m e s) := by
      intro m e s
      unfold mfStart; dsimp only
      have h : SV s (miss e.port Flags.none s) := by
        unfold miss missAt
        exact ite (SV.trans (t := s.modPort e.port _) (SV.of_eq rfl) raiseAt_sv) (SV.refl _)
      split
      · exact ite (op _ _ _ _) (mod _ _ _)
      · exact ite (op _ _ _ _) (SV.refl _)
      · exact ite (SV.refl _) (ite (ite (h.trans (op _ _ _ _)) h) (mod _ _ _))
    have foldSV : ∀ {α} {f : α → State → State} (h : ∀ a s, SV s (f a s)) (xs : List α) (s : State), SV s (foldS xs f s) := by
      intro α f h xs
      unfold foldS
      induction xs with
      | nil => intro s; exact .refl _
      | cons x xs ih => intro s; exact (h x s).trans (ih (f x s))
    have rs : ∀ m s, SV s (mfReplay m s) := fun m s => (mod m _ s).trans (foldSV (fun _ _ => ms _ _ _) _ _)
    refine foldSV (fun m s => ?_) _ _
    unfold mfFollow; dsimp only
    refine ite (SV.refl _) ?_
    split
    · exact (mod m _ s).trans (rs _ _)
    · exact mod _ _ _
    · exact mod _ _ _
    · exact SV.refl _
theorem arriveStamp_mild {r s} : Mild s (arriveStamp r s) := by
  unfold arriveStamp
  extract_lets a b c
  have hc : Mild s c := Mild.trans (t := { s with fifo := b.1 }) (Mild.mk' rfl rfl rfl rfl) (overflowStarted_mild (r :=
      ({ s with fifo := b.1 }, b.2)))
  exact .ite hc (hc.trans Mild.port)
theorem takeRecord_mild {k s} : Mild s (takeRecord k s) := by
  unfold takeRecord
  split
  · exact .refl _
  · split
    · exact .refl _
    · exact Mild.trans (Mild.trans Mild.port (Mild.cluster rfl)) arriveStamp_mild
theorem emptyBuffers_mild {k} (n s) : Mild s (emptyBuffers k n s) := by
  induction n generalizing s with
  | zero => exact .refl s
  | succ n ih =>
    have h := (takeRecord_mild (k := k) (s := s)).trans (ih (takeRecord k s))
    rw [emptyBuffers]
    exact .ite (.refl s) h
theorem leaveActive_mild {k s} : Mild s (leaveActive k s) := by
  unfold leaveActive
  exact .ite (.refl _) (Mild.trans (Mild.cluster rfl) (foldMild (fun _ _ => Mild.port) _ _))
theorem startupEnd_mild {s} : Mild s (startupEnd s) := by
  unfold startupEnd; split
  · exact .ite (Mild.mk' rfl rfl rfl rfl) (.refl _)
  · exact .refl _
/-- As Mild, but the cluster k takes a state. -/
structure MildBut (k : Fin 8) (st : ClState) (s t : State) : Prop where
  tb : t.tb = s.tb
  sp : SV s t
  cl : ∀ j : Fin 8, t.clusters[j].state = if j = k then st else s.clusters[j].state
  ax : ∀ a : Fin 4, t.axes[a].state = s.axes[a].state ∧ t.axes[a].cfg = s.axes[a].cfg
theorem Mild.but {k st s t u} (h : MildBut k st s t) (m : Mild t u) : MildBut k st s u :=
  ⟨m.tb.trans h.tb, h.sp.trans m.sp, fun j => (m.cl j).trans (h.cl j), fun a => ⟨(m.ax a).1.trans (h.ax a).1, (m.ax a).2.trans
      (h.ax a).2⟩⟩
theorem Mild.thenBut {k st s t u} (m : Mild s t) (h : MildBut k st t u) : MildBut k st s u :=
  ⟨h.tb.trans m.tb, m.sp.trans h.sp, fun j => (h.cl j).trans (by split; rfl; exact m.cl j), fun a => ⟨(h.ax a).1.trans
      (m.ax a).1, (h.ax a).2.trans (m.ax a).2⟩⟩
theorem MildBut.then {k a b s t u} (h : MildBut k a s t) (m : MildBut k b t u) : MildBut k b s u :=
  ⟨m.tb.trans h.tb, h.sp.trans m.sp, fun j => by rw [m.cl j]; split; rfl; rw [h.cl j]; rw [if_neg (by assumption)], fun a =>
      ⟨(m.ax a).1.trans (h.ax a).1, (m.ax a).2.trans (h.ax a).2⟩⟩
theorem MildBut.mod {k st} {s : State} {f} (h : (f s.clusters[k]).state = st) : MildBut k st s (s.modCluster k f) := by
  refine ⟨rfl, SV.refl _, fun j => ?_, fun a => ⟨rfl, rfl⟩⟩
  by_cases e : k = j
  · subst e; rw [if_pos rfl]; exact (congrArg Cluster.state (upd_same _ _ _)).trans h
  · rw [if_neg (Ne.symm e)]; exact congrArg Cluster.state (upd_other _ _ _ _ e)
theorem endWork_mild {k st s} : MildBut k st s (endWork k st s) := by
  unfold endWork
  dsimp only
  refine Mild.but (t := State.modCluster _ k _) (Mild.thenBut (Mild.trans leaveActive_mild (foldMild (fun _ _ =>
      Mild.port) _ _)) (MildBut.mod rfl)) ((emptyBuffers_mild _ _).trans mfFollowAll_mild)
theorem drainEnd_mild {k n s} : MildBut k .off s (drainEnd k n s) := by
  unfold drainEnd
  dsimp only
  exact Mild.but (MildBut.mod rfl) ((foldMild (fun _ _ => Mild.port) _ _).trans startupEnd_mild)
theorem clusterLockloss_mild {k s} : MildBut k .off s (clusterLockloss k s) := by
  unfold clusterLockloss
  dsimp only
  split
  · rename_i h
    refine ⟨rfl, SV.refl _, fun j => ?_, fun a => ⟨rfl, rfl⟩⟩
    split
    · rename_i e; subst e; exact h
    · rfl
  · exact endWork_mild.then drainEnd_mild
  · have h := endWork_mild (k := k) (st := .off) (s := s)
    generalize endWork k .off s = v at *
    exact Mild.but h (Mild.cluster rfl)
theorem eachFin_ind {n : Nat} {f : Fin n → State → State} {P : Fin n → State → Prop} (h1 : ∀ i s, P i (f i s)) (h2 : ∀ i j s,
    P j s → P j (f i s)) (s : State) : ∀ j, P j (eachFin n f s) := by
  have : ∀ (xs : List (Fin n)) (s : State) j, (j ∈ xs ∨ P j s) → P j (foldS xs f s) := by
    intro xs
    unfold foldS
    induction xs with
    | nil => intro s j h; simpa using h
    | cons x xs ih =>
      intro s j h
      refine ih (f x s) j ?_
      by_cases hx : j ∈ xs
      · exact .inl hx
      · right
        rcases h with h | h
        · rcases List.mem_cons.1 h with h | h
          · subst h; exact h1 _ _
          · exact absurd h hx
        · exact h2 _ _ _ h
  intro j; exact this _ s j (.inl (List.mem_finRange j))

end Sys2Proof.Machine
end

