-- ==== Sys2Proof/Laws/Axes.lean ====
section
/-! SUPPORT. What the operations on the axes do to each axis. -/
namespace Sys2Proof.Machine
open Sys2Proof

/-- An axis without its counts of retracted edges. -/
def av (x : Axis) : Axis := { x with retracts := 0, retractedIn := none }
/-- Every axis is the same in two states but for its counts of retracted edges. -/
def AV (s t : State) : Prop := ∀ b : Fin 4, av t.axes[b] = av s.axes[b]
theorem AV.refl (s) : AV s s := fun _ => rfl
theorem AV.trans {s t u} (h : AV s t) (k : AV t u) : AV s u := fun j => (k j).trans (h j)
theorem AV.of_eq {s t : State} (h : t.axes = s.axes) : AV s t := fun j => by rw [h]
theorem AV.ite {s t u} {c : Prop} [Decidable c] (ht : AV s t) (hu : AV s u) : AV s (if c then t else u) := by split <;>
    assumption
theorem foldAV {α} {f : α → State → State} (h : ∀ a s, AV s (f a s)) (xs : List α) (s : State) : AV s (foldS xs f s) := by
  unfold foldS
  induction xs generalizing s with
  | nil => exact .refl _
  | cons x xs ih => exact (h x s).trans (ih (f x s))
theorem eachAV {n} {f : Fin n → State → State} (h : ∀ a s, AV s (f a s)) (s : State) : AV s (eachFin n f s) := foldAV h _ s
theorem AV.port {s : State} {p f} : AV s (s.modPort p f) := .of_eq rfl
theorem AV.group {s : State} {g f} : AV s (s.modGroup g f) := .of_eq rfl
theorem AV.cluster {s : State} {k f} : AV s (s.modCluster k f) := .of_eq rfl
theorem raiseAt_av {src cyc n fl s} : AV s (raiseAt src cyc n fl s) := .of_eq (raiseAt_same .axes (by decide))
theorem raise_av {src fl s} : AV s (raise src fl s) := raiseAt_av
theorem miss_av {p fl s} : AV s (miss p fl s) := by
  unfold miss missAt; exact .ite (AV.port.trans raiseAt_av) (.refl _)
theorem raisePortAt_av {p i c n fl s} : AV s (raisePortAt p i c n fl s) := by
  unfold raisePortAt; exact .ite raiseAt_av (.refl _)
theorem AV.axis {s : State} {a f} (h : av (f s.axes[a]) = av s.axes[a]) : AV s (s.modAxis a f) := by
  intro j
  by_cases e : a = j
  · subst e; exact (congrArg av (upd_same _ _ _)).trans h
  · exact congrArg av (upd_other _ _ _ _ e)
theorem retracted_av {a n s} : AV s (retracted a n s) := by
  unfold retracted
  refine .ite (.refl _) ?_
  dsimp only
  exact .ite (AV.trans (AV.axis rfl) raise_av) (AV.axis rfl)
theorem countRemoved_av {p n s} : AV s (countRemoved p n s) := AV.cluster
theorem retractPulse_av {p x b s} : AV s (retractPulse p x b s) := by
  unfold retractPulse
  extract_lets s1 s2
  have h1 : AV s s1 := AV.trans (t := dropPulse p x s) AV.port countRemoved_av
  have h2 : AV s s2 := by
    refine h1.trans ?_
    show AV s1 (match x.axisFrame with | some (a, _, _) => retracted a 1 s1 | none => s1)
    split
    · exact retracted_av
    · exact .refl _
  exact .ite (h2.trans miss_av) h2
theorem retractSome_av {a sel s} : AV s (retractSome a sel s) := by
  unfold retractSome
  refine AV.trans (AV.trans (eachAV (fun p s => ?_) _) (eachAV (fun k s => ?_) _)) (eachAV (fun g s => ?_) _)
  · extract_lets c xs s1
    have h : AV s s1 := foldAV (fun _ _ => retractPulse_av) _ _
    split
    · exact .ite ((h.trans AV.port).trans retracted_av) h
    · exact h
  · split
    · exact .ite (AV.cluster.trans retracted_av) (.refl _)
    · exact .refl _
  · split
    · exact .ite (AV.group.trans retracted_av) (.refl _)
    · exact .refl _
theorem retractEdges_av {a sel s} : AV s (retractEdges a sel s) := retractSome_av
theorem decideNow_av {f s} : AV s (decideNow f s) := .of_eq rfl
theorem haltGroup_av {g c t s} : AV s (haltGroup g c t s) := .of_eq (haltGroup_same .axes (by decide))
theorem haltAligned_av {a s} : AV s (haltAligned a s) := by
  refine eachAV (fun g s => ?_) _
  split
  · exact .ite haltGroup_av (.refl _)
  · exact .refl _
theorem formHeld_av {p h s} : AV s (formHeld p h s) := by
  unfold formHeld formStamp
  extract_lets shifted keep fl s1
  have h1 : AV s s1 := .ite (.of_eq rfl) (.refl _)
  clear_value s1
  exact h1.trans (AV.port.trans raisePortAt_av)
theorem releaseHeld_av {p s} : AV s (releaseHeld p s) := AV.port.trans (foldAV (fun _ _ => formHeld_av) _ _)
theorem mfResult_av {m x s} : AV s (mfResult m x s) := by
  unfold mfResult
  extract_lets _ _ _ _ _ r _ s1
  exact .ite (.of_eq rfl) (.of_eq rfl)
theorem mfForm_av {m s} : AV s (mfForm m s) := by
  unfold mfForm
  extract_lets runs s'
  exact AV.trans (t := s') (AV.of_eq rfl) (foldAV (fun _ _ => mfResult_av) _ _)
theorem releaseDelivery_av {d s} : AV s (releaseDelivery d s) := by
  unfold releaseDelivery
  exact .ite (.of_eq rfl) (.ite (.of_eq rfl) (.ite (.of_eq rfl) (.of_eq rfl)))
theorem release_av {s} : AV s (release s) := by
  unfold release
  refine AV.trans (t := eachFin 16 mfForm (eachFin 64 releaseHeld s)) (AV.trans (t := eachFin 64 releaseHeld s)
      (eachAV (fun _ _ => releaseHeld_av) _) (eachAV (fun _ _ => mfForm_av) _)) ?_
  unfold releaseDeliveries
  generalize eachFin 16 mfForm (eachFin 64 releaseHeld s) = v
  exact AV.trans (t := v.modFabric (fun f => { f with held := [] })) (.of_eq rfl) (foldAV (fun _ _ => releaseDelivery_av) _ _)
theorem fixJoin_av {k e s} : AV s (fixJoin k e s) := AV.cluster
theorem resolveWaiting_av {a s} : AV s (resolveWaiting a s) := by
  unfold resolveWaiting
  refine .ite (.refl _) ?_
  extract_lets s1
  have h1 : AV s s1 := eachAV (fun k s => by
    dsimp only
    split
    · exact .ite fixJoin_av (.refl _)
    · exact .refl _) _
  refine h1.trans (eachAV (fun g s => ?_) _)
  split
  · split
    · split
      · exact haltGroup_av
      · exact .refl _
      · exact AV.group
    · exact .refl _
  · exact .refl _
theorem deferScheduled_av {p o x n s} : AV s (deferScheduled p o x n s) := by
  have h : AV s (deferPulse p o x n s).1 := AV.port.trans (foldAV (fun _ _ => miss_av) _ _)
  exact .ite h (h.trans countRemoved_av)
theorem meetBound_av {p x} : ∀ fuel s, AV s (meetBound p x fuel s)
  | 0, s => AV.port
  | fuel + 1, s => by
    unfold meetBound
    dsimp only
    split
    · exact AV.port
    · split
      · exact AV.port
      · refine .ite (retractPulse_av.trans (meetBound_av fuel _)) ?_
        refine AV.trans ?_ (countRemoved_av.trans miss_av)
        split
        · exact retracted_av
        · exact .refl _
theorem settlePulse_av {p x s} : AV s (settlePulse p x s) := by
  unfold settlePulse
  split
  · exact AV.port
  · split
    · exact .ite deferScheduled_av (countRemoved_av.trans miss_av)
    · exact meetBound_av _ _
theorem placeAll_av {p b xs s} : AV s (placeAll p b xs s) := by
  unfold placeAll
  refine foldAV (fun x s => .ite ?_ settlePulse_av) _ _
  dsimp only
  refine AV.trans ?_ (countRemoved_av.trans miss_av)
  split
  · exact retracted_av
  · exact .refl _
theorem rePlace_av {p b f g s} : AV s (rePlace p b f g s) := by
  unfold rePlace
  exact .ite (.refl _) (AV.port.trans placeAll_av)
theorem bindFrame_av {a n b t f s} : AV s (bindFrame a n b t f s) := by
  unfold bindFrame
  dsimp only
  refine AV.trans (AV.trans (eachAV (fun p s => ?_) _) (eachAV (fun k s => ?_) _)) (eachAV (fun g s => ?_) _)
  · split
    · refine .ite (.ite ?_ ?_) rePlace_av
      · exact ((rePlace_av.trans AV.port).trans retracted_av).trans miss_av
      · exact rePlace_av.trans AV.port
    · exact rePlace_av
  · split
    · exact .ite (.ite (AV.cluster.trans retracted_av) AV.cluster) (.refl _)
    · exact .refl _
  · split
    · exact .ite (.ite AV.group (.ite (AV.group.trans retracted_av) AV.group)) (.refl _)
    · exact .refl _
theorem moveFrame_av {a n e s} : AV s (moveFrame a n e s) := by
  unfold moveFrame
  refine .ite (.refl _) ?_
  dsimp only
  refine AV.trans (AV.trans (eachAV (fun p s => ?_) _) (eachAV (fun k s => ?_) _)) (eachAV (fun g s => ?_) _)
  · split
    · refine .ite (.ite ?_ ?_) rePlace_av
      · exact ((rePlace_av.trans AV.port).trans retracted_av).trans miss_av
      · exact rePlace_av.trans AV.port
    · exact rePlace_av
  · split
    · exact .ite (.ite (AV.cluster.trans retracted_av) AV.cluster) (.refl _)
    · exact .refl _
  · split
    · exact .ite (.ite (AV.group.trans retracted_av) AV.group) (.refl _)
    · exact .refl _
theorem raiseAxis_av {a i s} : AV s (raiseAxis a i s) := raise_av
theorem wrapAt_av {a n s} : AV s (wrapAt a n s) := by unfold wrapAt; exact .ite raiseAxis_av (.refl _)
/-- The axis a becomes y but for its counts of retracted edges; the other axes stay. -/
def AW (a : Fin 4) (y : Axis) (s t : State) : Prop := av t.axes[a] = av y ∧ ∀ b : Fin 4, b ≠ a → av t.axes[b] = av s.axes[b]
theorem AW.mod {s : State} {a f} : AW a (f s.axes[a]) s (s.modAxis a f) :=
  ⟨congrArg av (upd_same _ _ _), fun b h => congrArg av (upd_other _ _ _ _ (Ne.symm h))⟩
theorem AW.then {a y s t u} (h : AW a y s t) (k : AV t u) : AW a y s u := ⟨(k a).trans h.1, fun b hb => (k b).trans (h.2 b hb)⟩
theorem AV.thenW {a y s t u} (k : AV s t) (h : AW a y t u) : AW a y s u := ⟨h.1, fun b hb => (h.2 b hb).trans (k b)⟩
theorem AW.past {a y z s t u} (h : AW a y s t) (k : AW a z t u) : AW a z s u := ⟨k.1, fun b hb => (k.2 b hb).trans (h.2 b hb)⟩
theorem av_facts {x y : Axis} (h : av x = av y) : x.cfg = y.cfg ∧ x.inForce = y.inForce ∧ x.state = y.state ∧
    x.anchor = y.anchor ∧ x.period = y.period ∧ x.misses = y.misses ∧ x.acquired = y.acquired ∧ x.pendIdx = y.pendIdx ∧
    x.pendCnt = y.pendCnt ∧ x.lastError = y.lastError ∧ x.count = y.count ∧ x.slips = y.slips ∧ x.losses = y.losses ∧
    x.decided = y.decided :=
  ⟨(congrArg Axis.cfg h : (av x).cfg = _), (congrArg Axis.inForce h : (av x).inForce = _), (congrArg Axis.state h :
      (av x).state = _), (congrArg Axis.anchor h : (av x).anchor = _), (congrArg Axis.period h : (av x).period = _),
      (congrArg Axis.misses h : (av x).misses = _), (congrArg Axis.acquired h : (av x).acquired = _),
      (congrArg Axis.pendIdx h : (av x).pendIdx = _), (congrArg Axis.pendCnt h : (av x).pendCnt = _),
      (congrArg Axis.lastError h : (av x).lastError = _), (congrArg Axis.count h : (av x).count = _), (congrArg Axis.slips h :
      (av x).slips = _), (congrArg Axis.losses h : (av x).losses = _), (congrArg Axis.decided h : (av x).decided = _)⟩
theorem AW.modAfter {s t : State} {a y f} (h : AW a y s t) (hf : ∀ x z, av x = av z → av (f x) = av (f z)) :
    AW a (f y) s (t.modAxis a f) :=
  ⟨(congrArg av (upd_same _ _ _)).trans (hf _ _ h.1), fun b hb => (congrArg av (upd_other _ _ _ _ (Ne.symm hb))).trans
      (h.2 b hb)⟩
theorem AV.modAfter {s t : State} {a f} (h : AV s t) (hf : ∀ x z, av x = av z → av (f x) = av (f z)) : AW a (f s.axes[a]) s (t.modAxis a f) :=
  AW.modAfter (y := s.axes[a]) ⟨h a, fun b _ => h b⟩ hf
theorem eq_av {x z : Axis} (h : av x = av z) : ∃ r c, x = { z with retracts := r, retractedIn := c } := by
  refine ⟨x.retracts, x.retractedIn, ?_⟩
  have e : ({ av x with retracts := x.retracts, retractedIn := x.retractedIn } : Axis) = { av z with retracts := x.retracts, retractedIn := x.retractedIn } := by rw [h]
  exact e
/-- An axis as a good frame leaves it. -/
def confAx (x : Axis) (ds : List (Frame × Outcome)) : Axis := { x with state := .confirmed, misses := 0, inForce := x.cfg.vals, decided := ds }
/-- An axis as a late or missing frame leaves it. -/
def retrAx (x : Axis) (at_ : TimeWord) (n : Frame) (real : Bool) (misses : Nat) : Axis := { x with state := .reacquire, anchor := some ⟨at_, n, real⟩, misses := misses, inForce := x.cfg.vals, decided := (n, .retracted) :: x.decided }
/-- An axis that is LOST. -/
def lostAx (x : Axis) : Axis := { newNumbering x with state := .lost }
/-- An axis with one loss more. -/
def lossAx (x : Axis) : Axis := { x with losses := x.losses + 1 }
theorem confirm_aw {a n t re} {s : State} : ∃ ds, AW a (confAx (s.axes[a].update t n) ds) s (confirmFrame a n t re s) := by
  unfold confirmFrame
  extract_lets ra ts s0 s1 e sh s2 s3 s4 s5 s6 s7 s8
  have h0 : AV s s0 := decideNow_av
  have e0 : s0.axes[a] = s.axes[a] := rfl
  have h1 : AW a (s.axes[a].update t n) s s1 := by
    have : AW a (s0.axes[a].update t n) s0 s1 := AW.mod
    rw [e0] at this
    exact h0.thenW this
  have h2 : ∃ ds, AW a (confAx (s.axes[a].update t n) ds) s s2 := by
    refine ⟨(n, .confirmed sh) :: (s.axes[a].update t n).decided, ?_⟩
    clear_value s1 sh
    exact h1.modAfter (f := fun x => { x with
      state := .confirmed, misses := 0, inForce := x.cfg.vals, decided := (n, .confirmed sh) :: x.decided })
      (fun x z h => by obtain ⟨r, c, rfl⟩ := eq_av h; rfl)
  obtain ⟨ds, h2⟩ := h2
  refine ⟨ds, ?_⟩
  have h3 : AV s2 s3 := by
    show AV s2 (if re then _ else _)
    clear_value s2
    exact .ite retractSome_av (.refl _)
  have h4 : AV s3 s4 := by
    show AV s3 (if !ra then _ else if re then _ else _)
    clear_value s3
    exact .ite bindFrame_av (.ite bindFrame_av moveFrame_av)
  have h5 : AV s4 s5 := by clear_value s4; exact release_av
  have h6 : AV s5 s6 := by
    show AV s5 (if ra then _ else _)
    clear_value s5
    refine .ite ?_ (.refl _)
    split
    · exact bindFrame_av
    · exact .refl _
  have h7 : AV s6 s7 := by clear_value s6; exact raiseAxis_av
  have h8 : AV s7 s8 := by clear_value s7; exact raise_av
  clear_value s8 s7 s6 s5 s4 s3 s2 s1
  exact h2.then ((((h3.trans h4).trans h5).trans h6).trans (h7.trans (h8.trans (AV.trans (t :=
      wrapAt a n s8) wrapAt_av resolveWaiting_av))))
theorem retract_aw {a n at_ real misses} {s : State} : AW a (retrAx s.axes[a] at_ n real misses) s (retractFrame a n at_ real misses s) := by
  unfold retractFrame
  extract_lets s0 s1 s2
  have h1 : AV s s1 := by
    refine (decideNow_av (f := ⟨a, n, s.axes[a].gen⟩)).trans ?_
    show AV s0 (if s0.axes[a].state = .reacquire then _ else _)
    clear_value s0
    exact .ite retractSome_av retractEdges_av
  have h2 : AW a (retrAx s.axes[a] at_ n real misses) s s2 := by
    clear_value s1
    exact h1.modAfter (f := fun x => { x with state := .reacquire, anchor := some ⟨at_, n, real⟩, misses := misses, inForce := x.cfg.vals, decided := (n, .retracted) :: x.decided }) (fun x z h => by
      obtain ⟨r, c, rfl⟩ := eq_av h; rfl)
  clear_value s2 s1
  exact h2.then (AV.trans (t := release s2) release_av wrapAt_av)
theorem enterLost_aw {a b} {s : State} : AW a (if b then lossAx (lostAx s.axes[a]) else lostAx s.axes[a]) s (enterLost a b s)
    := by
  unfold enterLost
  extract_lets s1 s2 s3
  have h1 : AV s s1 := retractEdges_av
  have h2 : AW a (lostAx s.axes[a]) s s2 := by
    clear_value s1
    exact h1.modAfter (f := fun x => { newNumbering x with state := .lost }) (fun x z h => by obtain ⟨r, c, rfl⟩ := eq_av h; rfl)
  have h3 : AW a (if b then lossAx (lostAx s.axes[a]) else lostAx s.axes[a]) s s3 := by
    show AW _ _ _ (if b then axisLoss a s2 else s2)
    clear_value s2
    cases b
    · exact h2
    · have : AW a (lossAx (lostAx s.axes[a])) s (s2.modAxis a (fun x => { x with losses := x.losses + 1 })) :=
        h2.modAfter (f := lossAx) (fun x z h => by obtain ⟨r, c, rfl⟩ := eq_av h; rfl)
      exact this.then raiseAxis_av
  clear_value s3 s2 s1
  exact h3.then (AV.trans (t := haltAligned a s3) haltAligned_av release_av)
theorem others_of {a y} {s t : State} (h : AW a y s t) : ∀ b : Fin 4, b ≠ a → (t.axes[b].state, t.axes[b].anchor,
    t.axes[b].period) = (s.axes[b].state, s.axes[b].anchor, s.axes[b].period) := by
  intro b hb
  have := av_facts (h.2 b hb)
  rw [this.2.2.1, this.2.2.2.1, this.2.2.2.2.1]
theorem index_eq {a t rest} {s : State} (h1 : s.axes[a].pendIdx = t :: rest) (h2 : ∀ c ∈ s.axes[a].pendCnt,
    tnotBefore t c.1 = false) (h3 : s.axes[a].cfg.mode = .frame) (h4 : s.axes[a].state = .reacquire → s.axes[a].anchor ≠ none) :
   indexEdge a s = (let s' := s.modAxis a (fun x => { x with pendIdx := rest })
      match s.axes[a].state with
        | .acquire | .lost => acquireEdge a t (s'.modAxis a (fun x => { x with lastTaken := some t }))
        | .confirmed => confirmedEdge a t s'
        | .reacquire => reacquireEdge a t s') := by
  unfold indexEdge
  simp only [h1, h3]
  refine (if_neg ?_).trans ?_
  · intro hc
    simp only [Bool.or_eq_true, Bool.and_eq_true, decide_eq_true_eq, Option.isNone_iff_eq_none] at hc
    rcases hc with hc | hc
    · split at hc
      · rename_i e
        have := h2 _ (by rw [e]; exact List.mem_cons_self ..)
        rw [this] at hc; cases hc
      · cases hc
    · exact h4 hc.1 hc.2
  · rfl
theorem axis_at (s : State) (a : Fin 4) (f) : (s.modAxis a f).axes[a] = f s.axes[a] := upd_same _ _ _
theorem axis_set (s : State) (a : Fin 4) (f) : s.modAxis a f = { s with axes := s.axes.set a (f s.axes[a]) } := rfl
theorem axis_twice (s : State) (a : Fin 4) (f g) : (s.modAxis a f).modAxis a g = s.modAxis a (fun x => g (f x)) := by
  simp only [State.modAxis]
  congr 1
  unfold upd; simp
theorem front_aw {a rest} {s : State} : AW a { s.axes[a] with pendIdx := rest } s (s.modAxis a (fun x => { x with pendIdx :=
    rest })) := AW.mod
theorem update_at {x : Axis} {t n an} (h : x.anchor = some an) : x.update t n = { x with
   period := clampPeriod x.cfg.period x.inForce.pull (x.period + divEven (tdiff t (predictFrom an x.period n) * periodOne)
       (2 ^ x.inForce.gain)),
   anchor := some ⟨t, n, true⟩, lastError := tdiff t (predictFrom an x.period n) } := by
  unfold Axis.update; rw [h]
theorem confirmed_late {a t} {s : State} {an} (h : s.axes[a].anchor = some an) (h1 :
    (testError s.axes[a] t (predictFrom an s.axes[a].period (an.n + 1))).natAbs ≤ s.axes[a].inForce.catchTu)
   (h2 : s.axes[a].inForce.tretract < (testError s.axes[a] t (predictFrom an s.axes[a].period (an.n + 1))).natAbs) :
   AW a { retrAx s.axes[a] t (an.n + 1) true 0 with slips := s.axes[a].slips + 1, lastTaken := some t } s (confirmedEdge a t s)
       := by
  unfold confirmedEdge
  simp only [h]
  rw [if_neg (by omega), if_pos h2]
  have h3 := retract_aw (a := a) (n := an.n + 1) (at_ := t) (real := true) (misses := 0) (s := s)
  generalize retractFrame a (an.n + 1) t true 0 s = s1 at h3 ⊢
  have h4 := h3.then (raiseAxis_av (a := a) (i := 0) (s := s1))
  generalize raiseAxis a 0 s1 = s2 at h4 ⊢
  have h5 := h4.modAfter (f := fun x => { x with slips := x.slips + 1, lastTaken := some t }) (fun x z h => by obtain ⟨r, c, rfl⟩ := eq_av h; rfl)
  exact h5.then raiseAxis_av
theorem reacquire_late {a t} {s : State} {an} (h : s.axes[a].anchor = some an) (h0 :
    tlater (tadd (predictFrom an s.axes[a].period (an.n + 1)) (-(s.axes[a].period / (2 * periodOne)))) t = false)
   (h1 : an.real = false ∨ s.axes[a].inForce.catchTu < (testError s.axes[a] t (predictFrom an s.axes[a].period (an.n + 1))).natAbs) :
   AW a (retrAx { s.axes[a] with lastTaken := some t } t (an.n + 1) true 0) s (reacquireEdge a t s) := by
  unfold reacquireEdge
  simp only [h, h0]
  rw [if_neg (by simp), if_neg]
  · have h2 : AW a { s.axes[a] with lastTaken := some t } s (s.modAxis a (fun x => { x with lastTaken := some t })) := AW.mod
    have e := axis_at s a (fun x => { x with lastTaken := some t })
    generalize s.modAxis a (fun x => { x with lastTaken := some t }) = s1 at h2 e ⊢
    have h3 := retract_aw (a := a) (n := an.n + 1) (at_ := t) (real := true) (misses := 0) (s := s1)
    rw [e] at h3
    exact (h2.past h3).then raiseAxis_av
  · intro hc
    simp only [Bool.and_eq_true, decide_eq_true_eq] at hc
    rcases h1 with h1 | h1
    · rw [h1] at hc; cases hc.1
    · omega
theorem acquire_third {a t t1 t2} {s : State} (h1 : s.axes[a].acquired = [t1, t2]) :
   ((tdiff t (tadd t2 (s.axes[a].period / periodOne))).natAbs ≤ s.axes[a].cfg.vals.catchTu → ∃ y, AW a y s (acquireEdge a t s) ∧
       y.state = .confirmed ∧ y.anchor = some ⟨t, s.axes[a].cfg.firstFrame, true⟩ ∧ y.pendIdx = s.axes[a].pendIdx) ∧
   (s.axes[a].cfg.vals.catchTu < (tdiff t (tadd t2 (s.axes[a].period / periodOne))).natAbs → ∃ y, AW a y s (acquireEdge a t s) ∧
       y.state = .acquire ∧ y.acquired = [t] ∧ y.pendIdx = s.axes[a].pendIdx) := by
  refine ⟨fun h3 => ?_, fun h3 => ?_⟩
  · unfold acquireEdge
    simp only [h1]
    rw [if_pos (by simpa using h3)]
    refine ⟨_, (AW.mod).then (AV.trans (t := raise (evAxis a 1) Flags.none (raiseAxis a 0 (s.modAxis a _))) (AV.trans (t :=
        raiseAxis a 0 (s.modAxis a _)) raiseAxis_av raise_av) resolveWaiting_av), ?_⟩
    exact ⟨rfl, rfl, rfl⟩
  · unfold acquireEdge
    simp only [h1]
    rw [if_neg (by simpa using h3)]
    exact ⟨_, (AW.mod).then raiseAxis_av, rfl, rfl, rfl⟩
theorem index_acq {a t rest} {s : State} (h1 : s.axes[a].pendIdx = t :: rest) (h2 : ∀ c ∈ s.axes[a].pendCnt,
    tnotBefore t c.1 = false) (h3 : s.axes[a].cfg.mode = .frame) (h : s.axes[a].state = .acquire ∨ s.axes[a].state = .lost) :
    indexEdge a s = acquireEdge a t (s.modAxis a (fun x => { x with pendIdx := rest, lastTaken := some t })) := by
  rw [index_eq h1 h2 h3 (fun e => by rcases h with h | h <;> rw [h] at e <;> cases e)]
  dsimp only
  rw [axis_twice]
  rcases h with h | h <;> rw [h]
theorem index_conf {a t rest} {s : State} (h1 : s.axes[a].pendIdx = t :: rest) (h2 : ∀ c ∈ s.axes[a].pendCnt,
    tnotBefore t c.1 = false) (h3 : s.axes[a].cfg.mode = .frame) (h : s.axes[a].state = .confirmed) :
    indexEdge a s = confirmedEdge a t (s.modAxis a (fun x => { x with pendIdx := rest })) := by
  rw [index_eq h1 h2 h3 (fun e => by rw [h] at e; cases e)]
  dsimp only
  rw [h]
theorem index_reac {a t rest} {s : State} (h1 : s.axes[a].pendIdx = t :: rest) (h2 : ∀ c ∈ s.axes[a].pendCnt,
    tnotBefore t c.1 = false) (h3 : s.axes[a].cfg.mode = .frame) (h : s.axes[a].state = .reacquire) (ha :
    s.axes[a].anchor ≠ none) :
    indexEdge a s = reacquireEdge a t (s.modAxis a (fun x => { x with pendIdx := rest })) := by
  rw [index_eq h1 h2 h3 (fun _ => ha)]
  dsimp only
  rw [h]
theorem confAx_facts {x : Axis} {t n an ds} (h : x.anchor = some an) : (confAx (x.update t n) ds).state = .confirmed ∧
    (confAx (x.update t n) ds).anchor = some ⟨t, n, true⟩ ∧ (confAx (x.update t n) ds).misses = 0 ∧
    (confAx (x.update t n) ds).lastError = tdiff t (predictFrom an x.period n) ∧
    (confAx (x.update t n) ds).pendIdx = x.pendIdx ∧
    (confAx (x.update t n) ds).period = clampPeriod x.cfg.period x.inForce.pull (x.period + divEven (tdiff t (predictFrom an x.period n) * 65536) (2 ^ x.inForce.gain)) := by
  have e : ((periodOne : Nat) : Int) = 65536 := by decide
  rw [update_at h, e]
  generalize (65536 : Int) = k
  refine ⟨rfl, rfl, rfl, rfl, rfl, ?_⟩
  dsimp only [confAx]
theorem confirm_good {a n t re} {s : State} {an} (h : s.axes[a].anchor = some an) :
   ∃ y, AW a y s (confirmFrame a n t re s) ∧ y.state = .confirmed ∧ y.anchor = some ⟨t, n, true⟩ ∧ y.misses = 0 ∧
       y.lastError = tdiff t (predictFrom an s.axes[a].period n) ∧ y.pendIdx = s.axes[a].pendIdx ∧
    y.period = clampPeriod s.axes[a].cfg.period s.axes[a].inForce.pull (s.axes[a].period + divEven (tdiff t (predictFrom an s.axes[a].period n) * 65536) (2 ^ s.axes[a].inForce.gain)) := by
  obtain ⟨ds, k⟩ := confirm_aw (a := a) (n := n) (t := t) (re := re) (s := s)
  exact ⟨_, k, confAx_facts h⟩
theorem edge_good {a t} {s : State} {an} (h : s.axes[a].anchor = some an) (h1 :
    (testError s.axes[a] t (predictFrom an s.axes[a].period (an.n + 1))).natAbs ≤ s.axes[a].inForce.catchTu)
   (h2 : (testError s.axes[a] t (predictFrom an s.axes[a].period (an.n + 1))).natAbs ≤ s.axes[a].inForce.tretract) :
       confirmedEdge a t s = confirmFrame a (an.n + 1) t false s := by
  unfold confirmedEdge
  simp only [h]
  rw [if_neg (by omega), if_neg (by omega)]
theorem edge_gone {a t} {s : State} {an} (h : s.axes[a].anchor = some an) (h1 :
    s.axes[a].inForce.catchTu < (testError s.axes[a] t (predictFrom an s.axes[a].period (an.n + 1))).natAbs) :
    confirmedEdge a t s = s := by
  unfold confirmedEdge
  simp only [h]
  rw [if_pos h1]
theorem reac_good {a t} {s : State} {an} (h : s.axes[a].anchor = some an) (h0 :
    tlater (tadd (predictFrom an s.axes[a].period (an.n + 1)) (-(s.axes[a].period / (2 * periodOne)))) t = false)
   (h1 : an.real = true) (h2 :
       (testError s.axes[a] t (predictFrom an s.axes[a].period (an.n + 1))).natAbs ≤ s.axes[a].inForce.catchTu) :
       reacquireEdge a t s = confirmFrame a (an.n + 1) t true s := by
  unfold reacquireEdge
  simp only [h, h0]
  rw [if_neg (by simp), if_pos (by simp only [h1, Bool.true_and, decide_eq_true_eq]; exact h2)]
theorem free_start {a} {s : State} {an} (h1 : s.axes[a].cfg.mode = .free) (h2 : s.axes[a].state = .confirmed) (h3 :
    s.axes[a].anchor = some an) (h4 : tnotBefore s.tb.now (s.axes[a].freeStart (s.axes[a].nextFrame an.n)) = true) :
    freeStartEvent a s = (let n := s.axes[a].nextFrame an.n; let w := s.axes[a].freeStart n
      raiseAt (evAxis a 0) (s.cycleOf w) 1 Flags.none (s.modAxis a (fun x => { x with anchor := some ⟨w, n, true⟩ }))) := by
  unfold freeStartEvent
  dsimp only
  rw [h1, h2, h3]
  dsimp only
  rw [if_pos h4]
theorem catch_eq {a} {s : State} {an} (h1 : s.axes[a].cfg.mode = .frame) (h2 : s.axes[a].state = .confirmed) (h3 :
    s.axes[a].anchor = some an) (h4 : s.axes[a].pendIdx = [])
   (h5 : tnotBefore s.cycle (tadd (predictFrom an s.axes[a].period (an.n + 1)) (s.axes[a].inForce.catchTu + 960000)) = true) :
   catchTimeout a s = (let s1 := axisLoss a ((retractFrame a (an.n + 1)
       (predictFrom an s.axes[a].period (an.n + 1)) false 1 s).modAxis a (fun x => { x with lastTaken := none }))
      if s.axes[a].inForce.missmax = 1 then enterLost a false s1 else s1) := by
  unfold catchTimeout
  dsimp only
  rw [h1, h2, h3]
  dsimp only
  rw [if_pos]
  · simp only [decide_eq_true_eq]
  · rw [h4]; simp only [List.any_nil, Bool.not_false, Bool.and_true]; exact h5
theorem pass_eq {a} {s : State} {an} (h1 : s.axes[a].cfg.mode = .frame) (h2 : s.axes[a].state = .reacquire) (h3 :
    s.axes[a].anchor = some an) (h4 : s.axes[a].pendIdx = [])
   (h5 : tnotBefore s.cycle (tadd (predictFrom an s.axes[a].period (an.n + 1)) (s.axes[a].period / 131072 + 960000)) = true) :
   reacquirePass a s = (let s1 := retractFrame a (an.n + 1) (predictFrom an s.axes[a].period (an.n + 1)) false (s.axes[a].misses + 1) s
      if s.axes[a].inForce.missmax ≤ s.axes[a].misses + 1 then enterLost a true s1 else s1) := by
  unfold reacquirePass
  dsimp only
  rw [h1, h2, h3]
  dsimp only
  rw [if_pos]
  rw [h4]; simp only [List.any_nil, Bool.not_false, Bool.and_true]; exact h5
theorem countTone_av {p a n k t f s} : AV s (countTone p a n k t f s) := by
  unfold countTone
  dsimp only
  split
  · refine .ite (.ite ?_ AV.port) (.refl _)
    exact (AV.port.trans retracted_av).trans miss_av
  · exact .refl _
theorem emitCount_av {a n k t f s} : AV s (emitCount a n k t f s) := by
  unfold emitCount
  refine eachAV (fun p s => ?_) _
  dsimp only
  refine AV.trans ?_ countTone_av
  exact .ite (foldAV (fun _ _ => retractPulse_av) _ _) rePlace_av
theorem count_eq {a t ovr rest} {s : State} (h1 : s.axes[a].pendCnt = (t, ovr) :: rest) (h2 : s.axes[a].pendIdx = []) (h3 :
    s.axes[a].cfg.mode = .increment) :
   countEdgeFront a s = countEdge a t ovr (s.modAxis a (fun x => { x with pendCnt := rest })) := by
  unfold countEdgeFront
  simp only [h1, h2, h3]
  rfl

end Sys2Proof.Machine
end

