-- ==== Sys2Proof/Laws/Clusters.lean ====
section
/-! SUPPORT. What the operations on the clusters do to each cluster and to its ports. -/
namespace Sys2Proof.Machine
open Sys2Proof

/-- A cluster without its turns and its running count of removed pulses. -/
def ce (c : Cluster) : Cluster := { c with turn := 0, calTurn := false, removedSoFar := 0 }
/-- Every cluster is the same in two states but for its turns and its running count. -/
def CC (s t : State) : Prop := ∀ j : Fin 8, ce t.clusters[j] = ce s.clusters[j]
theorem CC.refl (s) : CC s s := fun _ => rfl
theorem CC.trans {s t u} (h : CC s t) (k : CC t u) : CC s u := fun j => (k j).trans (h j)
theorem CC.of_eq {s t : State} (h : t.clusters = s.clusters) : CC s t := fun j => by rw [h]
theorem CC.of_same {ps s t} (h : SameBut ps s t) (hn : Part.clusters ∉ ps := by decide) : CC s t := .of_eq (h .clusters hn)
theorem CC.mod {s : State} {k f} (h : ∀ c, ce (f c) = ce c) : CC s (s.modCluster k f) := by
  intro j
  by_cases e : k = j
  · subst e; simp [State.modCluster, h]
  · show ce (upd s.clusters k f)[j] = _
    rw [upd_other _ _ _ _ e]
theorem CC.ite {s t u} {c : Prop} [Decidable c] (ht : CC s t) (hu : CC s u) : CC s (if c then t else u) := by split <;>
    assumption
theorem foldCC {α} {f : α → State → State} (h : ∀ a s, CC s (f a s)) (xs : List α) (s : State) : CC s (foldS xs f s) := by
  unfold foldS
  induction xs generalizing s with
  | nil => exact .refl _
  | cons x xs ih => exact (h x s).trans (ih (f x s))
theorem arriveStamp_cc {r s} : CC s (arriveStamp r s) := by
  unfold arriveStamp
  extract_lets a b c
  have hc : CC s c := CC.trans (t := { s with fifo := b.1 }) (CC.of_eq rfl) (CC.of_same (overflowStarted_same (r :=
      ({ s with fifo := b.1 }, b.2))))
  exact .ite hc hc
theorem takeRecord_cc {k s} : CC s (takeRecord k s) := by
  unfold takeRecord
  split
  · exact .refl _
  · split
    · exact .refl _
    · exact CC.trans (t := (s.modPort _ _).modCluster k _) (CC.mod (s := s.modPort _ _) (fun c => by cases c; rfl)) arriveStamp_cc
theorem emptyBuffers_cc {k} (n s) : CC s (emptyBuffers k n s) := by
  induction n generalizing s with
  | zero => exact CC.refl s
  | succ n ih =>
    have h := CC.trans (takeRecord_cc (k := k) (s := s)) (ih (takeRecord k s))
    rw [emptyBuffers]
    split
    · exact CC.refl s
    · exact h
theorem startupEnd_same {s} : SameBut [.boot, .bel] s (startupEnd s) := by
  unfold startupEnd; split
  · exact .ite (by (intro p hp; cases p <;> first | rfl | (exfalso; revert hp; decide))) (.refl _ _)
  · exact .refl _ _
theorem wakeEnd_same {s} : SameBut [.bel] s (wakeEnd s) := by
  unfold wakeEnd; split
  · exact .ite (.refl _ _) (by (intro p hp; cases p <;> first | rfl | (exfalso; revert hp; decide)))
  · exact .refl _ _
theorem nextTurns_cc {s} : CC s (nextTurns s) := by
  intro j
  show ce (updAll s.clusters _)[j] = _
  rw [updAll_get]
  split <;> rfl
theorem nextTurns_same {s} : SameBut [.clusters] s (nextTurns s) := by (intro p hp; cases p <;> first | rfl | (exfalso; revert hp; decide))
theorem foldPorts_same {xs : List (Fin 64)} {f : Fin 64 → Port → Port} {s} : SameBut [.ports] s (foldS xs (fun p s =>
    s.modPort p (f p)) s) := foldS_same (fun _ _ => modPort_same) _ _
theorem leaveActive_cl {k s} (j : Fin 8) : (leaveActive k s).clusters[j] = if j = k then { s.clusters[k] with span := if s.clusters[k].state = .active then s.clusters[k].span.map (fun x => (x.1, some s.cycle)) else s.clusters[k].span } else s.clusters[j] := by
  unfold leaveActive
  by_cases h : s.clusters[k].state = .active
  · have h' : s.clusters[k.val].state = .active := h
    rw [if_neg (by simp [h'])]
    have := (foldPorts_same (xs := portsOf k) (f := fun _ => Port.leaveActive s.cycle) (s := s.modCluster k fun c =>
        { c with span := c.span.map (fun x => (x.1, some s.cycle)) })) .clusters (by decide)
    dsimp only [Part.same] at this ⊢
    rw [this]
    by_cases e : j = k
    · subst e; simp [State.modCluster, h']
    · rw [if_neg e]; exact upd_other _ _ _ _ (Ne.symm e)
  · rw [if_pos h]
    split
    · rename_i e; subst e; simp only [h, if_false]
    · rfl
theorem foldS_ind {α} {P : State → Prop} {f : α → State → State} {xs : List α} (h : ∀ a ∈ xs, ∀ s, P s → P (f a s)) {s : State}
    (hs : P s) : P (foldS xs f s) := by
  unfold foldS
  induction xs generalizing s with
  | nil => exact hs
  | cons x xs ih => exact ih (fun a ha => h a (List.mem_cons_of_mem _ ha)) (h x List.mem_cons_self s hs)
theorem cl_drain {x k v} (h : v.clusters[k].state = .active) : (drainCluster k x v).clusters[k].state = .draining ∧ ∀ j : Fin 8, j ≠ k → (drainCluster k x v).clusters[j] = v.clusters[j] := by
  unfold drainCluster
  extract_lets c s1 s2 s3 s4
  have e : c.state = .active := h
  clear_value c
  rw [e]
  dsimp only
  let P : State → Prop := fun w => w.clusters[k].state = .draining ∧ ∀ j : Fin 8, j ≠ k → w.clusters[j] = v.clusters[j]
  have h2 : P s2 := by
    refine ⟨?_, fun j hj => ?_⟩
    · simp [s2, State.modCluster]
    · show (upd s1.clusters k _)[j] = _
      rw [upd_other _ _ _ _ (Ne.symm hj)]
      show (leaveActive k v).clusters[j] = _
      rw [leaveActive_cl, if_neg hj]
  have hP : ∀ w w' : State, w'.clusters = w.clusters → P w → P w' := by
    intro w w' e hw; show w'.clusters[k].state = _ ∧ ∀ j : Fin 8, _; rw [e]; exact hw
  have h3 : P s3 := by
    apply foldS_ind _ h2
    intro p hp w hw
    have hk := portsOf_mem hp
    unfold drainPort countRemoved
    dsimp only
    rw [hk]
    refine ⟨?_, fun j hj => ?_⟩
    · simp [State.modCluster, State.modPort]
      have : w.clusters[k.val].state = .draining := hw.1
      simp [this]
    · show (upd w.clusters k _)[j] = _
      rw [upd_other _ _ _ _ (Ne.symm hj)]
      exact hw.2 j hj
  have h4 : P s4 := by
    apply foldS_ind _ h3
    intro p _ w hw
    split
    · refine hP w _ ?_ hw
      unfold disarmPort
      dsimp only
      split <;> rfl
    · exact hw
  exact hP s4 _ (mfFollowAll_same .clusters (by decide)) h4
theorem modCluster_at (s : State) (k f) : (s.modCluster k f).clusters[k] = f s.clusters[k] := upd_same _ _ _
theorem ce_facts {a b : Cluster} (h : ce a = ce b) : a.state = b.state ∧ a.phase = b.phase ∧ a.powered = b.powered ∧
    a.vddio = b.vddio ∧ a.joinAt = b.joinAt ∧ a.offCause = b.offCause ∧ a.iostd = b.iostd ∧ a.epoch = b.epoch ∧
    a.joinAxis = b.joinAxis := by
  exact ⟨(congrArg Cluster.state h : (ce a).state = (ce b).state), (congrArg Cluster.phase h : (ce a).phase = (ce b).phase),
      (congrArg Cluster.powered h : (ce a).powered = (ce b).powered), (congrArg Cluster.vddio h : (ce a).vddio = (ce b).vddio),
      (congrArg Cluster.joinAt h : (ce a).joinAt = (ce b).joinAt), (congrArg Cluster.offCause h :
      (ce a).offCause = (ce b).offCause), (congrArg Cluster.iostd h : (ce a).iostd = (ce b).iostd), (congrArg Cluster.epoch h :
      (ce a).epoch = (ce b).epoch), (congrArg Cluster.joinAxis h : (ce a).joinAxis = (ce b).joinAxis)⟩
theorem ends_cc {s} : CC s (wakeEnd (startupEnd (nextTurns s))) :=
  nextTurns_cc.trans ((CC.of_same startupEnd_same).trans (CC.of_same wakeEnd_same))
theorem endWork_cl {k st s} : ∃ c : Cluster, ce (endWork k st s).clusters[k] = ce { c with state := st, phase := .none, window := none, fix := none, joinProv := [], calTurn := false, calDone := false, short := false } ∧ c.epoch = s.clusters[k].epoch ∧ c.joinAxis = s.clusters[k].joinAxis ∧ c.joinAt = s.clusters[k].joinAt ∧ c.offCause = s.clusters[k].offCause := by
  unfold endWork
  extract_lets s1 s2 s3
  have h : CC s3 (mfFollowAll s3.cycle (emptyBuffers k 256 s3)) := (emptyBuffers_cc _ _).trans (CC.of_same mfFollowAll_same)
  refine ⟨s2.clusters[k], ?_, ?_⟩
  · have h' := h k
    have e3 : s3 = s2.modCluster k (fun c => { c with state := st, phase := .none, window := none, fix := none, joinProv := [], calTurn := false, calDone := false, short := false }) := rfl
    clear_value s3
    rw [e3, modCluster_at] at h'
    rw [e3]
    exact h'
  · have e : s2.clusters[k] = (leaveActive k s).clusters[k] := by rw [show s2.clusters = s1.clusters from foldPorts_same .clusters (by decide)]
    rw [e, leaveActive_cl, if_pos rfl]
    exact ⟨rfl, rfl, rfl, rfl⟩
theorem port_at (s : State) (p : Fin 64) (f) : (s.modPort p f).ports[p] = f s.ports[p] := upd_same _ _ _
theorem endWork_cl2 {k st s} : ∃ sp, ce (endWork k st s).clusters[k] = ce { s.clusters[k] with span := sp, state := st, phase := .none, window := none, fix := none, joinProv := [], calTurn := false, calDone := false, short := false } := by
  unfold endWork
  extract_lets s1 s2 s3
  have h : CC s3 (mfFollowAll s3.cycle (emptyBuffers k 256 s3)) := (emptyBuffers_cc _ _).trans (CC.of_same mfFollowAll_same)
  have h' := h k
  have e3 : s3 = s2.modCluster k (fun c => { c with state := st, phase := .none, window := none, fix := none, joinProv := [], calTurn := false, calDone := false, short := false }) := rfl
  have e : s2.clusters[k] = (leaveActive k s).clusters[k] := by rw [show s2.clusters = s1.clusters from foldPorts_same .clusters (by decide)]
  rw [leaveActive_cl, if_pos rfl] at e
  obtain ⟨sp, e⟩ : ∃ sp, s2.clusters[k] = { s.clusters[k] with span := sp } := ⟨_, e⟩
  clear_value s3
  refine ⟨sp, h'.trans ?_⟩
  rw [e3, modCluster_at, e]
/-- What a fault of another cluster leaves of a port. -/
def pq (q : Port) : List Pulse × PortCfg × BitVec 16 := (q.queue, q.cfg, q.seq)
theorem pq_counts (q c) : pq { q with counts := c } = pq q := rfl
theorem arriveStamp_pv {r s} : PV pq s (arriveStamp r s) := by
  unfold arriveStamp
  extract_lets a b c
  have hc : PV pq s c := PV.of_eq (overflowStarted_same (r := ({ s with fifo := b.1 }, b.2)) .ports (by decide))
  exact .ite hc (hc.trans (PV.mod (pq_counts _ _)))
theorem takeRecord_pv {k s} : PV pq s (takeRecord k s) := by
  unfold takeRecord
  split
  · exact PV.refl _
  · rename_i p _
    split
    · exact PV.refl _
    · rename_i rest _
      exact PV.trans (t := (s.modPort p (fun q => { q with buffer := rest })).modCluster k (fun c => { c with turn := portIn p })) (PV.trans (t := s.modPort p (fun q => { q with buffer := rest })) (PV.mod rfl) (PV.of_eq rfl)) arriveStamp_pv
theorem emptyBuffers_pv {k} (n s) : PV pq s (emptyBuffers k n s) := by
  induction n generalizing s with
  | zero => exact PV.refl s
  | succ n ih =>
    have h := (takeRecord_pv (k := k) (s := s)).trans (ih (takeRecord k s))
    rw [emptyBuffers]
    exact .ite (PV.refl s) h
theorem fold_pv {xs : List (Fin 64)} {f : Port → Port} (h : ∀ q, pq (f q) = pq q) {s} : PV pq s (foldS xs (fun p s =>
    s.modPort p f) s) := foldPV (fun p s => PV.mod (h _)) _ _
theorem leave_pv {k s} : PV pq s (leaveActive k s) := by
  unfold leaveActive
  split
  · exact PV.refl _
  · extract_lets t s1
    have h1 : PV pq s s1 := PV.of_eq rfl
    clear_value s1
    exact h1.trans (fold_pv (f := Port.leaveActive t) (fun q => rfl))
theorem endWork_ports {k st s} {p : Fin 64} (h : clusterOf p = k) : (endWork k st s).ports[p].queue = [] ∧
    (endWork k st s).ports[p].cfg = s.ports[p].cfg ∧ (endWork k st s).ports[p].seq = s.ports[p].seq := by
  unfold endWork
  extract_lets s1 s2 s3
  have a : PV pq s s1 := leave_pv
  clear_value s1
  have b : s2.ports[p] = Port.endWork s1.ports[p] := fold_ports (g := Port.endWork) (fun _ => rfl) p (mem_portsOf h)
  have e3 : s3.ports = s2.ports := rfl
  clear_value s3 s2
  have c : PV pq s3 (mfFollowAll s3.cycle (emptyBuffers k 256 s3)) := (emptyBuffers_pv _ _).trans (mfFollowAll_pv pq_counts)
  have c' := c p
  have b' : s3.ports[p] = Port.endWork s1.ports[p] := (congrArg (fun v : Vector Port 64 => v[p]) e3).trans b
  rw [b'] at c'
  have a' := a p
  simp only [pq, Prod.mk.injEq, Port.endWork] at c' a'
  exact ⟨c'.1, c'.2.1.trans a'.2.1, c'.2.2.trans a'.2.2⟩
theorem nextTurns_mild {s} : Mild s (nextTurns s) := by
  refine ⟨rfl, SV.refl _, fun j => ?_, fun a => ⟨rfl, rfl⟩⟩
  show (updAll s.clusters _)[j].state = _
  rw [updAll_get]; split <;> rfl
theorem wakeEnd_mild {s} : Mild s (wakeEnd s) := by
  unfold wakeEnd; split
  · exact .ite (.refl _) (Mild.mk' rfl rfl rfl rfl)
  · exact .refl _
theorem ends_ports {s} : (wakeEnd (startupEnd (nextTurns s))).ports = s.ports :=
  (wakeEnd_same .ports (by decide)).trans ((startupEnd_same .ports (by decide)).trans (nextTurns_same .ports (by decide)))
/-- What a fault does to the cluster k and its ports (R401, R402). -/
structure Faulted (k : Fin 8) (cause : FaultCause) (u w : State) : Prop where
  st : w.clusters[k].state = .off
  oc : w.clusters[k].offCause = .fault
  fc : w.clusters[k].faultCause = cause
  dc : w.clusters[k].discarded = min 512 (u.queued k)
  ep : w.clusters[k].epoch = u.clusters[k].epoch
  pw : w.clusters[k].powered = u.clusters[k].powered
  pt : ∀ p : Fin 64, clusterOf p = k → w.ports[p].queue = [] ∧ w.ports[p].cfg = u.ports[p].cfg ∧ w.ports[p].seq = u.ports[p].seq
  ot : ∀ j : Fin 8, j ≠ k → w.clusters[j].state = u.clusters[j].state
  tb : w.tb = u.tb
theorem fault_facts {k cause u} (h : u.clusters[k].state ≠ .off) : Faulted k cause u (faultCluster k cause u) := by
  unfold faultCluster
  rw [if_neg h]
  extract_lets n s1 s2
  obtain ⟨sp, e1⟩ := endWork_cl2 (k := k) (st := .off) (s := u)
  have m1 : MildBut k .off u s1 := endWork_mild
  have hp : ∀ p : Fin 64, clusterOf p = k → s1.ports[p].queue = [] ∧ s1.ports[p].cfg = u.ports[p].cfg ∧
      s1.ports[p].seq = u.ports[p].seq := fun p hp => endWork_ports hp
  have e1' : ce s1.clusters[k] = _ := e1
  clear_value s1
  clear e1
  have e2 : s2.clusters[k] = { s1.clusters[k] with offCause := .fault, faultCause := cause, discarded := cap512 n } :=
      modCluster_at ..
  have m2 : MildBut k .off u s2 := Mild.but m1 (Mild.cluster rfl)
  have p2 : s2.ports = s1.ports := rfl
  clear_value s2
  have m : MildBut k .off u (wakeEnd (startupEnd (nextTurns (raise (evCluster k 3) Flags.none s2)))) :=
    Mild.but m2 (((raise_mild.trans nextTurns_mild).trans startupEnd_mild).trans wakeEnd_mild)
  have q : ce (wakeEnd (startupEnd (nextTurns (raise (evCluster k 3) Flags.none s2)))).clusters[k] = ce s2.clusters[k] := by
    refine (ends_cc k).trans ?_
    exact congrArg ce (congrArg (fun v : Vector Cluster 8 => v[k]) (raise_same (src := evCluster k 3) (fl := Flags.none) (s :=
        s2) .clusters (by decide)))
  have r : (wakeEnd (startupEnd (nextTurns (raise (evCluster k 3) Flags.none s2)))).ports = s1.ports := (ends_ports.trans
      (raise_same .ports (by decide))).trans p2
  rw [e2] at q
  generalize wakeEnd (startupEnd (nextTurns (raise (evCluster k 3) Flags.none s2))) = w at *
  refine ⟨?_, congrArg Cluster.offCause q, congrArg Cluster.faultCause q, congrArg Cluster.discarded q, ?_, ?_, ?_, fun j hj =>
      ?_, m.tb⟩
  · exact (m.cl k).trans (if_pos rfl)
  · exact (congrArg Cluster.epoch q).trans (congrArg Cluster.epoch e1' :)
  · exact (congrArg Cluster.powered q).trans (congrArg Cluster.powered e1' :)
  · rw [r]; exact hp
  · exact (m.cl j).trans (if_neg hj)
theorem Faulted.ex {k cause u w} {f : Host.Outcome State Fault Refusal} (h : Faulted k cause u w) (e : f = .next w) : ∃ w,
    f = .next w ∧ (w.clusters[k].state = .off ∧ w.clusters[k].offCause = .fault ∧ w.clusters[k].faultCause = cause ∧
      w.clusters[k].discarded = min 512 (u.queued k) ∧ w.clusters[k].epoch = u.clusters[k].epoch ∧
          w.clusters[k].powered = u.clusters[k].powered ∧
      (∀ p : Fin 64, clusterOf p = k → w.ports[p].queue = [] ∧ w.ports[p].cfg = u.ports[p].cfg ∧
          w.ports[p].seq = u.ports[p].seq) ∧
      (∀ j : Fin 8, j ≠ k → w.clusters[j].state = u.clusters[j].state) ∧ w.tb = u.tb) :=
  ⟨w, e, h.st, h.oc, h.fc, h.dc, h.ep, h.pw, h.pt, h.ot, h.tb⟩
theorem foldKey {α} {key : α → Fin 64} {f : α → Port → Port} : ∀ {l : List α} {s : State}, (l.map key).Nodup → (∀ a ∈ l,
    (foldS l (fun a s => s.modPort (key a) (f a)) s).ports[key a] = f a s.ports[key a]) ∧ (∀ p, p ∉ l.map key →
    (foldS l (fun a s => s.modPort (key a) (f a)) s).ports[p] = s.ports[p])
  | [], s, _ => ⟨fun a h => (by cases h), fun p _ => rfl⟩
  | x :: xs, s, nd => by
    rw [List.map_cons, List.nodup_cons] at nd
    obtain ⟨i1, i2⟩ := foldKey (key := key) (f := f) (s := s.modPort (key x) (f x)) nd.2
    refine ⟨fun a h => ?_, fun p h => ?_⟩
    · show (foldS xs _ (s.modPort (key x) (f x))).ports[key a] = _
      rcases List.mem_cons.mp h with e | h
      · subst e; rw [i2 _ nd.1]; exact upd_same _ _ _
      · rw [i1 a h]
        have : key x ≠ key a := fun e => nd.1 (e ▸ List.mem_map_of_mem h)
        rw [show (s.modPort (key x) (f x)).ports[key a] = s.ports[key a] from upd_other _ _ _ _ this]
    · show (foldS xs _ (s.modPort (key x) (f x))).ports[p] = _
      rw [List.map_cons, List.mem_cons, not_or] at h
      rw [i2 _ h.2]
      exact upd_other _ _ _ _ (Ne.symm h.1)
theorem portsOf_nodup (k : Fin 8) : (portsOf k).Nodup := by revert k; decide +kernel
theorem portsOf_get (k i : Fin 8) : (portsOf k)[i.val]? = some (portOf k i) := by revert k i; decide +kernel
theorem cluster_portOf (k i : Fin 8) : clusterOf (portOf k i) = k := by revert k i; decide +kernel
theorem foldMod_same {α} {key : α → Fin 64} {f : α → Port → Port} {l : List α} {s : State} :
    SameBut [.ports] s (foldS l (fun a s => s.modPort (key a) (f a)) s) := foldS_same (fun _ _ => modPort_same) _ _
theorem turns_at {k : Fin 8} {s : State} (h : s.clusters[k].calTurn = true) : (nextTurns s).clusters[k] = s.clusters[k] := by
  show (updAll s.clusters _)[k] = _
  rw [updAll_get, if_neg (by rw [h]; simp)]
theorem aligns_at {k : Fin 8} {s : State} (h1 : s.clusters[k].state = .quarantine) (h2 : s.clusters[k].phase = .calibrate)
    (h3 : s.clusters[k].calDone = true) : (startAligns s).clusters[k].state = .quarantine ∧
    (startAligns s).clusters[k].phase = (if s.alignHeld then .calibrate else .align) ∧
    (startAligns s).clusters[k].calDone = s.alignHeld := by
  unfold startAligns
  split
  · rename_i e; rw [h1, h2, h3, e]; exact ⟨rfl, rfl, rfl⟩
  · rename_i e
    have e' : s.alignHeld = false := by simpa using e
    extract_lets go
    have : (updAll s.clusters (fun _ c => go c))[k] = go s.clusters[k] := updAll_get ..
    have hg : go s.clusters[k] = { s.clusters[k] with phase := .align, calDone := false } := by
      show (if _ then _ else _) = _
      rw [if_pos (by rw [h1, h2, h3]; decide)]
    show (updAll s.clusters (fun _ c => go c))[k].state = _ ∧ (updAll s.clusters (fun _ c => go c))[k].phase = _ ∧
        (updAll s.clusters (fun _ c => go c))[k].calDone = _
    rw [this, hg, e']
    exact ⟨h1, rfl, rfl⟩
theorem startAligns_same {s} : SameBut [.clusters] s (startAligns s) := by unfold startAligns; exact .ite (.refl _ _) (by (intro p hp; cases p <;> first | rfl | (exfalso; revert hp; decide)))
/-- The tables that a calibration of a cluster makes. -/
def calSets (k : Fin 8) (xs : List CalSample) (u : State) : List (Fin 64 × TableSet) := ((portsOf k).zip xs).map (fun (p, x) =>
    (p, calibrated u.clusters[k].short u.ports[p] x u.cycle))
theorem cal_eq {k : Fin 8} {xs : List CalSample} {u : State} (h1 : u.clusters[k].state = .quarantine) (h2 :
    u.clusters[k].phase = .calibrate) (h3 : u.clusters[k].calTurn = true) (h4 : u.clusters[k].calDone = false)
     (h5 : u.steward.absent = false) (h6 : u.tbLocked = true) (h7 : xs.length = 8) (h8 : ∀ x ∈ xs,
         calEnough u.clusters[k].short x = true) :
   calibrateDone k xs u = if !u.clusters[k].short && (calSets k xs u).any (fun x =>
       !tableFits x.2) then faultCluster k .calfail u else
     startAligns (nextTurns ((raiseAt evTableSwap u.cycle 8 Flags.none (foldS (calSets k xs u) (fun x s =>
         putTable x.1 x.2 s) u)).modCluster k (fun c => { c with calDone := true }))) := by
  unfold calibrateDone
  extract_lets c pairs enough
  have he : enough = true := by
    show (decide (pairs.length = 8) && pairs.all _) = true
    have hl : pairs.length = 8 := by
      show ((portsOf k).zip xs).length = 8
      rw [List.length_zip, h7]; rfl
    rw [hl]
    simp only [decide_true, Bool.true_and, List.all_eq_true]
    intro a ha
    have := (List.of_mem_zip (a := a.1) (b := a.2) ha).2
    exact h8 _ this
  clear_value enough
  subst he
  rw [if_neg (by rw [show c = u.clusters[k] from rfl, h1, h2, h3, h4, h5, h6]; decide)]
  have hc : (foldS (calSets k xs u) (fun x s => putTable x.1 x.2 s) u).cycle = u.cycle := by
    have this : (foldS (calSets k xs u) (fun x s => putTable x.1 x.2 s) u).tb = u.tb := (foldMod_same (key := fun x :
        Fin 64 × TableSet => x.1) (f := fun x q => { q with table := some x.2, lastGen := some x.2.gen, accum := { q.accum with points := [] } }) (l := calSets k xs u)
        (s := u)) .tb (by decide)
    unfold State.cycle
    rw [this]
  conv => rhs; rw [← hc]
  rfl
theorem calSets_mem {k : Fin 8} {xs u} {i : Fin 8} {x} (h : xs[i.val]? = some x) : (portOf k i,
    calibrated u.clusters[k].short u.ports[portOf k i] x u.cycle) ∈ calSets k xs u := by
  unfold calSets
  refine List.mem_map.mpr ⟨(portOf k i, x), ?_, rfl⟩
  exact List.mem_of_getElem? (i := i.val) (List.getElem?_zip_eq_some.mpr ⟨portsOf_get k i, h⟩)
theorem calSets_inv {k : Fin 8} {xs u} {a} (h : a ∈ calSets k xs u) : ∃ (i : Fin 8) (x : CalSample), xs[i.val]? = some x ∧
    a = (portOf k i, calibrated u.clusters[k].short u.ports[portOf k i] x u.cycle) := by
  unfold calSets at h
  obtain ⟨b, hb, rfl⟩ := List.mem_map.mp h
  obtain ⟨n, hn⟩ := List.getElem?_of_mem hb
  obtain ⟨e1, e2⟩ := List.getElem?_zip_eq_some.mp hn
  have hl : n < 8 := by
    have := (List.getElem?_eq_some_iff.mp e1).1
    exact this
  have e3 := portsOf_get k ⟨n, hl⟩
  rw [e3] at e1
  obtain ⟨bp, bx⟩ := b
  have e4 : portOf k ⟨n, hl⟩ = bp := Option.some.inj e1
  subst e4
  exact ⟨⟨n, hl⟩, bx, e2, rfl⟩
theorem calSets_keys {k xs u} (h : xs.length = 8) : (calSets k xs u).map (fun x => x.1) = portsOf k := by
  unfold calSets
  rw [List.map_map]
  exact List.map_fst_zip (by rw [h]; exact Nat.le_refl 8)
theorem cal_good {k : Fin 8} {xs : List CalSample} {u : State} (h1 : u.clusters[k].state = .quarantine) (h2 :
    u.clusters[k].phase = .calibrate) (h3 : u.clusters[k].calTurn = true) (h7 : xs.length = 8) :
   let w := startAligns (nextTurns ((raiseAt evTableSwap u.cycle 8 Flags.none (foldS (calSets k xs u) (fun x s =>
       putTable x.1 x.2 s) u)).modCluster k (fun c => { c with calDone := true })))
   w.clusters[k].state = .quarantine ∧ w.clusters[k].phase = (if u.alignHeld then .calibrate else .align) ∧
       w.clusters[k].calDone = u.alignHeld ∧
          (∀ (i : Fin 8) x, xs[i.val]? = some x → w.ports[portOf k i].table = some (calibrated u.clusters[k].short u.ports[portOf k i] x u.cycle)) ∧
          ∀ p : Fin 64, clusterOf p ≠ k → w.ports[p] = u.ports[p] := by
  intro w
  have fk := foldKey (key := fun x : Fin 64 × TableSet => x.1) (f := fun x q => { q with table := some x.2, lastGen := some x.2.gen, accum := { q.accum with points := [] } }) (l := calSets k xs u) (s := u) (by rw [calSets_keys h7]; exact portsOf_nodup k)
  have fs : SameBut [.ports] u (foldS (calSets k xs u) (fun x s => putTable x.1 x.2 s) u) := foldMod_same (key := fun x :
      Fin 64 × TableSet => x.1) (f := fun x q => { q with table := some x.2, lastGen := some x.2.gen, accum := { q.accum with points := [] } })
  have hw : w = startAligns (nextTurns ((raiseAt evTableSwap u.cycle 8 Flags.none (foldS (calSets k xs u) (fun x s =>
      putTable x.1 x.2 s) u)).modCluster k (fun c => { c with calDone := true }))) := rfl
  clear_value w
  have fk1 : ∀ a ∈ calSets k xs u, (foldS (calSets k xs u) (fun x s => putTable x.1 x.2 s) u).ports[a.1] = _ := fk.1
  have fk2 : ∀ p, p ∉ (calSets k xs u).map (fun x => x.1) → (foldS (calSets k xs u) (fun x s =>
      putTable x.1 x.2 s) u).ports[p] = u.ports[p] := fk.2
  clear fk
  generalize foldS (calSets k xs u) (fun x s => putTable x.1 x.2 s) u = v at *
  have r : SameBut raiseParts v (raiseAt evTableSwap u.cycle 8 Flags.none v) := raiseAt_same
  generalize raiseAt evTableSwap u.cycle 8 Flags.none v = r1 at *
  have c1 : r1.clusters = u.clusters := (r .clusters (by decide)).trans (fs .clusters (by decide))
  have y1 : r1.sync = u.sync := (r .sync (by decide)).trans (fs .sync (by decide))
  have p1 : r1.ports = v.ports := r .ports (by decide)
  have e1 : (r1.modCluster k (fun c => { c with calDone := true })).clusters[k] = { u.clusters[k] with calDone := true } :=
      by rw [modCluster_at, c1]
  have y2 : (nextTurns (r1.modCluster k (fun c => { c with calDone := true }))).alignHeld = u.alignHeld := by
    show (decide (r1.sync.role = _) && _) = (decide (u.sync.role = _) && _)
    unfold nextTurns
    dsimp only [State.modCluster]
    rw [y1]
  have e2 : (nextTurns (r1.modCluster k (fun c => { c with calDone := true }))).clusters[k] = { u.clusters[k] with calDone :=
      true } := by
    rw [turns_at (by rw [e1]; exact h3), e1]
  have a := aligns_at (k := k) (s := nextTurns (r1.modCluster k (fun c => { c with calDone := true }))) (by rw [e2]; exact h1)
      (by rw [e2]; exact h2) (by rw [e2])
  rw [y2, ← hw] at a
  have pw : w.ports = v.ports := by
    rw [hw]
    exact (startAligns_same .ports (by decide)).trans ((nextTurns_same .ports (by decide)).trans p1)
  refine ⟨a.1, a.2.1, a.2.2, fun i x hx => ?_, fun p hp => ?_⟩
  · rw [pw, fk1 _ (calSets_mem hx)]
  · rw [pw]
    exact fk2 p (by rw [calSets_keys h7]; exact fun h => hp (portsOf_mem h))
/-- What a cluster that becomes ACTIVE leaves of a port. -/
def pd (q : Port) : TimeWord × PortCfg × List Pulse := (q.due, q.cfg, q.queue)
theorem pd_counts (q c) : pd { q with counts := c } = pd q := rfl
theorem clusters_eq {s : State} {k : Fin 8} {c : Cluster} : ({ s with clusters := s.clusters.set k c } :
    State) = s.modCluster k (fun _ => c) := rfl
theorem active_eq {k : Fin 8} {u : State} {j} (h1 : u.clusters[k].state = .joining) (h2 : u.clusters[k].joinInstant = some j)
    (hc : commitJoin k u = u) (h3 : tnotBefore u.tb.now j = true) (h4 : tnotBefore u.tb.now (u.cycleFrom j) = true) :
   let t := u.cycleFrom j; let c := u.clusters[k]; let w := enterActive k u
   w.tb = u.tb ∧ w.clusters = u.clusters.set k { c with
          state := .active, phase := .none, joinAt := none, fix := none, joinProv := [],
          epoch := if c.entered then c.epoch + 1 else c.epoch, entered := true, entries := c.entries + 1, short := false,
          span := some (t, none) } ∧
        ∀ p : Fin 64, clusterOf p = k → w.ports[p].due = t ∧ w.ports[p].cfg = u.ports[p].cfg ∧ w.ports[p].queue = u.ports[p].queue := by
  intro t c w
  have hw : w = wakeEnd (startupEnd (mfFollowAll t (raiseAt (evCluster k 0) t 1 (Flags.ofFrames c.joinProv) (foldS (portsOf k)
      (fun p s => s.modPort p (Port.enterActive p t)) (u.modCluster k (fun c =>
         { c with
                   state := .active, phase := .none, joinAt := none, fix := none, joinProv := [],
                   epoch := if c.entered then c.epoch + 1 else c.epoch, entered := true, entries := c.entries + 1,
                   short := false, span := some (t, none) })))))) := by
    show enterActive k u = _
    unfold enterActive
    rw [hc]
    dsimp only
    rw [h1, h2]
    dsimp only
    rw [if_neg (by rw [h3]; decide), if_neg (by rw [h4]; decide)]
  clear_value w
  generalize hv : u.modCluster k _ = v at hw
  have fk := (foldKey (key := fun p : Fin 64 => p) (f := fun p => Port.enterActive p t) (l := portsOf k) (s := v)
      (by rw [List.map_id']; exact portsOf_nodup k)).1
  have fs : SameBut [.ports] v (foldS (portsOf k) (fun p s => s.modPort p (Port.enterActive p t)) v) := foldMod_same (key :=
      fun p : Fin 64 => p)
  generalize foldS (portsOf k) (fun p s => s.modPort p (Port.enterActive p t)) v = x at *
  have r : SameBut raiseParts x (raiseAt (evCluster k 0) t 1 (Flags.ofFrames c.joinProv) x) := raiseAt_same
  have rp : PV pd x (raiseAt (evCluster k 0) t 1 (Flags.ofFrames c.joinProv) x) := raiseAt_pv
  generalize raiseAt (evCluster k 0) t 1 (Flags.ofFrames c.joinProv) x = y at *
  have m : SameBut mfParts y (mfFollowAll t y) := mfFollowAll_same
  have mp : PV pd y (mfFollowAll t y) := mfFollowAll_pv pd_counts
  generalize mfFollowAll t y = z at *
  have e1 : w.clusters = z.clusters := by rw [hw]; exact (wakeEnd_same .clusters (by decide)).trans (startupEnd_same .clusters (by decide))
  have e2 : w.ports = z.ports := by rw [hw]; exact (wakeEnd_same .ports (by decide)).trans (startupEnd_same .ports (by decide))
  have e3 : w.tb = z.tb := by rw [hw]; exact (wakeEnd_same .tb (by decide)).trans (startupEnd_same .tb (by decide))
  have vt : v.tb = u.tb := by rw [← hv]; rfl
  have vp : v.ports = u.ports := by rw [← hv]; rfl
  refine ⟨?_, ?_, fun p hp => ?_⟩
  · exact e3.trans ((m .tb (by decide)).trans ((r .tb (by decide)).trans ((fs .tb (by decide)).trans vt)))
  · rw [e1]
    exact (m .clusters (by decide)).trans ((r .clusters (by decide)).trans ((fs .clusters (by decide)).trans (by rw [← hv]; rfl)))
  · have a := (mp p).trans ((rp p).trans (congrArg pd (fk p (mem_portsOf hp))))
    rw [vp] at a
    simp only [pd, Port.enterActive, Prod.mk.injEq] at a
    rw [e2]
    exact a

end Sys2Proof.Machine
end

