-- ==== Sys2Proof/Laws/Timebase.lean ====
section
/-! SUPPORT. What losing, regaining and switching a reference, a lock and LOCKLOSS do. -/
namespace Sys2Proof.Machine
open Sys2Proof

theorem spanEnd_same {s} : SameBut [.cal] s (spanEnd s) := by unfold spanEnd; exact .ite (.refl _ _) (by (intro p hp; cases p <;> first | rfl | (exfalso; revert hp; decide)))
theorem spanBegin_same {s} : SameBut [.cal, .clusters] s (spanBegin s) := by unfold spanBegin; exact .ite (.refl _ _) (by (intro p hp; cases p <;> first | rfl | (exfalso; revert hp; decide)))
theorem axisState_mod {s : State} {a : Fin 4} {f : Axis → Axis} (h : ∀ x, (f x).state = .lost) (j : Fin 4) (hj : j = a ∨
    s.axes[j].state = .lost) : (s.modAxis a f).axes[j].state = .lost := by
  by_cases e : a = j
  · subst e; exact (congrArg Axis.state (upd_same _ _ _)).trans (h _)
  · exact (congrArg Axis.state (upd_other _ _ _ _ e)).trans (hj.resolve_left (Ne.symm e))
theorem axisLoss_mild {a s} : Mild s (axisLoss a s) := by
  unfold axisLoss raiseAxis
  exact Mild.trans (t := s.modAxis a (fun x => { x with losses := x.losses + 1 })) (Mild.axis ⟨rfl, rfl⟩) raise_mild
theorem enterLost_ax {a b s} : ∀ j : Fin 4, (j = a ∨ s.axes[j].state = .lost) → (enterLost a b s).axes[j].state = .lost := by
  intro j h
  unfold enterLost
  extract_lets s1 s2 s3
  have h1 : Mild s s1 := retractEdges_mild
  have h2 : s2.axes[j].state = .lost :=
    axisState_mod (s := s1) (f := fun x => { newNumbering x with state := .lost }) (fun _ => rfl) j (h.imp_right (fun h =>
        ((h1.ax j).1).trans h))
  have h3 : Mild s2 s3 := by
    show Mild s2 (if b then axisLoss a s2 else s2)
    clear_value s2
    exact .ite axisLoss_mild (.refl _)
  clear_value s3 s2 s1
  have m : Mild s3 (release (haltAligned a s3)) := haltAligned_mild.trans release_mild
  exact ((m.ax j).1).trans (((h3.ax j).1).trans h2)
/-- The timebase, the stream port and the states of the clusters are the same in two states. -/
def Quiet (s t : State) : Prop := t.tb = s.tb ∧ SV s t ∧ ∀ k : Fin 8, t.clusters[k].state = s.clusters[k].state
theorem Mild.quiet {s t} (h : Mild s t) : Quiet s t := ⟨h.tb, h.sp, h.cl⟩
theorem Quiet.trans {s t u} (h : Quiet s t) (k : Quiet t u) : Quiet s u := ⟨k.1.trans h.1, h.2.1.trans k.2.1, fun j =>
    (k.2.2 j).trans (h.2.2 j)⟩
theorem Quiet.axis {s : State} {a f} : Quiet s (s.modAxis a f) := ⟨rfl, SV.refl _, fun _ => rfl⟩
theorem eachQuiet {n} {f : Fin n → State → State} (h : ∀ a s, Quiet s (f a s)) (s : State) : Quiet s (eachFin n f s) := by
  unfold eachFin foldS
  induction List.finRange n generalizing s with
  | nil => exact (Mild.refl s).quiet
  | cons x xs ih => exact (h x s).trans (ih (f x s))
theorem enterLost_quiet {a b s} : Quiet s (enterLost a b s) := by
  unfold enterLost
  extract_lets s1 s2 s3
  have m : Mild s3 (release (haltAligned a s3)) := haltAligned_mild.trans release_mild
  have h1 : Quiet s s1 := retractEdges_mild.quiet
  have h2 : Quiet s1 s2 := Quiet.axis
  have h3 : Quiet s2 s3 := by
    show Quiet s2 (if b then axisLoss a s2 else s2)
    clear_value s2
    split
    · unfold axisLoss raiseAxis
      exact Quiet.trans (t := s2.modAxis a (fun x => { x with losses := x.losses + 1 })) Quiet.axis raise_mild.quiet
    · exact (Mild.refl _).quiet
  exact (h1.trans h2).trans (h3.trans m.quiet)
theorem axisLockloss_quiet {a s} : Quiet s (axisLockloss a s) := by
  unfold axisLockloss
  extract_lets s1
  have h1 : Quiet s s1 := by
    show Quiet s (if s.axes[a].state = .lost then s else enterLost a true s)
    split
    · exact (Mild.refl _).quiet
    · exact enterLost_quiet
  clear_value s1
  exact h1.trans Quiet.axis
theorem axisLockloss_ax {a s} (j : Fin 4) (h : j = a ∨ s.axes[j].state = .lost) : (axisLockloss a s).axes[j].state = .lost := by
  unfold axisLockloss
  extract_lets s1
  have h1 : s1.axes[j].state = .lost := by
    show (if s.axes[a].state = .lost then s else enterLost a true s).axes[j].state = .lost
    split
    · rename_i e
      rcases h with h | h
      · subst h; exact e
      · exact h
    · exact enterLost_ax j h
  clear_value s1
  have : Mild s1 (s1.modAxis a (fun x => { x with pendIdx := [], pendCnt := [], lastUsable := none })) := Mild.axis ⟨rfl, rfl⟩
  rw [(this.ax j).1]; exact h1
theorem eachMild' {n} {f : Fin n → State → State} (h : ∀ a s, Mild s (f a s)) (s : State) : Mild s (eachFin n f s) :=
    eachMild h s
theorem groupsLockloss_same {s} : SameBut haltParts s (groupsLockloss s) := foldS_same (fun g s =>
    .ite haltGroup_same (.refl _ _)) _ _
theorem groupsLockloss_mild {s} : Mild s (groupsLockloss s) := eachMild (fun g s => .ite haltGroup_mild (.refl _)) _
theorem endWait_state {src c fl b} {g : Group} : (endWait src c fl b g).state = g.state := by
  unfold endWait; split
  · split <;> rfl
  · rfl
theorem live_of {g h : Group} (e : g.state = h.state) : g.live = h.live := by unfold Group.live; rw [e]
/-- The state of every group is the same in two states. -/
def GV (s t : State) : Prop := ∀ g : Fin 8, t.groups[g].state = s.groups[g].state
theorem GV.refl (s) : GV s s := fun _ => rfl
theorem GV.trans {s t u} (h : GV s t) (k : GV t u) : GV s u := fun g => (k g).trans (h g)
theorem GV.of_eq {s t : State} (h : t.groups = s.groups) : GV s t := fun g => by rw [h]
theorem raiseCore_gv {src cyc n fl s} : GV s (raiseCore src cyc n fl s).1 := by
  unfold raiseCore
  extract_lets s1 old s2 s3 s4 s5
  have h1 : GV s s1 := fun g => by
    show (updAll s.groups _)[g].state = _
    rw [updAll_get]; exact endWait_state
  have h3 : GV s1 s3 := GV.of_eq rfl
  have h4 : GV s3 s4 := by show GV _ (if _ then _ else _); split <;> exact GV.of_eq rfl
  have h5 : GV s4 s5 := by show GV _ (if _ then _ else _); split <;> exact GV.of_eq rfl
  have h6 := ((h1.trans h3).trans h4).trans h5
  split
  · exact h6.trans (GV.of_eq (pushEvents_same src cyc fl n (s5, false) .groups (by decide)))
  · exact h6
theorem overflowStarted_gv {r} : GV r.1 (overflowStarted r) := by
  unfold overflowStarted
  split
  · extract_lets q
    have h : GV r.1 q.1 := raiseCore_gv
    clear_value q
    split
    · exact h.trans raiseCore_gv
    · exact h
  · exact GV.refl _
theorem raiseAt_gv {src cyc n fl s} : GV s (raiseAt src cyc n fl s) := by
  unfold raiseAt; split
  · exact GV.refl _
  · exact raiseCore_gv.trans overflowStarted_gv
theorem groupState_mod {s : State} {a : Fin 8} {f : Group → Group} (j : Fin 8) :
    (s.modGroup a f).groups[j].state = if j = a then (f s.groups[a]).state else s.groups[j].state := by
  by_cases e : a = j
  · subst e; rw [if_pos rfl]; exact (congrArg Group.state (upd_same _ _ _))
  · rw [if_neg (Ne.symm e)]; exact (congrArg Group.state (upd_other _ _ _ _ e))
theorem groupSet_gv {s : State} {a : Fin 8} {f : Group → Group} (h : (f s.groups[a]).state = s.groups[a].state) :
    GV s (s.modGroup a f) := fun j => by
  rw [groupState_mod]
  split
  · rename_i e; subst e; exact h
  · rfl
theorem haltGroup_state {g c t s} (j : Fin 8) :
    (haltGroup g c t s).groups[j].state = if j = g then .halted else s.groups[j].state := by
  unfold haltGroup keepSample
  extract_lets v s1
  have h0 : GV s (s.modGroup g (fun x => { x with lastSample := v })) := groupSet_gv rfl
  have h1 : ∀ j : Fin 8, s1.groups[j].state = if j = g then .halted else
      (s.modGroup g (fun x => { x with lastSample := v })).groups[j].state := fun j => groupState_mod j
  clear_value s1
  have h2 : GV s1 (agStop g t (raiseGroup g 5 t 1 s1)) :=
    (raiseAt_gv (s := s1)).trans (GV.of_eq (agStop_same .groups (by decide)))
  rw [h2 j, h1 j, h0 j]
theorem haltGroup_live {g c t s} (j : Fin 8) (h : j = g ∨ s.groups[j].live = false) :
    (haltGroup g c t s).groups[j].live = false := by
  have e := haltGroup_state (g := g) (c := c) (t := t) (s := s) j
  by_cases k : j = g
  · rw [if_pos k] at e; unfold Group.live; rw [e]
  · rw [if_neg k] at e; rw [live_of e]; exact h.resolve_left k
theorem groupsLockloss_live {s} : ∀ g : Fin 8, (groupsLockloss s).groups[g].live = false := by
  refine eachFin_ind (P := fun g s => s.groups[g].live = false) (fun i s => ?_) (fun i j s h => ?_) s
  · split
    · exact haltGroup_live i (.inl rfl)
    · rename_i e; exact (Bool.not_eq_true _).mp e
  · split
    · exact haltGroup_live j (.inr h)
    · exact h
/-- A group at rest in one state is at rest in the other. -/
def GD (s t : State) : Prop := ∀ g : Fin 8, s.groups[g].live = false → t.groups[g].live = false
theorem GD.refl (s) : GD s s := fun _ h => h
theorem GD.trans {s t u} (h : GD s t) (k : GD t u) : GD s u := fun g e => k g (h g e)
theorem GV.gd {s t} (h : GV s t) : GD s t := fun g e => (live_of (h g)).trans e
theorem GD.same {ps s t} (h : SameBut ps s t) (hn : Part.groups ∉ ps := by decide) : GD s t :=
  (GV.of_eq (h .groups hn)).gd
theorem foldGD {α} {f : α → State → State} (h : ∀ a s, GD s (f a s)) (xs : List α) (s) : GD s (foldS xs f s) := by
  unfold foldS
  induction xs generalizing s with
  | nil => exact .refl _
  | cons x xs ih => exact (h x s).trans (ih (f x s))
theorem eachGD {n} {f : Fin n → State → State} (h : ∀ a s, GD s (f a s)) (s : State) : GD s (eachFin n f s) :=
  foldGD h _ s
theorem raiseAt_gd {src cyc n fl s} : GD s (raiseAt src cyc n fl s) := raiseAt_gv.gd
theorem groupSet_gd {s : State} {a : Fin 8} {f : Group → Group} (h : (f s.groups[a]).state = s.groups[a].state) :
    GD s (s.modGroup a f) := (groupSet_gv h).gd
theorem haltGroup_gd {g c t s} : GD s (haltGroup g c t s) := fun j h => haltGroup_live j (.inr h)
theorem GD.rest {s t : State} (h : t.groups = s.groups) : GD s t := (GV.of_eq h).gd
theorem retracted_gd {a n s} : GD s (retracted a n s) := by
  unfold retracted
  split
  · exact .refl _
  · dsimp only
    split
    · exact GD.trans (t := s.modAxis a _) (.rest rfl) raiseAt_gd
    · exact .rest rfl
theorem missAt_gd {p c fl s} : GD s (missAt p c fl s) := by
  unfold missAt
  split
  · exact GD.trans (t := s.modPort p _) (.rest rfl) raiseAt_gd
  · exact .refl _
theorem retractPulse_gd {p x b s} : GD s (retractPulse p x b s) := by
  unfold retractPulse
  extract_lets s1 s2
  have h1 : GD s s1 := .rest rfl
  have h2 : GD s1 s2 := by
    show GD s1 (match x.axisFrame with | some (a, _, _) => retracted a 1 s1 | none => s1)
    split
    · exact retracted_gd
    · exact .refl _
  have h := h1.trans h2
  split
  · exact h.trans missAt_gd
  · exact h
theorem modTone_gd {p f s} : GD s (s.modPort p f) := .rest rfl
theorem retractSome_gd {a sel s} : GD s (retractSome a sel s) := by
  unfold retractSome
  refine GD.trans (GD.trans (eachGD (fun p s => ?_) _) (eachGD (fun k s => ?_) _)) (eachGD (fun g s => ?_) _)
  · extract_lets c xs s1
    have h : GD s s1 := foldGD (fun _ _ => retractPulse_gd) _ _
    clear_value s1
    split
    · refine h.trans ?_
      generalize (_ && _ : Bool) = b
      cases b
      · exact .refl _
      · rw [if_pos rfl]; exact modTone_gd.trans retracted_gd
    · exact h
  · split
    · split
      · exact GD.trans (t := s.modCluster k _) (.rest rfl) retracted_gd
      · exact .refl _
    · exact .refl _
  · split
    · split
      · exact GD.trans (t := s.modGroup g _) (groupSet_gd rfl) retracted_gd
      · exact .refl _
    · exact .refl _
theorem haltAligned_gd {a s} : GD s (haltAligned a s) := by
  refine eachGD (fun g s => ?_) _
  split
  · split
    · exact haltGroup_gd
    · exact .refl _
  · exact .refl _
theorem formHeld_gd {p h s} : GD s (formHeld p h s) := by
  unfold formHeld formStamp
  extract_lets shifted keep fl s1
  have h1 : GD s s1 := by
    show GD s (if _ then _ else _)
    split
    · exact GD.same markHold_same
    · exact .refl _
  clear_value s1
  refine h1.trans ?_
  unfold raisePortAt
  split
  · exact GD.trans (t := s1.modPort p _) (.rest rfl) raiseAt_gd
  · exact .rest rfl
theorem releaseHeld_gd {p s} : GD s (releaseHeld p s) :=
  GD.trans (t := s.modPort p _) (.rest rfl) (foldGD (fun _ _ => formHeld_gd) _ _)
theorem mfResult_gd {m x s} : GD s (mfResult m x s) := by
  unfold mfResult
  extract_lets _ _ _ _ _ r _ s1
  have h1 : GD s s1 := GD.same modMf_same
  clear_value s1
  split
  · exact h1.trans (GD.same modMf_same)
  · exact h1
theorem mfForm_gd {m s} : GD s (mfForm m s) := by
  unfold mfForm
  extract_lets runs s'
  exact GD.trans (t := s') (.rest rfl) (foldGD (fun _ _ => mfResult_gd) _ _)
theorem releaseDelivery_gd {d s} : GD s (releaseDelivery d s) := by
  unfold releaseDelivery
  refine .rest ?_
  split
  · rfl
  · split
    · rfl
    · split <;> rfl
theorem release_gd {s} : GD s (release s) :=
  ((eachGD (fun _ _ => releaseHeld_gd) _).trans (eachGD (fun _ _ => mfForm_gd) _)).trans
    (GD.trans (t := State.modFabric _ _) (.rest rfl) (foldGD (fun _ _ => releaseDelivery_gd) _ _))
theorem axisLoss_gd {a s} : GD s (axisLoss a s) := by
  unfold axisLoss raiseAxis
  exact GD.trans (t := s.modAxis a _) (.rest rfl) raiseAt_gd
theorem enterLost_gd {a b s} : GD s (enterLost a b s) := by
  unfold enterLost
  extract_lets s1 s2 s3
  have h1 : GD s s1 := retractSome_gd
  have h2 : GD s1 s2 := by clear_value s1; exact .rest rfl
  have h3 : GD s2 s3 := by
    show GD s2 (if b then axisLoss a s2 else s2)
    clear_value s2
    split
    · exact axisLoss_gd
    · exact .refl _
  exact (h1.trans h2).trans (h3.trans (haltAligned_gd.trans release_gd))
theorem axisLockloss_gd {a s} : GD s (axisLockloss a s) := by
  unfold axisLockloss
  extract_lets s1
  have h1 : GD s s1 := by
    show GD s (if s.axes[a].state = .lost then s else enterLost a true s)
    split
    · exact .refl _
    · exact enterLost_gd
  clear_value s1
  exact h1.trans (GD.rest (t := s1.modAxis a _) rfl)
theorem syncLockloss_same {s} : SameBut [.sync] s (syncLockloss s) := by (intro p hp; cases p <;> first | rfl | (exfalso; revert hp; decide))
theorem tail_same {s} : SameBut [.cal, .sync] s (syncLockloss (spanEnd s)) := (spanEnd_same.mono (by decide)).trans
    (syncLockloss_same.mono (by decide))
theorem acquireNext_same {o s} : SameBut [.tb] s (acquireNext o s) := by
  intro p hp; cases p <;> first | rfl | (exfalso; revert hp; decide)
theorem acquireNext_tb {o s} : (acquireNext o s).tb =
    { s.tb with job := (nextCandidate s.tb o).elim PllJob.idle (fun x => .attempt x s.tb.now) } := by
  show ({ s.tb with job := (match nextCandidate s.tb o with | some x => PllJob.attempt x s.tb.now | none => .idle) }
    : Timebase) = _
  cases nextCandidate s.tb o <;> rfl
/-- What a link going down leaves: the timebase as it was, and the link training or down. -/
theorem linkDown_facts {s} : (linkDown s).tb = s.tb ∧
    (linkDown s).sp.link = (if s.sp.enable then .train else .down) := by
  unfold linkDown
  extract_lets was s1 s2
  have h1 : s2.tb = s.tb := rfl
  have h2 : s2.sp.link = (if s.sp.enable then .train else .down) := rfl
  clear_value s2
  split
  · exact ⟨(raise_mild.tb).trans h1, (raise_mild.sp.link).trans h2⟩
  · exact ⟨h1, h2⟩
theorem clustersLockloss_kept {s} : (clustersLockloss s).tb = s.tb ∧ SV s (clustersLockloss s) := by
  unfold clustersLockloss eachFin foldS
  induction List.finRange 8 generalizing s with
  | nil => exact ⟨rfl, SV.refl _⟩
  | cons x xs ih => exact ⟨ih.1.trans clusterLockloss_mild.tb, clusterLockloss_mild.sp.trans ih.2⟩
theorem clustersLockloss_off {s} (k : Fin 8) : (clustersLockloss s).clusters[k].state = .off := by
  refine eachFin_ind (P := fun k s => s.clusters[k].state = .off) (fun i s => ?_) (fun i j s h => ?_) s k
  · rw [clusterLockloss_mild.cl i, if_pos rfl]
  · rw [clusterLockloss_mild.cl j]; split; rfl; exact h
theorem abortOpen_same {s} : SameBut [.mfs] s (abortOpen s) := by
  unfold abortOpen eachFin foldS
  induction List.finRange 16 generalizing s with
  | nil => exact .refl _ _
  | cons x xs ih =>
    refine SameBut.trans (t := match s.mfs[x].state with | .opened _ => mfAbort x s | _ => s) ?_ ih
    split
    · intro p hp; cases p <;> first | rfl | (exfalso; revert hp; decide)
    · exact .refl _ _
theorem abortOpen_none {s} (m : Fin 16) (r) : (abortOpen s).mfs[m].state ≠ .opened r := by
  have one : ∀ (i : Fin 16) (s : State) r, (mfAbort i s).mfs[i].state ≠ .opened r := fun i s r => by
    rw [show (mfAbort i s).mfs[i].state = .idle from congrArg Mf.state (upd_same _ _ _)]; simp
  refine eachFin_ind (P := fun m s => ∀ r, s.mfs[m].state ≠ .opened r) (fun i s => ?_) (fun i j s h => ?_) s m r
  · split
    · exact one i s
    · rename_i h; exact fun r => h r
  · split
    · by_cases e : i = j
      · subst e; exact one i s
      · exact fun r => by rw [show (mfAbort i s).mfs[j] = s.mfs[j] from upd_other _ _ _ _ e]; exact h r
    · exact h
/-- What LOCKLOSS leaves: no timebase, no link, no cluster, every axis LOST, no frame open and no group at work. -/
theorem lockloss_facts (u : State) :
      (lockloss u).tb = { u.tb with
        state := .unlocked, clkSrc := .ring, lockLosses := u.tb.lockLosses + 1, lockTicks := 0,
        job := (nextCandidate u.tb none).elim PllJob.idle (fun x => .attempt x u.tb.now) } ∧
      (lockloss u).sp.link = (if u.sp.enable then .train else .down) ∧
      (∀ a : Fin 4, (lockloss u).axes[a].state = .lost) ∧ (∀ k : Fin 8, (lockloss u).clusters[k].state = .off) ∧
      (∀ (m : Fin 16) r, (lockloss u).mfs[m].state ≠ .opened r) ∧ ∀ g : Fin 8, (lockloss u).groups[g].live = false := by
  unfold lockloss
  extract_lets s1 s2 s3 s4 s5 s6 s7
  have h1 : Mild u s1 := raise_mild
  have h2 : s2.tb = { s1.tb with state := .unlocked, clkSrc := .ring, lockLosses := s1.tb.lockLosses + 1, lockTicks := 0 } :=
    rfl
  have h2s : s2.sp = s1.sp := rfl
  have h3 : s3.tb = s2.tb ∧ s3.sp.link = (if s2.sp.enable then .train else .down) := linkDown_facts
  have h4 : s4.tb = s3.tb ∧ SV s3 s4 := clustersLockloss_kept
  have h4c : ∀ k : Fin 8, s4.clusters[k].state = .off := clustersLockloss_off
  have h5 : Mild s4 s5 := groupsLockloss_mild
  have h5g : ∀ g : Fin 8, s5.groups[g].live = false := groupsLockloss_live
  have h6 : Quiet s5 s6 := eachQuiet (fun _ _ => axisLockloss_quiet) _
  have h6g : GD s5 s6 := eachGD (fun _ _ => axisLockloss_gd) _
  have h6a : ∀ a : Fin 4, s6.axes[a].state = .lost :=
    eachFin_ind (P := fun a s => s.axes[a].state = .lost) (fun i s => axisLockloss_ax i (.inl rfl))
      (fun i j s h => axisLockloss_ax j (.inr h)) s5
  have h7 : SameBut [.mfs] s6 s7 := abortOpen_same
  have h7m : ∀ (m : Fin 16) r, s7.mfs[m].state ≠ .opened r := abortOpen_none
  clear_value s7 s6 s5 s4 s3 s2 s1
  have h8 : SameBut [.cal, .sync] s7 (syncLockloss (spanEnd s7)) := tail_same
  generalize syncLockloss (spanEnd s7) = s8 at h8 ⊢
  have h9 : SameBut [.tb] s8 (acquireNext none s8) := acquireNext_same
  have e : s8.tb = s2.tb := by rw [show s8.tb = s7.tb from h8 .tb (by decide), show s7.tb = s6.tb from h7 .tb (by decide),
    h6.1, h5.tb, h4.1, h3.1]
  have el : s8.sp.link = s3.sp.link := by rw [show s8.sp = s7.sp from h8 .sp (by decide), show s7.sp = s6.sp from h7 .sp (by decide),
    h6.2.1.link, h5.sp.link, h4.2.link]
  refine ⟨?_, ?_, fun a => ?_, fun k => ?_, fun m r => ?_, fun g => ?_⟩
  · rw [acquireNext_tb, e, h2, h1.tb]; rfl
  · rw [show (acquireNext none s8).sp = s8.sp from h9 .sp (by decide), el, h3.2, h2s, h1.sp.enable]
  · rw [show (acquireNext none s8).axes = s8.axes from h9 .axes (by decide), show s8.axes = s7.axes from h8 .axes (by decide),
      show s7.axes = s6.axes from h7 .axes (by decide)]; exact h6a a
  · rw [show (acquireNext none s8).clusters = s8.clusters from h9 .clusters (by decide),
      show s8.clusters = s7.clusters from h8 .clusters (by decide), show s7.clusters = s6.clusters from h7 .clusters (by decide),
      h6.2.2 k, h5.cl k]; exact h4c k
  · rw [show (acquireNext none s8).mfs = s8.mfs from h9 .mfs (by decide), show s8.mfs = s7.mfs from h8 .mfs (by decide)]
    exact h7m m r
  · rw [show (acquireNext none s8).groups = s8.groups from h9 .groups (by decide),
      show s8.groups = s7.groups from h8 .groups (by decide), show s7.groups = s6.groups from h7 .groups (by decide)]
    exact h6g g (h5g g)
theorem happen_refs {src n s} : (happen src n s).tb = s.tb := happen_same .tb (by decide)
theorem requalify_eq {x s} : requalify x s = if s.tb.refs[x].qualNow = s.tb.refs[x].qual then s else
   let s' := s.modRef x (fun r => { r with qual := s.tb.refs[x].qualNow, goodFor := 0 })
   match s.tb.refs[x].qualNow with | .warn => happen evRefWarn 1 s' | .fail => happen evRefFail 1 s' | _ => s' := rfl
theorem ref_at (s : State) (x f) : (s.modRef x f).tb.refs[x] = f s.tb.refs[x] := upd_same _ _ _
theorem ref_other (s : State) (x f) {y : Fin 4} (h : y ≠ x) : (s.modRef x f).tb.refs[y] = s.tb.refs[y] :=
    upd_other _ _ _ _ (Ne.symm h)
theorem ref_set (s : State) (x f) : s.modRef x f = { s with tb := { s.tb with refs := s.tb.refs.set x (f s.tb.refs[x]) } } :=
    rfl
theorem requalify_mod {x} {s : State} {r : Ref} : requalify x (s.modRef x (fun _ => r)) =
   (let q := r.qualNow; if q = r.qual then s.modRef x (fun _ => r) else
   let s' := s.modRef x (fun _ => { r with qual := q, goodFor := 0 })
   match q with | .warn => happen evRefWarn 1 s' | .fail => happen evRefFail 1 s' | _ => s') := by
  rw [requalify_eq, ref_at]
  have e : ∀ f, (s.modRef x (fun _ => r)).modRef x f = s.modRef x (fun _ => f r) := by
    intro f
    simp only [State.modRef, State.modTb]
    congr 2
    unfold upd; simp
  simp only [e]
theorem requalify_refs0 {x s} : (requalify x s).tb.refs = s.tb.refs ∨ (requalify x s).tb.refs = (s.modRef x (fun r =>
    { r with qual := s.tb.refs[x].qualNow, goodFor := 0 })).tb.refs := by
  rw [requalify_eq]
  split
  · exact .inl rfl
  · right
    split
    · exact congrArg Timebase.refs happen_refs
    · exact congrArg Timebase.refs happen_refs
    · rfl
theorem requalify_refs {x s} : (∀ y : Fin 4, y ≠ x → (requalify x s).tb.refs[y] = s.tb.refs[y]) ∧
    ∃ q g, (requalify x s).tb.refs[x] = { s.tb.refs[x] with qual := q, goodFor := g } := by
  rcases requalify_refs0 (x := x) (s := s) with h | h
  · generalize requalify x s = t at h
    rw [h]
    exact ⟨fun _ _ => rfl, _, _, rfl⟩
  · generalize requalify x s = t at h
    rw [h]
    exact ⟨fun y h => ref_other _ _ _ h, _, _, ref_at _ _ _⟩
theorem spanBegin_tb {s} : (spanBegin s).tb = s.tb := spanBegin_same .tb (by decide)
theorem spanEnd_tb {s} : (spanEnd s).tb = s.tb := spanEnd_same .tb (by decide)
theorem beginSwitch_refs {y l s} : (beginSwitch y l s).tb.refs = s.tb.refs := by unfold beginSwitch; rw [spanBegin_tb]; rfl
theorem enterHoldover_refs {s} : (enterHoldover s).tb.refs = s.tb.refs := by
  unfold enterHoldover; split
  · rw [(lockloss_facts s).1]
  · dsimp only; rw [spanEnd_tb, happen_refs]; rfl
theorem activeFailed_refs {s} : (activeFailed s).tb.refs = s.tb.refs := by
  unfold activeFailed; split
  · exact beginSwitch_refs
  · exact enterHoldover_refs
theorem autoChecks_refs {s} : (autoChecks s).tb.refs = s.tb.refs := by
  unfold autoChecks; split
  · dsimp only; split
    · exact beginSwitch_refs
    · rfl
  · rfl
theorem noteBad_tb {s} : ∃ rs, (noteBad s).tb = { s.tb with refs := rs } := ⟨_, rfl⟩
/-- A window of the others changes only what a reference notes of its windows (R165). -/
theorem noteBad_ref {s : State} (y : Fin 4) : (noteBad s).tb.refs[y] =
    if s.tb.refs[y].present && s.compareOk s.tb.refs[y] then s.tb.refs[y]
    else { s.tb.refs[y] with bad1 := true, bad10 := true } := by
  show (s.tb.refs.map _)[y] = _
  simp only [Fin.getElem_fin, Vector.getElem_map]
theorem absentQual {r : Ref} : ({ r.restartQual with present := false, losses := r.losses + 1 } : Ref).qualNow = .absent := by
  unfold Ref.qualNow; simp
/-- What a loss leaves of a reference (R161, R165, R169). -/
def Ref.afterLoss (r : Ref) : Ref :=
  { r with present := false, losses := r.losses + 1, qual := .absent, presentFor := 0, whole := false, had10 := false,
           bad1 := true, bad10 := true, goodFor := if r.qual = .absent then r.goodFor else 0 }
/-- What a return leaves of a reference (R161, R165, R169). -/
def Ref.afterReturn (r : Ref) : Ref :=
  { r with present := true, qual := .unqual, presentFor := 0, whole := false, had10 := false, bad1 := true, bad10 := true,
           goodFor := if r.qual = .unqual then r.goodFor else 0 }
theorem lost_state {x u} (h1 : u.tb.refs[x].role ≠ .off) (h2 : u.tb.refs[x].present = true) :
   refLost x u = referenceGone x (noteBad (happen 368 1
     { u with tb := { u.tb with refs := u.tb.refs.set x u.tb.refs[x].afterLoss } })) := by
  unfold refLost
  dsimp only
  have : ¬ ((decide (u.tb.refs[x].role = .off) || !u.tb.refs[x].present) = true) := by rw [h2]; simp; exact h1
  rw [if_neg this]
  congr 2
  have e : ∀ s : State, happen evRefLoss 1 (s.modRef x (fun r => { r.restartQual with present := false, losses :=
      r.losses + 1 })) = (happen evRefLoss 1 s).modRef x (fun _ => { s.tb.refs[x].restartQual with present := false, losses :=
      s.tb.refs[x].losses + 1 }) := fun _ => rfl
  rw [e, requalify_mod, absentQual]
  dsimp only
  unfold Ref.afterLoss
  split
  · rename_i h
    have h' : u.tb.refs[x].qual = .absent := h.symm
    rw [if_pos h', ← h']
    rfl
  · rename_i h
    have h' : ¬ u.tb.refs[x].qual = .absent := fun k => h k.symm
    rw [if_neg h']
    rfl
theorem follows_of {x} {t : Timebase} (h3 : t.active = some x) (h4 : t.state = .locked) (h5 : t.noSwitch = true) :
    t.followsRef x = true := by
  unfold Timebase.followsRef
  unfold Timebase.noSwitch at h5
  rw [h3, h4]
  split at h5
  · cases h5
  · rename_i h
    simp
    split
    · rename_i e; exact absurd e (h _ _)
    · rfl
theorem activeGone_eq {v} (h5 : v.tb.noSwitch = true) : activeGone 0 v = activeFailed v := by
  unfold activeGone
  dsimp only
  unfold Timebase.noSwitch at h5
  split at h5
  · cases h5
  · rename_i h
    split
    · rename_i e; exact absurd e (h _ _)
    · rfl
/-- The loop follows the reference that is gone, and no other is to be had: holdover, or LOCKLOSS (R177). -/
theorem gone_hold {x v} (h3 : v.tb.active = some x) (h4 : v.tb.state = .locked) (h5 : v.tb.noSwitch = true) (h6 :
    v.tb.auto = false ∨ bestCandidate v.tb (some x) = none) : referenceGone x v = enterHoldover v := by
  unfold referenceGone
  rw [if_pos (follows_of h3 h4 h5), activeGone_eq h5]
  unfold activeFailed
  rw [h3]
  rcases h6 with h6 | h6
  · simp only [h6]
  · simp only [h6]; cases v.tb.auto <;> rfl
/-- The loop follows the reference that is gone, and another is to be had: a switch (R174). -/
theorem gone_switch {x y v} (h3 : v.tb.active = some x) (h4 : v.tb.state = .locked) (h5 : v.tb.noSwitch = true) (h6 :
    v.tb.auto = true) (h7 : bestCandidate v.tb (some x) = some y) : referenceGone x v = beginSwitch y true v := by
  unfold referenceGone
  rw [if_pos (follows_of h3 h4 h5), activeGone_eq h5]
  unfold activeFailed
  rw [h3]
  simp only [h6, h7]
/-- The loop follows the reference that is gone while a switch is under way: the switch goes on, for a loss (R175). -/
theorem gone_during {x y v} (h3 : v.tb.active = some x) (h4 : v.tb.state = .locked) (h5 : v.tb.job = .buildOut y false) :
    referenceGone x v = v.modTb (fun t => { t with job := .buildOut y true }) := by
  unfold referenceGone
  rw [if_pos (by unfold Timebase.followsRef; simp [h3, h4, h5])]
  unfold activeGone
  dsimp only
  rw [show (v.modTb (fun t => { t with lockTicks := t.lockTicks - 0 })).tb.job = _ from h5]
  rfl
/-- Neither followed nor measured: the timebase goes on (R161). -/
theorem gone_other {x v} (h3 : v.tb.active ≠ some x ∨ v.tb.state ≠ .locked) (h4 : ∀ l, v.tb.job ≠ .buildOut x l) :
    referenceGone x v = v := by
  unfold referenceGone
  rw [if_neg (by unfold Timebase.followsRef; rcases h3 with h | h <;> simp [h])]
  unfold abandonSwitch
  split
  · rename_i y l e
    rw [if_pos (by intro k; exact h4 l (k ▸ e))]
  · rfl
theorem acquireIdle_eq {v} : acquireIdle v =
    if v.tb.job = .idle ∧ v.boot.step = .running ∧ v.tb.acquiring = true ∧ v.bel.dark = false then acquireNext none v
    else v := by
  unfold acquireIdle
  split
  · rename_i h1 h2
    rw [h1, h2]
    by_cases c : v.tb.acquiring = true ∧ v.bel.dark = false
    · rw [if_pos (by simp [c.1, c.2]), if_pos ⟨rfl, rfl, c⟩]
    · rw [if_neg (by simpa using c), if_neg (fun k => c k.2.2)]
  · rename_i h
    rw [if_neg (fun k => h k.1 k.2.1)]
theorem present_state {x u} (h1 : u.tb.refs[x].role ≠ .off) (h2 : u.tb.refs[x].present = false) :
    refPresent x u = acquireIdle { u with tb := { u.tb with refs := u.tb.refs.set x u.tb.refs[x].afterReturn } } := by
  unfold refPresent
  dsimp only
  rw [if_neg (by rw [h2]; simpa using h1)]
  congr 1
  have hq : ({ u.tb.refs[x].restartQual with present := true } : Ref).qualNow = .unqual := by
    unfold Ref.qualNow Ref.restartQual; simp; exact h1
  rw [show u.modRef x (fun r => { r.restartQual with present := true }) =
    u.modRef x (fun _ => { u.tb.refs[x].restartQual with present := true }) from rfl, requalify_mod, hq]
  dsimp only
  unfold Ref.afterReturn
  split
  · rename_i h
    have h' : u.tb.refs[x].qual = .unqual := h.symm
    rw [if_pos h', ← h']
    rfl
  · rename_i h
    have h' : ¬ u.tb.refs[x].qual = .unqual := fun k => h k.symm
    rw [if_neg h']
    rfl
theorem glitch_eq {x} {u : State} (h1 : u.tb.active = some x) (h2 : u.tb.job = .frozen) (h3 : u.tb.refs[x].present = true) :
    glitchRecover u = spanEnd ((u.modRef x (fun r => { r with glitches := r.glitches + 1 })).modTb (fun t => { t with job :=
    .idle })) := by
  unfold glitchRecover; rw [h1, h2]; dsimp only; rw [if_pos h3]
theorem grade1_facts {r : Ref} {v : Int} : (r.grade1 v).offset1 = r.offset1 ∧ (r.grade1 v).cmpValid = r.cmpValid ∧
    (r.inFail = false → ((r.grade1 v).inFail = true ↔ r.failLimits.1 < v.natAbs)) := by
  unfold Ref.grade1
  dsimp only
  split
  · rename_i h
    refine ⟨by split <;> split <;> rfl, by split <;> split <;> rfl, fun k => ?_⟩
    rw [h] at k; cases k
  · split
    · rename_i h; exact ⟨rfl, rfl, fun _ => ⟨fun _ => h, fun _ => rfl⟩⟩
    · rename_i h
      split
      · exact ⟨rfl, rfl, fun k => ⟨fun e => absurd (k ▸ e : false = true) (by simp), fun e => absurd e h⟩⟩
      · exact ⟨rfl, rfl, fun k => ⟨fun e => absurd (k ▸ e : false = true) (by simp), fun e => absurd e h⟩⟩
theorem window1_some {r : Ref} {v : Int} : (r.window1 (some v)).offset1 = clipOffset v ∧ (r.window1 (some v)).cmpValid = true ∧ (r.inFail = false → ((r.window1 (some v)).inFail = true ↔ (if r.compare = .ring then 50000000 else r.fail) < (clipOffset v).natAbs)) := by
  unfold Ref.window1
  extract_lets r1 r2
  have h2 : r2.inFail = r.inFail ∧ r2.compare = r.compare ∧ r2.fail = r.fail := by
    have h1 : r1.inFail = r.inFail ∧ r1.compare = r.compare ∧ r1.fail = r.fail := by
      show (if r.whole then _ else _ : Ref).inFail = _ ∧ (if r.whole then _ else _ : Ref).compare = _ ∧
          (if r.whole then _ else _ : Ref).fail = _
      split <;> exact ⟨rfl, rfl, rfl⟩
    exact h1
  clear_value r2
  obtain ⟨a, b, c⟩ := grade1_facts (r := { r2 with offset1 := clipOffset v, results := (clipOffset v :: r2.results).take 10, wander := wanderOf ((clipOffset v :: r2.results).take 10), cmpValid := true }) (v := clipOffset v)
  refine ⟨a, b, fun h => (c (h2.1.trans h)).trans ?_⟩
  unfold Ref.failLimits
  rw [show (({ r2 with offset1 := clipOffset v, results := (clipOffset v :: r2.results).take 10, wander := wanderOf ((clipOffset v :: r2.results).take 10), cmpValid := true } : Ref).compare) = r2.compare from rfl, h2.2.1]
  split
  · exact Iff.rfl
  · rw [show (({ r2 with offset1 := clipOffset v, results := (clipOffset v :: r2.results).take 10, wander := wanderOf ((clipOffset v :: r2.results).take 10), cmpValid := true } : Ref).fail) = r2.fail from rfl, h2.2.2]
theorem window1_none {r : Ref} : (r.window1 none).offset1 = r.offset1 ∧ (r.window1 none).cmpValid = false ∧
    (r.window1 none).inFail = r.inFail := by
  unfold Ref.window1
  dsimp only
  refine ⟨?_, rfl, ?_⟩ <;> (split <;> rfl)
theorem window10_some {r : Ref} {v : Int} : let g := ({ r with offset10 := clipOffset v, had10 := true, cmpValid := true } : Ref).grade10 (clipOffset v)
   g.offset10 = clipOffset v ∧ g.cmpValid = true ∧ (r.inFail = false → r.inWarn = false → (g.inWarn = true ↔ r.compare ≠ .ring ∧
            (r.warn < (clipOffset v).natAbs ∨ (r.wanderMax ≠ 0 ∧ r.wanderMax < r.wander)))) := by
  dsimp only
  unfold Ref.grade10
  dsimp only
  generalize clipOffset v = c
  split
  · rename_i h
    refine ⟨rfl, rfl, fun h1 h2 => ?_⟩
    rw [h1] at h
    simp at h
    simp [h, h2]
  · rename_i h
    split
    · rename_i k
      refine ⟨rfl, rfl, fun h1 h2 => ?_⟩
      rw [h1] at h; simp at h
      simp [Ref.wanders, h] at k ⊢
      exact k
    · rename_i k
      have hx : ∀ z : Bool, (z = true → z = false) → r.inFail = false → r.inWarn = false → ((z = true) ↔ r.compare ≠ .ring ∧
            (r.warn < c.natAbs ∨ (r.wanderMax ≠ 0 ∧ r.wanderMax < r.wander))) := by
        intro z hz h1 h2
        rw [h1] at h; simp at h
        simp [Ref.wanders, h] at k
        constructor
        · intro e; rw [hz e] at e; cases e
        · intro e
          rcases e.2 with e | e
          · omega
          · have := k.2 e.1; omega
      split
      · exact ⟨rfl, rfl, fun h1 h2 => hx false (by simp) h1 h2⟩
      · exact ⟨rfl, rfl, fun h1 h2 => hx r.inWarn (fun _ => h2) h1 h2⟩
/-- The timebase, and the states and the properties of the axes, are the same in two states. -/
structure Kept (s t : State) : Prop where
  tb : t.tb = s.tb
  ax : ∀ a : Fin 4, t.axes[a].state = s.axes[a].state ∧ t.axes[a].cfg = s.axes[a].cfg
theorem Mild.kept {s t} (h : Mild s t) : Kept s t := ⟨h.tb, h.ax⟩
theorem Kept.of {ps s t} (h : SameBut ps s t) (hn : ∀ p ∈ [Part.tb, .axes], p ∉ ps := by decide) : Kept s t := by
  have t0 := h .tb (hn _ (by simp)); have t3 := h .axes (hn _ (by simp))
  simp only [Part.same] at t0 t3
  exact ⟨t0, fun a => by rw [t3]; exact ⟨rfl, rfl⟩⟩
theorem Kept.trans {s t u} (h : Kept s t) (k : Kept t u) : Kept s u := ⟨k.tb.trans h.tb, fun a => ⟨(k.ax a).1.trans (h.ax a).1,
    (k.ax a).2.trans (h.ax a).2⟩⟩
theorem Kept.refl (s) : Kept s s := ⟨rfl, fun _ => ⟨rfl, rfl⟩⟩
theorem eachKept {n} {f : Fin n → State → State} (h : ∀ a s, Kept s (f a s)) (s : State) : Kept s (eachFin n f s) := by
  unfold eachFin foldS
  induction List.finRange n generalizing s with
  | nil => exact Kept.refl s
  | cons x xs ih => exact (h x s).trans (ih (f x s))
theorem fixJoin_mild {k e s} : Mild s (fixJoin k e s) := by
  unfold fixJoin
  refine Mild.cluster ?_
  split <;> rfl
theorem resolveWaiting_mild {a s} : Mild s (resolveWaiting a s) := by
  unfold resolveWaiting
  refine .ite (.refl _) ?_
  extract_lets s1
  have h1 : Mild s s1 := eachMild (fun k s => by
    dsimp only
    split
    · exact .ite fixJoin_mild (.refl _)
    · exact .refl _) _
  refine h1.trans (eachMild (fun g s => ?_) _)
  split
  · split
    · split
      · exact haltGroup_mild
      · exact .refl _
      · exact Mild.group
    · exact .refl _
  · exact .refl _
theorem axes_mod {s : State} {a : Fin 4} {f : Axis → Axis} {st} (h : ∀ x, (f x).cfg = x.cfg ∧ (f x).state = st) (j : Fin 4) :
    (s.modAxis a f).axes[j].cfg = s.axes[j].cfg ∧ (s.modAxis a f).axes[j].state = if j = a then st else s.axes[j].state := by
  by_cases e : a = j
  · subst e
    rw [if_pos rfl]
    exact ⟨(congrArg Axis.cfg (upd_same _ _ _)).trans (h _).1, (congrArg Axis.state (upd_same _ _ _)).trans (h _).2⟩
  · rw [if_neg (Ne.symm e)]
    exact ⟨congrArg Axis.cfg (upd_other _ _ _ _ e), congrArg Axis.state (upd_other _ _ _ _ e)⟩
theorem freeLock_no {a s} (h : ¬ s.axes[a].cfg.mode = .free) : freeLock a s = s := if_pos h
theorem freeLock_yes {a s} (h : s.axes[a].cfg.mode = .free) : (freeLock a s).tb = s.tb ∧
    ∀ j : Fin 4, (freeLock a s).axes[j].cfg = s.axes[j].cfg ∧
      (freeLock a s).axes[j].state = if j = a then .confirmed else s.axes[j].state := by
  unfold freeLock
  dsimp only
  rw [if_neg (fun k => k h)]
  split
  · rename_i e
    refine ⟨rfl, fun j => ?_⟩
    by_cases k : a = j
    · subst k
      rw [if_pos rfl]
      have k : (s.modAxis a (fun x => { x with anchor := freeAnchor x s.tb.now })).axes[a] = _ := upd_same _ _ _
      have k1 := congrArg Axis.cfg k
      have k2 := congrArg Axis.state k
      exact ⟨k1, k2.trans e⟩
    · rw [if_neg (Ne.symm k)]
      exact ⟨congrArg Axis.cfg (upd_other _ _ _ _ k), congrArg Axis.state (upd_other _ _ _ _ k)⟩
  · generalize hs : s.modAxis a (fun x => { newNumbering x with state := .confirmed, anchor := freeAnchor x s.tb.now }) = s1
    have h0 : s1.tb = s.tb := by subst hs; rfl
    have h1 : ∀ j : Fin 4, s1.axes[j].cfg = s.axes[j].cfg ∧
        s1.axes[j].state = if j = a then .confirmed else s.axes[j].state :=
      fun j => by
        subst hs
        exact axes_mod (f := fun x => { newNumbering x with state := .confirmed, anchor := freeAnchor x s.tb.now })
          (fun _ => ⟨rfl, rfl⟩) j
    clear hs
    have m : Mild s1 (resolveWaiting a (raiseAxis a 1 s1)) := Mild.trans (t := raiseAxis a 1 s1) raise_mild resolveWaiting_mild
    exact ⟨m.tb.trans h0, fun j => ⟨(m.ax j).2.trans (h1 j).1, (m.ax j).1.trans (h1 j).2⟩⟩
theorem freeLock_facts {a s} : (freeLock a s).tb = s.tb ∧ ∀ j : Fin 4, (freeLock a s).axes[j].cfg = s.axes[j].cfg ∧
    (freeLock a s).axes[j].state = if j = a ∧ s.axes[a].cfg.mode = .free then .confirmed else s.axes[j].state := by
  by_cases h : s.axes[a].cfg.mode = .free
  · refine ⟨(freeLock_yes h).1, fun j => ⟨((freeLock_yes h).2 j).1, ((freeLock_yes h).2 j).2.trans ?_⟩⟩
    by_cases e : j = a
    · rw [if_pos e, if_pos ⟨e, h⟩]
    · rw [if_neg e, if_neg (fun k => e k.1)]
  · rw [freeLock_no h]
    exact ⟨rfl, fun j => ⟨rfl, (if_neg (fun k => h k.2)).symm⟩⟩
theorem freeLocks {s} : (eachFin 4 freeLock s).tb = s.tb ∧ ∀ j : Fin 4, (eachFin 4 freeLock s).axes[j].cfg = s.axes[j].cfg ∧
    (s.axes[j].cfg.mode = .free → (eachFin 4 freeLock s).axes[j].state = .confirmed) := by
  have tb : ∀ (xs : List (Fin 4)) s, (foldS xs freeLock s).tb = s.tb ∧ ∀ j : Fin 4,
      (foldS xs freeLock s).axes[j].cfg = s.axes[j].cfg := by
    intro xs; unfold foldS
    induction xs with
    | nil => intro s; exact ⟨rfl, fun _ => rfl⟩
    | cons x xs ih => intro s; exact ⟨(ih _).1.trans freeLock_facts.1, fun j => ((ih _).2 j).trans (freeLock_facts.2 j).1⟩
  refine ⟨(tb _ s).1, fun j => ⟨(tb _ s).2 j, fun h => ?_⟩⟩
  have := eachFin_ind (P := fun j s => s.axes[j].cfg.mode = .free → s.axes[j].state = .confirmed) (f := freeLock) (fun i s h =>
      ?_) (fun i j s h h' => ?_) s j
  · refine this ?_
    show (eachFin 4 freeLock s).axes[j].cfg.mode = .free
    rw [show (eachFin 4 freeLock s).axes[j].cfg = _ from (tb _ s).2 j]; exact h
  · have f := freeLock_facts (a := i) (s := s)
    rw [(f.2 i).1] at h
    rw [(f.2 i).2, if_pos ⟨rfl, h⟩]
  · have f := freeLock_facts (a := i) (s := s)
    rw [(f.2 j).1] at h'
    rw [(f.2 j).2]
    split
    · rfl
    · exact h h'
theorem trgLock_mild {n s} : Mild s (trgLock n s) := Mild.mk' rfl rfl rfl rfl
theorem modCluster_kept {k f s} : Kept s (s.modCluster k f) := ⟨rfl, fun _ => ⟨rfl, rfl⟩⟩
theorem quarantine_kept {k ph b s} : Kept s (quarantine k ph b s) := by
  unfold quarantine
  exact Kept.trans (t := s.modCluster k _) modCluster_kept raise_mild.kept
theorem clusterLock_kept {k s} : Kept s (clusterLock k s) := by
  unfold clusterLock
  dsimp only
  split
  · exact quarantine_kept.trans modCluster_kept
  · exact quarantine_kept.trans modCluster_kept
  · exact Kept.refl _
theorem nextTurns_kept {s} : Kept s (nextTurns s) := ⟨rfl, fun _ => ⟨rfl, rfl⟩⟩
theorem clustersLock_kept {s} : Kept s (clustersLock s) := (eachKept (fun _ _ => clusterLock_kept) _).trans nextTurns_kept
theorem syncLock_mild {s} : Mild s (syncLock s) := by
  unfold syncLock; exact .ite (Mild.mk' rfl rfl rfl rfl) (.refl _)
theorem afterFree {s} : Kept (eachFin 4 freeLock s) (syncLock (clustersLock (mfFollowAll s.tb.now (eachFin 4 freeLock s)))) :=
  (mfFollowAll_mild.kept.trans clustersLock_kept).trans syncLock_mild.kept
theorem relock_facts {s} : (relock s).tb = s.tb ∧ ∀ j : Fin 4, s.axes[j].cfg.mode = .free →
    (relock s).axes[j].state = .confirmed := by
  unfold relock
  extract_lets s1
  have h1 : Kept s s1 := eachKept (fun _ _ => trgLock_mild.kept) _
  clear_value s1
  have hf := freeLocks (s := s1)
  have ha := afterFree (s := s1)
  refine ⟨ha.tb.trans (hf.1.trans h1.tb), fun j hj => ((ha.ax j).1).trans ((hf.2 j).2 ?_)⟩
  rw [(h1.ax j).2]; exact hj
theorem firstLock_facts {s} : (firstLock s).tb = s.tb ∧ ∀ j : Fin 4, s.axes[j].cfg.mode = .free →
    (firstLock s).axes[j].state = .confirmed := by
  unfold firstLock
  extract_lets s1 s2 s3 s4
  have h1 : Kept s s1 := ⟨rfl, fun _ => ⟨rfl, rfl⟩⟩
  have h2 : Kept s1 s2 := ⟨rfl, fun _ => ⟨rfl, rfl⟩⟩
  have h3 : Kept s2 s3 := eachKept (fun _ _ => trgLock_mild.kept) _
  have h4 : Kept s3 s4 := raise_mild.kept
  clear_value s4 s3 s2 s1
  have h := ((h1.trans h2).trans h3).trans h4
  have hf := freeLocks (s := s4)
  have ha := (afterFree (s := s4)).trans (startupEnd_mild (s :=
      syncLock (clustersLock (mfFollowAll s4.tb.now (eachFin 4 freeLock s4))))).kept
  refine ⟨ha.tb.trans (hf.1.trans h.tb), fun j hj => ((ha.ax j).1).trans ((hf.2 j).2 ?_)⟩
  rw [(h.ax j).2]; exact hj

end Sys2Proof.Machine
end

