-- ==== Sys2Proof/Laws/Lines.lean ====
section
/-! SUPPORT. How a line is executed and answered; what the steps of the links, the boot ROM and the stream port do. -/
namespace Sys2Proof.Machine
open Sys2Proof

theorem modLink_id (u : State) (k : Link) : u.modLink k (fun l => l) = u := by cases k <;> rfl
theorem base (u : State) (k lf corrupt span) (hh : u.hears k = true) (hs : u.settled) (hlf : (lf && (u.link k).afterCr) = false) (he : (u.link k).esc = .none) : lineReceived k lf span corrupt u = (let s := lineEnded k lf u; if !(u.link k).tooLong && isBlank (u.link k).part then
        if (u.link k).mode = .typed then attn (s.modLink k LinkState.prompt) else s
      else meetLine (arrivedLine k (u.link k)) span corrupt s) := by
  have hesc : ((u.link k).mode = .typed && decide ((u.link k).esc ≠ EscState.none)) = false := by simp [he]
  unfold lineReceived
  simp only [hh, hlf, hesc]
  rw [settleQueue_id _ (settled_attnmod hs k _)]
  simp [lineEnded]
theorem drainBad_spec (n : Nat) (v : State) : SameBut [.con, .hspi, .spi, .steward] v (drainBad n v) ∧
    ∃ done, v.steward.queue = done ++ (drainBad n v).steward.queue ∧ ∀ r ∈ done, ∃ e, r.parsed = .bad e := by
  induction n generalizing v with
  | zero => exact ⟨.refl _ _, [], rfl, by simp⟩
  | succ n ih =>
    unfold drainBad
    split
    · exact ⟨.refl _ _, [], rfl, by simp⟩
    · next r rs e =>
      split
      · exact ⟨.refl _ _, [], rfl, by simp⟩
      · next err hb =>
        split
        · exact ⟨.refl _ _, [], rfl, by simp⟩
        · have hs : SameBut [.con, .hspi, .spi, .steward] v (answerBad r err { v with steward := { v.steward with queue := rs } }) := by
            unfold answerBad; rw [putOut_std _ _ _ rfl]; cases r.link <;> (intro p hp; cases p <;> first | rfl | (exfalso; revert hp; decide))
          have hq : (answerBad r err { v with steward := { v.steward with queue := rs } }).steward.queue = rs := by
            unfold answerBad; rw [putOut_std _ _ _ rfl]; cases r.link <;> rfl
          obtain ⟨a, done, b, c⟩ := ih (answerBad r err { v with steward := { v.steward with queue := rs } })
          refine ⟨hs.trans a, r :: done, ?_, ?_⟩
          · rw [e, List.cons_append, ← b, hq]
          · intro x hx; rcases List.mem_cons.1 hx with rfl | hx
            · exact ⟨_, hb⟩
            · exact c x hx
theorem workTest_active {v : State} {p : Fin 64} (o) (h : v.clusters[clusterOf p].state = .active) : v.workTest p o = .ok () :=
    by
  unfold State.workTest State.clusterTest; rw [h]; rfl
theorem workTest_code {v : State} {p : Fin 64} (o : Obj) (k : LineKind) (code) (h :
    lineCode k v.clusters[clusterOf p].state = some code) : v.clusterTest k (clusterOf p) o = .error (code, objName o) := by
  unfold State.clusterTest; rw [h]
theorem foldFlush (rs : List Req) (s : State) : (foldS rs flushReq s).steward = s.steward := by
  unfold foldS
  induction rs generalizing s with
  | nil => rfl
  | cons r rs ih =>
    rw [List.foldl_cons, ih]; unfold flushReq; dsimp only; rw [putOut_std _ _ _ rfl]; cases r.link <;> rfl
theorem answer_same (r : Req) (x : Exec) (u v : State) (h : ∀ y, x = .ok y → SameBut [.con, .hspi, .spi, .steward] u y.state) (hv : SameBut [.con, .hspi, .spi, .steward] u v) :
    SameBut [.con, .hspi, .spi, .steward] u (settleQueue (answer r x v)) := by
  refine SameBut.trans ?_ (drainBad_spec _ _).1
  unfold answer
  split
  · rw [putOut_std _ _ _ rfl]; refine hv.trans ?_; cases r.link <;> (intro p hp; cases p <;> first | rfl | (exfalso; revert hp; decide))
  · next y => rw [putOut_std _ _ _ rfl]; refine (h y rfl).trans ?_; cases r.link <;> (intro p hp; cases p <;>
      first | rfl | (exfalso; revert hp; decide))
theorem steward_same (want syn) (run : Req → Cmd → State → Exec) (u : State) (h : ∀ r c v y, run r c v = .ok y → SameBut [.con,
    .hspi, .spi, .steward] v y.state) : SameBut [.con, .hspi, .spi, .steward] u (steward false want syn run u) := by
  unfold steward
  split
  · exact .refl _ _
  · split
    · exact .refl _ _
    · next r rs _ =>
      split
      · exact .refl _ _
      · split
        · exact .refl _ _
        · dsimp only
          rw [if_neg (by simp)]
          have h0 : SameBut [.con, .hspi, .spi, .steward] u { u with steward := { u.steward with queue := rs } } :=
              by (intro p hp; cases p <;> first | rfl | (exfalso; revert hp; decide))
          refine answer_same _ _ _ _ ?_ h0
          intro y hy
          unfold phases at hy
          split at hy
          · cases hy
          · cases hy
          · split at hy
            · cases hy
            · exact h0.trans (h _ _ _ _ hy)
theorem done_state {p s y} (h : done p s = .ok y) : y.state = s := by unfold done at h; cases h; rfl
theorem timeTest_word (v rc w) : timeTest v rc false (.word w) = leadTest 2500000 v.tb.now w := rfl
theorem leadTest_ok {l ref w} (h1 : l ≤ tdiff w ref) (h2 : tdiff w ref ≤ 2 ^ 62) : leadTest l ref w = .ok () := by
  unfold leadTest horizonTu; simp only; rw [if_neg (by omega), if_neg (by omega)]
theorem leadTest_soon {l ref w} (h1 : tdiff w ref < l) : leadTest l ref w = .error (305, "") := by
  unfold leadTest; simp only; rw [if_pos h1]
theorem leadTest_far {l ref w} (h1 : l ≤ tdiff w ref) (h2 : 2 ^ 62 < tdiff w ref) : leadTest l ref w = .error (301, "") := by
  unfold leadTest horizonTu; simp only; rw [if_neg (by omega), if_pos h2]
theorem sched_base {v : State} {r : Recv} {p : Fin 64} {text : RawVal} {i : Int} (ht :
    readField atField text.text.toList = .ok (.val (.one (.time i))))
   (ha : v.clusters[clusterOf p].state = .active) (hc : v.tb.clkSrc = .pll) (hm : v.ports[p].cfg.mode = .pulse ∨
       v.ports[p].cfg.mode = .echo) :
   schedVerb false r (.ok (.port p)) ⟨false, text⟩ [] v = (do
     leadTest 2500000 v.tb.now (BitVec.ofInt 64 i)
     leadTest 2500000 v.tb.now (BitVec.ofInt 64 i)
     if 64 < v.ports[p].queue.length + 1 then (.error (501, objName (.port p)) : Exec) else
     if v.ports[p].queue.any (schedConflict v (gapOf v.ports[p].cfg.mode) v.ports[p].cfg.width (.word (BitVec.ofInt 64 i))) then .error (304, objName (.port p)) else
     done ("SCHED " ++ objName (.port p) ++ " AT " ++ fmtTime v.tb.timeFmt (BitVec.ofInt 64 i).toNat)
       (settlePulse p (schedPulse v v.ports[p].cfg.width (.word (BitVec.ofInt 64 i))) v)) := by
  have hring : v.ring = false := by unfold State.ring; simp [hc]
  have hmode : isPulseMode v.ports[p].cfg.mode = true := by rcases hm with hm | hm <;> rw [hm] <;> rfl
  have hres : resolveTarget v r v.ports[p].cfg.axis (objName (.port p)) false text = .ok (.word (BitVec.ofInt 64 i)) := by
    unfold resolveTarget; simp [ht]
  have z : ∀ w : TimeWord, tadd w ((0 : Nat) : Int) = w := by intro w; simp [tadd]
  simp only [schedVerb, thePort, theObj, bind, Except.bind, pure, Except.pure, workTest_active _ ha, hring, hmode, hres]
  simp only [readRep, List.foldlM_nil, pure, Except.pure, insertionTest, Target.plus, Nat.sub_self, Nat.zero_mul, z,
      timeTest_word]
  simp only [Bool.false_and, Bool.not_true, Bool.false_eq_true, if_false, Target.text, repText, List.map_nil, String.join,
      List.foldl_nil, List.range_one, List.map_cons, List.any_cons, List.any_nil, Bool.or_false, foldS, List.foldl_cons, z,
      Nat.zero_mul]
  cases leadTest 2500000 v.tb.now (BitVec.ofInt 64 i) with
  | error e => rfl
  | ok _ =>
    dsimp only
    split
    · rfl
    · split
      · rfl
      · simp [String.append_empty]
theorem sched_syn {v : State} {p : Fin 64} {text : RawVal} {i : Int} (ht :
    readField atField text.text.toList = .ok (.val (.one (.time i)))) : schedSyn v (.ok (.port p)) ⟨false, text⟩ [] = none := by
    simp [schedSyn, firstOf, targetSyn, ht]
theorem find?_none_of {α} {p : α → Bool} {l : List α} (h : ∀ y ∈ l, p y = false) : l.find? p = none := by
  rw [List.find?_eq_none]; intro x hx; simp [h x hx]
theorem RomFront.run {u : State} {r rest c} (h : RomFront u r rest c) (want syn run) (hw : want c = true) :
   rom want syn run u = settleQueue (answer r (match syn c with | some e => .error (e.code, e.detail) | none => run c (u.took rest)) (u.took rest)) := by
  unfold rom
  rw [if_neg (by rw [h.step]; simp)]
  simp only [h.queue, h.parsed, hw, Bool.not_true, Bool.false_eq_true, if_false]
  show settleQueue (answer r (phases (syn c) none false _) (u.took rest)) = _
  unfold phases
  cases syn c <;> rfl
theorem putByte_new (o : Nat) (b : Byte) : ∀ m, (o, b) ∈ putByte o b m
  | [] => by simp [putByte]
  | (i, c) :: r => by
    unfold putByte; split
    · simp
    · split
      · simp
      · exact List.mem_cons_of_mem _ (putByte_new o b r)
theorem putByte_old (o : Nat) (b : Byte) {e : Nat × Byte} (h : e.1 ≠ o) : ∀ m, e ∈ m → e ∈ putByte o b m
  | [], k => by simp at k
  | (i, c) :: r, k => by
    unfold putByte; split
    · exact List.mem_cons_of_mem _ k
    · rename_i h1
      rcases List.mem_cons.1 k with k | k
      · split
        · rename_i h2; subst k; exact absurd h2.symm h
        · subst k; simp
      · split
        · exact List.mem_cons_of_mem _ k
        · exact List.mem_cons_of_mem _ (putByte_old o b h r k)
theorem putByte_only (o : Nat) (b : Byte) {e : Nat × Byte} : ∀ m, e ∈ putByte o b m → e ∈ m ∨ e = (o, b)
  | [], k => by simp [putByte] at k; exact .inr k
  | (i, c) :: r, k => by
    unfold putByte at k; split at k
    · rcases List.mem_cons.1 k with k | k
      · exact .inr k
      · exact .inl k
    · split at k
      · rcases List.mem_cons.1 k with k | k
        · exact .inr k
        · exact .inl (List.mem_cons_of_mem _ k)
      · rcases List.mem_cons.1 k with k | k
        · exact .inl (k ▸ List.mem_cons_self ..)
        · rcases putByte_only o b r k with k | k
          · exact .inl (List.mem_cons_of_mem _ k)
          · exact .inr k
/-- The bytes of a LOAD line in the download buffer. -/
def putAll (o : Nat) (xs : List (Byte × Nat)) (m : List (Nat × Byte)) := xs.foldl (fun m x => putByte (o + x.2) x.1 m) m
theorem putAll_old (o : Nat) {e : Nat × Byte} : ∀ (xs : List (Byte × Nat)) m, (∀ x ∈ xs, e.1 ≠ o + x.2) → e ∈ m →
    e ∈ putAll o xs m
  | [], m, _, k => k
  | x :: xs, m, h, k => putAll_old o xs _ (fun y hy => h y (List.mem_cons_of_mem _ hy))
      (putByte_old _ _ (h x (List.mem_cons_self ..)) m k)
theorem putAll_new (o : Nat) : ∀ (bs : List Byte) (a : Nat) m i x, bs[i]? = some x → (o + (a + i),
    x) ∈ putAll o (bs.zip (List.range' a bs.length)) m
  | [], a, m, i, x, h => by simp at h
  | b :: bs, a, m, i, x, h => by
    simp only [List.length_cons, List.range'_succ, List.zip_cons_cons]
    show _ ∈ putAll o (bs.zip (List.range' (a+1) bs.length)) (putByte (o + a) b m)
    cases i with
    | zero =>
      simp at h; subst h
      refine putAll_old o _ _ ?_ (putByte_new _ _ _)
      intro y hy
      have := (List.of_mem_zip hy).2
      simp [List.mem_range'] at this
      obtain ⟨j, _, hj⟩ := this
      dsimp only; omega
    | succ i =>
      have := putAll_new o bs (a+1) (putByte (o + a) b m) i x (by simpa using h)
      rwa [show a + (i + 1) = a + 1 + i by omega]
theorem putAll_only (o : Nat) {e : Nat × Byte} : ∀ (bs : List Byte) (a : Nat) m,
    e ∈ putAll o (bs.zip (List.range' a bs.length)) m → e ∈ m ∨ ∃ i, bs[i]? = some e.2 ∧ e.1 = o + (a + i)
  | [], a, m, h => .inl h
  | b :: bs, a, m, h => by
    simp only [List.length_cons, List.range'_succ, List.zip_cons_cons] at h
    rcases putAll_only o bs (a+1) _ h with h | ⟨i, h1, h2⟩
    · rcases putByte_only _ _ _ h with h | h
      · exact .inl h
      · exact .inr ⟨0, by simp [h], by simp [h]⟩
    · exact .inr ⟨i + 1, by simpa using h1, by omega⟩
theorem holdEvs_same {s : State} : SameBut [.con, .hspi] s { s with con := s.con.holdEvs, hspi := s.hspi.holdEvs } :=
    by (intro p hp; cases p <;> first | rfl | (exfalso; revert hp; decide))
theorem flushReq_same {r s} : SameBut [.con, .hspi, .spi] s (flushReq r s) := by
  unfold flushReq; dsimp only; unfold putOut responseItem
  cases r.link <;> (intro p hp; cases p <;> first | rfl | (exfalso; revert hp; decide))
theorem attn_same {s} : SameBut [.spi] s (attn s) := by (intro p hp; cases p <;> first | rfl | (exfalso; revert hp; decide))
theorem flush_same {rs : List Req} {s} : SameBut [.con, .hspi, .spi] s (attn (foldS rs flushReq s)) := (foldS_same (fun _ _ =>
    flushReq_same) _ _).step attn_same
theorem updAll_at {α n} (v : Vector α n) (f : Fin n → α → α) (p : Fin n) : (updAll v f)[p] = f p v[p] := by unfold updAll; simp
theorem hard_ports (c s) : ∀ p : Fin 64, (hardwareReset c s).ports[p] = { State.reset.ports[p] with table := s.ports[p].table }
    := by
  intro p
  unfold hardwareReset
  generalize State.reset = z
  exact updAll_at z.ports _ p
theorem hard_same (c s) : SameBut [.ports, .bel, .boot, .pending] State.reset (hardwareReset c s) := by
  unfold hardwareReset
  generalize State.reset = z
  (intro p hp; cases p <;> first | rfl | (exfalso; revert hp; decide))
theorem startImage_boot {src x u} : (startImage src x u).boot = { u.boot with step := .building, imageSrc := src, image := x, stage := .refwait } :=
  flush_same .boot (by decide)
theorem putOut_same {k i s} : SameBut [linkPart k, .spi] s (putOut k i s) := by
  unfold putOut
  cases k <;> dsimp only [linkPart] <;> cases i.kind <;> dsimp only <;> refine .trans (SameBut.ite ?_ ?_)
      (attn_same.mono (by decide)) <;> (intro p hp; cases p <;> first | rfl | (exfalso; revert hp; decide))
theorem modLink_same {k f s} : SameBut [linkPart k, .spi] s (s.modLink k f) := by cases k <;> (intro p hp; cases p <;>
    first | rfl | (exfalso; revert hp; decide))
theorem formEv_same {k src s} : SameBut [.con, .hspi, .spi] s (formEv k src s) := by
  unfold formEv; dsimp only
  have m : ∀ k' p, p ∈ [linkPart k', Part.spi] → p ∈ [Part.con, Part.hspi, Part.spi] := by intro k' p; cases k' <;> cases p <;>
      decide
  split
  · exact .refl _ _
  · split
    · exact SameBut.trans (modLink_same.mono (m k)) (modLink_same.mono (m k))
    · exact SameBut.trans (modLink_same.mono (m k)) (putOut_same.mono (m k))
theorem stewardLeaves_same {c s} : SameBut [.steward, .ports, .con, .hspi, .spi] s (stewardLeaves c s) := by
  unfold stewardLeaves; dsimp only
  refine SameBut.trans ?_ (flush_same.mono (by decide))
  (intro p hp; cases p <;> first | rfl | (exfalso; revert hp; decide))
theorem stewardLeaves_steward {c s} : (stewardLeaves c s).steward = { s.steward with queue := [], absent := true, restarts := s.steward.restarts + 1, cause := c } := flush_same .steward (by decide)
theorem stewardLeaves_ports {c s} (p : Fin 64) : (stewardLeaves c s).ports[p] = { s.ports[p] with staging := [] } := by
  have : (stewardLeaves c s).ports = s.ports.map (fun q => { q with staging := [] }) := flush_same .ports (by decide)
  rw [this]; simp
theorem rotaResume_same {s} : SameBut [.ports] s (rotaResume s) := by (intro p hp; cases p <;> first | rfl | (exfalso; revert hp; decide))
/-- The parts that forming an EV line may change. -/
abbrev evParts : List Part := [.groups, .fabric, .con, .hspi, .sp, .fifo, .spi]
theorem restartEv_same {s : State} :
    SameBut evParts s (if s.tb.running then formEv .hspi evSteward (formEv .con evSteward (raise evSteward Flags.none s)) else happen evSteward 1 s) := by
  refine .ite ?_ ?_
  · exact ((raise_same.mono (by decide)).trans (formEv_same.mono (by decide))).trans (formEv_same.mono (by decide))
  · unfold happen; rw [if_neg (by decide)]; (intro p hp; cases p <;> first | rfl | (exfalso; revert hp; decide))
theorem restartEnd_eq {u : State} (h : u.awake = true) (h1 : u.steward.absent = true) : ∃ waits s1 s2, waits = (match u.steward.ordered with | some (.update, _) => true | _ => false) ∧ s1 = ({ u with steward := { u.steward with absent := false }, boot := u.boot.updated waits } : State) ∧ s2 = (if s1.cal.hold then s1 else rotaResume s1) ∧ restartEnd u = (if s2.tb.running then formEv .hspi evSteward (formEv .con evSteward (raise evSteward Flags.none s2)) else happen evSteward 1 s2) := by
  refine ⟨_, _, _, rfl, rfl, rfl, ?_⟩
  unfold restartEnd
  exact if_neg (by simp [h, h1])
theorem formEv_here {k src s} : (formEv k src s).hspi.heldEv = s.hspi.heldEv ∨ k = .hspi := by
  cases k
  · left
    unfold formEv; dsimp only
    split
    · rfl
    · split
      · rfl
      · rw [(putOut_same (k := .con)) .hspi (by decide)]; rfl
  · right; rfl
theorem arriveStamp_fits {r : StampRec} {s : State} (h : r.uclass = false) (hf : s.fifo.fitsB [.stamp r] = true) :
    arriveStamp r s = { s with fifo := { s.fifo with stamps := s.fifo.stamps ++ [.stamp r] } } := by
  have e : s.fifo.pushB [.stamp r] = ({ s.fifo with stamps := s.fifo.stamps ++ [.stamp r] }, false) := by
    unfold Fifo.pushB; rw [if_pos hf]; rfl
  unfold arriveStamp
  simp only [h, hf, e, Bool.false_eq_true, if_false, if_true]
  rfl
theorem takeGood_all : ∀ (rs : List FifoRec) (n i : Nat), takeGood [] n i rs = (rs.take n, [], rs.drop n)
  | [], n, i => by simp [takeGood]
  | r :: rs, n, i => by
    unfold takeGood
    split
    · rename_i h; subst h; simp
    · rename_i h
      obtain ⟨m, rfl⟩ : ∃ m, n = m + 1 := ⟨n - 1, by omega⟩
      simp [takeGood_all rs m (i + 1)]
theorem channel_pos {f : Fifo} {ch recs n ty} (h : f.channel ch = (recs, n, ty)) : 0 < n := by
  unfold Fifo.channel at h
  split at h <;> (cases h; decide)
theorem bytesLE_len : ∀ n v, (bytesLE n v).length = n
  | 0, _ => rfl
  | n + 1, v => by simp [bytesLE, bytesLE_len n]
theorem ofBytesLE_bytesLE : ∀ n v, v < 256 ^ n → ofBytesLE (bytesLE n v) = v
  | 0, v, h => by simp at h; subst h; rfl
  | n + 1, v, h => by
    have : v / 256 < 256 ^ n := by rw [Nat.pow_succ] at h; omega
    simp only [bytesLE, ofBytesLE, ofBytesLE_bytesLE n _ this]
    simp; omega
theorem slice_mid (pre mid post : List Byte) : slice (pre ++ (mid ++ post)) pre.length mid.length = mid := by
  unfold slice; simp
theorem natAt_mid {bs : List Byte} (pre : List Byte) (n v : Nat) (post : List Byte) {off : Nat} (h : bs = pre ++
    (bytesLE n v ++ post)) (ho : off = pre.length) (hv : v < 256 ^ n) : natAt bs off n = v := by
  unfold natAt
  have := slice_mid pre (bytesLE n v) post
  rw [bytesLE_len] at this
  rw [h, ho, this, ofBytesLE_bytesLE _ _ hv]
theorem takeUpload_good {seg block quarter seq check data u} (h1 : seg < 4096) (h2 : quarter < 4) (h3 : block < 65536) (h4 : seq < 65536) (h5 : data.length = 256) :
    takeUpload ⟨uploadBytes seg block quarter seq check data, false, false⟩ u = placeQuarter seg block quarter seq check data u := by
  let body := [0x1C, 0x10] ++ bytesLE 2 seq ++ bytesLE 2 264 ++ bytesLE 2 0 ++ bytesLE 2 (seg + 4096 * quarter) ++ bytesLE 2 block ++ bytesLE 4 check.toNat ++ data
  have hb : uploadBytes seg block quarter seq check data = body ++ bytesLE 4 (crc32c body).toNat := rfl
  have lb : body.length = 272 := by simp [body, bytesLE_len, h5]
  have l : (uploadBytes seg block quarter seq check data).length = 276 := by rw [hb]; simp [lb, bytesLE_len]
  generalize hB : uploadBytes seg block quarter seq check data = B at *
  have e1 : natAt B (B.length - 4) 4 = (crc32c body).toNat := by
    refine natAt_mid body 4 _ [] (by rw [hb]; simp) (by rw [l, lb]) ?_
    have := (crc32c body).isLt; omega
  have e2 : B.take (B.length - 4) = body := by
    have h4 : B.length - 4 = body.length := by omega
    rw [h4, hb]; exact List.take_left
  have f0 : natAt B 0 1 = 0x1C := natAt_mid [] 1 0x1C _ (by rw [hb]; simp only [body, List.append_assoc]; rfl) rfl (by decide)
  have f1 : natAt B 1 1 = 0x10 := natAt_mid [0x1C] 1 0x10 _ (by rw [hb]; simp only [body, List.append_assoc]; rfl) rfl (by decide)
  have f2 : natAt B 2 2 = seq := natAt_mid [0x1C, 0x10] 2 seq _ (by rw [hb]; simp only [body, List.append_assoc]; rfl) rfl h4
  have f4 : natAt B 4 2 = 264 := natAt_mid ([0x1C, 0x10] ++ bytesLE 2 seq) 2 264 _ (by rw [hb]; simp only [body, List.append_assoc]; rfl) (by simp [bytesLE_len]) (by decide)
  have f6 : natAt B 6 2 = 0 := natAt_mid ([0x1C, 0x10] ++ bytesLE 2 seq ++ bytesLE 2 264) 2 0 _ (by rw [hb]; simp only [body, List.append_assoc]; rfl) (by simp [bytesLE_len]) (by decide)
  have f8 : natAt B 8 2 = seg + 4096 * quarter := natAt_mid ([0x1C, 0x10] ++ bytesLE 2 seq ++ bytesLE 2 264 ++ bytesLE 2 0) 2 _ _ (by rw [hb]; simp only [body, List.append_assoc]; rfl) (by simp [bytesLE_len]) (by omega)
  have f10 : natAt B 10 2 = block := natAt_mid ([0x1C, 0x10] ++ bytesLE 2 seq ++ bytesLE 2 264 ++ bytesLE 2 0 ++ bytesLE 2 (seg + 4096 * quarter)) 2 _ _ (by rw [hb]; simp only [body, List.append_assoc]; rfl) (by simp [bytesLE_len]) h3
  have f12 : natAt B 12 4 = check.toNat := natAt_mid ([0x1C, 0x10] ++ bytesLE 2 seq ++ bytesLE 2 264 ++ bytesLE 2 0 ++ bytesLE 2 (seg + 4096 * quarter) ++ bytesLE 2 block) 4 _ _ (by rw [hb]; simp only [body, List.append_assoc]; rfl) (by simp [bytesLE_len]) (by have := check.isLt; omega)
  have f16 : slice B 16 256 = data := by
    have := slice_mid ([0x1C, 0x10] ++ bytesLE 2 seq ++ bytesLE 2 264 ++ bytesLE 2 0 ++ bytesLE 2 (seg + 4096 * quarter) ++ bytesLE 2 block ++ bytesLE 4 check.toNat) data (bytesLE 4 (crc32c body).toNat)
    have e : B = ([0x1C, 0x10] ++ bytesLE 2 seq ++ bytesLE 2 264 ++ bytesLE 2 0 ++ bytesLE 2 (seg + 4096 * quarter) ++ bytesLE 2 block ++ bytesLE 4 check.toNat) ++ (data ++ bytesLE 4 (crc32c body).toNat) := by rw [hb]; simp only [body, List.append_assoc]
    rw [← e, h5] at this
    rw [show 16 = ([0x1C, 0x10] ++ bytesLE 2 seq ++ bytesLE 2 264 ++ bytesLE 2 0 ++ bytesLE 2 (seg + 4096 * quarter) ++ bytesLE 2 block ++ bytesLE 4 check.toNat).length by simp [bytesLE_len]]
    exact this
  unfold takeUpload
  simp only [e1, e2, f0, f1, f2, f4, f6, f8, f10, f12, f16, l]
  have g1 : (seg + 4096 * quarter) / 16384 = 0 := by omega
  have g2 : (seg + 4096 * quarter) % 4096 = seg := by omega
  have g3 : (seg + 4096 * quarter) / 4096 % 4 = quarter := by omega
  rw [l] at e1 e2
  simp [g1, g2, g3, e1, e2]
theorem placeQuarter_new {seg block quarter seq check data} {u : State} (h : ∀ a ∈ u.sp.assemblies, a.seg ≠ seg ∨
    a.block ≠ block) :
    placeQuarter seg block quarter seq check data u = if u.sp.assemblies.length < 16 then
        { u with sp := { u.sp with assemblies := u.sp.assemblies ++ [⟨seg, block, [(quarter, check, data)], seq, u.tb.now⟩] } }
        else report ⟨seg, block, .noslot, seq⟩ u := by
  have e : u.sp.assemblies.find? (fun a => decide (a.seg = seg) && decide (a.block = block)) = none := by
    rw [List.find?_eq_none]
    intro a ha k
    simp only [Bool.and_eq_true, decide_eq_true_eq] at k
    rcases h a ha with h | h
    · exact h k.1
    · exact h k.2
  unfold placeQuarter
  simp only [e]
  by_cases c : u.sp.assemblies.length < 16
  · rw [if_neg (by omega), if_pos c]; rfl
  · rw [if_pos (by omega), if_neg c]
theorem decideBlock_ok {a : Assembly} {id : Fin 4096} {seg : Segment} {check : BitVec 32} {q : Fin 4 → List Byte} {u : State}
    (h1 : a.seg = id.val) (h2 : u.store.find id = some seg) (h3 : a.block < seg.blocks) (h4 : u.segActive id = false) (h5 :
    ∀ x ∈ a.quarters, x.2.1 = check)
  (h6 : ∀ i : Fin 4, a.quarters.find? (fun x => decide (x.1 = i.val)) = some (i.val, check, q i)) :
      decideBlock a u = (.accepted, writeBlock id ⟨a.block, q 0 ++ q 1 ++ q 2 ++ q 3, check, false⟩ u) := by
  have hid : Fin.ofNat 4096 a.seg = id := by rw [h1]; simp
  have hne : a.quarters ≠ [] := by intro h; have := h6 0; rw [h] at this; simp at this
  obtain ⟨x, xs, hx⟩ := List.exists_cons_of_ne_nil hne
  have hc : ∀ y ∈ a.quarters.map (fun q => q.2.1), y = check := by
    intro y hy; obtain ⟨z, hz, rfl⟩ := List.mem_map.1 hy; exact h5 z hz
  unfold decideBlock
  simp only [hid, h2, h4]
  have q0 := h6 0; have q1 := h6 1; have q2 := h6 2; have q3 := h6 3
  simp only [show ((0 : Fin 4).val) = 0 from rfl, show ((1 : Fin 4).val) = 1 from rfl, show ((2 : Fin 4).val) = 2 from rfl,
      show ((3 : Fin 4).val) = 3 from rfl] at q0 q1 q2 q3
  simp only [q0, q1, q2, q3]
  rw [hx] at hc ⊢
  simp only [List.map_cons] at hc ⊢
  have c0 := hc x.2.1 (List.mem_cons_self ..)
  have c1 : (xs.map (fun q => q.2.1)).all (fun y => decide (y = x.2.1)) = true := by
    rw [List.all_eq_true]; intro y hy; rw [c0]; simpa using hc y (List.mem_cons_of_mem _ hy)
  rw [c1]
  simp only [Bool.not_true, Bool.false_eq_true, if_false, List.headD_cons, c0]
  rw [if_neg (by omega)]

end Sys2Proof.Machine
end

