-- ==== Sys2Proof/Laws/SetLines.lean ====
section
/-! SUPPORT. How a SET line of one assignment runs, and the facts of the properties it names. -/
namespace Sys2Proof.Machine
open Sys2Proof

/-- The write that an assignment stands for. -/
def wr (o : Obj) (name : String) (x : PropSpec) (v : Value) : Write := ⟨o, x, objName o ++ "." ++ name, v⟩
theorem set_any {s : State} {as} (h : setHas keyKind (.set as) = false) {d f u} (hu : u = s.elapse d) :
    exec (.set d f) s = .next (setLine f (fun c => (match c with | .set _ => true | _ => false) && !setHas keyKind c) u) :=
    by subst hu; rfl
/-- A SET line of one assignment passes its tests. -/
structure OneOk (v : State) (o : Obj) (name : String) (x : PropSpec) (val : Value) : Prop where
  hp : propOf o name = some x
  ro : x.readOnly = false
  seg : segTest v o = .ok ()
  addr : addressTest v o true = .ok ()
  tm : (x.timed && v.ring) = false
  conf : conflictOf v (trialState [wr o name x val] v) (wr o name x val) = none
theorem setSyn_one {v : State} {o name text x val} (h : propOf o name = some x) (hr :
    readField x.ty text.text.toList = .ok (.val val)) : setSyn [⟨⟨.ok o, name⟩, text⟩] v = none := by
  simp [setSyn, firstOf, assignSyn, assignField, h, hr]
theorem setVerb_one {v : State} {rc o name text x val} (h : OneOk v o name x val) (hr :
    readField x.ty text.text.toList = .ok (.val val)) :
   setVerb rc [⟨⟨.ok o, name⟩, text⟩] v = .ok ⟨assignText v.tb.timeFmt (objName o ++ "." ++ name)
       (if x.name == "ACTIVE" then val else x.get (trialState [wr o name x val] v)), [],
       ([wr o name x val]).filterMap modeWrite,
     if (decide (o = .con) && x.name == "BAUD") then some .hunt else none, none, applyAll [wr o name x val] v⟩ := by
  have h1 : readWrite v ⟨⟨.ok o, name⟩, text⟩ = .ok (.value (wr o name x val)) := by
    simp [readWrite, pathTest, theObj, h.hp, h.seg, h.addr, h.tm, h.ro, hr, bind, Except.bind, pure, Except.pure]
    rfl
  have h2 : readWrites v rc [⟨⟨.ok o, name⟩, text⟩] = .ok [wr o name x val] := by
    unfold readWrites
    simp only [List.map_cons, List.map_nil, h1, resolvePre, goodOf, List.filterMap_cons, List.filterMap_nil, List.mapM_cons,
        List.mapM_nil, h.conf, bind, Except.bind, pure, Except.pure]
  unfold setVerb
  rw [h2]
  simp only [bind, Except.bind, List.map_cons, List.map_nil, writeText, List.any_cons, List.any_nil, Bool.or_false]
  rfl
theorem set_line {u v : State} {r rest o name text x val} (f : Front u r rest (.set [⟨⟨.ok o, name⟩, text⟩])) (hv :
    v = u.took rest) (h : OneOk v o name x val) (hr : readField x.ty text.text.toList = .ok (.val val)) {want : Cmd → Bool}
    (hw : want (.set [⟨⟨.ok o, name⟩, text⟩]) = true) :
   setLine false want u = settleQueue (answer r (.ok ⟨assignText v.tb.timeFmt (objName o ++ "." ++ name)
       (if x.name == "ACTIVE" then val else x.get (trialState [wr o name x val] v)), [],
       ([wr o name x val]).filterMap modeWrite,
     if (decide (o = .con) && x.name == "BAUD") then some .hunt else none, none, applyAll [wr o name x val] v⟩) v) := by
  subst hv
  unfold setLine
  rw [Front.run f _ _ _ _ hw]
  simp only [setSyn_one h.hp hr, setVerb_one h hr]
  rfl
theorem set_any_kind {o name text} (h : keyKind o name = false) : ((match (Cmd.set [⟨⟨.ok o, name⟩, text⟩] :
    Cmd) with | .set _ => true | _ => false) && !setHas keyKind (Cmd.set [⟨⟨.ok o, name⟩, text⟩])) = true := by
  simp [setHas, h]
theorem set_kind {o name text} {kind : Obj → String → Bool} (h : keyKind o name = false) (hk : kind o name = true) :
    (setHas kind (Cmd.set [⟨⟨.ok o, name⟩, text⟩]) && !setHas keyKind (Cmd.set [⟨⟨.ok o, name⟩, text⟩])) = true := by
  simp [setHas, h, hk]
/-- The tests of OneOk that do not depend on the value. -/
structure RowOk (v : State) (o : Obj) (name : String) (x : PropSpec) (val : Value) : Prop where
  hp : propOf o name = some x
  hn : x.name = name
  ro : x.readOnly = false
  seg : segTest v o = .ok ()
  addr : addressTest v o true = .ok ()
  tm : (x.timed && v.ring) = false
theorem trial_one {o name x val} {v : State} (hn : x.name = name) (hi : name ≠ "IOSTD") :
    trialState [wr o name x val] v = x.put val v := by
  unfold trialState standardsFirst
  have e : (wr o name x val).prop.name = name := hn
  have h1 : (name == "IOSTD") = false := by simp [hi]
  have h2 : (name != "IOSTD") = true := by simp [hi]
  simp only [List.filter_cons, List.filter_nil, e, h1, h2, if_true, if_false, Bool.false_eq_true, List.nil_append,
      List.foldl_cons, List.foldl_nil]
  cases o <;> rfl
theorem apply_one {o name x val} {v : State} (hn : x.name = name) :
    applyAll [wr o name x val] v = objectWritten v o [name] (statsCleared [wr o name x val] (applyWrite (wr o name x val) v))
    := by
  unfold applyAll standardsFirst objectsOf
  have e : (wr o name x val).prop.name = name := hn
  have e2 : (wr o name x val).obj = o := rfl
  by_cases h : name = "IOSTD"
  · have h1 : (name == "IOSTD") = true := by simp [h]
    have h2 : (name != "IOSTD") = false := by simp [h]
    have e3 : [o].eraseDups = [o] := rfl
    simp [List.filter_cons, e, h1, h2, foldS, e2, e3]
  · have h1 : (name == "IOSTD") = false := by simp [h]
    have h2 : (name != "IOSTD") = true := by simp [h]
    have e3 : [o].eraseDups = [o] := rfl
    simp [List.filter_cons, e, h1, h2, foldS, e2, e3]
theorem noStats {o name x val} {t : State} (h : ∀ m, o = .mf m → (x.name == "STATS") = false) :
    statsCleared [wr o name x val] t = t := by
  unfold statsCleared foldS
  simp only [List.foldl_cons, List.foldl_nil]
  cases o <;> try rfl
  rename_i m
  have := h m rfl
  show (if (x.name == "STATS" && _) = true then _ else _) = _
  rw [this]; rfl
theorem row {u v : State} {r rest o name text x val t'} (f : Front u r rest (.set [⟨⟨.ok o, name⟩, text⟩])) (hv :
    u.took rest = v) (h : RowOk v o name x val) (hr : readField x.ty text.text.toList = .ok (.val val)) {want : Cmd → Bool}
    (hw : want (.set [⟨⟨.ok o, name⟩, text⟩]) = true)
   (hi : name ≠ "IOSTD") (ha : name ≠ "ACTIVE") (hm : name ≠ "MODE" ∨ (o ≠ .con ∧ o ≠ .hspi)) (hb : name ≠ "BAUD") (hs :
       name ≠ "STATS")
   {txt : String} (hget : fmtValue v.tb.timeFmt (x.get (x.put val v)) = txt)
   (conf : conflictOf v (x.put val v) (wr o name x val) = none) (he :
       objectWritten v o [name] (applyWrite (wr o name x val) v) = t') :
   setLine false want u = r.says (setText o name txt) [] t' := by
  have hn' : x.name = name := h.hn
  have h1 : OneOk v o name x val := ⟨h.hp, h.ro, h.seg, h.addr, h.tm, by rw [trial_one hn' hi]; exact conf⟩
  rw [set_line f hv.symm h1 hr hw, trial_one hn' hi, apply_one hn', noStats (by intro m _; rw [hn']; simp [hs]), he, hn']
  have e1 : (name == "ACTIVE") = false := by simp [ha]
  have e3 : (name == "BAUD") = false := by simp [hb]
  have e2 : [wr o name x val].filterMap modeWrite = [] := by
    have : modeWrite (wr o name x val) = none := by
      unfold modeWrite
      rcases hm with hm | hm
      · dsimp only
        rw [if_pos]
        show (x.name != "MODE") = true
        rw [hn']; simp [hm]
      · dsimp only
        show (if _ then none else match o with | .con => _ | .hspi => _ | _ => none) = none
        split
        · rfl
        · split
          · exact absurd rfl hm.1
          · exact absurd rfl hm.2
          · rfl
    simp [this]
  rw [e1, e2, e3]
  simp only [Bool.and_false, Bool.false_eq_true, if_false]
  unfold assignText setText Req.says
  rw [hget]
  rfl
theorem fmt_nat (f : TimeFmt) (n : Nat) : fmtValue f (.int n) = dec n := by
  show decInt n = _
  unfold decInt
  rw [if_neg (by omega)]; rfl
theorem row2 {u v : State} {r rest o name text x val t' t1} {txt : String} {want : Cmd → Bool} (f :
    Front u r rest (.set [⟨⟨.ok o, name⟩, text⟩])) (hv : u.took rest = v)
   (hr : readField x.ty text.text.toList = .ok (.val val)) (hw : want (.set [⟨⟨.ok o, name⟩, text⟩]) = true)
   (hx : propOf o name = some x) (hn : x.name = name) (ro : x.readOnly = false) (tm : (x.timed && v.ring) = false)
   (seg : segTest v o = .ok ()) (addr : addressTest v o true = .ok ())
   (hnm : name ≠ "IOSTD" ∧ name ≠ "ACTIVE" ∧ name ≠ "MODE" ∧ name ≠ "BAUD" ∧ name ≠ "STATS")
   (hput : x.put val v = t1) (hget : fmtValue v.tb.timeFmt (x.get t1) = txt)
   (conf : conflictOf v t1 (wr o name x val) = none) (he : objectWritten v o [name] (applyWrite (wr o name x val) v) = t') :
   setLine false want u = r.oked (setText o name txt) t' := by
  subst hput
  exact row f hv ⟨hx, hn, ro, seg, addr, tm⟩ hr hw hnm.1 hnm.2.1 (.inl hnm.2.2.1) hnm.2.2.2.1 hnm.2.2.2.2 hget conf he
theorem ringless {v : State} (h : v.tb.clkSrc = .pll) (b : Bool) : (b && v.ring) = false := by
  unfold State.ring; simp [h]
theorem here_absent {u : State} {r rest c} (f : Front u r rest c) : (u.took rest).steward.absent = false := by
  have := f.here; unfold State.stewardHere at this
  show u.steward.absent = false
  cases h : u.steward.absent <;> simp_all
theorem addr_port {v : State} {p : Fin 64} (h : v.clusters[clusterOf p].state = .active ∨
    v.clusters[clusterOf p].state = .quarantine) : addressTest v (.port p) true = .ok () := by
  unfold addressTest State.clusterTest
  rcases h with h | h <;> (dsimp only; rw [h]; rfl)
theorem modPort_at (s : State) (k f) : (s.modPort k f).ports[k] = f s.ports[k] := upd_same _ _ _
theorem settle_same {old p} {s : State} (h1 : old.threshInForce p = s.threshInForce p)
    (h2 : old.ports[p].cfg.hyst = s.ports[p].cfg.hyst) : settleFrom old p s = s :=
  if_pos (by rw [h1, h2]; simp)
theorem settleFrom_at {old p} {s : State} : (settleFrom old p s).ports[p] =
    if old.threshInForce p = s.threshInForce p ∧ old.ports[p].cfg.hyst = s.ports[p].cfg.hyst then s.ports[p]
    else { s.ports[p] with settling := some ⟨old.threshInForce p, old.ports[p].cfg.hyst, s.tb.now⟩ } := by
  unfold settleFrom
  by_cases h : old.threshInForce p = s.threshInForce p ∧ old.ports[p].cfg.hyst = s.ports[p].cfg.hyst
  · rw [if_pos h, if_pos (by rw [h.1, h.2]; simp)]
  · rw [if_neg h, if_neg (by simpa using h), modPort_at]
theorem settleFrom_cfg {old p} {s : State} : (settleFrom old p s).ports[p].cfg = s.ports[p].cfg := by
  rw [settleFrom_at]; split <;> rfl
theorem settleFrom_same {old p} {s : State} : SameBut [.ports] s (settleFrom old p s) := by
  unfold settleFrom; exact .ite (.refl _ _) modPort_same
/-- The threshold in force depends on the mode, the threshold and the standard. -/
theorem inForce_mod {v : State} {p : Fin 64} {f : Port → Port} (h1 : (f v.ports[p]).cfg.mode = v.ports[p].cfg.mode)
    (h2 : (f v.ports[p]).cfg.thresh = v.ports[p].cfg.thresh) : (v.modPort p f).threshInForce p = v.threshInForce p := by
  unfold State.threshInForce
  rw [modPort_at]
  dsimp only
  rw [h1, h2]
  rfl
theorem portDone {v : State} {p : Fin 64} {f : Port → Port} (hm : (f v.ports[p]).cfg.mode = v.ports[p].cfg.mode) (n) :
    objectWritten v (.port p) n (v.modPort p f) = settleFrom v p (v.modPort p f) := by
  show modeChanged p v.ports[p].cfg.mode (settleFrom v p (v.modPort p f)) = _
  unfold modeChanged
  rw [if_pos]
  rw [settleFrom_cfg, modPort_at]; exact hm
/-- A port with a change to its properties. -/
def pc (g : PortCfg → PortCfg) (q : Port) : Port := { q with cfg := g q.cfg }
/-- A property that a SET line may write. -/
def PlainPort (p : Fin 64) (name : String) (x : PropSpec) : Prop := x.name = name ∧ x.readOnly = false
theorem port_row {u v : State} {r rest text val} {p : Fin 64} {name : String} {x : PropSpec} {g : PortCfg → PortCfg} {g' :
    Port → Port} {txt : String}
   (f : Front u r rest (.set [⟨⟨.ok (.port p), name⟩, text⟩])) (hv : u.took rest = v) (hc :
       v.clusters[clusterOf p].state = .active ∨ v.clusters[clusterOf p].state = .quarantine)
   (hr : readField x.ty text.text.toList = .ok (.val val)) {want : Cmd → Bool} (hw : want (.set [⟨⟨.ok (.port p), name⟩,
       text⟩]) = true)
   (hx : propOf (.port p) name = some x) (hn : x.name = name) (ro : x.readOnly = false) (tm : (x.timed && v.ring) = false)
   (hnm : name ≠ "IOSTD" ∧ name ≠ "ACTIVE" ∧ name ≠ "MODE" ∧ name ≠ "BAUD" ∧ name ≠ "STATS")
   (hput : x.put val v = v.modPort p (pc g)) (hget : fmtValue v.tb.timeFmt (x.get (v.modPort p (pc g))) = txt)
   (happ : applyWrite (wr (.port p) name x val) v = v.modPort p g') (hmode : (g' v.ports[p]).cfg.mode = v.ports[p].cfg.mode)
   (conf : portConflict v (v.modPort p (pc g)) p name = none) : setLine false want u = r.oked (setText (.port p) name txt)
       (settleFrom v p { v with ports := v.ports.set p (g' v.ports[p]) }) := by
  rw [row f hv ⟨hx, hn, ro, rfl, addr_port hc, tm⟩ hr hw hnm.1 hnm.2.1 (.inl hnm.2.2.1) hnm.2.2.2.1 hnm.2.2.2.2 (txt := txt)
      (by rw [hput]; exact hget) (by rw [hput]; show portConflict v _ p x.name = none; rw [hn]; exact conf) rfl]
  rw [happ, portDone hmode]
  rfl
theorem port_row' {u v : State} {r rest text val} {p : Fin 64} {name : String} {x : PropSpec} {g : PortCfg → PortCfg} {txt :
    String}
   (f : Front u r rest (.set [⟨⟨.ok (.port p), name⟩, text⟩])) (hv : u.took rest = v) (hc :
       v.clusters[clusterOf p].state = .active ∨ v.clusters[clusterOf p].state = .quarantine)
   (hr : readField x.ty text.text.toList = .ok (.val val)) {want : Cmd → Bool} (hw : want (.set [⟨⟨.ok (.port p), name⟩,
       text⟩]) = true)
   (hx : propOf (.port p) name = some x) (hn : x.name = name) (ro : x.readOnly = false) (tm : (x.timed && v.ring) = false)
   (hnm : name ≠ "IOSTD" ∧ name ≠ "ACTIVE" ∧ name ≠ "MODE" ∧ name ≠ "BAUD" ∧ name ≠ "STATS" ∧ name ≠ "FTW")
   (hput : x.put val v = v.modPort p (pc g)) (hget : fmtValue v.tb.timeFmt (x.get (v.modPort p (pc g))) = txt)
   (hmode : (g v.ports[p].cfg).mode = v.ports[p].cfg.mode)
   (conf : portConflict v (v.modPort p (pc g)) p name = none) : setLine false want u = r.oked (setText (.port p) name txt)
       (settleFrom v p { v with ports := v.ports.set p (pc g v.ports[p]) }) := by
  refine port_row f hv hc hr hw hx hn ro tm ⟨hnm.1, hnm.2.1, hnm.2.2.1, hnm.2.2.2.1, hnm.2.2.2.2.1⟩ hput hget ?_ hmode conf
  rw [← hput]
  unfold applyWrite
  dsimp only [wr]
  rw [hn]
  have : (name == "FTW") = false := by simp [hnm.2.2.2.2.2]
  rw [this]; rfl
theorem settle_plain {v : State} {p : Fin 64} {f : Port → Port} (h1 : (f v.ports[p]).cfg.mode = v.ports[p].cfg.mode)
    (h2 : (f v.ports[p]).cfg.thresh = v.ports[p].cfg.thresh) (h3 : (f v.ports[p]).cfg.hyst = v.ports[p].cfg.hyst) :
    settleFrom v p { v with ports := v.ports.set p (f v.ports[p]) } = { v with ports := v.ports.set p (f v.ports[p]) } := by
  refine settle_same (s := v.modPort p f) (inForce_mod h1 h2).symm ?_
  rw [modPort_at]; exact h3.symm
theorem port_mode {u v : State} {r rest text} {p : Fin 64} (hv : u.took rest = v) (hc :
    v.clusters[clusterOf p].state = .active ∨ v.clusters[clusterOf p].state = .quarantine) (m : PortMode)
   (h : SetsOne u r rest (.port p) "MODE" text (.kw m.word)) (hq : v.ports[p].queue = []) (ha : v.ports[p].cfg.mode = .tone →
       v.ports[p].armed = false)
   (hl : v.ports[p].cfg.mode = .pattern → m ≠ .pattern → v.laneOf p = none) (he : m = .echo → 16000 ≤ v.ports[p].cfg.width)
   (hg : m = .gate ∨ m = .pattern ∨ ∀ n : Fin 8, v.ags[n].cfg.role ≠ .off → p ∉ v.ags[n].cfg.inputs) :
   setKind false (fun o n => match o with | .port _ => n == "MODE" | _ => false) u = r.oked (setText (.port p) "MODE" m.word)
       (portWritten p v (v.modPort p (pc fun c => { c with mode := m }))) := by
    obtain ⟨f, x, hx, hr⟩ := h
    have hn : x.name = "MODE" := by cases hx; rfl
    have hput : x.put (.kw m.word) v = v.modPort p (pc fun c => { c with mode := m }) := by cases hx; cases m <;> rfl
    have hget : fmtValue v.tb.timeFmt (x.get (v.modPort p (pc fun c => { c with mode := m }))) = m.word := by
      have : x.get (v.modPort p (pc fun c => { c with mode := m })) = Value.kw m.word := by
        cases hx
        show Value.one (atomOf _ ((v.modPort p (pc fun c => { c with mode := m })).ports[p].cfg.mode)) = _
        rw [modPort_at]; cases m <;> rfl
      rw [this]; cases m <;> rfl
    have hok : RowOk v (.port p) "MODE" x (.kw m.word) := by
      refine ⟨hx, hn, ?_, rfl, addr_port hc, ?_⟩ <;> (cases hx; rfl)
    have hbusy : v.ports[p].busy = false := by
      unfold Port.busy Port.toneArmed; rw [hq]
      by_cases hm : v.ports[p].cfg.mode = .tone
      · rw [ha hm]; simp
      · have hm' : decide (v.ports[p].cfg.mode = .tone) = false := by simp only [hm, decide_false]
        rw [hm']; rfl
    have hconf : conflictOf v (x.put (.kw m.word) v) (wr (.port p) "MODE" x (.kw m.word)) = none := by
      rw [hput]
      show portConflict v _ p x.name = none
      rw [hn]
      unfold portConflict
      extract_lets q c short
      have hc' : c = { v.ports[p].cfg with mode := m } := congrArg Port.cfg (modPort_at v p _)
      clear_value c short
      rw [if_pos (by decide)]
      have hlane : (v.modPort p (pc fun c => { c with mode := m })).laneOf p = v.laneOf p := rfl
      rw [hlane]
      have b1 : (decide (q.cfg.mode = .pattern) && decide (c.mode ≠ .pattern) && (v.laneOf p).isSome) = false := by
        rw [hc']
        by_cases x1 : q.cfg.mode = .pattern
        · by_cases x2 : m = .pattern
          · simp [x2]
          · simp [hl x1 x2]
        · simp [x1]
      have b2 : (decide (c.mode = .echo) && decide (c.width < 16000)) = false := by
        rw [hc']
        by_cases x1 : m = .echo
        · have := he x1; simp [x1]; exact this
        · simp [x1]
      have b0 : q.busy = false := hbusy
      have b3 : (decide (c.mode ≠ .gate) && decide (c.mode ≠ .pattern) && (v.modPort p (pc fun c => { c with mode :=
          m })).ags.toList.any (fun x => decide (x.cfg.role ≠ .off) && x.cfg.inputs.contains p)) = false := by
        rw [hc']
        rcases hg with h | h | h
        · simp [h]
        · simp [h]
        · have e : v.ags.toList.any (fun x => decide (x.cfg.role ≠ .off) && x.cfg.inputs.contains p) = false := by
            rw [List.any_eq_false]
            intro x hx
            obtain ⟨i, hi, e⟩ := List.getElem_of_mem hx
            have := h ⟨i, by simpa using hi⟩
            simp only [Fin.getElem_fin, Vector.getElem_toList] at this e
            rw [← e]
            intro k
            simp only [Bool.and_eq_true, decide_eq_true_eq, List.contains_iff_mem] at k
            exact this k.1 k.2
          show (_ && v.ags.toList.any _) = false
          rw [e, Bool.and_false]
      rw [b0, b1, b2, b3]; rfl
    have happ : applyWrite (wr (.port p) "MODE" x (.kw m.word)) v = v.modPort p (pc fun c => { c with mode := m }) := by
      rw [← hput]
      unfold applyWrite; dsimp only [wr]; rw [hn]; rfl
    unfold setKind
    refine (row f hv hok hr (by rfl) (by decide) (by decide) (.inr ⟨nofun, nofun⟩) (by decide) (by decide) (txt := m.word)
        (by rw [hput]; exact hget) hconf rfl).trans ?_
    rw [happ]
    rfl
/-- What a new mode changes: the port's own state apart from its properties, and what follows the mode of a port. -/
theorem modeChanged_spec {p old} {v : State} : SameBut [.ports, .mfs, .groups, .fabric, .con, .hspi, .sp,
    .fifo] v (modeChanged p old v) ∧ (modeChanged p old v).ports[p].cfg = v.ports[p].cfg := by
  unfold modeChanged
  split
  · exact ⟨.refl _ _, rfl⟩
  · generalize (v.portActive p && (v.windowOf p).isNone) = b
    have h0 : SameBut [.ports] v (v.modPort p (Port.newMode v.cycle b old)) := modPort_same
    have h1 : SameBut [.ports, .mfs, .groups, .fabric, .con, .hspi, .sp, .fifo] v
        (mfFollowAll v.cycle (v.modPort p (Port.newMode v.cycle b old))) := (h0.mono (by decide)).step mfFollowAll_same
    have h2 : PV Port.cfg v (mfFollowAll v.cycle (v.modPort p (Port.newMode v.cycle b old))) :=
      PV.trans (t := v.modPort p (Port.newMode v.cycle b old)) (PV.mod rfl) (mfFollowAll_pv (fun _ _ => rfl))
    extract_lets s1
    have e : s1 = mfFollowAll v.cycle (v.modPort p (Port.newMode v.cycle b old)) := rfl
    clear_value s1
    rw [← e] at h1 h2
    split
    · exact ⟨h1.step modPort_same, by unfold startTone; rw [modPort_at]; exact h2 p⟩
    · exact ⟨h1, h2 p⟩
/-- The same, with what the comparator does (R242). -/
theorem portWritten_spec {p old} {v : State} : SameBut [.ports, .mfs, .groups, .fabric, .con, .hspi, .sp,
    .fifo] v (portWritten p old v) ∧ (portWritten p old v).ports[p].cfg = v.ports[p].cfg := by
  unfold portWritten
  have h := modeChanged_spec (p := p) (old := old.ports[p].cfg.mode) (v := settleFrom old p v)
  exact ⟨(settleFrom_same.mono (by decide)).trans h.1, h.2.trans settleFrom_cfg⟩
theorem port_ftw {u v : State} {r rest text} {p : Fin 64} (hv : u.took rest = v) (hc :
    v.clusters[clusterOf p].state = .active ∨ v.clusters[clusterOf p].state = .quarantine) (n : Nat)
   (h : SetsOne u r rest (.port p) "FTW" text (.int n)) {want : Cmd → Bool} (hw : want (.set [⟨⟨.ok (.port p), "FTW"⟩,
       text⟩]) = true) :
   setLine false want u = r.oked (setText (.port p) "FTW" (dec n)) { v with ports := v.ports.set p { v.ports[p] with tone := if v.ports[p].tone.running = true then toneChange v.ports[p] n (v.tu v.nextCycle) v.nextCycle else v.ports[p].tone, cfg := { v.ports[p].cfg with ftw := n }, lastChange := v.nextCycle } } := by
  obtain ⟨f, x, hx, hr⟩ := h
  have hn : x.name = "FTW" := by cases hx; rfl
  have hput : x.put (.int n) v = v.modPort p (pc fun c => { c with ftw := n }) := by cases hx; rfl
  refine (port_row f hv hc hr hw hx hn (by cases hx; rfl) (by cases hx; rfl) (by decide) (g' := fun q => { q with tone := if q.tone.running then toneChange q n (v.tu v.nextCycle) v.nextCycle else q.tone, cfg := { q.cfg with ftw := n }, lastChange := v.nextCycle }) hput (txt := dec n) ?_ ?_ rfl ?_).trans ?_
  · have : x.get (v.modPort p (pc fun c => { c with ftw := n })) = Value.int n := by
      cases hx
      show Value.int ((v.modPort p (pc fun c => { c with ftw := n })).ports[p].cfg.ftw : Nat) = _
      rw [modPort_at]; rfl
    rw [this, fmt_nat]
  · unfold applyWrite; dsimp only [wr]; rw [hn]; rfl
  · rfl
  · rw [settle_plain (f := fun q => { q with tone := if q.tone.running then toneChange q n (v.tu v.nextCycle) v.nextCycle else q.tone, cfg := { q.cfg with ftw := n }, lastChange := v.nextCycle }) rfl rfl rfl]
theorem port_kw {u v : State} {r rest text} {p : Fin 64} {want : Cmd → Bool} (hv : u.took rest = v) (hc :
    v.clusters[clusterOf p].state = .active ∨ v.clusters[clusterOf p].state = .quarantine)
   (ht : v.tb.clkSrc = .pll) (h : SetsOne u r rest (.port p) "TONEAT" text (.kw "NONE")) (hw : want (.set [⟨⟨.ok (.port p),
       "TONEAT"⟩, text⟩]) = true) :
   setLine false want u = r.oked (setText (.port p) "TONEAT" "NONE") { v with ports := v.ports.set p (pc (fun c =>
       { c with toneAt := .none }) v.ports[p]) } := by
  obtain ⟨f, x, hx, hr⟩ := h
  have hring : v.ring = false := by unfold State.ring; simp [ht]
  have hput : x.put (.kw "NONE") v = v.modPort p (pc fun c => { c with toneAt := .none }) := by cases hx; rfl
  rw [← settle_plain (f := pc _) rfl rfl rfl]
  refine port_row' f hv hc hr hw hx (by cases hx; rfl) (by cases hx; rfl) (by rw [hring, Bool.and_false])
      (by decide) hput ?_ rfl ?_
  · have : x.get (v.modPort p (pc fun c => { c with toneAt := .none })) = Value.kw "NONE" := by
      cases hx
      show (v.modPort p (pc fun c => { c with toneAt := .none })).ports[p].cfg.toneAt.value _ = _
      rw [modPort_at]; rfl
    rw [this]; rfl
  · show (toneTest _ p).map Prod.fst = none
    unfold toneTest
    rw [modPort_at]; rfl
theorem port_time {u v : State} {r rest text} {p : Fin 64} {want : Cmd → Bool} (hv : u.took rest = v) (hc :
    v.clusters[clusterOf p].state = .active ∨ v.clusters[clusterOf p].state = .quarantine)
   (ht : v.tb.clkSrc = .pll) (i : Int) (h : SetsOne u r rest (.port p) "TONEAT" text (.time i)) (h1 :
       2500000 ≤ tdiff (BitVec.ofInt 64 i) v.tb.now) (h2 : tdiff (BitVec.ofInt 64 i) v.tb.now ≤ 2 ^ 62) (hw :
       want (.set [⟨⟨.ok (.port p), "TONEAT"⟩, text⟩]) = true) :
   setLine false want u = r.oked (setText (.port p) "TONEAT" (fmtTime v.tb.timeFmt (BitVec.ofInt 64 i).toNat)) { v with ports := v.ports.set p (pc (fun c => { c with toneAt := .time (BitVec.ofInt 64 i) }) v.ports[p]) } := by
  obtain ⟨f, x, hx, hr⟩ := h
  have hring : v.ring = false := by unfold State.ring; simp [ht]
  have hput : x.put (.time i) v = v.modPort p (pc fun c => { c with toneAt := .time (BitVec.ofInt 64 i) }) := by cases hx; rfl
  rw [← settle_plain (f := pc _) rfl rfl rfl]
  refine port_row' f hv hc hr hw hx (by cases hx; rfl) (by cases hx; rfl) (by rw [hring, Bool.and_false])
      (by decide) hput ?_ rfl ?_
  · have : x.get (v.modPort p (pc fun c => { c with toneAt := .time (BitVec.ofInt 64 i) })) = Value.time (BitVec.ofInt 64 i).toNat := by
      cases hx
      show (v.modPort p (pc fun c => { c with toneAt := .time (BitVec.ofInt 64 i) })).ports[p].cfg.toneAt.value _ = _
      rw [modPort_at]; rfl
    rw [this]; rfl
  · show (toneTest _ p).map Prod.fst = none
    unfold toneTest
    rw [modPort_at]
    show (match insertionTest _ p (.word _), timeTest _ _ false (.word _) with | .error e, _ => some e | .ok _, .error e => some e | .ok _, .ok _ => none).map Prod.fst = none
    rw [show timeTest (v.modPort p (pc fun c => { c with toneAt := .time (BitVec.ofInt 64 i) })) (v.modPort p (pc fun c => { c with toneAt := .time (BitVec.ofInt 64 i) })).recvNow false (.word (BitVec.ofInt 64 i)) = leadTest 2500000 v.tb.now (BitVec.ofInt 64 i) from rfl]
    have : leadTest 2500000 v.tb.now (BitVec.ofInt 64 i) = .ok () := by
      unfold leadTest horizonTu; simp only; rw [if_neg (by omega), if_neg (by omega)]
    rw [this]; rfl
theorem port_hyst {u v : State} {r rest text} {p : Fin 64} {want : Cmd → Bool} (hv : u.took rest = v) (hc :
    v.clusters[clusterOf p].state = .active ∨ v.clusters[clusterOf p].state = .quarantine)
   (n : Nat) (h : SetsOne u r rest (.port p) "HYST" text (.int n)) (hw : want (.set [⟨⟨.ok (.port p), "HYST"⟩, text⟩]) = true) :
   setLine false want u = r.oked (setText (.port p) "HYST" (dec n)) (settleFrom v p { v with ports := v.ports.set p (pc (fun c =>
       { c with hyst := n }) v.ports[p]) }) := by
  obtain ⟨f, x, hx, hr⟩ := h
  have hput : x.put (.int n) v = v.modPort p (pc fun c => { c with hyst := n }) := by cases hx; rfl
  refine port_row' f hv hc hr hw hx (by cases hx; rfl) (by cases hx; rfl) (by cases hx; rfl) (by decide) hput ?_ rfl rfl
  have : x.get (v.modPort p (pc fun c => { c with hyst := n })) = Value.int n := by
    cases hx
    show Value.int ((v.modPort p (pc fun c => { c with hyst := n })).ports[p].cfg.hyst : Nat) = _
    rw [modPort_at]; rfl
  rw [this, fmt_nat]
theorem port_thresh {u v : State} {r rest text} {p : Fin 64} {want : Cmd → Bool} (hv : u.took rest = v) (hc :
    v.clusters[clusterOf p].state = .active ∨ v.clusters[clusterOf p].state = .quarantine)
   (h : SetsOne u r rest (.port p) "THRESH" text (.kw "AUTO")) (hw : want (.set [⟨⟨.ok (.port p), "THRESH"⟩, text⟩]) = true) :
   setLine false want u = r.oked (setText (.port p) "THRESH" "AUTO") (settleFrom v p { v with ports := v.ports.set p (pc (fun c => { c with thresh := none }) v.ports[p]) }) := by
  obtain ⟨f, x, hx, hr⟩ := h
  have hput : x.put (.kw "AUTO") v = v.modPort p (pc fun c => { c with thresh := none }) := by cases hx; rfl
  refine port_row' f hv hc hr hw hx (by cases hx; rfl) (by cases hx; rfl) (by cases hx; rfl) (by decide) hput ?_ rfl ?_
  · have : x.get (v.modPort p (pc fun c => { c with thresh := none })) = Value.kw "AUTO" := by
      cases hx
      show (match (v.modPort p (pc fun c => { c with thresh := none })).ports[p].cfg.thresh with | none => Value.kw "AUTO" | some v => Value.int v) = _
      rw [modPort_at]; rfl
    rw [this]; rfl
  · show (if !threshFits _ p then some 301 else _) = none
    unfold threshFits
    rw [modPort_at]; rfl
theorem set_iostd {u v : State} {r rest text} {k : Fin 8} {want : Cmd → Bool} (hv : u.took rest = v) (s : IoStd)
   (h : SetsOne u r rest (.cl k) "IOSTD" text (.kw s.word)) (hw : want (.set [⟨⟨.ok (.cl k), "IOSTD"⟩, text⟩]) = true)
   (h1 : v.clusters[k].state ≠ .draining) (h2 : v.clusters[k].state ≠ .joining) (h3 : ∀ j : Fin 64, clusterOf j = k →
       v.ports[j].cfg.output = false) (h4 : v.clusters[k].vddio = .none ∨ admits s v.clusters[k].vddio = true) :
   setLine false want u = r.oked (setText (.cl k) "IOSTD" s.word) (foldS (portsOf k) (settleFrom v) (thresholdsAuto k
       (v.modCluster k (fun c => { c with iostd := s })))) := by
  obtain ⟨f, x, hx, hr⟩ := h
  have hn : x.name = "IOSTD" := by cases hx; rfl
  have hput : x.put (.kw s.word) v = v.modCluster k (fun c => { c with iostd := s }) := by cases hx; cases s <;> rfl
  have htrial : trialState [wr (.cl k) "IOSTD" x (.kw s.word)] v = thresholdsAuto k (v.modCluster k (fun c => { c with iostd :=
      s })) := by
    unfold trialState standardsFirst
    have e : (wr (.cl k) "IOSTD" x (.kw s.word)).prop.name = "IOSTD" := hn
    simp only [List.filter_cons, List.filter_nil, e, show ("IOSTD" == "IOSTD") = true from by decide,
        show ("IOSTD" != "IOSTD") = false from by decide, if_true, if_false, Bool.false_eq_true, List.append_nil,
        List.foldl_cons, List.foldl_nil]
    show thresholdsAuto k (x.put (.kw s.word) v) = _
    rw [hput]
  have hcl : (thresholdsAuto k (v.modCluster k (fun c => { c with iostd := s }))).clusters[k] = { v.clusters[k] with iostd :=
      s } := by
    have : (thresholdsAuto k (v.modCluster k (fun c => { c with iostd := s }))).clusters = (v.modCluster k (fun c =>
        { c with iostd := s })).clusters := foldS_same (ps := [.ports]) (fun _ _ => modPort_same) _ _ .clusters (by decide)
    rw [this]; exact upd_same _ _ _
  have haddr : addressTest v (.cl k) true = .ok () := by
    unfold addressTest State.clusterTest
    dsimp only
    cases hs : v.clusters[k].state <;> first | rfl | exact absurd hs h1 | exact absurd hs h2
  have hconf : conflictOf v (trialState [wr (.cl k) "IOSTD" x (.kw s.word)] v) (wr (.cl k) "IOSTD" x (.kw s.word)) = none := by
    rw [htrial]
    show clusterConflict v _ k x.name = none
    rw [hn]
    unfold clusterConflict
    rw [if_pos (by decide)]
    have a : anyOutput k v = false := by
      unfold anyOutput
      rw [List.any_eq_false]
      intro p hp
      have : ∀ k p, p ∈ portsOf k → clusterOf p = k := by decide +kernel
      rw [h3 p (this k p hp)]; decide
    have b : bankFits { v.clusters[k] with iostd := s } = true := by
      unfold bankFits; rcases h4 with h | h
      · simp only [h]; rfl
      · simp only [h, Bool.or_true]
    rw [hcl, a, b]; rfl
  have hone : OneOk v (.cl k) "IOSTD" x (.kw s.word) := ⟨hx, by cases hx; rfl, rfl, haddr, by cases hx; rfl, hconf⟩
  rw [set_line f hv.symm hone hr hw, htrial, apply_one hn, noStats (fun _ e => by cases e), hn]
  have e1 : applyWrite (wr (.cl k) "IOSTD" x (.kw s.word)) v = thresholdsAuto k (v.modCluster k (fun c => { c with iostd :=
      s })) := by
    unfold applyWrite; dsimp only [wr]; rw [hn, hput]; rfl
  have e2 : ([wr (.cl k) "IOSTD" x (.kw s.word)]).filterMap modeWrite = [] := by
    have : modeWrite (wr (.cl k) "IOSTD" x (.kw s.word)) = none := by
      unfold modeWrite
      show (if (x.name != "MODE") = true then none else none) = none
      split <;> rfl
    simp [this]
  have e3 : x.get (thresholdsAuto k (v.modCluster k (fun c => { c with iostd := s }))) = Value.kw s.word := by
    cases hx
    show Value.one (atomOf _ ((thresholdsAuto k (v.modCluster k (fun c => { c with iostd := s }))).clusters[k].iostd)) = _
    rw [hcl]; cases s <;> rfl
  have e4 : (if ("IOSTD" == "ACTIVE") = true then Value.kw s.word else x.get (thresholdsAuto k (v.modCluster k (fun c =>
      { c with iostd := s })))) = Value.kw s.word := by rw [e3]; rfl
  have e5 : ∀ w, objectWritten v (.cl k) ["IOSTD"] w = foldS (portsOf k) (settleFrom v) w := fun _ => rfl
  rw [e1, e2, e4, e5]
  rfl
theorem modAxis_at (s : State) (k f) : (s.modAxis k f).axes[k] = f s.axes[k] := upd_same _ _ _
theorem modMf_at (s : State) (k f) : (s.modMf k f).mfs[k] = f s.mfs[k] := upd_same _ _ _
theorem modTask_at (s : State) (k f) : (s.modTask k f).tasks[k] = f s.tasks[k] := upd_same _ _ _
theorem tk_written {v w : State} {t : Fin 320} {names} : objectWritten v (.tk t) names w =
   (if v.tasks[t].confOnly && !(if names.any ["SUBS",
       "CLASS"].contains then routesChanged t v.tasks[t] w else w).tasks[t].confOnly then confOff t (if names.any ["SUBS",
       "CLASS"].contains then routesChanged t v.tasks[t] w else w) else (if names.any ["SUBS",
       "CLASS"].contains then routesChanged t v.tasks[t] w else w)) := rfl
theorem routes_at {t old} {w : State} : (routesChanged t old w).tasks[t] = { w.tasks[t] with drops := Vector.replicate 4 0 } :=
    by
  unfold routesChanged
  rw [modTask_at]
  rfl
theorem tk_routes {v : State} {t : Fin 320} {n} (g : Task → Task) (hn : ["SUBS", "CLASS"].contains n = true) (hg : (g v.tasks[t]).confOnly = v.tasks[t].confOnly) : objectWritten v (.tk t) [n] (v.modTask t g) = routesChanged t v.tasks[t] (v.modTask t g) := by
  rw [tk_written]
  have h : [n].any ["SUBS", "CLASS"].contains = true := by rw [List.any_cons, hn]; rfl
  rw [if_pos h]
  have : (routesChanged t v.tasks[t] (v.modTask t g)).tasks[t].confOnly = v.tasks[t].confOnly := by rw [routes_at, modTask_at]; exact hg
  rw [this, if_neg (by simp)]
theorem set_routes {u v : State} {r rest text val} {t : Fin 320} {name} {x : PropSpec} {g : Task → Task} {txt : String} {want :
    Cmd → Bool} (hv : u.took rest = v)
   (f : Front u r rest (.set [⟨⟨.ok (.tk t), name⟩, text⟩])) (hr : readField x.ty text.text.toList = .ok (.val val)) (hw :
       want (.set [⟨⟨.ok (.tk t), name⟩, text⟩]) = true)
   (hx : propOf (.tk t) name = some x) (hn : x.name = name) (ro : x.readOnly = false) (tm : x.timed = false)
   (hnm : name ≠ "IOSTD" ∧ name ≠ "ACTIVE" ∧ name ≠ "MODE" ∧ name ≠ "BAUD" ∧ name ≠ "STATS") (hc : ["SUBS",
       "CLASS"].contains name = true)
   (hput : x.put val v = v.modTask t g) (hg : (g v.tasks[t]).confOnly = v.tasks[t].confOnly) (hget :
       fmtValue v.tb.timeFmt (x.get (v.modTask t g)) = txt)
   (h1 : (v.modTask t g).routes ≤ 1024) (h2 : (v.modTask t g).uRoutes ≤ 64) :
       setLine false want u = r.oked (setText (.tk t) name txt) (routesChanged t v.tasks[t] (v.modTask t g)) := by
  refine (row2 f hv hr hw hx hn ro (by rw [tm]; rfl) rfl rfl hnm hput (txt := txt) hget ?_ rfl).trans ?_
  · show taskConflict _ x.name = none
    rw [hn]
    unfold taskConflict
    rw [show (decide (1024 < (v.modTask t g).routes) || decide (64 < (v.modTask t g).uRoutes)) = false from by simp; omega]
    split <;> rfl
  · have e1 : applyWrite (wr (.tk t) name x val) v = v.modTask t g := by rw [← hput]; rfl
    rw [e1, tk_routes g hc hg]
theorem autoChecks_role {s : State} {y : Fin 4} : (autoChecks s).tb.refs[y] = s.tb.refs[y] := by
  have : (autoChecks s).tb.refs = s.tb.refs := by
    unfold autoChecks
    split
    · dsimp only
      split
      · exact beginSwitch_refs
      · rfl
    · rfl
  rw [this]
theorem requalify_role {s : State} {y : Fin 4} : (requalify y s).tb.refs[y].role = s.tb.refs[y].role := by
  unfold requalify
  extract_lets r q s1
  have h : s1.tb.refs[y].role = s.tb.refs[y].role := (congrArg Ref.role (upd_same s.tb.refs y (fun r => { r with qual := q, goodFor := 0 }))).trans rfl
  have hh : ∀ e n, (happen e n s1).tb = s1.tb := by intro e n; unfold happen; split <;> rfl
  split
  · rfl
  · clear_value q s1
    cases q <;> dsimp only <;> first | (rw [hh]; exact h) | exact h
theorem inputChanged_role {s : State} {y : Fin 4} : (inputChanged y s).tb.refs[y].role = s.tb.refs[y].role := by
  unfold inputChanged
  rw [autoChecks_role, requalify_role]
  exact (congrArg Ref.role (upd_same s.tb.refs y (fun r => { r.restartQual with results := [] }))).trans rfl
theorem actVal : ∀ y : Fin 4, valueOf (orNone refAtoms) (Atom.obj (.refx y)) = some (some y) := by decide
theorem ruleN (i : Fin 16) : propOf .bel ("RULE" ++ dec i.val ++ ".N") = some ((ruleLens i).nat ("RULE" ++ dec i.val ++ "." ++
    "N") 1 65535 Rule.n (fun v r => { r with n := v })) := by
  match i with
  | 0 => rfl | 1 => rfl | 2 => rfl | 3 => rfl | 4 => rfl | 5 => rfl | 6 => rfl | 7 => rfl
  | 8 => rfl | 9 => rfl | 10 => rfl | 11 => rfl | 12 => rfl | 13 => rfl | 14 => rfl | 15 => rfl
  | ⟨k + 16, h⟩ => omega
theorem ruleNo (i : Fin 16) : ruleOf ("RULE" ++ dec i.val ++ ".N") = some i ∧ ("RULE" ++ dec i.val ++ "." ++ "N") = ("RULE" ++
    dec i.val ++ ".N") ∧ ("RULE" ++ dec i.val ++ ".N") ≠ "ALERT" ∧ ("RULE" ++ dec i.val ++ ".N") ≠ "AXIS" ∧ ("RULE" ++
    dec i.val ++ ".N") ≠ "AXISWAKE" ∧
   (("RULE" ++ dec i.val ++ ".N") ≠ "IOSTD" ∧ ("RULE" ++ dec i.val ++ ".N") ≠ "ACTIVE" ∧ ("RULE" ++ dec i.val ++
       ".N") ≠ "MODE" ∧ ("RULE" ++ dec i.val ++ ".N") ≠ "BAUD" ∧ ("RULE" ++ dec i.val ++ ".N") ≠ "STATS") := by
  revert i; decide +kernel
theorem conf_ref {v t : State} {n x val} : conflictOf v t (wr .ref n x val) = refConflict v t x.name val := rfl
theorem rl_active {s : State} {d : Nat} {r : Req} {rest : List Req} {text : RawVal} {u v : State} (hu : s.elapse d = u) (hv : u.took rest = v) {y : Fin 4} (h : SetsOne u r rest .ref "ACTIVE" text (.obj (.refx y))) (h1 : v.tb.auto = false) (h2 : v.tb.refs[y].present = true) (h3 : v.tb.refs[y].role = .candidate) : exec (.setRefActive d false) s = .next (r.oked (setText .ref "ACTIVE" (objName (.refx y))) (selectionChanged (selectActive y v))) := by
  obtain ⟨f, x, hx, hr⟩ := h
  have hn : x.name = "ACTIVE" := by cases hx; rfl
  simp only [exec, execSetRefActive, hu, setKind]
  have htrial := trial_one (o := .ref) (v := v) (val := .obj (.refx y)) hn (by decide)
  have hput : x.put (.obj (.refx y)) v = v := by
    cases hx
    unfold Lens.choice Lens.prop
    dsimp only
    rw [actVal y]
    rfl
  have hconf : conflictOf v (x.put (.obj (.refx y)) v) (wr .ref "ACTIVE" x (.obj (.refx y))) = none := by
    rw [hput]
    rw [conf_ref, hn]
    show firstCode [(v.tb.auto, 406), (!(v.tb.refs[y].present && decide (v.tb.refs[y].role = .candidate)), 304)] = none
    rw [h1, h2, h3]; rfl
  have hone : OneOk v .ref "ACTIVE" x (.obj (.refx y)) := ⟨hx, by cases hx; rfl, rfl, rfl, by cases hx; rfl, by rw [htrial]; exact hconf⟩
  rw [set_line f hv.symm hone hr (by rfl), htrial, apply_one hn, hput, noStats (fun _ e => by cases e), hn]
  have e1 : applyWrite (wr .ref "ACTIVE" x (.obj (.refx y))) v = selectActive y v := by
    unfold applyWrite; dsimp only [wr]; rw [hn]; rfl
  have e4 : ([wr .ref "ACTIVE" x (.obj (.refx y))]).filterMap modeWrite = [] := by
    have : modeWrite (wr .ref "ACTIVE" x (.obj (.refx y))) = none := by
      unfold modeWrite
      show (if (x.name != "MODE") = true then none else none) = none
      split <;> rfl
    simp [this]
  have e5 : objectWritten v .ref ["ACTIVE"] (selectActive y v) = selectionChanged (selectActive y v) := rfl
  have e6 : (if ("ACTIVE" == "ACTIVE") = true then Value.obj (.refx y) else x.get v) = Value.obj (.refx y) := if_pos (by decide)
  rw [e1, e4, e5, e6]
  have e7 : (if (decide (Obj.ref = .con) && "ACTIVE" == "BAUD") = true then some EndAction.hunt else none) = none := if_neg (by decide)
  rw [e7]
  unfold Req.oked Req.says setText assignText
  have e8 : fmtValue v.tb.timeFmt (Value.obj (.refx y)) = objName (.refx y) := rfl
  rw [e8]
  have e9 : ∀ (y : Done) (a b : State), answer r (.ok y) a = answer r (.ok y) b := fun _ _ _ => rfl
  rw [e9 _ v (selectionChanged (selectActive y v))]
theorem rl_freq {s : State} {d : Nat} {r : Req} {rest : List Req} {text : RawVal} {u v : State} (hu : s.elapse d = u) (hv : u.took rest = v) {y : Fin 4} {n : Nat} (h : SetsOne u r rest (.refx y) "FREQ" text (.int n)) (h1 : v.tb.active ≠ some y ∨ n = v.tb.refs[y].freq) : exec (.setRefInput d false) s = .next (r.oked (setText (.refx y) "FREQ" (dec n)) (selectionChanged (if n = v.tb.refs[y].freq then { v with tb := { v.tb with refs := v.tb.refs.set y { v.tb.refs[y] with freq := n } } } else inputChanged y { v with tb := { v.tb with refs := v.tb.refs.set y { v.tb.refs[y] with freq := n } } }))) := by
  obtain ⟨f, x, hx, hr⟩ := h
  have hn : x.name = "FREQ" := by cases hx; rfl
  simp only [exec, execSetRefInput, hu, setKind]
  have hput : x.put (.int n) v = v.modTb (fun t => { t with refs := upd t.refs y (fun r => { r with freq := n }) }) :=
      by cases hx; rfl
  have hat : (v.modTb (fun t => { t with refs := upd t.refs y (fun r => { r with freq :=
      n }) })).tb.refs[y] = { v.tb.refs[y] with freq := n } := upd_same _ _ _
  have hro : x.readOnly = false := by cases hx; rfl
  have htm : (x.timed && v.ring) = false := by cases hx; rfl
  have hget : fmtValue v.tb.timeFmt (x.get (v.modTb (fun t => { t with refs := upd t.refs y (fun r => { r with freq :=
      n }) }))) = dec n := by
    have : x.get (v.modTb (fun t => { t with refs := upd t.refs y (fun r => { r with freq := n }) })) = Value.int n := by
      cases hx
      show Value.int (((v.modTb (fun t => { t with refs := upd t.refs y (fun r => { r with freq := n }) })).tb.refs[y].freq :
          Nat) : Int) = _
      rw [hat]
    rw [this, fmt_nat]

  have hconf : conflictOf v (v.modTb (fun t => { t with refs := upd t.refs y (fun r => { r with freq := n }) }))
      (wr (.refx y) "FREQ" x (.int n)) = none := by
    show refxConflict v _ y x.name = none
    rw [hn]
    unfold refxConflict
    dsimp only
    rw [hat, if_pos (by decide)]
    have : (decide (v.tb.active = some y) && decide (v.tb.refs[y].freq ≠ n)) = false := by
      rcases h1 with h1 | h1 <;> simp [h1]
    dsimp only
    rw [this]; rfl

  have e1 : applyWrite (wr (.refx y) "FREQ" x (.int n)) v = v.modTb (fun t => { t with refs := upd t.refs y (fun r =>
      { r with freq := n }) }) := by rw [← hput]; rfl
  have he : objectWritten v (.refx y)
      ["FREQ"] (applyWrite (wr (.refx y) "FREQ" x (.int n)) v) = (selectionChanged (if n = v.tb.refs[y].freq then { v with tb := { v.tb with refs := v.tb.refs.set y { v.tb.refs[y] with freq := n } } } else inputChanged y { v with tb := { v.tb with refs := v.tb.refs.set y { v.tb.refs[y] with freq := n } } })) := by
    rw [e1]
    have e2 : ∀ w, objectWritten v (.refx y)
        ["FREQ"] w = selectionChanged (if v.tb.refs[y].role ≠ (if v.tb.refs[y].freq ≠ w.tb.refs[y].freq || v.tb.refs[y].input ≠ w.tb.refs[y].input then inputChanged y w else w).tb.refs[y].role then roleChanged y (if v.tb.refs[y].freq ≠ w.tb.refs[y].freq || v.tb.refs[y].input ≠ w.tb.refs[y].input then inputChanged y w else w) else (if v.tb.refs[y].freq ≠ w.tb.refs[y].freq || v.tb.refs[y].input ≠ w.tb.refs[y].input then inputChanged y w else w)) := fun _ => rfl
    rw [e2, hat]
    have e3 : (decide (v.tb.refs[y].freq ≠ n) || decide (v.tb.refs[y].input ≠ v.tb.refs[y].input)) = decide (v.tb.refs[y].freq ≠ n) := by simp
    dsimp only
    rw [e3]
    by_cases hq : v.tb.refs[y].freq = n
    · simp only [hq, ne_eq, not_true, decide_false, Bool.false_eq_true, if_false, if_true]
      rw [hat, if_neg (by simp)]
      rfl
    · have hq' : ¬ n = v.tb.refs[y].freq := fun e => hq e.symm
      simp only [hq, hq', ne_eq, not_false_eq_true, decide_true, if_true, if_false]
      rw [inputChanged_role, hat, if_neg (by simp)]
      rfl

  have key := row2 f hv hr (want := fun c => setHas (fun o n => match o with | .refx _ => ["FREQ", "INPUT"].contains n | _ => false) c && !setHas keyKind c) (set_kind rfl rfl) hx hn hro htm rfl rfl (by decide) hput hget hconf he
  exact congrArg Host.Outcome.next key
theorem rl_bw {s : State} {d : Nat} {r : Req} {rest : List Req} {text : RawVal} {u v : State} (hu : s.elapse d = u) (hv : u.took rest = v) {b : RefBw} (h : SetsOne u r rest .ref "BW" text (.kw b.word)) : exec (.setRefBw d false) s = .next (r.oked (setText .ref "BW" b.word) (selectionChanged { v with tb := { v.tb with bw := b } })) := by
  obtain ⟨f, x, hx, hr⟩ := h
  simp only [exec, execSetRefBw, hu, setKind]
  have hput : x.put (.kw b.word) v = v.modTb (fun t => { t with bw := b }) := by cases hx; cases b <;> rfl
  refine congrArg Host.Outcome.next ((row2 f hv hr (by rfl) hx (by cases hx; rfl) (by cases hx; rfl) (by cases hx; rfl) rfl rfl (by decide) hput (txt := b.word) ?_ ?_ rfl).trans ?_)
  · cases hx; cases b <;> rfl
  · have hn : x.name = "BW" := by cases hx; rfl
    rw [conf_ref, hn]; rfl
  · have e1 : applyWrite (wr .ref "BW" x (.kw b.word)) v = v.modTb (fun t => { t with bw := b }) := by
      rw [← hput]; unfold applyWrite; dsimp only [wr]
      have hn : x.name = "BW" := by cases hx; rfl
      rw [hn]; rfl
    rw [e1]; rfl
theorem rl_period {s : State} {d : Nat} {r : Req} {rest : List Req} {text : RawVal} {u v : State} (hu : s.elapse d = u) (hv : u.took rest = v) {n : Nat} (h : SetsOne u r rest .cal "PERIOD" text (.time n)) (h1 : v.tb.clkSrc = .pll) : ∃ w, exec (.setCalPeriod d false) s = .next (r.oked (setText .cal "PERIOD" (fmtTime v.tb.timeFmt n)) w) ∧ w.cal = { v.cal with period := n } ∧ (∀ p : Fin 64, w.ports[p] = { v.ports[p] with due := if tlater v.ports[p].due (tadd v.cycle n) then tadd v.cycle n else v.ports[p].due }) ∧ SameBut [.cal, .ports] v w := by
  obtain ⟨f, x, hx, hr⟩ := h
  have hn : x.name = "PERIOD" := by cases hx; rfl
  simp only [exec, execSetCalPeriod, hu, setKind]
  have hput : x.put (.time n) v = v.modCal (fun c => { c with period := n }) := by cases hx; rfl
  have key := row2 f hv hr (want := fun c => setHas (fun o n => match o with | .cal => n == "PERIOD" | _ => false) c && !setHas keyKind c) (by rfl) hx hn (by cases hx; rfl) (ringless h1 _) rfl rfl (by decide) hput (txt := fmtTime v.tb.timeFmt n) (t' := setPeriod n v) (by cases hx; rfl) (by rfl) (by
    have e1 : applyWrite (wr .cal "PERIOD" x (.time n)) v = setPeriod n v := by unfold applyWrite; dsimp only [wr]; rw [hn]; rfl
    rw [e1]; rfl)
  refine ⟨_, congrArg Host.Outcome.next key, rfl, ?_, by (intro p hp; cases p <;> first | rfl | (exfalso; revert hp; decide))⟩
  intro p
  show (updAll v.ports _)[p] = _
  rw [updAll_get]
  show (if tlater v.ports[p].due (tadd v.cycle n) = true then _ else _) = _
  split
  · rfl
  · rfl
theorem rl_hold {s : State} {d : Nat} {r : Req} {rest : List Req} {text : RawVal} {u v : State} (hu : s.elapse d = u) (hv : u.took rest = v) {on : Bool} (h : SetsOne u r rest .cal "HOLD" text (.kw (switchWord on))) : ∃ w, exec (.setCalHold d false) s = .next (r.oked (setText .cal "HOLD" (switchWord on)) w) ∧ w.cal = { v.cal with hold := on } ∧ (∀ p : Fin 64, w.ports[p] = if v.cal.hold = true ∧ on = false ∧ tlater v.cycle v.ports[p].due = true then { v.ports[p] with due := v.cycle } else v.ports[p]) ∧ SameBut [.cal, .ports] v w := by
  obtain ⟨f, x, hx, hr⟩ := h
  have hn : x.name = "HOLD" := by cases hx; rfl
  simp only [exec, execSetCalHold, hu, setKind]
  have hput : x.put (.kw (switchWord on)) v = v.modCal (fun c => { c with hold := on }) := by cases hx; cases on <;> rfl
  have key := row2 f hv hr (want := fun c => setHas (fun o n => match o with | .cal => n == "HOLD" | _ => false) c && !setHas keyKind c) (by rfl) hx hn (by cases hx; rfl) (by cases hx; rfl) rfl rfl (by decide) hput (txt := switchWord on) (t' := setHold on v) (by cases hx; cases on <;> rfl) (by rfl) (by
    have e1 : applyWrite (wr .cal "HOLD" x (.kw (switchWord on))) v = setHold on v := by unfold applyWrite; dsimp only [wr]; rw [hn]; cases on <;> rfl
    rw [e1]; rfl)
  have hab := here_absent f
  rw [hv] at hab
  refine ⟨_, congrArg Host.Outcome.next key, ?_⟩
  unfold setHold
  by_cases hh : v.cal.hold = on
  · rw [if_pos hh]
    refine ⟨by rw [← hh], ?_, .refl _ _⟩
    intro p
    rw [if_neg]; rw [hh]; cases on <;> simp
  · rw [if_neg hh]
    dsimp only
    have : (v.modCal (fun c => { c with hold := on })).steward.absent = false := hab
    rw [this]
    cases on
    · have hh' : v.cal.hold = true := by cases hq : v.cal.hold <;> simp_all
      refine ⟨rfl, ?_, by (intro p hp; cases p <;> first | rfl | (exfalso; revert hp; decide))⟩
      intro p
      show (updAll v.ports _)[p] = _
      rw [updAll_get]
      show (if tlater v.cycle v.ports[p].due = true then _ else _) = _
      split
      · rename_i h; rw [if_pos ⟨hh', rfl, h⟩]; rfl
      · rename_i h; exact (if_neg (fun hc => h hc.2.2)).symm
    · refine ⟨rfl, ?_, by (intro p hp; cases p <;> first | rfl | (exfalso; revert hp; decide))⟩
      intro p
      exact (if_neg (fun hc => by cases hc.2.1)).symm
theorem rl_alert {s : State} {d : Nat} {r : Req} {rest : List Req} {text : RawVal} {u v : State} (hu : s.elapse d = u) (hv :
    u.took rest = v) (h : SetsOne u r rest .bel "ALERT" text (.kw "CLEAR")) :
    exec (.setBelAlertClear d false) s = .next (r.oked (setText .bel "ALERT" "CLEARED") { v with bel := { v.bel with alert :=
    false } }) := by
  obtain ⟨f, x, hx, hr⟩ := h
  have hn : x.name = "ALERT" := by cases hx; rfl
  simp only [exec, execSetBelAlertClear, hu, setKind]
  have hput : x.put (.kw "CLEAR") v = clearAlert v := by cases hx; rfl
  refine congrArg Host.Outcome.next ((row2 f hv hr (by rfl) hx hn (by cases hx; rfl) (by cases hx; rfl) rfl rfl (by decide) hput (txt := "CLEARED") (by cases hx; rfl) ?_ rfl).trans ?_)
  · show belConflict _ x.name = none
    rw [hn]; rfl
  · have e1 : applyWrite (wr .bel "ALERT" x (.kw "CLEAR")) v = clearAlert v := by rw [← hput]; rfl
    rw [e1]; rfl
theorem rl_rule {s : State} {d : Nat} {r : Req} {rest : List Req} {text : RawVal} {u v : State} (hu : s.elapse d = u) (hv :
    u.took rest = v) {i : Fin 16} {n : Nat} (h : SetsOne u r rest .bel ("RULE" ++ dec i.val ++ ".N") text (.int n)) (h1 :
    ruleUnsound v.bel.rules[i] = false) : exec (.setBelRule d false) s = .next (r.oked (setText .bel ("RULE" ++ dec i.val ++
    ".N") (dec n)) { v with bel := { v.bel with rules := v.bel.rules.set i { v.bel.rules[i] with n := n, fs :=
    FilterState.fresh } } }) := by
  obtain ⟨f, x, hx, hr⟩ := h
  simp only [exec, execSetBelRule, hu, setKind]
  obtain ⟨k0, k1, k2, k3, k4, k5⟩ := ruleNo i
  have hxe := ruleN i
  generalize hnm : "RULE" ++ dec i.val ++ ".N" = name at *
  rw [k1] at hxe
  have hput : x.put (.int n) v = v.modBel (fun b => { b with rules := upd b.rules i (fun r => { r with n := n }) }) := by
    rw [hxe] at hx; cases hx; rfl
  have hn : x.name = name := by rw [hxe] at hx; cases hx; rfl
  have hat : (v.modBel (fun b => { b with rules := upd b.rules i (fun r => { r with n :=
      n }) })).bel.rules[i] = { v.bel.rules[i] with n := n } := upd_same _ _ _
  refine congrArg Host.Outcome.next ((row2 f hv hr ?_ hx hn (by rw [hxe] at hx; cases hx; rfl) (by rw [hxe] at hx; cases hx; rfl) rfl rfl k5 hput (txt := dec n) ?_ ?_ rfl).trans ?_)
  · apply set_kind rfl
    show (ruleOf name).isSome = true
    rw [k0]; rfl
  · have : x.get (v.modBel (fun b => { b with rules := upd b.rules i (fun r => { r with n := n }) })) = Value.int n := by
      rw [hxe] at hx; cases hx
      show Value.int (((v.modBel (fun b => { b with rules := upd b.rules i (fun r => { r with n := n }) })).bel.rules[i].n :
          Nat) : Int) = _
      rw [hat]
    rw [this, fmt_nat]
  · show belConflict _ x.name = none
    rw [hn]
    unfold belConflict
    have a1 : (name == "AXIS" || name == "AXISWAKE") = false := by simp [k3, k4]
    rw [if_neg (by rw [a1]; decide), k0]
    dsimp only
    rw [hat]
    have : ruleUnsound { v.bel.rules[i] with n := n } = false := h1
    rw [this]; rfl
  · have e1 : applyWrite (wr .bel name x (.int n)) v = v.modBel (fun b => { b with rules := upd b.rules i (fun r =>
      { r with n := n }) }) := by rw [← hput]; rfl
    rw [e1]
    have e2 : ([name].filterMap ruleOf).eraseDups = [i] := by simp [k0]; rfl
    have e3 : objectWritten v .bel [name] (v.modBel (fun b => { b with rules := upd b.rules i (fun r => { r with n := n }) })) = foldS [i] (fun n s => s.modBel (fun b => { b with rules := upd b.rules n Rule.restart })) (v.modBel (fun b => { b with rules := upd b.rules i (fun r => { r with n := n }) })) := by
      rw [← e2]; rfl
    rw [e3]
    unfold foldS State.modBel upd
    simp
    rfl
theorem linkDown_same {s} : SameBut raiseParts s (linkDown s) := by
  unfold linkDown
  extract_lets was s0 s1
  have h0 : SameBut [.sp] s s0 := by intro p hp; cases p <;> first | rfl | (exfalso; revert hp; decide)
  have h1 : SameBut raiseParts s s1 := (h0.mono (by decide)).trans
    (fun p hp => by cases p <;> first | rfl | (exfalso; revert hp; decide))
  clear_value s1
  split
  · exact (SameBut.trans (t := s1.modSp (fun p => { p with linkDowns := p.linkDowns + 1 })) (h1.trans (by (intro p hp; cases p <;> first | rfl | (exfalso; revert hp; decide)))) raise_same)
  · exact h1
theorem conf_sys {v t : State} {n x val} : conflictOf v t (wr .sys n x val) = sysConflict v t x.name val := rfl
theorem setRole_spec {x : SyncRole} {v : State} : (setRole x v).sync.role = x ∧
   (v.sync.role ≠ x → (setRole x v).sync.state = (match x with | .none => .off | .leader => .lead | .follower => .hunt)) ∧ SameBut [.sync, .clusters] v (setRole x v) := by
  unfold setRole
  extract_lets y fresh g z0 z
  by_cases h : y.role = x
  · rw [if_pos h]; exact ⟨h, fun k => absurd h k, .refl _ _⟩
  · rw [if_neg h]
    have e : (startAligns (v.modSync fun _ => z)).sync = z := startAligns_same .sync (by decide)
    rw [e]
    refine ⟨?_, fun _ => ?_, SameBut.trans (t := v.modSync fun _ => z) (by (intro p hp; cases p <;> first | rfl | (exfalso; revert hp; decide))) (startAligns_same.mono (by decide))⟩
    · cases x
      · rfl
      · show (if _ then _ else _ : Sync).role = _; split <;> rfl
      · rfl
    · cases x
      · rfl
      · show (if _ then _ else _ : Sync).state = _; split <;> rfl
      · rfl
theorem linkDown_sp {s} : (linkDown s).sp.enable = s.sp.enable ∧ (linkDown s).sp.link = (if s.sp.enable then .train else .down)
    := by
  unfold linkDown
  extract_lets was s0 s1
  have h : s1.sp.enable = s.sp.enable ∧ s1.sp.link = (if s.sp.enable then .train else .down) := ⟨rfl, rfl⟩
  clear_value s1
  split
  · have k := raiseAt_sv (src := evLinkDown) (cyc := (s1.modSp (fun p => { p with linkDowns := p.linkDowns + 1 })).cycle) (n :=
      1) (fl := Flags.none) (s := s1.modSp (fun p => { p with linkDowns := p.linkDowns + 1 }))
    exact ⟨k.enable.trans h.1, k.link.trans h.2⟩
  · exact h
theorem key_refused {u v : State} {r rest text c} (hv : u.took rest = v) (h :
    SetsOne u r rest .sys "KEYPROG" text (.kw "PROGRAM")) (hc0 : v.boot.keyTest = some c) (ok : Bool) :
   steward false (setHas keyKind) (fun c s => match c with | .set as => setSyn as s | _ => none)
    (fun r c s => match c with | .set as => keyVerb ok r.received as s | _ => reject 511 "") u = r.ered c (objName .sys ++
        "." ++ "KEYPROG") v := by
  obtain ⟨f, x, hx, hr⟩ := h
  have hn : x.name = "KEYPROG" := by cases hx; rfl
  have hput : x.put (.kw "PROGRAM") v = v := by cases hx; rfl
  have hw : setHas keyKind (Cmd.set [⟨⟨.ok .sys, "KEYPROG"⟩, text⟩]) = true := rfl
  have hb : setVerb r.received [⟨⟨.ok .sys, "KEYPROG"⟩, text⟩] v = .error (c, objName .sys ++ "." ++ "KEYPROG") := by
    have h1' : readWrite v ⟨⟨.ok .sys, "KEYPROG"⟩, text⟩ = .ok (.value (wr .sys "KEYPROG" x (.kw "PROGRAM"))) := by
      have a1 : x.readOnly = false := by cases hx; rfl
      have a2 : x.timed = false := by cases hx; rfl
      simp [readWrite, pathTest, theObj, hx, segTest, addressTest, a1, a2, hr, bind, Except.bind, pure, Except.pure]
      rfl
    have hc : conflictOf v v (wr .sys "KEYPROG" x (.kw "PROGRAM")) = some c := by
      rw [conf_sys, hn]
      exact hc0
    have ht : trialState [wr .sys "KEYPROG" x (.kw "PROGRAM")] v = v := by rw [trial_one hn (by decide), hput]
    have : readWrites v r.received [⟨⟨.ok .sys, "KEYPROG"⟩, text⟩] = .error (c, objName .sys ++ "." ++ "KEYPROG") := by
      unfold readWrites
      simp only [List.map_cons, List.map_nil, h1', resolvePre, goodOf, List.filterMap_cons, List.filterMap_nil, List.mapM_cons,
          List.mapM_nil, ht, hc, bind, Except.bind, pure, Except.pure]
      rfl
    unfold setVerb
    rw [this]; rfl
  rw [Front.run f _ _ _ _ hw, hv]
  simp only [setSyn_one hx hr, keyVerb, hb, bind, Except.bind]
  rfl

end Sys2Proof.Machine
end

