-- ==== Sys2Proof/Laws/Ports.lean ====
section
/-! SUPPORT. What pulses, triggers, conversions and calibration windows do to a port. -/
namespace Sys2Proof.Machine
open Sys2Proof

theorem port_other (s : State) (p b : Fin 64) (f) (h : b ≠ p) : (s.modPort p f).ports[b] = s.ports[b] :=
    upd_other _ _ _ _ (Ne.symm h)
theorem port_twice (s : State) (p : Fin 64) (f g) : (s.modPort p f).modPort p g = s.modPort p (fun x => g (f x)) := by
  simp only [State.modPort]
  congr 1
  unfold upd; simp
theorem trail_eq {p y} {u : State} (h : u.ports[p].cfg.mode = .pulse) : leaveTrailing p y u = { u with ports := u.ports.set p { u.ports[p] with queue := u.ports[p].queue.erase y, outHigh := false, lastTrail := some y.trail } } := by
  unfold leaveTrailing State.modPort upd echoPush
  dsimp only
  rw [if_neg (by rw [h]; simp)]
theorem commit_free {s : State} {p c x l} (h1 : x.lead = some l) (h2 : x.axisFrame = none) : commitPulse s p c x = if x.committed = false ∧ tdiff l c < 160000 then { x with committed := true, dtc := s.ports[p].dtcAt l, dtcTrail := s.ports[p].dtcAt x.trail } else x := by
  unfold commitPulse
  simp only [h1, h2, committedIn, commitTu]
  by_cases a : x.committed = false
  · by_cases b : tdiff l c < 160000
    · rw [if_neg (by simp [a, b]), if_pos ⟨a, b⟩]
    · rw [if_pos (by simp [a, b]), if_neg (fun k => b k.2)]
  · rw [if_pos (by simp at a; simp [a]), if_neg (fun k => a k.1)]
theorem no_intrude {u : State} {p l t} (h : u.windowOf p = none) : u.intrudes p l t = none := by
  unfold State.intrudes; rw [h]
theorem commitJoin_yes {k : Fin 8} {u : State} {a n o j} (h : u.clusters[k].fix = some (.axis a n o j true false)) (c : u.isCommitted j = true) : ∃ pr, commitJoin k u = u.modCluster k (fun c => { c with fix := some (.axis a n o j true true), joinProv := pr }) := by
  refine ⟨if u.undecided a n && u.axes[a].cfg.runAhead then [⟨a, n, u.axes[a].gen⟩] else [], ?_⟩
  unfold commitJoin; rw [h]; dsimp only; rw [if_pos c]
theorem commitJoin_no {k : Fin 8} {u : State} {a n o j} (h : u.clusters[k].fix = some (.axis a n o j true false)) (c :
    u.isCommitted j = false) : commitJoin k u = u := by
  unfold commitJoin; rw [h]; dsimp only; rw [if_neg (by simp [c])]
theorem commitAlign_yes {g : Fin 8} {u : State} {a n o j} (h : u.groups[g].waiting = some (.align a o (some n) (some j) false)) (c : u.isCommitted j = true) : ∃ pr, commitAlign g u = u.modGroup g (fun x => { x with waiting := some (.align a o (some n) (some j) true), provNext := pr }) := by
  refine ⟨if u.undecided a n && u.axes[a].cfg.runAhead then [⟨a, n, u.axes[a].gen⟩] else [], ?_⟩
  unfold commitAlign; rw [h]; dsimp only; rw [if_pos c]
theorem commitAlign_no {g : Fin 8} {u : State} {a n o j} (h : u.groups[g].waiting = some (.align a o (some n) (some j) false))
    (c : u.isCommitted j = false) : commitAlign g u = u := by
  unfold commitAlign; rw [h]; dsimp only; rw [if_neg (by simp [c])]
theorem cluster_at (s : State) (p : Fin 8) (f) : (s.modCluster p f).clusters[p] = f s.clusters[p] := upd_same _ _ _
theorem group_at (s : State) (p : Fin 8) (f) : (s.modGroup p f).groups[p] = f s.groups[p] := upd_same _ _ _
theorem mfClose_eq {m : Fin 16} {u : State} {r} (h1 : u.mfs[m].state = .opened r) : mfClose m u = mfForm m (mfAfterRun m (runEnd u.mfs[m] r) (u.modMf m (fun f => { f with early := f.early + BitVec.ofNat 48 (runEarly u.mfs[m] r), closed := f.closed ++ [runResults u u.mfs[m] r], edges := f.edges.filter (fun e => tnotBefore e.time (runEnd u.mfs[m] r)) }))) := by
  unfold mfClose
  dsimp only
  rw [h1]
  unfold State.modMf upd
  rfl
theorem spans_mod {u : State} {p : Fin 64} {f : Port → Port} (h : ∀ q, (f q).ovSpans = q.ovSpans) (n : Fin 64) :
    (u.modPort p f).ports[n].ovSpans = u.ports[n].ovSpans := by
  by_cases e : p = n
  · subst e; exact (congrArg Port.ovSpans (upd_same _ _ _)).trans (h _)
  · exact congrArg Port.ovSpans (upd_other _ _ _ _ e)
theorem ovd_mod {u : State} {p : Fin 64} {f : Port → Port} (h : ∀ q, (f q).ovSpans = q.ovSpans) {t} :
    (u.modPort p f).ovdAt p t = u.ovdAt p t := by
  unfold State.ovdAt; rw [spans_mod h]
theorem nbr_mod {u : State} {p : Fin 64} {f : Port → Port} (h : ∀ q, (f q).ovSpans = q.ovSpans) {t} :
    (u.modPort p f).nbrAt p t = u.nbrAt p t := by
  unfold State.nbrAt; dsimp only
  congr 1; funext n
  rw [spans_mod h]
theorem port_id (s : State) (p : Fin 64) (f) (h : f s.ports[p] = s.ports[p]) : s.modPort p f = s := by
  unfold State.modPort upd; rw [h]; simp
/-- R241, R244, R246, R248, R251: what an edge at a pad does, once it is one that the port converts. -/
theorem convert_eq {u : State} {p : Fin 64} {falling : Bool} {stop : TimeWord} {code : Nat} {uv : Int} {t : TableSet}
    (h1 : u.ports[p].table = some t) {r} (hr : takeEmitted (falling == u.ports[p].cfg.invert) u.ports[p].emitted = r)
    (h2 : u.converting p = true) (h3 : (u.selects p (if falling then Sense.fall else .rise) || r.1.isSome) = true)
    (h4 : u.detects p t falling uv = true) (h5 : code < 384) (h6 : tnotBefore u.tb.now stop = true)
    (h7 : stop.toNat % 4000 = u.tb.now.toNat % 4000) {pq}
    (hq : (if u.ports[p].cfg.pair && decide (0 < u.ports[p].q) then some u.ports[p].q else none) = pq) :
    convert p falling stop code uv u = (let edge := convTime t stop code falling pq; let q := u.ports[p]
      let c : Conv := ⟨stop, code, edge, (if falling then Sense.fall else .rise), pq, decide (q.cfg.mode = .echo) || r.1.isSome,
        r.1.isSome, (match r.1 with | some e => e.late | none => false), (match r.1 with | some e => e.flags | none => Flags.none)⟩
      let port (x : Port) : State := { u with ports := u.ports.set p x }
      if (match q.lastConv with | some l => decide ((tdiff edge l).natAbs < deadTu q.cfg.pair) | none => false) = true then
        miss p Flags.none (port { q with emitted := r.2 })
      else if 4 ≤ q.stage.length then miss p Flags.none (port { q with emitted := r.2, lastConv := some edge })
      else if c.echo = true then port { q with emitted := r.2, lastConv := some edge, stage := q.stage ++ [c] }
      else padEdges (.port p) c.sense edge (port { q with emitted := r.2, lastConv := some edge, stage := q.stage ++ [c] })) := by
  unfold convert
  dsimp only
  conv => lhs; rw [h1, hr]
  dsimp only
  rw [h2, h3, h4, h6, decide_eq_true h5, decide_eq_true (by exact h7)]
  rw [if_neg (by decide), hq]
  generalize convTime t stop code falling pq = w
  simp only [port_twice]
  generalize miss p Flags.none = m
  generalize padEdges (.port p) = e
  obtain ⟨r1, r2⟩ := r
  dsimp only
  cases r1 <;> rfl
/-- R244, R247, R248, R254: what the formatter does with a conversion of a STAMP port that records it ungated. -/
theorem format_eq {u : State} {p} {c : Conv} {rest t} (h0 : u.ports[p].gated = []) (h1 : u.ports[p].stage = c :: rest)
    (h2 : u.ports[p].table = some t) (hr : formatterReady u.ports[p] c u.tb.now = true) (h4 : c.echo = false)
    (h5 : c.flags = Flags.none) {c'}
    (hc : c' = { c with edge := convTime t c.stop c.code (decide (c.sense = .fall)) c.q }) :
    format p u = gateConv p c' (consume p c' false false
      { u with ports := u.ports.set p { u.ports[p] with stage := rest, taken := some u.tb.now } }) := by
  unfold format
  rw [h0]
  show formatNext p u = _
  unfold formatNext
  dsimp only
  rw [h1]
  dsimp only
  rw [hr, if_neg (by decide)]
  obtain ⟨stop, code, edge, sense, q, echo, own, late, flags⟩ := c
  dsimp only at h4 h5 hc
  subst h4 h5 hc
  conv => lhs; rw [h2]
  generalize gateConv p = g
  generalize consume p = k
  rfl
theorem format_wait {u : State} {p} {c : Conv} {rest} (h0 : u.ports[p].gated = []) (h1 : u.ports[p].stage = c :: rest)
    (hr : formatterReady u.ports[p] c u.tb.now = false) : format p u = u := by
  unfold format
  rw [h0]
  show formatNext p u = _
  unfold formatNext
  dsimp only
  rw [h1]
  dsimp only
  rw [hr]
  rfl
theorem gateConv_eq {u : State} {p} {c : Conv} (h1 : c.echo = false) (h2 : u.recorded p c = true)
    (h3 : u.ports[p].cfg.gateSrc = none) (h4 : u.ports[p].gated = []) : gateConv p c u = formConv p c u := by
  unfold gateConv
  dsimp only
  rw [h1, h2, h3, h4]
  rfl
theorem formConv_eq {u : State} {p} {c : Conv} (h1 : c.echo = false) (h2 : c.flags = Flags.none) (h3 : u.ports[p].cfg.mode ≠ .echo) :
    formConv p c u = if !u.ports[p].hasSlot then miss p Flags.none u else
      formStamp p (tadd c.edge (-u.ports[p].cfg.inOffset)) (decide (c.sense = .fall)) (u.convFlags p c false false) Flags.none u := by
  have es : u.shiftedBy [] = false := rfl
  unfold formConv
  dsimp only
  rw [h1, h2]
  have hw : withOffset u.ports[p] c.edge = tadd c.edge (-u.ports[p].cfg.inOffset) := by unfold withOffset; rw [if_neg h3]
  rw [hw]
  simp only [Flags.none, es]
  cases u.ports[p].hasSlot <;> simp
theorem eachFin4 (f : Fin 4 → State → State) (s : State) : eachFin 4 f s = f 3 (f 2 (f 1 (f 0 s))) := rfl
theorem axis_one {f : Fin 4 → State → State} {F : Fin 4 → Bool → Axis → Axis} (hf : ∀ i s,
    f i s = s.modAxis i (F i s.tbLocked)) (s : State) (a : Fin 4) : (eachFin 4 f s).axes[a] = F a s.tbLocked s.axes[a] := by
  have l : ∀ i s, (f i s).tbLocked = s.tbLocked := fun i s => by rw [hf]; rfl
  have e : ∀ i s, (f i s).axes[i] = F i s.tbLocked s.axes[i] := fun i s => by rw [hf]; exact upd_same _ _ _
  have o : ∀ i j s, i ≠ j → (f i s).axes[j] = s.axes[j] := fun i j s h => by rw [hf]; exact upd_other _ _ _ _ h
  rw [eachFin4]
  match a with
  | 0 => rw [o 3 0 _ (by decide), o 2 0 _ (by decide), o 1 0 _ (by decide), e]
  | 1 => rw [o 3 1 _ (by decide), o 2 1 _ (by decide), e, o 0 1 _ (by decide), l]
  | 2 => rw [o 3 2 _ (by decide), e, o 1 2 _ (by decide), o 0 2 _ (by decide), l, l]
  | 3 => rw [e, o 2 3 _ (by decide), o 1 3 _ (by decide), o 0 3 _ (by decide), l, l, l]
theorem axis_id (s : State) (a : Fin 4) (f) (h : f s.axes[a] = s.axes[a]) : s.modAxis a f = s := by
  unfold State.modAxis upd; rw [h]; simp
theorem axisIndex_at (src sense t ovr) (u : State) (a : Fin 4) :
    (axisIndex src sense t ovr u).axes[a] = (if decide (u.axes[a].cfg.mode ≠ .free) && decide (u.axes[a].cfg.source = src) && (decide (src = .mark) || decide (u.axes[a].cfg.edge = sense)) && !ovr && u.tbLocked && u.axes[a].spaced t then { u.axes[a] with pendIdx := u.axes[a].pendIdx ++ [t], lastUsable := some t } else u.axes[a]) := by
  unfold axisIndex
  refine axis_one (F := fun i L x =>
      if decide (x.cfg.mode ≠ .free) && decide (x.cfg.source = src) && (decide (src = .mark) || decide (x.cfg.edge = sense)) && !ovr && L && x.spaced t then { x with pendIdx := x.pendIdx ++ [t], lastUsable := some t } else x) (fun i s => ?_) u a
  show (if (decide (s.axes[i].cfg.mode ≠ .free) && decide (s.axes[i].cfg.source = src) && (decide (src = .mark) || decide (s.axes[i].cfg.edge = sense)) && !ovr && s.tbLocked && s.axes[i].spaced t) = true then _ else _) = _
  split
  · next h => unfold State.modAxis upd; dsimp only; rw [if_pos (by exact h)]
  · next h => exact (axis_id _ _ _ (if_neg (by exact h))).symm
theorem mayOpen_facts {u : State} {p} (h : u.windowMayOpen p = true) : (u.clusterOfPort p).state = .active ∧
    (u.clusterOfPort p).window = none ∧ tnotBefore u.cycle u.ports[p].due = true ∧ u.cal.hold = false ∧
    u.steward.absent = false := by
  unfold State.windowMayOpen at h
  extract_lets o q c gap bb held qf tf lane cn na ao io at h
  simp only [Bool.and_eq_true, decide_eq_true_eq] at h
  obtain ⟨⟨⟨⟨⟨⟨⟨⟨h1, h2⟩, h3⟩, h4⟩, h5⟩, h6⟩, h7⟩, h8⟩, h9⟩ := h
  have h5' : held = false := by simpa using h5
  have hh : (u.cal.hold || u.steward.absent) = false := h5'
  simp only [Bool.or_eq_false_iff] at hh
  exact ⟨h1, by simpa using h2, h4, hh.1, hh.2⟩
theorem portIn_of (p : Fin 64) : portOf (clusterOf p) (portIn p) = p := by revert p; decide +kernel
theorem tdcTable_len (hist : List (Nat × Nat)) (total : Nat) : ∀ n c cum, (tdcTable hist total n c cum).length = n
  | 0, _, _ => rfl
  | n + 1, c, cum => by unfold tdcTable; rw [List.length_cons, tdcTable_len hist total n]
theorem open_eq {u : State} {p : Fin 64} : openWindow p u = raise (evCluster (clusterOf p) 2) Flags.none { u with
        clusters := u.clusters.set (clusterOf p) { u.clusters[clusterOf p] with window := some ⟨portIn p, u.cycle,
            u.cal.span.isSome⟩ },
        ports := u.ports.set p { u.ports[p] with
          due := if tlater (tadd u.ports[p].due u.cal.period) u.cycle then (tadd u.ports[p].due u.cal.period) else tadd u.cycle u.cal.period, calLate := false, lateSeen := false,
          outHeld := if driving u.ports[p].cfg.mode && u.ports[p].cfg.output then some (u.padLevel p) else none,
          blind := openBlind u.cycle u.ports[p].blind },
        cal := { u.cal with lastOpen := some p, doomed := if u.cal.span.isSome then u.cal.doomed + 1 else u.cal.doomed } } :=
            rfl
/-- R346, R347, R350: what the close of a window does to its port. -/
theorem close_eq {u : State} {p : Fin 64} {x high opened v} (h : u.clusters[clusterOf p].window = some ⟨portIn p, opened, v⟩)
    (ht : u.ports[p].cfg.mode ≠ .tone) :
    closeWindow p x high u = if tnotBefore u.tb.now (tadd opened 16000000) then levelSample p (tadd opened 16000000) high { u with
        clusters := u.clusters.set (clusterOf p) { u.clusters[clusterOf p] with window := none },
        ports := u.ports.set p { u.ports[p] with
          outHeld := none,
          accum := if v then { u.ports[p].accum with dtcNext :=
              (u.ports[p].accum.dtcNext + 8) % 250 } else accumulate x u.ports[p].accum } } else u := by
  have hw : u.windowOf p = some opened := by
    unfold State.windowOf State.clusterOfPort
    rw [h]
    dsimp only
    rw [if_pos (portIn_of p)]
  have hr : ∀ w (f : Cluster → Cluster), resumeTone p opened w (u.modCluster (clusterOf p) f) = u.modCluster (clusterOf p) f := by
    intro w f
    unfold resumeTone
    dsimp only
    have e : (u.modCluster (clusterOf p) f).ports[p] = u.ports[p] := rfl
    rw [e]
    split
    · next k _ => exact absurd k ht
    · rfl
  unfold closeWindow
  rw [hw]
  dsimp only
  rw [hr]
  unfold State.clusterOfPort
  rw [h]
  have e : tadd opened (windowTu : Int) = tadd opened 16000000 := rfl
  rw [e]
  cases tnotBefore u.tb.now (tadd opened 16000000) <;> rfl
/-- R234, R346: on a port in TONE mode the pad comes back from the level it held. -/
theorem close_tone {u : State} {p : Fin 64} {x high opened v} (h : u.clusters[clusterOf p].window = some ⟨portIn p, opened, v⟩)
    (ht : u.ports[p].cfg.mode = .tone) :
    closeWindow p x high u = if tnotBefore u.tb.now (tadd opened 16000000) then { u with
        clusters := u.clusters.set (clusterOf p) { u.clusters[clusterOf p] with window := none },
        ports := u.ports.set p { u.ports[p] with
          outHeld := none,
          tone := (match u.ports[p].outHeld with
            | some held => toneResume u.ports[p] held (u.tu opened) (u.tu (tadd opened 16000000))
            | none => u.ports[p].tone),
          accum := if v then { u.ports[p].accum with dtcNext :=
              (u.ports[p].accum.dtcNext + 8) % 250 } else accumulate x u.ports[p].accum } } else u := by
  have hw : u.windowOf p = some opened := by
    unfold State.windowOf State.clusterOfPort
    rw [h]
    dsimp only
    rw [if_pos (portIn_of p)]
  unfold closeWindow
  rw [hw]
  dsimp only
  unfold State.clusterOfPort
  rw [h]
  have e : tadd opened (windowTu : Int) = tadd opened 16000000 := rfl
  rw [e]
  cases hn : tnotBefore u.tb.now (tadd opened 16000000)
  · rfl
  · rw [if_neg (by decide), if_pos rfl]
    have hp : ∀ f, (u.modCluster (clusterOf p) f).ports[p] = u.ports[p] := fun _ => rfl
    unfold resumeTone
    dsimp only
    rw [hp, ht]
    cases hh : u.ports[p].outHeld with
    | none =>
      dsimp only
      unfold levelSample
      dsimp only
      rw [port_at, hp]
      dsimp only
      rw [ht]
      rw [if_neg (by simp)]
      rfl
    | some held =>
      dsimp only
      rw [port_twice]
      unfold levelSample
      dsimp only
      rw [port_at, hp]
      dsimp only
      rw [ht]
      rw [if_neg (by simp)]
      rfl

/-- The properties of every port, and the conversions that wait for a gate, are the same in two states. -/
def PK (s t : State) : Prop := ∀ p : Fin 64, t.ports[p].cfg = s.ports[p].cfg ∧ t.ports[p].gated = s.ports[p].gated
theorem PK.refl (s) : PK s s := fun _ => ⟨rfl, rfl⟩
theorem PK.trans {s t u} (h : PK s t) (k : PK t u) : PK s u :=
  fun p => ⟨(k p).1.trans (h p).1, (k p).2.trans (h p).2⟩
theorem PK.ite {s t u} {c : Prop} [Decidable c] (ht : PK s t) (hu : PK s u) : PK s (if c then t else u) := by
  split <;> assumption
theorem PK.of_eq {s t : State} (h : t.ports = s.ports) : PK s t := fun p => by rw [h]; exact ⟨rfl, rfl⟩
theorem PK.port {s : State} {p} {f : Port → Port} (h : ∀ q, (f q).cfg = q.cfg ∧ (f q).gated = q.gated) :
    PK s (s.modPort p f) := by
  intro n
  by_cases e : p = n
  · subst e
    exact ⟨(congrArg Port.cfg (upd_same _ _ _)).trans (h _).1, (congrArg Port.gated (upd_same _ _ _)).trans (h _).2⟩
  · exact ⟨congrArg Port.cfg (upd_other _ _ _ _ e), congrArg Port.gated (upd_other _ _ _ _ e)⟩
theorem foldPK {α} {f : α → State → State} (h : ∀ a s, PK s (f a s)) (xs : List α) (s) : PK s (foldS xs f s) := by
  unfold foldS
  induction xs generalizing s with
  | nil => exact .refl _
  | cons x xs ih => exact (h x s).trans (ih (f x s))
theorem eachPK {n} {f : Fin n → State → State} (h : ∀ a s, PK s (f a s)) (s : State) : PK s (eachFin n f s) := foldPK h _ s
theorem raiseAt_pk {src cyc n fl s} : PK s (raiseAt src cyc n fl s) := .of_eq (raiseAt_same .ports (by decide))
theorem miss_pk {p fl s} : PK s (miss p fl s) := by
  unfold miss missAt
  split
  · exact PK.trans (PK.port (p := p) (f := fun q => { q with counts := { q.counts with miss := q.counts.miss + 1 } })
      (fun _ => ⟨rfl, rfl⟩)) raiseAt_pk
  · exact .refl _
theorem mfStart_pk {m e s} : PK s (mfStart m e s) := by
  unfold mfStart
  dsimp only
  split
  · exact .ite (.of_eq rfl) (.of_eq rfl)
  · exact .ite (.of_eq rfl) (.refl _)
  · refine .ite (.refl _) (.ite ?_ (.of_eq rfl))
    exact .ite (miss_pk.trans (.of_eq rfl)) miss_pk
theorem mfArmed_pk {m i b s} : PK s (mfArmed m i b s) := by
  unfold mfArmed mfReplay
  extract_lets es
  exact PK.trans (t := State.modMf (State.modMf s m (fun f => { f with state := .armed i b, fell := none })) m
    (fun f => { f with starts := [] })) (.of_eq rfl) (foldPK (fun _ _ => mfStart_pk) _ _)
theorem mfFollow_pk {m t s} : PK s (mfFollow m t s) := by
  unfold mfFollow
  dsimp only
  refine .ite (.refl _) ?_
  split
  · exact mfArmed_pk
  · exact .of_eq rfl
  · exact .of_eq rfl
  · exact .refl _
theorem mfSourceChange_pk {src high t s} : PK s (mfSourceChange src high t s) := by
  unfold mfSourceChange
  refine eachPK (fun m s => .ite (.ite mfFollow_pk (.ite ?_ (.refl _))) (.refl _)) _
  unfold mfArm
  split
  · exact mfArmed_pk
  · exact .refl _
  · exact .of_eq rfl
theorem mfEdge_pk {e s} : PK s (mfEdge e s) := by
  unfold mfEdge
  refine eachPK (fun m s => .ite (.refl _) ?_) _
  extract_lets s1
  have h : PK s s1 := .ite (.of_eq rfl) (.refl _)
  exact .ite (h.trans mfStart_pk) h
theorem axisIndex_pk {src sense t fl s} : PK s (axisIndex src sense t fl s) := by
  unfold axisIndex
  refine eachPK (fun a s => ?_) _
  dsimp only
  split
  · exact .of_eq rfl
  · exact .refl _
theorem axisCount_pk {src sense t fl s} : PK s (axisCount src sense t fl s) := by
  unfold axisCount
  refine eachPK (fun a s => ?_) _
  dsimp only
  split
  · exact .of_eq rfl
  · exact .refl _
/-- What a conversion does to its consumers leaves the properties of the ports as they are. -/
theorem consume_pk {p c b1 b2 s} : PK s (consume p c b1 b2 s) := by
  unfold consume
  extract_lets q fl tm s1 s2 s3 high s4
  have h1 : PK s s1 := mfEdge_pk
  have h2 : PK s s2 := h1.trans axisIndex_pk
  have h3 : PK s s3 := h2.trans axisCount_pk
  have h4 : PK s s4 := h3.trans (.port (fun _ => ⟨rfl, rfl⟩))
  clear_value s1 s2 s3 s4
  split
  · exact h1
  · split
    · exact h4.trans mfSourceChange_pk
    · exact h3
end Sys2Proof.Machine
end

