-- ==== Sys2Proof/Laws/Groups.lean ====
section
/-! SUPPORT. What the steps of a pattern group and of a generator do. -/
namespace Sys2Proof.Machine
open Sys2Proof

theorem group_twice (s : State) (p : Fin 8) (f g) : (s.modGroup p f).modGroup p g = s.modGroup p (fun x => g (f x)) := by
  simp only [State.modGroup]
  congr 1
  unfold upd; simp
theorem group_id (s : State) (p : Fin 8) (f) (h : f s.groups[p] = s.groups[p]) : s.modGroup p f = s := by
  unfold State.modGroup upd; rw [h]; simp
/-- The parts that a step of a group may change. -/
abbrev pgParts : List Part := [.groups, .ags, .fabric, .con, .hspi, .sp, .fifo]
/-- No source ends a wait of the group. -/
def calm (g : Group) : Prop := ∀ src c fl b, endWait src c fl b g = g
theorem calm_none {g : Group} (h : g.waiting = none) : calm g := by
  intro src c fl b; unfold endWait; rw [h]
theorem calm_step {g : Group} {b t h e} (k : g.waiting = some (.wait .step b t h e)) : calm g := by
  intro src c fl bb; unfold endWait; rw [k]
theorem raiseCore_grp {g : Fin 8} {src cyc n fl} {s : State} (h : calm s.groups[g]) :
    (raiseCore src cyc n fl s).1.groups[g] = s.groups[g] := by
  unfold raiseCore
  extract_lets s1 old s2 s3 s4 s5
  have h1 : s1.groups[g] = s.groups[g] := by
    show (updAll s.groups _)[g] = _
    rw [updAll_get]; exact h _ _ _ _
  have h3 : s3.groups = s1.groups := rfl
  have h4 : s4.groups = s3.groups := by show (if _ then _ else _ : State).groups = _; split <;> rfl
  have h5 : s5.groups = s4.groups := by show (if _ then _ else _ : State).groups = _; split <;> rfl
  have h6 : s5.groups[g] = s.groups[g] := by rw [h5, h4, h3]; exact h1
  split
  · have e : (pushEvents src cyc fl n (s5, false)).1.groups = s5.groups := pushEvents_same src cyc fl n (s5,
      false) .groups (by decide)
    exact (congrArg (fun v : Vector Group 8 => v[g]) e).trans h6
  · exact h6
theorem raiseAt_grp {g : Fin 8} {src cyc n fl} {s : State} (h : calm s.groups[g]) :
    (raiseAt src cyc n fl s).groups[g] = s.groups[g] := by
  unfold raiseAt; split
  · rfl
  · have e := raiseCore_grp (g := g) (src := src) (cyc := cyc) (n := n) (fl := fl) (s := s) h
    unfold overflowStarted; split
    · extract_lets q
      have e2 : q.1.groups[g] = s.groups[g] := (raiseCore_grp (by rw [e]; exact h)).trans e
      clear_value q
      split
      · rw [raiseCore_grp (by rw [e2]; exact h)]; exact e2
      · exact e2
    · exact e
theorem raiseGroup_grp {g h : Fin 8} {i t n} {s : State} (k : calm s.groups[g]) :
    (raiseGroup h i t n s).groups[g] = s.groups[g] := raiseAt_grp k
theorem raiseGroup_same {h i t n} {s : State} : SameBut pgParts s (raiseGroup h i t n s) := raiseAt_same.mono (by decide)
theorem agGate_same {g t s} : SameBut pgParts s (agGate g t s) := by (intro p hp; cases p <;> first | rfl | (exfalso; revert hp; decide))
theorem mg_same {g f} {s : State} : SameBut pgParts s (s.modGroup g f) := modGroup_same.mono (by decide)
theorem keepSample_grp {g : Fin 8} {t} {s : State} :
    (keepSample g t s).groups[g] = { s.groups[g] with lastSample := s.lastPlayed g t } := group_at _ _ _
theorem keepSample_same {g t s} : SameBut pgParts s (keepSample g t s) := mg_same
/-- R302, R304, R317: what a group holds at its entry to HALTED. -/
theorem halt_grp {g : Fin 8} {c t} {s : State} :
    (haltGroup g c t s).groups[g] = haltedGroup c { s.groups[g] with lastSample := s.lastPlayed g t } := by
  unfold haltGroup
  extract_lets s1
  have e1 : s1.groups[g] = haltedGroup c { s.groups[g] with lastSample := s.lastPlayed g t } := by
    refine (group_at _ _ _).trans ?_
    rw [keepSample_grp]; rfl
  refine (congrArg (fun v : Vector Group 8 => v[g]) (agStop_same .groups (by decide))).trans ?_
  show (raiseGroup g 5 t 1 s1).groups[g] = _
  rw [raiseGroup_grp (by rw [e1]; exact calm_none rfl), e1]
theorem haltGroup_same' {g c t s} : SameBut pgParts s (haltGroup g c t s) := haltGroup_same.mono (by decide)
/-- R302: at an instant within a step, or at its end, the last sample played is the one before it. -/
theorem lastPlayed_step {g : Fin 8} {r : StepRun} {s : State} {k : Nat} (h1 : s.groups[g].cur = some r) (h2 : r.failAt = none)
    (h3 : k ≤ r.seg.length) (h4 : r.seg.length ≤ 33554432) :
    s.lastPlayed g (tadd r.start (k * 4000)) = if k = 0 then s.groups[g].lastSample else some (r.seg.sample (k - 1)) := by
  have e : tdiff (tadd r.start ((k : Int) * 4000)) r.start = k * 4000 := by
    unfold tdiff tadd
    rw [BitVec.add_comm, BitVec.add_sub_cancel, BitVec.toInt_ofInt]
    exact Int.bmod_eq_of_le (by omega) (by omega)
  unfold State.lastPlayed
  dsimp only
  rw [h1]
  dsimp only
  rw [e, h2]
  have hd : (k : Int) * 4000 / ((tickTu : Nat) : Int) = k := by unfold tickTu; omega
  rw [hd]
  have hk : min (min ((k : Int).toNat) r.seg.length) ((none : Option Nat).getD r.seg.length) = k := by
    simp only [Option.getD_none]; omega
  rw [hk]
theorem prefetch_done {st : SegStore} {x : Group} (h : x.fetch.done = true) : prefetch st x = x := by
  unfold prefetch; split
  · show fetchMany st (259 + 1) x = x
    unfold fetchMany; rw [if_pos (by rw [h]; rfl)]
  · rfl
theorem fetchOne_facts {st : SegStore} {x : Group} : (fetchOne st x).cur = x.cur ∧ (∃ more, (fetchOne st x).plan = x.plan ++
    more ∧ (more.filter isPlay).length ≤ 1) := by
  have hh : ∀ (c : HaltCause) (y : Group), (fetchHalt c y).cur = y.cur ∧ ∃ more, (fetchHalt c y).plan = y.plan ++ more ∧
      (more.filter isPlay).length ≤ 1 := by
    intro c y
    unfold fetchHalt
    split <;> exact ⟨rfl, [_], rfl, List.length_filter_le _ _⟩
  unfold fetchOne
  extract_lets f go play
  have hp : ∀ id, (play id).cur = x.cur ∧ ∃ more, (play id).plan = x.plan ++ more ∧ (more.filter isPlay).length ≤ 1 := by
    intro id
    show (Group.cur (match st.find id with | some _ => _ | none => _)) = _ ∧ ∃ more,
        Group.plan (match st.find id with | some _ => _ | none => _) = _ ∧ _
    split
    · exact ⟨rfl, [_], rfl, List.length_filter_le _ _⟩
    · exact hh _ _
  have h0 : ∀ (y : Group) (m : List PlanItem) (fe : Fetch), y.cur = x.cur → y.plan = x.plan ++ m →
      (m.filter isPlay).length ≤ 1 → (go y fe).cur = x.cur ∧ ∃ more, (go y fe).plan = x.plan ++ more ∧
      (more.filter isPlay).length ≤ 1 := fun y m fe a b c => ⟨a, m, b, c⟩
  clear_value play go
  repeat' split
  all_goals first | exact hh _ _ | exact hp _ | exact h0 x [] _ rfl (by simp) (by simp) | exact h0 _ [_] _ rfl rfl (List.length_filter_le _ _) | exact ⟨rfl, [], by simp, by simp⟩
theorem fetchMany_facts {st : SegStore} : ∀ (n : Nat) (x : Group), (fetchMany st n x).cur = x.cur ∧ (∃ more,
    (fetchMany st n x).plan = x.plan ++ more) ∧
    ((fetchMany st n x).plan.filter isPlay).length ≤ max (x.plan.filter isPlay).length x.needed
  | 0, x => ⟨rfl, ⟨[], by simp [fetchMany]⟩, Nat.le_max_left _ _⟩
  | n + 1, x => by
    unfold fetchMany
    split
    · exact ⟨rfl, ⟨[], by simp⟩, Nat.le_max_left _ _⟩
    · rename_i c
      obtain ⟨e1, m, e2, e3⟩ := fetchOne_facts (st := st) (x := x)
      obtain ⟨i1, ⟨m', i2⟩, i3⟩ := fetchMany_facts (st := st) n (fetchOne st x)
      refine ⟨i1.trans e1, ⟨m ++ m', by rw [i2, e2]; simp⟩, Nat.le_trans i3 ?_⟩
      have en : (fetchOne st x).needed = x.needed := by unfold Group.needed; rw [e1]
      rw [en, e2]
      simp only [Bool.or_eq_true, decide_eq_true_eq, not_or] at c
      have := c.2
      simp only [List.filter_append, List.length_append]
      omega
theorem advance_play {g : Fin 8} {n t} {s : State} {i y rest} (h : s.groups[g].fetch.done = true) (p :
    s.groups[g].plan = .play i y :: rest) :
   advance g (n + 1) t s = agGate g t (raiseGroup g 0 t 1 (s.modGroup g (fun x => { x with
                   plan := rest, state := .running, stepIdx := i, waiting := none, begun := true, skipping := false,
                   cur := some ⟨i, y, t, y.firstFail, false⟩, markers := applyMarks x.markNext x.markers,
                   markNext := [], prov := x.prov ++ x.provNext, provNext := [] }))) := by
  unfold advance
  rw [group_id s g _ (prefetch_done h)]
  dsimp only
  rw [p]
  refine (congrArg (fun v => agGate g t (raiseGroup g 0 t 1 v)) (group_twice s g _ _)).trans ?_
  rfl
theorem advance_halt {g : Fin 8} {n t} {s : State} {c rest} (h : s.groups[g].fetch.done = true) (p :
    s.groups[g].plan = .halt c :: rest) :
   advance g (n + 1) t s = haltGroup g c t (s.modGroup g (fun x => { x with plan := rest })) := by
  unfold advance
  rw [group_id s g _ (prefetch_done h)]
  dsimp only
  rw [p]
theorem advance_wait {g : Fin 8} {n t} {s : State} {i tmo hl rest} (h : s.groups[g].fetch.done = true) (p :
    s.groups[g].plan = .wait i .step tmo hl :: rest) (z : s.groups[g].counted = []) :
   advance g (n + 1) t s = agGate g t (raiseGroup g 3 t 1 (s.modGroup g (fun x => { x with plan := rest, state := .waiting, stepIdx := i, cur := none, waitFrom := t, counted := [], waiting := some (.wait .step t tmo hl none) }))) := by
  unfold advance
  rw [group_id s g _ (prefetch_done h)]
  dsimp only
  rw [p]
  dsimp only
  have e : (s.groups[g].counted.head?.map (fun r => granuleFrom s.groups[g].grid (tadd r.time 320000))) = none := by rw [z]; rfl
  rw [if_neg (by unfold stepsAt; rw [z]; exact Nat.not_succ_le_zero 0), e, group_twice, z]
  refine congrArg (fun f => agGate g t (raiseGroup g 3 t 1 (s.modGroup g f))) ?_
  funext x
  simp [takeStep]
theorem loopEnds_one {i y t h rest c} : loopEnds (.play i y :: rest) = 0 ∧ loopEnds (.halt c :: rest) = 0 ∧
    loopEnds (.wait i .step t h :: rest) = loopEnds rest := ⟨rfl, rfl, rfl⟩
theorem raise_zero {g i t s} : raiseGroup g i t 0 s = s := rfl
/-- R302, R320: what a step leaves at its nominal end. -/
theorem finishStep_facts {g : Fin 8} {r : StepRun} {s : State} (hd : s.groups[g].fetch.done = true) (hw :
    s.groups[g].waiting = none) : SameBut pgParts s (finishStep g r s) ∧
   (finishStep g r s).groups[g] = { s.groups[g] with lastSample := s.lastPlayed g r.ends, skipping := false, cur := none } := by
  unfold finishStep
  extract_lets e last s1 s2 s3 s4
  have e1 : s1.groups[g] = { s.groups[g] with lastSample := s.lastPlayed g r.ends, skipping := false } := by
    refine (group_at _ _ _).trans ?_
    rw [keepSample_grp]
  have b1 : SameBut pgParts s s1 := keepSample_same.trans mg_same
  clear_value s1
  have e2 : s2.groups[g] = s1.groups[g] := raiseGroup_grp (by rw [e1]; exact calm_none hw)
  have b2 : SameBut pgParts s s2 := b1.trans raiseGroup_same
  have e3 : s3.groups[g] = s1.groups[g] := by
    refine (group_at _ _ _).trans ?_
    rw [e2, prefetch_done (by rw [e1]; exact hd)]
  have b3 : SameBut pgParts s s3 := b2.trans mg_same
  have e4 : s4.groups[g] = s1.groups[g] := by rw [← e3]; exact raiseGroup_grp (by rw [e3, e1]; exact calm_none hw)
  have b4 : SameBut pgParts s s4 := b3.trans raiseGroup_same
  refine ⟨b4.trans mg_same, ?_⟩
  rw [group_at, e4, e1]
theorem stepEnd_eq {g : Fin 8} {r : StepRun} {s : State} (hd : s.groups[g].fetch.done = true) (hw : s.groups[g].waiting = none) :
    ∃ v, stepEnd g r s = advance g 300 r.ends v ∧ SameBut pgParts s v ∧
      v.groups[g] = { s.groups[g] with lastSample := s.lastPlayed g r.ends, skipping := false, cur := none } :=
  ⟨_, rfl, (finishStep_facts hd hw).1, (finishStep_facts hd hw).2⟩
theorem boundary_step {g : Fin 8} {r : StepRun} {u : State} (h1 : u.groups[g].state = .running) (h2 : u.groups[g].cur = some r)
    (h3 : u.groups[g].restarts = []) (h4 : r.failAt = none) (h5 : u.groups[g].stopAt = none) (h6 :
    tnotBefore u.tb.now r.ends = true) : boundary g u = stepEnd g r u := by
  have hl : u.groups[g].live = true := by unfold Group.live; rw [h1]
  have hd : (if u.groups[g].live then firstDue u.tb.now u.groups[g].dues else none) = some (r.ends, Due.stepEnd r) := by
    rw [if_pos hl]
    unfold Group.dues; rw [h2, h3, h5]
    simp only [List.nil_append, firstDue]
    rw [if_pos h6]
  unfold boundary
  dsimp only
  rw [hd]
  dsimp only
  rw [h2]
  dsimp only
  rw [if_neg (by unfold StepRun.failTime; rw [h4]; simp)]
theorem boundary_stop {g : Fin 8} {r : StepRun} {t} {u : State} (h1 : u.groups[g].state = .running) (h2 :
    u.groups[g].cur = some r) (h3 : u.groups[g].restarts = []) (h4 : r.failAt = none) (h5 : u.groups[g].stopAt = some t)
    (h6 : tnotBefore u.tb.now t = true) (h7 : tnotBefore r.ends t = true) : boundary g u = stopNow g t u := by
  have hl : u.groups[g].live = true := by unfold Group.live; rw [h1]
  have hd : (if u.groups[g].live then firstDue u.tb.now u.groups[g].dues else none) = some (t, Due.stop) := by
    rw [if_pos hl]
    unfold Group.dues; rw [h2, h3, h5]
    simp only [List.nil_append, List.cons_append, firstDue]
    split
    · rw [if_pos h6]
    · rename_i e he
      split at he
      · cases he; rw [if_pos (by simp only [h6, h7]; rfl)]
      · cases he
  unfold boundary
  dsimp only
  rw [hd]
  dsimp only
  rw [h2]
  dsimp only
  rw [if_neg (by unfold StepRun.failTime; rw [h4]; simp)]
/-- R317: STOP cuts a step that has not come to its end. -/
theorem stopNow_cut {g : Fin 8} {t r} {u : State} (h1 : u.groups[g].cur = some r) (h2 : r.ends ≠ t) :
    SameBut pgParts u (stopNow g t u) ∧
    (stopNow g t u).groups[g] = haltedGroup .stop { u.groups[g] with lastSample := u.lastPlayed g t } := by
  have e : finishTied g t u = u := by unfold finishTied; rw [h1]; exact if_neg h2
  unfold stopNow
  rw [e]
  exact ⟨haltGroup_same', halt_grp⟩
/-- R320: a step whose nominal end falls on the instant of STOP has come to its end. -/
theorem stopNow_tied {g : Fin 8} {r} {u : State} (h1 : u.groups[g].cur = some r) (hd : u.groups[g].fetch.done = true)
    (hw : u.groups[g].waiting = none) (hr : u.groups[g].state = .running) : SameBut pgParts u (stopNow g r.ends u) ∧
    (stopNow g r.ends u).groups[g] = haltedGroup .stop { u.groups[g] with lastSample := u.lastPlayed g r.ends } := by
  obtain ⟨b, e⟩ := finishStep_facts (g := g) (r := r) (s := u) hd hw
  have e0 : finishTied g r.ends u = finishStep g r u := by unfold finishTied; rw [h1]; exact if_pos rfl
  unfold stopNow
  rw [e0]
  refine ⟨b.trans haltGroup_same', ?_⟩
  have hl : (finishStep g r u).lastPlayed g r.ends = u.lastPlayed g r.ends := by
    conv => lhs; unfold State.lastPlayed
    dsimp only
    rw [e]
    dsimp only
    rw [if_neg (by rw [hr]; simp)]
  rw [halt_grp, hl, e]
  rfl
/-- R312: a wait that timed out with ONTIMEOUT=HALT halts the group at its granule boundary. -/
theorem boundary_timeout {g : Fin 8} {on b t at_} {u : State} (h1 : u.groups[g].state = .waiting) (h2 : u.groups[g].cur = none)
    (h3 : u.groups[g].restarts = []) (h4 : u.groups[g].stopAt = none)
    (h5 : u.groups[g].waiting = some (.wait on b t true (some at_))) (h6 : tnotBefore u.tb.now at_ = true) :
    boundary g u = haltGroup g .timeout at_ u := by
  have hl : u.groups[g].live = true := by unfold Group.live; rw [h1]
  have hd : (if u.groups[g].live then firstDue u.tb.now u.groups[g].dues else none) = some (at_, Due.wait) := by
    rw [if_pos hl]
    unfold Group.dues; rw [h2, h3, h4, h5]
    simp only [List.nil_append, firstDue]
    rw [if_pos h6]
  unfold boundary
  dsimp only
  rw [hd]
  dsimp only
  rw [h2, h5]
  rfl
/-- The words due and the properties of a generator are the same. -/
structure AgSame (x y : Ag) : Prop where
  due : y.due = x.due
  past : y.past = x.past
  cfg : y.cfg = x.cfg
theorem AgSame.refl (x) : AgSame x x := ⟨rfl, rfl, rfl⟩
theorem AgSame.trans {x y z} (h : AgSame x y) (k : AgSame y z) : AgSame x z := ⟨k.1.trans h.1, k.2.trans h.2, k.3.trans h.3⟩
theorem checkBit_same {pos b r} : AgSame r.1 (checkBit pos b r).1 := by
  unfold checkBit
  extract_lets x bit fresh
  split
  · split
    · exact ⟨rfl, rfl, rfl⟩
    · extract_lets e x' bad win x'' mask
      split
      · exact ⟨rfl, rfl, rfl⟩
      · split <;> exact ⟨rfl, rfl, rfl⟩
  · split
    · exact ⟨rfl, rfl, rfl⟩
    · split
      · exact ⟨rfl, rfl, rfl⟩
      · extract_lets e; split <;> exact ⟨rfl, rfl, rfl⟩
theorem marchBit_same {v pos b r} : AgSame r.1 (marchBit v pos b r).1 := by
  unfold marchBit; split <;> exact ⟨rfl, rfl, rfl⟩
theorem foldBits_same {f : Nat → RxBit → Ag × Nat → Ag × Nat} (h : ∀ i b r, AgSame r.1 (f i b r).1) : ∀ (bs : List RxBit) (i :
    Nat) r, AgSame r.1 (foldBits f i bs r).1
  | [], i, r => AgSame.refl _
  | b :: bs, i, r => (h i b r).trans (foldBits_same h bs (i + 1) _)
theorem foldMarch {v : Nat} : ∀ (bs : List RxBit) (i : Nat) (r : Ag × Nat), let y := (foldBits (marchBit v) i bs r).1
   y.bits = r.1.bits + BitVec.ofNat 48 (bs.filter (fun b => b.2)).length ∧
   y.errors = r.1.errors + BitVec.ofNat 48 ((bs.zipIdx i).filter (fun b => b.1.2 && v.testBit b.2 != b.1.1)).length ∧
       y.lock = r.1.lock
  | [], i, r => by simp [foldBits]
  | (b, c) :: bs, i, r => by
    have ih := foldMarch (v := v) bs (i + 1) (marchBit v i (b, c) r)
    dsimp only at ih ⊢
    unfold foldBits
    rw [ih.1, ih.2.1, ih.2.2]
    simp only [List.zipIdx_cons, List.filter_cons]
    unfold marchBit
    cases c
    · simp
    · cases e : v.testBit i != b
      · refine ⟨?_, ?_, ?_⟩ <;> simp [e]
        · rw [BitVec.add_assoc]; congr 1; simp [Nat.add_comm, BitVec.ofNat_add, BitVec.add_comm]
      · refine ⟨?_, ?_, ?_⟩ <;> simp [e]
        · rw [BitVec.add_assoc]; congr 1; simp [Nat.add_comm, BitVec.ofNat_add, BitVec.add_comm]
        · rw [BitVec.add_assoc]; congr 1; simp [Nat.add_comm, BitVec.ofNat_add, BitVec.add_comm]
theorem foldUnlocked : ∀ (bs : List RxBit) (i : Nat) (r : Ag × Nat), r.1.lock = false → (∀ b ∈ bs, b.2 = false) → let y := foldBits checkBit i bs r
   y.1.lock = false ∧ y.1.bits = r.1.bits ∧ y.1.errors = r.1.errors ∧ (bs ≠ [] ∨ r.1.acq = ⟨[], none, 0⟩ → y.1.acq = ⟨[], none,
       0⟩)
  | [], i, r, h, _ => ⟨h, rfl, rfl, fun k => k.elim (fun k => absurd rfl k) id⟩
  | (b, c) :: bs, i, r, h, k => by
    have hc : c = false := k (b, c) (List.mem_cons_self ..)
    subst hc
    have e : checkBit i (b, false) r = ({ r.1 with acq := ⟨[], none, 0⟩ }, r.2) := by
      unfold checkBit
      dsimp only
      rw [if_neg (by rw [h]; decide), if_pos (by decide)]
    have ih := foldUnlocked bs (i + 1) (checkBit i (b, false) r) (by rw [e]; exact h) (fun b hb =>
        k b (List.mem_cons_of_mem _ hb))
    dsimp only at ih ⊢
    unfold foldBits
    rw [e] at ih ⊢
    exact ⟨ih.1, ih.2.1, ih.2.2.1, fun _ => ih.2.2.2 (.inr rfl)⟩
theorem settle_eq {x : Ag} : x.settle = { x with state := x.settle.state } := by
  unfold Ag.settle; split <;> rfl
theorem emitted_none {x : Ag} (h : x.word = none) : x.emitted = x := by
  unfold Ag.emitted; rw [h]
/-- A generator after the bits of one word (R334 to R338). -/
def sampled (bits : List RxBit) (w : AgWord) (x : Ag) : Ag × Nat := match w.expect with
   | some (v, _, _) => foldBits (marchBit v) 0 bits (x, 0)
   | none => foldBits checkBit 0 bits (x, 0)
theorem first_eq {y : Ag} {c : Bool} {v} : ∃ fe st, (if c then { y with firstErr := v } else y :
    Ag).settle = { y with firstErr := fe, state := st } := by
  cases c
  · exact ⟨y.firstErr, y.settle.state, settle_eq⟩
  · exact ⟨v, _, settle_eq⟩
theorem compareWord_eq {s : State} {w : AgWord} {c : Bool} {x : Ag} : ∃ fe st, (compareWord s w c x).settle =
    { (sampled (x.cfg.inputs.map (fun p => (checkLevel s.ports[p] (tadd w.start x.cfg.sampleAt),
        compared s.ports[p] (tadd w.start x.cfg.sampleAt)))) w x).1 with firstErr := fe, state := st } := by
  unfold compareWord sampled
  dsimp only
  rcases hw : w.expect with _ | ⟨v, a, e⟩ <;> exact first_eq
/-- R333 to R339: the comparison of the word that is due first. -/
theorem sample_eq {n : Fin 8} {u : State} {w rest} (h0 : u.ags[n].past = []) (h1 : u.ags[n].due = w :: rest)
    (h2 : u.comparable u.ags[n].cfg w = true) :
   ∃ fe st, agSampleStep n u = { u with ags := u.ags.set n { (sampled (u.ags[n].cfg.inputs.map (fun p =>
       (checkLevel u.ports[p] (tadd w.start u.ags[n].cfg.sampleAt),
       compared u.ports[p] (tadd w.start u.ags[n].cfg.sampleAt)))) w { u.ags[n] with due := rest }).1 with firstErr := fe, state :=
       st } } := by
  have e : agSampleStep n u = u.modAg n (fun x => (compareWord u w true { x with due := rest }).settle) := by
    unfold agSampleStep
    dsimp only
    rw [h0, h1]
    exact if_pos h2
  obtain ⟨fe, st, k⟩ := compareWord_eq (s := u) (w := w) (c := true) (x := { u.ags[n] with due := rest })
  refine ⟨fe, st, ?_⟩
  rw [e]
  unfold State.modAg upd
  exact congrArg (fun y => { u with ags := u.ags.set n y }) k
/-- R333: nothing is compared before it can be. -/
theorem sample_wait {n : Fin 8} {u : State} {w rest} (h0 : u.ags[n].past = []) (h1 : u.ags[n].due = w :: rest)
    (h2 : u.comparable u.ags[n].cfg w = false) : agSampleStep n u = u := by
  unfold agSampleStep
  dsimp only
  rw [h0, h1]
  dsimp only
  rw [h2]
  rfl

end Sys2Proof.Machine
end

