-- ==== Sys2Proof/Laws/Belfry.lean ====
section
/-! SUPPORT. What Belfry samples, and what the steps of SLEEP do. -/
namespace Sys2Proof.Machine
open Sys2Proof

/-- What Belfry holds besides its rules. -/
def bview (s : State) : Nat × Bool × Vector Wake 4 × Int × Bool × Fin 4 := (s.bel.btime, s.bel.refaAct, s.bel.wakes,
    s.bel.temp, s.bel.tempHigh, s.bel.axisWake)
/-- The rule n meets F; nothing else of Belfry changes but what a firing does. -/
structure Ruled (n : Fin 16) (F : Rule → Rule) (s t : State) : Prop where
  same : SameBut [.bel, .fabric] s t
  bv : bview t = bview s
  other : ∀ m : Fin 16, m ≠ n → t.bel.rules[m] = s.bel.rules[m]
  this : t.bel.rules[n] = F s.bel.rules[n]
theorem Ruled.trans {n F G s t u} (h : Ruled n F s t) (k : Ruled n G t u) : Ruled n (fun r => G (F r)) s u :=
  ⟨h.same.trans k.same, k.bv.trans h.bv, fun m hm => (k.other m hm).trans (h.other m hm), by rw [k.this, h.this]⟩
theorem Ruled.refl (n s) : Ruled n id s s := ⟨.refl _ _, rfl, fun _ _ => rfl, rfl⟩
theorem Ruled.of {n s t} (h : SameBut [.fabric] s t) : Ruled n id s t := by
  have e : t.bel = s.bel := h .bel (by decide)
  exact ⟨h.mono (by decide), by unfold bview; rw [e], fun m _ => by rw [e], by rw [e]; rfl⟩
theorem Ruled.mod {n F s} : Ruled n F s (s.modBel (fun b => { b with rules := upd b.rules n F })) :=
  ⟨by (intro p hp; cases p <;> first | rfl | (exfalso; revert hp; decide)), rfl, fun m hm => upd_other _ _ _ _ (Ne.symm hm),
      upd_same _ _ _⟩
theorem Ruled.bel {n s} {f : Belfry → Belfry} (h1 : (f s.bel).rules = s.bel.rules) (h2 : bview (s.modBel f) = bview s) :
    Ruled n id s (s.modBel f) :=
  ⟨by (intro p hp; cases p <;> first | rfl | (exfalso; revert hp; decide)), h2, fun m _ => congrArg (fun v : Vector Rule 16 =>
      v[m]) h1, congrArg (fun v : Vector Rule 16 => v[n]) h1⟩
theorem putLog_facts {r n src v b} : (putLog r n src v b).1.rules = b.rules ∧ (putLog r n src v b).1.btime = b.btime ∧
    (putLog r n src v b).1.refaAct = b.refaAct ∧ (putLog r n src v b).1.wakes = b.wakes ∧
    (putLog r n src v b).1.temp = b.temp ∧ (putLog r n src v b).1.tempHigh = b.tempHigh ∧
    (putLog r n src v b).1.axisWake = b.axisWake := by
  unfold putLog
  extract_lets e b'
  split
  · exact ⟨rfl, rfl, rfl, rfl, rfl, rfl, rfl⟩
  · split <;> exact ⟨rfl, rfl, rfl, rfl, rfl, rfl, rfl⟩
/-- What a firing leaves of Belfry. -/
structure BelSame (x b : Belfry) : Prop where
  rules : x.rules = b.rules
  btime : x.btime = b.btime
  refa : x.refaAct = b.refaAct
  wakes : x.wakes = b.wakes
  temp : x.temp = b.temp
  th : x.tempHigh = b.tempHigh
  aw : x.axisWake = b.axisWake
theorem wakeAction_facts {n b} : BelSame (wakeAction n b) b := by
  constructor <;> (unfold wakeAction; cases b.step <;> first | rfl | (dsimp only; cases b.wakeDuringEntry <;> rfl))
theorem bw_mod {s : State} {f : Belfry → Belfry} (h : (f s.bel).btime = s.bel.btime ∧ (f s.bel).refaAct = s.bel.refaAct ∧
    (f s.bel).wakes = s.bel.wakes ∧ (f s.bel).temp = s.bel.temp ∧ (f s.bel).tempHigh = s.bel.tempHigh ∧
    (f s.bel).axisWake = s.bel.axisWake) : bview (s.modBel f) = bview s := by
  unfold bview State.modBel
  dsimp only
  rw [h.1, h.2.1, h.2.2.1, h.2.2.2.1, h.2.2.2.2.1, h.2.2.2.2.2]
theorem fire_ruled {n v s} : Ruled n (fun r => { r with hits := if s.bel.rules[n].action.contains .count then r.hits + 1 else r.hits }) s (fireRule n v s) := by
  unfold fireRule
  extract_lets r acts s1 s2 s3 x t s4
  have h1 : Ruled n id s s1 := Ruled.of happen_same
  have h2 : Ruled n (fun r => { r with hits := if s.bel.rules[n].action.contains .count then r.hits + 1 else r.hits }) s1 s2 :=
      by
    show Ruled _ _ _ (if acts.contains .count then _ else _)
    have ea : s.bel.rules[n].action = acts := rfl
    rw [ea]
    by_cases c : acts.contains .count = true
    · rw [if_pos c]; simp only [c, if_true]; exact Ruled.mod
    · rw [if_neg c]; simp only [c, if_false]; exact Ruled.refl _ _
  clear_value s2
  have h3 : Ruled n id s2 s3 := by
    show Ruled _ _ _ (if _ then _ else _); split
    · exact (Ruled.bel (f := fun b => { b with alert := true }) rfl rfl).trans (Ruled.of happen_same)
    · exact Ruled.refl _ _
  clear_value s3
  have h4 : Ruled n id s3 s4 := by
    show Ruled _ _ _ (if _ then (if _ then _ else _) else _); split
    · obtain ⟨a, b⟩ := putLog_facts (r := s3.tb.running) (n := n) (src := r.src) (v := v) (b := s3.bel)
      have ht : Ruled n id s3 t := Ruled.bel (f := fun _ => x.1) a (bw_mod (f := fun _ => x.1) b)
      clear_value t
      split
      · exact ht.trans (Ruled.of happen_same)
      · exact ht
    · exact Ruled.refl _ _
  clear_value s4
  have h5 := ((h1.trans h2).trans h3).trans h4
  refine h5.trans (G := id) ?_
  split
  · have w := wakeAction_facts (n := n) (b := s4.bel)
    exact Ruled.bel (f := wakeAction n) w.rules (bw_mod (f := wakeAction n) ⟨w.btime, w.refa, w.wakes, w.temp, w.th, w.aw⟩)
  · exact Ruled.refl _ _
theorem foldRuled {f : Fin 16 → State → State} {F : Fin 16 → Rule → Rule} (h : ∀ n s, Ruled n (F n) s (f n s)) : ∀ {l :
    List (Fin 16)} {s : State}, l.Nodup →
   SameBut [.bel, .fabric] s (foldS l f s) ∧ bview (foldS l f s) = bview s ∧ (∀ n ∈ l,
       (foldS l f s).bel.rules[n] = F n s.bel.rules[n]) ∧ ∀ n, n ∉ l → (foldS l f s).bel.rules[n] = s.bel.rules[n]
  | [], s, _ => ⟨.refl _ _, rfl, fun n h => (by cases h), fun _ _ => rfl⟩
  | x :: xs, s, nd => by
    rw [List.nodup_cons] at nd
    obtain ⟨a, b, c, d⟩ := foldRuled h (l := xs) (s := f x s) nd.2
    have k := h x s
    refine ⟨k.same.trans a, b.trans k.bv, fun n hn => ?_, fun n hn => ?_⟩
    · show (foldS xs f (f x s)).bel.rules[n] = _
      rcases List.mem_cons.mp hn with e | hn
      · subst e; rw [d _ nd.1, k.this]
      · rw [c n hn, k.other n (fun e => nd.1 (e ▸ hn))]
    · show (foldS xs f (f x s)).bel.rules[n] = _
      rw [List.mem_cons, not_or] at hn
      rw [d n hn.2, k.other n hn.1]
/-- A rule after a value of its source. -/
def ruleAfter (value : RuleSrc → Option Int) (r : Rule) : Rule := match value r.src with
        | none => r
        | some v => { (r.sample v).1 with
            hits := if (r.sample v).2.isSome && r.action.contains .count then r.hits + 1 else r.hits }
theorem runRules_facts {value : RuleSrc → Option Int} {s : State} : SameBut [.bel, .fabric] s (runRules value s) ∧
    bview (runRules value s) = bview s ∧ ∀ n : Fin 16, (runRules value s).bel.rules[n] = ruleAfter value s.bel.rules[n] := by
  have key : ∀ n s, Ruled n (ruleAfter value) s ((fun (n : Fin 16) (s : State) =>
    let r := s.bel.rules[n]
    match value r.src with
    | none => s
    | some v =>
      let x := r.sample v
      let s := s.modBel (fun b => { b with rules := upd b.rules n (fun _ => x.1) })
      match x.2 with | some w => fireRule n w s | none => s) n s) := by
    intro n s
    dsimp only
    cases hv : value s.bel.rules[n].src with
    | none =>
      have h := Ruled.refl n s
      exact ⟨h.same, h.bv, h.other, by unfold ruleAfter; rw [hv]⟩
    | some v =>
      dsimp only
      have h : Ruled n (fun _ => (s.bel.rules[n].sample v).1) s (s.modBel (fun b => { b with rules := upd b.rules n (fun _ => (s.bel.rules[n].sample v).1) })) := Ruled.mod
      cases hx : (s.bel.rules[n].sample v).2 with
      | none => exact ⟨h.same, h.bv, h.other, by rw [h.this]; unfold ruleAfter; rw [hv]; dsimp only; rw [hx]; rfl⟩
      | some w =>
        dsimp only
        generalize s.modBel (fun b => { b with rules := upd b.rules n (fun _ => (s.bel.rules[n].sample v).1) }) = t at *
        have k := h.trans (fire_ruled (n := n) (v := w) (s := t))
        refine ⟨k.same, k.bv, k.other, ?_⟩
        rw [k.this, h.this]; unfold ruleAfter; rw [hv]; dsimp only; rw [hx]; rfl
  have := foldRuled key (l := List.finRange 16) (s := s) (by decide)
  exact ⟨this.1, this.2.1, fun n => this.2.2.1 n (List.mem_finRange n)⟩
theorem countFrame_facts {x y s} : SameBut [.bel, .fabric] s (countFrame x y s) ∧ bview (countFrame x y s) = bview s ∧
    (countFrame x y s).bel.rules = s.bel.rules := by
  unfold countFrame
  split
  · extract_lets c
    cases c
    · exact ⟨.refl _ _, rfl, rfl⟩
    · exact ⟨by (intro p hp; cases p <;> first | rfl | (exfalso; revert hp; decide)), rfl, rfl⟩
  · exact ⟨.refl _ _, rfl, rfl⟩
/-- The values that a sample of levels gives the rules. -/
def sampleValue (s : State) (refa : Bool) : RuleSrc → Option Int := fun x => match x with | .wake n => some (levelValue s.bel.wakes[n].level) | .refa => some (levelValue refa) | _ => none
/-- Belfry after a sample of levels, before the rules. -/
def afterLevels (levels : BitVec 4) (refa : Bool) (u : State) : State := u.modBel (fun b =>
    { b with btime := b.btime + 4, refaAct := refa, wakes := updAll b.wakes (fun i w => w.sample (levels.getLsbD i.val)) })
theorem sample_split {levels refa} {u : State} : ∃ x y, belfrySample levels refa u = runRules (sampleValue (countFrame x y (afterLevels levels refa u)) refa) (countFrame x y (afterLevels levels refa u)) := ⟨_, _, rfl⟩
theorem after_facts {levels refa} {u : State} : SameBut [.bel, .fabric] u (afterLevels levels refa u) ∧
    (afterLevels levels refa u).bel.rules = u.bel.rules ∧ (afterLevels levels refa u).bel.btime = u.bel.btime + 4 ∧
    (afterLevels levels refa u).bel.refaAct = refa ∧ (afterLevels levels refa u).bel.wakes = updAll u.bel.wakes (fun i w =>
    w.sample (levels.getLsbD i.val)) := ⟨by (intro p hp; cases p <;> first | rfl | (exfalso; revert hp; decide)), rfl, rfl,
    rfl, rfl⟩
theorem happen_same' {src n s} : SameBut [.fabric] s (happen src n s) := by unfold happen; exact .ite (.refl _ _) (by (intro p hp; cases p <;> first | rfl | (exfalso; revert hp; decide)))
/-- No run of the measurement frame is open. -/
def notOpen (f : Mf) : Prop := ∀ r, f.state ≠ .opened r
theorem abort_one {m : Fin 16} {s : State} : SameBut [.mfs] s (match s.mfs[m].state with | .opened _ => mfAbort m s | _ => s) ∧
   (∀ j : Fin 16, j ≠ m → (match s.mfs[m].state with | .opened _ => mfAbort m s | _ => s : State).mfs[j] = s.mfs[j]) ∧
   notOpen (match s.mfs[m].state with | .opened _ => mfAbort m s | _ => s : State).mfs[m] ∧
       (match s.mfs[m].state with | .opened _ => mfAbort m s | _ => s : State).mfs[m].cfg = s.mfs[m].cfg := by
  have at_ : (mfAbort m s).mfs[m] = { s.mfs[m] with state := .idle, heldArm := false, heldRise := false, fell := none, edges := [], starts := [] } :=
      upd_same _ _ _
  cases h : s.mfs[m].state with
  | opened r =>
    refine ⟨by (intro p hp; cases p <;> first | rfl | (exfalso; revert hp; decide)), fun j hj =>
        upd_other _ _ _ _ (Ne.symm hj), ?_, ?_⟩
    · show notOpen (mfAbort m s).mfs[m]
      rw [at_]; intro r h; cases h
    · show (mfAbort m s).mfs[m].cfg = _
      rw [at_]
  | idle => exact ⟨.refl _ _, fun _ _ => rfl, (fun r k => by rw [h] at k; cases k), rfl⟩
  | armed i => exact ⟨.refl _ _, fun _ _ => rfl, (fun r k => by rw [h] at k; cases k), rfl⟩
theorem foldAbort : ∀ {l : List (Fin 16)} {s : State}, let t := foldS l (fun (m : Fin 16) s =>
    match s.mfs[m].state with | .opened _ => mfAbort m s | _ => s) s
   SameBut [.mfs] s t ∧ (∀ j : Fin 16, t.mfs[j].cfg = s.mfs[j].cfg ∧ (notOpen s.mfs[j] ∨ j ∈ l → notOpen t.mfs[j]))
  | [], s => ⟨.refl _ _, fun j => ⟨rfl, fun h => h.elim id (fun h => by cases h)⟩⟩
  | x :: xs, s => by
    obtain ⟨a, b, c, d⟩ := abort_one (m := x) (s := s)
    obtain ⟨e, f⟩ := foldAbort (l := xs) (s := match s.mfs[x].state with | .opened _ => mfAbort x s | _ => s)
    refine ⟨a.trans e, fun j => ⟨(f j).1.trans ?_, fun h => (f j).2 ?_⟩⟩
    · by_cases k : j = x
      · subst k; exact d
      · rw [b j k]
    · by_cases k : j = x
      · subst k; exact .inl c
      · rw [b j k]
        rcases h with h | h
        · exact .inl h
        · exact .inr ((List.mem_cons.mp h).resolve_left k)
theorem abortOpen_facts {s} : SameBut [.mfs] s (abortOpen s) ∧ ∀ j : Fin 16, (abortOpen s).mfs[j].cfg = s.mfs[j].cfg ∧ notOpen (abortOpen s).mfs[j] := by
  obtain ⟨a, b⟩ := foldAbort (l := List.finRange 16) (s := s)
  exact ⟨a, fun j => ⟨(b j).1, (b j).2 (.inr (List.mem_finRange j))⟩⟩
theorem dropHeld_facts {s} : SameBut [.tasks, .fabric] s (dropHeld s) ∧ (dropHeld s).fabric.held = [] := by
  unfold dropHeld
  have h : SameBut [.tasks] (s.modFabric (fun f => { f with held := [] })) (foldS s.fabric.held (fun h s => dropDelivery h.task h.sub s) (s.modFabric (fun f => { f with held := [] }))) := foldS_same (fun _ _ => by (intro p hp; cases p <;> first | rfl | (exfalso; revert hp; decide))) _ _
  refine ⟨SameBut.trans (t := s.modFabric (fun f => { f with held := [] })) (by (intro p hp; cases p <;>
      first | rfl | (exfalso; revert hp; decide))) (h.mono (by decide)), ?_⟩
  exact (congrArg Fabric.held (h .fabric (by decide) : _ = _)).trans rfl
theorem cluster_at' (s : State) (p : Fin 8) (f) : (s.modCluster p f).clusters[p] = f s.clusters[p] := upd_same _ _ _
theorem wakeCl_one {k : Fin 8} {s : State} : SameBut [.clusters, .fabric] s (wakeCluster k s) ∧ (∀ j : Fin 8, j ≠ k →
    (wakeCluster k s).clusters[j] = s.clusters[j]) ∧
   (wakeCluster k s).clusters[k] =
           { s.clusters[k] with
             state := .quarantine, phase := .powerup, powered := true, offCause := .none, fix := none, joinProv := [],
             joinAt := some .next, calTurn := true, calDone := false, short := true, window := none } := by
  unfold wakeCluster
  generalize hv : s.modCluster k _ = v
  have b : SameBut [.clusters] s v := by rw [← hv]; exact modCluster_same
  have h := happen_same' (src := evCluster k 1) (n := 1) (s := v)
  have hc : (happen (evCluster k 1) 1 v).clusters = v.clusters := h .clusters (by decide)
  refine ⟨(b.mono (by decide)).trans (h.mono (by decide)), fun j hj => ?_, ?_⟩
  · rw [hc, ← hv]; exact upd_other _ _ _ _ (Ne.symm hj)
  · rw [hc, ← hv]; exact upd_same _ _ _
/-- A cluster as the wake leaves it (R439). -/
def Woken (c0 c : Cluster) : Prop := c.state = .quarantine ∧ c.phase = .powerup ∧ c.short = true ∧ c.joinAt = some .next ∧
    c.iostd = c0.iostd
theorem foldWake (u : State) : ∀ {l : List (Fin 8)} {s : State}, (∀ k : Fin 8, s.clusters[k].iostd = u.clusters[k].iostd) →
    let t := foldS l wakeCluster s
   SameBut [.clusters, .fabric] s t ∧ (∀ k : Fin 8, (Woken u.clusters[k] s.clusters[k] ∨ k ∈ l →
       Woken u.clusters[k] t.clusters[k]) ∧ (k ∉ l → t.clusters[k] = s.clusters[k]))
  | [], s, _ => ⟨.refl _ _, fun k => ⟨fun h => h.elim id (fun h => by cases h), fun _ => rfl⟩⟩
  | x :: xs, s, io => by
    obtain ⟨a, b, c⟩ := wakeCl_one (k := x) (s := s)
    have wx : Woken u.clusters[x] (wakeCluster x s).clusters[x] := by rw [c]; exact ⟨rfl, rfl, rfl, rfl, io x⟩
    obtain ⟨e, f⟩ := foldWake u (l := xs) (s := wakeCluster x s) (fun k => by
      by_cases h : k = x
      · subst h; exact wx.2.2.2.2
      · rw [b k h]; exact io k)
    refine ⟨a.trans e, fun k => ⟨fun h => (f k).1 ?_, fun h => ?_⟩⟩
    · by_cases j : k = x
      · subst j; exact .inl wx
      · rw [b k j]
        rcases h with h | h
        · exact .inl h
        · exact .inr ((List.mem_cons.mp h).resolve_left j)
    · rw [List.mem_cons, not_or] at h
      exact ((f k).2 h.2).trans (b k h.1)
theorem wakeAcquire_facts {s} : SameBut [.tb] s (wakeAcquire s) ∧ (wakeAcquire s).tb.now = s.tb.now := by
  unfold wakeAcquire acquireNext
  split
  · split <;> exact ⟨by (intro p hp; cases p <;> first | rfl | (exfalso; revert hp; decide)), rfl⟩
  · exact ⟨by (intro p hp; cases p <;> first | rfl | (exfalso; revert hp; decide)), rfl⟩
theorem map_at {α β : Type} {n : Nat} (v : Vector α n) (f : α → β) (i : Fin n) : (v.map f)[i] = f v[i] := by simp
theorem hand_lost {u : State} {n gen a} (h1 : u.bel.step = .frame n gen) (h2 : u.bel.axis = some a) (h3 :
    u.axes[a].state ≠ .confirmed ∨ u.axes[a].gen ≠ gen) : sleepFrameHandover u = u.modBel (fun b => { b with step := .flush u.tb.now }) := by
  unfold sleepFrameHandover
  rw [h1, h2]
  dsimp only
  cases hs : u.axes[a].state with
  | confirmed =>
    cases u.axes[a].anchor with
    | none => rfl
    | some _ => exact if_pos (h3.resolve_left (fun k => k hs))
  | _ => cases u.axes[a].anchor <;> rfl
theorem hand_eq {u : State} {n gen a an} (h1 : u.bel.step = .frame n gen) (h2 : u.bel.axis = some a) (h3 :
    u.axes[a].state = .confirmed) (h4 : u.axes[a].anchor = some an) (h5 : u.axes[a].gen = gen) :
   sleepFrameHandover u = if decide (0 ≤ fdiff an.n (n + 1)) && tnotBefore u.tb.now (tadd (predictFrom an u.axes[a].period (n + 1)) (u.axes[a].period / 131072)) then u.modBel (fun b => { b with counter := some (n + 1), step := .flush u.tb.now }) else u := by
  unfold sleepFrameHandover
  rw [h1, h2]
  dsimp only
  rw [h3, h4]
  dsimp only
  rw [if_neg (by rw [h5]; exact fun k => k rfl)]
  rfl
theorem kept_eq {u : State} {a n t rest} (h1 : u.bel.axis = some a) (h2 : u.bel.counter = some n) (h3 :
    u.axes[a].state = .reacquire) (h4 : u.axes[a].anchor = none) (h5 : u.axes[a].pendIdx = t :: rest) :
   keptAxisAnchor u = if tnotBefore u.cycle (tadd t 50000000) then raiseAxis a 0 ((u.modBel (fun b => { b with keptFrame := some n, counter := none })).modAxis a (fun x => { x with anchor := some ⟨t, n, true⟩, misses := 0, lastTaken := some t, pendIdx := rest })) else u := by
  unfold keptAxisAnchor
  rw [h1, h2]
  dsimp only
  rw [h3, h4, h5]
  rfl
theorem flush_over {u : State} {since} (h1 : u.bel.step = .flush since) (h2 : u.fifo.records = 0 ∨ u.tb.running = false ∨
    tnotBefore u.tb.now (tadd since u.bel.flushWait) = true) :
   let w := sleepFlushEnd u
   w.bel.step = .flushed ∧ w.bel.flushDrops = u.fifo.records ∧
        w.sp.link = .down ∧ w.sp.enable = u.sp.enable ∧ w.steward.queue = [] ∧ w.con.standardQ = [] ∧ w.hspi.standardQ = [] ∧
            w.spi.attnLow = false := by
  intro w
  have hw : w = sleepFlushEnd u := rfl
  clear_value w
  unfold sleepFlushEnd at hw
  rw [h1] at hw
  dsimp only at hw
  rw [if_pos (by simp only [Bool.or_eq_true, decide_eq_true_eq, Bool.not_eq_true']; rcases h2 with h | h | h; exact .inl (.inl h); exact .inl (.inr h); exact .inr h)] at hw
  have l : (linkDown u).sp.enable = u.sp.enable := linkDown_sp.1
  generalize linkDown u = v at *
  rw [hw]
  exact ⟨rfl, rfl, rfl, l, rfl, rfl, rfl, rfl⟩
theorem powerdown_facts {u : State} (h : u.bel.step = .flushed) : let w := sleepPowerdown u; let b := u.bel
      w.bel.step = (if b.wakeDuringEntry.isSome then .waking else .asleep) ∧
      (∀ n, b.wakeDuringEntry = some n → w.bel.wakeCount = b.wakeCount + 1 ∧ w.bel.wakeRule = some n) ∧
      w.bel.readyHigh = false ∧ w.tb = { u.tb with
        running := false, state := .acquire, clkSrc := .ring, job := .idle, lockTicks := 0, phase := 0 } ∧
      (∀ p : Fin 64, let q := w.ports[p]; q.cfg = u.ports[p].cfg ∧ q.table = none ∧ q.queue = [] ∧ q.buffer = [] ∧ q.seq = 0) ∧
      (∀ k : Fin 8, let c := w.clusters[k]; c.state = .off ∧ c.powered = false ∧ c.vddio = .none ∧
        c.epoch = u.clusters[k].epoch ∧ c.iostd = u.clusters[k].iostd) ∧
      (∀ g : Fin 8, w.groups[g].live = false ∧ w.groups[g].program = u.groups[g].program) ∧
      w.store.segs = u.store.segs.map (fun x => if b.segRetain then x else { x with written := [] }) ∧
      SameBut [.tb, .ports, .clusters, .mfs, .tasks, .groups, .ags, .trgs, .store, .fabric, .fifo, .sp, .con, .hspi, .spi, .cal,
        .sync, .steward, .bel] u w := by
  intro w b
  have hw : w = sleepPowerdown u := rfl
  clear_value w
  unfold sleepPowerdown at hw
  rw [h] at hw
  dsimp only at hw
  obtain ⟨d1, d2⟩ := dropHeld_facts (s := u)
  have e1 : (dropHeld u).bel = u.bel := d1 .bel (by decide)
  have e2 : (dropHeld u).ports = u.ports := d1 .ports (by decide)
  have e3 : (dropHeld u).clusters = u.clusters := d1 .clusters (by decide)
  have e4 : (dropHeld u).groups = u.groups := d1 .groups (by decide)
  have e5 : (dropHeld u).store = u.store := d1 .store (by decide)
  have e6 : (dropHeld u).tb = u.tb := d1 .tb (by decide)
  have e7 : (dropHeld u).axes = u.axes := d1 .axes (by decide)
  have e8 : (dropHeld u).markers = u.markers := d1 .markers (by decide)
  have e9 : (dropHeld u).console = u.console := d1 .console (by decide)
  have e10 : (dropHeld u).boot = u.boot := d1 .boot (by decide)
  have e11 : (dropHeld u).sysEcc = u.sysEcc := d1 .sysEcc (by decide)
  have e12 : (dropHeld u).pending = u.pending := d1 .pending (by decide)
  clear d1 d2
  generalize dropHeld u = v at *
  rw [e1, e2, e3, e4, e5, e6] at hw
  have hb : w.bel = (match u.bel.wakeDuringEntry with
      | some n => beginWake n { u.bel with step := .asleep, sleptFrom := u.bel.btime, readyHigh := false, entryAt := none, log := u.bel.log.map LogEntry.untimed, wakeDuringEntry := none }
      | none => { u.bel with step := .asleep, sleptFrom := u.bel.btime, readyHigh := false, entryAt := none, log := u.bel.log.map LogEntry.untimed }) := by rw [hw]; first | done | (dsimp only; cases u.bel.wakeDuringEntry <;> rfl)
  have hp : w.ports = u.ports.map Port.sleep := by rw [hw]
  have hc : w.clusters = u.clusters.map Cluster.sleep := by rw [hw]
  have hg : w.groups = u.groups.map Group.sleep := by rw [hw]
  have hs : w.store.segs = u.store.segs.map (Segment.sleep u.bel.segRetain) := by rw [hw]
  have ht : w.tb = { u.tb with running := false, state := .acquire, clkSrc := .ring, job := .idle, lockTicks := 0, phase := 0 } := by rw [hw]
  refine ⟨?_, fun n hn => ?_, ?_, ht, fun p => ?_, fun k => ?_, fun g => ?_, ?_, ?_⟩
  · rw [hb]; show _ = if u.bel.wakeDuringEntry.isSome = true then _ else _
    cases u.bel.wakeDuringEntry <;> rfl
  · rw [hb, show u.bel.wakeDuringEntry = some n from hn]; exact ⟨rfl, rfl⟩
  · rw [hb]; cases u.bel.wakeDuringEntry <;> rfl
  · have : w.ports[p] = Port.sleep u.ports[p] := by rw [hp]; exact map_at _ _ _
    rw [this]; exact ⟨rfl, rfl, rfl, rfl, rfl⟩
  · have : w.clusters[k] = Cluster.sleep u.clusters[k] := by rw [hc]; exact map_at _ _ _
    rw [this]; exact ⟨rfl, rfl, rfl, rfl, rfl⟩
  · have : w.groups[g] = Group.sleep u.groups[g] := by rw [hg]; exact map_at _ _ _
    rw [this]
    unfold Group.sleep
    split
    · exact ⟨rfl, rfl⟩
    · rename_i h; exact ⟨(Bool.not_eq_true _).mp h, rfl⟩
  · rw [hs]; rfl
  · intro p hp
    cases p <;> first | (exfalso; revert hp; decide) | (rw [hw]; first | exact e7 | exact e8 | exact e9 | exact e10 | exact e11 | exact e12)

end Sys2Proof.Machine
end

