-- ==== Sys2Proof/Laws/Sync.lean ====
section
/-! SUPPORT. What the train, the return pulse, the tracking and the step of the time-transfer port do. -/
namespace Sys2Proof.Machine
open Sys2Proof

/-- The parts that a restart of the axes may change. -/
abbrev axParts : List Part := [.axes, .clusters, .ports, .mfs, .fabric, .tasks, .groups, .ags, .con, .hspi, .sp, .fifo]
/-- What a restart of the axes leaves alone is the same in two states. -/
abbrev TS (s t : State) : Prop := SameBut axParts s t
theorem TS.tb {s t} (h : TS s t) : t.tb = s.tb := h .tb (by decide)
theorem TS.sync {s t} (h : TS s t) : t.sync = s.sync := h .sync (by decide)
theorem TS.refl (s) : TS s s := SameBut.refl _ _
theorem TS.trans {s t u} (h : TS s t) (k : TS t u) : TS s u := SameBut.trans h k
theorem TS.ite {s t u} {c : Prop} [Decidable c] (ht : TS s t) (hu : TS s u) : TS s (if c then t else u) := by split <;>
    assumption
theorem TS.of {ps s t} (h : SameBut ps s t) (hn : ∀ p ∈ ps, p ∈ axParts := by decide) : TS s t := h.mono hn
theorem foldTS {α} {f : α → State → State} (h : ∀ a s, TS s (f a s)) (xs : List α) (s : State) : TS s (foldS xs f s) := by
  unfold foldS
  induction xs generalizing s with
  | nil => exact .refl _
  | cons x xs ih => exact (h x s).trans (ih (f x s))
theorem eachTS {n} {f : Fin n → State → State} (h : ∀ a s, TS s (f a s)) (s : State) : TS s (eachFin n f s) := foldTS h _ s
theorem raise_ts {src fl s} : TS s (raise src fl s) := .of raise_same
theorem TS.port {s p f} : TS s (s.modPort p f) := (by intro p hp; cases p <;> first | rfl | (exfalso; revert hp; decide))
theorem TS.cl {s k f} : TS s (s.modCluster k f) := (by intro p hp; cases p <;> first | rfl | (exfalso; revert hp; decide))
theorem TS.ax {s k f} : TS s (s.modAxis k f) := (by intro p hp; cases p <;> first | rfl | (exfalso; revert hp; decide))
theorem TS.gr {s k f} : TS s (s.modGroup k f) := (by intro p hp; cases p <;> first | rfl | (exfalso; revert hp; decide))
theorem missAt_ts {p c fl s} : TS s (missAt p c fl s) := .of missAt_same
theorem retracted_ts {a n s} : TS s (retracted a n s) := by
  unfold retracted
  refine .ite (.refl _) ?_
  dsimp only
  exact .ite (TS.ax.trans raise_ts) TS.ax
theorem retractPulse_ts {p x b s} : TS s (retractPulse p x b s) := by
  unfold retractPulse
  extract_lets s1 s2
  have h1 : TS s s1 := TS.trans (t := dropPulse p x s) TS.port TS.cl
  have h2 : TS s s2 := by
    refine h1.trans ?_
    show TS s1 (match x.axisFrame with | some (a, _, _) => retracted a 1 s1 | none => s1)
    split
    · exact retracted_ts
    · exact .refl _
  exact .ite (h2.trans missAt_ts) h2
theorem retractSome_ts {a sel s} : TS s (retractSome a sel s) := by
  unfold retractSome
  refine TS.trans (TS.trans (eachTS (fun p s => ?_) _) (eachTS (fun k s => ?_) _)) (eachTS (fun g s => ?_) _)
  · extract_lets c xs s1
    have h : TS s s1 := foldTS (fun _ _ => retractPulse_ts) _ _
    split
    · exact .ite ((h.trans TS.port).trans retracted_ts) h
    · exact h
  · split
    · exact .ite (TS.cl.trans retracted_ts) (.refl _)
    · exact .refl _
  · split
    · exact .ite (TS.gr.trans retracted_ts) (.refl _)
    · exact .refl _
theorem retractEdges_ts {a sel s} : TS s (retractEdges a sel s) := retractSome_ts
theorem haltAligned_ts {a s} : TS s (haltAligned a s) := by
  refine eachTS (fun g s => ?_) _
  split
  · exact .ite (.of haltGroup_same) (.refl _)
  · exact .refl _
theorem formHeld_ts {p h s} : TS s (formHeld p h s) := by
  unfold formHeld formStamp
  extract_lets shifted keep fl s1
  have h1 : TS s s1 := .ite (by intro p hp; cases p <;> first | rfl | (exfalso; revert hp; decide)) (.refl _)
  clear_value s1
  exact h1.trans (TS.port.trans (.of raisePortAt_same))
theorem releaseHeld_ts {p s} : TS s (releaseHeld p s) := TS.port.trans (foldTS (fun _ _ => formHeld_ts) _ _)
theorem mfResult_ts {m x s} : TS s (mfResult m x s) := by
  unfold mfResult
  extract_lets _ _ _ _ _ r _ s1
  exact .ite (by intro p hp; cases p <;> first | rfl | (exfalso; revert hp; decide)) (by intro p hp; cases p <;> first | rfl | (exfalso; revert hp; decide))
theorem mfForm_ts {m s} : TS s (mfForm m s) := by
  unfold mfForm
  extract_lets runs s'
  exact TS.trans (t := s') (by intro p hp; cases p <;> first | rfl | (exfalso; revert hp; decide)) (foldTS (fun _ _ => mfResult_ts) _ _)
theorem releaseDelivery_ts {d s} : TS s (releaseDelivery d s) := by
  unfold releaseDelivery
  exact .ite (by intro p hp; cases p <;> first | rfl | (exfalso; revert hp; decide)) (.ite (by intro p hp; cases p <;> first | rfl | (exfalso; revert hp; decide)) (.ite (by intro p hp; cases p <;> first | rfl | (exfalso; revert hp; decide)) (by intro p hp; cases p <;> first | rfl | (exfalso; revert hp; decide))))
theorem release_ts {s} : TS s (release s) := by
  unfold release
  refine TS.trans (t := eachFin 16 mfForm (eachFin 64 releaseHeld s)) (TS.trans (t := eachFin 64 releaseHeld s)
      (eachTS (fun _ _ => releaseHeld_ts) _) (eachTS (fun _ _ => mfForm_ts) _)) ?_
  unfold releaseDeliveries
  generalize eachFin 16 mfForm (eachFin 64 releaseHeld s) = v
  exact TS.trans (t := v.modFabric (fun f => { f with held := [] })) (by intro p hp; cases p <;> first | rfl | (exfalso; revert hp; decide)) (foldTS (fun _ _ => releaseDelivery_ts) _ _)
theorem resolveWaiting_ts {a s} : TS s (resolveWaiting a s) := by
  unfold resolveWaiting
  refine .ite (.refl _) ?_
  extract_lets s1
  have h1 : TS s s1 := eachTS (fun k s => by
    dsimp only
    split
    · exact .ite TS.cl (.refl _)
    · exact .refl _) _
  refine h1.trans (eachTS (fun g s => ?_) _)
  split
  · split
    · split
      · exact .of haltGroup_same
      · exact .refl _
      · exact TS.gr
    · exact .refl _
  · exact .refl _
theorem restart_end {a s1 s3} (h : TS s1 s3) : TS s1 (resolveWaiting a (release (haltAligned a s3))) := by
  have k1 : TS s3 (haltAligned a s3) := haltAligned_ts
  generalize haltAligned a s3 = v at *
  have k2 : TS v (release v) := release_ts
  generalize release v = w at *
  have k3 : TS w (resolveWaiting a w) := resolveWaiting_ts
  exact ((h.trans k1).trans k2).trans k3
theorem restart_mid {a} {v : State} {f : Axis → Axis} {c : State → Prop} [∀ s, Decidable (c s)] :
    TS v (resolveWaiting a (release (haltAligned a (if c (v.modAxis a f) then raiseAxis a 1 (v.modAxis a f) else v.modAxis a f)))) := by
  apply restart_end
  have h2 : TS v (v.modAxis a f) := TS.ax
  generalize v.modAxis a f = w at *
  exact h2.trans (.ite raise_ts (.refl _))
theorem restartAxis_ts {a s} : TS s (restartAxis a s) := by
  have h1 : TS s (retractEdges a (fun _ => true) s) := retractEdges_ts
  unfold restartAxis
  generalize retractEdges a (fun _ => true) s = v at *
  exact h1.trans (restart_mid (c := fun s => s.axes[a].state = .confirmed))
/-- An axis as a restart leaves it (R187). -/
def restartAx (now : TimeWord) (x : Axis) : Axis :=
  { newNumbering x with
    state := if x.cfg.mode = .free then .confirmed else .acquire,
    anchor := if x.cfg.mode = .free then freeAnchor x now else none,
    period := (x.cfg.period * periodOne : Nat), pendIdx := [], pendCnt := [], count := 0 }
theorem restart_aw {a} {s : State} : AW a (restartAx s.tb.now s.axes[a]) s (restartAxis a s) := by
  have h0 : AV s (retractEdges a (fun _ => true) s) := retractEdges_av
  have e0 : (retractEdges a (fun _ => true) s).tb = s.tb := retractEdges_ts.tb
  unfold restartAxis
  generalize retractEdges a (fun _ => true) s = v at *
  extract_lets s1 s2 s3
  have h2 : AW a (restartAx s.tb.now s.axes[a]) s s2 := by
    have e : s2 = v.modAxis a (restartAx s.tb.now) := by
      show v.modAxis a (restartAx v.tb.now) = _
      rw [e0]
    rw [e]
    refine AV.modAfter h0 (fun x z h => ?_)
    obtain ⟨r, c, rfl⟩ := eq_av h
    rfl
  clear_value s2
  have h3 : AW a (restartAx s.tb.now s.axes[a]) s s3 := h2.then (.ite raiseAxis_av (.refl _))
  exact ((h3.then haltAligned_av).then release_av).then resolveWaiting_av
theorem deferScheduled_ts {p o x n s} : TS s (deferScheduled p o x n s) := by
  have h : TS s (deferPulse p o x n s).1 := TS.port.trans (foldTS (fun _ _ => missAt_ts) _ _)
  exact .ite h (h.trans TS.cl)
theorem meetBound_ts {p x} : ∀ fuel s, TS s (meetBound p x fuel s)
  | 0, s => TS.port
  | fuel + 1, s => by
    unfold meetBound
    dsimp only
    split
    · exact TS.port
    · split
      · exact TS.port
      · refine .ite (retractPulse_ts.trans (meetBound_ts fuel _)) ?_
        refine TS.trans ?_ (TS.cl.trans missAt_ts)
        split
        · exact retracted_ts
        · exact .refl _
theorem settlePulse_ts {p x s} : TS s (settlePulse p x s) := by
  unfold settlePulse
  split
  · exact TS.port
  · split
    · exact .ite deferScheduled_ts (TS.cl.trans missAt_ts)
    · exact meetBound_ts _ _
theorem placeAll_ts {p b xs s} : TS s (placeAll p b xs s) := by
  unfold placeAll
  refine foldTS (fun x s => .ite ?_ settlePulse_ts) _ _
  dsimp only
  refine TS.trans ?_ (TS.cl.trans missAt_ts)
  split
  · exact retracted_ts
  · exact .refl _
theorem rePlace_ts {p b f g s} : TS s (rePlace p b f g s) := by
  unfold rePlace
  exact .ite (.refl _) (TS.port.trans placeAll_ts)
theorem bindFrame_ts {a n b t f s} : TS s (bindFrame a n b t f s) := by
  unfold bindFrame
  dsimp only
  refine TS.trans (TS.trans (eachTS (fun p s => ?_) _) (eachTS (fun k s => ?_) _)) (eachTS (fun g s => ?_) _)
  · split
    · refine .ite (.ite ?_ ?_) rePlace_ts
      · exact ((rePlace_ts.trans TS.port).trans retracted_ts).trans missAt_ts
      · exact rePlace_ts.trans TS.port
    · exact rePlace_ts
  · split
    · exact .ite (.ite (TS.cl.trans retracted_ts) TS.cl) (.refl _)
    · exact .refl _
  · split
    · exact .ite (.ite TS.gr (.ite (TS.gr.trans retracted_ts) TS.gr)) (.refl _)
    · exact .refl _
/-- R555: what a write of RUNAHEAD does to the other axes and to what is not its edges. -/
theorem unbindAll_ts {a s} : TS s (unbindAll a s) := by
  unfold unbindAll
  split
  · exact TS.trans (TS.trans (eachTS (fun _ _ => TS.port) _) (eachTS (fun _ _ => TS.cl) _)) (eachTS (fun _ _ => TS.gr) _)
  · exact .refl _
theorem runAheadOn_ts {a s} : TS s (runAheadOn a s) := by
  unfold runAheadOn
  dsimp only
  split
  · refine foldTS (fun n s => ?_) _ _
    split
    · exact bindFrame_ts
    · exact .refl _
  · exact .refl _
theorem runAheadOn_av {a s} : AV s (runAheadOn a s) := by
  unfold runAheadOn
  dsimp only
  split
  · refine foldAV (fun n s => ?_) _ _
    split
    · exact bindFrame_av
    · exact .refl _
  · exact .refl _
theorem runAheadOn_plain {a} {s : State} (h : s.axes[a].cfg.mode ≠ .frame ∨ s.axes[a].state ≠ .confirmed ∨ s.axes[a].anchor = none) :
    runAheadOn a s = s := by
  unfold runAheadOn
  dsimp only
  split
  · next h1 h2 h3 => exact (h.elim (fun k => k h1) (fun k => k.elim (fun k => k h2) (fun k => by rw [k] at h3; cases h3))).elim
  · rfl
theorem unbindAll_plain {a} {s : State} (h : s.axes[a].cfg.mode ≠ .frame ∨ s.axes[a].anchor = none) : unbindAll a s = s := by
  unfold unbindAll
  split
  · next h1 h2 => exact (h.elim (fun k => k h1) (fun k => by rw [k] at h2; cases h2)).elim
  · rfl
theorem unbindAll_same {a s} : SameBut [.ports, .clusters, .groups] s (unbindAll a s) := by
  unfold unbindAll
  split
  · exact ((foldS_same (fun _ _ => modPort_same.mono (by decide)) _ _).trans (foldS_same (fun _ _ =>
      modCluster_same.mono (by decide)) _ _)).trans (foldS_same (fun _ _ => modGroup_same.mono (by decide)) _ _)
  · exact .refl _ _
theorem each_port {f : Fin 64 → Port → Port} {s : State} (p : Fin 64) :
    (eachFin 64 (fun p s => s.modPort p (f p)) s).ports[p] = f p s.ports[p] := by
  have key : ∀ (xs : List (Fin 64)) (s : State), xs.Nodup → (foldS xs (fun p s => s.modPort p (f p)) s).ports[p] =
      if p ∈ xs then f p s.ports[p] else s.ports[p] := by
    intro xs
    induction xs with
    | nil => intro s _; rfl
    | cons x xs ih =>
      intro s nd
      rw [List.nodup_cons] at nd
      have e : foldS (x :: xs) (fun p s => s.modPort p (f p)) s = foldS xs (fun p s => s.modPort p (f p)) (s.modPort x (f x)) := rfl
      rw [e, ih _ nd.2]
      by_cases h : p = x
      · subst h
        rw [if_neg nd.1, if_pos (List.mem_cons_self ..)]; exact port_at _ _ _
      · rw [port_other _ _ _ _ h]
        by_cases k : p ∈ xs
        · rw [if_pos k, if_pos (List.mem_cons_of_mem _ k)]
        · rw [if_neg k, if_neg (by rw [List.mem_cons]; exact fun c => c.elim h k)]
  unfold eachFin
  rw [key _ _ (by decide), if_pos (List.mem_finRange p)]
/-- R555: what becomes of the pulses of a port when RUNAHEAD goes OFF on a FRAME axis. -/
theorem unbindAll_queue {a an} {s : State} (h1 : s.axes[a].cfg.mode = .frame) (h2 : s.axes[a].anchor = some an) (p : Fin 64) :
    (unbindAll a s).ports[p].queue = s.ports[p].queue.map (unbindPulse a an.n s.cycle) := by
  unfold unbindAll
  rw [h1, h2]
  dsimp only
  generalize hv : eachFin 64 _ s = v
  have e1 : (eachFin 8 (fun k s => s.modCluster k (fun cl => { cl with fix := cl.fix.map (unbindJoin a an.n) })) v).ports = v.ports :=
    foldS_same (ps := [.clusters]) (fun _ _ => modCluster_same) _ _ .ports (by decide)
  generalize eachFin 8 (fun k s => s.modCluster k (fun cl => { cl with fix := cl.fix.map (unbindJoin a an.n) })) v = w at *
  have e2 : (eachFin 8 (fun g s => s.modGroup g (fun x => { x with waiting := x.waiting.map (unbindAlign a an.n) })) w).ports = w.ports :=
    foldS_same (ps := [.groups]) (fun _ _ => modGroup_same) _ _ .ports (by decide)
  rw [e2, e1, ← hv, each_port]
theorem flushFence_ts {s} : TS s (flushFence s) := by
  unfold flushFence
  extract_lets t fits r s1
  have h : TS s s1 := TS.trans (t := { s with fifo := r.1 }) (by intro p hp; cases p <;> first | rfl | (exfalso; revert hp; decide)) (TS.of (overflowStarted_same (r := ({ s with fifo :=
      r.1 }, r.2))))
  exact .ite (h.trans (by intro p hp; cases p <;> first | rfl | (exfalso; revert hp; decide))) h
theorem startAligns_ts {s} : TS s (startAligns s) := by unfold startAligns; exact .ite (.refl _) (by intro p hp; cases p <;> first | rfl | (exfalso; revert hp; decide))
theorem abort_ts {s} : TS s (abortOpen s) := by
  refine eachTS (fun m s => ?_) _
  split
  · exact (by intro p hp; cases p <;> first | rfl | (exfalso; revert hp; decide))
  · exact .refl _
/-- The end of a step (R451). -/
def stepTail (now : TimeWord) (z : State) : State := startAligns (z.modSync (fun y =>
      { y with steps := y.steps + 1, state := .locked, r := 0, frac := 0, sum := 0, n := 0, rejected := 0, lastPass := now,
               rise := none, msg := none, values := [], s := y.nextAfter now }))
/-- A step after the shift of the time word. -/
def stepMid (x : State) : State := stepTail x.tb.now (flushFence (eachFin 4 restartAxis x))
/-- A step after the open frames are aborted. -/
def stepFrom (v : State) : State := stepMid (v.shift v.sync.offset)
theorem syncStep_eq {u : State} (h1 : u.stepFree = true) (h2 : u.tb.running = true) : syncStep u = stepFrom (abortOpen u) := by
  unfold syncStep
  rw [if_neg (by rw [h1, h2]; decide)]
  rfl
theorem tail_ts {n z} : let w := stepTail n z
   w.tb.now = z.tb.now ∧ w.sync.state = .locked ∧ w.sync.steps = z.sync.steps + 1 ∧ w.sync.r = 0 ∧ w.sync.sum = 0 ∧
       w.sync.n = 0 ∧ w.sync.role = z.sync.role := by
  intro w
  have hw : w = stepTail n z := rfl
  clear_value w
  unfold stepTail at hw
  have e := startAligns_ts (s := z.modSync (fun y =>
      { y with steps := y.steps + 1, state := .locked, r := 0, frac := 0, sum := 0, n := 0, rejected := 0, lastPass := n,
               rise := none, msg := none, values := [], s := y.nextAfter n }))
  rw [hw, e.tb, e.sync]
  exact ⟨rfl, rfl, rfl, rfl, rfl, rfl, rfl⟩
theorem mid_ts {x} : let w := stepMid x
   w.tb.now = x.tb.now ∧ w.sync.state = .locked ∧ w.sync.steps = x.sync.steps + 1 ∧ w.sync.r = 0 ∧ w.sync.sum = 0 ∧
       w.sync.n = 0 ∧ w.sync.role = x.sync.role := by
  have a : TS x (eachFin 4 restartAxis x) := eachTS (fun _ _ => restartAxis_ts) _
  unfold stepMid
  generalize eachFin 4 restartAxis x = z at *
  have b : TS z (flushFence z) := flushFence_ts
  generalize flushFence z = q at *
  have c := tail_ts (n := x.tb.now) (z := q)
  rw [(a.trans b).tb, (a.trans b).sync] at c
  exact c
theorem step_facts {u : State} (h1 : u.stepFree = true) (h2 : u.tb.running = true) : let w := syncStep u; let y := u.sync
   w.tb.now = tadd u.tb.now y.offset ∧ w.sync.state = .locked ∧ w.sync.steps = y.steps + 1 ∧ w.sync.r = 0 ∧ w.sync.sum = 0 ∧
       w.sync.n = 0 ∧ w.sync.role = y.role := by
  rw [syncStep_eq h1 h2]
  have a := abort_ts (s := u)
  generalize abortOpen u = v at *
  have b1 : (v.shift v.sync.offset).tb.now = tadd v.tb.now v.sync.offset := rfl
  have b2 : (v.shift v.sync.offset).sync = v.sync := rfl
  unfold stepFrom
  generalize v.shift v.sync.offset = x at *
  have c := mid_ts (x := x)
  rw [b1, b2, a.tb, a.sync] at c
  exact c
theorem axisIndex_same {src sense t b s} : SameBut [.axes] s (axisIndex src sense t b s) := foldS_same (fun a s =>
    by dsimp only; exact .ite (by (intro p hp; cases p <;> first | rfl | (exfalso; revert hp; decide))) (.refl _ _)) _ _
theorem axisCount_same {src sense t b s} : SameBut [.axes] s (axisCount src sense t b s) := foldS_same (fun a s =>
    by dsimp only; exact .ite (by (intro p hp; cases p <;> first | rfl | (exfalso; revert hp; decide))) (.refl _ _)) _ _
/-- R183, R448: what an edge on SYNCIN reaches. -/
theorem edge_facts {u : State} {falling t} (h1 : u.tb.started = true) (h2 : tnotBefore u.tb.now t = true) :
   SameBut [.axes, .sync] u (syncEdge falling t u) ∧ (syncEdge falling t u).sync =
       if u.sync.role = .follower then (if falling then followFall t u.sync else followRise t u.sync) else u.sync := by
  unfold syncEdge
  rw [if_neg (by rw [h1, h2]; decide)]
  extract_lets sense s1 s2
  have h : SameBut [.axes] u s2 := axisIndex_same.trans axisCount_same
  have e : s2.sync = u.sync := h .sync (by decide)
  clear_value s2
  split
  · rename_i k
    refine ⟨(h.mono (by decide)).trans (by (intro p hp; cases p <;> first | rfl | (exfalso; revert hp; decide))), ?_⟩
    rw [← e, if_pos k]
    cases falling <;> rfl
  · rename_i k
    refine ⟨h.mono (by decide), ?_⟩
    rw [e, if_neg (by rw [← e]; exact k)]
theorem decode_idle {rise w expected y} (h1 : y.msg = none) (h2 : readWidth w ≠ .start) : decodePulse rise w expected y = y :=
    by
  unfold decodePulse
  extract_lets b
  rw [h1]
  show (if _ then _ else _) = _
  rw [if_neg h2]
  cases y; cases h1; rfl
theorem spell_aux (w : TimeWord) : ∀ k, k ≤ 64 → ((List.range k).map (fun i => w.getLsbD (63 - i))).foldl (fun n b =>
    2 * n + (if b then 1 else 0)) 0 = w.toNat / 2 ^ (64 - k)
  | 0, _ => by
    simp only [List.range_zero, List.map_nil, List.foldl_nil]
    exact (Nat.div_eq_of_lt w.isLt).symm
  | k + 1, h => by
    rw [List.range_succ, List.map_append, List.foldl_append, spell_aux w k (by omega)]
    simp only [List.map_cons, List.map_nil, List.foldl_cons, List.foldl_nil]
    have e : 64 - k = (64 - (k + 1)) + 1 := by omega
    have e2 : 63 - k = 64 - (k + 1) := by omega
    rw [e, e2, Nat.pow_succ, ← Nat.div_div_eq_div_mul]
    generalize 64 - (k + 1) = j
    have hb : w.getLsbD j = decide (w.toNat / 2 ^ j % 2 = 1) := by
      show Nat.testBit w.toNat j = _
      rw [Nat.testBit_eq_decide_div_mod_eq]
    rw [hb]
    generalize w.toNat / 2 ^ j = m
    by_cases c : m % 2 = 1
    · simp only [c, decide_true, if_true]; omega
    · simp only [c, decide_false]; simp; omega
theorem spell_word (w : TimeWord) : spell ((List.range 64).map (fun i => w.getLsbD (63 - i))) = w := by
  unfold spell
  rw [spell_aux w 64 (Nat.le_refl _)]
  simp
theorem train_eq {y : Sync} {t : Train} : trainPulse y t = ({ t with k := t.k + 1, word := if t.k % 65 = 0 then tadd t.g (t.k * y.period) else t.word }, if t.k % 65 = 0 then 3000000 else if t.word.getLsbD (64 - t.k % 65) then 2000000 else 1000000) := by
  unfold trainPulse
  dsimp only
  by_cases h : t.k % 65 = 0
  · rw [if_pos h, if_pos h, if_pos h]; rfl
  · rw [if_neg h, if_neg h, if_neg h]
/-- R452, R453: the slew of a fabric cycle. -/
theorem slew_eq {u : State} (h1 : u.sync.r ≠ 0) (h2 : u.sync.state = .locked ∨ u.sync.state = .hold) (h3 : u.tb.running = true)
    (h4 : u.sync.slewed ≠ some u.cycleTick) : slew u = (
      let f := u.sync.frac + u.sync.slew * 16000
      let move := min (f / 1000000000) u.sync.r.natAbs
      let m : Int := if u.sync.r < 0 then -(move : Int) else move
      (u.modSync (fun y => { y with r := u.sync.r - m, frac :=
          if u.sync.r - m = 0 then 0 else f % 1000000000, slewed := some u.cycleTick })).modTb (fun t =>
            { t with now := tadd t.now m })) := by
  unfold slew
  dsimp only
  rw [if_neg (by rcases h2 with h2 | h2 <;> rw [h2, h3] <;> simp [h1, h4])]
theorem pulse_eq {u : State} {t : Train} (h1 : u.sync.role = .leader) (h2 : u.sync.train = some t) (h3 : u.tbLocked = true)
    (h4 : tnotBefore u.tb.now (tadd t.g (t.k * u.sync.period)) = true) :
   sendPulse u = u.modSync (fun y => putPulse (tadd t.g (t.k * u.sync.period)) (trainPulse u.sync t).2 { y with train := some (trainPulse u.sync t).1 }) := by
  unfold sendPulse
  rw [h1, h2]
  dsimp only
  rw [if_pos (by rw [h3]; exact h4)]
  rfl
theorem track_in {t} {y : Sync} (h : (tdiff (tadd y.s y.delay) t - y.r).natAbs ≤ y.catchTu) :
    (track t y).s = tadd y.s y.period ∧ (track t y).msg = y.msg ∧ (track t y).rejected = 0 ∧ (track t y).lastPass = t ∧
    (track t y).state = y.state ∧ (track t y).errs = y.errs ∧
     (y.n + 1 < y.avg → (track t y).sum = y.sum + (tdiff (tadd y.s y.delay) t - y.r) ∧ (track t y).n = y.n + 1 ∧
         (track t y).r = y.r) ∧
     (y.avg ≤ y.n + 1 → (track t y).error = divEven (y.sum + (tdiff (tadd y.s y.delay) t - y.r)) (max 1 (y.n + 1)) ∧
         (track t y).r = y.r + (track t y).error ∧ (track t y).sum = 0 ∧ (track t y).n = 0) := by
  unfold track
  dsimp only
  rw [if_neg (Nat.not_lt.mpr h)]
  by_cases c : y.avg ≤ y.n + 1
  · rw [if_pos c]
    exact ⟨rfl, rfl, rfl, rfl, rfl, rfl, fun k => absurd k (Nat.not_lt.mpr c), fun _ => ⟨rfl, rfl, rfl, rfl⟩⟩
  · rw [if_neg c]
    exact ⟨rfl, rfl, rfl, rfl, rfl, rfl, fun _ => ⟨rfl, rfl, rfl⟩, fun k => absurd k c⟩
theorem track_out {t} {y : Sync} (h : y.catchTu < (tdiff (tadd y.s y.delay) t - y.r).natAbs) :
    (track t y).s = tadd y.s y.period ∧ (track t y).msg = y.msg ∧ (track t y).errs = y.errs + 1 ∧
    (track t y).rejected = y.rejected + 1 ∧ (track t y).r = y.r ∧ (track t y).sum = y.sum ∧ (track t y).n = y.n ∧
     (track t y).state = if y.avg ≤ y.rejected + 1 then .hold else y.state := by
  unfold track
  dsimp only
  rw [if_pos h]
  exact ⟨rfl, rfl, rfl, rfl, rfl, rfl, rfl, rfl⟩
/-- R452: a rising edge in LOCKED. -/
theorem rise_locked {t} {y : Sync} (h1 : y.state = .locked) : followRise t y = { track t y with rise := some (t, y.s) } := by
  unfold followRise; rw [h1]
/-- R448: a pulse that is no start pulse means nothing outside a message. -/
theorem fall_idle {t r x} {y : Sync} (h1 : y.rise = some (r, x)) (h2 : y.msg = none) (h3 : readWidth (tdiff t r) ≠ .start) :
    followFall t y = { y with rise := none } := by
  unfold followFall; rw [h1]; exact decode_idle h2 h3
/-- R448: a start pulse begins a message. -/
theorem fall_start {t r x} {y : Sync} (h1 : y.rise = some (r, x)) (h2 : y.msg = none) (h3 : readWidth (tdiff t r) = .start) :
    followFall t y = { y with rise := none, msg := some ⟨x, [r], []⟩, values := y.values.take 1 } := by
  unfold followFall; rw [h1]
  dsimp only
  unfold decodePulse
  dsimp only
  rw [h2]
  dsimp only
  rw [if_pos h3]
/-- R448: a data pulse in its place adds its bit. -/
theorem fall_data {t r x m l b} {y : Sync} (h1 : y.rise = some (r, x)) (h2 : y.msg = some m) (h3 : m.rises.getLast? = some l)
    (h4 : (tdiff r (tadd l y.period)).natAbs ≤ y.catchTu) (h5 : readWidth (tdiff t r) = if b then .one else .zero)
    (h6 : m.bits.length < 63) :
    followFall t y = { y with rise := none, msg := some { m with rises := m.rises ++ [r], bits := m.bits ++ [b] } } := by
  unfold followFall; rw [h1]
  dsimp only
  unfold decodePulse
  dsimp only
  rw [h2]
  dsimp only
  rw [h3]
  dsimp only
  rw [if_neg (by rw [decide_eq_true h4]; decide), h5]
  have hl : ¬ (m.bits ++ [b]).length = 64 := by rw [List.length_append]; simp only [List.length_cons, List.length_nil]; omega
  cases b
  · rw [if_neg (by decide)]
    dsimp only
    rw [if_neg hl]
  · rw [if_pos rfl]
    dsimp only
    rw [if_neg hl]

end Sys2Proof.Machine
end

