-- ==== Sys2Proof/WellFormed.lean ====
section
/-! DEFINITION. Which commands the world can bring: the bounds of their operands. A meaning is total and does not rest on
them; they say which operands stand for something that happens at the block's boundary (spec/03 R53; spec/04 R98; spec/05 R128,
spec/13 R341, R352, R356; spec/15 R405; spec/16 R424; spec/18 R469). -/
namespace Sys2Proof

/-- R54: a character that a link takes as part of a line is no terminator. -/
def lineByteOk (b : Byte) : Bool := decide (b ≠ 13) && decide (b ≠ 10)

/-- R352: TDC codes run from 0 to 383; R354: DTC settings from 0 to 249. -/
def sampleOk (x : Machine.CalSample) : Bool :=
  x.hits.all (fun h => decide (h.1 < 384)) && x.points.all (fun h => decide (h.1 < 250))

/-- Entries of a list are distinct. -/
def noRepeat : List Nat → Bool
  | [] => true
  | a :: as => !as.contains a && noRepeat as

/-- The operands of a command lie within their bounds. -/
def Instr.wellFormed : Instr → Bool
  | .typedCharacter _ _ b | .lineCharacter _ _ b => lineByteOk b
  | .autobaudCharacter _ cycles _ => decide (0 < cycles)
  | .spFrameSend _ _ _ bad => noRepeat bad
  | .inputEdgeConvert _ _ _ _ code => decide (code.code < 384)
  | .calWindowClose _ _ sample _ => sampleOk sample
  | .clusterCalibrateDone _ _ samples => decide (samples.length = 8) && samples.all sampleOk
  | .clusterFault _ _ cause _ => decide (cause = .coresupply) || decide (cause = .banksupply)
  | .belfryConversion _ reading => decide (reading.vio.length = 8)
  | .flashBootDone _ read => decide (read.sfdp.length ≤ 16777216)
  | _ => true

end Sys2Proof
end

