-- ==== Sys2Proof/Tests/Slice0.lean ====
section
/-! SUPPORT. Tests: ill-formed commands are refused, small steps on small states, and for every statement with hypotheses a
state that meets them. -/
namespace Sys2Proof.Tests
open Sys2Proof Sys2Proof.Machine
set_option Elab.async false

/-! ### States and lines -/

/-- A started device: the timebase locked for 10 ms, every cluster ACTIVE, both links live. -/
def live : State := { State.reset with
  tb := { State.reset.tb with
    state := .locked, clkSrc := .pll, running := true, started := true, lockTicks := 25000000, active := some 0,
    now := 1000000000000 }
  clusters := State.reset.clusters.map (fun c => { c with state := .active, powered := true, entered := true, offCause :=
      .none })
  steward := { State.reset.steward with absent := false }
  console := { State.reset.console with running := true, rate := 115200 }
  spi := { State.reset.spi with selected := true }
  boot := { State.reset.boot with step := .running } }

/-- A line of the console, as the steward's queue holds it. -/
def req (c : Cmd) : Req := ⟨.con, none, none, 0, none, [], false, .good ⟨c, none⟩⟩

/-- The line of one assignment. -/
def setCmd (o : Obj) (name text : String) : Cmd := .set [⟨⟨.ok o, name⟩, ⟨1, text⟩⟩]

/-- s with one line before the steward. -/
def State.asked (s : State) (c : Cmd) : State := { s with steward := { s.steward with queue := [req c] } }

/-- The state after a command. -/
def after (c : Instr) (s : State) : State := match exec c s with | .next t => t | _ => s

/-- The value that a text reads as. -/
def readsAs (o : Obj) (name text : String) (v : Value) : Bool :=
  match propOf o name with
  | some x => (match readField x.ty text.toList with | .ok (.val w) => decide (w = v) | _ => false)
  | none => false

/-- In s every line can be the one that is executed, and executing it begins in s itself (with d = 0). -/
def Asks (s : State) : Prop := ∀ c : Cmd, Front ((State.asked s c).elapse 0) (req c) [] c ∧
    ((State.asked s c).elapse 0).took [] = s

theorem asks {s : State} (h : s.stewardHere = true) (hq : s.steward.queue = []) : Asks s := by
  intro c
  rw [elapse_zero _ _ (.inr rfl)]
  refine ⟨⟨h, rfl, rfl, rfl⟩, ?_⟩
  have : ({ s.steward with queue := ([] : List Req) } : Steward) = s.steward := by rw [← hq]
  exact congrArg (fun x : Steward => { s with steward := x }) this

theorem asks_live : Asks live := asks (by decide +kernel) rfl

/-- A line of one assignment that reads as a value is such a line. -/
theorem sets_of {s : State} {o : Obj} {name text : String} {v : Value} (h : Asks s) (k : readsAs o name text v = true) :
    SetsOne ((State.asked s (setCmd o name text)).elapse 0) (req (setCmd o name text)) [] o name ⟨1, text⟩ v := by
  refine ⟨(h _).1, ?_⟩
  unfold readsAs at k
  split at k
  · rename_i x hx
    refine ⟨x, hx, ?_⟩
    split at k
    · rename_i w hw; rw [hw, of_decide_eq_true k]
    · cases k
  · cases k

theorem settled_of {s : State} (h : s.steward.queue = []) : s.settled := by intro r rs hr; rw [h] at hr; cases hr

/-- A text reads as a value of a type of field. -/
def fieldReads (ty : FieldTy) (text : String) (v : Value) : Bool :=
  match readField ty text.toList with | .ok (.val w) => decide (w = v) | _ => false

theorem field_of {ty : FieldTy} {text : String} {v : Value} (k : fieldReads ty text v = true) :
    readField ty text.toList = .ok (.val v) := by
  unfold fieldReads at k
  split at k
  · rename_i w hw; rw [hw, of_decide_eq_true k]
  · cases k

/-! ### Ill-formed commands -/

/-- One ill-formed command for each check of WellFormed.lean, and a command at the edge of each that is well formed. -/
theorem wf_lines : Instr.wellFormed (.typedCharacter 0 .con 13) = false ∧ Instr.wellFormed (.lineCharacter 0 .hspi 10) = false ∧
    Instr.wellFormed (.lineCharacter 0 .hspi 11) = true := by decide +kernel
theorem wf_autobaud : Instr.wellFormed (.autobaudCharacter 0 0 true) = false ∧
    Instr.wellFormed (.autobaudCharacter 0 1 true) = true := by decide +kernel
theorem wf_frame : Instr.wellFormed (.spFrameSend 0 1 0 [2, 2]) = false ∧
    Instr.wellFormed (.spFrameSend 0 1 0 [2, 3]) = true := by decide +kernel
theorem wf_convert : Instr.wellFormed (.inputEdgeConvert 0 0 false 0 ⟨384, 0⟩) = false ∧
    Instr.wellFormed (.inputEdgeConvert 0 0 false 0 ⟨383, 0⟩) = true := by decide +kernel
theorem wf_window : Instr.wellFormed (.calWindowClose 0 0 ⟨[(384, 1)], [], 0, 0, 0, 0, 0⟩ false) = false ∧
    Instr.wellFormed (.calWindowClose 0 0 ⟨[(383, 1)], [(250, 0, 1)], 0, 0, 0, 0, 0⟩ false) = false ∧
    Instr.wellFormed (.calWindowClose 0 0 ⟨[(383, 1)], [(249, 0, 1)], 0, 0, 0, 0, 0⟩ false) = true := by decide +kernel
theorem wf_calibrate : Instr.wellFormed (.clusterCalibrateDone 0 0 []) = false ∧
    Instr.wellFormed (.clusterCalibrateDone 0 0 (List.replicate 8 ⟨[(400, 1)], [], 0, 0, 0, 0, 0⟩)) = false ∧
    Instr.wellFormed (.clusterCalibrateDone 0 0 (List.replicate 8 ⟨[], [], 0, 0, 0, 0, 0⟩)) = true := by decide +kernel
theorem wf_fault : Instr.wellFormed (.clusterFault 0 0 .calfail 0) = false ∧
    Instr.wellFormed (.clusterFault 0 0 .banksupply 0) = true := by decide +kernel
theorem wf_belfry : Instr.wellFormed (.belfryConversion 0 ⟨0, 0, 0, []⟩) = false ∧
    Instr.wellFormed (.belfryConversion 0 ⟨0, 0, 0, List.replicate 8 0⟩) = true := by decide +kernel
theorem wf_flash : Instr.wellFormed (.flashBootDone 0 ⟨List.replicate 4 0, []⟩) = true := by decide +kernel
theorem wf_flash_long : Instr.wellFormed (.flashBootDone 0 ⟨List.replicate 16777217 0, []⟩) = false := by
  simp only [Instr.wellFormed, List.length_replicate]; decide

/-! ### One step each -/

/-- FIRE P63 is answered and asserts TK252 (R70, R71). -/
def fired : State := after (.fire 0 false) (State.asked live (.fire (.ok (.port 63))))
theorem test_fire : fired.con.standardQ.map (fun x => x.lines) = [["OK FIRE P63"]] ∧
    fired.fabric.asserted.map (fun x => x.task) = [252] := by decide +kernel

/-- R214, R217: a FIRE that acts in its cycle triggers the port 40 ns after the start of the next cycle. -/
def pulsing : State := live.modPort 63 (fun q => { q with cfg := { q.cfg with mode := .pulse } })
def firedThen (d : Nat) : State := (after (.fire 0 false) (State.asked pulsing (.fire (.ok (.port 63))))).elapse d
theorem test_fire_acts : (firedThen 4).fabric.asserted = [] ∧ ((firedThen 4).ports[(63 : Fin 64)]).fires.length = 1 ∧
    ((firedThen 4).ports[(63 : Fin 64)]).queue.length = 0 := by decide +kernel

/-- R394: the same line to a port of a gated cluster. -/
def gated : State := live.modCluster 7 (fun c => { c with state := .off })
theorem test_fire_gated : (after (.fire 0 false) (State.asked gated (.fire (.ok (.port 63))))).con.standardQ.map (fun x =>
    x.lines) =
    [["ER 410 ABSENT P63"]] := by decide +kernel

/-- R78: a SET writes and reports what is stored, times rounded to tu. -/
def delayed : State := after (.set 0 false) (State.asked live (setCmd (.port 12) "DELAY" "1234567fs"))
theorem test_set : (delayed.ports[(12 : Fin 64)]).cfg.delay = 12346 ∧
    delayed.con.standardQ.map (fun x => x.lines) = [["OK P12.DELAY=1.2346ns"]] := by decide +kernel

/-- R292: a segment takes blocks. -/
def defined : State := after (.segDefine 0 false) (State.asked live (.segDefine (.ok (.segn 4095)) ⟨1, "2048"⟩))
theorem test_seg_define : defined.store.segs.map (fun x => (x.id.val, x.length, x.width, x.blocks)) = [(4095, 2048, 16, 16)] :=
    by
  decide +kernel

/-- R102: typing, and a backspace. -/
theorem test_typing : (after (.typedCharacter 0 .con 65) live).con.part = ['A'] ∧
    (after (.editBackspace 0 .con) live).con.echo = [7] := by decide +kernel

/-- R155, R160: LOCKLOSS. -/
def lost : State := after (.lockloss 0) live
theorem test_lockloss : lost.tb.clkSrc = .ring ∧ lost.tb.lockLosses = 1 ∧ (lost.clusters[(3 : Fin 8)]).state = .off ∧
    (lost.clusters[(3 : Fin 8)]).offCause = .lockloss := by decide +kernel

/-- R422: the second of two equal samples sets the level of a WAKE input. -/
theorem test_belfry : (after (.belfrySample 0 0 true) live).bel.btime = 4 ∧
    ((after (.belfrySample 0 0 true) (after (.belfrySample 0 0 true) live)).bel.wakes[(2 : Fin 4)]).level = false := by
  decide +kernel

/-- The empty queue: one fabric cycle. -/
def idled : State := match step live with | .next t => t | _ => live
theorem test_idle : idled.tb.now = 1000000016000 := by decide +kernel

/-- No word spells a command. -/
theorem test_no_words (n w : Nat) (s : State) : decodeTableWord n w = none ∧ s.withFetchWord n w = s := ⟨rfl, rfl⟩

/-- R121: the comma and D21.5 at both running disparities. R122: an idle set ends at negative running disparity. -/
theorem test_line_code : groupOf false .comma = 0b0011111010 ∧ groupOf true .comma = 0b1100000101 ∧
    groupOf false (.data 0xB5) = 0b1010101010 ∧ groupOf true (.data 0xB5) = 0b1010101010 ∧
    orderedSets (decodeGroups true (encodeSyms true (OrderedSet.syms true .idle))) = some [.idle] := by decide +kernel

/-- R152: the pre-divider and the mode that the table of the rule gives each frequency. -/
theorem test_pll : ∀ x ∈ [(10000000, 1, true), (12500000, 1, true), (40000000, 2, true), (78125000, 1, true),
      (125000000, 2, true),
      (250000000, 3, true), (312500000, 4, true), (400000000, 4, true), (19200000, 1, false), (30720000, 1, false),
      (122880000, 2, false)], (pllSetting x.1).r = x.2.1 ∧ (pllSetting x.1).integer = x.2.2 := by decide +kernel

/-- R469: without the SFDP signature the ROM reads one line with the instruction 03h. -/
theorem test_no_sfdp : flashSetup [0, 1, 2, 3] = ⟨0x03, false, 0, 0, 32, none⟩ := by decide +kernel

/-! ### States that meet the hypotheses of the statements

A statement speaks of u := s.elapse d. Each witness takes d = 0, and then u is s. -/

theorem witness_start (s : State) : s.elapse 0 = s := elapse_zero s 0 (.inr rfl)

theorem calm_live (d : Nat) (h : d < renewTicks) : live.Calm d :=
  ⟨rfl, rfl, by decide +kernel, by decide +kernel, by decide +kernel, rfl, rfl, by
    show 0 / renewTicks = (0 + d) / renewTicks
    rw [Nat.zero_add, Nat.zero_div, Nat.div_eq_of_lt h]⟩
theorem witness_TimePasses : State.reset.tb.running = false ∧ live.tb.running = true ∧ live.Calm 0 ∧ live.Calm 4 ∧
    live.pending = [] ∧ live.tb.ok := by
  refine ⟨rfl, rfl, calm_live 0 (by decide), calm_live 4 (by decide), rfl, ?_⟩; unfold Timebase.ok; decide +kernel

/-- Stores in use: a full U partition and two open episodes, blocks, download bytes, a programmed key,
    a command in the queue. -/
def busy : State := { live with
  fifo := { live.fifo with urecs := List.replicate 64 (.timemark 0), bEpisode := some [⟨0, 0, 1⟩, ⟨65, 0, 2⟩] }
  store := { live.store with segs := [⟨0, 2048, 16, [⟨0, [], 0, false⟩, ⟨15, [], 0, false⟩]⟩, ⟨4095, 1024, 1, []⟩] }
  boot := { live.boot with dl := ⟨3, [(0, 1), (2, 1)], .none⟩, keySlot := .programmed }
  pending := [.stewardWatchdog 0] }
theorem busy_ok : busy.ok := by
  refine ⟨⟨by decide +kernel, by decide +kernel, ?_, ?_⟩, ?_, ⟨?_, by decide +kernel, ?_⟩, ⟨?_, by decide +kernel⟩, ?_⟩
  · intro ds h; cases h; exact ⟨⟨by decide, trivial⟩, by decide⟩
  · intro ds h; cases h
  · unfold Timebase.ok; decide +kernel
  · exact ⟨by decide, trivial⟩
  · intro x hx
    rcases List.mem_cons.1 hx with rfl | hx
    · exact ⟨⟨by decide, trivial⟩, by decide +kernel⟩
    · rcases List.mem_cons.1 hx with rfl | hx
      · exact ⟨trivial, by decide +kernel⟩
      · cases hx
  · exact ⟨by decide, trivial⟩
  · exact (by decide +kernel : busy.bel.log.length ≤ 64)
/-- For StepKeepsFifoBounds, StepKeepsTimebaseSound, StepKeepsStoreBounds, KeyFusesProgramOnce. -/
theorem witness_StepKeeps : busy.ok ∧ (∃ t, step busy = .next t) ∧ busy.boot.keySlot ≠ .empty := ⟨busy_ok, ⟨_, rfl⟩,
    by decide +kernel⟩

/-- A console whose partial line has n characters. -/
def typed (n : Nat) : State := { live with con := { live.con with
  part := List.replicate n 'A', lastLine := List.replicate 255 'B' } }
theorem witness_TypedModeEdits :
    (∀ n ∈ [0, 1, 254, 255], (typed n).hears .con = true ∧ ((typed n).link .con).mode = .typed ∧
      ((typed n).link .con).esc = .none ∧ ((typed n).link .con).lastLine.length ≤ 255) ∧
    ((typed 254).link .con).part.length < 255 ∧ 255 ≤ ((typed 255).link .con).part.length ∧
    ((typed 1).link .con).part ≠ [] ∧ ((typed 0).link .con).part = [] := by decide +kernel

/-- A machine-mode link with n characters of a line. -/
def machine (n : Nat) : State := { live with hspi := { live.hspi with part := List.replicate n 'A' } }
theorem witness_LineBytesAndTerminators :
    (machine 254).hears .hspi = true ∧ ((machine 254).link .hspi).mode = .machine ∧
    ((machine 254).link .hspi).part.length < 255 ∧
    (let s : State := { live with con := { live.con with afterCr := true } };
     s.hears .con = true ∧ (s.link .con).afterCr = true) := by decide +kernel

/-- The clauses: a blank machine line, a blank typed line, a long S line and a long U line, with and without lines of the link
before the steward, and with four rejections unsent. -/
def overlong (c : Char) : LinkState := { live.con with part := c :: List.replicate 254 'A', tooLong := true }
def rejected (l : LinkState) : LinkState := { l with
  standardQ := List.replicate 4 ⟨.standard, ["x"], none, true, false, [], none⟩ }
theorem witness_BlankLinesGetNoResponse :
    (live.hears .hspi = true ∧ live.settled ∧ (live.link .hspi).tooLong = false ∧ isBlank (live.link .hspi).part = true ∧
      (live.link .hspi).mode = .machine) ∧
    (live.hears .con = true ∧ (live.link .con).tooLong = false ∧ isBlank (live.link .con).part = true ∧
      (live.link .con).mode = .typed ∧ (live.link .con).esc = .none) ∧
    (let s : State := { live with con := rejected (overlong 'A') };
      s.hears .con = true ∧ s.settled ∧ 4 ≤ (lineEnded .con false s).unsentRejections .con) ∧
    (let s : State := { live with con := overlong 'A' };
      s.hears .con = true ∧ s.settled ∧ (s.link .con).tooLong = true ∧ (lineEnded .con false s).unsentRejections .con < 4 ∧
        (arrivedLine .con (s.link .con)).urgent = false ∧ s.steward.queue = []) ∧
    (let s : State := { live with con := overlong '!' };
      (s.link .con).tooLong = true ∧ (arrivedLine .con (s.link .con)).urgent = true) ∧
    (let s := State.asked { live with con := overlong 'A' } .snapshot;
      s.settled ∧ ∃ r ∈ s.steward.queue, r.link = .con) := by
  refine ⟨⟨by decide +kernel, settled_of rfl, by decide +kernel⟩, by decide +kernel, ⟨by decide +kernel, settled_of rfl,
    by decide +kernel⟩, ⟨by decide +kernel, settled_of rfl, by decide +kernel⟩, by decide +kernel, ?_, by decide +kernel⟩
  intro r rs h; cases h; exact ⟨_, rfl⟩

/-- A console with the line GET SYS.TIMEFMT and o lines outstanding. -/
def lined (o : Nat) : State := { live with con := { live.con with part := "GET SYS.TIMEFMT".toList, sOut := o } }
theorem witness_StandardLinesReachSteward :
    (∀ o ∈ [7, 8], (lined o).hears .con = true ∧ (lined o).boot.step ≠ .download ∧ ((lined o).link .con).afterCr = false ∧
      ((lined o).link .con).esc = .none ∧ isBlank ((lined o).link .con).part = false ∧
      (arrivedLine .con ((lined o).link .con)).test = none ∧ (arrivedLine .con ((lined o).link .con)).parts.urgent = false ∧
      (lined o).stewardHere = true) ∧ (lined 7).settled ∧ ((lined 7).link .con).sOut < 8 ∧ 8 ≤ ((lined 8).link .con).sOut ∧
    (let s : State := { lined 7 with steward := State.reset.steward };
      s.stewardHere = false ∧ s.settled ∧ s.hears .con = true) := by
  refine ⟨by decide +kernel, settled_of rfl, by decide +kernel, by decide +kernel, by decide +kernel, settled_of rfl,
    by decide +kernel⟩

/-- The second part of StandardLinesReachSteward. -/
theorem witness_StandardLinesReachSteward_rejections :
    isRejection 503 = true ∧ 4 ≤ ({ live with con := rejected live.con } : State).unsentRejections .con ∧
    live.unsentRejections .con < 4 ∧ (∀ r ∈ live.steward.queue, r.link ≠ .con) ∧
    (∃ r ∈ (State.asked live .snapshot).steward.queue, r.link = .con) ∧
    (State.asked live .snapshot).unsentRejections .con < 4 := by decide +kernel

/-- A console at a fixed rate; one that hunts, in typed mode, with its banner due; one in machine mode. -/
def fixedRate : State := { live with console := ⟨some 9600, 9600, true⟩ }
def hunting : State := { live with console := ⟨none, 0, false⟩ }
theorem witness_ConsoleHuntsAndRuns :
    (live.hears .con = true ∧ live.console.baud = none) ∧ (fixedRate.hears .con = true ∧ fixedRate.console.baud ≠ none ∧
      fixedRate.linksLive = true) ∧
    (hunting.linksLive = true ∧ hunting.console.running = false ∧ hunting.console.baud = none ∧ hunting.con.mode = .typed ∧
      hunting.boot.step = .running ∧ hunting.boot.bannerDone = false) ∧
    (hunting.modBoot (fun b => { b with bannerDone := true })).boot.bannerDone = true ∧
    (hunting.modLink .con (fun l => { l with mode := .machine })).con.mode = .machine ∧
    (9600 * 600 ≤ 1800000000 ∧ 1800000000 ≤ 3000000 * 600) ∧
    (9600 * 187500 ≤ 1800000000 ∧ 1800000000 ≤ 3000000 * 187500) := by decide +kernel

theorem witness_FramingErrorDropsLine : (typed 3).hears .con = true ∧ (typed 3).con.part ≠ [] := by decide +kernel

/-- An item that waits to leave. -/
def item (k : OutKind) : OutItem := ⟨k, ["OK"], none, false, true, [], none⟩
theorem witness_OutputBytesLeaveInOrder :
    (let s : State := { live with spi := { live.spi with selected := false } };
      s.bel.off = false ∧ s.boot.resetLow = false ∧ s.spi.selected = false ∧ s.boot.step = .running) ∧
    (live.spi.selected = true ∧ live.spi.statusLeft = false) ∧
    (∀ c ∈ [([item .urgent], []), ([], [item .standard])],
      let s : State := { live with
        spi := { live.spi with statusLeft := true }
        hspi := { live.hspi with urgentQ := c.1, standardQ := c.2 } }
      s.spi.selected = true ∧ s.spi.statusLeft = true ∧ s.hspi.leaving = [] ∧ s.hspi.echo = [] ∧ s.hspi.mode = .machine ∧
      s.hspi.paused = none ∧ s.hspi.urgentQ = c.1 ∧ s.hspi.standardQ = c.2) ∧
    (let s : State := { live with con := { live.con with leaving := [79, 75] } };
      s.linksLive = true ∧ s.console.running = true ∧ s.con.leaving = 79 :: [75] ∧ s.con.current = none) ∧
    (let s : State := { live with con := { live.con with urgentQ := [item .urgent], standardQ := [item .standard] } };
      s.linksLive = true ∧ s.console.running = true ∧ s.con.leaving = [] ∧ s.con.echo = [] ∧
          s.con.urgentQ = item .urgent :: []) ∧
    (let s : State := { live with con := { live.con with standardQ := [item .standard] } };
      s.con.urgentQ = [] ∧ s.con.paused = none ∧ s.con.standardQ = item .standard :: []) ∧
    ((item .urgent).lines = ["OK"] ∧ (item .urgent).ev = none ∧ (item .urgent).outstanding = true ∧
      (item .urgent).onStart = []) := by decide +kernel

theorem witness_AnswersJoinOutput : live.settled := settled_of rfl

/-! Lines. asks_live says that any line can be the one executed in the state live. -/

/-- live with cluster 7 in another state. -/
def in7 (x : ClState) : State := live.modCluster 7 (fun c => { c with state := x })
theorem asks_in7 (x : ClState) : Asks (in7 x) := asks (by cases x <;> decide +kernel) rfl

theorem witness_VerbsAssertTasks : Asks live ∧ live.clusters[clusterOf 63].state = .active ∧ (256 : Nat) ≤ (319 :
    Fin 320).val :=
  ⟨asks_live, by decide +kernel, by decide⟩

/-- Every state but ACTIVE; a SCHED whose values read. -/
theorem witness_PortLinesMeetClusterState : (∀ x, Asks (in7 x)) ∧
    (∀ x ∈ [ClState.draining, .off, .quarantine, .joining], (in7 x).clusters[clusterOf 63].state = x) ∧
    schedSyn (in7 .draining) (.ok (.port 63)) ⟨false, ⟨1, "FS1"⟩⟩ [] ≠ none ∧
    schedSyn (in7 .draining) (.ok (.port 63)) ⟨false, ⟨1, "1s"⟩⟩ [] = none := ⟨asks_in7, by decide +kernel, by decide +kernel,
        by decide +kernel⟩

theorem witness_StoreFaultRestartsSteward : Asks live := asks_live

theorem witness_ReadsAnswerWhatTheyName : Asks live ∧
    ((pathTest live ⟨.ok .sys, "TIMEFMT"⟩ false).toOption.map (fun x => x.2.name)) = some "TIMEFMT" ∧
    segTest live .sys = .ok () ∧ addressTest live .sys false = .ok () ∧ live.tb.clkSrc = .pll :=
  ⟨asks_live, by decide +kernel, rfl, rfl, rfl⟩

theorem witness_ReadingLinesChangeNothing : ∃ t, exec (.get 0 false) (State.asked live (.get [⟨.ok .sys,
    "TIMEFMT"⟩])) = .next t := ⟨_, rfl⟩

theorem witness_SnapshotLatchesOneTick : Asks live ∧ live.tb.clkSrc = .pll := ⟨asks_live, rfl⟩

/-- live with the ring oscillator as clock. -/
def ringing : State := live.modTb (fun t => { t with clkSrc := .ring, state := .unlocked })
theorem witness_RingClockForbidsTimes : Asks ringing ∧ ringing.tb.clkSrc = .ring ∧
    ringing.clusters[clusterOf 0].state = .active ∧
    schedSyn ringing (.ok (.port 0)) ⟨true, ⟨1, "1s"⟩⟩ [] = none ∧ cancelSyn ringing (.ok (.port 0)) (some ⟨1, "1s"⟩) = none :=
  ⟨asks (by decide +kernel) rfl, rfl, by decide +kernel, by decide +kernel, by decide +kernel⟩

/-- A port in PULSE mode with n pulses in its queue. -/
def pulse (t : Nat) : Pulse :=
  ⟨.schedTime (.ofNat 64 t), some (.ofNat 64 t), 1000000, .ofNat 64 (t + 1000000), false, false, false, none,
    Flags.none, none, none⟩
def queued (n : Nat) : State := live.modPort 63 (fun q => { q with
  cfg := { q.cfg with mode := .pulse }, queue := (List.range n).map (fun i => pulse (2000000000000 + 10000000 * i)) })
/-- The nearest target, 250 ns ahead, with 63 pulses queued; one 1 tu nearer; the furthest and one beyond; a full queue; a STAMP
port; CANCEL. -/
theorem witness_SchedAndCancelLines :
    (∀ n, Asks (queued n)) ∧ Asks live ∧ live.ports[(63 : Fin 64)].cfg.mode ≠ .pulse ∧ live.ports[(63 :
        Fin 64)].cfg.mode ≠ .echo ∧
    (readField atField "100000250ns".toList = .ok (.val (.one (.time 1000002500000))) ∧
      readField atField "100000249999.9ps".toList = .ok (.val (.one (.time 1000002499999))) ∧
      readField atField "461168701842738790.4ps".toList = .ok (.val (.one (.time 4611687018427387904))) ∧
      readField atField "461168701842738790.5ps".toList = .ok (.val (.one (.time 4611687018427387905)))) ∧
    (let v := queued 63; let q := v.ports[(63 : Fin 64)]; let w : TimeWord := BitVec.ofInt 64 1000002500000
      v.clusters[clusterOf 63].state = .active ∧ v.tb.clkSrc = .pll ∧ q.cfg.mode = .pulse ∧ q.queue.length < 64 ∧
      2500000 ≤ tdiff w v.tb.now ∧ tdiff w v.tb.now ≤ 2 ^ 62 ∧
      (∀ y ∈ q.queue, y.conflicts (gapOf q.cfg.mode) w (tadd w q.cfg.width) = false) ∧
      v.intrudes 63 w (tadd w q.cfg.width) = none) ∧
    tdiff (BitVec.ofInt 64 1000002499999) (queued 63).tb.now < 2500000 ∧
    tdiff (BitVec.ofInt 64 4611687018427387904) (queued 63).tb.now ≤ 2 ^ 62 ∧
    2 ^ 62 < tdiff (BitVec.ofInt 64 4611687018427387905) (queued 63).tb.now ∧
    64 ≤ (queued 64).ports[(63 : Fin 64)].queue.length := by
  refine ⟨fun n => asks (by show live.stewardHere = true; decide +kernel) rfl, asks_live, by decide +kernel, by decide +kernel,
    ⟨field_of (by decide +kernel), field_of (by decide +kernel), field_of (by decide +kernel), field_of (by decide +kernel)⟩,
    by decide +kernel, by decide +kernel, by decide +kernel, by decide +kernel, by decide +kernel⟩

/-- OFF, QUARANTINE before and at WAITJOIN, JOINING, ACTIVE. -/
def waitJoin : State := live.modCluster 7 (fun c => { c with state := .quarantine, phase := .waitjoin })
theorem witness_ClusterLinesTakeEffect : Asks live ∧ Asks waitJoin ∧ (∀ x, Asks (in7 x)) ∧
    live.clusters[(7 : Fin 8)].state = .active ∧ (∀ x, (in7 x).clusters[(7 : Fin 8)].state = x) ∧
    (in7 .quarantine).clusters[(7 : Fin 8)].phase ≠ .waitjoin ∧
    (waitJoin.clusters[(7 : Fin 8)].state = .quarantine ∧ waitJoin.clusters[(7 : Fin 8)].phase = .waitjoin) :=
  ⟨asks_live, asks (by decide +kernel) rfl, asks_in7, by decide +kernel, by intro x; cases x <;> decide +kernel,
    by decide +kernel, by decide +kernel⟩

/-- live with a segment defined. -/
def withSegment : State := { live with store := { live.store with segs := [⟨4095, 1024, 1, []⟩] } }
theorem witness_ProgramsAndSegmentsAreWritten : Asks live ∧ Asks withSegment ∧
    (match readInteger false "255".toList with | .ok i => decide (i = 255) | .error _ => false) = true ∧
    (match readProgText live ⟨1, "WAIT E383 TIMEOUT=1us ONTIMEOUT=HALT"⟩ with
      | .ok x => decide (x = .wait (.event 383) (some 10000000) (some true))
      | .error _ => false) = true ∧
    live.tb.clkSrc = .pll ∧ live.groups[(7 : Fin 8)].state = .idle ∧ live.groups[(7 : Fin 8)].queuedStart = none ∧
    withSegment.store.find 4095 ≠ none ∧ withSegment.segActive 4095 = false :=
  ⟨asks_live, asks (by decide +kernel) rfl, by decide +kernel, by decide +kernel, rfl, by decide +kernel, by decide +kernel,
    by decide +kernel, by decide +kernel⟩

/-- The store full but for one block: 16383 blocks of a segment as wide as it may be, and one short of the limit. -/
def storeFull : State := { live with store := { live.store with segs := [⟨0, 2097024, 16, []⟩] } }
/-- Lengths: no multiple of 128, the shortest (1024), below it, the longest at 16 lanes (2097152), above it; a
defined segment, a
store with one block left for a segment of 8. -/
theorem witness_SegDefineTakesBlocks : Asks live ∧ Asks withSegment ∧ Asks storeFull ∧
    (∀ l ∈ [("1025", 1025), ("896", 896), ("1024", 1024), ("2097152", 2097152), ("2097280", 2097280)],
      fieldReads lengthField l.1 (.one (.int (l.2 : Nat))) = true) ∧
    1025 % 128 ≠ 0 ∧ 896 < 1024 ∧ 2097152 * live.store.defWidth = 33554432 ∧ 33554432 < 2097280 * live.store.defWidth ∧
    live.store.find 4095 = none ∧ withSegment.store.find 4095 ≠ none ∧ storeFull.store.ok ∧ storeFull.store.find 4095 = none ∧
    (storeFull.store.segs.map Segment.blocks).sum = 16383 ∧
    16384 < (storeFull.store.segs.map Segment.blocks).sum + (1024 * 16 + 2047) / 2048 := by
  refine ⟨asks_live, asks (by decide +kernel) rfl, asks (by decide +kernel) rfl, by decide +kernel, by decide, by decide,
      by decide,
    by decide, by decide +kernel, by decide +kernel, ⟨trivial, by decide +kernel, ?_⟩, by decide +kernel, by decide +kernel,
    by decide +kernel⟩
  intro x hx
  rcases List.mem_cons.1 hx with rfl | hx
  · exact ⟨trivial, by decide +kernel⟩
  · cases hx

/-- A device that may sleep, with the kept axis 3 in FRAME mode on TRG0 with a period. -/
def idleAxis (st : AxisState) (m : AxisMode) (src : EdgeSrc) (p : Nat) : State :=
  let s : State := { live with clusters := State.reset.clusters, bel := { live.bel with axis := some 3 } }
  s.modAxis 3 (fun x => { x with state := st, cfg := { x.cfg with mode := m, source := src, period := p } })
theorem asks_idle (st m src p) : Asks (idleAxis st m src p) := asks (by show live.stewardHere = true; decide +kernel) rfl
def staged : State := { withSegment with boot := { live.boot with stageSeg := some 4095 } }
theorem witness_DeviceLinesArrangeActions : Asks live ∧ Asks staged ∧ live.steward.ordered = none ∧
    staged.steward.ordered = none ∧
    staged.boot.stageSeg = some 4095 ∧ staged.store.find 4095 = some ⟨4095, 1024, 1, []⟩ ∧ live.boot.image.features = 0 ∧
    (∀ p ∈ [200000000, 10000000000000], let v := idleAxis .confirmed .frame (.trg 0) p; let x := v.axes[(3 : Fin 4)]
      (∀ k : Fin 8, v.clusters[k].state = .off) ∧ (∀ g : Fin 8, v.groups[g].state = .idle) ∧ v.bel.axis = some 3 ∧
      x.state = .confirmed ∧ x.cfg.mode = .frame ∧ x.cfg.source ≠ .port 0 ∧ x.cfg.source ≠ .mark ∧
      200000000 ≤ x.cfg.period ∧ x.cfg.period ≤ 10000000000000 ∧ v.bel.step = .awake) ∧
    (∀ st m src p, Asks (idleAxis st m src p)) :=
  ⟨asks_live, asks (by decide +kernel) rfl, rfl, rfl, rfl, by decide +kernel, rfl, by decide +kernel, asks_idle⟩

/-- A cluster that is not OFF; a group that works; the axis not CONFIRMED, of another mode, on a port, on MARK, of a period too
short or too long. -/
theorem witness_SleepIsRejected : Asks live ∧ live.clusters[(0 : Fin 8)].state ≠ .off ∧
    (let s : State := (idleAxis .lost .frame (.trg 0) 0).modGroup 7 (fun g => { g with state := .waiting });
      Asks s ∧ (∀ k : Fin 8, s.clusters[k].state = .off) ∧ s.groups[(7 : Fin 8)].state = .waiting ∧
      (∀ h : Fin 8, h < 7 → s.groups[h].state = .idle)) ∧
    (∀ x ∈ [(AxisState.lost, AxisMode.frame, EdgeSrc.trg 0, 200000000), (.confirmed, .free, .trg 0, 200000000),
        (.confirmed, .frame, .port 63, 200000000), (.confirmed, .frame, .mark, 200000000), (.confirmed, .frame, .trg 0,
            199999999),
        (.confirmed, .frame, .trg 0, 10000000000001)], let s := idleAxis x.1 x.2.1 x.2.2.1 x.2.2.2
      (∀ k : Fin 8, s.clusters[k].state = .off) ∧ (∀ g : Fin 8, s.groups[g].state = .idle) ∧ s.bel.axis = some 3) ∧
    (∀ st m src p, Asks (idleAxis st m src p)) := by
  refine ⟨asks_live, by decide +kernel, ⟨asks (by decide +kernel) rfl, by decide +kernel, by decide +kernel, by decide +kernel⟩,
    by decide +kernel, asks_idle⟩

/-- A calibration table. -/
def table0 : TableSet := ⟨0, .full, 0, 250, 65, 262144, 100, List.replicate 384 1000, List.replicate 250 0, 0, 0, 0⟩
def calibratedPort : State := live.modPort 63 (fun q => { q with table := some table0, staging := (List.range 12).map (fun i =>
    (i + 1, [])) })
theorem witness_TablesAndLogAsLines : Asks live ∧ Asks calibratedPort ∧ calibratedPort.ports[(63 :
    Fin 64)].table = some table0 ∧
    calibratedPort.clusters[clusterOf 63].state = .active ∧ calibratedPort.windowOf 63 = none ∧
    (putPart 14 (List.replicate 96 0) calibratedPort.ports[(63 : Fin 64)].staging).length < 14 ∧ live.tb.clkSrc = .pll :=
  ⟨asks_live, asks (by decide +kernel) rfl, by decide +kernel, by decide +kernel, by decide +kernel, by decide +kernel, rfl⟩

/-! Lines that write a property: sets_of gives the line of one assignment whose text reads as the value. -/

theorem witness_LinkLinesAndTimeForm : Asks live ∧
    (∀ m : LinkMode, readsAs .con "MODE" m.word (.kw m.word) = true ∧ readsAs .hspi "MODE" m.word (.kw m.word) = true) ∧
    readsAs .con "BAUD" "9600" (.int 9600) = true ∧ readsAs .con "BAUD" "3000000" (.int 3000000) = true ∧
    readsAs .con "BAUD" "AUTO" (.kw "AUTO") = true ∧ (∀ f : TimeFmt, readsAs .sys "TIMEFMT" f.word (.kw f.word) = true) :=
  ⟨asks_live, by intro m; cases m <;> decide +kernel, by decide +kernel, by decide +kernel, by decide +kernel,
    by intro f; cases f <;> decide +kernel⟩
/-- One such line in full; the lines of the other witnesses are made in the same way. -/
theorem witness_SetsOne : SetsOne ((State.asked live (setCmd .con "BAUD" "9600")).elapse 0) (req (setCmd .con "BAUD" "9600")) []
    .con "BAUD" ⟨1, "9600"⟩ (.int 9600) := sets_of asks_live (by decide +kernel)

theorem witness_PortAndBankLines : Asks live ∧ (∀ x, Asks (in7 x)) ∧ live.clusters[clusterOf 63].state = .active ∧
    (in7 .quarantine).clusters[clusterOf 63].state = .quarantine ∧
    (∀ m : PortMode, readsAs (.port 63) "MODE" m.word (.kw m.word) = true) ∧
    (let q := live.ports[(63 : Fin 64)]; q.queue = [] ∧ q.cfg.mode = .stamp ∧ live.laneOf 63 = none ∧ 16000 ≤ q.cfg.width ∧
      q.tone.running = false) ∧ (∀ n : Fin 8, live.ags[n].cfg.role = .off) ∧
    readsAs (.port 63) "FTW" "70368744177664" (.int 70368744177664) = true ∧
        readsAs (.port 63) "TONEAT" "NONE" (.kw "NONE") = true ∧
    readsAs (.port 63) "TONEAT" "100000250ns" (.time 1000002500000) = true ∧ live.tb.clkSrc = .pll ∧
    2500000 ≤ tdiff (BitVec.ofInt 64 1000002500000) live.tb.now ∧ tdiff (BitVec.ofInt 64 1000002500000) live.tb.now ≤ 2 ^ 62 ∧
    readsAs (.port 63) "HYST" "40000" (.int 40000) = true ∧ readsAs (.port 63) "THRESH" "AUTO" (.kw "AUTO") = true ∧
    (∀ x : IoStd, readsAs (.cl 7) "IOSTD" x.word (.kw x.word) = true) ∧ live.clusters[(7 : Fin 8)].vddio = .none ∧
    admits .lvcmos33 .v33 = true ∧ (∀ j : Fin 64, clusterOf j = 7 → live.ports[j].cfg.output = false) :=
  ⟨asks_live, asks_in7, by decide +kernel, by decide +kernel, by intro m; cases m <;> decide +kernel, by decide +kernel,
    by decide +kernel, by decide +kernel, by decide +kernel, by decide +kernel, rfl, by decide +kernel, by decide +kernel,
    by decide +kernel,
    by decide +kernel, by intro x; cases x <;> decide +kernel, by decide +kernel, rfl, by decide +kernel⟩

/-- An axis that RUNAHEAD may be written on. -/
theorem witness_AxisLines : Asks live ∧ (∀ e : Sense, readsAs (.ax 3) "EDGE" e.word (.kw e.word) = true) ∧
    (∀ on : Bool, readsAs (.ax 3) "RUNAHEAD" (switchWord on) (.kw (switchWord on)) = true) ∧
    (let s := idleAxis .lost .frame (.trg 7) 10000000;
      (∀ on : Bool, axisUnsound (s.modAxis 3 (fun x => { x with cfg := { x.cfg with runAhead := on } })) 3 = false) ∧
        holdsShort s 3 = false) ∧
    (∀ on : Bool, let s := (idleAxis .confirmed .frame (.trg 7) 10000000000).modAxis 3 (fun x => { x with
        cfg := { x.cfg with runAhead := on }, anchor := some ⟨990000000000, 0, true⟩ }); let x := s.axes[(3 : Fin 4)]
      x.cfg.runAhead = on ∧ x.cfg.mode = .frame ∧ x.anchor = some ⟨990000000000, 0, true⟩ ∧ holdsShort s 3 = false ∧
      axisUnsound (s.modAxis 3 (fun x => { x with cfg := { x.cfg with runAhead := !on } })) 3 = false) ∧
    (∀ st m src p, Asks (idleAxis st m src p)) :=
  ⟨asks_live, by intro e; cases e <;> decide +kernel, by intro b; cases b <;> decide +kernel, by decide +kernel,
    by intro b; cases b <;> decide +kernel, asks_idle⟩

theorem witness_TaskAndFrameLines : Asks live ∧
    readsAs (.tk 319) "SUBS" "E000,E001-E002,E383" (.list [.range 0 0, .range 1 2, .range 383 383]) = true ∧
    (live.modTask 319 (fun k => { k with subs := [0, 1, 2, 383] })).routes ≤ 1024 ∧
    (live.modTask 319 (fun k => { k with subs := [0, 1, 2, 383] })).uRoutes ≤ 64 ∧
    readsAs (.tk 319) "CLASS" "U" (.kw "U") = true ∧ readsAs (.tk 319) "CLASS" "S" (.kw "S") = true ∧
    (∀ on : Bool, readsAs (.tk 319) "CONFONLY" (switchWord on) (.kw (switchWord on)) = true ∧
      readsAs (.mf 15) "ENABLE" (switchWord on) (.kw (switchWord on)) = true) ∧
    (let s := live.modMf 15 (fun f => { f with cfg := { f.cfg with startPort := some 0, stops := [63], armSrc := .always } });
      let x := s.mfs[(15 : Fin 16)]
      Asks s ∧ x.cfg.startPort = some 0 ∧ stampModes (s.modeOf 0) = true ∧ x.cfg.stops ≠ [] ∧
      (∀ q ∈ x.cfg.stops, stampModes (s.modeOf q) = true) ∧ x.cfg.armSrc = .always ∧ x.cfg.enable = false) ∧
    readsAs (.mf 15) "STATS" "CLEAR" (.kw "CLEAR") = true :=
  ⟨asks_live, by decide +kernel, by decide +kernel, by decide +kernel, by decide +kernel, by decide +kernel,
    by intro b; cases b <;> decide +kernel, ⟨asks (by decide +kernel) rfl, by decide +kernel⟩, by decide +kernel⟩

/-- Selection by hand, with REFD present. -/
def manual : State := live.modTb (fun t => { t with auto := false, refs := upd t.refs 3 (fun r => { r with present := true }) })
theorem witness_ReferenceRotaAndBelfryLines : Asks manual ∧ Asks live ∧
    readsAs .ref "ACTIVE" "REFD" (.obj (.refx 3)) = true ∧ manual.tb.auto = false ∧ manual.tb.refs[(3 : Fin 4)].present = true ∧
    manual.tb.refs[(3 : Fin 4)].role = .candidate ∧
    readsAs (.refx 3) "FREQ" "400000000" (.int 400000000) = true ∧ live.tb.active ≠ some 3 ∧
    (∀ b : RefBw, readsAs .ref "BW" b.word (.kw b.word) = true) ∧ readsAs .cal "PERIOD" "5ms" (.time 50000000000) = true ∧
    readsAs .cal "PERIOD" "1s" (.time 10000000000000) = true ∧ live.tb.clkSrc = .pll ∧
    (∀ on : Bool, readsAs .cal "HOLD" (switchWord on) (.kw (switchWord on)) = true) ∧
    readsAs .bel "ALERT" "CLEAR" (.kw "CLEAR") = true ∧
    readsAs .bel "RULE15.N" "65535" (.int 65535) = true ∧ ruleUnsound live.bel.rules[(15 : Fin 16)] = false :=
  ⟨asks (by decide +kernel) rfl, asks_live, by decide +kernel, rfl, by decide +kernel, by decide +kernel, by decide +kernel,
    by decide +kernel, by intro b; cases b <;> decide +kernel, by decide +kernel, by decide +kernel, rfl,
    by intro b; cases b <;> decide +kernel, by decide +kernel, by decide +kernel, by decide +kernel⟩

/-- The port enabled; the key slot empty and programmed. -/
def enabled : State := live.modSp (fun p => { p with enable := true, link := .up, rx := p.rx.map (fun l => { l with locked :=
    true }) })
def fused : State := live.modBoot (fun b => { b with keySlot := .programmed })
theorem witness_StreamSyncAndKeyLines : Asks live ∧ Asks enabled ∧ Asks fused ∧ live.sp.enable = false ∧
    enabled.sp.enable = true ∧
    readsAs .sp "ENABLE" "ON" (.kw "ON") = true ∧ readsAs .sp "ENABLE" "OFF" (.kw "OFF") = true ∧
    (∀ x : SyncRole, readsAs .sys "SYNCROLE" x.word (.kw x.word) = true) ∧
    readsAs .sys "SYNCDELAY" "1us" (.time 10000000) = true ∧ live.tb.clkSrc = .pll ∧
    readsAs .sys "KEYPROG" "PROGRAM" (.kw "PROGRAM") = true ∧ live.boot.keySlot = .empty ∧ fused.boot.keySlot ≠ .empty :=
  ⟨asks_live, asks (by decide +kernel) rfl, asks (by decide +kernel) rfl, rfl, rfl, by decide +kernel, by decide +kernel,
    by intro x; cases x <;> decide +kernel, by decide +kernel, rfl, by decide +kernel, rfl, by decide +kernel⟩

/-! ### Happenings -/

/-- The boot ROM takes lines. -/
def rom (b : Download) : State := { State.reset with boot := { State.reset.boot with step := .download, dl := b } }
theorem romFront (b : Download) (c : Cmd) :
    RomFront ((State.asked (rom b) c).elapse 0) (req c) [] c ∧ ((State.asked (rom b) c).elapse 0).took [] = rom b := by
  rw [elapse_zero _ _ (.inr rfl)]; exact ⟨⟨rfl, rfl, rfl⟩, rfl⟩
theorem witness_LoadLines : (∀ b c, RomFront ((State.asked (rom b) c).elapse 0) (req c) [] c) ∧
    readField sizeField "1048960".toList = .ok (.val (.one (.int (1048960 : Nat)))) ∧
    fieldReads offField "0x0000fe" (.one (.hex 0 254)) = true ∧
    254 + [1, 2].length ≤ (rom ⟨256, [], .none⟩).boot.dl.size ∧ (rom ⟨255, [], .none⟩).boot.dl.size < 254 + [1, 2].length :=
  ⟨fun b c => (romFront b c).1, field_of (by decide +kernel), by decide +kernel, by decide, by decide⟩

theorem witness_ResetsKeepWhatTheyKeep : live.bel.off = false ∧ (live.modBel (fun b => { b with step :=
    .asleep })).bel.off = true ∧ live.boot.resetOrder = none ∧
    (∀ o ∈ [(⟨none, true⟩, true), ((⟨some 999999999999, false⟩ : Order), false)],
      (live.modBoot (fun b => { b with resetOrder := some o.1 })).boot.resetOrder = some o.1 ∧ o.1.due live = o.2) := by
  decide +kernel

theorem witness_StartSequence : State.reset.boot.step = .held ∧
    (∀ b : Bool, (State.reset.modBoot (fun x => { x with step := .flash b })).boot.step = .flash b) ∧
    (State.reset.modBoot (fun x => { x with step := .building })).boot.step = .building := by decide +kernel

/-- A restart arranged 1 ms ago. -/
def ordered : State := { live with steward := { live.steward with ordered := some (.command, ⟨some 990000000000, false⟩) } }
theorem witness_StewardRestarts : live.awake = true ∧ ordered.steward.ordered = some (.command, ⟨some 990000000000, false⟩) ∧
    (⟨some 990000000000, false⟩ : Order).due ordered = true ∧
    (let s : State := { live with steward := { live.steward with ordered := some (.command, ⟨some 999999999999, false⟩) } };
      (⟨some 999999999999, false⟩ : Order).due s = false) ∧
    (let s : State := { live with tb := State.reset.tb, fabric := { live.fabric with handover := [⟨383, 1, 0⟩] } };
      s.tb.running = false ∧ s.fabric.handover.find? (fun h => decide (h.src = 383)) = some ⟨383, 1, 0⟩) ∧
    (let s : State := { live with steward := State.reset.steward }; s.awake = true ∧ s.steward.absent = true) :=
        by decide +kernel

/-- A handed-over happening, two deliveries that may act, a record in a port's buffer, an episode that may end. -/
def record0 : StampRec := ⟨0, 63, false, 0, 0, 0, 0⟩
def moving : State := { live with
  fabric := { live.fabric with
    handover := [⟨383, 2, 1⟩]
    transit := [⟨5, 319, 0, false, 999999952000, 0, Flags.none⟩, ⟨5, 252, 0, false, 0, 0, Flags.none⟩] }
  fifo := { live.fifo with bEpisode := some [⟨65, 0, 1⟩], events := List.replicate 64448 (.timemark 0) }
  ports := upd live.ports 63 (fun q => { q with buffer := [record0] }) }
theorem witness_CountsRecordsAndDeliveriesMove :
    moving.fabric.handover.find? (fun h => decide (h.src = (383 : Fin 384).val)) = some ⟨383, 2, 1⟩ ∧
    moving.tb.running = true ∧
    (live.fabric.handover.find? (fun h => decide (h.src = 0)) = none ∧ live.stewardHere = true ∧
      (∀ e ∈ live.con.heldEv, e.src ≠ 383) ∧ (∀ e ∈ live.hspi.heldEv, e.src ≠ 383)) ∧
    (∀ e ∈ moving.fabric.transit, e.isU = false ∨ e.left ≠ 0) ∧
    (moving.fabric.transit[0]? = some ⟨5, 319, 0, false, 999999952000, 0, Flags.none⟩ ∧
      (∀ e ∈ moving.fabric.transit.take 0, e.src ≠ 5) ∧
      moving.taskOpen 319 = true ∧ moving.tasks[(319 : Fin 320)].confOnly = false) ∧
    (moving.fabric.transit[1]? = some ⟨5, 252, 0, false, 0, 0, Flags.none⟩ ∧
      (∀ e ∈ moving.fabric.transit.take 1, e.src ≠ 5 ∨ e.task ≠ 252) ∧ (in7 .off).taskOpen 252 = false) ∧
    (∀ c ∈ [(false, 1), (true, 3)],
      let s := moving.modFabric (fun f => { f with transit := [⟨5, 319, 0, c.1, 0, c.2, Flags.none⟩] })
      s.fabric.transit[0]? = some ⟨5, 319, 0, c.1, 0, c.2, Flags.none⟩ ∧
      (∀ e ∈ s.fabric.transit, e.isU = false ∨ e.left ≠ 0)) ∧
    (moving.nextBuffer 7 = some 63 ∧ moving.ports[(63 : Fin 64)].buffer = record0 :: [] ∧ record0.uclass = false ∧
      live.fifo.fitsB [.stamp record0] = true ∧ moving.clusters[(7 : Fin 8)].moved ≠ some moving.cycle) ∧
    (live.modCluster 7 (fun c => { c with moved := some live.cycle })).clusters[(7 : Fin 8)].moved = some live.cycle ∧
    moving.fifo.uEpisode = none ∧ moving.fifo.events.length + 1024 = 65472 := by
  refine ⟨by decide +kernel, by decide +kernel, by decide +kernel, by decide +kernel, by decide +kernel, by decide +kernel,
    by decide +kernel, by decide +kernel, by decide +kernel, rfl, ?_⟩
  show (List.replicate 64448 (FifoRec.timemark 0)).length + 1024 = 65472
  rw [List.length_replicate]

/-- Ordered sets for lanes 0 and 3, as a sender writes them. -/
theorem witness_LineCodeRoundTrips : ∀ l r t, OrderedSet.ts l r t ∈ [OrderedSet.idle, .ts 3 2 1, .ts 0 0 0] → l.toNat < 4 := by
  intro l r t h
  simp only [List.mem_cons, OrderedSet.ts.injEq, List.not_mem_nil, or_false, reduceCtorEq, false_or] at h
  rcases h with ⟨rfl, _⟩ | ⟨rfl, _⟩ <;> decide

/-- The link in training with its lanes locked; ordered sets as they come in. -/
def training : State := enabled.modSp (fun p => { p with link := .train })
def groupsOf (n : Nat) (x : OrderedSet) : List CodeGroup :=
  encodeSyms false ((List.replicate n x).flatMap (OrderedSet.syms false))
theorem witness_StreamLinkMoves : enabled.sp.enable = true ∧ (1 : Fin 2).val < enabled.sp.rxLanes ∧ enabled.sp.link = .up ∧
    enabled.sp.rx[(1 : Fin 2)].locked = true ∧ (training.sp.link ≠ .up ∧ training.sp.rx[(1 : Fin 2)].locked = true) ∧
    (locksLane false (groupsOf 16 .idle) = true ∧ locksLane false (groupsOf 15 .idle) = false) ∧
    (losesLane false [0, 0, 0, 0] = true ∧ losesLane false [0, 0, 0] = false) ∧
    (hasTs false (groupsOf 1 (.ts 1 0 0)) = true ∧ hasTs false (groupsOf 16 .idle) = false) ∧
    (trains false (groupsOf 8 (.ts 1 0 1)) = true ∧ trains false (groupsOf 7 (.ts 1 0 1)) = false ∧
      trains false (groupsOf 8 (.ts 1 0 0)) = false) ∧
    (training.sp.link = .train ∧ training.sp.rxLanes ≠ 0 ∧
      (∀ r : Fin 2, training.sp.enable = true → r.val < training.sp.rxLanes → training.sp.rx[r].locked = true)) ∧
    (let s := training.modSp (fun p => { p with rxLanes := 0, trainFrom := 999900000000 });
      s.sp.rxLanes = 0 ∧ tnotBefore s.tb.now (tadd s.sp.trainFrom 100000000) = true) ∧
    (∀ x ∈ live.fifo.flights, x.lane ≠ 3) := by decide +kernel

/-- The link up, an event in the FIFO, an open assembly with three quarters. -/
def streaming : State := { enabled with
  fifo := { enabled.fifo with events := [.timemark 0] }
  store := withSegment.store
  sp := { enabled.sp with assemblies := [⟨4095, 0, [(0, 7, []), (1, 7, []), (2, 7, []), (3, 7, [])], 0, 0⟩] } }
theorem witness_StreamFramesAndUploads :
    (streaming.sp.link = .up ∧ streaming.laneGiven 4 = some 0 ∧ streaming.fifo.channel 4 = ([.timemark 0], 64, .event) ∧
      streaming.sp.uports = []) ∧
    (streaming.laneGiven 0 = some 0 ∧ streaming.sp.creditDue = false ∧
      (streaming.modSp (fun p => { p with creditDue := true })).sp.creditDue = true ∧
      (streaming.modSp (fun p => { p with status := [⟨1, 1, .accepted, 0⟩] })).sp.status ≠ []) ∧
    ((streaming.modSp (fun p => { p with lanes := p.lanes.map (fun l => { l with busy := 1 }) })).laneGiven 4 = none ∧
      (streaming.modFifo (fun f => { f with urecs := [.timemark 0] })).laneGiven 4 = none) ∧
    tnotBefore streaming.tb.now (tadd streaming.sp.lane0Quiet 100000000) = true ∧
    (streaming.sp.enable = true ∧ (1 : Fin 2).val < streaming.sp.rxLanes ∧ streaming.sp.rx[(1 : Fin 2)].locked = true) ∧
    (∀ n ∈ [15, 16], ((List.replicate n (⟨[], false, false⟩ : RxFrame)).length = n)) ∧
    (List.replicate 256 (0 : Byte)).length = 256 ∧ (∀ a ∈ streaming.sp.assemblies, a.seg ≠ 4095 ∨ a.block ≠ 65535) ∧
    (let a : Assembly := ⟨4095, 0, [(0, 7, []), (1, 7, []), (2, 7, []), (3, 7, [])], 0, 0⟩; let x : Segment := ⟨4095, 1024, 1,
        []⟩
      streaming.sp.assemblies[0]? = some a ∧ a.seg = (4095 : Fin 4096).val ∧ streaming.store.find 4095 = some x ∧
          a.block < x.blocks ∧
      streaming.segActive 4095 = false ∧ (∀ y ∈ a.quarters, y.2.1 = 7) ∧
      (∀ i : Fin 4, a.quarters.find? (fun y => decide (y.1 = i.val)) = some (i.val, 7, [])) ∧
      tnotBefore streaming.tb.now (tadd a.lastArrival 100000000000) = true) := by decide +kernel

/-- REFA present and active; nothing to switch to; a better one; an absent one. -/
def watched (auto : Bool) (job : PllJob) (ticks : Nat) : State := live.modTb (fun t => { t with
  auto := auto, job := job, lockTicks := ticks,
  refs := upd (upd t.refs 0 (fun r => { r with
    present := true, qual := .good, whole := true, bad1 := false, bad10 := false })) 1
    (fun r => { r with present := true, qual := .good, goodFor := 60 }) })
theorem witness_ReferencesAreWatched :
    (let t := (watched true .idle 25000000).tb; let r := t.refs[(0 : Fin 4)]
      r.role ≠ .off ∧ r.present = true ∧ t.active = some 0 ∧ t.state = .locked ∧ t.noSwitch = true ∧
      bestCandidate t (some 0) = some 1 ∧ t.active ≠ some 1 ∧ t.refs[(1 : Fin 4)].present = true ∧
      (∀ l : Bool, t.job ≠ .buildOut 1 l)) ∧
    (watched true (.buildOut 1 false) 0).tb.job = .buildOut 1 false ∧
    ((watched false .idle 25000000).tb.auto = false ∧ 25000000 ≤ (watched false .idle 25000000).tb.lockTicks) ∧
    (watched false .idle 24999999).tb.lockTicks < 25000000 ∧
    (live.tb.refs[(3 : Fin 4)].role ≠ .off ∧ live.tb.refs[(3 : Fin 4)].present = false ∧ live.tb.state = .locked ∧
        live.tb.job = .idle) ∧
    (watched true .frozen 0).tb.job = .frozen ∧
    (let s := watched true .idle 0; let r := s.tb.refs[(0 : Fin 4)]
      r.present = true ∧ r.bad1 = false ∧ r.bad10 = false ∧ s.compareOk r = true ∧ r.inFail = false ∧ r.inWarn = false ∧
        0 < 1 * r.freq ∧ 0 * r.freq = 0) := by decide +kernel

/-- A switch to REFB under way; a better reference to go back to; an attempt that began 400 us ago, or just now. -/
def attempting (since : TimeWord) : State := live.modTb (fun t => { t with state := .acquire, job := .attempt 1 since })
theorem witness_LockSwitchAndLockloss :
    (∀ l : Bool, (watched true (.buildOut 1 l) 0).tb.job = .buildOut 1 l ∧
      (watched true (.buildOut 1 l) 0).tb.state = .locked) ∧
    (let s := (watched true .idle 0).modTb (fun t => { t with revert := true, active := some 2, revertWait := 60 }); let t :=
        s.tb
      t.state = .locked ∧ t.job = .idle ∧ t.auto = true ∧ t.revert = true ∧ t.active = some 2 ∧ t.place 1 < t.place 2 ∧
      t.refs[(1 : Fin 4)].role = .candidate ∧ t.refs[(1 : Fin 4)].qual = .good ∧ t.revertWait ≤ t.refs[(1 : Fin 4)].goodFor) ∧
    (let t := (attempting 996000000000).tb; t.job = .attempt 1 996000000000 ∧ t.state = .acquire ∧
      tnotBefore t.now (tadd 996000000000 4000000000) = true ∧ t.refs[(1 : Fin 4)].role = .candidate ∧
      (attempting 996000000000).bel.step ≠ .relock ∧ (attempting 0).axes[(0 : Fin 4)].cfg.mode = .free) ∧
    live.tb.state = .locked := by decide +kernel

/-- An axis 3 in FRAME mode on TRG0 with the anchor at t = 10^12 - P, P = 1 ms, and edges on their way. -/
def onAxis (st : AxisState) (m : AxisMode) (real : Bool) (idx : List TimeWord) (cnt : List (TimeWord × Bool)) : State :=
  live.modAxis 3 (fun x => { x with
    cfg := { x.cfg with mode := m, source := .trg 0, period := 10000000000 }
    state := st, anchor := if st = .lost ∨ st = .acquire then none else some ⟨980000000000, 0, real⟩, period :=
        10000000000 * 65536,
    acquired := if st = .acquire then [970000000000, 980000000000] else [], pendIdx := idx, pendCnt := cnt, count := 1024 })
theorem witness_AxesFollowTheirEdges :
    (let x := (onAxis .lost .frame true [980000000000] []).axes[(3 : Fin 4)];
      x.pendIdx = [980000000000] ∧ x.pendCnt = [] ∧ x.cfg.mode = .frame ∧
          x.state = .lost ∧
      x.acquired = []) ∧
    (let x := (onAxis .acquire .frame true [990010000000] []).axes[(3 : Fin 4)];
      x.state = .acquire ∧ x.acquired = [970000000000, 980000000000] ∧ x.period = 10000000000 * 65536 ∧
      (tdiff 990010000000 (tadd 980000000000 (10000000000 * 65536 / 65536))).natAbs = x.cfg.vals.catchTu ∧
      x.cfg.vals.catchTu < (tdiff 990010000001 (tadd 980000000000 (10000000000 * 65536 / 65536))).natAbs) ∧
    (∀ c ∈ [(990010000001, false, false), (990010000000, true, false), (990002000001, true, false), (990002000000, true, true)],
      let x := (onAxis .confirmed .frame true [BitVec.ofNat 64 c.1] []).axes[(3 : Fin 4)]
      let e := testError x (BitVec.ofNat 64 c.1) (predictFrom ⟨980000000000, 0, true⟩ x.period 1)
      x.state = .confirmed ∧ x.anchor = some ⟨980000000000, 0, true⟩ ∧
        decide (e.natAbs ≤ x.inForce.catchTu) = c.2.1 ∧ decide (e.natAbs ≤ x.inForce.tretract) = c.2.2) ∧
    (∀ real : Bool, let x := (onAxis .reacquire .frame real [985000000000] []).axes[(3 : Fin 4)]
      x.state = .reacquire ∧ x.anchor = some ⟨980000000000, 0, real⟩ ∧
        tlater (tadd (predictFrom ⟨980000000000, 0, real⟩ x.period 1) (-(x.period / 131072))) 985000000000 = false) ∧
    (∀ st ∈ [AxisState.confirmed, .reacquire], let s := onAxis st .frame true [] []; let x := s.axes[(3 : Fin 4)]
      x.pendIdx = [] ∧ x.state = st ∧ x.inForce.missmax ≠ 1 ∧ x.misses + 1 < x.inForce.missmax ∧
      tnotBefore s.cycle (tadd (predictFrom ⟨980000000000, 0, true⟩ x.period 1) (x.inForce.catchTu + 960000)) = true ∧
      tnotBefore s.cycle (tadd (predictFrom ⟨980000000000, 0, true⟩ x.period 1) (x.period / 131072 + 960000)) = true) ∧
    live.tbLocked = true := by decide +kernel
/-- Its clauses about a second edge and about INCREMENT and FREE axes. -/
theorem witness_AxesFollowTheirEdges_counts :
    (∀ e : TimeWord,
      let s := (onAxis .acquire .frame true [e] []).modAxis 3 (fun x => { x with acquired := [970000000000] })
      let x := s.axes[(3 : Fin 4)]
      x.state = .acquire ∧ x.acquired = [970000000000] ∧ x.pendIdx = [e]) ∧
    (∀ st ∈ [AxisState.acquire, .confirmed, .reacquire],
      let x := (onAxis st .increment true [] [(985000000000, true)]).axes[(3 : Fin 4)]
      x.pendCnt = (985000000000, true) :: [] ∧ x.pendIdx = [] ∧ x.cfg.mode = .increment ∧ x.state = st ∧
      x.count = x.cfg.counts + x.cfg.countTol) ∧
    (∀ st ∈ [AxisState.acquire, .confirmed], let x := (onAxis st .increment true [985000000000] []).axes[(3 : Fin 4)]
      x.pendIdx = [985000000000] ∧ x.pendCnt = [] ∧ x.cfg.mode = .increment ∧ x.state = st ∧
      (x.count ≤ x.cfg.counts + x.cfg.countTol ∧ x.cfg.counts ≤ x.count + x.cfg.countTol)) := by
  refine ⟨fun e => ⟨rfl, rfl, rfl⟩, by decide +kernel, by decide +kernel⟩
theorem witness_AxesFollowTheirEdges_free :
    let s := onAxis .confirmed .free true [] []; let x := s.axes[(3 : Fin 4)]
    x.cfg.mode = .free ∧ x.state = .confirmed ∧ x.anchor = some ⟨980000000000, 0, true⟩ ∧
      tnotBefore s.tb.now (x.cfg.origin + BitVec.ofNat 64 (1 * x.cfg.period)) = true := by decide +kernel

/-- A pulse of port 63 whose leading edge, or whose trailing edge, is due; ECHO with the pad driven; a cluster that drains. -/
def duePort (m : PortMode) (high : Bool) (x : ClState) : State := (in7 x).modPort 63 (fun q => { q with
  cfg := { q.cfg with mode := m, output := true }, queue := [{ pulse 999990000000 with high := high }] })
theorem witness_LeadingEdgeEmits :
    (∀ m ∈ [PortMode.pulse, .echo], let s := duePort m false .active
      s.ports[(63 : Fin 64)].cfg.mode = m ∧ leadingDue s 63 = some (pulse 999990000000) ∧
      (pulse 999990000000).lead = some 999990000000 ∧ s.portActive 63 = true) ∧
    (duePort .pulse false .draining).portActive 63 = false ∧
    leadingDue (duePort .pulse false .draining) 63 = some (pulse 999990000000) ∧
    trailingDue (duePort .echo true .active) 63 = some { pulse 999990000000 with high := true } := by decide +kernel

/-- Pulses 1 tu inside and at the edge of the committed span; a pad trigger met, refused, and on a full queue; a staged tone. -/
def padded (once refused : Bool) (n : Nat) : State := (queued n).modPort 63 (fun q => { q with
  cfg := { q.cfg with once := once, toneAt := .time 999999999999 }, armed := true,
  pads := [⟨999999000000, if refused then some 62 else none, 360000, 1000000⟩] })
def nearEdges : State := live.modPort 63 (fun q => { q with queue := [pulse 1000000159999, pulse 1000000160000] })
def bound : State :=
  let s := live.modCluster 7 (fun c => { c with fix := some (.axis 3 1 0 1000000100000 true false) })
  s.modGroup 7 (fun g => { g with waiting := some (.align 3 0 (some 1) (some 1000000100000) false) })
theorem witness_PortsCommitAndTrigger :
    (nearEdges.ports[(63 : Fin 64)].queue.map (fun x => decide (tdiff (x.lead.getD 0) nearEdges.cycle < 160000)) = [true,
        false] ∧
      (∀ x ∈ nearEdges.ports[(63 : Fin 64)].queue, x.axisFrame = none ∧ x.lead.isSome = true)) ∧
    (bound.clusters[(7 : Fin 8)].fix = some (.axis 3 1 0 1000000100000 true false) ∧
      bound.groups[(7 : Fin 8)].waiting = some (.align 3 0 (some 1) (some 1000000100000) false)) ∧
    (∀ once refused : Bool, ∀ n ∈ [0, 63, 64],
      let s := (padded once refused n).modPort 62 (fun q => { q with ovSpans := [⟨999998990000, none⟩] })
      let q := s.ports[(63 : Fin 64)]; let t : PadTrig := ⟨999999000000, if refused then some 62 else none, 360000, 1000000⟩
      q.pads = t :: [] ∧ q.cfg.mode = .pulse ∧ s.portActive 63 = true ∧ q.armedAt t.instant = true ∧
      tnotBefore s.tb.now (tadd t.instant 20000) = true ∧ s.ovdAt 62 t.instant = true ∧
      q.queue.length = n ∧ s.windowOf 63 = none ∧ gapHeld 8000 q.lastTrail (tadd t.instant t.delay) = false ∧
      (∀ y ∈ q.queue, y.conflicts 8000 (tadd t.instant t.delay) (tadd (tadd t.instant t.delay) t.width) = false)) ∧
    ((padded false false 0).modPort 63 (fun q => { q with armed := false })).ports[(63 : Fin 64)].armedAt 999999000000 = false ∧
    tnotBefore live.tb.now (tadd 999999990000 20000) = false ∧
    (let q := (nearEdges.modPort 63 (fun q => { q with cfg := { q.cfg with toneAt := .time 999999999999 } })).ports[(63 :
        Fin 64)];
      stagedTick q.cfg.toneAt = some 999999999999 ∧ tnotBefore live.tb.now 999999999999 = true ∧
        tnotBefore live.tb.now 1000000000001 = false) := by
  refine ⟨by decide +kernel, by decide +kernel, ?_, by decide +kernel, by decide +kernel, by decide +kernel⟩
  intro a b; cases a <;> cases b <;> decide +kernel

/-- A STAMP port with a table, a latest conversion, conversions and records on their way, an over-range episode. -/
def conv0 (edge : TimeWord) : Conv := ⟨1000000000000, 383, edge, .rise, none, false, false, false, Flags.none⟩
def stamping (last : TimeWord) (staged : Nat) (held : Nat) (gate : Bool) : State := live.modPort 63 (fun q => { q with
  cfg := { q.cfg with record := true, pair := gate }, table := some table0, lastConv := some last,
  stage := List.replicate staged (conv0 999999980000),
  buffer := List.replicate held record0, overrange := gate, ovSpans := if gate then [⟨0, none⟩] else [] })
theorem witness_InputsConvertAndStamp :
    (let s := stamping 999999983000 3 31 false; let q := s.ports[(63 : Fin 64)]; let edge := tadd 1000000000000 (-1000 - 0)
      q.table = some table0 ∧ s.converting 63 = true ∧ s.selects 63 .rise = true ∧
      s.detects 63 table0 false 1000000 = true ∧ s.detects 63 table0 false (-1000000) = false ∧
      tnotBefore s.tb.now 1000000000000 = true ∧ (1000000000000 : TimeWord).toNat % 4000 = s.tb.now.toNat % 4000 ∧
      q.cfg.pair = false ∧ decide ((tdiff edge 999999983000).natAbs < 16000) = false ∧
      decide ((tdiff edge 999999983001).natAbs < 16000) = true ∧ q.stage.length < 4 ∧ q.hasSlot = true) ∧
    (4 ≤ (stamping 0 4 32 false).ports[(63 : Fin 64)].stage.length ∧ (stamping 0 4 32 false).ports[(63 :
        Fin 64)].hasSlot = false) ∧
    (let s := stamping 0 1 0 false; let q := s.ports[(63 : Fin 64)]; let c := conv0 999999980000
      q.stage = c :: [] ∧ q.table = some table0 ∧ q.gated = [] ∧ 20000 ≤ tdiff s.tb.now c.edge ∧ q.taken = none ∧
      tdiff s.tb.now 999999980001 < 20000 ∧ c.echo = false ∧ c.flags = Flags.none ∧ q.cfg.mode ≠ .echo ∧
      stampModes q.cfg.mode = true ∧ q.cfg.record = true ∧ senseIn q.cfg.stampEdge c.sense = true ∧ q.cfg.gateSrc = none) ∧
    (∀ e ∈ [(999999040000, true), (999999040001, false)],
      let s := live.modPort 63 (fun q => { q with gated := [conv0 (BitVec.ofNat 64 e.1)] }); let q := s.ports[(63 : Fin 64)]
      q.gated = [conv0 (BitVec.ofNat 64 e.1)] ∧ q.stage = [] ∧
        decide (960000 ≤ tdiff s.tb.now (BitVec.ofNat 64 e.1)) = e.2) ∧
    (let s := stamping 0 0 0 true; let q := s.ports[(63 : Fin 64)]
      q.cfg.pair = true ∧ stampModes q.cfg.mode = true ∧ s.portActive 63 = true ∧ s.windowOf 63 = none ∧ q.overrange = true ∧
      q.ovSpans = ⟨0, none⟩ :: [] ∧ tnotBefore s.tb.now 1000000000000 = true) ∧
    (let q := (stamping 0 0 0 false).ports[(63 : Fin 64)]; q.overrange = false ∧ q.ovSpans = []) ∧
    live.tb.started = true := by decide +kernel

/-- An open run of MF15 whose window has passed. -/
def run0 : MfRun := ⟨⟨0, 990000000000, .rise, 0, 0, []⟩, 0, none⟩
def framed : State := live.modMf 15 (fun f => { f with
  cfg := { f.cfg with enable := true, startPort := some 0, stops := [63], records := false, filter := [] }, state :=
      .opened run0 })
theorem witness_IndexEdgesAndRuns : framed.mfs[(15 : Fin 16)].state = .opened run0 ∧ mfCloseDue framed 15 = true ∧
    framed.mfs[(15 : Fin 16)].cfg.filter = [] ∧
    framed.mfs[(15 : Fin 16)].cfg.statsHold = false ∧ (⟨3, 0, 0, 0, 0, 0⟩ : StatCell).idx = 3 := by decide +kernel

/-- A group that plays its last sample now, with the plan given; one that waits; one whose segment fails;
    one that has been stopped. -/
def seg0 : Segment := ⟨4095, 1024, 1, []⟩
def step0 : StepRun := ⟨0, seg0, 999995904000, none, false⟩
def playing (plan : List PlanItem) (stop : Option TimeWord) : State := live.modGroup 7 (fun g => { g with
  state := .running, cur := some step0, plan := plan, stopAt := stop, fetch := { g.fetch with done := true } })
def waitingFor (h : Bool) : State := live.modGroup 7 (fun g => { g with
  state := .waiting, waiting := some (.wait .step 990000000000 (some 4000) h none), grid := 990000000000 })
theorem witness_PatternGroupsGoOn :
    (∀ plan ∈ [[PlanItem.play 1 seg0], [.wait 1 .step none false], [.halt .ended]], let s := playing plan none
      let x := s.groups[(7 : Fin 8)]
      x.state = .running ∧ x.cur = some step0 ∧ x.restarts = [] ∧ step0.failAt = none ∧ x.waiting = none ∧ x.stopAt = none ∧
      tnotBefore s.tb.now step0.ends = true ∧ step0.ends = 1000000000000 ∧ x.fetch.done = true ∧ x.plan = plan ∧
      x.counted = []) ∧
    (0 < step0.seg.length ∧ step0.seg.length ≤ 33554432) ∧
    (let s := playing [] (some 999999996000);
      s.groups[(7 : Fin 8)].stopAt = some 999999996000 ∧ tnotBefore s.tb.now 999999996000 = true ∧
          tnotBefore step0.ends 999999996000 = true) ∧
    live.groups[(7 : Fin 8)].live = false ∧
    (let r : StepRun := { step0 with failAt := some 1023 };
      let s := live.modGroup 7 (fun g => { g with state := .running, cur := some r });
      let x := s.groups[(7 : Fin 8)]
      x.cur = some r ∧ r.failAt = some 1023 ∧ r.failed = false ∧ tnotBefore s.tb.now (tadd r.start (1023 * 4000)) = true ∧
      x.waiting = none) ∧
    (∀ h : Bool, let s := waitingFor h; let x := s.groups[(7 : Fin 8)]
      x.waiting = some (.wait .step 990000000000 (some 4000) h none) ∧ tnotBefore s.tb.now (tadd 990000000000 4000) = true ∧
      tnotBefore s.tb.now (tadd 990000000000 4000) = true) ∧
    (let s := (waitingFor true).modGroup 7 (fun g => { g with
        waiting := some (.wait .step 990000000000 (some 4000) true (some 990000004000)) }); let x := s.groups[(7 : Fin 8)]
      x.waiting = some (.wait .step 990000000000 (some 4000) true (some 990000004000)) ∧ x.state = .waiting ∧ x.cur = none ∧
      x.restarts = [] ∧ x.stopAt = none ∧ tnotBefore s.tb.now 990000004000 = true) := by
  refine ⟨by decide +kernel, by decide +kernel, by decide +kernel, by decide +kernel, by decide +kernel, ?_, by decide +kernel⟩
  intro h; cases h <;> decide +kernel

/-- A generator at the start of a word; a checker with a comparison due, of a march and of a stream. -/
def generating (role : AgRole) (w : List AgWord) : State := live.modAg 7 (fun x => { x with
  state := .running, cfg := { x.cfg with role := role, inputs := [63] }, wordGrid := 1000000000000, due := w })
theorem witness_GeneratorsRunAndCheck :
    (let s := generating .gen []; let x := s.ags[(7 : Fin 8)]
      x.state = .running ∧ x.cfg.role = .gen ∧ x.word = none ∧ x.finished = false ∧
      tnotBefore s.tb.now (tadd x.wordGrid (x.next * x.cfg.rate * 4000)) = true ∧ prbsOf x.cfg.func = some (31, 28, true)) ∧
    (let x := (generating .check []).ags[(7 : Fin 8)]; x.state = .running ∧ x.cfg.role = .check ∧ x.finished = false) ∧
    (∀ e : Option (Nat × Nat × Nat), e = none ∨ e = some (1, 2, 3) → let w : AgWord := ⟨999999040000, 0, 0, false, true, e⟩
      let s := generating .check [w]; let x := s.ags[(7 : Fin 8)]
      let ready (w : AgWord) : Bool := tnotBefore s.tb.now (tadd (tadd w.start x.cfg.sampleAt) 960000) &&
        x.cfg.inputs.all (fun p => s.ports[p].converted (tadd w.start x.cfg.sampleAt))
      x.past = [] ∧ x.due = w :: [] ∧ ready w = true ∧ ready { w with start := 999999040001 } = false ∧
        w.expect = e ∧ x.lock = false ∧
        x.cfg.inputs ≠ [] ∧ (∀ p ∈ x.cfg.inputs, compared s.ports[p] (tadd w.start x.cfg.sampleAt) = false)) := by
  refine ⟨by decide +kernel, by decide +kernel, ?_⟩
  rintro e (rfl | rfl) <;> decide +kernel

/-- A port that is due for its window, alone; one in a window; one that is late; one with a full histogram. -/
def due63 : State := (stamping 0 0 0 false).modPort 63 (fun q => { q with due := 1000000000000 })
def dueOnly : State := { due63 with ports := updAll due63.ports (fun p q => if p = 63 then q else { q with due :=
    2000000000000 }) }
def windowed (opened : TimeWord) : State := live.modCluster 7 (fun c => { c with window := some ⟨7, opened, false⟩ })
def full63 : State := due63.modPort 63 (fun q => { q with accum := { CalAccum.empty with hist := [(200, 262144)], total :=
    262144 } })
theorem witness_CalibrationWindowsAndTables :
    ((foldS (portsOf 7) padsFirst (workCycle dueOnly)).windowFirst 63 = true ∧
      (foldS (portsOf 7) padsFirst (workCycle live)).windowFirst 63 = false) ∧
    ((windowed 999984000000).clusters[clusterOf 63].window = some ⟨portIn 63, 999984000000, false⟩ ∧
      tnotBefore live.tb.now (tadd 999984000000 16000000) = true ∧
          tnotBefore live.tb.now (tadd 999984000001 16000000) = false ∧ live.ports[(63 : Fin 64)].cfg.mode ≠ .tone) ∧
    (let s := due63.modPort 63 (fun q => { q with due := 750000000000 }); let q := s.ports[(63 : Fin 64)];
      s.portActive 63 = true ∧ s.cal.hold = false ∧ s.steward.absent = false ∧ q.lateSeen = false ∧
      tnotBefore s.tb.now (tadd q.due s.cal.period) = true) ∧
    (let q := full63.ports[(63 : Fin 64)];
      262144 ≤ q.accum.total ∧ full63.steward.absent = false ∧ full63.windowOf 63 = none ∧ q.table.isSome = true) ∧
    due63.ports[(63 : Fin 64)].accum.total < 262144 := by decide +kernel

/-- A cluster in QUARANTINE, calibrating by a FULL calibration with its turn come, aligning, or powering up. -/
def quarantined (ph : ClPhase) (out : Bool) (std : IoStd) (v : Vddio) (j : Option JoinPoint) : State :=
  let s := live.modCluster 7 (fun c => { c with
    state := .quarantine, phase := ph, calTurn := true, joinAt := j, iostd := std, vddio := v, bank := v })
  s.modPort 63 (fun q => { q with cfg := { q.cfg with output := out } })
/-- Hits at both ends of the codes; the same with a comparator offset at, and beyond, its bound. -/
def sample0 (off : Int) : CalSample :=
  ⟨[(0, 131072), (383, 131072)], (List.range 250).map (fun k => (k, 0, 64)), off, 0, 0, 100, 250⟩
theorem witness_ClustersComeAndGo :
    (let s := in7 .draining;
      s.clusters[(7 : Fin 8)].state = .draining ∧ (∀ p ∈ portsOf 7, s.ports[p].queue = [] ∧
          s.ports[p].completing (s.tu s.tb.now) = false)) ∧
    (∀ ph ∈ [ClPhase.powerup, .calibrate, .align], let s := quarantined ph false .lvds .none none; let c := s.clusters[(7 :
        Fin 8)]
      c.state = .quarantine ∧ c.phase = ph ∧ c.calTurn = true ∧ c.calDone = false ∧ c.short = false ∧ s.steward.absent = false ∧
      s.tbLocked = true) ∧
    (∀ x ∈ [sample0 50000, sample0 50001], (measured 262144 64 x).total = 262144 ∧ (measured 262144 64 x).points.length = 250) ∧
    ((List.replicate 8 (sample0 50000)).length = 8 ∧
        tableFits (calibrated false live.ports[portOf 7 7] (sample0 50000) live.cycle) = true ∧
      tableFits (calibrated false live.ports[portOf 7 7] (sample0 50001) live.cycle) = false) ∧
    (let s := quarantined .align true .lvcmos33 .v18 none; let c := s.clusters[(7 : Fin 8)];
      anyOutput 7 s = true ∧ admits c.iostd c.vddio = false) ∧
    (anyOutput 7 (quarantined .align false .lvcmos33 .v18 none) = false ∧
      (quarantined .align false .lvds .v25 (some .next)).clusters[(7 : Fin 8)].joinAt ≠ none) ∧
    (let s := live.modCluster 7 (fun c => { c with state := .joining, fix := some (.fixed 1000000000000) })
     let c := s.clusters[(7 : Fin 8)]
     c.state = .joining ∧ c.fix = some (.fixed 1000000000000) ∧ tnotBefore s.tb.now 1000000000000 = true ∧
       tnotBefore s.tb.now (s.cycleFrom 1000000000000) = true) ∧
    (let c := (quarantined .align false .lvds .v25 none).clusters[(7 : Fin 8)];
      c.state ≠ .off ∧ c.powered = true ∧ c.bank = .v25 ∧ admits c.iostd .v25 = true ∧ admits c.iostd .v33 = false ∧
        admits c.iostd .v18 = true) ∧
    (bankClass 2970 = .v33 ∧ bankClass 2969 = .none ∧ bankClass 1980 = .v18 ∧ bankClass 1981 = .none ∧ bankClass 2250 = .v25 ∧
      bankClass 2750 = .v25) := by decide +kernel

/-- BelfrySamplesMeetRules has no hypotheses. One rule that fires with COUNT, and one that does not. -/
theorem witness_BelfrySamplesMeetRules :
    (let r : Rule := { Rule.default with src := .refa, filter := .count, action := [.count] }
     (r.sample 1).2.isSome || (r.sample 0).2.isNone) = true := by decide +kernel

/-- Each step of the way into SLEEP and out of it. -/
def sleeping (x : SleepStep) : State := live.modBel (fun b => { b with step := x })
def keptAxis (st : AxisState) (an : Option Anchor) (idx : List TimeWord) : State :=
  let s := (sleeping (.frame 0 0)).modBel (fun b => { b with axis := some 3, counter := some 9 })
  s.modAxis 3 (fun x => { x with
    state := st, anchor := an, period := 10000000000 * 65536, pendIdx := idx, cfg := { x.cfg with mode := .frame } })
theorem witness_SleepComesAndGoes :
    ((sleeping (.accepted (some 990000000000) false)).entryDue = true ∧ (sleeping (.accepted none true)).entryDue = true ∧
      (sleeping (.accepted (some 990000000001) false)).entryDue = false) ∧
    (∀ c ∈ [(985000000000, true), (985000000001, false)],
      let s := keptAxis .confirmed (some ⟨BitVec.ofNat 64 c.1, 0, true⟩) []; let x := s.axes[(3 : Fin 4)]
      s.bel.step = .frame 0 0 ∧ s.bel.axis = some 3 ∧ x.state = .confirmed ∧ x.gen = 0 ∧ 0 ≤ fdiff (0 : Frame) (0 + 1) + 1 ∧
      tnotBefore s.tb.now (tadd (predictFrom ⟨BitVec.ofNat 64 c.1, 0, true⟩ x.period 1) (x.period / 131072)) = c.2) ∧
    (keptAxis .reacquire none []).axes[(3 : Fin 4)].state ≠ .confirmed ∧
    ((sleeping (.flush 0)).bel.step = .flush 0 ∧ (sleeping (.flush 0)).fifo.records = 0 ∧
      tnotBefore live.tb.now (tadd 900000000000 live.bel.flushWait) = true ∧
      tnotBefore live.tb.now (tadd 900000000001 live.bel.flushWait) = false) ∧
    ((sleeping .flushed).bel.step = .flushed ∧ (sleeping .waking).bel.step = .waking) ∧
    (live.tb.active = some 0 ∧ live.tb.refs[(0 : Fin 4)].role = .candidate ∧
      (watched true .idle 0).tb.refs[(0 : Fin 4)].present = true) ∧
    (∀ c ∈ [(999950000000, true), (999950000001, false)], let s := keptAxis .reacquire none [BitVec.ofNat 64 c.1]
      s.bel.axis = some 3 ∧ s.bel.counter = some 9 ∧ s.axes[(3 : Fin 4)].state = .reacquire ∧ s.axes[(3 :
          Fin 4)].anchor = none ∧
      s.axes[(3 : Fin 4)].pendIdx = [BitVec.ofNat 64 c.1] ∧ tnotBefore s.cycle (tadd (BitVec.ofNat 64 c.1) 50000000) = c.2) :=
          by
  decide +kernel

/-- A leader at pulse k, and a follower. -/
def leading (k : Nat) : State := live.modSync (fun y => { y with
  role := .leader, state := .lead, train := some ⟨BitVec.ofNat 64 (1000000000000 - k * 10000000000), k, 0x8000000000000000⟩ })
def following (st : SyncState) (r : Int) (pass : TimeWord) : State := live.modSync (fun y => { y with
  role := .follower, state := st, ret := true, r := r, s := 1000000000000, lastPass := pass })
def stepping : State := { following .stepwait 0 0 with clusters := State.reset.clusters }
theorem witness_SyncTrainAligns :
    (∀ k ∈ [0, 1, 64, 65], let s := leading k
      s.sync.role = .leader ∧ s.sync.train = some ⟨BitVec.ofNat 64 (1000000000000 - k * 10000000000), k, 0x8000000000000000⟩ ∧
      s.tbLocked = true ∧ tnotBefore s.tb.now (tadd (BitVec.ofNat 64 (1000000000000 - k * 10000000000))
          (k * s.sync.period)) = true) ∧
    (let y := (following .locked 0 0).sync; y.role = .follower ∧ y.ret = true ∧ y.state = .locked ∧ y.out = []) ∧
    (live.tb.started = true ∧ tnotBefore live.tb.now 1000000000000 = true ∧ live.padsOff = false) ∧
    (let y := { (following .locked 0 0).sync with rise := some (999999000000, 7), msg := some ⟨7, [998999000000], [true]⟩ };
      y.rise = some (999999000000, 7) ∧ readWidth (tdiff 1000000000000 999999000000) = .zero ∧
      readWidth (tdiff 1000000000000 997000000000) ≠ .start ∧ readWidth (tdiff 1000000000000 999997000000) = .start ∧
      (⟨7, [989999000000], [true]⟩ : Message).rises.getLast? = some 989999000000 ∧
      (tdiff 999999000000 (tadd 989999000000 y.period)).natAbs ≤ y.catchTu) ∧
    (∀ c ∈ [(1000000010000, true), (1000000010001, false)], let y := (following .locked 0 0).sync
      decide ((tdiff (tadd y.s y.delay) (BitVec.ofNat 64 c.1) - y.r).natAbs ≤ y.catchTu) = c.2) ∧
    (stepping.stepFree = true ∧ stepping.tb.running = true ∧ live.stepFree = false) ∧
    (let s := following .locked 0 960000000000;
      s.sync.role = .follower ∧ s.sync.state = .locked ∧
          tnotBefore s.tb.now (tadd s.sync.lastPass (4 * s.sync.period)) = true) ∧
    (∀ r ∈ [(5 : Int), -5], let y := (following .locked r 0).sync; y.r ≠ 0 ∧ y.state = .locked ∧ y.slewed = none) ∧
    live.sync.r = 0 := by
  decide +kernel

end Sys2Proof.Tests
end

section
/-! PROOF. Lines that are blank or too long (R55, R58, R91, R118): what the rejection responses to an S line and to a ! line do,
and what a terminator does to such a line. -/
namespace Sys2Proof.Machine
open Sys2Proof

/-! ### Rejection responses (R91, R118) -/

theorem rejectionsFull_of_four (u : State) (k : Link) (h : 4 ≤ u.unsentRejections k) : u.rejectionsFull k = true :=
  decide_eq_true h
theorem rejectionsFull_of_room (u : State) (k : Link) (h : u.unsentRejections k < 4) : u.rejectionsFull k = false :=
  decide_eq_false (Nat.not_le.2 h)

theorem rejectUrgent_of_room (a : Arrived) (code : Nat) (u : State) (h : u.unsentRejections a.link < 4) :
    rejectUrgent a (.er code "") false u = putOut a.link { rejection a code with kind := .urgent } u := by
  unfold rejectUrgent
  rw [rejectionsFull_of_room u _ h]
  rfl

/-- R79: no rejection response to an S line has a detail. -/
theorem detail_of_isRejection (code col : Nat) (h : isRejection code = true) : SynErr.detail ⟨code, col⟩ = "" := by
  have hc : code = 108 ∨ code = 110 ∨ code = 120 ∨ code = 121 ∨ code = 503 ∨ code = 506 := by simpa [isRejection] using h
  rcases hc with rfl | rfl | rfl | rfl | rfl | rfl <;> rfl

/-- A line that waits for its turn to be rejected is answered by the rejection response of the host-link logic. -/
theorem answerBad_rejection (a : Arrived) (code : Nat) (u v : State) (h : isRejection code = true) :
    answerBad (a.req u (.bad ⟨code, 0⟩)) ⟨code, 0⟩ v = putOut a.link (rejection a code) v := by
  have hr : (a.req u (.bad ⟨code, 0⟩)).rejected = true := h
  unfold answerBad SynErr.reply
  rw [hr, detail_of_isRejection code 0 h]
  rfl

theorem rejectStandard_at_once (a : Arrived) (code : Nat) (u : State) (hc : isRejection code = true)
    (h : u.unsentRejections a.link < 4) (hq : ∀ r ∈ u.steward.queue, r.link ≠ a.link) :
    rejectStandard a code u =
      attn (u.modLink a.link (fun m => { m with standardQ := m.standardQ ++ [rejection a code] })) := by
  have hany : u.steward.queue.any (fun q => decide (q.link = a.link)) = false := by simpa using hq
  unfold rejectStandard
  simp only [rejectionsFull_of_room u _ h, hany, Bool.false_eq_true, if_false]
  rw [answerBad_rejection a code u u hc, putOut_std a.link (rejection a code) u rfl]

theorem rejectStandard_in_turn (a : Arrived) (code : Nat) (u : State) (h : u.unsentRejections a.link < 4)
    (hq : ∃ r ∈ u.steward.queue, r.link = a.link) :
    rejectStandard a code u = { u with steward := { u.steward with
      queue := u.steward.queue ++ [a.req u (.bad ⟨code, 0⟩)] } } := by
  have hany : u.steward.queue.any (fun q => decide (q.link = a.link)) = true := by simpa using hq
  unfold rejectStandard
  simp only [rejectionsFull_of_room u _ h, hany, Bool.false_eq_true, if_false, if_true]

/-! ### A line that ran over (R55, R93 step 1) -/

theorem meetLine_tooLong (a : Arrived) (span : Nat) (corrupt : Bool) (u : State) (h : a.tooLong = true) :
    meetLine a span corrupt u = rejectLine a 108 u := by
  have ht : a.test = some 108 := if_pos h
  unfold meetLine
  rw [ht]

theorem rejectLine_of_full (a : Arrived) (code : Nat) (u : State) (h : 4 ≤ u.unsentRejections a.link) :
    rejectLine a code u = u :=
  if_pos (rejectionsFull_of_four u _ h)

theorem rejectLine_tooLong (a : Arrived) (u : State) (h : u.unsentRejections a.link < 4) :
    rejectLine a 108 u = if a.urgent then rejectUrgent a (.er 108 "") false u else rejectStandard a 108 u := by
  unfold rejectLine
  rw [rejectionsFull_of_room u _ h]
  rfl

/-! ### The terminator (R54, R58) -/

theorem lineEnded_queue (k : Link) (lf : Bool) (u : State) : (lineEnded k lf u).steward.queue = u.steward.queue := by
  cases k <;> rfl

theorem lineEnded_part (k : Link) (lf : Bool) (u : State) : ((lineEnded k lf u).link k).part = [] := by
  rw [lineEnded, link_attn_mod]
  rfl

theorem modLink_congr {u : State} {k : Link} {f g : LinkState → LinkState} (h : f (u.link k) = g (u.link k)) :
    u.modLink k f = u.modLink k g := by
  cases k
  case con => exact congrArg (fun m => { u with con := m }) h
  case hspi => exact congrArg (fun m => { u with hspi := m }) h

/-- The terminator has emptied the partial line, so the prompt stands alone. -/
theorem lineEnded_prompt (k : Link) (lf : Bool) (u : State) :
    (lineEnded k lf u).modLink k LinkState.prompt =
      (lineEnded k lf u).modLink k (fun m => { m with echo := m.echo ++ [62, 32], prompted := true }) :=
  modLink_congr (by simp only [LinkState.prompt, lineEnded_part, promptText, textBytes, List.map_nil, List.append_nil])

section
variable {u : State} {k : Link} {lf : Bool} (corrupt : Bool) (span : Nat) (hears : u.hears k = true) (settled : u.settled)
  (first : (lf && (u.link k).afterCr) = false) (noEscape : (u.link k).esc = .none)
include hears settled first noEscape

theorem lineReceived_of_blank (fits : (u.link k).tooLong = false) (blank : isBlank (u.link k).part = true) :
    lineReceived k lf span corrupt u = if (u.link k).mode = .typed then
      attn ((lineEnded k lf u).modLink k LinkState.prompt) else lineEnded k lf u := by
  rw [base u k lf corrupt span hears settled first noEscape, fits, blank]
  rfl

theorem lineReceived_of_tooLong (long : (u.link k).tooLong = true) :
    lineReceived k lf span corrupt u = rejectLine (arrivedLine k (u.link k)) 108 (lineEnded k lf u) := by
  rw [base u k lf corrupt span hears settled first noEscape, ← meetLine_tooLong _ span corrupt _ long, long]
  rfl
end

/-- Settles O12. A blank line ends at its terminator, with the prompt in typed mode; a line that ran over meets only the length
test, and its rejection is dropped, formed at once, or put behind the lines of its link that wait for the steward. -/
theorem blankLinesGetNoResponse : Obligations.BlankLinesGetNoResponse := by
  intro s d k lf corrupt span u l v a hears settled first noEscape
  have run (w : State) (h : lineReceived k lf span corrupt u = w) :
      exec (.lineReceived d k lf span corrupt) s = .next w := congrArg Host.Outcome.next h
  have blank (fits : l.tooLong = false) (hb : isBlank l.part = true) :=
    lineReceived_of_blank corrupt span hears settled first noEscape fits hb
  have long (h : l.tooLong = true) : lineReceived k lf span corrupt u = rejectLine a 108 v :=
    lineReceived_of_tooLong corrupt span hears settled first noEscape h
  refine ⟨fun fits hb machine => run _ ?_, fun fits hb typed => run _ ?_, fun h full => run _ ?_, fun h room => ?_⟩
  · rw [blank fits hb, if_neg (by rw [machine]; decide)]
  · rw [blank fits hb, if_pos typed, lineEnded_prompt]
  · rw [long h, rejectLine_of_full a 108 v full]
  · have reject := (long h).trans (rejectLine_tooLong a v room)
    have queue : v.steward.queue = u.steward.queue := lineEnded_queue k lf u
    refine ⟨fun urgent => run _ ?_, fun standard alone => run _ ?_,
      fun standard behind => ⟨a.req v (.bad ⟨108, 0⟩), rfl, rfl, run _ ?_⟩⟩
    · rw [reject, if_pos urgent]
      exact rejectUrgent_of_room a 108 v room
    · rw [reject, standard]
      exact rejectStandard_at_once a 108 v rfl room (queue ▸ alone)
    · rw [reject, standard, ← queue]
      exact rejectStandard_in_turn a 108 v room (queue ▸ behind)

end Sys2Proof.Machine
end

section
/-! PROOF. A framing error on the console (R99, R100): the partial line goes, and at most the console hunts again. -/
namespace Sys2Proof.Machine
open Sys2Proof

/-- R99: hunting again concerns the receiver of the console alone. -/
theorem rehunt_eq (u : State) : rehunt u = { u with console := (rehunt u).console } := by
  unfold rehunt
  split <;> rfl

/-- R100: the console loses its partial line; its receiver is the one other part that can change. -/
theorem framingError_of_hears {u : State} (hears : u.hears .con = true) :
    framingError u = { u with con := u.con.dropLine, console := (framingError u).console } := by
  have run : framingError u = rehunt { u with con := u.con.dropLine } := if_neg (by rw [hears]; decide)
  rw [run]
  exact rehunt_eq _

/-- Settles O15. The line is dropped with its flags; no response is queued, and the steward and the other link stay. -/
theorem framingErrorDropsLine : Obligations.FramingErrorDropsLine := by
  intro s d u hears
  have run : exec (.conFramingError d) s =
      .next { u with con := u.con.dropLine, console := (framingError u).console } :=
    congrArg Host.Outcome.next (framingError_of_hears hears)
  exact ⟨_, run, rfl, rfl, rfl, rfl, rfl, rfl, rfl, rfl⟩

end Sys2Proof.Machine
end

section
/-! PROOF. The edges of a pulse leave a port (R220, R225): what an ECHO port awaits of its own edge, and what each edge does to
the port, to its cluster and to the event fabric. -/
namespace Sys2Proof.Machine
open Sys2Proof

/-- R235, R250: of a port, the emitted edges alone can change, and they do where the port is in ECHO mode with its pad driven. -/
theorem echoPush_eq (rising : Bool) (x : Pulse) (q : Port) :
    echoPush rising x q = { q with emitted := if q.cfg.mode = .echo ∧ q.cfg.output = true then
      q.emitted ++ [⟨rising, x.late.isSome, x.flags⟩] else q.emitted } := by
  by_cases echoes : q.cfg.mode = .echo ∧ q.cfg.output = true
  · obtain ⟨mode, driven⟩ := echoes
    simp only [echoPush, mode, driven, decide_true, Bool.and_self, if_true, and_self]
  · have quiet : (decide (q.cfg.mode = .echo) && q.cfg.output) = false := by simpa using echoes
    rw [echoPush, quiet, if_neg echoes]
    rfl

/-- What the port itself becomes when the leading edge of one of its pulses leaves, whatever the state of its cluster. -/
def Port.withLeadingOut (x : Pulse) (q : Port) : Port :=
  echoPush true x { q with queue := replacePulse x { x with high := true } q.queue, outHigh := true }

theorem Port.withLeadingOut_eq (x : Pulse) (q : Port) :
    q.withLeadingOut x = { q with
      queue := replacePulse x { x with high := true } q.queue, outHigh := true,
      emitted := if q.cfg.mode = .echo ∧ q.cfg.output = true then
        q.emitted ++ [⟨true, x.late.isSome, x.flags⟩] else q.emitted } :=
  echoPush_eq true x _

section
variable {p : Fin 64} {x : Pulse} {u : State}

/-- R225: while the cluster is ACTIVE the edge counts in EMITS and raises EMIT in its own fabric cycle. -/
theorem leaveLeading_of_active {l : TimeWord} (lead : x.lead = some l) (active : u.portActive p = true) :
    leaveLeading p x u = raiseAt (evPort p 0) (u.cycleOf l) 1 x.flags (u.modPort p (fun q =>
      { q.withLeadingOut x with counts := { (q.withLeadingOut x).counts with
          emits := (q.withLeadingOut x).counts.emits + 1 } })) := by
  have still : (u.modPort p (Port.withLeadingOut x)).portActive p = true := active
  calc leaveLeading p x u
    _ = raiseAt (evPort p 0) (u.cycleOf (x.lead.getD u.tb.now)) 1 x.flags
          ((u.modPort p (Port.withLeadingOut x)).modPort p
            (fun q => { q with counts := { q.counts with emits := q.counts.emits + 1 } })) := if_pos still
    _ = _ := by rw [lead, port_twice]; rfl

/-- R390: while it is not ACTIVE the edge raises nothing; the pulse counts for the drain. -/
theorem leaveLeading_of_inactive (inactive : u.portActive p = false) :
    leaveLeading p x u = (u.modPort p (Port.withLeadingOut x)).modCluster (clusterOf p)
      (fun c => { c with emittedSoFar := c.emittedSoFar + 1 }) := by
  have still : ¬ (u.modPort p (Port.withLeadingOut x)).portActive p = true := ne_true_of_eq_false inactive
  exact if_neg still

end

theorem exec_pulseLeadingEdge_of_due {s : State} {d : Nat} {p : Fin 64} {x : Pulse}
    (due : leadingDue (s.elapse d) p = some x) :
    exec (.pulseLeadingEdge d p) s = .next (leaveLeading p x (s.elapse d)) := by
  show execPulseLeadingEdge d p s = _
  simp only [execPulseLeadingEdge, due]

theorem exec_pulseTrailingEdge_of_due {s : State} {d : Nat} {p : Fin 64} {x : Pulse}
    (due : trailingDue (s.elapse d) p = some x) :
    exec (.pulseTrailingEdge d p) s = .next (leaveTrailing p x (s.elapse d)) := by
  show execPulseTrailingEdge d p s = _
  simp only [execPulseTrailingEdge, due]

/-- Settles O49. The cluster's state decides between EMIT with its count and the count of the drain; the port changes alike in
both, and a trailing edge changes its port alone. -/
theorem leadingEdgeEmits : Obligations.LeadingEdgeEmits := by
  intro s d p x u q k _ echoed
  refine ⟨fun l due lead => ⟨fun active => ?_, fun inactive => ?_⟩, fun due => ?_⟩
  · rw [exec_pulseLeadingEdge_of_due due, leaveLeading_of_active lead active]
    simp only [Port.withLeadingOut_eq]
    rfl
  · rw [exec_pulseLeadingEdge_of_due due, leaveLeading_of_inactive inactive]
    simp only [State.modPort, State.modCluster, upd, Port.withLeadingOut_eq]
    rfl
  · rw [exec_pulseTrailingEdge_of_due due]
    simp only [leaveTrailing, State.modPort, upd, echoPush_eq]
    rfl

end Sys2Proof.Machine
end

section
/-! PROOF. SEG DEFINE takes blocks of the segment store (R292): when the store has room, and what the line does with a length
that reads as a number. -/
namespace Sys2Proof.Machine
open Sys2Proof

/-! ### Room in the segment store -/

/-- R292: in a store that shares out no more than its 16 384 blocks, the blocks that are free are exactly the others. -/
theorem SegStore.free_lt_iff {st : SegStore} {b : Nat} (ok : st.ok) :
    st.free < b ↔ 16384 < (st.segs.map Segment.blocks).sum + b := by
  obtain ⟨_, within, _⟩ := ok
  unfold SegStore.free
  omega

theorem SegStore.not_free_lt {st : SegStore} {b : Nat} (room : (st.segs.map Segment.blocks).sum + b ≤ 16384) :
    ¬ st.free < b := by
  unfold SegStore.free
  omega

/-! ### The line (R292) -/

/-- A text that reads as a value of its field has no syntax code. -/
theorem fieldSyn_of_reads {ty : FieldTy} {text : RawVal} {x : ReadVal} (reads : readField ty text.text.toList = .ok x) :
    fieldSyn ty text = none := by
  unfold fieldSyn
  rw [reads]

section
variable {n : Fin 4096} {len : RawVal} {l : Nat} (reads : readField lengthField len.text.toList = .ok (.val (.one (.int l))))
include reads

/-- The tests of a length in the order of their codes, and the segment it defines if it passes them. -/
theorem segDefineVerb_of_length (v : State) :
    segDefineVerb (.ok (.segn n)) len v =
      if l % 128 ≠ 0 then reject 307 (objName (.segn n))
      else if l < 1024 ∨ 33554432 < l * v.store.defWidth then reject 301 (objName (.segn n))
      else if (v.store.find n).isSome then reject 304 (objName (.segn n))
      else if v.store.free < blocksFor l v.store.defWidth then reject 504 (objName (.segn n))
      else done ("SEG DEFINE " ++ objName (.segn n) ++ " LENGTH=" ++ dec l)
        { v with store := { v.store with segs := putSegment ⟨n, l, v.store.defWidth, []⟩ v.store.segs } } := by
  unfold segDefineVerb
  simp only [theSegment, theObj, bind, Except.bind, pure, Except.pure, reads, Int.toNat_natCast,
    Bool.or_eq_true, decide_eq_true_eq]
  rfl

theorem exec_segDefine_of_front {s : State} {d : Nat} {r : Req} {rest : List Req}
    (front : Front (s.elapse d) r rest (.segDefine (.ok (.segn n)) len)) :
    exec (.segDefine d false) s = .next (settleQueue (answer r
      (segDefineVerb (.ok (.segn n)) len ((s.elapse d).took rest)) ((s.elapse d).took rest))) := by
  show execSegDefine d false s = _
  unfold execSegDefine
  rw [front.run _ _ _ _ rfl]
  simp only [fieldSyn_of_reads reads, Bool.false_eq_true, if_false]
end

/-- Settles O28. The line does what its tests of the length, the number and the room say, each reached when those before it
pass; the bound of the store makes too little room the same as more than 16 384 blocks in all. -/
theorem segDefineTakesBlocks : Obligations.SegDefineTakesBlocks := by
  intro s d r rest n len l u v name b used front reads
  have run : exec (.segDefine d false) s = .next (settleQueue (answer r (segDefineVerb (.ok (.segn n)) len v) v)) :=
    exec_segDefine_of_front reads front
  have tests := segDefineVerb_of_length reads (n := n) v
  refine ⟨fun ragged => ?_, fun whole range => ?_, fun whole long fits => ?_⟩
  · rw [run, tests, if_pos ragged]
    rfl
  · rw [run, tests, if_neg (not_not_intro whole), if_pos range]
    rfl
  · have inside : ¬ (l < 1024 ∨ 33554432 < l * v.store.defWidth) :=
      fun outside => outside.elim (Nat.not_lt.2 long) (Nat.not_lt.2 fits)
    rw [if_neg (not_not_intro whole), if_neg inside] at tests
    refine ⟨fun defined => ?_, fun fresh full ok => ?_, fun fresh room => ?_⟩
    · rw [run, tests, if_pos (Option.isSome_iff_ne_none.2 defined)]
      rfl
    · have short : v.store.free < blocksFor l v.store.defWidth := (SegStore.free_lt_iff ok).2 full
      rw [run, tests, if_neg (by rw [fresh]; decide), if_pos short]
      rfl
    · have enough : ¬ v.store.free < blocksFor l v.store.defWidth := SegStore.not_free_lt room
      rw [run, tests, if_neg (by rw [fresh]; decide), if_neg enough]
      rfl

end Sys2Proof.Machine
end

section
/-! PROOF. SYS SLEEP is rejected (R417): the first object that keeps the device awake, and the code that names it. -/
namespace Sys2Proof.Machine
open Sys2Proof

theorem find?_finRange_of_first {n : Nat} {p : Fin n → Bool} {k : Fin n} (holds : p k = true)
    (first : ∀ j, j < k → p j = false) : (List.finRange n).find? p = some k := by
  refine List.find?_eq_some_iff_getElem.2 ⟨holds, k, by simp only [List.length_finRange, Fin.is_lt], ?_, fun j below => ?_⟩
  · simp only [List.getElem_finRange, Fin.cast_mk, Fin.eta]
  · simp only [List.getElem_finRange, Fin.cast_mk, Bool.not_eq_true']
    exact first _ below

theorem Group.live_iff {g : Group} : g.live = true ↔ g.state = .running ∨ g.state = .waiting := by
  unfold Group.live
  cases g.state <;> decide

section
variable {v : State}

/-! ### The tests of R417 in their order -/

theorem sleepTest_of_cluster {k : Fin 8} (on : v.clusters[k].state ≠ .off)
    (before : ∀ j : Fin 8, j < k → v.clusters[j].state = .off) : sleepTest v = some (408, objName (.cl k)) := by
  have found : (List.finRange 8).find? (fun k => decide (v.clusters[k].state ≠ .off)) = some k :=
    find?_finRange_of_first (decide_eq_true on) (fun j hj => decide_eq_false (not_not_intro (before j hj)))
  simp only [sleepTest, found]

variable (off : ∀ k : Fin 8, v.clusters[k].state = .off)
include off

theorem no_cluster_on : (List.finRange 8).find? (fun k => decide (v.clusters[k].state ≠ .off)) = none :=
  find?_none_of (fun k _ => decide_eq_false (not_not_intro (off k)))

theorem sleepTest_of_group {g : Fin 8} (works : v.groups[g].live = true)
    (before : ∀ h : Fin 8, h < g → v.groups[h].live = false) : sleepTest v = some (408, objName (.grp g)) := by
  have found : (List.finRange 8).find? (fun g => v.groups[g].live) = some g := find?_finRange_of_first works before
  simp only [sleepTest, no_cluster_on off, found]

/-- R435: with the clusters and the groups at rest, the kept axis is tested for its state first, then for its configuration. -/
theorem sleepTest_of_axis (idle : ∀ g : Fin 8, v.groups[g].live = false) {a : Fin 4} (kept : v.bel.axis = some a) :
    sleepTest v =
      if v.axes[a].state ≠ .confirmed then some (403, objName (.ax a))
      else if v.axes[a].cfg.mode ≠ .frame ∨ (∃ p, v.axes[a].cfg.source = .port p) ∨ v.axes[a].cfg.source = .mark ∨
        v.axes[a].cfg.period < 200000000 ∨ 10000000000000 < v.axes[a].cfg.period then some (304, objName (.ax a))
      else none := by
  have none_live : (List.finRange 8).find? (fun g => v.groups[g].live) = none := find?_none_of (fun g _ => idle g)
  simp only [sleepTest, no_cluster_on off, none_live, kept]
  cases v.axes[a].cfg.source <;> simp only [ne_eq, Bool.or_false, Bool.or_true, Bool.true_or, Bool.or_eq_true,
    decide_eq_true_eq, reduceCtorEq, EdgeSrc.port.injEq, exists_eq', exists_const, false_or, true_or, or_true, if_true]
end

/-! ### The line (R417) -/

theorem exec_sysSleep_of_front {s : State} {d : Nat} {r : Req} {rest : List Req}
    (front : Front (s.elapse d) r rest .sysSleep) :
    exec (.sysSleep d false) s =
      .next (settleQueue (answer r (sleepVerb ((s.elapse d).took rest)) ((s.elapse d).took rest))) := by
  show execSysSleep d false s = _
  unfold execSysSleep
  rw [front.run _ _ _ _ rfl]
  rfl

/-- The object that keeps the device awake is named in the response; nothing of the entry begins. -/
theorem exec_sysSleep_of_test {s : State} {d : Nat} {r : Req} {rest : List Req} {code : Nat} {detail : String}
    (front : Front (s.elapse d) r rest .sysSleep) (test : sleepTest ((s.elapse d).took rest) = some (code, detail)) :
    exec (.sysSleep d false) s = .next (r.ered code detail ((s.elapse d).took rest)) := by
  have rejected : sleepVerb ((s.elapse d).took rest) = .error (code, detail) := by
    simp only [sleepVerb, test]
  rw [exec_sysSleep_of_front front, rejected]
  rfl

/-- Settles O30. Each test is reached when those before it pass: the clusters, the groups, the kept axis's state, and its
configuration. -/
theorem sleepIsRejected : Obligations.SleepIsRejected := by
  intro s d r rest u v works front
  refine ⟨fun k on before => exec_sysSleep_of_test front (sleepTest_of_cluster on before), fun off => ⟨?_, ?_⟩⟩
  · intro g busy before
    have idle (h : Fin 8) (lower : h < g) : v.groups[h].live = false :=
      Bool.eq_false_iff.2 (before h lower ∘ Group.live_iff.1)
    exact exec_sysSleep_of_test front (sleepTest_of_group off (Group.live_iff.2 busy) idle)
  · intro idle a kept x
    have test := sleepTest_of_axis off (fun g => Bool.eq_false_iff.2 (idle g ∘ Group.live_iff.1)) kept
    refine ⟨fun unsure => exec_sysSleep_of_test front ?_, fun confirmed conflict => exec_sysSleep_of_test front ?_⟩
    · rw [test, if_pos unsure]
    · rw [test, if_neg (not_not_intro confirmed), if_pos conflict]

end Sys2Proof.Machine
end

section
/-! PROOF. What every step keeps (R39, R144, R145, R157, R160, R292, R294, R432, R472, R474): the invariants of Safety.lean are
read off what every command and every idle cycle keeps. -/
namespace Sys2Proof.Machine
open Sys2Proof

/-- A step keeps what the command at the front of the queue keeps, or what an idle fabric cycle keeps. -/
theorem step_keeps {s t : State} (run : step s = .next t) : ∃ q, Keeps { s with pending := q } t := by
  unfold step at run
  split at run
  · cases run
    exact ⟨s.pending, idle_keeps (.refl s)⟩
  · exact ⟨_, exec_keeps _ _ t run⟩

/-- Settles O6, by what a step keeps of the central FIFO. -/
theorem stepKeepsFifoBounds : Obligations.StepKeepsFifoBounds := by
  intro s t ok run
  obtain ⟨_, kept⟩ := step_keeps run
  exact kept.fifo ok.fifo

/-- Settles O7, by what a step keeps of the timebase. -/
theorem stepKeepsTimebaseSound : Obligations.StepKeepsTimebaseSound := by
  intro s t ok run
  obtain ⟨_, kept⟩ := step_keeps run
  exact kept.tb ok.tb

/-- Settles O8, by what a step keeps of the segment store, the download buffer and Belfry's log. -/
theorem stepKeepsStoreBounds : Obligations.StepKeepsStoreBounds := by
  intro s t ok run
  obtain ⟨_, kept⟩ := step_keeps run
  exact ⟨kept.store ok.store, kept.dl ok.dl, kept.bel ok.bel⟩

/-- Settles O9. -/
theorem keyFusesProgramOnce : Obligations.KeyFusesProgramOnce := by
  intro s t _ run
  obtain ⟨_, kept⟩ := step_keeps run
  exact kept.fuses

end Sys2Proof.Machine
end

section
/-! PROOF. The line code (R121, R122, R128, R150): a symbol is read back from its code group, so stretches of symbols, frames
and ordered sets come out of a lane as they went in. -/
namespace Sys2Proof.Machine
open Sys2Proof

/-! ### Code groups (R121) -/

/-- The place of a value is found where the function takes it only once. -/
theorem placeOf_of_injOn {α : Type} [DecidableEq α] {f : Nat → α} {n a : Nat} (below : a < n)
    (inj : ∀ i < n, f i = f a → i = a) : placeOf f (f a) n = some a := by
  refine List.find?_range_eq_some.2 ⟨decide_eq_true rfl, List.mem_range.2 below, fun i lower => ?_⟩
  rw [decide_eq_false (fun same => absurd (inj i (by omega) same) (by omega))]
  rfl

/-- At a running disparity the blocks for five bits are distinct. -/
theorem sixOf_injOn : ∀ rd : Bool, ∀ x < 32, ∀ i < 32, sixOf rd i = sixOf rd x → i = x := by decide +kernel

/-- After a block for five bits the blocks for three bits are distinct. -/
theorem fourOf_injOn : ∀ rd : Bool, ∀ x < 32, ∀ y < 8, ∀ i < 8, fourOf rd x i = fourOf rd x y → i = y := by decide +kernel

/-- No data byte shares its code group with a control character of the lane. -/
theorem groupOf_control_ne_data : ∀ rd : Bool, ∀ x < 32, ∀ y < 8,
    let six := sixOf rd x
    let data := six ++ fourOf (disparityAfter 3 (onesOf six) rd) x y
    ∀ c ∈ [Sym.comma, .sof, .eof, .abort], groupOf rd c ≠ data := by decide +kernel

theorem symOf_control : ∀ rd : Bool, ∀ c ∈ [Sym.comma, .sof, .eof, .abort], symOf rd (groupOf rd c) = some c := by
  decide +kernel

theorem six_of_append (six : BitVec 6) (four : BitVec 4) : (six ++ four).extractLsb' 4 6 = six := by
  ext i below
  rw [BitVec.getElem_extractLsb', BitVec.getLsbD_append, if_neg (by omega)]
  rw [Nat.add_sub_cancel_left, BitVec.getLsbD_eq_getElem]

theorem four_of_append (six : BitVec 6) (four : BitVec 4) : (six ++ four).extractLsb' 0 4 = four := by
  ext i below
  rw [BitVec.getElem_extractLsb', BitVec.getLsbD_append, if_pos (by omega), Nat.zero_add, BitVec.getLsbD_eq_getElem]

/-- A data byte is read from its two blocks, each of which is found in its own place only. -/
theorem symOf_data (rd : Bool) (b : Byte) : symOf rd (groupOf rd (.data b)) = some (.data b) := by
  have low : b.toNat % 32 < 32 := Nat.mod_lt _ (by decide)
  have high : b.toNat / 32 < 8 := by have := b.isLt; omega
  have whole : BitVec.ofNat 8 (32 * (b.toNat / 32) + b.toNat % 32) = b := by
    rw [Nat.div_add_mod]
    exact BitVec.ofNat_toNat 8 b |>.trans (BitVec.setWidth_eq b)
  have plain : [Sym.comma, .sof, .eof, .abort].find? (fun c => decide (groupOf rd c = groupOf rd (.data b))) = none :=
    find?_none_of fun c listed => decide_eq_false (groupOf_control_ne_data rd _ low _ high c listed)
  have six := placeOf_of_injOn low (sixOf_injOn rd _ low)
  have four := placeOf_of_injOn high (fourOf_injOn (disparityAfter 3 (onesOf (sixOf rd (b.toNat % 32))) rd) _ low _ high)
  unfold symOf
  rw [plain]
  simp only [groupOf, six_of_append, four_of_append, six, four, Option.map_some, whole]

/-- R121: every symbol is read back from its code group. -/
theorem symOf_groupOf (rd : Bool) (x : Sym) : symOf rd (groupOf rd x) = some x := by
  cases x with
  | data b => exact symOf_data rd b
  | comma | sof | eof | abort => exact symOf_control rd _ (by decide)

theorem groupOf_inj (rd : Bool) {x y : Sym} (same : groupOf rd x = groupOf rd y) : x = y :=
  Option.some.inj (by rw [← symOf_groupOf rd x, same, symOf_groupOf rd y])

/-! ### Stretches, frames and ordered sets (R122, R128, R150) -/

theorem decodeGroups_encodeSyms (rd : Bool) (xs : List Sym) : decodeGroups rd (encodeSyms rd xs) = xs.map some := by
  induction xs generalizing rd with
  | nil => rfl
  | cons x xs ih => simp only [encodeSyms, decodeGroups, symOf_groupOf, ih, List.map_cons]

theorem bytes_of_data (bytes : List Byte) : (bytes.map (fun b => some (Sym.data b))).filterMap Sym.byte = bytes := by
  rw [List.filterMap_map]
  exact List.filterMap_some

/-- R128: a frame that a control character ends comes out with its bytes; whether it is whole is told by that character. -/
theorem frameIn_encodeSyms (rd : Bool) (bytes : List Byte) (last : Sym) :
    frameIn rd (encodeSyms rd (.sof :: bytes.map Sym.data ++ [last])) =
      match last with
      | .eof => some ⟨bytes, false, false⟩
      | .abort => some ⟨bytes, false, true⟩
      | _ => none := by
  have body : ((bytes.map Sym.data ++ [last]).map some).dropLast = bytes.map (fun b => some (Sym.data b)) := by
    rw [List.map_append, List.map_map]
    exact List.dropLast_concat
  unfold frameIn
  rw [decodeGroups_encodeSyms, List.cons_append, List.map_cons]
  simp only [body, bytes_of_data, List.length_map, ne_eq, not_true_eq_false, decide_false]
  rw [List.map_append, List.map_singleton, List.getLast?_concat]
  cases last <;> rfl

theorem orderedSets_idle (rd : Bool) (rest : List (Option Sym)) :
    orderedSets ((OrderedSet.syms rd .idle).map some ++ rest) = (orderedSets rest).map (fun xs => .idle :: xs) := by
  have known : ((if rd then d5_6 else d16_2) = d5_6 || (if rd then d5_6 else d16_2) = d16_2) = true := by
    cases rd <;> decide
  rw [orderedSets.eq_def]
  exact if_pos known

/-- A training set begins with the number of a lane, so it is not taken for an idle set. -/
theorem orderedSets_ts (rd : Bool) {l r t : Byte} (lane : l.toNat < 4) (rest : List (Option Sym)) :
    orderedSets ((OrderedSet.syms rd (.ts l r t)).map some ++ rest) =
      (orderedSets rest).map (fun xs => .ts l r t :: xs) := by
  have first : l ≠ d5_6 := by rintro rfl; exact absurd lane (by decide)
  have second : l ≠ d16_2 := by rintro rfl; exact absurd lane (by decide)
  simp [OrderedSet.syms, orderedSets, first, second]

theorem orderedSets_syms (rd : Bool) (sets : List OrderedSet) (lanes : ∀ l r t, .ts l r t ∈ sets → l.toNat < 4) :
    orderedSets ((sets.flatMap (OrderedSet.syms rd)).map some) = some sets := by
  induction sets with
  | nil => rfl
  | cons x xs ih =>
    have rest := ih fun l r t listed => lanes l r t (List.mem_cons_of_mem x listed)
    rw [List.flatMap_cons, List.map_append]
    cases x with
    | idle => rw [orderedSets_idle, rest, Option.map_some]
    | ts l r t => rw [orderedSets_ts rd (lanes l r t List.mem_cons_self), rest, Option.map_some]

/-- Settles O43. A code group is read back alone, and a stretch group by group. -/
theorem lineCodeRoundTrips : Obligations.LineCodeRoundTrips := by
  refine ⟨symOf_groupOf, fun rd _ _ => groupOf_inj rd, decodeGroups_encodeSyms, fun rd bytes => frameIn_encodeSyms rd bytes .eof,
    fun rd bytes => frameIn_encodeSyms rd bytes .abort, fun rd rd' sets lanes => ?_⟩
  rw [decodeGroups_encodeSyms]
  exact orderedSets_syms rd' sets lanes

end Sys2Proof.Machine
end

section
/-! PROOF. A step and its command, the reset state, and the time that passes. -/
namespace Sys2Proof.Machine
open Sys2Proof

/-- Settles O1: it is how a step is defined. -/
theorem stepRunsFrontCommand : Obligations.StepRunsFrontCommand := fun _ _ _ => rfl

/-- No meaning of a command stops the block. -/
theorem exec_completes (c : Instr) (s : State) : ∃ t, exec c s = .next t := by
  cases c <;> exact ⟨_, rfl⟩

/-- Settles O2. -/
theorem everyCommandCompletes : Obligations.EveryCommandCompletes := by
  intro c s
  obtain ⟨t, run⟩ := exec_completes c s
  exact ⟨t, run, (exec_keeps c s t run).pending⟩

/-! ### The reset state -/

theorem replicate_at {α : Type} {n : Nat} (x : α) (i : Fin n) : (Vector.replicate n x)[i] = x := Vector.getElem_replicate _

/-- Settles O4. Every entry of an array of parts is the default of its kind. -/
theorem resetGivesDefaults : Obligations.ResetGivesDefaults := by
  simp only [Obligations.ResetGivesDefaults, State.reset, Timebase.default, replicate_at, and_true]
  refine ⟨?_, ?_, ?_, ?_, ?_, ?_, ?_, ?_, ?_, ?_, ?_, ?_, ?_, ?_, ?_, ?_, ?_, ?_, ?_, ?_⟩ <;> decide +kernel

/-- Settles O5: nothing is stored at reset, and the ring oscillator clocks a timebase that has not started. -/
theorem resetIsOk : Obligations.ResetIsOk where
  fifo := ⟨by decide, by decide, fun _ h => (by cases h), fun _ h => (by cases h)⟩
  tb := ⟨by decide, by decide, fun h => absurd h (by decide)⟩
  store := ⟨trivial, by decide, fun _ h => absurd h List.not_mem_nil⟩
  dl := ⟨trivial, fun _ h => absurd h List.not_mem_nil⟩
  bel := Nat.zero_le _

/-! ### Time -/

/-- With nothing due, the clocks advance by the ticks that pass. -/
theorem elapse_of_calm {s : State} {d : Nat} (calm : s.Calm d) (running : s.tb.running = true) (ok : s.tb.ok) :
    (s.elapse d).tb.now = s.tb.now + BitVec.ofNat 64 (4000 * d) ∧ (s.elapse d).tb.phase = (s.tb.phase + d) % 4 ∧
      SameBut [.tb, .ports, .clusters, .groups, .fabric, .sp, .fifo] s (s.elapse d) := by
  obtain ⟨phase, _, _⟩ := ok
  by_cases none : d = 0
  · subst none
    rw [elapse_zero s 0 (.inr rfl)]
    exact ⟨(BitVec.add_zero _).symm, (Nat.mod_eq_of_lt phase).symm, .refl _ _⟩
  · obtain ⟨tb, same⟩ := calm.elapse running phase none
    have now : (s.tb.tick d).now = s.tb.now + BitVec.ofNat 64 (4000 * d) := by
      rw [Nat.mul_comm 4000 d]
      rfl
    rw [tb]
    exact ⟨now, rfl, same⟩

/-- Settles O3. -/
theorem timePasses : Obligations.TimePasses := by
  refine ⟨elapse_zero, fun s d running ok calm => elapse_of_calm calm running ok, fun s empty running ok calm => ?_⟩
  obtain ⟨now, phase, same⟩ := elapse_of_calm calm running ok
  have idles : step s = .next (s.elapse 4) := by
    unfold step
    rw [empty]
    rfl
  have whole : (s.tb.phase + 4) % 4 = s.tb.phase := by
    rw [Nat.add_mod_right]
    exact Nat.mod_eq_of_lt ok.1
  exact ⟨_, idles, now, phase.trans whole, same⟩

end Sys2Proof.Machine
end

section
/-! PROOF. Characters and terminators of a line (R54, R58, R102, R103, R106): what a byte does to the partial line of a link in
typed mode and in machine mode, and what the terminator takes. -/
namespace Sys2Proof.Machine
open Sys2Proof

/-! ### The editing bytes (R102) -/

section
variable {l : LinkState} (noEscape : l.esc = .none)
include noEscape

theorem typedByte_printable {b : Byte} (low : 0x20 ≤ b.toNat) (high : b.toNat ≤ 0x7E) :
    l.typedByte b = if maxLine ≤ l.part.length then { l with tooLong := true }.echoed bell
      else { l with part := l.part ++ [charOf b] }.echoed [b] := by
  unfold LinkState.typedByte
  rw [if_neg (not_not_intro noEscape), if_pos ⟨low, high⟩]

theorem typedByte_backspace : l.typedByte 0x08 =
    if l.part.isEmpty then l.echoed bell else { l with part := l.part.dropLast }.echoed [8, 32, 8] :=
  if_neg (not_not_intro noEscape)

theorem typedByte_ctrlU : l.typedByte 0x15 = { l with part := [], tooLong := false, echo := l.echo ++ crlf }.prompt :=
  if_neg (not_not_intro noEscape)

theorem typedByte_ctrlC :
    l.typedByte 0x03 = { l with part := [], tooLong := false, echo := l.echo ++ [94, 67] ++ crlf }.prompt :=
  if_neg (not_not_intro noEscape)

theorem typedByte_ctrlR : l.typedByte 0x12 = l.promptNew := if_neg (not_not_intro noEscape)

theorem typedByte_esc : l.typedByte 0x1B = { l with esc := .esc } := if_neg (not_not_intro noEscape)

end

/-- A byte that follows one that has changed its link. -/
theorem linkByte_typed_after {k : Link} {b : Byte} {u : State} {f g : LinkState → LinkState} (hears : u.hears k = true)
    (typed : (f (u.link k)).mode = .typed) (plain : b ≠ 13 ∧ b ≠ 10 ∧ b ≠ 0)
    (runs : ({ f (u.link k) with afterCr := false } : LinkState).typedByte b = g (u.link k)) :
    linkByte k b (attn (u.modLink k f)) = attn (u.modLink k g) := by
  obtain ⟨noCr, noLf, noFill⟩ := plain
  rw [linkByte_typed k _ b (fun _ => g (u.link k)) (by rw [hears_attn_mod, hears]) (by rw [link_attn_mod, typed])
    noCr noLf noFill (by rw [link_attn_mod, runs]), attn_attn_mod]
  exact congrArg attn (modLink_congr rfl)

/-- The three bytes of ESC [ A bring back the last line received. -/
theorem recall_of_bytes {k : Link} {u : State} (hears : u.hears k = true) (typed : (u.link k).mode = .typed)
    (noEscape : (u.link k).esc = .none) : linkByte k 0x41 (linkByte k 0x5B (linkByte k 0x1B u)) =
      attn (u.modLink k (fun l => ({ l with afterCr := false, esc := .csi } : LinkState).recall)) := by
  have first : linkByte k 0x1B u = attn (u.modLink k (fun l => { l with afterCr := false, esc := .esc })) :=
    linkByte_typed k u 0x1B _ hears typed (by decide) (by decide) (by decide) (typedByte_esc noEscape)
  rw [first, linkByte_typed_after (b := 0x5B) (g := fun l => { l with afterCr := false, esc := .csi }) hears typed
    (by decide) rfl]
  exact linkByte_typed_after hears typed (by decide) rfl

/-- Settles O10. Each row of the table is the byte's own effect on the link. -/
theorem typedModeEdits : Obligations.TypedModeEdits := by
  intro s d k u l hears typed noEscape becomes
  have runs (b : Byte) (plain : b ≠ 13 ∧ b ≠ 10 ∧ b ≠ 0) (f : LinkState → LinkState)
      (byte : ({ l with afterCr := false } : LinkState).typedByte b = f l) :
      Host.Outcome.next (linkByte k b u) = (.next (attn (u.modLink k f)) : Host.Outcome State Fault Refusal) :=
    congrArg _ (linkByte_typed k u b f hears typed plain.1 plain.2.1 plain.2.2 byte)
  have visible (b : Byte) (low : 0x20 ≤ b.toNat) : b ≠ 13 ∧ b ≠ 10 ∧ b ≠ 0 := by
    refine ⟨?_, ?_, ?_⟩ <;> rintro rfl <;> exact absurd low (by decide)
  have outside : ({ l with afterCr := false } : LinkState).esc = .none := noEscape
  refine ⟨fun b low high room => ?_, fun b low high full => ?_, fun some => ?_, fun none => ?_, ?_, ?_, ?_, fun short => ?_⟩
  · exact runs b (visible b low) _ ((typedByte_printable outside low high).trans (if_neg (Nat.not_le.2 room)))
  · exact runs b (visible b low) _ ((typedByte_printable outside low high).trans (if_pos full))
  · exact runs 0x08 (by decide) _ ((typedByte_backspace outside).trans (if_neg (mt List.isEmpty_iff.1 some)))
  · refine runs 0x08 (by decide) _ ((typedByte_backspace outside).trans ((if_pos (List.isEmpty_iff.2 none)).trans ?_))
    rw [← none]
    rfl
  · refine runs 0x15 (by decide) _ ((typedByte_ctrlU outside).trans ?_)
    simp [LinkState.prompt, crlf, promptText, textBytes]
  · refine runs 0x03 (by decide) _ ((typedByte_ctrlC outside).trans ?_)
    simp [LinkState.prompt, crlf, promptText, textBytes]
  · refine runs 0x12 (by decide) _ ((typedByte_ctrlR outside).trans ?_)
    simp [LinkState.promptNew, LinkState.prompt, crlf, promptText]
  · refine (congrArg _ (recall_of_bytes hears typed noEscape)).trans ?_
    refine congrArg (Host.Outcome.next <| attn ·) (modLink_congr ?_)
    have whole : (u.link k).lastLine.take maxLine = (u.link k).lastLine := List.take_of_length_le short
    have closed : (u.link k).esc = .none := noEscape
    simp [LinkState.recall, LinkState.promptNew, LinkState.prompt, crlf, promptText, whole, closed, l]

end Sys2Proof.Machine
end

section
/-! PROOF. The bytes of a line and its terminator (R54, R58, R103, R106), and the way of an S line to the steward (R90, R91, R93,
R118). -/
namespace Sys2Proof.Machine
open Sys2Proof

/-! ### Bytes and terminators -/

theorem linkByte_machine {k : Link} {b : Byte} {u : State} (hears : u.hears k = true) (machine : (u.link k).mode = .machine)
    (noCr : b ≠ 13) (noLf : b ≠ 10) (noFill : k = .hspi → b ≠ 0) :
    linkByte k b u = attn (u.modLink k (fun l => ({ l with afterCr := false } : LinkState).store b)) := by
  have takes : ¬ (!u.hears k || decide (b = 13) || decide (b = 10) || (decide (k = .hspi) && decide (b = 0))) = true := by
    simp only [hears, noCr, noLf, decide_false, Bool.not_true, Bool.or_self, Bool.false_or, Bool.and_eq_true,
      decide_eq_true_eq, not_and]
    exact noFill
  refine (if_neg takes).trans (congrArg attn (modLink_congr ?_))
  rw [machine]

/-- R106: the fill of an idle transfer is no character. -/
theorem linkByte_idle (u : State) : linkByte .hspi 0 u = u := if_pos (by simp)

theorem store_of_room {b : Byte} {l : LinkState} (room : l.part.length < 255) :
    l.store b = { l with part := l.part ++ [charOf b], tail := lastFive l.tail (charOf b) } := if_neg (Nat.not_le.2 room)

theorem lineEnded_link (k : Link) (lf : Bool) (u : State) : (lineEnded k lf u).link k = (u.link k).endLine lf :=
  link_attn_mod k u _

theorem endLine_eq (lf : Bool) (l : LinkState) : l.endLine lf = { l with
    part := [], tooLong := false, tail := [], afterCr := !lf, lastLine := l.part,
    echo := if l.mode = .typed then l.echo ++ [13, 10] else l.echo,
    prompted := if l.mode = .typed then false else l.prompted } := by
  unfold LinkState.endLine
  split <;> rfl

theorem lineEnded_same (k : Link) (lf : Bool) (u : State) : SameBut [linkPart k, .spi] u (lineEnded k lf u) :=
  modLink_same.trans (attn_same.mono (by cases k <;> decide))

/-- R54: an LF after a CR belongs to the same terminator. -/
theorem lineReceived_of_afterCr {k : Link} {span : Nat} {corrupt : Bool} {u : State} (hears : u.hears k = true)
    (afterCr : (u.link k).afterCr = true) :
    lineReceived k true span corrupt u = u.modLink k (fun l => { l with afterCr := false }) := by
  unfold lineReceived
  rw [hears]
  exact if_pos afterCr

/-- Settles O11. -/
theorem lineBytesAndTerminators : Obligations.LineBytesAndTerminators := by
  refine ⟨?_, fun s d => congrArg _ (linkByte_idle _), fun k lf u => ?_,
    fun s d k span corrupt hears afterCr => congrArg _ (lineReceived_of_afterCr hears afterCr)⟩
  · intro s d k b u l hears machine noCr noLf noFill room
    refine congrArg _ ((linkByte_machine hears machine noCr noLf noFill).trans (congrArg attn (modLink_congr ?_)))
    exact store_of_room room
  · exact ⟨(lineEnded_link k lf u).trans (endLine_eq lf _), lineEnded_same k lf u⟩

/-! ### An S line (R90, R93, R118) -/

section
variable {k : Link} {lf : Bool} {span : Nat} {u : State} (hears : u.hears k = true) (settled : u.settled)
  (started : u.boot.step ≠ .download) (first : (lf && (u.link k).afterCr) = false) (noEscape : (u.link k).esc = .none)
  (words : isBlank (u.link k).part = false) (passes : (arrivedLine k (u.link k)).test = none)
  (standard : (arrivedLine k (u.link k)).parts.urgent = false)
include hears settled first noEscape words passes standard

/-- A line that passes the tests of the host-link logic and is no ! line goes its way as an S line. -/
theorem lineReceived_of_standard : lineReceived k lf span false u =
    standardLine (arrivedLine k (u.link k)) false (lineEnded k lf u) := by
  have met : meetLine (arrivedLine k (u.link k)) span false (lineEnded k lf u) =
      standardLine (arrivedLine k (u.link k)) false (lineEnded k lf u) := by
    unfold meetLine
    rw [passes, standard]
    rfl
  rw [base u k lf false span hears settled first noEscape, words, Bool.and_false]
  exact met

end

theorem lineEnded_stewardHere (k : Link) (lf : Bool) (u : State) : (lineEnded k lf u).stewardHere = u.stewardHere := by
  cases k <;> rfl

theorem lineEnded_executorHere {k : Link} {lf : Bool} {u : State} (started : u.boot.step ≠ .download) :
    (lineEnded k lf u).executorHere = u.stewardHere := by
  have step : (lineEnded k lf u).boot.step ≠ .download := by cases k <;> exact started
  rw [State.executorHere, decide_eq_false step, lineEnded_stewardHere]
  rfl

theorem lineEnded_sOut (k : Link) (lf : Bool) (u : State) : ((lineEnded k lf u).link k).sOut = (u.link k).sOut := by
  rw [lineEnded_link, endLine_eq]

/-- What a line brings to the steward is what the terminator found. -/
theorem req_lineEnded (a : Arrived) (k : Link) (lf : Bool) (u : State) (p : ParseRes) :
    a.req (lineEnded k lf u) p = a.req u p := by
  cases k <;> rfl

theorem executorParse_command {a : Arrived} {k : Link} {lf : Bool} {u : State} (started : u.boot.step ≠ .download) :
    executorParse a false (lineEnded k lf u) = match parseCommand a.parts.body a.parts.cursor with
      | .error e => .bad e
      | .ok p => .good p := by
  have step : (lineEnded k lf u).boot.step ≠ .download := by cases k <;> exact started
  unfold executorParse
  rw [if_neg step]
  rfl

section
variable {a : Arrived} {k : Link} {lf : Bool} {u : State} (started : u.boot.step ≠ .download)
include started

theorem standardLine_of_absent (absent : u.stewardHere = false) :
    standardLine a false (lineEnded k lf u) = rejectStandard a 503 (lineEnded k lf u) :=
  if_pos (by rw [lineEnded_executorHere started, absent]; rfl)

variable (here : a.link = k)
include here

theorem standardLine_of_full (present : u.stewardHere = true) (full : 8 ≤ (u.link k).sOut) :
    standardLine a false (lineEnded k lf u) = rejectStandard a 506 (lineEnded k lf u) := by
  subst here
  refine (if_neg ?_).trans (if_pos ?_)
  · rw [lineEnded_executorHere started, present]
    decide
  · rw [lineEnded_sOut]
    exact full

theorem standardLine_of_room (present : u.stewardHere = true) (room : (u.link k).sOut < 8) :
    standardLine a false (lineEnded k lf u) =
      let w := (lineEnded k lf u).modLink k (fun l => { l with sOut := l.sOut + 1 })
      settleQueue { w with steward := { w.steward with queue := w.steward.queue ++ [a.req u
        (match parseCommand a.parts.body a.parts.cursor with | .error e => .bad e | .ok p => .good p)] } } := by
  subst here
  refine (if_neg ?_).trans ((if_neg ?_).trans ?_)
  · rw [lineEnded_executorHere started, present]
    decide
  · rw [lineEnded_sOut]
    exact Nat.not_le.2 room
  · rw [req_lineEnded, executorParse_command started]

end

/-- Settles O13. -/
theorem standardLinesReachSteward : Obligations.StandardLinesReachSteward := by
  refine ⟨?_, fun a code v rejects => ⟨?_, rejectStandard_at_once a code v rejects, fun room behind => ?_⟩⟩
  · intro s d k lf span u l a v hears settled started first noEscape words passes standard
    have way : exec (.lineReceived d k lf span false) s = .next (standardLine a false v) :=
      congrArg _ (lineReceived_of_standard hears settled first noEscape words passes standard)
    rw [way]
    exact ⟨fun present room => congrArg _ (standardLine_of_room started rfl present room),
      fun absent => congrArg _ (standardLine_of_absent started absent),
      fun present full => congrArg _ (standardLine_of_full started rfl present full)⟩
  · exact fun full => if_pos (rejectionsFull_of_four v _ full)
  · exact ⟨_, rfl, rfl, rejectStandard_in_turn a code v room behind⟩

end Sys2Proof.Machine
end

section
/-! PROOF. The console hunts and runs (R98 to R101): what a framing error, a break and a measured character do. -/
namespace Sys2Proof.Machine
open Sys2Proof

theorem rehunt_of_auto {u : State} (auto : u.console.baud = none) : rehunt u = hunt u := if_pos (by rw [auto]; rfl)

theorem rehunt_of_fixed {u : State} (fixed : u.console.baud ≠ none) : rehunt u = u :=
  if_neg (mt Option.isNone_iff_eq_none.1 fixed)

theorem framingError_eq {u : State} (hears : u.hears .con = true) :
    framingError u = rehunt { u with con := u.con.dropLine } := if_neg (by rw [hears]; decide)

theorem conBreak_eq {u : State} (live : u.linksLive = true) :
    conBreak u = rehunt { u with con := { u.con.dropLine with mode := .typed } } := if_neg (by rw [live]; decide)

/-- R98: the rate that nine bit times give, where it lies between 9600 and 3 000 000 baud. -/
theorem autobaud_eq {cycles : Nat} {u : State} (live : u.linksLive = true) (hunting : u.console.running = false)
    (auto : u.console.baud = none) (slow : 9600 * cycles ≤ 1800000000) (fast : 1800000000 ≤ 3000000 * cycles) :
    autobaud cycles true u =
      consoleRuns { u with console := { u.console with rate := (divEven 1800000000 cycles).toNat } } := by
  have inside : decide (9600 * cycles ≤ nineBits ∧ nineBits ≤ 3000000 * cycles) = true := decide_eq_true ⟨slow, fast⟩
  exact if_neg (by rw [live, hunting, auto, inside]; decide)

theorem consoleRuns_of_machine {u : State} (machine : u.con.mode = .machine) :
    consoleRuns u = { u with console := { u.console with running := true } } :=
  if_pos (show u.con.mode ≠ .typed by rw [machine]; decide)

section
variable {u : State} (typed : u.con.mode = .typed) (running : u.boot.step = .running)
include typed running

theorem consoleRuns_of_bannerDone (told : u.boot.bannerDone = true) : consoleRuns u =
    { u with console := { u.console with running := true }, con := u.con.prompt } := by
  unfold consoleRuns
  rw [if_neg (not_not_intro typed)]
  simp only [running, told, if_true]
  rfl

/-- R486: the banner comes before the first prompt. -/
theorem consoleRuns_of_bannerDue (due : u.boot.bannerDone = false) : consoleRuns u = { u with
    console := { u.console with running := true }, boot := { u.boot with bannerDone := true },
    con := ({ u.con with echo := u.con.echo ++ (bannerLines u.boot).flatMap (lineBytes .con) } : LinkState).prompt } := by
  unfold consoleRuns
  rw [if_neg (not_not_intro typed)]
  split
  next download => exact absurd (running.symm.trans download) (by decide)
  next =>
    simp only [due, Bool.false_eq_true, if_false]
    rfl

end

/-- Settles O14. -/
theorem consoleHuntsAndRuns : Obligations.ConsoleHuntsAndRuns := by
  refine ⟨fun s d hears => ⟨fun auto => ?_, fun fixed => ?_⟩, fun s d live => ⟨fun auto => ?_, fun fixed => ?_⟩, ?_⟩
  · exact congrArg _ ((framingError_eq hears).trans (rehunt_of_auto auto))
  · exact congrArg _ ((framingError_eq hears).trans (rehunt_of_fixed fixed))
  · exact congrArg _ ((conBreak_eq live).trans (rehunt_of_auto auto))
  · exact congrArg _ ((conBreak_eq live).trans (rehunt_of_fixed fixed))
  · intro s d cycles u c live hunting auto slow fast
    have runs : exec (.autobaudCharacter d cycles true) s =
        .next (consoleRuns { u with console := { u.console with rate := (divEven 1800000000 cycles).toNat } }) :=
      congrArg _ (autobaud_eq live hunting auto slow fast)
    rw [runs]
    exact ⟨fun machine => congrArg _ (consoleRuns_of_machine machine),
      fun typed running told => congrArg _ (consoleRuns_of_bannerDone typed running told),
      fun typed running due => congrArg _ (consoleRuns_of_bannerDue typed running due)⟩

end Sys2Proof.Machine
end

section
/-! PROOF. Transfers of the host SPI port and the bytes that leave a link (R90, R91, R104, R107, R108, R114): what the edges of
HSPI_CS# do, which item starts next, and what its first byte ends. -/
namespace Sys2Proof.Machine
open Sys2Proof

theorem next_congr {s t : State} (same : s = t) : (.next s : Host.Outcome State Fault Refusal) = .next t :=
  congrArg Host.Outcome.next same

theorem ite_of_iff {α : Sort _} {p q : Prop} [Decidable p] [Decidable q] {x u y v : α} (same : p ↔ q) (yes : x = u)
    (no : y = v) : (if p then x else y) = if q then u else v :=
  ite_congr (propext same) (fun _ => yes) (fun _ => no)

/-! ### The edges of HSPI_CS# (R104, R107, R108) -/

theorem bitIf_decide (p : Prop) [Decidable p] (w : Nat) : bitIf (decide p) w = if p then w else 0 := by
  simp only [bitIf, decide_eq_true_eq]

theorem statusByte_of_running {u : State} (running : u.boot.step = .running) :
    statusByte u = BitVec.ofNat 8 (hspiStatus u) := by
  unfold statusByte hspiStatus
  rw [running, Nat.mul_comm 16]
  simp only [bitIf_decide]
  rfl

theorem csFall_of_idle {high : Bool} {u : State} (idle : u.spi.selected = false) (running : u.boot.step = .running) :
    csFall high u = { u with spi := { u.spi with
      mode3 := high, selected := true, statusLeft := false, status := BitVec.ofNat 8 (hspiStatus u) } } := by
  rw [← statusByte_of_running running]
  exact if_neg (by rw [idle]; decide)

theorem csRise_whole (cut : Bool) {u : State} (whole : (cut && u.spi.selected && u.spi.statusLeft) = false) :
    csRise cut u = { u with spi := { u.spi with selected := false, statusLeft := false } } := by
  unfold csRise
  rw [whole]
  rfl

/-- R108: a transfer cut within an output byte has started that byte's line. -/
theorem csRise_cut {u : State} (selected : u.spi.selected = true) (statusLeft : u.spi.statusLeft = true) :
    csRise true u = { u with hspi := u.hspi.prepare .hspi, spi := { u.spi with selected := false, statusLeft := false } } := by
  unfold csRise
  rw [selected, statusLeft]
  rfl

/-! ### What starts next (R91, R92) -/

section
variable {l : LinkState} (complete : l.leaving = []) (quiet : l.echo = [])
include complete quiet

theorem prepare_of_urgent (k : Link) {x : OutItem} {xs : List OutItem} (urgent : l.urgentQ = x :: xs) :
    l.prepare k = { l with urgentQ := xs }.startLine k x true := by
  unfold LinkState.prepare
  rw [complete, quiet, urgent]
  rfl

/-- A standard response starts where no urgent one waits and none was interrupted. -/
theorem prepare_of_standard (k : Link) {x : OutItem} {xs : List OutItem} (noUrgent : l.urgentQ = []) (noPaused : l.paused = none)
    (standard : l.standardQ = x :: xs) : l.prepare k = { l with standardQ := xs }.startLine k x true := by
  unfold LinkState.prepare
  rw [complete, quiet, noUrgent, noPaused, standard]
  rfl

end

theorem startLine_of_line (k : Link) {x : OutItem} {line : String} (l : LinkState) (lines : x.lines = [line])
    (plain : x.ev = none) : l.startLine k x true = { l with
      leaving := l.lead ++ lineBytes k line, current := some { x with lines := [] }, started := false, prompted := false } := by
  unfold LinkState.startLine
  simp only [plain, lines]
  rfl

theorem lead_of_machine {l : LinkState} (machine : l.mode = .machine) : l.lead = [] := if_neg (by rw [machine]; simp)

theorem startLine_of_machine (k : Link) {x : OutItem} {line : String} {l : LinkState} (lines : x.lines = [line])
    (plain : x.ev = none) (machine : l.mode = .machine) : l.startLine k x true = { l with
      leaving := lineBytes k line, current := some { x with lines := [] }, started := false, prompted := false } := by
  rw [startLine_of_line k l lines plain, lead_of_machine machine]
  rfl

/-! ### A byte leaves (R90, R108, R114) -/

theorem outputByte_con {u : State} (running : u.console.running = true) : outputByte .con u = sendByte .con u := if_pos running

theorem exec_outputByte_con {s : State} {d : Nat} (live : (s.elapse d).linksLive = true)
    (running : (s.elapse d).console.running = true) : exec (.outputByteSent d .con) s = .next (sendByte .con (s.elapse d)) :=
  congrArg _ ((if_pos (by rw [live]; rfl)).trans (outputByte_con running))

/-- R92: a line of output on a terminal ends with CR LF, and starts on a new line if a prompt stands. -/
theorem lineOut_cons (l : LinkState) (line : String) : l.lead ++ lineBytes .con line =
    (if l.mode = .typed ∧ l.prompted = true then [13, 10] else []) ++ textBytes line.toList ++ [13, 10] := by
  simp only [LinkState.lead, lineBytes, lineEnd, crlf, List.append_assoc, Bool.and_eq_true, decide_eq_true_eq]

/-- A line of output has its CR LF at least, so that one byte does not complete it. -/
theorem lineOut_split (l : LinkState) (line : String) :
    ∃ b bs, l.lead ++ lineBytes .con line = b :: bs ∧ bs.isEmpty = false := by
  rw [lineOut_cons]
  generalize (if l.mode = .typed ∧ l.prompted = true then [13, 10] else []) ++ textBytes line.toList = front
  cases front with
  | nil => exact ⟨13, [10], rfl, rfl⟩
  | cons b bs => exact ⟨b, bs ++ [13, 10], rfl, by cases bs <;> rfl⟩

theorem sendByte_of_loose {u : State} {b : Byte} {bs : List Byte} (leaving : u.con.leaving = b :: bs)
    (loose : u.con.current = none) : sendByte .con u = attn { u with con := { u.con with leaving := bs } } := by
  have ready : u.con.prepare .con = u.con := if_pos (by rw [leaving]; rfl)
  unfold sendByte
  simp only [State.link, ready, leaving, loose]
  rfl

/-- The first byte of a response that sets no mode leaves. -/
theorem sendByte_of_first {u : State} {l : LinkState} {i : OutItem} {b : Byte} {bs : List Byte}
    (prepared : u.con.prepare .con = l) (leaving : l.leaving = b :: bs) (more : bs.isEmpty = false)
    (current : l.current = some i) (fresh : l.started = false) (sets : i.onStart = []) :
    sendByte .con u = attn { u with con := LinkState.firstByte i { l with leaving := bs } } := by
  unfold sendByte
  simp only [State.link, prepared, leaving, current, fresh, sets, more]
  rfl

theorem firstByte_urgent {i : OutItem} {l : LinkState} (outstanding : i.outstanding = true) (urgent : i.kind = .urgent) :
    l.firstByte i = { l with started := true, uOut := l.uOut - 1 } := by
  unfold LinkState.firstByte
  rw [outstanding, urgent]
  rfl

theorem firstByte_standard {i : OutItem} {l : LinkState} (outstanding : i.outstanding = true) (standard : i.kind = .standard) :
    l.firstByte i = { l with started := true, sOut := l.sOut - 1 } := by
  unfold LinkState.firstByte
  rw [outstanding, standard]
  rfl

/-- Settles O16. -/
theorem outputBytesLeaveInOrder : Obligations.OutputBytesLeaveInOrder := by
  refine ⟨?_, ?_, ?_, ?_, ?_⟩
  · intro s d high u on up idle running
    exact next_congr ((if_neg (show ¬ (u.bel.off || u.boot.resetLow) = true by rw [on, up]; decide)).trans
      (csFall_of_idle idle running))
  · intro s d u ended
    refine ⟨next_congr (csRise_whole false rfl), fun whole => next_congr (csRise_whole true ?_), ?_⟩
    · rcases whole with off | status
      · rw [off]; rfl
      · rw [status, Bool.and_false]
    · intro selected status complete quiet x xs line lines plain machine going
      refine ⟨fun urgent => next_congr ((csRise_cut selected status).trans ?_),
        fun noUrgent noPaused standard => next_congr ((csRise_cut selected status).trans ?_)⟩
      · rw [prepare_of_urgent complete quiet _ urgent, startLine_of_machine _ lines plain]
        · rfl
        · exact machine
      · rw [prepare_of_standard complete quiet _ noUrgent noPaused standard, startLine_of_machine _ lines plain]
        · rfl
        · exact machine
  · intro s d u selected due
    refine next_congr ((if_pos (by rw [Bool.or_eq_true]; exact .inr rfl)).trans ((if_neg ?_).trans (if_pos ?_)))
    · rw [selected]; decide
    · rw [due]; rfl
  · intro s d b bs u live running leaving loose
    exact (exec_outputByte_con live running).trans (next_congr (sendByte_of_loose leaving loose))
  · intro s d x xs line u bytes going live running complete quiet lines plain outstanding sets
    obtain ⟨b, bs, split, more⟩ := lineOut_split u.con line
    have tail : bytes.tail = bs := congrArg List.tail ((lineOut_cons u.con line).symm.trans split)
    have same : ({ x with lines := [], ev := none } : OutItem) = { x with lines := [] } := by rw [← plain]
    refine ⟨fun urgent waits => ?_, fun standard noUrgent noPaused waits => ?_⟩
    · have prepared := (prepare_of_urgent complete quiet .con waits).trans (startLine_of_line .con _ lines plain)
      rw [exec_outputByte_con live running, sendByte_of_first prepared split more rfl rfl sets,
        firstByte_urgent]
      · simp only [going, tail, same]
      · exact outstanding
      · exact urgent
    · have prepared := (prepare_of_standard complete quiet .con noUrgent noPaused waits).trans
        (startLine_of_line .con _ lines plain)
      rw [exec_outputByte_con live running, sendByte_of_first prepared split more rfl rfl sets,
        firstByte_standard]
      · simp only [going, tail, same]
      · exact outstanding
      · exact standard

end Sys2Proof.Machine
end

section
/-! PROOF. How a line is answered (R79, R81, R90, R91), and what the lines that assert a task do (R70, R71, R279). -/
namespace Sys2Proof.Machine
open Sys2Proof

/-! ### Answers -/

theorem says_eq {r : Req} {payload : String} {lines : List String} {v : State} (settled : v.settled) :
    r.says payload lines v = attn (v.modLink r.link (fun l => { l with standardQ := l.standardQ ++
      [responseItem .standard (Reply.text r.tag r.check r.computed (.ok payload lines)) false true] })) := by
  have joins : answer r (.ok ⟨payload, lines, [], none, none, v⟩) v = _ := putOut_std r.link _ v rfl
  rw [Req.says, joins, settleQueue_id _ (settled_attnmod settled _ _)]
  rfl

theorem ered_eq {r : Req} {code : Nat} {detail : String} {v : State} (settled : v.settled) :
    r.ered code detail v = attn (v.modLink r.link (fun l => { l with standardQ := l.standardQ ++
      [responseItem .standard (Reply.text r.tag r.check r.computed (.er code detail)) false true] })) := by
  have joins : answer r (.error (code, detail)) v = _ := putOut_std r.link _ v rfl
  rw [Req.ered, joins, settleQueue_id _ (settled_attnmod settled _ _)]

/-- Settles O17. -/
theorem answersJoinOutput : Obligations.AnswersJoinOutput := by
  refine ⟨fun r payload lines v => says_eq, fun r code detail v => ered_eq, fun v => ?_⟩
  obtain ⟨same, decided⟩ := drainBad_spec v.steward.queue.length v
  exact ⟨same, settleQueue_id v, decided⟩

end Sys2Proof.Machine
end

section
/-! PROOF. The line at the front of the steward's queue is executed and answered, and what the lines that assert a task do
(R70, R71, R279, R394). -/
namespace Sys2Proof.Machine
open Sys2Proof

/-! ### A line that is executed and answered -/

section
variable {u : State} {r : Req} {rest : List Req} {c : Cmd} {want : Cmd → Bool} {syn : Cmd → State → Option SynErr}
  {run : Req → Cmd → State → Exec}

/-- A line of the verb wanted, without a syntax error, is answered by what its execution gives. -/
theorem Front.runs {x : Exec} (front : Front u r rest c) (wanted : want c = true) (clean : syn c (u.took rest) = none)
    (does : run r c (u.took rest) = x) :
    steward false want syn run u = settleQueue (answer r x (u.took rest)) := by
  rw [front.run false want syn run wanted, clean, ← does]
  rfl

theorem Front.oks {payload : String} {w : State} (front : Front u r rest c) (wanted : want c = true)
    (clean : syn c (u.took rest) = none) (does : run r c (u.took rest) = done payload w) :
    Host.Outcome.next (steward false want syn run u) = (.next (r.oked payload w) : Host.Outcome State Fault Refusal) :=
  next_congr (front.runs wanted clean does)

theorem Front.ers {code : Nat} {detail : String} (front : Front u r rest c) (wanted : want c = true)
    (clean : syn c (u.took rest) = none) (does : run r c (u.took rest) = .error (code, detail)) :
    Host.Outcome.next (steward false want syn run u) =
      (.next (r.ered code detail (u.took rest)) : Host.Outcome State Fault Refusal) :=
  next_congr (front.runs wanted clean does)

end

/-! ### The verbs that assert a task -/

section
variable {v : State} {p : Fin 64}

theorem fireVerb_port (active : v.clusters[clusterOf p].state = .active) :
    fireVerb (.ok (.port p)) v = done ("FIRE " ++ objName (.port p)) (v.asserts ⟨4 * p.val, by omega⟩) := by
  simp only [fireVerb, theObj, bind, Except.bind, workTest_active _ active]
  rfl

theorem armVerb_port (active : v.clusters[clusterOf p].state = .active) :
    armVerb (.ok (.port p)) v = done ("ARM " ++ objName (.port p)) (v.asserts ⟨4 * p.val + 1, by omega⟩) := by
  simp only [armVerb, theObj, bind, Except.bind, workTest_active _ active]
  rfl

theorem disarmVerb_port (active : v.clusters[clusterOf p].state = .active) :
    disarmVerb (.ok (.port p)) v = done ("DISARM " ++ objName (.port p)) (v.asserts ⟨4 * p.val + 2, by omega⟩) := by
  simp only [disarmVerb, theObj, bind, Except.bind, workTest_active _ active]
  rfl

end

theorem taskPort_none {t : Fin 320} (beyond : 256 ≤ t.val) : taskPort t = none :=
  dif_neg (by omega)

theorem fireVerb_task {t : Fin 320} (beyond : 256 ≤ t.val) (v : State) :
    fireVerb (.ok (.tk t)) v = done ("FIRE " ++ objName (.tk t)) (v.asserts t) := by
  simp only [fireVerb, theObj, bind, Except.bind, taskPort_none beyond]
  rfl

theorem foldAsserts {α : Type} (task : α → Fin 320) (xs : List α) (v : State) :
    foldS xs (fun x s => assertTask (task x) none Flags.none s) v = { v with fabric := { v.fabric with
      asserted := v.fabric.asserted ++ xs.map (fun x => ⟨task x, none, Flags.none⟩) } } := by
  induction xs generalizing v with
  | nil => simp [foldS]
  | cons x xs ih =>
    show foldS xs _ (assertTask (task x) none Flags.none v) = _
    rw [ih]
    simp [assertTask, State.modFabric]

theorem haltVerb_all (v : State) : haltVerb none v = done "HALT ALL" { v with fabric := { v.fabric with
    asserted := v.fabric.asserted ++ (List.finRange 8).map (fun g => ⟨⟨258 + 3 * g.val, by omega⟩, none, Flags.none⟩) } } :=
  congrArg (done "HALT ALL") (foldAsserts (fun g => (TaskKind.gStop g).task) (List.finRange 8) v)

/-- Settles O18. -/
theorem verbsAssertTasks : Obligations.VerbsAssertTasks := by
  intro s d r rest u v
  refine ⟨fun p active => ⟨fun front => ?_, fun front => ?_, fun front => ?_⟩, fun t beyond front => ?_,
    fun g => ⟨fun front => ?_, fun front => ?_, fun front => ?_⟩, fun front => ?_,
    fun m => ⟨fun front => ?_, fun front => ?_⟩, fun a front => ?_⟩
  · exact front.oks rfl rfl (fireVerb_port active)
  · exact front.oks rfl rfl (armVerb_port active)
  · exact front.oks rfl rfl (disarmVerb_port active)
  · exact front.oks rfl rfl (fireVerb_task beyond v)
  · exact front.oks rfl rfl rfl
  · exact front.oks rfl rfl rfl
  · exact front.oks rfl rfl rfl
  · exact front.oks rfl rfl (haltVerb_all v)
  · exact front.oks rfl rfl rfl
  · exact front.oks rfl rfl rfl
  · exact front.oks rfl rfl rfl

/-! ### Lines to the ports of a cluster that is not ACTIVE (R394) -/

section
variable {v : State} {p : Fin 64} {code : Nat}

theorem fireVerb_blocked
    (blocked : lineCode .work v.clusters[clusterOf p].state = some code) :
    fireVerb (.ok (.port p)) v = .error (code, objName (.port p)) := by
  simp only [fireVerb, theObj, bind, Except.bind, State.workTest, workTest_code _ _ _ blocked]

theorem armVerb_blocked (blocked : lineCode .work v.clusters[clusterOf p].state = some code) :
    armVerb (.ok (.port p)) v = .error (code, objName (.port p)) := by
  simp only [armVerb, theObj, bind, Except.bind, State.workTest, workTest_code _ _ _ blocked]

theorem disarmVerb_blocked (blocked : lineCode .work v.clusters[clusterOf p].state = some code) :
    disarmVerb (.ok (.port p)) v = .error (code, objName (.port p)) := by
  simp only [disarmVerb, theObj, bind, Except.bind, State.workTest, workTest_code _ _ _ blocked]

theorem schedVerb_blocked (blocked : lineCode .work v.clusters[clusterOf p].state = some code) (urgent : Bool) (rc : Recv)
    (cl : Clause) (kv : List KeyVal) : schedVerb urgent rc (.ok (.port p)) cl kv v = .error (code, objName (.port p)) := by
  simp only [schedVerb, thePort, theObj, bind, Except.bind, pure, Except.pure, State.workTest, workTest_code _ _ _ blocked]

theorem cancelVerb_blocked (blocked : lineCode .cancel v.clusters[clusterOf p].state = some code) (rc : Recv)
    (at_ : Option RawVal) : cancelVerb rc (.ok (.port p)) at_ v = .error (code, objName (.port p)) := by
  simp only [cancelVerb, thePort, theObj, bind, Except.bind, pure, Except.pure, workTest_code _ _ _ blocked]

end

/-- Settles O19. -/
theorem portLinesMeetClusterState : Obligations.PortLinesMeetClusterState := by
  unfold Obligations.PortLinesMeetClusterState
  intro work cancel s d r rest p code u v
  have work_eq : work = lineCode .work := by funext c; cases c <;> rfl
  have cancel_eq : cancel = lineCode .cancel := by funext c; cases c <;> rfl
  rw [work_eq, cancel_eq]
  refine ⟨fun blocked => ⟨fun front => ?_, fun front => ?_, fun front => ?_, fun cl kv front clean => ?_⟩,
    fun blocked front => ?_⟩
  · exact front.ers rfl rfl (fireVerb_blocked blocked)
  · exact front.ers rfl rfl (armVerb_blocked blocked)
  · exact front.ers rfl rfl (disarmVerb_blocked blocked)
  · exact front.ers rfl clean (schedVerb_blocked blocked false _ cl kv)
  · exact front.ers rfl rfl (cancelVerb_blocked blocked _ none)

end Sys2Proof.Machine
end

section
/-! PROOF. Store faults, the lines that only read, and SNAPSHOT (R44, R70, R78, R81 to R84, R408). -/
namespace Sys2Proof.Machine
open Sys2Proof

/-! ### A store fault (R408) -/

theorem answer_er_steward (r : Req) (code : Nat) (detail : String) (v : State) :
    (answer r (.error (code, detail)) v).steward = v.steward :=
  putOut_same (k := r.link) .steward (by cases r.link <;> decide)

/-- Settles O20. -/
theorem storeFaultRestartsSteward : Obligations.StoreFaultRestartsSteward := by
  intro s d r rest u v w t
  have leaves : t.steward = _ := stewardLeaves_steward
  have answered : w.steward = { u.steward with queue := rest } := answer_er_steward r 511 "" v
  refine ⟨fun o front => ?_, fun ps front => ?_, fun front => ?_, fun front => ?_, ?_, ?_, ?_, ?_, ?_⟩
  · exact next_congr (front.run true _ _ _ rfl)
  · exact next_congr (front.run true _ _ _ rfl)
  · exact next_congr (front.run true _ _ _ rfl)
  · exact next_congr (front.run true _ _ _ rfl)
  · rw [leaves]
  · rw [leaves]
  · rw [leaves]
  · rw [leaves, answered]
  · rw [leaves, answered]

/-! ### What the reading lines answer (R70, R78, R81) -/

theorem ring_false {v : State} (locked : v.tb.clkSrc = .pll) : v.ring = false := by
  simp [State.ring, locked]

/-- Settles O21. -/
theorem readsAnswerWhatTheyName : Obligations.ReadsAnswerWhatTheyName := by
  intro s d r rest u v
  refine ⟨fun ps xs front named => ?_, fun o front seg cluster locked => ?_, fun front => ?_, fun topic front => ?_⟩
  · refine front.oks rfl rfl ?_
    show getVerb ps v = _
    rw [getVerb, named]
    rfl
  · intro ps
    refine next_congr (front.runs rfl rfl ?_)
    show showVerb (.ok o) v = _
    simp only [showVerb, theObj, bind, Except.bind, seg, cluster, ring_false locked, doneLines, List.length_map]
    rfl
  · exact next_congr (front.runs rfl rfl rfl)
  · refine next_congr (front.runs rfl rfl ?_)
    show helpVerb (some topic) v = doneLines _ _ _
    rw [helpVerb, ← String.append_assoc]
    rfl

/-! ### Lines that only read -/

/-- An execution that succeeds leaves the state as it was. -/
def Exec.Reads (x : Exec) (v : State) : Prop := ∀ y, x = .ok y → y.state = v

theorem Reads.error (e : Nat × String) (v : State) : Exec.Reads (.error e) v := fun _ given => by cases given

theorem Reads.done (payload : String) (v : State) : Exec.Reads (done payload v) v := fun _ given => by cases given; rfl

theorem Reads.doneLines (head : String) (lines : List String) (v : State) : Exec.Reads (doneLines head lines v) v :=
  fun _ given => by cases given; rfl

theorem Reads.bind {α : Type} {x : Except (Nat × String) α} {f : α → Exec} {v : State} (goesOn : ∀ a, (f a).Reads v) :
    Exec.Reads (x >>= f) v := by
  cases x with
  | error e => exact Reads.error e v
  | ok a => exact goesOn a

theorem Reads.ite {c : Prop} [Decidable c] {x y : Exec} {v : State} (hx : x.Reads v) (hy : y.Reads v) :
    (if c then x else y).Reads v := by
  split
  · exact hx
  · exact hy

theorem getVerb_reads (ps : List PathRef) (v : State) : (getVerb ps v).Reads v :=
  Reads.bind fun _ => Reads.done _ v

theorem showVerb_reads (o : ObjArg) (v : State) : (showVerb o v).Reads v :=
  Reads.bind fun _ => Reads.bind fun _ => Reads.bind fun _ => Reads.ite (Reads.error _ v) (Reads.doneLines _ _ v)

theorem listVerb_reads (o : Option ObjArg) (v : State) : (listVerb o v).Reads v := by
  cases o with
  | none => exact Reads.doneLines _ _ v
  | some a =>
    refine Reads.bind fun x => ?_
    cases x with
    | cl k => exact Reads.bind fun _ => Reads.doneLines _ _ v
    | _ => exact Reads.doneLines _ _ v

theorem helpVerb_reads (topic : Option String) (v : State) : (helpVerb topic v).Reads v := Reads.doneLines _ _ v

theorem exportVerb_reads (o : ObjArg) (v : State) : (exportVerb o v).Reads v := by
  refine Reads.bind fun p => Reads.bind fun _ => ?_
  cases v.ports[p].table with
  | none => exact Reads.error _ v
  | some x => exact Reads.doneLines _ _ v

theorem logVerb_reads (v : State) : (logVerb v).Reads v := Reads.ite (Reads.error _ v) (Reads.doneLines _ _ v)

/-- A line whose execution only reads changes link output and the steward's queue. -/
theorem steward_reads {want : Cmd → Bool} {syn : Cmd → State → Option SynErr} {run : Req → Cmd → State → Exec} {u t : State}
    (reads : ∀ r c v, (run r c v).Reads v)
    (runs : (Host.Outcome.next (steward false want syn run u) : Host.Outcome State Fault Refusal) = .next t) :
    SameBut [.con, .hspi, .spi, .steward] u t := by
  obtain rfl := Outcome_next_inj.1 runs
  refine steward_same want syn run u fun r c v y given => ?_
  rw [reads r c v y given]
  exact SameBut.refl _ _

/-- Settles O22. -/
theorem readingLinesChangeNothing : Obligations.ReadingLinesChangeNothing := by
  intro s t d c listed runs
  simp only [List.mem_cons, List.mem_nil_iff, or_false] at listed
  obtain rfl | rfl | rfl | rfl | rfl | rfl | rfl | rfl := listed
  · refine steward_reads (fun r c v => ?_) runs
    cases c with
    | get ps => exact getVerb_reads ps v
    | _ => exact Reads.error _ v
  · refine steward_reads (fun r c v => ?_) runs
    cases c with
    | showObject o => exact showVerb_reads o v
    | _ => exact Reads.error _ v
  · refine steward_reads (fun r c v => ?_) runs
    cases c with
    | list o => exact listVerb_reads o v
    | _ => exact Reads.error _ v
  · refine steward_reads (fun r c v => ?_) runs
    cases c with
    | help topic => exact helpVerb_reads topic v
    | _ => exact Reads.error _ v
  · exact steward_reads (fun r c v => Reads.done _ v) runs
  · exact steward_reads (fun r c v => Reads.done _ v) runs
  · refine steward_reads (fun r c v => ?_) runs
    cases c with
    | calExport o => exact exportVerb_reads o v
    | _ => exact Reads.error _ v
  · exact steward_reads (fun r c v => logVerb_reads v) runs

/-! ### SNAPSHOT (R44, R82 to R84) -/

theorem snapshotAt_same (w : TimeWord) (v : State) :
    SameBut [.tb, .ports, .tasks, .axes, .mfs, .ags, .sp] v (snapshotAt w v) := by
  intro part other
  cases part <;> simp at other <;> rfl

theorem snapshotVerb_locked {v : State} (locked : v.tb.clkSrc = .pll) : snapshotVerb v =
    done ("SNAPSHOT SYS.SNAPSEQ=" ++ dec (v.tb.snapSeq + 1).toNat ++ " SYS.SNAPTIME=" ++ fmtTime v.tb.timeFmt v.tb.now.toNat)
      (snapshotAt v.tb.now v) := by
  rw [snapshotVerb, ring_false locked]
  rfl

/-- Settles O23. -/
theorem snapshotLatchesOneTick : Obligations.SnapshotLatchesOneTick := by
  intro s d r rest u v front locked
  refine ⟨snapshotAt v.tb.now v, front.oks rfl rfl (snapshotVerb_locked locked), rfl, fun p => ?_, fun t => ?_, fun a => ?_,
    fun m => ?_, fun n => ?_, rfl, snapshotAt_same _ v⟩
  · exact map_at v.ports _ p
  · exact map_at v.tasks _ t
  · exact map_at v.axes _ a
  · exact map_at v.mfs _ m
  · exact map_at v.ags _ n

end Sys2Proof.Machine
end

section
/-! PROOF. SCHED and CANCEL on a port, and the lines that take clusters in and out of service (R73, R74, R219, R223, R389,
R391, R392, R398, R404). -/
namespace Sys2Proof.Machine
open Sys2Proof

/-! ### SCHED (R73, R221) -/

theorem schedConflict_word {v : State} {gap width : Nat} {w : TimeWord} {y : Pulse}
    (free : y.conflicts gap w (tadd w width) = false) : schedConflict v gap width (.word w) y = false := by
  unfold schedConflict
  cases y.lead with
  | none => rfl
  | some l => exact free

theorem schedPulse_lead (v : State) (width : Nat) (w : TimeWord) : (schedPulse v width (.word w)).lead = some w := rfl

theorem schedPulse_trail (v : State) (width : Nat) (w : TimeWord) :
    (schedPulse v width (.word w)).trail = tadd w width := rfl

theorem meetBound_free {p : Fin 64} {x : Pulse} {l : TimeWord} {v : State} (fuel : Nat) (timed : x.lead = some l)
    (free : ∀ y ∈ v.ports[p].queue, y.conflicts (gapOf v.ports[p].cfg.mode) l x.trail = false) :
    meetBound p x (fuel + 1) v = addPulse p x v := by
  have nothing_meets : v.ports[p].queue.find? (fun y => y.conflicts (gapOf v.ports[p].cfg.mode) l x.trail) = none :=
    find?_none_of free
  rw [meetBound]
  simp only [timed, nothing_meets]

/-- A timed pulse that meets neither a window nor another pulse joins the queue. -/
theorem settlePulse_free {p : Fin 64} {x : Pulse} {l : TimeWord} {v : State} (timed : x.lead = some l)
    (free : ∀ y ∈ v.ports[p].queue, y.conflicts (gapOf v.ports[p].cfg.mode) l x.trail = false)
    (outside : v.intrudes p l x.trail = none) : settlePulse p x v = addPulse p x v := by
  rw [settlePulse]
  simp only [timed, outside]
  exact meetBound_free 64 timed free

section
variable {v : State} {rc : Recv} {p : Fin 64} {text : RawVal} {i : Int}
  (reads : readField atField text.text.toList = .ok (.val (.one (.time i))))
  (active : v.clusters[clusterOf p].state = .active) (locked : v.tb.clkSrc = .pll)
include reads active locked

theorem schedVerb_free (pulses : v.ports[p].cfg.mode = .pulse ∨ v.ports[p].cfg.mode = .echo)
    (late : 2500000 ≤ tdiff (BitVec.ofInt 64 i) v.tb.now) (near : tdiff (BitVec.ofInt 64 i) v.tb.now ≤ 2 ^ 62)
    (room : v.ports[p].queue.length < 64)
    (free : ∀ y ∈ v.ports[p].queue, y.conflicts (gapOf v.ports[p].cfg.mode) (BitVec.ofInt 64 i)
      (tadd (BitVec.ofInt 64 i) v.ports[p].cfg.width) = false)
    (outside : v.intrudes p (BitVec.ofInt 64 i) (tadd (BitVec.ofInt 64 i) v.ports[p].cfg.width) = none) :
    schedVerb false rc (.ok (.port p)) ⟨false, text⟩ [] v =
      done ("SCHED " ++ objName (.port p) ++ " AT " ++ fmtTime v.tb.timeFmt (BitVec.ofInt 64 i).toNat)
        (addPulse p (schedPulse v v.ports[p].cfg.width (.word (BitVec.ofInt 64 i))) v) := by
  have no_conflict : v.ports[p].queue.any
      (schedConflict v (gapOf v.ports[p].cfg.mode) v.ports[p].cfg.width (.word (BitVec.ofInt 64 i))) = false :=
    List.any_eq_false.2 fun y here => by rw [schedConflict_word (free y here)]; decide
  rw [sched_base reads active locked pulses, leadTest_ok late near, no_conflict]
  simp only [bind, Except.bind, if_neg (show ¬ 64 < v.ports[p].queue.length + 1 by omega), Bool.false_eq_true, if_false]
  rw [settlePulse_free (schedPulse_lead v _ _) (by rwa [schedPulse_trail]) (by rwa [schedPulse_trail])]

theorem schedVerb_soon (pulses : v.ports[p].cfg.mode = .pulse ∨ v.ports[p].cfg.mode = .echo)
    (soon : tdiff (BitVec.ofInt 64 i) v.tb.now < 2500000) :
    schedVerb false rc (.ok (.port p)) ⟨false, text⟩ [] v = .error (305, "") := by
  rw [sched_base reads active locked pulses, leadTest_soon soon]
  rfl

theorem schedVerb_far (pulses : v.ports[p].cfg.mode = .pulse ∨ v.ports[p].cfg.mode = .echo)
    (far : 2 ^ 62 < tdiff (BitVec.ofInt 64 i) v.tb.now) :
    schedVerb false rc (.ok (.port p)) ⟨false, text⟩ [] v = .error (301, "") := by
  rw [sched_base reads active locked pulses, leadTest_far (by omega) far]
  rfl

theorem schedVerb_full (pulses : v.ports[p].cfg.mode = .pulse ∨ v.ports[p].cfg.mode = .echo)
    (late : 2500000 ≤ tdiff (BitVec.ofInt 64 i) v.tb.now) (near : tdiff (BitVec.ofInt 64 i) v.tb.now ≤ 2 ^ 62)
    (full : 64 ≤ v.ports[p].queue.length) :
    schedVerb false rc (.ok (.port p)) ⟨false, text⟩ [] v = .error (501, objName (.port p)) := by
  rw [sched_base reads active locked pulses, leadTest_ok late near]
  simp only [bind, Except.bind, if_pos (show 64 < v.ports[p].queue.length + 1 by omega)]

omit reads in
theorem schedVerb_otherMode (other : v.ports[p].cfg.mode ≠ .pulse ∧ v.ports[p].cfg.mode ≠ .echo) (urgent : Bool)
    (cl : Clause) (kv : List KeyVal) :
    schedVerb urgent rc (.ok (.port p)) cl kv v = .error (406, objName (.port p)) := by
  have not_pulses : isPulseMode v.ports[p].cfg.mode = false := by
    cases h : v.ports[p].cfg.mode <;> simp_all [isPulseMode]
  simp only [schedVerb, thePort, theObj, bind, Except.bind, pure, Except.pure, workTest_active _ active, ring_false locked,
    not_pulses]
  rfl

end

/-! ### CANCEL port ALL (R74, R223) -/

theorem cancelTest_open {v : State} {p : Fin 64}
    (works : v.clusters[clusterOf p].state = .active ∨ v.clusters[clusterOf p].state = .draining) :
    v.clusterTest .cancel (clusterOf p) (.port p) = .ok () := by
  unfold State.clusterTest
  obtain state | state := works <;> rw [state] <;> rfl

theorem cancelPulses_all {v : State} {p : Fin 64}
    (pulses : v.ports[p].cfg.mode = .pulse ∨ v.ports[p].cfg.mode = .echo) : cancelPulses p (fun _ => true) v =
      (v.modPort p (fun y => { y with queue := v.ports[p].queue.filter (fun x => !x.cancellable v) }),
        (v.ports[p].queue.filter (fun x => x.cancellable v)).length) := by
  have pulse_mode : isPulseMode v.ports[p].cfg.mode = true := by obtain mode | mode := pulses <;> rw [mode] <;> rfl
  simp only [cancelPulses, pulse_mode, Bool.and_true, Bool.not_true, Bool.false_eq_true, if_false]

theorem cancelVerb_all {v : State} {p : Fin 64} {rc : Recv}
    (works : v.clusters[clusterOf p].state = .active ∨ v.clusters[clusterOf p].state = .draining)
    (pulses : v.ports[p].cfg.mode = .pulse ∨ v.ports[p].cfg.mode = .echo) :
    cancelVerb rc (.ok (.port p)) none v = done ("CANCEL " ++ objName (.port p) ++ " ALL N=" ++
        dec (v.ports[p].queue.filter (fun x => x.cancellable v)).length)
      (v.modPort p (fun y => { y with queue := v.ports[p].queue.filter (fun x => !x.cancellable v) })) := by
  simp only [cancelVerb, thePort, theObj, bind, Except.bind, pure, Except.pure, cancelTest_open works,
    cancelPulses_all pulses]

/-- Settles O25. -/
theorem schedAndCancelLines : Obligations.SchedAndCancelLines := by
  refine ⟨?_, ?_, ?_⟩
  · intro s d r rest p text i u v q w trail front reads active locked pulses late near room free outside
    exact front.oks rfl (sched_syn reads) (schedVerb_free reads active locked pulses late near room free outside)
  · intro s d r rest p text i u v q w name front reads active locked
    have clean := sched_syn (v := v) (p := p) reads
    refine ⟨fun other => ?_, fun pulses => ⟨fun soon => ?_, fun far => ?_, fun late near full => ?_⟩⟩
    · exact front.ers rfl clean (schedVerb_otherMode active locked other false _ _)
    · exact front.ers rfl clean (schedVerb_soon reads active locked pulses soon)
    · exact front.ers rfl clean (schedVerb_far reads active locked pulses far)
    · exact front.ers rfl clean (schedVerb_full reads active locked pulses late near full)
  · intro s d r rest p u v q goes front works pulses
    have goes_eq : goes = Pulse.cancellable v := rfl
    rw [goes_eq]
    exact front.oks rfl rfl (cancelVerb_all works pulses)

end Sys2Proof.Machine
end

section
/-! PROOF. The lines that take clusters in and out of service (R389, R391, R392, R398, R404). -/
namespace Sys2Proof.Machine
open Sys2Proof

/-! ### What the operations on a cluster do to it -/

theorem ce_congr {f : Cluster → Cluster} {x y : Cluster} (commutes : ∀ c, ce (f c) = f (ce c)) (same : ce x = ce y) :
    ce (f x) = ce (f y) := by rw [commutes, commutes, same]

/-- A vector of ports in which one function is applied to those of a cluster. -/
theorem portsOf_mod {k : Fin 8} {p : Fin 64} (mine : clusterOf p = k) (f : Port → Port) (v : State) :
    (foldS (portsOf k) (fun p s => s.modPort p f) v).ports[p] = f v.ports[p] := by
  have each_once : ((portsOf k).map id).Nodup := by rw [List.map_id]; exact portsOf_nodup k
  exact (foldKey (key := id) (f := fun _ => f) (s := v) each_once).1 p (mem_portsOf mine)

theorem portsOf_mod_clusters (k : Fin 8) (f : Port → Port) (v : State) :
    (foldS (portsOf k) (fun p s => s.modPort p f) v).clusters = v.clusters :=
  foldPorts_same (f := fun _ => f) .clusters (by decide)

theorem ends_cluster (v : State) (k : Fin 8) : ce (wakeEnd (startupEnd (nextTurns v))).clusters[k] = ce v.clusters[k] :=
  ends_cc k

theorem modCluster_set (v : State) (k : Fin 8) (f : Cluster → Cluster) :
    v.modCluster k f = { v with clusters := v.clusters.set k (f v.clusters[k]) } := rfl

/-- What QUARANTINE makes of a cluster (R385, R386). -/
def Cluster.quarantined (ph : ClPhase) (turn : Bool) (c : Cluster) : Cluster :=
  { c with state := .quarantine, phase := ph, powered := true, offCause := .none, fix := none, joinProv := [], calTurn := turn,
           calDone := false, short := false, window := none, vddio := c.bank }

theorem quarantine_cluster (k : Fin 8) (ph : ClPhase) (turn : Bool) (v : State) :
    (quarantine k ph turn v).clusters[k] = v.clusters[k].quarantined ph turn := by
  have raised : (quarantine k ph turn v).clusters = (v.modCluster k (Cluster.quarantined ph turn)).clusters :=
    raise_same .clusters (by decide)
  rw [raised]
  exact modCluster_at v k _

theorem quarantine_ports (k : Fin 8) (ph : ClPhase) (turn : Bool) (v : State) : (quarantine k ph turn v).ports = v.ports :=
  raise_same (s := v.modCluster k (Cluster.quarantined ph turn)) .ports (by decide)

/-! ### POWER cluster OFF (R391) -/

def Cluster.unpowered (c : Cluster) : Cluster :=
  { c with joinAt := none, fix := none, powered := false, vddio := .none, bank := .none }

/-- The supply of a cluster that is OFF is switched off. -/
def gateCluster (k : Fin 8) (v : State) : State :=
  wakeEnd (startupEnd (nextTurns (foldS (portsOf k) (fun p s => s.modPort p Port.gate)
    ((emptyBuffers k 256 v).modCluster k Cluster.unpowered))))

theorem Cluster.unpowered_facts (c : Cluster) : c.unpowered.state = c.state ∧ c.unpowered.offCause = c.offCause :=
  ⟨rfl, rfl⟩

theorem gateCluster_cluster (k : Fin 8) (v : State) : ce (gateCluster k v).clusters[k] = ce v.clusters[k].unpowered := by
  rw [gateCluster, ends_cluster, portsOf_mod_clusters, modCluster_at]
  exact ce_congr (fun _ => rfl) (emptyBuffers_cc 256 v k)

theorem gateCluster_table {k : Fin 8} {p : Fin 64} (mine : clusterOf p = k) (v : State) :
    (gateCluster k v).ports[p].table = none := by
  rw [gateCluster, ends_ports, portsOf_mod mine]
  rfl

theorem endWork_state (k : Fin 8) (st : ClState) (v : State) : (endWork k st v).clusters[k].state = st := by
  obtain ⟨span, ended⟩ := endWork_cl2 (k := k) (st := st) (s := v)
  obtain ⟨state, -⟩ := ce_facts ended
  exact state

/-- The work of a cluster in QUARANTINE or JOINING ends at a command. -/
def commandedOff (k : Fin 8) (v : State) : State := (endWork k .off v).modCluster k (fun c => { c with offCause := .command })

theorem commandedOff_cluster (k : Fin 8) (v : State) : (commandedOff k v).clusters[k].state = .off ∧
    (commandedOff k v).clusters[k].offCause = .command := by
  rw [commandedOff, modCluster_at]
  dsimp only
  exact ⟨endWork_state k .off v, rfl⟩

theorem powerOff_off {k : Fin 8} {v : State} (off : v.clusters[k].state = .off) : powerOffCluster k v = gateCluster k v := by
  unfold powerOffCluster
  simp only [off]
  exact if_neg (not_not_intro rfl)

theorem powerOff_works {k : Fin 8} {v : State} (works : v.clusters[k].state = .quarantine ∨ v.clusters[k].state = .joining) :
    powerOffCluster k v = gateCluster k (commandedOff k v) := by
  have off := (commandedOff_cluster k v).1
  unfold powerOffCluster
  obtain state | state := works
  · rw [state]
    exact if_neg (not_not_intro off)
  · rw [state]
    exact if_neg (not_not_intro off)

theorem powerOff_cluster {k : Fin 8} {v : State}
    (state : v.clusters[k].state = .off ∨ v.clusters[k].state = .quarantine ∨ v.clusters[k].state = .joining) :
    let w := powerOffCluster k v
    w.clusters[k].state = .off ∧ w.clusters[k].powered = false ∧ w.clusters[k].vddio = .none ∧ w.clusters[k].joinAt = none ∧
      w.clusters[k].offCause = (if v.clusters[k].state = .off then v.clusters[k].offCause else .command) ∧
      ∀ p : Fin 64, clusterOf p = k → w.ports[p].table = none := by
  intro w
  obtain off | works := state
  · obtain ⟨hstate, -, hpowered, hvddio, hjoin, hcause, -⟩ := ce_facts (gateCluster_cluster k v)
    obtain ⟨state', cause'⟩ := v.clusters[k].unpowered_facts
    simp only [w, powerOff_off off, if_pos off]
    exact ⟨hstate.trans (state'.trans off), hpowered, hvddio, hjoin, hcause.trans cause', fun p mine => gateCluster_table mine v⟩
  · obtain ⟨hstate, -, hpowered, hvddio, hjoin, hcause, -⟩ := ce_facts (gateCluster_cluster k (commandedOff k v))
    obtain ⟨state', cause'⟩ := (commandedOff k v).clusters[k].unpowered_facts
    obtain ⟨off, commanded⟩ := commandedOff_cluster k v
    have on : v.clusters[k].state ≠ .off := by obtain h | h := works <;> rw [h] <;> decide
    simp only [w, powerOff_works works, if_neg on]
    exact ⟨hstate.trans (state'.trans off), hpowered, hvddio, hjoin, hcause.trans (cause'.trans commanded),
      fun p mine => gateCluster_table mine _⟩

/-! ### POWER cluster ON (R392) -/

theorem powerOn_cluster {k : Fin 8} {v : State} (off : v.clusters[k].state = .off) :
    (powerOnCluster k v).clusters[k].state = .quarantine ∧
      (powerOnCluster k v).clusters[k].phase = (if v.clusters[k].powered then .calibrate else .powerup) ∧
      (powerOnCluster k v).clusters[k].powered = true := by
  unfold powerOnCluster
  rw [if_neg (not_not_intro off)]
  by_cases powered : v.clusters[k].powered = true
  · rw [if_pos powered, if_pos powered, quarantine_cluster]
    exact ⟨rfl, rfl, rfl⟩
  · rw [if_neg powered, if_neg powered, quarantine_cluster]
    exact ⟨rfl, rfl, rfl⟩

/-! ### JOIN cluster NEXT (R398) -/

theorem joinTest_open {k : Fin 8} {v : State} (waits : v.clusters[k].state = .off ∨ v.clusters[k].state = .quarantine) :
    v.clusterTest .join k (.cl k) = .ok () := by
  unfold State.clusterTest
  obtain state | state := waits <;> rw [state] <;> rfl

theorem joinVerb_next {rc : Recv} {k : Fin 8} {v : State}
    (waits : v.clusters[k].state = .off ∨ v.clusters[k].state = .quarantine) :
    joinVerb rc (.ok (.cl k)) none v = done ("JOIN " ++ objName (.cl k) ++ " NEXT") (joinCluster k .next v) := by
  simp only [joinVerb, theCluster, theObj, bind, Except.bind, pure, Except.pure, joinTest_open waits]

theorem joinCluster_waits {k : Fin 8} {v : State} {jp : JoinPoint}
    (waits : v.clusters[k].state = .off ∨ (v.clusters[k].state = .quarantine ∧ v.clusters[k].phase ≠ .waitjoin)) :
    joinCluster k jp v = v.modCluster k (fun c => { c with joinAt := some jp }) := by
  unfold joinCluster
  simp only [modCluster_at]
  obtain state | ⟨state, phase⟩ := waits
  · rw [state]
  · rw [state]
    cases h : v.clusters[k].phase <;> simp_all

theorem joinCluster_enters {k : Fin 8} {v : State} {jp : JoinPoint} (state : v.clusters[k].state = .quarantine)
    (phase : v.clusters[k].phase = .waitjoin) :
    (joinCluster k jp v).clusters[k].state = .joining ∧ (joinCluster k jp v).clusters[k].joinAt = some jp := by
  have enters : joinCluster k jp v = enterJoining k (v.modCluster k (fun c => { c with joinAt := some jp })) := by
    unfold joinCluster
    simp only [modCluster_at, state, phase]
  have clusters : (enterJoining k (v.modCluster k (fun c => { c with joinAt := some jp }))).clusters = _ :=
    startupEnd_same .clusters (by decide)
  rw [enters, clusters, fixJoin, modCluster_at, modCluster_at, modCluster_at]
  exact ⟨rfl, rfl⟩

/-! ### Cluster RESET (R404) -/

def Cluster.resetValues (c : Cluster) : Cluster := { c with iostd := .lvds, vddio := .none }

theorem resetValues_cluster (k : Fin 8) (v : State) : (resetValues k v).clusters[k] = v.clusters[k].resetValues := by
  unfold Machine.resetValues
  rw [portsOf_mod_clusters]
  exact modCluster_at v k _

theorem resetValues_ports {k : Fin 8} {p : Fin 64} (mine : clusterOf p = k) (v : State) :
    (resetValues k v).ports[p] = v.ports[p].clusterReset :=
  portsOf_mod mine _ _

theorem resetCluster_off {k : Fin 8} {v : State} (off : v.clusters[k].state = .off) :
    resetCluster k v = (Machine.resetValues k (emptyBuffers k 256 v)).modCluster k
      (fun c => { c with discarded := cap512 (v.queued k) }) := by
  unfold resetCluster
  simp only [off, decide_true, if_true]

theorem resetCluster_on {k : Fin 8} {v : State} (on : v.clusters[k].state ≠ .off) :
    resetCluster k v = wakeEnd (nextTurns (quarantine k .calibrate true
      ((Machine.resetValues k (endWork k v.clusters[k].state v)).modCluster k
        (fun c => { c with discarded := cap512 (v.queued k) })))) := by
  unfold resetCluster
  simp only [on, decide_false, Bool.false_eq_true, if_false]

theorem ce_bank {x y : Cluster} (same : ce x = ce y) : x.bank = y.bank := (congrArg Cluster.bank same : (ce x).bank = (ce y).bank)

theorem resetPort_values (q : Port) : q.clusterReset.queue = [] ∧ q.clusterReset.seq = 0 ∧
    q.clusterReset.cfg = PortCfg.default := ⟨rfl, rfl, rfl⟩

theorem resetCluster_facts (k : Fin 8) (v : State) :
    (resetCluster k v).clusters[k].state = (if v.clusters[k].state = .off then .off else .quarantine) ∧
      (v.clusters[k].state ≠ .off → (resetCluster k v).clusters[k].phase = .calibrate) ∧
      (resetCluster k v).clusters[k].iostd = .lvds ∧
      (resetCluster k v).clusters[k].vddio = (if v.clusters[k].state = .off then .none else v.clusters[k].bank) ∧
      (resetCluster k v).clusters[k].epoch = v.clusters[k].epoch ∧
      (resetCluster k v).clusters[k].joinAxis = v.clusters[k].joinAxis ∧
      (resetCluster k v).clusters[k].joinAt = v.clusters[k].joinAt ∧
      ∀ p : Fin 64, clusterOf p = k → (resetCluster k v).ports[p].queue = [] ∧ (resetCluster k v).ports[p].seq = 0 ∧
        (resetCluster k v).ports[p].cfg = PortCfg.default := by
  by_cases off : v.clusters[k].state = .off
  · obtain ⟨hstate, -, -, -, hjoin, -, -, hepoch, haxis⟩ := ce_facts (emptyBuffers_cc 256 v k)
    rw [resetCluster_off off, if_pos off, if_pos off, modCluster_at, resetValues_cluster]
    dsimp only [Cluster.resetValues]
    refine ⟨hstate.trans off, fun on => absurd off on, rfl, rfl, hepoch, haxis, hjoin, fun p mine => ?_⟩
    rw [State.modCluster_ports, resetValues_ports mine]
    exact resetPort_values _
  · have ends (x : State) : ce (wakeEnd (nextTurns x)).clusters[k] = ce x.clusters[k] :=
      (nextTurns_cc.trans (CC.of_same wakeEnd_same)) k
    have ports (x : State) : (wakeEnd (nextTurns x)).ports = x.ports :=
      (wakeEnd_same .ports (by decide)).trans (nextTurns_same .ports (by decide))
    have reset := ends (quarantine k .calibrate true ((Machine.resetValues k (endWork k v.clusters[k].state v)).modCluster k
      (fun c => { c with discarded := cap512 (v.queued k) })))
    rw [quarantine_cluster, modCluster_at, resetValues_cluster] at reset
    obtain ⟨span, ended⟩ := endWork_cl2 (k := k) (st := v.clusters[k].state) (s := v)
    obtain ⟨hstate, hphase, -, hvddio, hjoin, -, hiostd, hepoch, haxis⟩ := ce_facts reset
    obtain ⟨-, -, -, -, hjoin', -, -, hepoch', haxis'⟩ := ce_facts ended
    rw [resetCluster_on off, if_neg off, if_neg off]
    dsimp only [Cluster.quarantined, Cluster.resetValues] at hvddio hjoin hepoch haxis hiostd
    have bank := ce_bank ended
    dsimp only at hjoin' hepoch' haxis' bank
    refine ⟨hstate, fun _ => hphase, hiostd, hvddio.trans bank, hepoch.trans hepoch', haxis.trans haxis',
      hjoin.trans hjoin', fun p mine => ?_⟩
    rw [ports, quarantine_ports, State.modCluster_ports, resetValues_ports mine]
    exact resetPort_values _

/-! ### The lines -/

theorem drainTest_open {k : Fin 8} {v : State} (active : v.clusters[k].state = .active) :
    v.clusterTest .drain k (.cl k) = .ok () := by
  unfold State.clusterTest
  rw [active]
  rfl

theorem powerOffTest_open {k : Fin 8} {v : State}
    (state : v.clusters[k].state = .off ∨ v.clusters[k].state = .quarantine ∨ v.clusters[k].state = .joining) :
    v.clusterTest .powerOff k (.cl k) = .ok () := by
  unfold State.clusterTest
  obtain state | state | state := state <;> rw [state] <;> rfl

theorem powerOnTest_open (k : Fin 8) (v : State) : v.clusterTest .powerOn k (.cl k) = .ok () := by
  unfold State.clusterTest
  cases v.clusters[k].state <;> rfl

theorem powerOnVerb_open (k : Fin 8) (v : State) : powerVerb (.ok (.cl k)) true v =
    done ("POWER " ++ objName (.cl k) ++ " ON") (powerOnCluster k v) := by
  simp only [powerVerb, theCluster, theObj, bind, Except.bind, pure, Except.pure, powerOnTest_open, if_true]

/-- Settles O26. -/
theorem clusterLinesTakeEffect : Obligations.ClusterLinesTakeEffect := by
  intro s d r rest k u v c name
  refine ⟨fun x front active => ?_, fun front state => ?_, fun front off => ?_, fun front on => ?_, fun front waits => ?_,
    fun front state phase => ?_, fun front => ?_⟩
  · refine ⟨drainCluster k x v, front.oks rfl rfl ?_, cl_drain active⟩
    show drainVerb (.ok (.cl k)) x v = _
    simp only [drainVerb, theCluster, theObj, bind, Except.bind, pure, Except.pure, drainTest_open active]
    rfl
  · refine ⟨powerOffCluster k v, front.oks rfl rfl ?_, powerOff_cluster state⟩
    show powerVerb (.ok (.cl k)) false v = _
    simp only [powerVerb, theCluster, theObj, bind, Except.bind, pure, Except.pure, Bool.false_eq_true, if_false,
      powerOffTest_open state]
    rfl
  · exact ⟨powerOnCluster k v, front.oks rfl rfl (powerOnVerb_open k v), powerOn_cluster off⟩
  · refine front.oks rfl rfl ((powerOnVerb_open k v).trans ?_)
    have stays : powerOnCluster k v = v := if_pos on
    rw [stays]
  · refine front.oks rfl rfl ((joinVerb_next (waits.imp_right And.left)).trans ?_)
    rw [joinCluster_waits waits]
    rfl
  · exact ⟨joinCluster k .next v, front.oks rfl rfl (joinVerb_next (.inr state)), joinCluster_enters state phase⟩
  · exact ⟨resetCluster k v, front.oks rfl rfl rfl, resetCluster_facts k v⟩

end Sys2Proof.Machine
end

section
/-! PROOF. The lines that write programs and release segments, and those that act on the whole device (R294, R305, R407, R408,
R417, R487, R490, R492). -/
namespace Sys2Proof.Machine
open Sys2Proof

/-! ### PROG and SEG FREE (R294, R305) -/

theorem decInt_natCast (i : Nat) : decInt (i : Int) = dec i := rfl

theorem progSyn_of_reads {v : State} {ix tx : RawVal} {i : Int} {x : SpireInstr}
    (index : readInteger false ix.text.toList = .ok i) (text : readProgText v tx = .ok x) : progSyn v ix tx = none := by
  simp only [progSyn, index, text, firstOf]

theorem progTest_rests {v : State} {g : Fin 8} (rests : v.groups[g].state = .idle ∨ v.groups[g].state = .halted)
    (unqueued : v.groups[g].queuedStart = none) : progTest v g = .ok () := by
  have still : v.groups[g].live = false := by
    rw [Bool.eq_false_iff, ne_eq, Group.live_iff]
    obtain state | state := rests <;> rw [state] <;> decide
  simp only [progTest, still, unqueued]
  rfl

theorem ring_timed {v : State} {x : SpireInstr} (timeless : v.tb.clkSrc = .pll ∨ x.timed = false) :
    (v.ring && x.timed) = false := by
  obtain locked | untimed := timeless
  · rw [ring_false locked, Bool.false_and]
  · rw [untimed, Bool.and_false]

theorem progVerb_writes {v : State} {g : Fin 8} {ix tx : RawVal} {i : Nat} {x : SpireInstr}
    (index : readInteger false ix.text.toList = .ok (i : Int)) (small : i ≤ 255) (text : readProgText v tx = .ok x)
    (timeless : v.tb.clkSrc = .pll ∨ x.timed = false) (free : progTest v g = .ok ()) :
    progVerb (.ok (.grp g)) ix tx v = done ("PROG " ++ objName (.grp g) ++ " " ++ dec i ++ " " ++ x.text v.tb.timeFmt)
      (v.modGroup g (fun y => { y with program := putInstr i x y.program })) := by
  have within : inRange 0 255 (i : Int) = true := by
    simp only [inRange, decide_eq_true_eq]
    omega
  simp only [progVerb, theGroup, theObj, bind, Except.bind, pure, Except.pure, index, within, text, ring_timed timeless, free,
    Bool.not_true, Bool.false_eq_true, if_false]
  rfl

theorem progClearVerb_empties {v : State} {g : Fin 8} (free : progTest v g = .ok ()) :
    progClearVerb (.ok (.grp g)) v = done ("PROG " ++ objName (.grp g) ++ " CLEAR")
      (v.modGroup g (fun y => { y with program := [], state := .idle })) := by
  simp only [progClearVerb, theGroup, theObj, bind, Except.bind, pure, Except.pure, free]
  rfl

theorem segFreeVerb_releases {v : State} {n : Fin 4096} (defined : v.store.find n ≠ none) (inactive : v.segActive n = false) :
    segFreeVerb (.ok (.segn n)) v = done ("SEG FREE " ++ objName (.segn n))
      { v with store := { v.store with segs := v.store.segs.filter (fun x => decide (x.id ≠ n)) } } := by
  have there : ¬ (v.store.find n).isNone = true := fun h => defined (Option.isNone_iff_eq_none.1 h)
  simp only [segFreeVerb, theSegment, theObj, bind, Except.bind, pure, Except.pure, if_neg there, inactive, Bool.false_eq_true,
    if_false]
  rfl

/-- Settles O27. -/
theorem programsAndSegmentsAreWritten : Obligations.ProgramsAndSegmentsAreWritten := by
  intro s d r rest u v
  refine ⟨fun g ix tx i x front index small text timeless rests unqueued => ?_, fun g front rests unqueued => ?_,
    fun n front defined inactive => ?_⟩
  · exact front.oks rfl (progSyn_of_reads index text)
      (progVerb_writes index small text timeless (progTest_rests rests unqueued))
  · exact front.oks rfl rfl (progClearVerb_empties (progTest_rests rests unqueued))
  · exact front.oks rfl rfl (segFreeVerb_releases defined inactive)

/-! ### The lines that act on the whole device (R407, R408, R417, R487, R490, R492) -/

theorem Front.thens {u : State} {r : Req} {rest : List Req} {c : Cmd} {want : Cmd → Bool} {syn : Cmd → State → Option SynErr}
    {run : Req → Cmd → State → Exec} {payload : String} {a : EndAction} {w : State} (front : Front u r rest c)
    (wanted : want c = true) (clean : syn c (u.took rest) = none) (does : run r c (u.took rest) = doneThen payload a w) :
    Host.Outcome.next (steward false want syn run u) =
      (.next (r.thenDoes payload a w) : Host.Outcome State Fault Refusal) :=
  next_congr (front.runs wanted clean does)

theorem orderAt_eq (v : State) (old : Option Order) :
    orderAt v old = old.getD ⟨if v.tb.running then some v.tb.now else none, false⟩ := by
  cases old <;> rfl

theorem orderRestart_fresh {v : State} (cause : RestartCause) (fresh : v.steward.ordered = none) : orderRestart cause v =
    { v with steward := { v.steward with
      ordered := some (cause, ⟨if v.tb.running then some v.tb.now else none, false⟩) } } := by
  rw [orderRestart, fresh]
  rfl

theorem updateVerb_staged {v : State} {n : Fin 4096} {x : Segment} (staged : v.boot.stageSeg = some n)
    (found : v.store.find n = some x) (fresh : v.steward.ordered = none) : updateVerb v =
      if (stagedImage v.boot x).1 = .none then doneThen "SYS UPDATE" .restart
        { v with boot := { v.boot with nextImage := some (imageOf (stagedImage v.boot x).2) },
                 steward := { v.steward with ordered := some (.update, ⟨if v.tb.running then some v.tb.now else none, false⟩) } }
      else .ok ⟨"", [], [], none, some 509, { v with boot := { v.boot with imageFault := (stagedImage v.boot x).1 } }⟩ := by
  conv => lhs; simp only [updateVerb, staged, found]
  obtain ⟨fault, bytes⟩ := stagedImage v.boot x
  cases fault with
  | none =>
    dsimp only
    rw [orderRestart_fresh .update (v := v.modBoot _) fresh]
    rfl
  | _ => rfl

theorem sleepTest_passes {v : State} (off : ∀ k : Fin 8, v.clusters[k].state = .off)
    (rest : ∀ g : Fin 8, v.groups[g].state = .idle ∨ v.groups[g].state = .halted)
    (kept : ∀ a : Fin 4, v.bel.axis = some a → v.axes[a].state = .confirmed ∧ v.axes[a].cfg.mode = .frame ∧
      (∀ p, v.axes[a].cfg.source ≠ .port p) ∧ v.axes[a].cfg.source ≠ .mark ∧ 200000000 ≤ v.axes[a].cfg.period ∧
      v.axes[a].cfg.period ≤ 10000000000000) : sleepTest v = none := by
  have still (g : Fin 8) : v.groups[g].live = false := by
    rw [Bool.eq_false_iff, ne_eq, Group.live_iff]
    obtain state | state := rest g <;> rw [state] <;> decide
  cases axis : v.bel.axis with
  | none =>
    have none_live : (List.finRange 8).find? (fun g => v.groups[g].live) = none := find?_none_of (fun g _ => still g)
    simp only [sleepTest, no_cluster_on off, none_live, axis]
  | some a =>
    obtain ⟨confirmed, frame, notPort, notMark, long, short⟩ := kept a axis
    rw [sleepTest_of_axis off still axis, if_neg (not_not_intro confirmed), if_neg]
    rintro (mode | ⟨p, port⟩ | mark | low | high)
    · exact mode frame
    · exact notPort p port
    · exact notMark mark
    · exact absurd low (Nat.not_lt.2 long)
    · exact absurd high (Nat.not_lt.2 short)

theorem sleepVerb_accepts {v : State} (passes : sleepTest v = none) (awake : v.bel.step = .awake) : sleepVerb v =
    doneThen "SYS SLEEP" .sleep { v with bel := { v.bel with
      step := .accepted (if v.tb.running then some v.tb.now else none) false } } := by
  simp only [sleepVerb, passes, State.modBel, awake]
  rfl

/-- R488: no flag is named when none is set. -/
theorem featuresVerb_plain {v : State} (plain : v.boot.image.features = 0) : featuresVerb v =
    done ("SYS FEATURES LEVEL=" ++ dec v.boot.image.level ++ " FLAGS=" ++ "NONE") v := by
  simp only [featuresVerb, plain]
  rfl

/-- Settles O29. -/
theorem deviceLinesArrangeActions : Obligations.DeviceLinesArrangeActions := by
  intro s d r rest u v now
  refine ⟨fun front => ?_, fun front fresh => ?_, fun n x front staged found fresh => ?_,
    fun front off resting kept awake => ?_, fun front => ?_, fun front plain => ?_⟩
  · refine front.thens rfl rfl ?_
    show sysResetVerb v = _
    simp only [sysResetVerb, orderAt_eq]
    rfl
  · refine front.thens rfl rfl ?_
    show doneThen "SYS RESTART" .restart (orderRestart .command v) = _
    rw [orderRestart_fresh .command fresh]
  · refine next_congr ((front.runs rfl rfl (updateVerb_staged staged found fresh)).trans ?_)
    by_cases good : (stagedImage v.boot x).1 = .none
    · rw [if_pos good, if_pos good]
      rfl
    · rw [if_neg good, if_neg good]
      rfl
  · exact (front.thens rfl rfl (sleepVerb_accepts (sleepTest_passes off resting kept) awake))
  · exact front.oks rfl rfl rfl
  · exact front.oks rfl rfl (featuresVerb_plain plain)

end Sys2Proof.Machine
end

section
/-! PROOF. The calibration image and Belfry's log as lines (R359, R361, R433, R434). -/
namespace Sys2Proof.Machine
open Sys2Proof

theorem exportTest_open {v : State} {p : Fin 64} (works : v.clusters[clusterOf p].state = .active ∨
    v.clusters[clusterOf p].state = .draining ∨ v.clusters[clusterOf p].state = .joining) :
    v.clusterTest .calExport (clusterOf p) (.port p) = .ok () := by
  unfold State.clusterTest
  obtain state | state | state := works <;> rw [state] <;> rfl

theorem exportVerb_lists {v : State} {p : Fin 64} {x : TableSet} (table : v.ports[p].table = some x)
    (open_ : v.clusterTest .calExport (clusterOf p) (.port p) = .ok ()) : exportVerb (.ok (.port p)) v =
      doneLines ("CAL EXPORT " ++ objName (.port p) ++ " CALGEN=" ++ dec x.gen)
        ((List.range 14).map (fun i => dec (i + 1) ++ "/14 :" ++ hexOf (slice (calImage p x) (96 * i) 96))) v := by
  simp only [exportVerb, thePort, theObj, bind, Except.bind, pure, Except.pure, open_, table]
  rfl

theorem importTest_open {v : State} {p : Fin 64} (active : v.clusters[clusterOf p].state = .active) :
    v.clusterTest .calImport (clusterOf p) (.port p) = .ok () := by
  unfold State.clusterTest
  rw [active]
  rfl

/-- R361: a part that does not complete the image is kept with the others. -/
theorem importVerb_keeps_part {v : State} {p : Fin 64} {i : Nat} {block : List Byte}
    (active : v.clusters[clusterOf p].state = .active) (low : 1 ≤ i) (high : i ≤ 14) (size : block.length = 96)
    (incomplete : (putPart i block v.ports[p].staging).length < 14) : importVerb (.ok (.port p)) i 14 block v =
      done ("CAL IMPORT " ++ objName (.port p) ++ " " ++ dec i ++ "/14 :" ++ hexOf block)
        (v.modPort p (fun q => { q with staging := putPart i block v.ports[p].staging })) := by
  have part : (decide (i < 1 ∨ 14 < i)) = false := decide_eq_false (by omega)
  simp only [importVerb, thePort, theObj, bind, Except.bind, pure, Except.pure, importTest_open active, part, size, incomplete,
    if_true, ne_eq, not_true_eq_false, decide_false, Bool.or_false, Bool.false_eq_true, if_false]

theorem logVerb_locked {v : State} (locked : v.tb.clkSrc = .pll) :
    logVerb v = doneLines "BEL LOG" (v.bel.log.map (LogEntry.text v.tb.timeFmt)) v := by
  rw [logVerb, ring_false locked]
  rfl

/-- Settles O31. -/
theorem tablesAndLogAsLines : Obligations.TablesAndLogAsLines := by
  intro s d r rest u v
  refine ⟨fun p x front table works => ?_, fun p i block front active closed low high size incomplete => ?_,
    fun front locked => ?_, fun front => ?_⟩
  · exact next_congr (front.runs rfl rfl (exportVerb_lists table (exportTest_open works)))
  · refine front.oks ?_ rfl (importVerb_keeps_part active low high size incomplete)
    show (!(u.windowOf p).isSome) = true
    rw [closed]
    rfl
  · refine next_congr (front.runs rfl rfl ?_)
    rw [logVerb_locked locked, doneLines, List.length_map]
    rfl
  · exact front.oks rfl rfl rfl

end Sys2Proof.Machine
end

section
/-! PROOF. Lines that write the mode of a link, the console rate and the form of times (R30, R62, R99), and those that write a
port, its tone, its thresholds and the standard of its cluster (R212, R229, R232, R237, R240, R242). -/
namespace Sys2Proof.Machine
open Sys2Proof

/-! ### Links and times -/

/-- The object of a link. -/
def linkObj : Link → Obj | .con => .con | .hspi => .hspi

theorem applyAll_linkMode {k : Link} {x : PropSpec} {value : Value} (v : State) (named : x.name = "MODE") :
    applyAll [wr (linkObj k) "MODE" x value] v = v := by
  have kept : applyWrite (wr (linkObj k) "MODE" x value) v = v := by
    unfold applyWrite
    rw [show (wr (linkObj k) "MODE" x value).prop.name = "MODE" from named]
    cases k <;> rfl
  rw [apply_one named, noStats (fun m none => by cases k <;> cases none), kept]
  cases k <;> rfl

theorem modeWrite_linkMode {k : Link} {m : LinkMode} {x : PropSpec} (named : x.name = "MODE") :
    modeWrite (wr (linkObj k) "MODE" x (.kw m.word)) = some (k, m) := by
  unfold modeWrite
  rw [show (wr (linkObj k) "MODE" x (.kw m.word)).prop.name = "MODE" from named]
  cases k <;> cases m <;> rfl

/-- SET of a link's mode, whatever row executes it. -/
theorem linkMode_line {u v : State} {r : Req} {rest : List Req} {text : RawVal} {k : Link} {m : LinkMode}
    {want : Cmd → Bool} (hv : v = u.took rest) (sets : SetsOne u r rest (linkObj k) "MODE" text (.kw m.word))
    (wanted : want (.set [⟨⟨.ok (linkObj k), "MODE"⟩, text⟩]) = true) : setLine false want u =
      settleQueue (answer r (.ok ⟨setText (linkObj k) "MODE" m.word, [], [(k, m)], none, none, v⟩) v) := by
  obtain ⟨front, x, named, reads⟩ := sets
  have name : x.name = "MODE" := by cases k <;> cases named <;> rfl
  have puts : x.get (x.put (.kw m.word) v) = .kw m.word := by cases k <;> cases named <;> cases m <;> rfl
  have ok : OneOk v (linkObj k) "MODE" x (.kw m.word) := by
    refine ⟨named, ?_, ?_, ?_, ?_, ?_⟩ <;> cases k <;> cases named <;> rfl
  have shown : assignText v.tb.timeFmt (objName (linkObj k) ++ "." ++ "MODE") (.kw m.word) = setText (linkObj k) "MODE" m.word := by
    cases m <;> rfl
  have ends : (decide ((linkObj k) = .con) && "MODE" == "BAUD") = false := Bool.and_false _
  rw [set_line front hv ok reads wanted, trial_one name (by decide), puts, applyAll_linkMode v name, ite_self, shown]
  simp only [List.filterMap_cons, List.filterMap_nil, modeWrite_linkMode name, name, ends, Bool.false_eq_true, if_false]

/-- SET of the console rate. -/
theorem conBaud_line {u v : State} {r : Req} {rest : List Req} {text : RawVal} {value : Value} {baud : Option Nat}
    {shown : String} {want : Cmd → Bool} (hv : v = u.took rest) (sets : SetsOne u r rest .con "BAUD" text value)
    (wanted : want (.set [⟨⟨.ok .con, "BAUD"⟩, text⟩]) = true)
    (puts : ∀ x, propOf .con "BAUD" = some x → x.put value v = { v with console := { v.console with baud := baud } })
    (gets : ∀ x, propOf .con "BAUD" = some x →
      fmtValue v.tb.timeFmt (x.get { v with console := { v.console with baud := baud } }) = shown) : setLine false want u =
      r.thenDoes (setText .con "BAUD" shown) .hunt { v with console := { v.console with baud := baud } } := by
  obtain ⟨front, x, named, reads⟩ := sets
  have name : x.name = "BAUD" := by cases named; rfl
  have ok : OneOk v .con "BAUD" x value := by
    refine ⟨named, ?_, rfl, rfl, ?_, rfl⟩ <;> cases named <;> rfl
  have applied : applyAll [wr .con "BAUD" x value] v = { v with console := { v.console with baud := baud } } := by
    rw [apply_one name, noStats (fun m none => by cases none), ← puts x named]
    unfold applyWrite
    rw [show (wr .con "BAUD" x value).prop.name = "BAUD" from name]
    rfl
  have no_mode : modeWrite (wr .con "BAUD" x value) = none := by
    unfold modeWrite
    rw [show (wr .con "BAUD" x value).prop.name = "BAUD" from name]
    rfl
  rw [set_line front hv ok reads wanted, trial_one name (by decide), puts x named, applied]
  simp only [List.filterMap_cons, List.filterMap_nil, no_mode, name, assignText,
    show ("BAUD" == "ACTIVE") = false from by decide, Bool.false_eq_true, if_false, gets x named]
  rfl

theorem timeFmt_line {u v : State} {r : Req} {rest : List Req} {text : RawVal} {f : TimeFmt} {want : Cmd → Bool}
    (hv : u.took rest = v) (sets : SetsOne u r rest .sys "TIMEFMT" text (.kw f.word))
    (wanted : want (.set [⟨⟨.ok .sys, "TIMEFMT"⟩, text⟩]) = true) : setLine false want u =
      r.oked (setText .sys "TIMEFMT" f.word) { v with tb := { v.tb with timeFmt := f } } := by
  obtain ⟨front, x, named, reads⟩ := sets
  have name : x.name = "TIMEFMT" := by cases named; rfl
  have puts : x.put (.kw f.word) v = { v with tb := { v.tb with timeFmt := f } } := by cases named; cases f <;> rfl
  have gets : fmtValue v.tb.timeFmt (x.get { v with tb := { v.tb with timeFmt := f } }) = f.word := by
    cases named; cases f <;> rfl
  have agrees : conflictOf v { v with tb := { v.tb with timeFmt := f } } (wr .sys "TIMEFMT" x (.kw f.word)) = none := by
    rw [conf_sys, name]
    rfl
  have writes : objectWritten v .sys ["TIMEFMT"] (applyWrite (wr .sys "TIMEFMT" x (.kw f.word)) v) =
      { v with tb := { v.tb with timeFmt := f } } := by
    rw [← puts]
    unfold applyWrite
    rw [show (wr .sys "TIMEFMT" x (.kw f.word)).prop.name = "TIMEFMT" from name]
    rfl
  exact row2 front hv reads wanted named name (by cases named; rfl) (by cases named; rfl) rfl rfl (by decide) puts gets agrees
    writes

/-- Settles O32. -/
theorem linkLinesAndTimeForm : Obligations.LinkLinesAndTimeForm := by
  intro s d r rest text u v
  refine ⟨?_, ?_, ?_, ?_⟩
  · intro k m o t sets
    have obj : o = (linkObj k) := by cases k <;> rfl
    rw [obj] at sets
    have line {want : Cmd → Bool} (wanted : want (.set [⟨⟨.ok (linkObj k), "MODE"⟩, text⟩]) = true) : setLine false want u = t := by
      simp only [t, obj]
      exact linkMode_line rfl sets wanted
    exact ⟨next_congr (line (by cases k <;> rfl)), next_congr (line (by cases k <;> rfl))⟩
  · intro b sets
    exact next_congr (conBaud_line rfl sets rfl (fun x named => by cases named; rfl)
      (fun x named => by cases named; exact fmt_nat _ b))
  · intro sets
    exact next_congr (conBaud_line rfl sets rfl (fun x named => by cases named; rfl) (fun x named => by cases named; rfl))
  · intro f t sets
    exact ⟨next_congr (timeFmt_line rfl sets rfl), next_congr (timeFmt_line rfl sets rfl)⟩

/-! ### Ports, tones, thresholds and standards -/

/-- R242: a comparator with new values settles from what was in force. -/
def Port.settles (level : Int) (hyst : Nat) (now : TimeWord) (same : Prop) [Decidable same] (y : Port) : Port :=
  if same then y else { y with settling := some ⟨level, hyst, now⟩ }

theorem settleFrom_set (v : State) (p : Fin 64) (g : PortCfg → PortCfg) (same : Prop) [Decidable same]
    (iff : v.threshInForce p = (v.modPort p (pc g)).threshInForce p ∧ v.ports[p].cfg.hyst = (g v.ports[p].cfg).hyst ↔ same) :
    settleFrom v p (v.modPort p (pc g)) =
      v.modPort p (fun q => (pc g q).settles (v.threshInForce p) v.ports[p].cfg.hyst v.tb.now same) := by
  have hyst : (v.modPort p (pc g)).ports[p].cfg.hyst = (g v.ports[p].cfg).hyst := by rw [modPort_at]; rfl
  unfold settleFrom Port.settles
  rw [hyst]
  by_cases h : same
  · rw [if_pos (by simpa using iff.2 h)]
    simp only [if_pos h]
  · rw [if_neg (by simpa using fun level change => h (iff.1 ⟨level, change⟩)), port_twice]
    simp only [if_neg h]
    rfl

theorem threshInForce_auto {v : State} {p : Fin 64} (auto : v.ports[p].cfg.thresh = none) :
    v.threshInForce p = autoThresh v.clusters[clusterOf p].iostd := by
  unfold State.threshInForce
  dsimp only
  rw [auto]
  cases v.ports[p].cfg.mode <;> rfl

theorem settleFrom_congr {v s t : State} {p : Fin 64} (port : t.ports[p] = s.ports[p]) (clusters : t.clusters = s.clusters)
    (tb : t.tb = s.tb) : (settleFrom v p t).ports[p] = (settleFrom v p s).ports[p] := by
  have level : t.threshInForce p = s.threshInForce p := by
    unfold State.threshInForce State.clusterOfPort
    rw [port, clusters]
  rw [settleFrom_at, settleFrom_at, level, port, tb]

theorem settleFrom_other {v s : State} {p j : Fin 64} (other : p ≠ j) : (settleFrom v p s).ports[j] = s.ports[j] := by
  unfold settleFrom
  split
  · rfl
  · exact upd_other _ _ _ _ other

theorem foldSettle {v : State} : ∀ {l : List (Fin 64)} {s : State}, l.Nodup →
    (∀ p ∈ l, (foldS l (settleFrom v) s).ports[p] = (settleFrom v p s).ports[p]) ∧
      ∀ p, p ∉ l → (foldS l (settleFrom v) s).ports[p] = s.ports[p]
  | [], s, _ => ⟨fun p here => (by cases here), fun p _ => rfl⟩
  | x :: xs, s, once => by
    obtain ⟨fresh, once⟩ := List.nodup_cons.1 once
    obtain ⟨settled, kept⟩ := foldSettle (v := v) (s := settleFrom v x s) once
    have same : SameBut [.ports] s (settleFrom v x s) := settleFrom_same
    refine ⟨fun p here => ?_, fun p absent => ?_⟩
    · obtain rfl | later := List.mem_cons.1 here
      · exact kept p fresh
      · have other : x ≠ p := fun e => fresh (e ▸ later)
        exact (settled p later).trans
          (settleFrom_congr (settleFrom_other other) (same .clusters (by decide)) (same .tb (by decide)))
    · have other : x ≠ p := fun e => absent (e ▸ List.mem_cons_self)
      exact (kept p (fun later => absent (List.mem_cons_of_mem _ later))).trans (settleFrom_other other)

/-- R240: the thresholds of a cluster's ports are automatic again. -/
theorem thresholdsAuto_at {k : Fin 8} {v : State} (j : Fin 64) : (thresholdsAuto k v).ports[j] =
    if clusterOf j = k then pc (fun c => { c with thresh := none }) v.ports[j] else v.ports[j] := by
  have once : ((portsOf k).map id).Nodup := by rw [List.map_id]; exact portsOf_nodup k
  obtain ⟨written, kept⟩ := foldKey (key := id) (f := fun _ => pc (fun c => { c with thresh := none })) (s := v) once
  by_cases mine : clusterOf j = k
  · rw [if_pos mine]
    exact written j (mem_portsOf mine)
  · rw [if_neg mine]
    exact kept j (by rw [List.map_id]; exact fun here => mine (portsOf_mem here))

theorem thresholdsAuto_same (k : Fin 8) (v : State) : SameBut [.ports] v (thresholdsAuto k v) :=
  foldPorts_same (f := fun _ => pc (fun c => { c with thresh := none }))

/-- What a new standard makes of a cluster and its ports (R237, R240, R242). -/
def withStandard (k : Fin 8) (x : IoStd) (v : State) : State :=
  foldS (portsOf k) (settleFrom v) (thresholdsAuto k (v.modCluster k (fun c => { c with iostd := x })))

theorem withStandard_same (k : Fin 8) (x : IoStd) (v : State) :
    SameBut [.ports] (v.modCluster k (fun c => { c with iostd := x })) (withStandard k x v) :=
  (thresholdsAuto_same k _).trans (foldS_same (fun _ _ => settleFrom_same) _ _)

theorem withStandard_at (k : Fin 8) (x : IoStd) (v : State) (j : Fin 64) : (withStandard k x v).ports[j] =
    if clusterOf j ≠ k then v.ports[j] else (pc (fun c => { c with thresh := none }) v.ports[j]).settles (v.threshInForce j)
      v.ports[j].cfg.hyst v.tb.now (v.threshInForce j = autoThresh x) := by
  obtain ⟨settled, kept⟩ := foldSettle (v := v)
    (s := thresholdsAuto k (v.modCluster k (fun c => { c with iostd := x }))) (portsOf_nodup k)
  have port := thresholdsAuto_at (k := k) (v := v.modCluster k (fun c => { c with iostd := x })) j
  by_cases mine : clusterOf j = k
  · rw [if_pos mine] at port
    rw [if_neg (not_not_intro mine), withStandard, settled j (mem_portsOf mine), settleFrom_at]
    have same : (thresholdsAuto k (v.modCluster k (fun c => { c with iostd := x }))).clusters =
        (v.modCluster k (fun c => { c with iostd := x })).clusters := thresholdsAuto_same k _ .clusters (by decide)
    have clusters : (thresholdsAuto k (v.modCluster k (fun c => { c with iostd := x }))).clusters[clusterOf j].iostd = x := by
      simp only [mine, same, modCluster_at]
    have level := threshInForce_auto (p := j) (v := thresholdsAuto k (v.modCluster k (fun c => { c with iostd := x })))
      (by rw [port]; rfl)
    have now : (thresholdsAuto k (v.modCluster k (fun c => { c with iostd := x }))).tb = v.tb :=
      thresholdsAuto_same k _ .tb (by decide)
    have hyst : (pc (fun c => { c with thresh := none }) v.ports[j]).cfg.hyst = v.ports[j].cfg.hyst := rfl
    rw [level, clusters, port, now, State.modCluster_ports, hyst, Port.settles]
    simp only [and_true]
  · rw [if_neg mine] at port
    rw [if_pos mine, withStandard, kept j (fun here => mine (portsOf_mem here)), port]
    rfl

/-- Settles O33. -/
theorem portAndBankLines : Obligations.PortAndBankLines := by
  intro s d r rest text p u v q o f
  refine ⟨fun works => ⟨fun m sets empty disarmed unbound wide free => ?_, fun n sets => ?_, fun locked sets => ?_,
    fun i => ?_, fun n sets => ?_, fun sets => ?_⟩, fun k x => ?_⟩
  · obtain ⟨same, cfg⟩ := portWritten_spec (p := p) (old := v) (v := v.modPort p (pc fun c => { c with mode := m }))
    refine ⟨portWritten p v (v.modPort p (pc fun c => { c with mode := m })),
      next_congr (port_mode rfl works m sets empty disarmed unbound wide free), ?_, ?_⟩
    · rw [cfg, modPort_at]
      rfl
    · exact SameBut.trans (modPort_same.mono (by decide)) same
  · exact next_congr (port_ftw rfl works n sets rfl)
  · exact next_congr (port_kw rfl works locked sets rfl)
  · intro w locked sets late near
    exact next_congr (port_time rfl works locked i sets late near rfl)
  · intro y z t
    have settled : settleFrom v p (v.modPort p (pc fun c => { c with hyst := n })) = { v with ports := v.ports.set p z } :=
      settleFrom_set v p _ (q.cfg.hyst = n) (by rw [inForce_mod rfl rfl]; exact and_iff_right rfl)
    have line {want : Cmd → Bool} (wanted : want (.set [⟨⟨.ok (.port p), "HYST"⟩, text⟩]) = true) :
        setLine false want u = t :=
      (port_hyst rfl works n sets wanted).trans (congrArg (r.oked (setText o "HYST" (dec n))) settled)
    exact ⟨next_congr (line rfl), next_congr (line rfl)⟩
  · intro y z
    have level : (v.modPort p (pc fun c => { c with thresh := none })).threshInForce p =
        autoThresh v.clusters[clusterOf p].iostd := threshInForce_auto (by rw [modPort_at]; rfl)
    have settled : settleFrom v p (v.modPort p (pc fun c => { c with thresh := none })) =
        { v with ports := v.ports.set p z } :=
      settleFrom_set v p _ (v.threshInForce p = autoThresh v.clusters[clusterOf p].iostd)
        (by rw [level]; exact and_iff_left rfl)
    exact next_congr ((port_thresh rfl works sets rfl).trans (congrArg (r.oked (setText o "THRESH" "AUTO")) settled))
  · intro c sets notDraining notJoining off bank
    refine ⟨withStandard k x v, next_congr (set_iostd rfl x sets rfl notDraining notJoining off bank),
      withStandard_same k x v .clusters (by decide), fun j => withStandard_at k x v j, ?_⟩
    exact SameBut.trans (modCluster_same.mono (by decide)) ((withStandard_same k x v).mono (by decide))

end Sys2Proof.Machine
end

section
/-! PROOF. Lines that write an axis (R187, R198, R204, R555). -/
namespace Sys2Proof.Machine
open Sys2Proof

/-- An axis with the counts of retracted edges of another. -/
def countedAs (y z : Axis) : Axis := { z with retracts := y.retracts, retractedIn := y.retractedIn }

theorem counted_of_av {y z : Axis} (same : av y = av z) : y = countedAs y z := by
  obtain ⟨retracts, cycle, rfl⟩ := eq_av same
  rfl

/-- An axis with changed properties. -/
def withCfg (g : AxisCfg → AxisCfg) (x : Axis) : Axis := { x with cfg := g x.cfg }

section
variable {u v : State} {r : Req} {rest : List Req} {text : RawVal} {a : Fin 4}

/-- A SET line of one assignment to an axis. -/
theorem axis_line {name shown : String} {x : PropSpec} {value : Value} {g : AxisCfg → AxisCfg} {want : Cmd → Bool}
    (front : Front u r rest (.set [⟨⟨.ok (.ax a), name⟩, text⟩])) (hv : u.took rest = v)
    (reads : readField x.ty text.text.toList = .ok (.val value))
    (wanted : want (.set [⟨⟨.ok (.ax a), name⟩, text⟩]) = true) (named : propOf (.ax a) name = some x)
    (nameEq : x.name = name) (writable : x.readOnly = false) (timeless : x.timed = false)
    (plain : name ≠ "IOSTD" ∧ name ≠ "ACTIVE" ∧ name ≠ "MODE" ∧ name ≠ "BAUD" ∧ name ≠ "STATS")
    (puts : x.put value v = v.modAxis a (withCfg g))
    (gets : fmtValue v.tb.timeFmt (x.get (v.modAxis a (withCfg g))) = shown)
    (agrees : axisConflict v (v.modAxis a (withCfg g)) a name = none) : setLine false want u =
      r.oked (setText (.ax a) name shown) (axisWritten a v.axes[a].cfg [name] (v.modAxis a (withCfg g))) := by
  have conflict : conflictOf v (v.modAxis a (withCfg g)) (wr (.ax a) name x value) = none := by
    show axisConflict v _ a x.name = none
    rw [nameEq]
    exact agrees
  have applied : applyWrite (wr (.ax a) name x value) v = v.modAxis a (withCfg g) := puts
  exact row2 front hv reads wanted named nameEq writable (by rw [timeless, Bool.false_and]) rfl rfl plain puts gets conflict
    (by rw [applied]; rfl)

theorem modAxis_same {f : Axis → Axis} : SameBut [.axes] v (v.modAxis a f) := by
  intro part other
  cases part <;> simp at other <;> rfl

/-! ### EDGE (R187) -/

theorem edge_line {e : Sense} {want : Cmd → Bool} (hv : u.took rest = v)
    (sets : SetsOne u r rest (.ax a) "EDGE" text (.kw e.word))
    (wanted : want (.set [⟨⟨.ok (.ax a), "EDGE"⟩, text⟩]) = true) : setLine false want u =
      r.oked (setText (.ax a) "EDGE" e.word)
        (axisWritten a v.axes[a].cfg ["EDGE"] (v.modAxis a (withCfg fun c => { c with edge := e }))) := by
  obtain ⟨front, x, named, reads⟩ := sets
  have puts : x.put (.kw e.word) v = v.modAxis a (withCfg fun c => { c with edge := e }) := by cases named; cases e <;> rfl
  have gets : x.get (v.modAxis a (withCfg fun c => { c with edge := e })) = .kw e.word := by
    cases named
    show Value.one (atomOf _ (v.modAxis a (withCfg fun c => { c with edge := e })).axes[a].cfg.edge) = _
    rw [modAxis_at]
    cases e <;> rfl
  exact axis_line front hv reads wanted named (by cases named; rfl) (by cases named; rfl) (by cases named; rfl) (by decide) puts
    (by rw [gets]; cases e <;> rfl) rfl

/-! ### RUNAHEAD (R198, R204, R555) -/

theorem runAhead_conflict {on : Bool} (sound : axisUnsound (v.modAxis a (withCfg fun c => { c with runAhead := on })) a = false)
    (reachable : on = true ∨ v.axes[a].cfg.mode = .increment ∨ holdsShort v a = false) :
    axisConflict v (v.modAxis a (withCfg fun c => { c with runAhead := on })) a "RUNAHEAD" = none := by
  have far : (("RUNAHEAD" == "RUNAHEAD") && !on && decide (v.axes[a].cfg.mode ≠ .increment) && holdsShort v a) = false := by
    obtain h | h | h := reachable
    · rw [h]
      rfl
    · simp only [h, ne_eq, not_true_eq_false, decide_false, Bool.and_false, Bool.false_and]
    · rw [h, Bool.and_false]
  unfold axisConflict
  rw [sound, modAxis_at]
  dsimp only [withCfg]
  rw [far]
  rfl

theorem runAhead_line {on : Bool} {want : Cmd → Bool} (hv : u.took rest = v)
    (sets : SetsOne u r rest (.ax a) "RUNAHEAD" text (.kw (switchWord on)))
    (sound : axisUnsound (v.modAxis a (withCfg fun c => { c with runAhead := on })) a = false)
    (reachable : on = true ∨ v.axes[a].cfg.mode = .increment ∨ holdsShort v a = false)
    (wanted : want (.set [⟨⟨.ok (.ax a), "RUNAHEAD"⟩, text⟩]) = true) : setLine false want u =
      r.oked (setText (.ax a) "RUNAHEAD" (switchWord on))
        (axisWritten a v.axes[a].cfg ["RUNAHEAD"] (v.modAxis a (withCfg fun c => { c with runAhead := on }))) := by
  obtain ⟨front, x, named, reads⟩ := sets
  have puts : x.put (.kw (switchWord on)) v = v.modAxis a (withCfg fun c => { c with runAhead := on }) := by
    cases named; cases on <;> rfl
  have gets : x.get (v.modAxis a (withCfg fun c => { c with runAhead := on })) = .kw (switchWord on) := by
    cases named
    show Value.one (atomOf _ (v.modAxis a (withCfg fun c => { c with runAhead := on })).axes[a].cfg.runAhead) = _
    rw [modAxis_at]
    cases on <;> rfl
  exact axis_line front hv reads wanted named (by cases named; rfl) (by cases named; rfl) (by cases named; rfl) (by decide) puts
    (by rw [gets]; cases on <;> rfl) (runAhead_conflict sound reachable)

end

/-- R198: the values of the catch are in force from the next window on. -/
def Axis.revalued (now : TimeWord) (x : Axis) : Axis := if x.windowOpen now then x else { x with inForce := x.cfg.vals }

theorem axisWritten_restarts {a : Fin 4} {old : AxisCfg} {name : String} {s : State}
    (restarts : restartNames.contains name = true) :
    axisWritten a old [name] s = restartAxis a (s.modAxis a (Axis.revalued s.tb.now)) := by
  have any : [name].any restartNames.contains = true := by rw [List.any_cons, restarts]; rfl
  unfold axisWritten
  simp only [any, if_true]
  rfl

theorem axisWritten_runAhead (a : Fin 4) (old : AxisCfg) (s : State) : axisWritten a old ["RUNAHEAD"] s =
    if old.runAhead && !s.axes[a].cfg.runAhead then unbindAll a (s.modAxis a (Axis.revalued s.tb.now))
    else if !old.runAhead && s.axes[a].cfg.runAhead then runAheadOn a (s.modAxis a (Axis.revalued s.tb.now))
    else s.modAxis a (Axis.revalued s.tb.now) := rfl

theorem revalued_cfg {g : AxisCfg → AxisCfg} {now : TimeWord} {x : Axis} (mode : (g x.cfg).mode = x.cfg.mode) :
    (withCfg g x).revalued now =
      { x with cfg := g x.cfg, inForce := if x.windowOpen now then x.inForce else (g x.cfg).vals } := by
  have open_ : (withCfg g x).windowOpen now = x.windowOpen now := by
    unfold Axis.windowOpen withCfg
    rw [← mode]
  unfold Axis.revalued
  rw [open_]
  split <;> rfl

theorem revalued_at (v : State) (a : Fin 4) (g : AxisCfg → AxisCfg) (mode : (g v.axes[a].cfg).mode = v.axes[a].cfg.mode) :
    (v.modAxis a (withCfg g)).modAxis a (Axis.revalued v.tb.now) = { v with axes := v.axes.set a { v.axes[a] with
      cfg := g v.axes[a].cfg,
      inForce := if v.axes[a].windowOpen v.tb.now then v.axes[a].inForce else (g v.axes[a].cfg).vals } } := by
  rw [axis_twice, axis_set, revalued_cfg mode]

/-- R187: a restarted axis keeps nothing of its old numbering. -/
theorem restartAx_eq (now : TimeWord) (x : Axis) : restartAx now x = { x with
    inForce := x.cfg.vals, state := if x.cfg.mode = .free then .confirmed else .acquire,
    anchor := if x.cfg.mode = .free then some ⟨x.freeStart (x.freeFrame now), x.freeFrame now, true⟩ else none,
    period := (x.cfg.period * 65536 : Nat), misses := 0, acquired := [], pendIdx := [], pendCnt := [], gen := x.gen + 1,
    lastTaken := none, decided := [], count := 0 } := rfl

theorem others_counted {a : Fin 4} {y : Axis} {v t : State} (same : AW a y v t) (b : Fin 4) (other : b ≠ a) :
    t.axes[b] = countedAs t.axes[b] v.axes[b] := by
  obtain ⟨-, others⟩ := same
  exact counted_of_av (others b other)

/-- R555: the pulses that an axis without run-ahead unbinds. -/
theorem unbindPulse_eq (a : Fin 4) (an : Frame) (cycle : TimeWord) (z : Pulse) : unbindPulse a an cycle z =
    match z.axisFrame with
    | some (b, n, _) => if b = a ∧ 0 < fdiff n an ∧ z.isCommitted cycle = false then { z with lead := none } else z
    | none => z := by
  unfold unbindPulse Pulse.retractable unbinds
  cases z.axisFrame with
  | none => rfl
  | some frame => simp [and_assoc]

/-- Settles O34. -/
theorem axisLines : Obligations.AxisLines := by
  intro s d r rest text a u v x counted others
  refine ⟨fun e sets => ?_, fun on => ?_⟩
  · let t := v.modAxis a (withCfg fun c => { c with edge := e })
    let w := restartAxis a (t.modAxis a (Axis.revalued t.tb.now))
    have line : exec (.setAxisConfig d false) s = .next (r.oked (setText (.ax a) "EDGE" e.word) w) :=
      next_congr ((edge_line rfl sets rfl).trans
        (congrArg (r.oked (setText (.ax a) "EDGE" e.word)) (axisWritten_restarts (by decide))))
    have kept : TS v w := TS.trans (TS.trans TS.ax TS.ax) restartAxis_ts
    have start := restart_aw (a := a) (s := t.modAxis a (Axis.revalued t.tb.now))
    have here : (t.modAxis a (Axis.revalued t.tb.now)).axes[a] = (withCfg (fun c => { c with edge := e }) x).revalued v.tb.now := by
      rw [modAxis_at, modAxis_at]
      rfl
    obtain ⟨axis, rest⟩ := start
    refine ⟨w, line, ⟨fun b other => ?_, kept⟩, ?_⟩
    · have same : av w.axes[b] = av v.axes[b] := by
        refine (rest b other).trans (congrArg av ?_)
        exact (upd_other _ _ _ _ (Ne.symm other)).trans (upd_other _ _ _ _ (Ne.symm other))
      exact counted_of_av same
    · rw [here, revalued_cfg rfl, restartAx_eq] at axis
      exact counted_of_av axis
  · intro c y line sets sound reachable
    let t := v.modAxis a (withCfg fun c => { c with runAhead := on })
    have at_a : t.axes[a].cfg.runAhead = on := congrArg (fun x : Axis => x.cfg.runAhead) (modAxis_at v a _)
    have revalued : t.modAxis a (Axis.revalued t.tb.now) = { v with axes := v.axes.set a y } :=
      revalued_at v a (fun c => { c with runAhead := on }) rfl
    have written := axisWritten_runAhead a x.cfg t
    rw [at_a, revalued] at written
    have runs (w : State) (e : axisWritten a x.cfg ["RUNAHEAD"] t = w) : line w :=
      next_congr ((runAhead_line rfl sets sound reachable rfl).trans
        (congrArg (r.oked (setText (.ax a) "RUNAHEAD" (switchWord on))) e))
    have axis : ({ v with axes := v.axes.set a y } : State).axes[a] = y := modAxis_at v a fun _ => y
    let z : State := { v with axes := v.axes.set a y }
    have axes : SameBut [.axes] v z := modAxis_same (f := fun _ => y)
    refine ⟨fun still => runs _ ?_, fun an frame anchor was off => ?_, fun an frame anchor was now => ?_⟩
    · obtain same | plain := still
      · rw [written, same]
        cases on <;> rfl
      · have unbound : unbindAll a z = z := unbindAll_plain (by rw [axis]; exact plain)
        have bound : runAheadOn a z = z := runAheadOn_plain (by rw [axis]; exact plain.imp_right .inr)
        rw [written, unbound, bound, ite_self, ite_self]
    · have unbinds : (x.cfg.runAhead && !on) = true := by rw [was, off]; rfl
      rw [if_pos unbinds] at written
      have same : SameBut [.ports, .clusters, .groups] z (unbindAll a z) := unbindAll_same
      refine ⟨unbindAll a z, runs _ written, SameBut.trans (axes.mono (by decide)) (same.mono (by decide)),
        same .axes (by decide), fun p => ?_⟩
      rw [unbindAll_queue (by rw [axis]; exact frame) (by rw [axis]; exact anchor) p]
      exact List.map_congr_left fun pulse _ => unbindPulse_eq a an.n v.cycle pulse
    · have stays : ¬ (x.cfg.runAhead && !on) = true := by simp [was]
      have binds : (!x.cfg.runAhead && on) = true := by rw [was, now]; rfl
      rw [if_neg stays, if_pos binds] at written
      have same : TS z (runAheadOn a z) := runAheadOn_ts
      have values : AV z (runAheadOn a z) := runAheadOn_av
      refine ⟨runAheadOn a z, runs _ written, ⟨fun b other => ?_, SameBut.trans (axes.mono (by decide)) same⟩, ?_⟩
      · have kept : z.axes[b] = v.axes[b] := upd_other v.axes a b (fun _ => y) (Ne.symm other)
        exact counted_of_av ((values b).trans (congrArg av kept))
      · exact counted_of_av ((values a).trans (congrArg av axis))

end Sys2Proof.Machine
end

section
/-! PROOF. Lines that write a task, a measurement frame, the references, the calibration rota and Belfry (R155, R158, R173,
R261, R269, R273, R283 to R285, R289, R342, R344, R428, R430). -/
namespace Sys2Proof.Machine
open Sys2Proof

/-! ### Tasks (R283 to R285, R289) -/

section
variable {u v : State} {r : Req} {rest : List Req} {text : RawVal} {t : Fin 320}

theorem subs_line {ks : List Atom} {want : Cmd → Bool} (hv : u.took rest = v)
    (sets : SetsOne u r rest (.tk t) "SUBS" text (.list ks)) (wanted : want (.set [⟨⟨.ok (.tk t), "SUBS"⟩, text⟩]) = true)
    (routes : (v.modTask t (fun k => { k with subs := sortNat (evExpand (Lens.ranges ks)) })).routes ≤ 1024)
    (uRoutes : (v.modTask t (fun k => { k with subs := sortNat (evExpand (Lens.ranges ks)) })).uRoutes ≤ 64) :
    setLine false want u = r.oked (setText (.tk t) "SUBS" (fmtValue v.tb.timeFmt
        (.evset ((sortNat (evExpand (Lens.ranges ks))).map (fun n => (n, n))))))
      (routesChanged t v.tasks[t] (v.modTask t (fun k => { k with subs := sortNat (evExpand (Lens.ranges ks)) }))) := by
  obtain ⟨front, x, named, reads⟩ := sets
  have puts : x.put (.list ks) v = v.modTask t (fun k => { k with subs := sortNat (evExpand (Lens.ranges ks)) }) := by
    cases named; rfl
  have gets : x.get (v.modTask t (fun k => { k with subs := sortNat (evExpand (Lens.ranges ks)) })) =
      .evset ((sortNat (evExpand (Lens.ranges ks))).map (fun n => (n, n))) := by
    cases named
    show Value.evset (((v.modTask t (fun k => { k with subs := sortNat (evExpand (Lens.ranges ks)) })).tasks[t]).subs.map
      (fun n => (n, n))) = _
    rw [modTask_at]
  exact set_routes hv front reads wanted named (by cases named; rfl) (by cases named; rfl) (by cases named; rfl) (by decide)
    (by decide) puts rfl (by rw [gets]) routes uRoutes

theorem class_line {c : Bool} {want : Cmd → Bool} (hv : u.took rest = v)
    (sets : SetsOne u r rest (.tk t) "CLASS" text (.kw (if c then "U" else "S")))
    (wanted : want (.set [⟨⟨.ok (.tk t), "CLASS"⟩, text⟩]) = true)
    (routes : (v.modTask t (fun k => { k with isU := c })).routes ≤ 1024)
    (uRoutes : (v.modTask t (fun k => { k with isU := c })).uRoutes ≤ 64) :
    setLine false want u = r.oked (setText (.tk t) "CLASS" (if c then "U" else "S"))
      (routesChanged t v.tasks[t] (v.modTask t (fun k => { k with isU := c }))) := by
  obtain ⟨front, x, named, reads⟩ := sets
  have puts : x.put (.kw (if c then "U" else "S")) v = v.modTask t (fun k => { k with isU := c }) := by
    cases named; cases c <;> rfl
  have gets : x.get (v.modTask t (fun k => { k with isU := c })) = .kw (if c then "U" else "S") := by
    cases named
    show Value.one (atomOf _ (v.modTask t (fun k => { k with isU := c })).tasks[t].isU) = _
    rw [modTask_at]
    cases c <;> rfl
  exact set_routes hv front reads wanted named (by cases named; rfl) (by cases named; rfl) (by cases named; rfl) (by decide)
    (by decide) puts rfl (by rw [gets]; cases c <;> rfl) routes uRoutes

theorem confOnly_line {on : Bool} {want : Cmd → Bool} (hv : u.took rest = v)
    (sets : SetsOne u r rest (.tk t) "CONFONLY" text (.kw (switchWord on)))
    (wanted : want (.set [⟨⟨.ok (.tk t), "CONFONLY"⟩, text⟩]) = true) :
    setLine false want u = r.oked (setText (.tk t) "CONFONLY" (switchWord on))
      (if v.tasks[t].confOnly = true ∧ on = false then confOff t (v.modTask t (fun k => { k with confOnly := on }))
        else v.modTask t (fun k => { k with confOnly := on })) := by
  obtain ⟨front, x, named, reads⟩ := sets
  have name : x.name = "CONFONLY" := by cases named; rfl
  have puts : x.put (.kw (switchWord on)) v = v.modTask t (fun k => { k with confOnly := on }) := by
    cases named; cases on <;> rfl
  have gets : x.get (v.modTask t (fun k => { k with confOnly := on })) = .kw (switchWord on) := by
    cases named
    show Value.one (atomOf _ (v.modTask t (fun k => { k with confOnly := on })).tasks[t].confOnly) = _
    rw [modTask_at]
    cases on <;> rfl
  have agrees : conflictOf v (v.modTask t (fun k => { k with confOnly := on })) (wr (.tk t) "CONFONLY" x (.kw (switchWord on))) =
      none := by
    show taskConflict _ x.name = none
    rw [name]
    rfl
  have applied : applyWrite (wr (.tk t) "CONFONLY" x (.kw (switchWord on))) v = v.modTask t (fun k => { k with confOnly := on }) :=
    puts
  have written : objectWritten v (.tk t) ["CONFONLY"] (v.modTask t (fun k => { k with confOnly := on })) =
      if v.tasks[t].confOnly = true ∧ on = false then confOff t (v.modTask t (fun k => { k with confOnly := on }))
        else v.modTask t (fun k => { k with confOnly := on }) := by
    have other : ¬ ["CONFONLY"].any ["SUBS", "CLASS"].contains = true := by decide
    rw [tk_written, if_neg other, modTask_at]
    simp only [Bool.and_eq_true, Bool.not_eq_true']
  exact row2 front hv reads wanted named name (by cases named; rfl) (by cases named; rfl) rfl rfl (by decide) puts
    (by rw [gets]; cases on <;> rfl) agrees (by rw [applied]; exact written)

end

/-! ### Measurement frames (R261, R269, R273) -/

theorem modMf_twice (s : State) (m : Fin 16) (f g : Mf → Mf) :
    (s.modMf m f).modMf m g = s.modMf m (fun x => g (f x)) := by
  simp only [State.modMf, upd]
  congr 1
  simp

theorem setFrame_off {v : State} {m : Fin 16} : setFrame m false v = if v.mfs[m].cfg.enable = true then
    v.modMf m (fun x => { x with cfg := { x.cfg with enable := false }, state := .idle, heldArm := false, heldRise := false,
                                 fell := none, edges := [], starts := [] }) else v := by
  unfold setFrame
  cases enabled : v.mfs[m].cfg.enable with
  | false => rfl
  | true =>
    simp only [Bool.true_eq_false, if_false, Bool.not_false, if_true, mfAbort, modMf_twice]

/-- R261: under ALWAYS a frame that is enabled is ARMED at once. -/
theorem setFrame_on {v : State} {m : Fin 16} (disabled : v.mfs[m].cfg.enable = false)
    (always : v.mfs[m].cfg.armSrc = .always) : setFrame m true v =
    v.modMf m (fun x => { x with cfg := { x.cfg with enable := true }, state := .armed v.cycle false, heldArm := false,
                                 heldRise := false, fell := none, edges := [], starts := [] }) := by
  unfold setFrame
  simp only [disabled, Bool.false_eq_true, if_false, Bool.not_true, mfAbort, modMf_twice, modMf_at, always, if_true, mfArmed,
    mfReplay, foldS, List.foldl_nil]
  rfl

section
variable {u v : State} {r : Req} {rest : List Req} {text : RawVal} {m : Fin 16}

theorem mfEnable_line {on : Bool} {want : Cmd → Bool} (hv : u.took rest = v)
    (sets : SetsOne u r rest (.mf m) "ENABLE" text (.kw (switchWord on)))
    (wanted : want (.set [⟨⟨.ok (.mf m), "ENABLE"⟩, text⟩]) = true)
    (agrees : mfConflict v (v.modMf m (fun x => { x with cfg := { x.cfg with enable := on } })) m "ENABLE" = none) :
    setLine false want u = r.oked (setText (.mf m) "ENABLE" (switchWord on)) (setFrame m on v) := by
  obtain ⟨front, x, named, reads⟩ := sets
  have name : x.name = "ENABLE" := by cases named; rfl
  have puts : x.put (.kw (switchWord on)) v = v.modMf m (fun x => { x with cfg := { x.cfg with enable := on } }) := by
    cases named; cases on <;> rfl
  have gets : x.get (v.modMf m (fun x => { x with cfg := { x.cfg with enable := on } })) = .kw (switchWord on) := by
    cases named
    show Value.one (atomOf _ (v.modMf m (fun x => { x with cfg := { x.cfg with enable := on } })).mfs[m].cfg.enable) = _
    rw [modMf_at]
    cases on <;> rfl
  have conflict : conflictOf v (v.modMf m (fun x => { x with cfg := { x.cfg with enable := on } }))
      (wr (.mf m) "ENABLE" x (.kw (switchWord on))) = none := by
    show mfConflict v _ m x.name = none
    rw [name]
    exact agrees
  have applied : applyWrite (wr (.mf m) "ENABLE" x (.kw (switchWord on))) v = setFrame m on v := by
    unfold applyWrite
    rw [show (wr (.mf m) "ENABLE" x (.kw (switchWord on))).prop.name = "ENABLE" from name]
    cases on <;> rfl
  exact row2 front hv reads wanted named name (by cases named; rfl) (by cases named; rfl) rfl rfl (by decide) puts
    (by rw [gets]; cases on <;> rfl) conflict (by rw [applied]; rfl)

theorem disable_agrees : mfConflict v (v.modMf m (fun x => { x with cfg := { x.cfg with enable := false } })) m "ENABLE" = none := by
  unfold mfConflict
  simp only [modMf_at]
  rfl

/-- R259: a frame may be enabled when its ports time-stamp. -/
theorem enable_agrees {p : Fin 64} (start : v.mfs[m].cfg.startPort = some p) (stamps : stampModes (v.modeOf p) = true)
    (some_stop : v.mfs[m].cfg.stops ≠ []) (stops : ∀ q ∈ v.mfs[m].cfg.stops, stampModes (v.modeOf q) = true)
    (always : v.mfs[m].cfg.armSrc = .always) :
    mfConflict v (v.modMf m (fun x => { x with cfg := { x.cfg with enable := true } })) m "ENABLE" = none := by
  have modes (q : Fin 64) : (v.modMf m (fun x => { x with cfg := { x.cfg with enable := true } })).modeOf q = v.modeOf q := rfl
  have nonempty : v.mfs[m].cfg.stops.isEmpty = false := by rw [List.isEmpty_eq_false_iff]; exact some_stop
  have all : v.mfs[m].cfg.stops.all (fun q => stampModes (v.modeOf q)) = true := List.all_eq_true.2 stops
  unfold mfConflict
  simp only [modMf_at, modes, start, stamps, nonempty, all, always]
  rfl

theorem statsClear_line {want : Cmd → Bool} (hv : v = u.took rest)
    (sets : SetsOne u r rest (.mf m) "STATS" text (.kw "CLEAR"))
    (wanted : want (.set [⟨⟨.ok (.mf m), "STATS"⟩, text⟩]) = true) :
    setLine false want u = r.oked (setText (.mf m) "STATS" "RUN")
      (v.modMf m (fun x => { x with cfg := { x.cfg with statsHold := false }, stats := [], early := 0 })) := by
  obtain ⟨front, x, named, reads⟩ := sets
  have name : x.name = "STATS" := by cases named; rfl
  have puts : x.put (.kw "CLEAR") v = v.modMf m (fun x => { x with cfg := { x.cfg with statsHold := false } }) := by
    cases named; rfl
  have gets : x.get (v.modMf m (fun x => { x with cfg := { x.cfg with statsHold := false } })) = .kw "RUN" := by
    cases named
    show Value.one (atomOf _ (v.modMf m (fun x => { x with cfg := { x.cfg with statsHold := false } })).mfs[m].cfg.statsHold) = _
    rw [modMf_at]
    rfl
  have trial : trialState [wr (.mf m) "STATS" x (.kw "CLEAR")] v =
      v.modMf m (fun x => { x with cfg := { x.cfg with statsHold := false } }) := by
    rw [trial_one name (by decide), puts]
  have conflict : mfConflict v (v.modMf m (fun x => { x with cfg := { x.cfg with statsHold := false } })) m "STATS" = none := by
    have allowed : (!(["RECORDS", "STATS", "STATFILTER"].contains "STATS")) = false := by decide
    unfold mfConflict
    rw [if_neg (by decide), allowed, Bool.and_false]
    rfl
  have ok : OneOk v (.mf m) "STATS" x (.kw "CLEAR") := by
    refine ⟨named, by cases named; rfl, rfl, rfl, by cases named; rfl, ?_⟩
    show mfConflict v _ m x.name = none
    rw [trial, name]
    exact conflict
  have cleared : applyAll [wr (.mf m) "STATS" x (.kw "CLEAR")] v =
      v.modMf m (fun x => { x with cfg := { x.cfg with statsHold := false }, stats := [], early := 0 }) := by
    have applied : applyWrite (wr (.mf m) "STATS" x (.kw "CLEAR")) v =
        v.modMf m (fun x => { x with cfg := { x.cfg with statsHold := false } }) := by
      unfold applyWrite
      rw [show (wr (.mf m) "STATS" x (.kw "CLEAR")).prop.name = "STATS" from name]
      exact puts
    have clears (w : State) : statsCleared [wr (.mf m) "STATS" x (.kw "CLEAR")] w = clearStats m w := by
      show (if (x.name == "STATS" && _) = true then clearStats m w else w) = _
      rw [name]
      rfl
    rw [apply_one name, applied, clears, clearStats, modMf_twice]
    rfl
  have no_mode : modeWrite (wr (.mf m) "STATS" x (.kw "CLEAR")) = none := by
    unfold modeWrite
    rw [show (wr (.mf m) "STATS" x (.kw "CLEAR")).prop.name = "STATS" from name]
    rfl
  rw [set_line front hv ok reads wanted, trial, gets, cleared]
  simp only [List.filterMap_cons, List.filterMap_nil, no_mode, name,
    show ("STATS" == "ACTIVE") = false from by decide, show ("STATS" == "BAUD") = false from by decide, Bool.and_false,
    Bool.false_eq_true, if_false]
  rfl

end

/-- Settles O35. -/
theorem taskAndFrameLines : Obligations.TaskAndFrameLines := by
  intro s d r rest text u v
  refine ⟨fun t => ⟨?_, ?_, ?_⟩, fun m => ⟨?_, ?_, ?_⟩⟩
  · intro ks y w sets routes uRoutes
    refine ⟨next_congr (subs_line rfl sets (set_kind rfl rfl) routes uRoutes), ?_⟩
    rw [routes_at]
    exact congrArg (fun k : Task => { k with drops := Vector.replicate 4 0 }) (modTask_at v t fun _ => y)
  · intro c word w sets routes uRoutes
    exact next_congr (class_line rfl sets (set_kind rfl rfl) routes uRoutes)
  · intro on w sets
    exact next_congr (confOnly_line rfl sets rfl)
  · intro sets off
    refine next_congr ((mfEnable_line (on := false) rfl sets rfl disable_agrees).trans ?_)
    rw [setFrame_off]
    rfl
  · intro p sets start stamps some_stop stops always disabled on
    refine next_congr ((mfEnable_line (on := true) rfl sets rfl (enable_agrees start stamps some_stop stops always)).trans ?_)
    rw [setFrame_on disabled always]
    rfl
  · intro sets y
    exact next_congr (statsClear_line rfl sets rfl)

/-- Settles O36. -/
theorem referenceRotaAndBelfryLines : Obligations.ReferenceRotaAndBelfryLines := by
  intro s d r rest text u v
  refine ⟨fun x => ⟨fun sets manual present candidate => ?_, fun n => ?_⟩, fun b sets => ?_, fun n => ?_, fun on sets => ?_,
    fun sets => ?_, fun i n => ?_⟩
  · exact rl_active rfl rfl sets manual present candidate
  · intro w sets free
    exact rl_freq rfl rfl sets free
  · exact rl_bw rfl rfl sets
  · intro last sets locked
    exact rl_period rfl rfl sets locked
  · exact rl_hold rfl rfl sets
  · exact rl_alert rfl rfl sets
  · intro name y sets sound
    exact rl_rule rfl rfl sets sound

end Sys2Proof.Machine
end

section
/-! PROOF. Lines that write the stream port, the time-transfer port and the customer key's fuses (R125, R445, R448, R454, R477,
R478). -/
namespace Sys2Proof.Machine
open Sys2Proof

section
variable {u v : State} {r : Req} {rest : List Req} {text : RawVal}

/-! ### The stream port (R125) -/

theorem spEnable_line {on : Bool} {want : Cmd → Bool} (hv : u.took rest = v)
    (sets : SetsOne u r rest .sp "ENABLE" text (.kw (switchWord on)))
    (wanted : want (.set [⟨⟨.ok .sp, "ENABLE"⟩, text⟩]) = true) :
    setLine false want u = r.oked (setText .sp "ENABLE" (switchWord on)) (setEnable on v) := by
  obtain ⟨front, x, named, reads⟩ := sets
  have name : x.name = "ENABLE" := by cases named; rfl
  have puts : x.put (.kw (switchWord on)) v = v.modSp (fun p => { p with enable := on }) := by
    cases named; cases on <;> rfl
  have agrees : conflictOf v (v.modSp (fun p => { p with enable := on })) (wr .sp "ENABLE" x (.kw (switchWord on))) = none := by
    show spConflict v _ x.name = none
    rw [name]
    simp [spConflict, firstCode]
  have applied : applyWrite (wr .sp "ENABLE" x (.kw (switchWord on))) v = setEnable on v := by
    unfold applyWrite
    rw [show (wr .sp "ENABLE" x (.kw (switchWord on))).prop.name = "ENABLE" from name]
    cases on <;> rfl
  exact row2 front hv reads wanted named name (by cases named; rfl) (by cases named; rfl) rfl rfl (by decide) puts
    (by cases named; cases on <;> rfl) agrees (by rw [applied]; rfl)

theorem setEnable_on (off : v.sp.enable = false) : setEnable true v =
    { v with sp := { v.sp with enable := true, link := .train, trainFrom := v.tb.now } } := by
  unfold setEnable
  rw [if_neg (by rw [off]; decide)]
  rfl

/-- R125: a port that is switched off has its link DOWN. -/
theorem setEnable_off (on : v.sp.enable = true) : (setEnable false v).sp.enable = false ∧
    (setEnable false v).sp.link = .down ∧ SameBut [.groups, .fabric, .con, .hspi, .sp, .fifo] v (setEnable false v) := by
  have off : setEnable false v = (linkDown (v.modSp (fun p => { p with enable := false }))).modSp
      (fun p => { p with rx := p.rx.map (fun l => { l with locked := false }) }) := by
    unfold setEnable
    rw [if_neg (by rw [on]; decide), if_neg (by decide)]
  obtain ⟨enable, link⟩ := linkDown_sp (s := v.modSp (fun p => { p with enable := false }))
  have modSp_same (w : State) (f : Stream → Stream) : SameBut [.sp] w (w.modSp f) := by
    intro part other
    cases part <;> simp at other <;> rfl
  rw [off]
  exact ⟨enable, link, SameBut.trans (SameBut.trans ((modSp_same _ _).mono (by decide)) linkDown_same)
    ((modSp_same _ _).mono (by decide))⟩

/-! ### The time-transfer port (R445, R448, R454) -/

theorem syncRole_line {x : SyncRole} {want : Cmd → Bool} (hv : u.took rest = v)
    (sets : SetsOne u r rest .sys "SYNCROLE" text (.kw x.word))
    (wanted : want (.set [⟨⟨.ok .sys, "SYNCROLE"⟩, text⟩]) = true) :
    setLine false want u = r.oked (setText .sys "SYNCROLE" x.word) (setRole x v) := by
  obtain ⟨front, prop, named, reads⟩ := sets
  have name : prop.name = "SYNCROLE" := by cases named; rfl
  have puts : prop.put (.kw x.word) v = v.modSync (fun y => { y with role := x }) := by cases named; cases x <;> rfl
  have agrees : conflictOf v (v.modSync (fun y => { y with role := x })) (wr .sys "SYNCROLE" prop (.kw x.word)) = none := by
    rw [conf_sys, name]
    rfl
  have applied : applyWrite (wr .sys "SYNCROLE" prop (.kw x.word)) v = setRole x v := by
    unfold applyWrite
    rw [show (wr .sys "SYNCROLE" prop (.kw x.word)).prop.name = "SYNCROLE" from name]
    cases x <;> rfl
  exact row2 front hv reads wanted named name (by cases named; rfl) (by cases named; rfl) rfl rfl (by decide) puts
    (by cases named; cases x <;> rfl) agrees (by rw [applied]; rfl)

theorem syncDelay_line {n : Nat} {want : Cmd → Bool} (hv : u.took rest = v) (locked : v.tb.clkSrc = .pll)
    (sets : SetsOne u r rest .sys "SYNCDELAY" text (.time n))
    (wanted : want (.set [⟨⟨.ok .sys, "SYNCDELAY"⟩, text⟩]) = true) :
    setLine false want u = r.oked (setText .sys "SYNCDELAY" (fmtTime v.tb.timeFmt n)) (setDelay n v) := by
  obtain ⟨front, prop, named, reads⟩ := sets
  have name : prop.name = "SYNCDELAY" := by cases named; rfl
  have puts : prop.put (.time n) v = v.modSync (fun y => { y with delay := n }) := by cases named; rfl
  have agrees : conflictOf v (v.modSync (fun y => { y with delay := n })) (wr .sys "SYNCDELAY" prop (.time n)) = none := by
    rw [conf_sys, name]
    rfl
  have applied : applyWrite (wr .sys "SYNCDELAY" prop (.time n)) v = setDelay n v := by
    unfold applyWrite
    rw [show (wr .sys "SYNCDELAY" prop (.time n)).prop.name = "SYNCDELAY" from name]
    rfl
  exact row2 front hv reads wanted named name (by cases named; rfl) (ringless locked _) rfl rfl (by decide) puts
    (by cases named; rfl) agrees (by rw [applied]; rfl)

theorem setDelay_eq (n : Nat) : setDelay n v = { v with sync := { v.sync with
    delay := n,
    r := if v.sync.state = .locked ∨ v.sync.state = .hold then v.sync.r + ((n : Int) - v.sync.delay) else v.sync.r } } := by
  unfold setDelay State.modSync
  dsimp only
  split
  · next state => rw [if_pos (.inl state)]
  · next state => rw [if_pos (.inr state)]
  · next unlocked unheld => rw [if_neg (fun h => h.elim unlocked unheld)]

/-! ### The customer key (R477, R478) -/

theorem keyTest_empty (empty : v.boot.keySlot = .empty) :
    v.boot.keyTest = if v.boot.image.carries v.boot.stagedKey then none else some 304 := by
  unfold Boot.keyTest
  rw [empty]

theorem keyTest_used (used : v.boot.keySlot ≠ .empty) : v.boot.keyTest = some 510 := by
  unfold Boot.keyTest
  cases slot : v.boot.keySlot with
  | empty => exact absurd slot used
  | _ => rfl

/-- A write of the key's fuses changes nothing before they are burnt. -/
theorem keyProg_setVerb {rc : Recv} {x : PropSpec} (named : propOf .sys "KEYPROG" = some x)
    (reads : readField x.ty text.text.toList = .ok (.val (.kw "PROGRAM"))) (passes : v.boot.keyTest = none) :
    setVerb rc [⟨⟨.ok .sys, "KEYPROG"⟩, text⟩] v = .ok ⟨setText .sys "KEYPROG" "NONE", [], [], none, none, v⟩ := by
  have name : x.name = "KEYPROG" := by cases named; rfl
  have puts : x.put (.kw "PROGRAM") v = v := by cases named; rfl
  have gets : x.get v = .kw "NONE" := by cases named; rfl
  have trial : trialState [wr .sys "KEYPROG" x (.kw "PROGRAM")] v = v := by rw [trial_one name (by decide), puts]
  have ok : OneOk v .sys "KEYPROG" x (.kw "PROGRAM") := by
    refine ⟨named, by cases named; rfl, rfl, rfl, by cases named; rfl, ?_⟩
    rw [trial, conf_sys, name]
    exact passes
  have applied : applyAll [wr .sys "KEYPROG" x (.kw "PROGRAM")] v = v := by
    have kept : applyWrite (wr .sys "KEYPROG" x (.kw "PROGRAM")) v = v := by
      unfold applyWrite
      rw [show (wr .sys "KEYPROG" x (.kw "PROGRAM")).prop.name = "KEYPROG" from name]
      exact puts
    rw [apply_one name, noStats (fun m none => by cases none), kept]
    rfl
  have no_mode : modeWrite (wr .sys "KEYPROG" x (.kw "PROGRAM")) = none := by
    unfold modeWrite
    rw [show (wr .sys "KEYPROG" x (.kw "PROGRAM")).prop.name = "KEYPROG" from name]
    rfl
  rw [setVerb_one ok reads, trial, gets, applied]
  simp only [List.filterMap_cons, List.filterMap_nil, no_mode, name, show ("KEYPROG" == "ACTIVE") = false from by decide,
    show ("KEYPROG" == "BAUD") = false from by decide, Bool.and_false, Bool.false_eq_true, if_false]
  rfl

theorem exec_keyProgram {s : State} {d : Nat} {r : Req} {rest : List Req} {ok : Bool}
    (sets : SetsOne (s.elapse d) r rest .sys "KEYPROG" text (.kw "PROGRAM"))
    (passes : ((s.elapse d).took rest).boot.keyTest = none) : exec (.keyProgram d false ok) s =
      .next (if ok then r.oked (setText .sys "KEYPROG" "NONE") (((s.elapse d).took rest).modBoot (Boot.burn true))
        else r.ered 511 "" (((s.elapse d).took rest).modBoot (Boot.burn false))) := by
  obtain ⟨front, x, named, reads⟩ := sets
  refine next_congr ((front.run false _ _ _ rfl).trans ?_)
  simp only [setSyn_one named reads, keyVerb, keyProg_setVerb named reads passes, bind, Except.bind, Bool.false_eq_true,
    if_false]
  cases ok <;> rfl

end

/-- Settles O37. -/
theorem streamSyncAndKeyLines : Obligations.StreamSyncAndKeyLines := by
  intro s d r rest text u v
  refine ⟨fun sets off => ?_, fun sets on => ?_, fun x sets => ?_, fun n => ?_, fun sets empty => ?_, fun sets used => ?_⟩
  · exact next_congr ((spEnable_line (on := true) rfl sets rfl).trans (congrArg _ (setEnable_on off)))
  · exact ⟨setEnable false v, next_congr (spEnable_line (on := false) rfl sets rfl), setEnable_off on⟩
  · exact ⟨next_congr (syncRole_line rfl sets rfl), setRole_spec⟩
  · intro y slews sets locked
    exact next_congr ((syncDelay_line rfl locked sets rfl).trans (congrArg _ (setDelay_eq n)))
  · intro carries refused
    have test : v.boot.keyTest = if carries then none else some 304 := keyTest_empty empty
    by_cases signed : carries = true
    · rw [if_pos signed] at test
      rw [if_pos signed, if_pos signed]
      exact ⟨exec_keyProgram sets test, exec_keyProgram sets test⟩
    · rw [if_neg signed] at test
      rw [if_neg signed, if_neg signed]
      exact ⟨next_congr (key_refused rfl sets test true), next_congr (key_refused rfl sets test false)⟩
  · exact next_congr (key_refused rfl sets (keyTest_used used) true)

end Sys2Proof.Machine
end

section
/-! PROOF. The boot ROM's lines, the resets, the start sequence and the restarts of the steward (R407 to R412, R464 to R481,
R492). -/
namespace Sys2Proof.Machine
open Sys2Proof

/-! ### The lines of the boot ROM (R472) -/

section
variable {u : State} {r : Req} {rest : List Req} {c : Cmd} {want : Cmd → Bool} {syn : Cmd → Option SynErr}
  {run : Cmd → State → Exec}

/-- The boot ROM answers a line of the verb wanted, without a syntax error, by what its execution gives. -/
theorem RomFront.runs {x : Exec} (front : RomFront u r rest c) (wanted : want c = true) (clean : syn c = none)
    (does : run c (u.took rest) = x) : rom want syn run u = settleQueue (answer r x (u.took rest)) := by
  rw [front.run want syn run wanted, clean, ← does]

theorem RomFront.oks {payload : String} {w : State} (front : RomFront u r rest c) (wanted : want c = true)
    (clean : syn c = none) (does : run c (u.took rest) = done payload w) :
    Host.Outcome.next (rom want syn run u) = (.next (r.oked payload w) : Host.Outcome State Fault Refusal) :=
  next_congr (front.runs wanted clean does)

theorem RomFront.ers {code : Nat} {w : State} (front : RomFront u r rest c) (wanted : want c = true) (clean : syn c = none)
    (does : run c (u.took rest) = .ok ⟨"", [], [], none, some code, w⟩ ∨
      run c (u.took rest) = .error (code, "") ∧ w = u.took rest) :
    Host.Outcome.next (rom want syn run u) = (.next (r.ered code "" w) : Host.Outcome State Fault Refusal) := by
  rcases does with does | ⟨does, rfl⟩
  · exact next_congr (front.runs wanted clean does)
  · exact next_congr (front.runs wanted clean does)

end

theorem loadSizeVerb_reads {text : RawVal} {n : Nat}
    (reads : readField sizeField text.text.toList = .ok (.val (.one (.int n)))) (v : State) :
    loadSizeVerb text v = done ("LOAD SIZE=" ++ dec n)
      { v with boot := { v.boot with dl := { v.boot.dl with size := n, bytes := [] } } } := by
  simp only [loadSizeVerb, reads]
  rfl

theorem loadDataVerb_reads {text : RawVal} {k o : Nat} {bs : List Byte} {v : State}
    (reads : readField offField text.text.toList = .ok (.val (.one (.hex k o)))) (fits : o + bs.length ≤ v.boot.dl.size) :
    loadDataVerb text bs v = done ("LOAD " ++ fmtAtom .human (.hex 0 o) ++ " N=" ++ dec bs.length)
      { v with boot := { v.boot with dl :=
        { v.boot.dl with bytes := putAll o (bs.zip (List.range' 0 bs.length)) v.boot.dl.bytes } } } := by
  simp only [loadDataVerb, reads]
  rw [if_neg (by omega), List.range_eq_range']
  rfl

theorem loadDataVerb_beyond {text : RawVal} {k o : Nat} {bs : List Byte} {v : State}
    (reads : readField offField text.text.toList = .ok (.val (.one (.hex k o)))) (beyond : v.boot.dl.size < o + bs.length) :
    loadDataVerb text bs v = .error (301, "") := by
  simp only [loadDataVerb, reads]
  rw [if_pos beyond]
  rfl

/-- The buffer after a LOAD line holds the line's bytes, what it held elsewhere, and nothing else. -/
theorem putAll_holds (o : Nat) (bs : List Byte) (m : List (Nat × Byte)) :
    (∀ i x, bs[i]? = some x → (o + i, x) ∈ putAll o (bs.zip (List.range' 0 bs.length)) m) ∧
    (∀ e ∈ m, e.1 < o ∨ o + bs.length ≤ e.1 → e ∈ putAll o (bs.zip (List.range' 0 bs.length)) m) ∧
    (∀ e ∈ putAll o (bs.zip (List.range' 0 bs.length)) m, e ∈ m ∨ bs[e.1 - o]? = some e.2) := by
  refine ⟨fun i x here => ?_, fun e held outside => ?_, fun e held => ?_⟩
  · simpa using putAll_new o bs 0 m i x here
  · refine putAll_old o _ _ (fun x inLine => ?_) held
    have := (List.of_mem_zip inLine).2
    rw [List.mem_range'_1] at this
    omega
  · rcases putAll_only o bs 0 m held with old | ⟨i, here, place⟩
    · exact .inl old
    · right
      rwa [place, show o + (0 + i) - o = i by omega]

/-- Settles O38. -/
theorem loadLines : Obligations.LoadLines := by
  unfold Obligations.LoadLines
  intro s d r rest text u v b
  refine ⟨fun n front reads => ?_, fun k o bs front reads => ⟨fun fits => ?_, fun beyond => ?_⟩, fun front => ?_,
    fun front => ?_⟩
  · exact front.oks rfl (fieldSyn_of_reads reads) (loadSizeVerb_reads reads v)
  · exact ⟨_, front.oks rfl (fieldSyn_of_reads reads) (loadDataVerb_reads (v := v) reads fits), putAll_holds o bs b.bytes⟩
  · exact front.ers rfl (fieldSyn_of_reads reads) (.inr ⟨loadDataVerb_beyond (v := v) reads beyond, rfl⟩)
  · exact front.oks rfl rfl rfl
  · intro image f
    by_cases good : f = .none
    · rw [if_pos good]
      exact front.oks rfl rfl (if_pos good)
    · rw [if_neg good]
      exact front.ers rfl rfl (.inl (if_neg good))

/-! ### Resets (R407, R464, R466) -/

/-- Settles O39. -/
theorem resetsKeepWhatTheyKeep : Obligations.ResetsKeepWhatTheyKeep := by
  unfold Obligations.ResetsKeepWhatTheyKeep
  intro s d u b
  refine ⟨rfl, rfl, fun on => ?_, fun off => ?_, fun o order due => ?_, fun waits => ?_, fun c => ?_⟩
  · refine next_congr (s := if u.bel.off then u else hardwareReset .brownout u) ?_
    rw [if_neg (by simp [on])]
  · exact next_congr (s := if u.bel.off then u else hardwareReset .brownout u) (if_pos off)
  · refine next_congr (s := match b.resetOrder with
      | some o => if o.due u then hardwareReset .command u else u
      | none => u) ?_
    rw [order]
    exact if_pos due
  · refine next_congr (s := match b.resetOrder with
      | some o => if o.due u then hardwareReset .command u else u
      | none => u) ?_
    split
    case h_1 o order => exact if_neg (by simp [waits o order])
    case h_2 => rfl
  · exact ⟨rfl, hard_ports c u, rfl, rfl, rfl, rfl, rfl, rfl, hard_same c u⟩

/-! ### The start sequence (R468 to R471, R479 to R481) -/

theorem bootStart_held {v : State} (held : v.boot.step = .held) (b1 b0 : Bool) :
    bootStart b1 b0 v = { v with boot := { v.boot with
      mode := if b1 then .download else if b0 then .flashOnly else .flashThenDownload, resetLow := false,
      step := if b1 then .download else .flash false } } := by
  unfold bootStart
  rw [held]
  cases b1 <;> cases b0 <;> rfl

theorem flashDone_eq {v : State} {slotB : Bool} (reading : v.boot.step = .flash slotB) (x : FlashRead) :
    let setup := v.boot.flash.getD (flashSetup x.sfdp)
    let bytes := setup.slot x.flash slotB
    let f := authenticate v.boot.custKey none bytes
    flashDone x v = if f = .none
      then startImage (if slotB then .flashb else .flasha) (imageOf bytes) { v with boot := { v.boot with flash := some setup } }
      else { v with boot := { v.boot with flash := some setup, imageFault := f, step :=
        if slotB = false ∧ setup.hasSlotB = true then .flash true
        else if v.boot.mode = .flashOnly then .halted else .download } } := by
  intro setup bytes f
  unfold flashDone
  rw [reading]
  have next : (if !(slotB || !setup.hasSlotB) then BootStep.flash true else
      match v.boot.mode with | .flashOnly => BootStep.halted | _ => .download) =
      if slotB = false ∧ setup.hasSlotB = true then .flash true
        else if v.boot.mode = .flashOnly then .halted else .download := by
    cases slotB <;> cases setup.hasSlotB <;> cases v.boot.mode <;> rfl
  rw [← next]
  by_cases good : f = .none
  · rw [if_pos good]
    dsimp only
    split
    · rfl
    next bad => exact absurd good bad
  · rw [if_neg good]
    dsimp only
    split
    next fine => exact absurd fine good
    · rfl

theorem acquireNext_eq (after : Option (Fin 4)) (v : State) :
    acquireNext after v = { v with tb := { v.tb with
      job := (nextCandidate v.tb after).elim PllJob.idle (fun x => .attempt x v.tb.now) } } := by
  have job : (match nextCandidate v.tb after with | some x => PllJob.attempt x v.tb.now | none => .idle) =
      (nextCandidate v.tb after).elim PllJob.idle (fun x => .attempt x v.tb.now) := by
    cases nextCandidate v.tb after <;> rfl
  rw [← job]
  rfl

/-- Settles O40. -/
theorem startSequence : Obligations.StartSequence := by
  unfold Obligations.StartSequence
  intro s d u b
  refine ⟨fun b1 b0 held => ?_, fun x slotB reading => ?_, fun src x => ?_, fun building => ?_⟩
  · exact next_congr (bootStart_held held b1 b0)
  · exact next_congr (flashDone_eq reading x)
  · refine ⟨startImage_boot, flush_same .steward (by decide), ?_⟩
    refine SameBut.trans ?_ (flush_same.mono (by decide))
    intro part other
    cases part <;> simp at other <;> rfl
  · refine next_congr ?_
    unfold storeBuilt
    rw [building]
    exact acquireNext_eq none _

/-! ### Restarts of the steward (R408 to R412, R492) -/

theorem restartStart_due {u : State} {c : RestartCause} {o : Order} (ordered : u.steward.ordered = some (c, o)) :
    restartStart u = if u.awake && o.due u then
      { stewardLeaves c u with steward := { (stewardLeaves c u).steward with ordered := none } } else u := by
  unfold restartStart
  rw [ordered]

theorem rotaResume_ports_only (v : State) : SameBut [.ports] v (if v.cal.hold then v else rotaResume v) :=
  .ite (.refl _ _) rotaResume_same

theorem updated_some {b : Boot} {x : Image} (image : b.nextImage = some x) (waits : Bool) :
    b.updated waits = if waits then b else { b with image := x, imageSrc := .update, nextImage := none } := by
  unfold Boot.updated
  rw [image]

theorem updated_none {b : Boot} (none : b.nextImage = none) (waits : Bool) : b.updated waits = b := by
  unfold Boot.updated
  rw [none]

/-- A happening that no hand-over holds steady joins the count that is offered, or the later one that already waits. -/
theorem find_countHandover {src n : Nat} {h : Handover} : ∀ {hs : List Handover},
    hs.find? (fun h => decide (h.src = src)) = some h →
    (countHandover false src n hs).find? (fun h => decide (h.src = src)) =
      some (if 0 < h.later then { h with later := h.later + n } else { h with offered := h.offered + n })
  | [], found => by cases found
  | h0 :: hs, found => by
    unfold countHandover
    by_cases here : h0.src = src
    · rw [List.find?_cons_of_pos (by simpa using here), Option.some.injEq] at found
      subst found
      rw [if_pos here, Bool.false_or]
      simp only [decide_eq_true_eq]
      split <;> exact List.find?_cons_of_pos (by simpa using here)
    · rw [List.find?_cons_of_neg (by simpa using here)] at found
      rw [if_neg here, List.find?_cons_of_neg (by simpa using here)]
      exact find_countHandover found

/-- Settles O41. -/
theorem stewardRestarts : Obligations.StewardRestarts := by
  unfold Obligations.StewardRestarts
  intro s d u
  refine ⟨fun awake => ?_, fun c o awake ordered due => ?_, fun c o ordered early => ?_, fun c => ?_, fun awake absent => ?_⟩
  · exact next_congr (if_pos awake)
  · exact next_congr ((restartStart_due ordered).trans (if_pos (by simp [awake, due])))
  · exact next_congr ((restartStart_due ordered).trans (if_neg (by simp [early])))
  · exact ⟨stewardLeaves_steward, stewardLeaves_ports, stewardLeaves_same⟩
  · obtain ⟨waits, s1, s2, waitsEq, s1Eq, s2Eq, ends⟩ := restartEnd_eq awake absent
    have rota : SameBut [.ports] s1 s2 := s2Eq ▸ rotaResume_ports_only s1
    have evs := restartEv_same (s := s2)
    rw [← ends] at evs
    have early : SameBut [.steward, .boot] u s1 := by
      rw [s1Eq]
      intro part other
      cases part <;> simp at other <;> rfl
    have boot : (restartEnd u).boot = u.boot.updated waits := by
      rw [evs .boot (by decide), rota .boot (by decide), s1Eq]
    have image : ∀ x, u.boot.nextImage = some x → waits = false →
        (restartEnd u).boot = { u.boot with image := x, imageSrc := .update, nextImage := none } := by
      rintro x image rfl
      rw [boot, updated_some image]
      rfl
    have kept : u.boot.nextImage = none ∨ waits = true → (restartEnd u).boot = u.boot := by
      rintro (none | rfl)
      · rw [boot, updated_none none]
      · cases image : u.boot.nextImage with
        | none => rw [boot, updated_none image]
        | some x => rw [boot, updated_some image, if_pos rfl]
    subst waitsEq
    refine ⟨_, rfl, ?_, image, kept, fun hold => ?_, fun stopped h found => ?_, ?_⟩
    · rw [evs .steward (by decide), rota .steward (by decide), s1Eq]
    · have still : s2 = s1 := by
        rw [s2Eq, s1Eq]
        exact if_pos hold
      rw [evs .ports (by decide), still, s1Eq]
    · have running : s2.tb.running = false := by
        rw [rota .tb (by decide), early .tb (by decide)]
        exact stopped
      have counts : (restartEnd u).fabric.handover = countHandover false 383 1 u.fabric.handover := by
        rw [ends, running, if_neg Bool.false_ne_true]
        show countHandover s2.tb.running 383 1 s2.fabric.handover = _
        rw [running, rota .fabric (by decide), early .fabric (by decide)]
      rw [counts]
      exact find_countHandover found
    · exact ((early.mono (by decide)).trans (rota.mono (by decide))).trans (evs.mono (by decide))

end Sys2Proof.Machine
end

section
/-! PROOF. Counts, deliveries and records that move from one domain to the next (R48, R145, R249, R283 to R290, R384). -/
namespace Sys2Proof.Machine
open Sys2Proof

/-! ### Hand-over of counts (R48, R89) -/

section
variable {u : State} {src : Fin 384} {h : Handover}

theorem handoverAccept_running (found : u.fabric.handover.find? (fun h => decide (h.src = src.val)) = some h)
    (running : u.tb.running = true) (other : src ≠ 375) : handoverAccept src u = raiseAt src u.cycle h.offered Flags.none
      { u with fabric := { u.fabric with handover := nextHandover src.val u.fabric.handover } } := by
  unfold handoverAccept
  rw [found, running]
  dsimp only
  unfold acceptHandover
  dsimp only
  rw [if_neg (show src ≠ evRule from other)]
  rfl

theorem acceptEv_eq {k : Link} (free : ∀ e ∈ (u.link k).heldEv, e.src ≠ 383) : acceptEv k src u = formEv k src u := by
  have none : (u.link k).heldEv.any (fun e => decide (e.src = evSteward)) = false := by
    rw [List.any_eq_false]
    intro e held
    exact fun eq => free e held (of_decide_eq_true eq)
  unfold acceptEv
  rw [none, Bool.and_false]
  exact if_neg Bool.false_ne_true

theorem handoverAccept_steward (none : u.fabric.handover.find? (fun h => decide (h.src = src.val)) = none)
    (here : u.stewardHere = true) (con : ∀ e ∈ u.con.heldEv, e.src ≠ 383) (hspi : ∀ e ∈ u.hspi.heldEv, e.src ≠ 383) :
    handoverAccept src u = formEv .hspi src (formEv .con src u) := by
  have still : (formEv .con src u).hspi.heldEv = u.hspi.heldEv := formEv_here.resolve_right (by decide)
  unfold handoverAccept
  rw [none]
  dsimp only
  rw [if_pos here, acceptEv_eq (k := .con) con]
  exact acceptEv_eq (k := .hspi) (still ▸ hspi)

end

/-- The hand-over of one source leaves those of the others as they are. -/
theorem find_nextHandover {src o : Nat} (other : o ≠ src) : ∀ hs : List Handover,
    (nextHandover src hs).find? (fun h => decide (h.src = o)) = hs.find? (fun h => decide (h.src = o))
  | [] => rfl
  | h :: hs => by
    have rest := find_nextHandover other hs
    unfold nextHandover at rest ⊢
    by_cases here : h.src = src
    · rw [List.find?_cons_of_neg (by simpa using fun e : h.src = o => other (e.symm.trans here)), ← rest]
      by_cases none : h.later = 0
      · rw [List.filterMap_cons_none (by rw [if_pos here, if_pos none])]
      · rw [List.filterMap_cons_some (by rw [if_pos here, if_neg none])]
        exact List.find?_cons_of_neg (by simpa using fun e : h.src = o => other (e.symm.trans here))
    · rw [List.filterMap_cons_some (b := h) (by rw [if_neg here]), List.find?_cons, List.find?_cons, rest]

/-! ### Deliveries (R283, R289, R290) -/

section
variable {u : State} {x : Delivery} {k : Nat}

theorem deliverDue_none (none : ∀ e ∈ u.fabric.transit, e.isU = false ∨ e.left ≠ 0) : deliverDue u = u := by
  have nothing : u.fabric.transit.any (fun d => d.isU && decide (d.left = 0)) = false := by
    rw [List.any_eq_false]
    intro e transit
    rcases none e transit with h | h <;> simp [h]
  exact if_neg (Bool.eq_false_iff.1 nothing)

theorem routeDelivery_now (here : u.fabric.transit[k]? = some x)
    (first : ∀ e ∈ u.fabric.transit.take k, e.src ≠ x.src ∨ e.task ≠ x.task)
    (none : ∀ e ∈ u.fabric.transit, e.isU = false ∨ e.left ≠ 0) (std : x.isU = false) (due : x.left = 0) :
    routeDelivery k u = receive x { u with fabric := { u.fabric with transit := u.fabric.transit.eraseIdx k } } := by
  have earlier : (u.fabric.transit.take k).any (fun e => decide (e.src = x.src) && decide (e.task = x.task)) = false := by
    rw [List.any_eq_false]
    intro e before
    rcases first e before with h | h <;> simp [h]
  unfold routeDelivery
  rw [deliverDue_none none]
  dsimp only
  rw [here]
  dsimp only
  rw [earlier, std, if_neg (by simp [due])]
  rfl

theorem routeDelivery_waits (here : u.fabric.transit[k]? = some x)
    (none : ∀ e ∈ u.fabric.transit, e.isU = false ∨ e.left ≠ 0) (waits : x.isU = true ∨ x.left ≠ 0) :
    routeDelivery k u = u := by
  unfold routeDelivery
  rw [deliverDue_none none]
  dsimp only
  rw [here]
  exact if_pos (by rcases waits with h | h <;> simp [h])

theorem receive_open (opened : u.taskOpen x.task = true) (plain : u.tasks[x.task].confOnly = false) :
    receive x u = assertTask x.task (some x.sub) x.flags u := by
  unfold receive
  rw [opened, plain]
  rfl

theorem receive_closed (closed : u.taskOpen x.task = false) : receive x u = dropDelivery x.task x.sub u := by
  unfold receive
  rw [closed]
  rfl

end

/-! ### Records (R145, R249) -/

theorem moveRecord_eq {u : State} {k : Fin 8} {p : Fin 64} {x : StampRec} {more : List StampRec}
    (next : u.nextBuffer k = some p) (buffer : u.ports[p].buffer = x :: more) (std : x.uclass = false)
    (fits : u.fifo.fitsB [.stamp x] = true) (first : u.clusters[k].moved ≠ some u.cycle) :
    moveRecord k u = { u with
      ports := u.ports.set p { u.ports[p] with buffer := more },
      clusters := u.clusters.set k { u.clusters[k] with moved := some u.cycle, turn := portIn p },
      fifo := { u.fifo with stamps := u.fifo.stamps ++ [.stamp x] } } := by
  have here : (u.modCluster k (fun c => { c with moved := some u.cycle })).nextBuffer k = some p := by
    rw [← next]
    simp [State.nextBuffer]
  have full : (u.modCluster k (fun c => { c with moved := some u.cycle })).ports[p].buffer = x :: more := buffer
  unfold moveRecord
  rw [if_neg first]
  unfold takeRecord
  rw [here]
  dsimp only
  rw [full]
  dsimp only
  rw [arriveStamp_fits std (by exact fits)]
  have clusters : upd (upd u.clusters k (fun c => { c with moved := some u.cycle })) k (fun c => { c with turn := portIn p }) =
      u.clusters.set k { u.clusters[k] with moved := some u.cycle, turn := portIn p } := by
    simp [upd]
  rw [← clusters]
  rfl

theorem moveRecord_again {u : State} {k : Fin 8} (moved : u.clusters[k].moved = some u.cycle) : moveRecord k u = u :=
  if_pos moved

/-- The B episode ends with 1024 free slots (R145). -/
theorem overflowEnds_b {u : State} {ds : List DropRec} (episode : u.fifo.bEpisode = some ds) (noU : u.fifo.uEpisode = none)
    (room : u.fifo.bUsed + 1024 ≤ 65472) :
    (overflowEnds u).fifo = { u.fifo with
      bEpisode := none, overflows := u.fifo.overflows ++ ds.map (overflowRec u.tb.now false) } ∧ SameBut [.fifo, .sp] u (overflowEnds u) := by
  have ends : overflowEnds u = endB u := by
    have none : (endB u).fifo.uEpisode = none := by
      unfold endB
      rw [episode]
      dsimp only
      rw [if_pos (show _ ≤ bSlots from room)]
      split <;> exact noU
    unfold overflowEnds endU
    rw [none]
  rw [ends]
  unfold endB
  rw [episode]
  dsimp only
  rw [if_pos (show _ ≤ bSlots from room)]
  split <;> refine ⟨rfl, ?_⟩ <;> intro part other <;> cases part <;> simp at other <;> rfl

/-- Settles O42. -/
theorem countsRecordsAndDeliveriesMove : Obligations.CountsRecordsAndDeliveriesMove := by
  unfold Obligations.CountsRecordsAndDeliveriesMove
  intro s d u f
  refine ⟨fun src h found running other => ⟨?_, fun o ne => find_nextHandover ne _⟩, fun src none here con hspi => ?_,
    fun k x here first none std due => ⟨fun opened plain => ?_, fun closed => ?_⟩, fun k x here none waits => ?_,
    fun k p x more next buffer std fits first => ?_, fun k moved => ?_, fun ds episode noU room => ?_, fun a b c => rfl⟩
  · exact next_congr (handoverAccept_running found running other)
  · exact next_congr (handoverAccept_steward none here con hspi)
  · exact next_congr ((routeDelivery_now here first none std due).trans (receive_open opened plain))
  · exact next_congr ((routeDelivery_now here first none std due).trans (receive_closed closed))
  · exact next_congr (routeDelivery_waits here none waits)
  · exact next_congr (moveRecord_eq next buffer std fits first)
  · exact next_congr (moveRecord_again moved)
  · exact ⟨_, rfl, overflowEnds_b episode noU room⟩

end Sys2Proof.Machine
end

section
/-! PROOF. The stream link comes up and goes down (R123, R125, R126, R133, R140, R149, R150). -/
namespace Sys2Proof.Machine
open Sys2Proof

/-! ### The receive lanes -/

section
variable {u : State} {r : Fin 2} {rd : Bool} {gs : List CodeGroup}

theorem rxEnabled_of (enable : u.sp.enable = true) (lane : r.val < u.sp.rxLanes) : u.sp.rxEnabled r = true := by
  simp [Stream.rxEnabled, enable, lane]

/-- What a link that leaves UP on an enabled port leaves behind. -/
theorem linkDown_up (up : u.sp.link = .up) (enable : u.sp.enable = true) : linkDown u = raise 381 Flags.none { u with
    sp := { u.sp with rx := u.sp.rx.map (fun l => { l with buf := [] }), link := .train, trainFrom := u.tb.now, assemblies := [],
                      lanes := updAll u.sp.lanes (abortLane u.sp.rate u.fifo.flights), linkDowns := u.sp.linkDowns + 1 },
    fifo := u.fifo.giveBack } := by
  have train : (if u.sp.enable then SpLink.train else .down) = .train := by rw [enable]; rfl
  unfold linkDown
  dsimp only
  rw [if_pos (decide_eq_true up)]
  conv => rhs; rw [← train]
  rfl

theorem laneLock_locks (enabled : u.sp.rxEnabled r = true) (locks : locksLane rd gs = true) :
    laneLock r rd gs u = { u with sp := { u.sp with rx := upd u.sp.rx r (fun l => { l with locked := true }) } } :=
  if_pos (by rw [enabled, locks]; rfl)

theorem laneLock_not (not : locksLane rd gs = false) : laneLock r rd gs u = u :=
  if_neg (by simp [not])

theorem laneLoseLock_lost (enabled : u.sp.rxEnabled r = true) (locked : u.sp.rx[r].locked = true)
    (loses : losesLane rd gs = true) :
    let v : State := { u with sp := { u.sp with rx := upd u.sp.rx r (fun l => { l with locked := false }) } }
    laneLoseLock r rd gs u = if u.sp.link = .up then linkDown v else v :=
  if_pos (by rw [enabled, locked, loses]; rfl)

theorem laneLoseLock_not (not : losesLane rd gs = false) : laneLoseLock r rd gs u = u :=
  if_neg (by simp [not])

theorem tsInUp_down (enabled : u.sp.rxEnabled r = true) (up : u.sp.link = .up) (ts : hasTs rd gs = true) :
    tsInUp r rd gs u = linkDown u :=
  if_pos (by rw [enabled, decide_eq_true up, ts]; rfl)

theorem tsInUp_not (not : hasTs rd gs = false) : tsInUp r rd gs u = u :=
  if_neg (by simp [not])

end

/-! ### The link enters UP (R125) -/

section
variable {u : State} {seen : List (Bool × List CodeGroup)}

theorem trained_of
    (noLane : u.sp.rxLanes = 0 → u.tb.running = false ∨ tnotBefore u.tb.now (tadd u.sp.trainFrom 100000000) = true)
    (lanes : u.sp.rxLanes ≠ 0 → ∀ r : Fin 2, u.sp.enable = true → r.val < u.sp.rxLanes →
      u.sp.rx[r].locked = true ∧ ∃ x, seen[r.val]? = some x ∧ trains x.1 x.2 = true) : u.trained seen = true := by
  unfold State.trained
  by_cases none : u.sp.rxLanes = 0
  · rw [if_pos none]
    rcases noLane none with stopped | waited
    · simp [stopped]
    · rw [show tnotBefore u.tb.now (tadd u.sp.trainFrom trainTu) = true from waited, Bool.or_true]
  · rw [if_neg none, List.all_eq_true]
    intro r _
    by_cases enabled : u.sp.rxEnabled r = true
    · have on : u.sp.enable = true ∧ r.val < u.sp.rxLanes := by simpa [Stream.rxEnabled] using enabled
      obtain ⟨locked, x, here, good⟩ := lanes none r on.1 on.2
      rw [locked, here]
      simp [good]
    · simp [Bool.not_eq_true _ ▸ enabled]

theorem not_trained {r : Fin 2} (enabled : u.sp.rxEnabled r = true)
    (bad : ∀ x, seen[r.val]? = some x → trains x.1 x.2 = false) : u.trained seen = false := by
  have lane : u.sp.rxLanes ≠ 0 := by
    have on : u.sp.enable = true ∧ r.val < u.sp.rxLanes := by simpa [Stream.rxEnabled] using enabled
    omega
  unfold State.trained
  rw [if_neg lane, List.all_eq_false]
  refine ⟨r, List.mem_finRange r, ?_⟩
  cases here : seen[r.val]? with
  | none => simp [enabled]
  | some x => simp [enabled, bad x here]

theorem linkUp_trained (train : u.sp.link = .train) (trained : u.trained seen = true) :
    linkUp seen u = { u with sp := { u.sp with
      link := .up, seqs := Vector.replicate 6 0, creditDue := true, lane0Quiet := u.tb.now,
      lanes := u.sp.lanes.map (fun _ => ⟨none, [], 32 * u.sp.rate.symTicks⟩),
      rx := u.sp.rx.map (fun l => { l with limit := 16, buf := [] }) } } :=
  if_pos (by rw [decide_eq_true train, trained]; rfl)

theorem linkUp_not (not : u.trained seen = false) : linkUp seen u = u :=
  if_neg (by simp [not])

end

/-! ### Records of frames in progress go back to their channels (R133, R150) -/

theorem channel_setChannel {c ch : Fin 6} (some : c.val ≠ 0) (other : ch.val ≠ 0) (f : Fifo) (rs : List FifoRec) :
    ((f.setChannel c rs).channel ch).1 = if c = ch then rs else (f.channel ch).1 := by
  match c, ch, some, other with
  | 1, 1, _, _ | 1, 2, _, _ | 1, 3, _, _ | 1, 4, _, _ | 1, 5, _, _ => rfl
  | 2, 1, _, _ | 2, 2, _, _ | 2, 3, _, _ | 2, 4, _, _ | 2, 5, _, _ => rfl
  | 3, 1, _, _ | 3, 2, _, _ | 3, 3, _, _ | 3, 4, _, _ | 3, 5, _, _ => rfl
  | 4, 1, _, _ | 4, 2, _, _ | 4, 3, _, _ | 4, 4, _, _ | 4, 5, _, _ => rfl
  | 5, 1, _, _ | 5, 2, _, _ | 5, 3, _, _ | 5, 4, _, _ | 5, 5, _, _ => rfl

/-- The records of one frame in progress, ahead of the others of its channel. -/
def Fifo.putBack (f : Fifo) (x : Flight) : Fifo :=
  match x.ch.val with
  | 0 => f
  | _ => f.setChannel x.ch (x.recs ++ (f.channel x.ch).1)

theorem giveBack_eq (f : Fifo) : f.giveBack = { f.flights.foldr (fun x f => f.putBack x) f with flights := [] } := rfl

theorem putBack_channel {ch : Fin 6} (other : ch.val ≠ 0) (f : Fifo) (x : Flight) :
    ((f.putBack x).channel ch).1 = (if x.ch = ch then x.recs else []) ++ (f.channel ch).1 := by
  unfold Fifo.putBack
  split
  case h_1 zero =>
    rw [if_neg (by rintro rfl; exact other zero)]
    rfl
  case h_2 some =>
    rw [channel_setChannel some other]
    by_cases same : x.ch = ch
    · rw [if_pos same, if_pos same, same]
    · rw [if_neg same, if_neg same]
      rfl

theorem foldPutBack_channel {ch : Fin 6} (other : ch.val ≠ 0) (f : Fifo) : ∀ xs : List Flight,
    ((xs.foldr (fun x f => f.putBack x) f).channel ch).1 =
      (xs.filter (fun x => decide (x.ch = ch))).flatMap (fun x => x.recs) ++ (f.channel ch).1
  | [] => rfl
  | x :: xs => by
    rw [List.foldr_cons, putBack_channel other, foldPutBack_channel other f xs, ← List.append_assoc]
    by_cases same : x.ch = ch
    · rw [if_pos same, List.filter_cons_of_pos (by simpa using same), List.flatMap_cons]
    · rw [if_neg same, List.filter_cons_of_neg (by simpa using same)]
      rfl

theorem channel_flights (f : Fifo) (fs : List Flight) (ch : Fin 6) : ({ f with flights := fs }).channel ch = f.channel ch := by
  unfold Fifo.channel
  split <;> rfl

/-- Settles O44. -/
theorem streamLinkMoves : Obligations.StreamLinkMoves := by
  unfold Obligations.StreamLinkMoves
  intro s d u p lock down
  refine ⟨fun r rd gs enable lane => ?_, fun seen train noLane lanes => ?_, fun seen r enable lane bad => ?_,
    fun l quiet => ?_, fun ch other => ?_, rfl⟩
  · have enabled : u.sp.rxEnabled r = true := rxEnabled_of enable lane
    refine ⟨fun locks => ?_, fun not => ?_, fun notUp locked loses => ?_, fun up locked loses => ?_, fun not => ?_,
      fun up ts => ?_, fun not => ?_⟩
    · exact next_congr (laneLock_locks enabled locks)
    · exact next_congr (laneLock_not not)
    · exact next_congr ((laneLoseLock_lost enabled locked loses).trans (if_neg notUp))
    · exact next_congr (((laneLoseLock_lost enabled locked loses).trans (if_pos up)).trans (linkDown_up up enable))
    · exact next_congr (laneLoseLock_not not)
    · exact next_congr ((tsInUp_down enabled up ts).trans (linkDown_up up enable))
    · exact next_congr (tsInUp_not not)
  · exact next_congr (linkUp_trained train (trained_of noLane lanes))
  · exact next_congr (linkUp_not (not_trained (rxEnabled_of enable lane) bad))
  · have none : u.fifo.flights.find? (fun x => decide (x.lane = l)) = none :=
      find?_none_of fun x flight => decide_eq_false (quiet x flight)
    unfold abortLane
    rw [none]
    rfl
  · rw [giveBack_eq, channel_flights]
    exact foldPutBack_channel other u.fifo u.fifo.flights

end Sys2Proof.Machine
end

section
/-! PROOF. Frames are filled and sent, and upload frames assemble blocks (R50, R121, R122, R130 to R133, R139 to R143). -/
namespace Sys2Proof.Machine
open Sys2Proof

/-! ### Frames are sent (R130 to R133, R141, R143) -/

section
variable {u : State} {lane : Fin 4}

theorem sendFrame_control (up : u.sp.link = .up) (given : u.laneGiven 0 = some lane) (bad : List Nat) :
    sendFrame 0 bad u = sendControl lane u := by
  unfold sendFrame
  rw [if_neg (not_not_intro up), given]
  rfl

theorem sendFrame_records {ch : Fin 6} {recs : List FifoRec} {n : Nat} {ty : FrameType} (up : u.sp.link = .up)
    (given : u.laneGiven ch = some lane) (data : ch.val ≠ 0) (channel : u.fifo.channel ch = (recs, n, ty)) (some : recs ≠ []) :
    sendFrame ch [] u = putFrame ch lane ty (recs.take n) ((recs.take n).flatMap recBytes)
      { u with fifo := u.fifo.setChannel ch (recs.drop n) } := by
  have filled : (recs.take n).isEmpty = false := by
    have := channel_pos channel
    simp only [List.isEmpty_eq_false_iff, ne_eq, List.take_eq_nil_iff]
    rintro (none | none)
    · omega
    · exact some none
  unfold sendFrame
  rw [if_neg (not_not_intro up), given]
  dsimp only
  rw [if_neg data, channel, takeGood_all]
  dsimp only
  rw [filled, if_neg Bool.false_ne_true]
  rfl

theorem sendControl_credit (due : u.sp.creditDue = true) : sendControl lane u =
    (putFrame 0 lane .credit [] u.sp.creditBytes u).modSp (fun p => { p with creditDue := false }) :=
  if_pos due

theorem sendControl_status (due : u.sp.creditDue = false) (some : u.sp.status ≠ []) : sendControl lane u =
    (putFrame 0 lane .upstatus [] ((u.sp.status.take 4).flatMap UpEntry.bytes) u).modSp
      (fun p => { p with status := p.status.drop 4 }) := by
  unfold sendControl
  rw [if_neg (by simp [due]), if_neg (by simpa using some)]

theorem repeatCredit_now (up : u.sp.link = .up) (given : u.laneGiven 0 = some 0)
    (quiet : tnotBefore u.tb.now (tadd u.sp.lane0Quiet 100000000) = true) : repeatCredit u =
    (putFrame 0 0 .credit [] u.sp.creditBytes u).modSp (fun p => { p with creditDue := false }) := by
  have waited : tnotBefore u.tb.now (tadd u.sp.lane0Quiet creditTu) = true := quiet
  unfold repeatCredit
  refine if_pos ?_
  rw [decide_eq_true up, decide_eq_true given, waited]
  rfl

/-- The lane that a channel is given is the first that is free (R132), and no U frame competes for it (R50). -/
theorem laneGiven_first {ch : Fin 6} (noPorts : u.sp.uports = []) (data : ch.val ≠ 0) (given : u.laneGiven ch = some lane) :
    lane.val < u.sp.txLanes ∧ u.sp.lanes[lane].busy = 0 ∧ (ch.val = 1 ∨ u.fifo.urecs = []) ∧
      ∀ l : Fin 4, l < lane → l.val < u.sp.txLanes → u.sp.lanes[l].busy ≠ 0 := by
  have laneFor (c : Fin 6) (some : c.val ≠ 0) : u.sp.laneFor c = u.sp.freeLane (fun _ => true) := by
    unfold Stream.laneFor
    rw [if_neg some, noPorts]
    rfl
  unfold State.laneGiven at given
  rw [laneFor 1 (by decide), laneFor ch data, decide_eq_true rfl, Bool.and_true] at given
  by_cases competes : (decide (ch.val ≠ 1) && !u.fifo.urecs.isEmpty) = true
  · rw [if_pos competes] at given
    cases given
  · rw [if_neg competes] at given
    unfold Stream.freeLane at given
    obtain ⟨free, i, below, rfl, before⟩ := List.find?_eq_some_iff_getElem.1 given
    simp only [List.getElem_finRange, Bool.and_true, Bool.and_eq_true, decide_eq_true_eq] at free ⊢
    refine ⟨free.1, free.2, ?_, fun l earlier enabled => ?_⟩
    · simp only [ne_eq, decide_not, Bool.and_eq_true, Bool.not_eq_eq_eq_not, Bool.not_true, decide_eq_false_iff_not,
        List.isEmpty_eq_false_iff, not_and, Classical.not_not] at competes
      exact Classical.or_iff_not_imp_left.2 competes
    · have := before l.val earlier
      simp only [List.getElem_finRange, Bool.and_true, Bool.not_eq_true', Bool.and_eq_false_iff, decide_eq_false_iff_not] at this
      exact this.resolve_left (not_not_intro enabled)

end

/-! ### Uploads (R128, R139 to R142) -/

theorem uploadFrame_eq {u : State} {r : Fin 2} (up : u.sp.link = .up) (enabled : u.sp.rxEnabled r = true)
    (locked : u.sp.rx[r].locked = true) (rd : Bool) (gs : List CodeGroup) (n : Nat) :
    uploadFrame r rd gs n u = leaveBuffers r (min n 16) (match frameIn rd gs with | some f => arriveFrame r f u | none => u) := by
  unfold uploadFrame
  rw [if_neg (by rw [enabled, locked]; simp [up])]
  rfl

theorem arriveFrame_eq (r : Fin 2) (f : RxFrame) (u : State) : arriveFrame r f u =
    { u with sp := if 16 ≤ u.sp.rx[r].buf.length then { u.sp with rxNoCredit := u.sp.rxNoCredit + 1 }
      else { u.sp with rx := upd u.sp.rx r (fun l => { l with buf := u.sp.rx[r].buf ++ [f] }) } } := by
  have appends : upd u.sp.rx r (fun l => { l with buf := l.buf ++ [f] }) =
      upd u.sp.rx r (fun l => { l with buf := u.sp.rx[r].buf ++ [f] }) := rfl
  unfold arriveFrame
  by_cases full : 16 ≤ u.sp.rx[r].buf.length
  · rw [if_pos full, if_pos (show rxBuffers ≤ _ from full)]
    rfl
  · rw [if_neg full, if_neg (show ¬ rxBuffers ≤ _ from full), ← appends]
    rfl

theorem leaveBuffer_empty {w : State} {r : Fin 2} (empty : w.sp.rx[r].buf = []) : leaveBuffer r w = w := by
  unfold leaveBuffer
  rw [empty]

theorem leaveBuffer_cons {w : State} {r : Fin 2} {f : RxFrame} {rest : List RxFrame} (buf : w.sp.rx[r].buf = f :: rest) :
    leaveBuffer r w = { takeUpload f w with sp := { (takeUpload f w).sp with
      rx := upd (takeUpload f w).sp.rx r (fun l => { l with buf := rest, limit := l.limit + 1 }), creditDue := true } } := by
  unfold leaveBuffer
  rw [buf]
  rfl

theorem leaveBuffers_empty {w : State} {r : Fin 2} (empty : w.sp.rx[r].buf = []) : ∀ n : Nat, leaveBuffers r n w = w
  | 0 => rfl
  | n + 1 => by
    unfold leaveBuffers
    rw [leaveBuffer_empty empty]
    exact leaveBuffers_empty empty n

theorem takeUpload_bad (bytes : List Byte) (u : State) :
    takeUpload ⟨bytes, true, false⟩ u = { u with sp := { u.sp with rxBadCrc := u.sp.rxBadCrc + 1 } } := by
  unfold takeUpload
  dsimp only
  rw [if_neg Bool.false_ne_true, if_pos (by simp)]
  rfl

theorem assemblyTimeout_now {u : State} {k : Nat} {a : Assembly} (here : u.sp.assemblies[k]? = some a)
    (late : tnotBefore u.tb.now (tadd a.lastArrival 100000000000) = true) :
    assemblyTimeout k u = report ⟨a.seg, a.block, .timeout, a.lastSeq⟩
      { u with sp := { u.sp with assemblies := u.sp.assemblies.eraseIdx k } } := by
  unfold assemblyTimeout
  rw [here]
  exact if_pos late

/-- Settles O45. -/
theorem streamFramesAndUploads : Obligations.StreamFramesAndUploads := by
  unfold Obligations.StreamFramesAndUploads
  intro s d u p sends noCredit
  refine ⟨fun up => ⟨fun ch lane recs n ty given data channel some => ?_, fun lane given => ⟨fun due => ?_, fun due some => ?_⟩,
      fun ch lane notGiven => ?_, fun given quiet => ?_, fun r rd gs n enable lane locked => ?_⟩,
    fun ch lane noPorts data given => laneGiven_first noPorts data given,
    fun w r n => ⟨rfl, fun empty => leaveBuffers_empty empty n, fun f rest buf => ?_⟩,
    fun bytes bad => ⟨rfl, takeUpload_bad bytes u⟩,
    fun seg block quarter seq check data h1 h2 h3 h4 h5 => takeUpload_good h1 h2 h3 h4 h5,
    fun seg block quarter seq check data new => placeQuarter_new new,
    fun a id seg check q named found inside still same four => decideBlock_ok named found inside still same four,
    fun k a here late => next_congr (assemblyTimeout_now here late)⟩
  · exact next_congr ((if_pos given).trans (sendFrame_records up given data channel some))
  · exact next_congr (((if_pos given).trans (sendFrame_control up given [])).trans (sendControl_credit due))
  · exact next_congr (((if_pos given).trans (sendFrame_control up given [])).trans (sendControl_status due some))
  · exact next_congr (if_neg notGiven)
  · exact next_congr (repeatCredit_now up given quiet)
  · refine next_congr ((uploadFrame_eq up (rxEnabled_of enable lane) locked rd gs n).trans ?_)
    cases frameIn rd gs with
    | none => rfl
    | some f => exact congrArg (leaveBuffers r (min n 16)) (arriveFrame_eq r f u)
  · exact congrArg (leaveBuffers r n) (leaveBuffer_cons buf)

end Sys2Proof.Machine
end

section
/-! PROOF. References are watched (R161 to R169, R174, R177, R178). -/
namespace Sys2Proof.Machine
open Sys2Proof

/-! ### The end of a comparison window (R164 to R166) -/

section
variable {u : State} {x : Fin 4}

/-- A window in which nothing fails yields the offset of the counted frequencies. -/
theorem windowResult_some {fx fc : Nat} (present : u.tb.refs[x].present = true) (compare : u.compareOk u.tb.refs[x] = true)
    (counted : 0 < fc * u.tb.refs[x].freq) : u.windowResult x false fx fc = some (divEven
      ((fx * u.nominal u.tb.refs[x].compare * 1000000000 : Nat) : Int) (fc * u.tb.refs[x].freq) - 1000000000) := by
  unfold State.windowResult offsetOf
  dsimp only
  rw [present, compare, if_neg (by simp), if_neg (by omega)]

theorem windowResult_none {bad : Bool} {fx fc : Nat} (fails : u.tb.refs[x].present = false ∨ bad = true ∨
    u.compareOk u.tb.refs[x] = false ∨ fc * u.tb.refs[x].freq = 0) : u.windowResult x bad fx fc = none := by
  unfold State.windowResult offsetOf
  dsimp only
  rcases fails with h | h | h | h
  · rw [h, if_pos (by simp)]
  · rw [h, if_pos (by simp)]
  · rw [h, if_pos (by simp)]
  · rw [if_pos h, ite_self]

/-- A reference differs from another only in what it notes of its windows, which never forgets a failure. -/
def Ref.notes (r r' : Ref) : Prop := ∃ b1 b10, r' = { r with bad1 := b1, bad10 := b10 } ∧
  (r.bad1 = true → b1 = true) ∧ (r.bad10 = true → b10 = true)

theorem noteBad_notes (v : State) (y : Fin 4) : v.tb.refs[y].notes (noteBad v).tb.refs[y] := by
  rw [noteBad_ref]
  split
  · exact ⟨_, _, rfl, id, id⟩
  · exact ⟨true, true, rfl, fun _ => rfl, fun _ => rfl⟩

theorem nextWindow_other (ten : Bool) (f : Ref → Ref) {y : Fin 4} (other : y ≠ x) :
    u.tb.refs[y].notes (nextWindow x ten (requalify x (u.modRef x f))).tb.refs[y] := by
  have noted := noteBad_notes ((requalify x (u.modRef x f)).modRef x
    (fun r => if ten then { r with bad10 := false } else { r with bad1 := false })) y
  rwa [ref_other _ _ _ other, requalify_refs.1 y other, ref_other _ _ _ other] at noted

theorem nextWindow_self (ten : Bool) (f : Ref → Ref) : ∃ q g b1 b10,
    (nextWindow x ten (requalify x (u.modRef x f))).tb.refs[x] =
      { f u.tb.refs[x] with qual := q, goodFor := g, bad1 := b1, bad10 := b10 } := by
  obtain ⟨b1, b10, noted, -, -⟩ := noteBad_notes ((requalify x (u.modRef x f)).modRef x
    (fun r => if ten then { r with bad10 := false } else { r with bad1 := false })) x
  obtain ⟨q, g, graded⟩ := (requalify_refs (x := x) (s := u.modRef x f)).2
  rw [ref_at] at noted graded
  rw [graded] at noted
  exact ⟨q, g, b1, b10, noted.trans (by cases ten <;> rfl)⟩

theorem activeGone_refs (n : Nat) (v : State) : (activeGone n v).tb.refs = v.tb.refs := by
  unfold activeGone
  dsimp only
  split
  · rfl
  · exact activeFailed_refs

/-- What a 1 s window does to the references. -/
theorem window1s_refs (on : u.tb.refs[x].role ≠ .off) (fx fc : Nat) : (window1s x fx fc u).tb.refs =
    (nextWindow x false (requalify x (u.modRef x (fun r => r.window1 (u.windowResult x u.tb.refs[x].bad1 fx fc))))).tb.refs := by
  unfold window1s
  rw [if_neg on, autoChecks_refs]
  split
  · exact activeGone_refs _ _
  · rfl

/-- What a 10 s window's result makes of a reference. -/
def Ref.window10 (r : Ref) : Option Int → Ref
  | none => { r with cmpValid := false }
  | some v => ({ r with offset10 := v, had10 := true, cmpValid := true }).grade10 v

theorem window10s_refs (on : u.tb.refs[x].role ≠ .off) (fx fc : Nat) : (window10s x fx fc u).tb.refs =
    (nextWindow x true (requalify x (u.modRef x
      (fun r => r.window10 ((u.windowResult x u.tb.refs[x].bad10 fx fc).map clipOffset))))).tb.refs := by
  unfold window10s
  rw [if_neg on, autoChecks_refs]
  rfl

end

/-! ### A reference is lost (R162, R174, R177) -/

theorem enterHoldover_held {v : State} (long : 25000000 ≤ v.tb.lockTicks) : enterHoldover v = spanEnd (happen 372 1
    { v with tb := { v.tb with state := .holdover, holdovers := v.tb.holdovers + 1, job := .idle } }) := by
  unfold enterHoldover histMin
  exact if_neg (by omega)

theorem enterHoldover_short {v : State} (short : v.tb.lockTicks < 25000000) : enterHoldover v = lockloss v := by
  unfold enterHoldover histMin
  exact if_pos short

/-- Settles O46. -/
theorem referencesAreWatched : Obligations.ReferencesAreWatched := by
  unfold Obligations.ReferencesAreWatched
  intro s d u t ref
  refine ⟨fun x => ?_, fun x => ?_, fun locked idle => ?_, fun x => ?_, fun x fx fc => ?_⟩
  · intro r on present v
    have lost : exec (.refLost d x) s = .next (referenceGone x v) := next_congr (lost_state on present)
    refine ⟨fun away notMine => ?_, fun y active locked job => ?_, fun active locked noSwitch =>
      ⟨fun y auto best => ?_, fun none long => ?_, fun none short => ?_⟩⟩
    · exact lost.trans (next_congr (gone_other (v := v) away notMine))
    · exact lost.trans (next_congr (gone_during (v := v) active locked job))
    · exact lost.trans (next_congr (gone_switch (v := v) active locked noSwitch auto best))
    · exact lost.trans (next_congr ((gone_hold (v := v) active locked noSwitch none).trans (enterHoldover_held long)))
    · exact lost.trans (next_congr ((gone_hold (v := v) active locked noSwitch none).trans (enterHoldover_short short)))
  · intro r on absent v
    exact next_congr ((present_state on absent).trans acquireIdle_eq)
  · exact next_congr (if_pos (by rw [decide_eq_true locked, decide_eq_true idle]; rfl))
  · intro r active frozen present
    exact next_congr (glitch_eq active frozen present)
  · intro r on nominal ppb watched
    have result (present : r.present = true) (compare : u.compareOk r = true) (counted : 0 < fc * r.freq) :
        ∃ v, u.windowResult x false fx fc = some v ∧ clipOffset v = ppb := ⟨_, windowResult_some present compare counted, rfl⟩
    refine ⟨⟨_, rfl, fun y other => ?_, fun present clean compare counted => ?_, fun fails => ?_⟩,
      ⟨_, rfl, fun y other => ?_, fun present clean compare counted => ?_, fun fails => ?_⟩⟩
    · rw [window1s_refs on]
      exact nextWindow_other false _ other
    · obtain ⟨q, g, b1, b10, self⟩ := nextWindow_self (u := u) (x := x) false
        (fun r => r.window1 (u.windowResult x u.tb.refs[x].bad1 fx fc))
      obtain ⟨v, yields, clipped⟩ := result present compare counted
      have graded := window1_some (r := r) (v := v)
      rw [clipped] at graded
      rw [window1s_refs on, self, show u.tb.refs[x].bad1 = false from clean, yields]
      exact graded
    · obtain ⟨q, g, b1, b10, self⟩ := nextWindow_self (u := u) (x := x) false
        (fun r => r.window1 (u.windowResult x u.tb.refs[x].bad1 fx fc))
      rw [window1s_refs on, self, windowResult_none fails]
      exact window1_none
    · rw [window10s_refs on]
      exact nextWindow_other true _ other
    · obtain ⟨q, g, b1, b10, self⟩ := nextWindow_self (u := u) (x := x) true
        (fun r => r.window10 ((u.windowResult x u.tb.refs[x].bad10 fx fc).map clipOffset))
      obtain ⟨v, yields, clipped⟩ := result present compare counted
      have graded := window10_some (r := r) (v := v)
      rw [clipped] at graded
      rw [window10s_refs on, self, show u.tb.refs[x].bad10 = false from clean, yields, Option.map_some, clipped]
      exact graded
    · obtain ⟨q, g, b1, b10, self⟩ := nextWindow_self (u := u) (x := x) true
        (fun r => r.window10 ((u.windowResult x u.tb.refs[x].bad10 fx fc).map clipOffset))
      rw [window10s_refs on, self, windowResult_none fails]
      exact ⟨rfl, rfl⟩

end Sys2Proof.Machine
end

section
/-! PROOF. Attempts, the lock, switches and LOCKLOSS (R156, R157, R159, R160, R174, R175). -/
namespace Sys2Proof.Machine
open Sys2Proof

section
variable {u : State} {x y : Fin 4}

/-- The loop closes on the reference that a switch has measured (R175). -/
theorem refSwitch_now {l : Bool} (job : u.tb.job = .buildOut y l) (state : u.tb.state = .locked ∨ u.tb.state = .holdover) :
    refSwitch u = spanEnd (happen 371 1 { u with tb := { u.tb with
      state := .locked, active := some y, switches := u.tb.switches + 1, job := .idle } }) := by
  unfold refSwitch
  rw [job]
  exact if_pos (by rcases state with h | h <;> rw [h] <;> rfl)

theorem revertWait_now {a : Fin 4} (locked : u.tb.state = .locked) (idle : u.tb.job = .idle) (auto : u.tb.auto = true)
    (revert : u.tb.revert = true) (active : u.tb.active = some a) (higher : u.tb.place x < u.tb.place a)
    (candidate : u.tb.refs[x].role = .candidate) (good : u.tb.refs[x].qual = .good)
    (waited : u.tb.revertWait ≤ u.tb.refs[x].goodFor) :
    revertWait x u = spanBegin { u with tb := { u.tb with job := .buildOut x false } } := by
  unfold revertWait
  refine if_pos ?_
  rw [active]
  dsimp only
  rw [decide_eq_true locked, decide_eq_true idle, auto, revert, decide_eq_true higher, decide_eq_true candidate,
    decide_eq_true good, decide_eq_true waited]
  rfl

theorem acquiring_of (state : u.tb.state = .acquire ∨ u.tb.state = .unlocked) : u.tb.acquiring = true := by
  unfold Timebase.acquiring
  rcases state with h | h <;> rw [h]

theorem acquireTimeout_now {since : TimeWord} (job : u.tb.job = .attempt x since)
    (state : u.tb.state = .acquire ∨ u.tb.state = .unlocked)
    (late : u.tb.running = false ∨ tnotBefore u.tb.now (tadd since 4000000000) = true) :
    acquireTimeout u = { u with tb := { u.tb with
      job := (nextCandidate u.tb (some x)).elim PllJob.idle (fun x => .attempt x u.tb.now) } } := by
  have expired : (!u.tb.running || tnotBefore u.tb.now (tadd since attemptTu)) = true := by
    rcases late with stopped | late
    · rw [stopped]; rfl
    · rw [show tnotBefore u.tb.now (tadd since attemptTu) = true from late, Bool.or_true]
  unfold acquireTimeout
  rw [job]
  dsimp only
  rw [acquiring_of state, expired]
  exact acquireNext_eq (some x) u

/-- The timebase at a lock that ends no sleep (R157). -/
def Timebase.lockedOn (t : Timebase) (x : Fin 4) : Timebase :=
  { t with state := .locked, active := some x, clkSrc := .pll, job := .idle, lockTicks := 0, running := true, started := true,
           now := if t.started then t.now else 0, phase := if t.started then t.phase else 0 }

theorem pllLock_eq {since : TimeWord} (job : u.tb.job = .attempt x since)
    (state : u.tb.state = .acquire ∨ u.tb.state = .unlocked) (candidate : u.tb.refs[x].role = .candidate)
    (awake : u.bel.step ≠ .relock) : pllLock u =
      if u.tb.started then relock { u with tb := u.tb.lockedOn x } else firstLock { u with tb := u.tb.lockedOn x } := by
  unfold pllLock
  rw [job]
  dsimp only
  rw [acquiring_of state, decide_eq_true candidate, if_neg (by simp)]
  unfold Timebase.lockedOn
  cases step : u.bel.step with
  | relock => exact absurd step awake
  | _ =>
    cases u.tb.started <;>
      simp only [Bool.not_true, Bool.not_false, Bool.or_false, Bool.false_eq_true, if_true, if_false] <;> rfl

/-- What a lock that ends no sleep leaves of the timebase, and of the FREE axes (R157, R200). -/
theorem pllLock_facts {since : TimeWord} (job : u.tb.job = .attempt x since)
    (state : u.tb.state = .acquire ∨ u.tb.state = .unlocked) (candidate : u.tb.refs[x].role = .candidate)
    (awake : u.bel.step ≠ .relock) : (pllLock u).tb = u.tb.lockedOn x ∧
      ∀ a : Fin 4, u.axes[a].cfg.mode = .free → (pllLock u).axes[a].state = .confirmed := by
  rw [pllLock_eq job state candidate awake]
  split
  · exact relock_facts (s := { u with tb := u.tb.lockedOn x })
  · exact firstLock_facts (s := { u with tb := u.tb.lockedOn x })

end

/-- Settles O47. -/
theorem lockSwitchAndLockloss : Obligations.LockSwitchAndLockloss := by
  unfold Obligations.LockSwitchAndLockloss
  intro s d u t attempt
  refine ⟨fun y l job state => ?_, fun x a locked idle auto revert active higher candidate good waited => ?_,
    fun x since job state => ⟨fun late => ?_, fun candidate awake => ⟨_, rfl, ?_⟩⟩, fun locked => ⟨_, rfl, ?_⟩⟩
  · exact next_congr (refSwitch_now job state)
  · exact next_congr (revertWait_now locked idle auto revert active higher candidate good waited)
  · exact next_congr (acquireTimeout_now job state late)
  · exact pllLock_facts job state candidate awake
  · have raised : locklossRaised u = lockloss u := if_pos locked
    show (locklossRaised u).tb = _ ∧ _
    rw [raised]
    exact lockloss_facts u

end Sys2Proof.Machine
end

section
/-! PROOF. What index edges and missing edges do to a FRAME axis (R189 to R192, R197, R199). -/
namespace Sys2Proof.Machine
open Sys2Proof

section
variable {u : State} {a : Fin 4} {t : TimeWord} {rest : List TimeWord} {an : Anchor}

/-- The state, the anchor and the period of the other axes stay. -/
def othersStay (a : Fin 4) (u w : State) : Prop := ∀ b : Fin 4, b ≠ a →
  (w.axes[b].state, w.axes[b].anchor, w.axes[b].period) = (u.axes[b].state, u.axes[b].anchor, u.axes[b].period)

/-- The usable index edge at the front leaves the queue. -/
def State.taken (u : State) (a : Fin 4) (rest : List TimeWord) : State := u.modAxis a (fun x => { x with pendIdx := rest })

theorem taken_axis : (u.taken a rest).axes[a] = { u.axes[a] with pendIdx := rest } := axis_at u a _

theorem taken_others {y : Axis} {w : State} (same : AW a y (u.taken a rest) w) : othersStay a u w :=
  others_of ((front_aw (rest := rest)).past same)

/-! ### Acquisition (R189) -/

theorem acquireEdge_first (none : u.axes[a].acquired = []) : acquireEdge a t u =
    raiseAxis a 0 (u.modAxis a (fun x => { x with state := .acquire, acquired := [t], period := u.axes[a].period })) := by
  unfold acquireEdge
  simp only [none]

theorem acquireEdge_second {t1 : TimeWord} (one : u.axes[a].acquired = [t1]) : acquireEdge a t u =
    raiseAxis a 0 (u.modAxis a (fun x =>
      if (tdiff t t1 - u.axes[a].cfg.period).natAbs * 1000000 ≤ u.axes[a].cfg.period * u.axes[a].cfg.vals.pull then
        { x with state := .acquire, acquired := [t1, t], period := tdiff t t1 * periodOne }
      else { x with state := .acquire, acquired := [t], period := u.axes[a].period })) := by
  unfold acquireEdge
  simp only [one]
  split
  next fits => simp only [of_decide_eq_true fits, if_true]
  next far => simp only [show ¬ _ from fun fits => far (decide_eq_true fits), if_false]

/-! ### Decisions (R192, R197, R199) -/

/-- What an edge that confirms the awaited frame makes of the axis. -/
def confirmsFrame (u : State) (a : Fin 4) (an : Anchor) (t : TimeWord) (rest : List TimeWord) (w : State) : Prop :=
  let x := u.axes[a]; let n := an.n + 1; let p := predictFrom an x.period n
  w.axes[a].state = .confirmed ∧ w.axes[a].anchor = some ⟨t, n, true⟩ ∧ w.axes[a].misses = 0 ∧
    w.axes[a].lastError = tdiff t p ∧ w.axes[a].pendIdx = rest ∧
    w.axes[a].period = clampPeriod x.cfg.period x.inForce.pull (x.period + divEven (tdiff t p * 65536) (2 ^ x.inForce.gain)) ∧
    othersStay a u w

/-- What an edge that retracts the awaited frame makes of the axis. -/
def retractsFrame (u : State) (a : Fin 4) (an : Anchor) (t : TimeWord) (rest : List TimeWord) (w : State) : Prop :=
  w.axes[a].state = .reacquire ∧ w.axes[a].anchor = some ⟨t, an.n + 1, true⟩ ∧ w.axes[a].misses = 0 ∧
    w.axes[a].period = u.axes[a].period ∧ w.axes[a].pendIdx = rest ∧ othersStay a u w

theorem confirmFrame_confirms (anchor : u.axes[a].anchor = some an) (re : Bool) :
    confirmsFrame u a an t rest (confirmFrame a (an.n + 1) t re (u.taken a rest)) := by
  have here := taken_axis (u := u) (a := a) (rest := rest)
  obtain ⟨y, same, state, anchored, misses, error, pending, period⟩ :=
    confirm_good (a := a) (n := an.n + 1) (t := t) (re := re) (s := u.taken a rest) (an := an) (by rw [here]; exact anchor)
  rw [here] at error pending period
  obtain ⟨-, -, sameState, sameAnchor, samePeriod, sameMisses, -, samePend, -, sameError, -⟩ := av_facts same.1
  exact ⟨sameState.trans state, sameAnchor.trans anchored, sameMisses.trans misses, sameError.trans error,
    samePend.trans pending, samePeriod.trans period, taken_others same⟩

theorem retracts_of {y : Axis} {w : State} (same : AW a y (u.taken a rest) w) (state : y.state = .reacquire)
    (anchor : y.anchor = some ⟨t, an.n + 1, true⟩) (misses : y.misses = 0) (period : y.period = u.axes[a].period)
    (pending : y.pendIdx = rest) : retractsFrame u a an t rest w := by
  obtain ⟨-, -, sameState, sameAnchor, samePeriod, sameMisses, -, samePend, -⟩ := av_facts same.1
  exact ⟨sameState.trans state, sameAnchor.trans anchor, sameMisses.trans misses, samePeriod.trans period,
    samePend.trans pending, taken_others same⟩

/-- An edge in the catch window, but further than TRETRACT from the prediction, retracts the frame and counts a slip. -/
theorem confirmedEdge_late (anchor : u.axes[a].anchor = some an)
    (near : (testError u.axes[a] t (predictFrom an u.axes[a].period (an.n + 1))).natAbs ≤ u.axes[a].inForce.catchTu)
    (far : u.axes[a].inForce.tretract < (testError u.axes[a] t (predictFrom an u.axes[a].period (an.n + 1))).natAbs) :
    retractsFrame u a an t rest (confirmedEdge a t (u.taken a rest)) ∧
      (confirmedEdge a t (u.taken a rest)).axes[a].slips = u.axes[a].slips + 1 := by
  have here := taken_axis (u := u) (a := a) (rest := rest)
  have same := confirmed_late (a := a) (t := t) (s := u.taken a rest) (an := an) (by rw [here]; exact anchor)
    (by rw [here]; exact near) (by rw [here]; exact far)
  rw [here] at same
  obtain ⟨-, -, -, -, -, -, -, -, -, -, -, slips, -⟩ := av_facts same.1
  exact ⟨retracts_of same rfl rfl rfl rfl rfl, slips⟩

theorem reacquireEdge_late (anchor : u.axes[a].anchor = some an)
    (open_ : tlater (tadd (predictFrom an u.axes[a].period (an.n + 1)) (-(u.axes[a].period / (2 * periodOne)))) t = false)
    (lone : an.real = false ∨
      u.axes[a].inForce.catchTu < (testError u.axes[a] t (predictFrom an u.axes[a].period (an.n + 1))).natAbs) :
    retractsFrame u a an t rest (reacquireEdge a t (u.taken a rest)) := by
  have here := taken_axis (u := u) (a := a) (rest := rest)
  have same := reacquire_late (a := a) (t := t) (s := u.taken a rest) (an := an) (by rw [here]; exact anchor)
    (by rw [here]; exact open_) (by rw [here]; exact lone)
  rw [here] at same
  exact retracts_of same rfl rfl rfl rfl rfl

/-! ### Windows that pass (R197, R199) -/

/-- What a window of the awaited frame that passes without an edge makes of the axis. -/
def framePasses (u : State) (a : Fin 4) (an : Anchor) (misses : Nat) (w : State) : Prop :=
  let n := an.n + 1
  w.axes[a].state = .reacquire ∧ w.axes[a].anchor = some ⟨predictFrom an u.axes[a].period n, n, false⟩ ∧
    w.axes[a].misses = misses ∧ w.axes[a].period = u.axes[a].period ∧ othersStay a u w

theorem passes_of {y : Axis} {w : State} {misses : Nat} (same : AW a y u w) (state : y.state = .reacquire)
    (anchor : y.anchor = some ⟨predictFrom an u.axes[a].period (an.n + 1), an.n + 1, false⟩) (missed : y.misses = misses)
    (period : y.period = u.axes[a].period) : framePasses u a an misses w := by
  obtain ⟨-, -, sameState, sameAnchor, samePeriod, sameMisses, -⟩ := av_facts same.1
  exact ⟨sameState.trans state, sameAnchor.trans anchor, sameMisses.trans missed, samePeriod.trans period, others_of same⟩

/-- An axis that is lost has no anchor; a LOSS is counted if it is raised. -/
theorem enterLost_facts (loss : Bool) (v : State) : (enterLost a loss v).axes[a].state = .lost ∧
    (enterLost a loss v).axes[a].anchor = none ∧
    (enterLost a loss v).axes[a].losses = (if loss then v.axes[a].losses + 1 else v.axes[a].losses) ∧
    (enterLost a loss v).axes[a].count = v.axes[a].count ∧ (enterLost a loss v).axes[a].pendCnt = v.axes[a].pendCnt := by
  obtain ⟨-, -, state, anchor, -, -, -, -, pending, -, count, -, losses, -⟩ :=
    av_facts (enterLost_aw (a := a) (b := loss) (s := v)).1
  cases loss <;> exact ⟨state, anchor, losses, count, pending⟩

/-- The state after the catch window of the awaited frame has passed, before MISSMAX is looked at. -/
def State.caughtNone (u : State) (a : Fin 4) (an : Anchor) : State :=
  axisLoss a ((retractFrame a (an.n + 1) (predictFrom an u.axes[a].period (an.n + 1)) false 1 u).modAxis a
    (fun x => { x with lastTaken := none }))

theorem caughtNone_aw : AW a (lossAx { retrAx u.axes[a] (predictFrom an u.axes[a].period (an.n + 1)) (an.n + 1) false 1 with
    lastTaken := none }) u (u.caughtNone a an) := by
  have retracted := retract_aw (a := a) (n := an.n + 1) (at_ := predictFrom an u.axes[a].period (an.n + 1)) (real := false)
    (misses := 1) (s := u)
  unfold State.caughtNone axisLoss
  generalize retractFrame a (an.n + 1) (predictFrom an u.axes[a].period (an.n + 1)) false 1 u = v at retracted ⊢
  have untaken := retracted.modAfter (f := fun x => { x with lastTaken := none })
    (fun x z same => by obtain ⟨r, c, rfl⟩ := eq_av same; rfl)
  exact (untaken.modAfter (f := lossAx) (fun x z same => by obtain ⟨r, c, rfl⟩ := eq_av same; rfl)).then raiseAxis_av

theorem caughtNone_facts : framePasses u a an 1 (u.caughtNone a an) ∧
    (u.caughtNone a an).axes[a].losses = u.axes[a].losses + 1 := by
  have same := caughtNone_aw (u := u) (a := a) (an := an)
  obtain ⟨-, -, -, -, -, -, -, -, -, -, -, -, losses, -⟩ := av_facts same.1
  exact ⟨passes_of same rfl rfl rfl rfl, losses⟩

theorem catchTimeout_facts (mode : u.axes[a].cfg.mode = .frame) (state : u.axes[a].state = .confirmed)
    (anchor : u.axes[a].anchor = some an) (none : u.axes[a].pendIdx = [])
    (passed : tnotBefore u.cycle (tadd (predictFrom an u.axes[a].period (an.n + 1)) (u.axes[a].inForce.catchTu + 960000)) = true) :
    (catchTimeout a u).axes[a].losses = u.axes[a].losses + 1 ∧
      (u.axes[a].inForce.missmax ≠ 1 → framePasses u a an 1 (catchTimeout a u)) ∧
      (u.axes[a].inForce.missmax = 1 →
        (catchTimeout a u).axes[a].state = .lost ∧ (catchTimeout a u).axes[a].anchor = Option.none) := by
  obtain ⟨passes, losses⟩ := caughtNone_facts (u := u) (a := a) (an := an)
  have eq : catchTimeout a u = if u.axes[a].inForce.missmax = 1 then enterLost a false (u.caughtNone a an)
      else u.caughtNone a an := catch_eq mode state anchor none passed
  rw [eq]
  by_cases last : u.axes[a].inForce.missmax = 1
  · rw [if_pos last]
    obtain ⟨lost, gone, lossesKept, -⟩ := enterLost_facts (a := a) false (u.caughtNone a an)
    exact ⟨lossesKept.trans losses, fun not => absurd last not, fun _ => ⟨lost, gone⟩⟩
  · rw [if_neg last]
    exact ⟨losses, fun _ => passes, fun is => absurd is last⟩

theorem reacquirePass_facts (mode : u.axes[a].cfg.mode = .frame) (state : u.axes[a].state = .reacquire)
    (anchor : u.axes[a].anchor = some an) (none : u.axes[a].pendIdx = [])
    (passed : tnotBefore u.cycle (tadd (predictFrom an u.axes[a].period (an.n + 1)) (u.axes[a].period / 131072 + 960000)) = true) :
    (u.axes[a].misses + 1 < u.axes[a].inForce.missmax →
        framePasses u a an (u.axes[a].misses + 1) (reacquirePass a u)) ∧
      (u.axes[a].inForce.missmax ≤ u.axes[a].misses + 1 → (reacquirePass a u).axes[a].state = .lost ∧
        (reacquirePass a u).axes[a].anchor = Option.none ∧ (reacquirePass a u).axes[a].losses = u.axes[a].losses + 1) := by
  have retracted := retract_aw (a := a) (n := an.n + 1) (at_ := predictFrom an u.axes[a].period (an.n + 1)) (real := false)
    (misses := u.axes[a].misses + 1) (s := u)
  have eq := pass_eq mode state anchor none passed
  dsimp only at eq
  generalize retractFrame a (an.n + 1) (predictFrom an u.axes[a].period (an.n + 1)) false (u.axes[a].misses + 1) u = v
    at retracted eq
  rw [eq]
  refine ⟨fun more => ?_, fun last => ?_⟩
  · rw [if_neg (by omega)]
    exact passes_of retracted rfl rfl rfl rfl
  · rw [if_pos last]
    obtain ⟨-, -, -, -, -, -, -, -, -, -, -, -, losses, -⟩ := av_facts retracted.1
    obtain ⟨lost, gone, counted, -⟩ := enterLost_facts (a := a) true v
    exact ⟨lost, gone, counted.trans (congrArg (· + 1) losses)⟩

end

end Sys2Proof.Machine
end

section
/-! PROOF. INCREMENT and FREE axes, and what every edge does to its axis (R189 to R192, R197, R199, R200, R206 to R208). -/
namespace Sys2Proof.Machine
open Sys2Proof

section
variable {u : State} {a : Fin 4} {t : TimeWord} {rest : List TimeWord} {an : Anchor}

/-! ### Count edges (R206, R207) -/

section
variable {ovr : Bool} {counts : List (TimeWord × Bool)}

/-- One count edge more since the latest index edge. -/
def State.oneMore (s : State) (a : Fin 4) : State := s.modAxis a (fun x => { x with count := x.count + 1 })

theorem oneMore_axis (s : State) : (s.oneMore a).axes[a] = { s.axes[a] with count := s.axes[a].count + 1 } := axis_at s a _

/-- The confirmed axis's edges at the count are emitted, and the counts are too many for the frame (R207). -/
def State.overCounted (s : State) (a : Fin 4) (an : Anchor) (t : TimeWord) (ovr : Bool) : State :=
  axisLoss a ((retractEdges a (fun m => decide (m = an.n)) (emitCount a an.n (s.axes[a].count + 1) t ovr (s.oneMore a))).modAxis a
    (fun x => { x with state := .reacquire, anchor := some { an with real := false }, lastTaken := none }))

theorem countEdge_confirmed {s : State} (state : s.axes[a].state = .confirmed) (anchor : s.axes[a].anchor = some an) :
    countEdge a t ovr s = if s.axes[a].count = s.axes[a].cfg.counts + s.axes[a].cfg.countTol then
      (if s.axes[a].cfg.vals.missmax * s.axes[a].cfg.counts < s.axes[a].count + 1
        then enterLost a false (s.overCounted a an t ovr) else s.overCounted a an t ovr)
      else emitCount a an.n (s.axes[a].count + 1) t ovr (s.oneMore a) := by
  unfold countEdge State.overCounted
  dsimp only
  rw [show s.modAxis a (fun x => { x with count := x.count + 1 }) = s.oneMore a from rfl]
  simp only [oneMore_axis s, state, anchor, Axis.countsOut, decide_eq_true_eq, Nat.add_right_cancel_iff]

theorem countEdge_reacquire {s : State} (state : s.axes[a].state = .reacquire) : countEdge a t ovr s =
    if s.axes[a].cfg.vals.missmax * s.axes[a].cfg.counts < s.axes[a].count + 1
      then enterLost a true (s.oneMore a) else s.oneMore a := by
  unfold countEdge
  dsimp only
  rw [show s.modAxis a (fun x => { x with count := x.count + 1 }) = s.oneMore a from rfl]
  simp only [oneMore_axis s, state, Axis.countsOut, decide_eq_true_eq]

theorem countEdge_other {s : State} (state : s.axes[a].state = .acquire ∨ s.axes[a].state = .lost ∨
    (s.axes[a].state = .confirmed ∧ s.axes[a].anchor = none)) : countEdge a t ovr s = s.oneMore a := by
  unfold countEdge
  dsimp only
  rw [show s.modAxis a (fun x => { x with count := x.count + 1 }) = s.oneMore a from rfl]
  rcases state with state | state | ⟨state, none⟩
  · simp only [oneMore_axis s, state]
  · simp only [oneMore_axis s, state]
  · simp only [oneMore_axis s, state, none]

/-- An axis that a count edge has met: the edge is counted, and the axis is in the state given. -/
def countedTo (u : State) (a : Fin 4) (counts : List (TimeWord × Bool)) (st : AxisState) (w : State) : Prop :=
  w.axes[a].pendCnt = counts ∧ w.axes[a].count = u.axes[a].count + 1 ∧ othersStay a u w ∧ w.axes[a].state = st

theorem countedTo_of {y : Axis} {w : State} (same : AW a y u w) (pending : y.pendCnt = counts)
    (count : y.count = u.axes[a].count + 1) : countedTo u a counts y.state w := by
  obtain ⟨-, -, sameState, -, -, -, -, -, samePend, -, sameCount, -⟩ := av_facts same.1
  exact ⟨samePend.trans pending, sameCount.trans count, others_of same, sameState⟩

theorem countedTo_lost {y : Axis} {v : State} (loss : Bool) (same : AW a y u v) (pending : y.pendCnt = counts)
    (count : y.count = u.axes[a].count + 1) : countedTo u a counts .lost (enterLost a loss v) := by
  obtain ⟨counted, held, -, -⟩ := countedTo_of same pending count
  obtain ⟨lost, -, -, countKept, pendKept⟩ := enterLost_facts (a := a) loss v
  exact ⟨pendKept.trans counted, countKept.trans held, others_of (same.past enterLost_aw), lost⟩

/-- The count edge at the front has left the queue. -/
def State.countTaken (u : State) (a : Fin 4) (rest : List (TimeWord × Bool)) : State :=
  u.modAxis a (fun x => { x with pendCnt := rest })

theorem countTaken_axis : (u.countTaken a counts).axes[a] = { u.axes[a] with pendCnt := counts } := axis_at u a _

theorem oneMore_aw : AW a { u.axes[a] with pendCnt := counts, count := u.axes[a].count + 1 } u
    ((u.countTaken a counts).oneMore a) := by
  have more : AW a _ (u.countTaken a counts) ((u.countTaken a counts).oneMore a) := AW.mod
  rw [countTaken_axis] at more
  exact AW.past (y := { u.axes[a] with pendCnt := counts }) AW.mod more

theorem overCounted_aw (v : State) : AW a (lossAx { v.axes[a] with
    count := v.axes[a].count + 1, state := .reacquire, anchor := some { an with real := false }, lastTaken := none })
    v (v.overCounted a an t ovr) := by
  have more : AW a _ v (v.oneMore a) := AW.mod
  have retracted := more.then (emitCount_av (a := a) (n := an.n) (k := v.axes[a].count + 1) (t := t) (f := ovr)
    |>.trans (retractEdges_av (a := a) (sel := fun m => decide (m = an.n))))
  unfold State.overCounted axisLoss
  generalize retractEdges a _ _ = w at retracted ⊢
  have anchored := retracted.modAfter
    (f := fun x => { x with state := .reacquire, anchor := some { an with real := false }, lastTaken := none })
    (fun x z same => by obtain ⟨r, c, rfl⟩ := eq_av same; rfl)
  exact (anchored.modAfter (f := lossAx) (fun x z same => by obtain ⟨r, c, rfl⟩ := eq_av same; rfl)).then raiseAxis_av

/-- What a count edge does to its axis (R206, R207). -/
theorem countEdge_facts : ∃ st, countedTo u a counts st (countEdge a t ovr (u.countTaken a counts)) ∧
    (u.axes[a].state = .acquire → st = .acquire) ∧
    (u.axes[a].state = .reacquire →
      st = if u.axes[a].cfg.vals.missmax * u.axes[a].cfg.counts < u.axes[a].count + 1 then .lost else .reacquire) ∧
    (∀ an, u.axes[a].state = .confirmed → u.axes[a].anchor = some an → st =
      if u.axes[a].count = u.axes[a].cfg.counts + u.axes[a].cfg.countTol then
        (if u.axes[a].cfg.vals.missmax * u.axes[a].cfg.counts < u.axes[a].count + 1 then .lost else .reacquire)
      else .confirmed) := by
  have here := countTaken_axis (u := u) (a := a) (counts := counts)
  have counted := countedTo_of (oneMore_aw (u := u) (a := a) (counts := counts)) rfl rfl
  cases state : u.axes[a].state with
  | acquire =>
    rw [countEdge_other (.inl (by rw [here]; exact state))]
    exact ⟨_, counted, fun _ => state, by rintro ⟨⟩, by rintro _ ⟨⟩⟩
  | lost =>
    rw [countEdge_other (.inr (.inl (by rw [here]; exact state)))]
    exact ⟨_, counted, by rintro ⟨⟩, by rintro ⟨⟩, by rintro _ ⟨⟩⟩
  | reacquire =>
    rw [countEdge_reacquire (by rw [here]; exact state), here]
    dsimp only
    split
    next _ => exact ⟨_, countedTo_lost true oneMore_aw rfl rfl, by rintro ⟨⟩, fun _ => rfl, by rintro _ ⟨⟩⟩
    next _ => exact ⟨_, counted, by rintro ⟨⟩, fun _ => state, by rintro _ ⟨⟩⟩
  | confirmed =>
    cases anchor : u.axes[a].anchor with
    | none =>
      rw [countEdge_other (.inr (.inr ⟨by rw [here]; exact state, by rw [here]; exact anchor⟩))]
      exact ⟨_, counted, by rintro ⟨⟩, by rintro ⟨⟩, by rintro _ _ ⟨⟩⟩
    | some an =>
      have taken : AW a { u.axes[a] with pendCnt := counts } u (u.countTaken a counts) := AW.mod
      have full := overCounted_aw (a := a) (an := an) (t := t) (ovr := ovr) (u.countTaken a counts)
      rw [countEdge_confirmed (by rw [here]; exact state) (by rw [here]; exact anchor)]
      rw [here] at full ⊢
      dsimp only at full ⊢
      split
      · split
        next _ => exact ⟨_, countedTo_lost false (taken.past full) rfl rfl, by rintro ⟨⟩, by rintro ⟨⟩, fun _ _ _ => rfl⟩
        next _ => exact ⟨_, countedTo_of (taken.past full) rfl rfl, by rintro ⟨⟩, by rintro ⟨⟩, fun _ _ _ => rfl⟩
      · exact ⟨_, countedTo_of (oneMore_aw.then emitCount_av) rfl rfl, by rintro ⟨⟩, by rintro ⟨⟩, fun _ _ _ => state⟩

end

end

end Sys2Proof.Machine
end

section
/-! PROOF. Index edges of an INCREMENT axis, and what every edge does to its axis (R189 to R192, R197, R199, R200, R206 to
R208). -/
namespace Sys2Proof.Machine
open Sys2Proof

section
variable {v : State} {a : Fin 4} {t : TimeWord} {an : Anchor}

/-! ### Index edges of an INCREMENT axis (R189, R207) -/

theorem joinEdge_av : AV v (joinEdge a t v) := by
  refine eachAV (fun k s => ?_) v
  dsimp only
  split
  · exact .ite AV.cluster (.refl _)
  · exact .refl _

/-- The edge is raised. -/
def State.edgeRaised (v : State) (a : Fin 4) (t : TimeWord) : State :=
  raiseAxis a 0 (v.modAxis a (fun x => { x with lastTaken := some t }))

theorem edgeRaised_aw : AW a { v.axes[a] with lastTaken := some t } v (v.edgeRaised a t) := AW.mod.then raiseAxis_av

/-- Frame n is anchored at the edge. -/
def State.anchored (s : State) (a : Fin 4) (t : TimeWord) (n : Frame) (st : AxisState) : State :=
  s.modAxis a (fun x => { x with anchor := some ⟨t, n, true⟩, state := st, count := 0, misses := 0 })

theorem anchored_aw {s : State} {y : Axis} {n : Frame} {st : AxisState} (same : AW a y v s) :
    AW a { y with anchor := some ⟨t, n, true⟩, state := st, count := 0, misses := 0 } v (s.anchored a t n st) :=
  same.modAfter (f := fun x => { x with anchor := some ⟨t, n, true⟩, state := st, count := 0, misses := 0 })
    (fun x z same => by obtain ⟨r, c, rfl⟩ := eq_av same; rfl)

/-- The edge, with a slip counted unless the count fits (R207). -/
def State.slipped (v : State) (a : Fin 4) (t : TimeWord) (fits : Bool) : State :=
  if fits then v.edgeRaised a t else raiseAxis a 5 ((v.edgeRaised a t).modAxis a (fun x => { x with slips := x.slips + 1 }))

theorem slipped_aw (fits : Bool) : AW a { v.axes[a] with
    lastTaken := some t, slips := if fits then v.axes[a].slips else v.axes[a].slips + 1 } v (v.slipped a t fits) := by
  have raised := edgeRaised_aw (v := v) (a := a) (t := t)
  cases fits with
  | true => exact raised
  | false =>
    exact (raised.modAfter (f := fun x => { x with slips := x.slips + 1 })
      (fun x z same => by obtain ⟨r, c, rfl⟩ := eq_av same; rfl)).then raiseAxis_av

theorem incrementEdge_confirmed (state : v.axes[a].state = .confirmed) (anchor : v.axes[a].anchor = some an) :
    incrementEdge a t v = joinEdge a t (emitCount a (an.n + 1) 0 t false (wrapAt a (an.n + 1)
      ((retractEdges a (fun m => decide (fdiff m (an.n + 1) < 0)) (v.slipped a t v.axes[a].countFits)).anchored a t (an.n + 1)
        .confirmed))) := by
  unfold incrementEdge
  simp only [state, anchor]
  rfl

theorem incrementEdge_confirmed_aw (state : v.axes[a].state = .confirmed) (anchor : v.axes[a].anchor = some an) :
    AW a { v.axes[a] with
      lastTaken := some t, slips := if v.axes[a].countFits then v.axes[a].slips else v.axes[a].slips + 1,
      anchor := some ⟨t, an.n + 1, true⟩, state := .confirmed, count := 0, misses := 0 } v (incrementEdge a t v) := by
  rw [incrementEdge_confirmed state anchor]
  have slipped := (slipped_aw (v := v) (a := a) (t := t) v.axes[a].countFits).then
    (retractEdges_av (a := a) (sel := fun m => decide (fdiff m (an.n + 1) < 0)))
  exact (((anchored_aw slipped).then wrapAt_av).then emitCount_av).then joinEdge_av

/-- An edge that confirms the acquisition: the count between the two edges fits (R189). -/
theorem incrementEdge_acquires (state : v.axes[a].state = .acquire) (begun : v.axes[a].acquired ≠ [])
    (fits : v.axes[a].countFits = true) : AW a { v.axes[a] with
      lastTaken := some t, acquired := [], anchor := some ⟨t, v.axes[a].cfg.firstFrame, true⟩, state := .confirmed, count := 0,
      misses := 0 } v (incrementEdge a t v) := by
  have eq : incrementEdge a t v = joinEdge a t (resolveWaiting a (emitCount a v.axes[a].cfg.firstFrame 0 t false (raiseAxis a 1
      (((v.edgeRaised a t).modAxis a (fun x => { x with acquired := [] })).anchored a t v.axes[a].cfg.firstFrame
        .confirmed)))) := by
    have ready : (!v.axes[a].acquired.isEmpty && v.axes[a].countFits) = true := by
      rw [fits, Bool.and_true, Bool.not_eq_true', List.isEmpty_eq_false_iff]
      exact begun
    unfold incrementEdge
    simp only [state, ready, if_true]
    rfl
  rw [eq]
  have cleared := (edgeRaised_aw (v := v) (a := a) (t := t)).modAfter (f := fun x => { x with acquired := [] })
    (fun x z same => by obtain ⟨r, c, rfl⟩ := eq_av same; rfl)
  exact ((((anchored_aw cleared).then raiseAxis_av).then emitCount_av).then resolveWaiting_av).then joinEdge_av

theorem incrementEdge_begins (state : v.axes[a].state = .acquire)
    (not : v.axes[a].countFits = false ∨ v.axes[a].acquired = []) : AW a { v.axes[a] with
      lastTaken := some t, acquired := [t], count := 0 } v (incrementEdge a t v) := by
  have eq : incrementEdge a t v = joinEdge a t ((v.edgeRaised a t).modAxis a (fun x => { x with acquired := [t], count := 0 })) := by
    have ready : (!v.axes[a].acquired.isEmpty && v.axes[a].countFits) = false := by
      rcases not with h | h
      · rw [h, Bool.and_false]
      · rw [h]; rfl
    unfold incrementEdge
    simp only [state, ready, Bool.false_eq_true, if_false]
    rfl
  rw [eq]
  exact ((edgeRaised_aw (v := v) (a := a) (t := t)).modAfter (f := fun x => { x with acquired := [t], count := 0 })
    (fun x z same => by obtain ⟨r, c, rfl⟩ := eq_av same; rfl)).then joinEdge_av

theorem countFits_iff (x : Axis) : x.countFits = true ↔
    x.count ≤ x.cfg.counts + x.cfg.countTol ∧ x.cfg.counts ≤ x.count + x.cfg.countTol := by
  unfold Axis.countFits
  rw [decide_eq_true_eq, and_comm]

theorem indexEdge_increment {u : State} {rest : List TimeWord} (front : u.axes[a].pendIdx = t :: rest)
    (first : ∀ c ∈ u.axes[a].pendCnt, tnotBefore t c.1 = false) (mode : u.axes[a].cfg.mode = .increment)
    (state : u.axes[a].state ≠ .reacquire) : indexEdge a u = incrementEdge a t (u.taken a rest) := by
  unfold indexEdge
  simp only [front, mode]
  refine (if_neg ?_).trans rfl
  simp only [state, decide_false, Bool.false_and, Bool.or_false]
  split
  next c flagged more counts =>
    exact Bool.eq_false_iff.1 (first (c, flagged) (by rw [counts]; exact List.mem_cons_self ..))
  · exact Bool.false_ne_true

end

/-! ### Acquisition of a FRAME axis (R189) -/

section
variable {u : State} {a : Fin 4} {t : TimeWord} {rest : List TimeWord}

/-- The usable index edge at the front of an axis that acquires. -/
def State.acquires (u : State) (a : Fin 4) (t : TimeWord) (rest : List TimeWord) : State :=
  u.modAxis a (fun x => { x with pendIdx := rest, lastTaken := some t })

theorem acquires_axis : (u.acquires a t rest).axes[a] = { u.axes[a] with pendIdx := rest, lastTaken := some t } := axis_at u a _

theorem acquireEdge_lost (none : u.axes[a].acquired = []) : acquireEdge a t (u.acquires a t rest) =
    raise (evAxis a 0) Flags.none { u with axes := u.axes.set a { u.axes[a] with
      pendIdx := rest, lastTaken := some t, state := .acquire, acquired := [t] } } := by
  have here := acquires_axis (u := u) (a := a) (t := t) (rest := rest)
  rw [acquireEdge_first (by rw [here]; exact none), here]
  unfold State.acquires
  rw [axis_twice, axis_set]
  rfl

theorem acquireEdge_interval {t1 : TimeWord} (state : u.axes[a].state = .acquire) (one : u.axes[a].acquired = [t1]) :
    acquireEdge a t (u.acquires a t rest) = raise (evAxis a 0) Flags.none { u with axes := u.axes.set a (
      if (tdiff t t1 - u.axes[a].cfg.period).natAbs * 1000000 ≤ u.axes[a].cfg.period * u.axes[a].cfg.vals.pull then
        { u.axes[a] with pendIdx := rest, lastTaken := some t, acquired := [t1, t], period := tdiff t t1 * 65536 }
      else { u.axes[a] with pendIdx := rest, lastTaken := some t, acquired := [t] }) } := by
  have here := acquires_axis (u := u) (a := a) (t := t) (rest := rest)
  rw [acquireEdge_second (by rw [here]; exact one), here]
  unfold State.acquires
  rw [axis_twice, axis_set, ← state]
  rfl

end

/-! ### What edges and their absence do -/

/-- Settles O48. -/
theorem axesFollowTheirEdges : Obligations.AxesFollowTheirEdges := by
  unfold Obligations.AxesFollowTheirEdges
  intro s d a u x others
  refine ⟨fun t rest front first mode => ⟨fun lost none => ?_, fun t1 acquire one => ?_, fun t1 t2 acquire two => ?_, fun an anchor => ?_⟩,
    fun an mode anchor none => ?_, fun t ovr rest front noIndex mode => ?_, fun t rest front first mode => ?_,
    fun an mode state anchor => ?_⟩
  · exact next_congr ((index_acq front first mode (.inr lost)).trans (acquireEdge_lost none))
  · exact next_congr ((index_acq front first mode (.inl acquire)).trans (acquireEdge_interval acquire one))
  · have here := acquires_axis (u := u) (a := a) (t := t) (rest := rest)
    have third := acquire_third (a := a) (t := t) (s := u.acquires a t rest) (by rw [here]; exact two)
    have taken : AW a _ u (u.acquires a t rest) := AW.mod
    rw [here] at third
    obtain ⟨near, far⟩ := third
    refine ⟨fun caught => ?_, fun missed => ?_⟩
    · obtain ⟨y, same, state, anchor, pending⟩ := near caught
      obtain ⟨-, -, sameState, sameAnchor, -, -, -, samePend, -⟩ := av_facts same.1
      exact ⟨_, next_congr (index_acq front first mode (.inl acquire)), sameState.trans state, sameAnchor.trans anchor,
        samePend.trans pending, others_of (taken.past same)⟩
    · obtain ⟨y, same, state, acquired, pending⟩ := far missed
      obtain ⟨-, -, sameState, -, -, -, sameAcquired, samePend, -⟩ := av_facts same.1
      exact ⟨_, next_congr (index_acq front first mode (.inl acquire)), sameState.trans state, sameAcquired.trans acquired,
        samePend.trans pending, others_of (taken.past same)⟩
  · have here := taken_axis (u := u) (a := a) (rest := rest)
    have anchored : (u.taken a rest).axes[a].anchor = some an := by rw [here]; exact anchor
    intro n p e good late
    refine ⟨fun state => ⟨fun beyond => ?_, fun caught far => ?_, fun caught near => ?_⟩,
      fun state opened => ⟨fun real caught => ?_, fun lone => ?_⟩⟩
    · exact next_congr ((index_conf front first mode state).trans
        (edge_gone (s := u.taken a rest) anchored (by rw [here]; exact beyond)))
    · obtain ⟨retracts, slips⟩ := confirmedEdge_late (rest := rest) anchor caught far
      exact ⟨_, next_congr (index_conf front first mode state), retracts, slips⟩
    · exact ⟨_, next_congr ((index_conf front first mode state).trans
        (edge_good (s := u.taken a rest) anchored (by rw [here]; exact caught) (by rw [here]; exact near))),
        confirmFrame_confirms anchor false⟩
    · have reac := index_reac front first mode state (by rw [anchor]; exact Option.some_ne_none _)
      exact ⟨_, next_congr (reac.trans (reac_good (s := u.taken a rest) anchored (by rw [here]; exact opened) real
        (by rw [here]; exact caught))), confirmFrame_confirms anchor true⟩
    · have reac := index_reac front first mode state (by rw [anchor]; exact Option.some_ne_none _)
      exact ⟨_, next_congr reac, reacquireEdge_late anchor opened lone⟩
  · intro n p passed
    refine ⟨fun state over_ => ⟨_, rfl, catchTimeout_facts mode state anchor none over_⟩,
      fun state over_ => ⟨_, rfl, reacquirePass_facts mode state anchor none over_⟩⟩
  · obtain ⟨st, ⟨pending, count, others, state⟩, acquire, reacquire, confirmed⟩ :=
      countEdge_facts (u := u) (a := a) (t := t) (ovr := ovr) (counts := rest)
    exact ⟨_, next_congr (count_eq front noIndex mode), pending, count, others, fun h => state.trans (acquire h),
      fun h => state.trans (reacquire h), fun an h1 h2 => state.trans (confirmed an h1 h2)⟩
  · have here := taken_axis (u := u) (a := a) (rest := rest)
    intro fits
    have fitsIff : (u.taken a rest).axes[a].countFits = true ↔ fits := by rw [here]; exact countFits_iff x
    refine ⟨fun an state anchor => ?_, fun state => ?_⟩
    · have same := incrementEdge_confirmed_aw (v := u.taken a rest) (a := a) (t := t) (an := an) (by rw [here]; exact state)
        (by rw [here]; exact anchor)
      have slips : (if (u.taken a rest).axes[a].countFits = true then x.slips else x.slips + 1) =
          if fits then x.slips else x.slips + 1 := ite_of_iff fitsIff rfl rfl
      rw [← slips]
      generalize (u.taken a rest).axes[a].countFits = counted at same
      rw [here] at same
      obtain ⟨-, -, sameState, sameAnchor, -, -, -, samePend, -, -, sameCount, sameSlips, -⟩ := av_facts same.1
      exact ⟨_, next_congr (indexEdge_increment front first mode (by rw [state]; exact AxisState.noConfusion)), sameState, sameAnchor,
        sameCount, sameSlips, samePend, taken_others same⟩
    · have met := indexEdge_increment front first mode (by rw [state]; exact AxisState.noConfusion)
      have acquires : (u.taken a rest).axes[a].state = .acquire := by rw [here]; exact state
      by_cases ready : fits ∧ x.acquired ≠ []
      · have same := incrementEdge_acquires (v := u.taken a rest) (t := t) acquires (by rw [here]; exact ready.2)
          (fitsIff.2 ready.1)
        rw [here] at same
        obtain ⟨-, -, sameState, sameAnchor, -, -, -, samePend, -, -, sameCount, -⟩ := av_facts same.1
        refine ⟨_, next_congr met, sameCount, samePend, taken_others same, fun _ _ => ⟨sameState, sameAnchor⟩, fun not => ?_⟩
        rcases not with unfit | none
        · exact absurd ready.1 unfit
        · exact absurd none ready.2
      · have not : ¬ fits ∨ x.acquired = [] := by
          by_cases fit : fits
          · exact .inr (Classical.byContradiction fun some => ready ⟨fit, some⟩)
          · exact .inl fit
        have same := incrementEdge_begins (v := u.taken a rest) (t := t) acquires
          (not.imp (fun unfit => Bool.eq_false_iff.2 (fun fit => unfit (fitsIff.1 fit))) (fun none => by rw [here]; exact none))
        rw [here] at same
        obtain ⟨-, -, sameState, -, -, -, sameAcquired, samePend, -, -, sameCount, -⟩ := av_facts same.1
        exact ⟨_, next_congr met, sameCount, samePend, taken_others same, fun fit some => absurd ⟨fit, some⟩ ready,
          fun _ => ⟨sameState.trans state, sameAcquired⟩⟩
  · intro next start over_
    have nextEq : x.nextFrame an.n = next := by
      unfold Axis.nextFrame
      rw [decide_eq_true mode, Bool.true_and]
      exact ite_of_iff decide_eq_true_iff rfl rfl
    have begins := free_start (s := u) (a := a) (an := an) mode state anchor (by
      rw [show u.axes[a].nextFrame an.n = next from nextEq]
      exact over_)
    rw [show u.axes[a].nextFrame an.n = next from nextEq] at begins
    exact next_congr begins

end Sys2Proof.Machine
end

section
/-! PROOF. Entries are committed, pad triggers are decided and staged tones change (R194, R214 to R217, R223, R229, R232, R314,
R353, R400). -/
namespace Sys2Proof.Machine
open Sys2Proof

/-! ### Commitment (R194, R223, R314, R353, R400) -/

theorem commitJoin_fix {u : State} {k : Fin 8} {a : Fin 4} {n : Frame} {o : Nat} {j : TimeWord}
    (fix : u.clusters[k].fix = some (.axis a n o j true false)) :
    SameBut [.clusters] u (commitJoin k u) ∧
      (commitJoin k u).clusters[k].fix = some (.axis a n o j true (decide (tdiff j u.cycle < 160000))) := by
  have near : u.isCommitted j = decide (tdiff j u.cycle < 160000) := rfl
  rw [← near]
  cases committed : u.isCommitted j with
  | true =>
    obtain ⟨provisional, eq⟩ := commitJoin_yes fix committed
    rw [eq]
    exact ⟨modCluster_same, congrArg Cluster.fix (cluster_at u k _)⟩
  | false =>
    rw [commitJoin_no fix committed]
    exact ⟨.refl _ _, fix⟩

theorem commitAlign_waiting {u : State} {g : Fin 8} {a : Fin 4} {o : Nat} {n : Frame} {b : TimeWord}
    (waiting : u.groups[g].waiting = some (.align a o (some n) (some b) false)) :
    SameBut [.groups] u (commitAlign g u) ∧ (commitAlign g u).groups[g].waiting =
      some (.align a o (some n) (some b) (decide (tdiff b u.cycle < 160000))) := by
  have near : u.isCommitted b = decide (tdiff b u.cycle < 160000) := rfl
  rw [← near]
  cases committed : u.isCommitted b with
  | true =>
    obtain ⟨provisional, eq⟩ := commitAlign_yes waiting committed
    rw [eq]
    refine ⟨?_, congrArg Group.waiting (group_at u g _)⟩
    intro part other
    cases part <;> simp at other <;> rfl
  | false =>
    rw [commitAlign_no waiting committed]
    exact ⟨.refl _ _, waiting⟩

theorem commitPort_queue (u : State) (p : Fin 64) (c : TimeWord) :
    (commitPort p c u).ports[p].queue = u.ports[p].queue.map (commitPulse u p c) :=
  congrArg Port.queue (modPort_at u p _)

theorem commitPort_entry {u : State} {p : Fin 64} {i : Nat} {x : Pulse} {l : TimeWord} (here : u.ports[p].queue[i]? = some x)
    (lead : x.lead = some l) (free : x.axisFrame = none) (c : TimeWord) :
    (commitPort p c u).ports[p].queue[i]? = some (if x.committed = false ∧ tdiff l c < 160000 then
      { x with committed := true, dtc := u.ports[p].dtcAt l, dtcTrail := u.ports[p].dtcAt x.trail } else x) := by
  rw [commitPort_queue, List.getElem?_map, here, Option.map_some, commit_free lead free]

/-! ### Pad triggers (R214 to R217, R229) -/

section
variable {u : State} {p : Fin 64} {t : PadTrig} {rest : List PadTrig}

/-- The pad trigger at the front leaves the queue. -/
def State.padTaken (u : State) (p : Fin 64) (rest : List PadTrig) : State := u.modPort p (fun q => { q with pads := rest })

theorem decidePad_front (pads : u.ports[p].pads = t :: rest) : decidePad p u =
    decideTrigger p (u.ports[p].armedAt t.instant) (u.refuses t) (padTrigger t) (u.padTaken p rest) := by
  unfold decidePad
  rw [pads]
  rfl

theorem decideTrigger_off {armed refused : Bool} {x : Trigger} (off : armed = false ∨ u.portActive p = false) :
    decideTrigger p armed refused x u = u := by
  unfold decideTrigger
  exact if_pos (by rcases off with h | h <;> simp [h])

theorem refuses_iff : u.refuses t = true ↔
    match t.source with | some r => u.ovdAt r t.instant = true ∨ u.nbrAt r t.instant = true | none => False := by
  unfold State.refuses
  cases t.source with
  | none => exact iff_of_false Bool.false_ne_true id
  | some r => exact Bool.or_eq_true _ _ ▸ Iff.rfl

variable {x : Trigger} (mode : u.ports[p].cfg.mode = .pulse) (active : u.portActive p = true)
include mode active

theorem decideTrigger_refused {refused : Bool} (no : refused = true ∨ 64 ≤ u.ports[p].queue.length) :
    decideTrigger p true refused x u = miss p x.flags u := by
  unfold decideTrigger
  rw [active, if_neg (by rw [mode]; decide)]
  refine if_pos ?_
  rcases no with refuses | full
  · rw [refuses]; rfl
  · rw [decide_eq_true full, Bool.or_true]

theorem decideTrigger_places (room : u.ports[p].queue.length < 64) (noWindow : u.windowOf p = none)
    (free : ∀ y ∈ u.ports[p].queue, y.conflicts 8000 (tadd x.instant x.delay) (tadd (tadd x.instant x.delay) x.width) = false)
    (gap : gapHeld 8000 u.ports[p].lastTrail (tadd x.instant x.delay) = false) :
    decideTrigger p true false x u =
      accepted p x (addPulse p (newPulse x (tadd x.instant x.delay) x.width false) u) := by
  have gapEq : gapOf u.ports[p].cfg.mode = 8000 := by rw [mode]; rfl
  have clash : (u.ports[p].queue.any
      (fun y => y.conflicts 8000 (tadd x.instant x.delay) (tadd (tadd x.instant x.delay) x.width)) ||
      gapHeld 8000 u.ports[p].lastTrail (tadd x.instant x.delay)) = false := by
    rw [gap, Bool.or_false, List.any_eq_false]
    exact fun y queued => Bool.eq_false_iff.1 (free y queued)
  unfold decideTrigger
  rw [active, if_neg (by rw [mode]; decide), decide_eq_false (by omega), if_neg (by decide)]
  dsimp only
  rw [no_intrude noWindow]
  unfold placeTriggered
  dsimp only
  rw [gapEq, clash, no_intrude noWindow]
  rfl

end

section
variable {u : State} {p : Fin 64} {t : PadTrig} {rest : List PadTrig}

theorem padTaken_port : (u.padTaken p rest).ports[p] = { u.ports[p] with pads := rest } := modPort_at u p _

/-- A pad trigger that nothing refuses places its pulse, and disarms a port with REARM ONCE (R215, R229). -/
theorem accepted_padTaken (x : Trigger) (y : Pulse) : accepted p x (addPulse p y (u.padTaken p rest)) =
    { u with ports := u.ports.set p (
      let z := { u.ports[p] with pads := rest, queue := u.ports[p].queue ++ [y] }
      if u.ports[p].cfg.once then z.setArmed x.instant false else z) } := by
  unfold accepted addPulse State.padTaken
  rw [port_twice, port_twice]
  rfl

end

/-! ### Staged tone changes (R232) -/

theorem toneTick_staged {u : State} {p : Fin 64} {t : TimeWord} (staged : stagedTick u.ports[p].cfg.toneAt = some t) :
    toneTick p u = if tnotBefore u.tb.now t then changeFtw p u.ports[p].cfg.ftwNext t
      (u.modPort p (fun q => { q with cfg := { q.cfg with toneAt := .none } })) else u := by
  unfold toneTick
  dsimp only
  rw [staged]

theorem padTrigger_row {s : State} {d : Nat} {p : Fin 64} {t : PadTrig} {rest : List PadTrig}
    (pads : (s.elapse d).ports[p].pads = t :: rest) : exec (.padTrigger d p) s = .next (
      if tnotBefore (s.elapse d).tb.now (tadd t.instant 20000) then decidePad p (s.elapse d) else s.elapse d) := by
  refine next_congr (s := match (s.elapse d).ports[p].pads with
    | t :: _ => if tnotBefore (s.elapse d).tb.now (tadd t.instant lookBackTu) then decidePad p (s.elapse d) else s.elapse d
    | [] => s.elapse d) ?_
  rw [pads]
  rfl

/-- Settles O50. -/
theorem portsCommitAndTrigger : Obligations.PortsCommitAndTrigger := by
  unfold Obligations.PortsCommitAndTrigger
  intro s d p u q c
  refine ⟨⟨_, rfl, modPort_same, fun b other => port_other u p b _ other, ?_, fun i x l here lead free => ?_⟩,
    fun k a n o j fix => ⟨_, rfl, commitJoin_fix fix⟩, fun g a o n b waiting => ⟨_, rfl, commitAlign_waiting waiting⟩,
    fun t rest pads => ⟨fun early => ?_, fun known => ?_⟩, fun t staged => ?_⟩
  · exact (congrArg List.length (commitPort_queue u p c)).trans (List.length_map ..)
  · exact commitPort_entry here lead free c
  · exact (padTrigger_row pads).trans (next_congr (if_neg (by rw [early]; decide)))
  · have row : exec (.padTrigger d p) s = .next (decideTrigger p (q.armedAt t.instant) (u.refuses t) (padTrigger t)
        (u.padTaken p rest)) := (padTrigger_row pads).trans (next_congr ((if_pos known).trans (decidePad_front pads)))
    have here : (u.padTaken p rest).ports[p] = { q with pads := rest } := padTaken_port
    intro l v refused
    refine ⟨fun off => ?_, fun mode active armed no => ?_, fun mode active armed fine room noWindow free gap => ?_⟩
    · exact row.trans (next_congr (decideTrigger_off off))
    · rw [row, armed]
      exact next_congr (decideTrigger_refused (u := u.padTaken p rest) (by rw [here]; exact mode) active
        (by rw [here]; exact no.imp_left refuses_iff.2))
    · intro by_ x y
      have passes : u.refuses t = false := Bool.eq_false_iff.2 (fun no => fine (refuses_iff.1 no))
      rw [row, armed, passes]
      refine next_congr ((decideTrigger_places (u := u.padTaken p rest) (x := padTrigger t) (by rw [here]; exact mode) active
        (by rw [here]; exact room) noWindow (by rw [here]; exact free) (by rw [here]; exact gap)).trans ?_)
      exact accepted_padTaken (padTrigger t) x
  · intro y
    refine ⟨fun now => ?_, fun early => ?_⟩
    · refine next_congr (((toneTick_staged staged).trans (if_pos now)).trans ?_)
      unfold changeFtw
      dsimp only
      rw [port_twice]
      rfl
    · exact next_congr ((toneTick_staged staged).trans (if_neg (by rw [early]; decide)))

end Sys2Proof.Machine
end

section
/-! PROOF. Conversions, stamp records, over-range and trigger inputs (R239 to R257, R278, R354, R358). -/
namespace Sys2Proof.Machine
open Sys2Proof

/-! ### Conversions (R241 to R246, R251, R354, R358) -/

/-- R243, R244, R248: an edge that the port converts on the present tick. -/
def Converts (u : State) (p : Fin 64) (t : TableSet) (own : Option EchoEdge) (falling : Bool) (stop : TimeWord) (code : Nat)
    (uv : Int) : Prop :=
  u.converting p = true ∧ (u.selects p (if falling then Sense.fall else .rise) = true ∨ own ≠ none) ∧
    u.detects p t falling uv = true ∧ code < 384 ∧ tnotBefore u.tb.now stop = true ∧
    stop.toNat % 4000 = u.tb.now.toNat % 4000

section
variable {u : State} {p : Fin 64} {t : TableSet} {falling : Bool} {stop : TimeWord} {code : Nat} {uv : Int}

theorem convert_not (table : u.ports[p].table = some t)
    (not : ¬ Converts u p t (takeEmitted (falling == u.ports[p].cfg.invert) u.ports[p].emitted).1 falling stop code uv) :
    convert p falling stop code uv u = u := by
  unfold convert
  dsimp only
  rw [table]
  refine if_pos ?_
  rw [Bool.not_eq_true', Bool.eq_false_iff]
  intro live
  simp only [Bool.and_eq_true, Bool.or_eq_true, decide_eq_true_eq, Option.isSome_iff_ne_none] at live
  obtain ⟨⟨⟨⟨⟨converting, selects⟩, detects⟩, coded⟩, past⟩, phase⟩ := live
  exact not ⟨converting, selects, detects, coded, past, phase⟩

/-- The conversion of an edge at the pads (R241). -/
def convOf (q : Port) (own : Option EchoEdge) (sense : Sense) (stop : TimeWord) (code : Nat) (edge : TimeWord) : Conv :=
  ⟨stop, code, edge, sense, if q.cfg.pair = true ∧ 0 < q.q then some q.q else none, q.cfg.mode = .echo ∨ own ≠ none, own ≠ none,
    own.elim false (fun e => e.late), own.elim Flags.none (fun e => e.flags)⟩

/-- R244, R354, R358: the time word of a conversion, from the code and the tables. -/
theorem convTime_eq (q : Port) : convTime t stop code falling (if q.cfg.pair = true ∧ 0 < q.q then some q.q else none) =
    tadd stop (-(if q.cfg.pair = true ∧ 0 < q.q then 400 + divEven (((t.d.getD code 0 : Int) - 400) * (t.qref : Int)) q.q
      else t.d.getD code 0) - (if falling then t.fallSkew else 0)) := by
  unfold convTime codeDelay
  by_cases paired : q.cfg.pair = true ∧ 0 < q.q
  · obtain ⟨k, eq⟩ := Nat.exists_eq_succ_of_ne_zero (Nat.ne_of_gt paired.2)
    rw [if_pos paired, if_pos paired, eq]
  · rw [if_neg paired, if_neg paired]

theorem convert_now (table : u.ports[p].table = some t)
    (live : Converts u p t (takeEmitted (falling == u.ports[p].cfg.invert) u.ports[p].emitted).1 falling stop code uv) :
    let q := u.ports[p]
    let own := takeEmitted (falling == q.cfg.invert) q.emitted
    let sense := if falling then Sense.fall else .rise
    let edge := convTime t stop code falling (if q.cfg.pair = true ∧ 0 < q.q then some q.q else none)
    let c := convOf q own.1 sense stop code edge
    let port (x : Port) : State := { u with ports := u.ports.set p x }
    convert p falling stop code uv u =
      if (match q.lastConv with | some l => decide ((tdiff edge l).natAbs < deadTu q.cfg.pair) | none => false) = true then
        miss p Flags.none (port { q with emitted := own.2 })
      else if 4 ≤ q.stage.length then miss p Flags.none (port { q with emitted := own.2, lastConv := some edge })
      else if c.echo = true then port { q with emitted := own.2, lastConv := some edge, stage := q.stage ++ [c] }
      else padEdges (.port p) sense edge (port { q with emitted := own.2, lastConv := some edge, stage := q.stage ++ [c] }) := by
  intro q own sense edge c port
  obtain ⟨converting, selects, detects, coded, past, phase⟩ := live
  have pairs : (if q.cfg.pair && decide (0 < q.q) then some q.q else none) =
      if q.cfg.pair = true ∧ 0 < q.q then some q.q else none := ite_of_iff (by simp) rfl rfl
  have conv := convert_eq table (r := own) rfl converting
    (by rw [Bool.or_eq_true, Option.isSome_iff_ne_none]; exact selects) detects coded past phase pairs
  have same : c = ⟨stop, code, edge, sense, if q.cfg.pair = true ∧ 0 < q.q then some q.q else none,
      decide (q.cfg.mode = .echo) || own.1.isSome, own.1.isSome, (match own.1 with | some e => e.late | none => false),
      (match own.1 with | some e => e.flags | none => Flags.none)⟩ := by
    show convOf q own.1 sense stop code edge = _
    unfold convOf
    cases own.1 <;> simp
  rw [same]
  exact conv

end

/-- R246: the conversion falls in the dead time of the one before. -/
theorem dead_iff (last : Option TimeWord) (edge : TimeWord) (pair : Bool) :
    (match last with | some l => decide ((tdiff edge l).natAbs < deadTu pair) | none => false) = true ↔
      ∃ l, last = some l ∧ ((tdiff edge l).natAbs : Int) < if pair then 96000 else 16000 := by
  cases last with
  | none => exact iff_of_false Bool.false_ne_true (fun ⟨_, found, _⟩ => nomatch found)
  | some l =>
    simp only [decide_eq_true_eq, Option.some.injEq, exists_eq_left']
    rfl

/-! ### The formatter (R247, R248, R254) -/

section
variable {u : State} {p : Fin 64} {c : Conv}

theorem formatterReady_iff (q : Port) (now : TimeWord) : formatterReady q c now = true ↔
    20000 ≤ tdiff now c.edge ∧ ∀ w, q.taken = some w → 40000 ≤ (tdiff now w).natAbs := by
  unfold formatterReady
  rw [Bool.and_eq_true, decide_eq_true_eq]
  refine and_congr Iff.rfl ?_
  cases q.taken with
  | none => exact iff_of_true rfl (fun _ => nofun)
  | some w =>
    simp only [decide_eq_true_eq, Option.some.injEq, forall_eq']
    show (40000 : Int) ≤ _ ↔ _
    omega

theorem recorded_iff (q : Port) (cfg : u.ports[p].cfg = q.cfg) : u.recorded p c = true ↔
    stampModes q.cfg.mode = true ∧ q.cfg.record = true ∧ senseIn q.cfg.stampEdge c.sense = true := by
  unfold State.recorded
  dsimp only
  rw [cfg, Bool.and_eq_true, Bool.and_eq_true, and_assoc]

theorem gateConv_drops (stamp : c.echo = false) (not : u.recorded p c = false) : gateConv p c u = u := by
  unfold gateConv
  rw [stamp, not]
  rfl

theorem gateConv_waits (stamp : c.echo = false) (recorded : u.recorded p c = true) (gated : u.ports[p].cfg.gateSrc ≠ none)
    (none : u.ports[p].gated = []) :
    gateConv p c u = { u with ports := u.ports.set p { u.ports[p] with gated := [c] } } := by
  have waits : (u.ports[p].cfg.gateSrc.isSome || !u.ports[p].gated.isEmpty) = true := by
    rw [Option.isSome_iff_ne_none.2 gated, Bool.true_or]
  have appended : u.ports[p].gated ++ [c] = [c] := by rw [none, List.nil_append]
  unfold gateConv
  dsimp only
  rw [stamp, recorded, waits]
  conv => rhs; rw [← appended]
  rfl

theorem stage_of_ports {v w : State} (same : w.ports = v.ports) : w.ports[p].stage = v.ports[p].stage := by rw [same]

theorem modPort_stage {f : Port → Port} (keeps : ∀ q, (f q).stage = q.stage) :
    (u.modPort p f).ports[p].stage = u.ports[p].stage :=
  (congrArg Port.stage (modPort_at u p f)).trans (keeps _)

/-- What a formed record leaves of its port: what waits in the stage (R241). -/
theorem formConv_stage : (formConv p c u).ports[p].stage = u.ports[p].stage := by
  unfold formConv
  dsimp only
  split
  · unfold miss missAt
    split
    · exact (stage_of_ports (raiseAt_same .ports (by decide))).trans (modPort_stage (fun _ => rfl))
    · rfl
  · split
    · exact (stage_of_ports (raisePortAt_same .ports (by decide))).trans (modPort_stage (fun _ => rfl))
    · exact modPort_stage (fun _ => rfl)

theorem formatNext_nothing (none : u.ports[p].stage = []) : formatNext p u = u := by
  unfold formatNext
  dsimp only
  rw [none]

theorem gateOpenAt_mod {f : Port → Port} (cfg : ∀ q, (f q).cfg = q.cfg) (level : ∀ q, (f q).level = q.level) (w : TimeWord) :
    (u.modPort p f).gateOpenAt p w = u.gateOpenAt p w := by
  have each (n : Fin 64) : (u.modPort p f).ports[n].cfg = u.ports[n].cfg ∧ (u.modPort p f).ports[n].level = u.ports[n].level := by
    by_cases here : n = p
    · subst here
      rw [modPort_at]
      exact ⟨cfg _, level _⟩
    · rw [port_other u p n f here]
      exact ⟨rfl, rfl⟩
  have gates (n : Fin 64) : (u.modPort p f).gateLevel n w = u.gateLevel n w := by
    unfold State.gateLevel
    rw [(each n).1, (each n).2]
    rfl
  unfold State.gateOpenAt
  rw [(each p).1]
  cases u.ports[p].cfg.gateSrc with
  | none => rfl
  | some g =>
    dsimp only
    rw [(each g).1, gates g]

/-- A conversion that waits for its gate, and none behind it (R254). -/
theorem format_gated (gated : u.ports[p].gated = [c]) (none : u.ports[p].stage = []) : format p u =
    if tdiff u.tb.now c.edge < 960000 then u
    else if u.gateOpenAt p c.edge then formConv p c { u with ports := u.ports.set p { u.ports[p] with gated := [] } }
    else { u with ports := u.ports.set p { u.ports[p] with gated := [] } } := by
  unfold format
  rw [gated]
  have decides : decideGated p [c].length u = if tdiff u.tb.now c.edge < 960000 then u
      else if u.gateOpenAt p c.edge then formConv p c { u with ports := u.ports.set p { u.ports[p] with gated := [] } }
      else { u with ports := u.ports.set p { u.ports[p] with gated := [] } } := by
    show decideGated p (0 + 1) u = _
    rw [decideGated, gated]
    dsimp only
    rw [gateOpenAt_mod (f := fun q => { q with gated := [] }) (fun _ => rfl) (fun _ => rfl)]
    rfl
  have taken : ({ u with ports := u.ports.set p { u.ports[p] with gated := [] } } : State).ports[p].stage = [] := by
    have here := modPort_at u p (fun q => { q with gated := [] })
    exact (congrArg Port.stage here).trans none
  rw [decides]
  refine formatNext_nothing ?_
  split
  · exact none
  · split
    · exact formConv_stage.trans taken
    · exact taken

end

/-! ### Over-range and trigger inputs (R218, R255, R257, R278) -/

section
variable {u : State} {p : Fin 64} {t : TimeWord}

theorem overrangeOn_first (mode : stampModes u.ports[p].cfg.mode = true) (off : u.ports[p].overrange = false)
    (past : tnotBefore u.tb.now t = true) (none : u.ports[p].ovSpans = []) (active : u.portActive p = true) :
    overrangeOn p t u = raiseAt (evPort p 3) u.cycle 1 Flags.none { u with ports := u.ports.set p { u.ports[p] with
      overrange := true, ovSpans := [⟨t, Option.none⟩],
      counts := { u.ports[p].counts with ovd := u.ports[p].counts.ovd + 1 } } } := by
  have opened : (⟨t, Option.none⟩ :: u.ports[p].ovSpans).take 8 = [(⟨t, Option.none⟩ : OvSpan)] := by rw [none]; rfl
  unfold overrangeOn
  dsimp only
  rw [if_neg (by rw [mode, off, past]; decide), none, if_neg Bool.false_ne_true, if_pos (by exact active), port_twice, ← opened]
  rfl

theorem overrangeOff_now {v : OvSpan} {vs : List OvSpan} (on : u.ports[p].overrange = true)
    (past : tnotBefore u.tb.now t = true) (spans : u.ports[p].ovSpans = v :: vs) : overrangeOff p t u =
      { u with ports := u.ports.set p { u.ports[p] with overrange := false, ovSpans := { v with z := some t } :: vs } } := by
  have closed : (match u.ports[p].ovSpans with | v :: vs => { v with z := some t } :: vs | [] => []) =
      { v with z := some t } :: vs := by rw [spans]
  unfold overrangeOff
  rw [if_neg (by rw [on, past]; decide), ← closed]
  rfl

theorem pairDone_now {n : Nat} (pair : u.ports[p].cfg.pair = true) (mode : stampModes u.ports[p].cfg.mode = true)
    (active : u.portActive p = true) (noWindow : u.windowOf p = none) (some : 0 < n) :
    pairDone p n u = { u with ports := u.ports.set p { u.ports[p] with q := n } } := by
  unfold pairDone
  dsimp only
  rw [pair, mode, active, noWindow, decide_eq_true some]
  rfl

theorem trgEdge_now {n : Fin 8} {falling : Bool} (started : u.tb.started = true) (past : tnotBefore u.tb.now t = true) :
    let sense := if falling then Sense.fall else .rise
    let v := { u with trgs := u.trgs.set n { u.trgs[n] with level := pushLevel ⟨t, !falling⟩ u.trgs[n].level } }
    let w := if senseIn u.trgs[n].edge sense then raise (evTrg n) Flags.none v else v
    trgEdge n falling t u = mfSourceChange (.trg n) (!falling) t (padEdges (.trg n) sense t
      (axisCount (.trg n) sense t false (axisIndex (.trg n) sense t false w))) := by
  intro sense v w
  have edge : (u.modTrg n (fun x => { x with level := pushLevel ⟨t, !falling⟩ x.level })).trgs[n].edge = u.trgs[n].edge :=
    (congrArg Trg.edge (upd_same u.trgs n (fun x => { x with level := pushLevel ⟨t, !falling⟩ x.level }))).trans rfl
  unfold trgEdge
  rw [if_neg (by rw [started, past]; decide)]
  dsimp only
  rw [edge]
  rfl

end

/-- Settles O51. -/
theorem inputsConvertAndStamp : Obligations.InputsConvertAndStamp := by
  unfold Obligations.InputsConvertAndStamp
  intro s d p u q port
  refine ⟨fun falling stop code uv t table => ?_, fun c rest t stage table gated => ?_, fun c gated stage => ?_,
    fun n pair mode active noWindow some => next_congr (pairDone_now pair mode active noWindow some),
    fun t mode off past none active => next_congr (overrangeOn_first mode off past none active),
    fun t v vs on past spans => next_congr (overrangeOff_now on past spans),
    fun n falling t started past => next_congr (trgEdge_now started past)⟩
  · intro sense own live paired coded delay edge dead c
    have edgeEq : convTime t stop code falling (if u.ports[p].cfg.pair = true ∧ 0 < u.ports[p].q then some u.ports[p].q
        else none) = edge := convTime_eq q
    have met (live : live) := convert_now table live
    dsimp only at met
    rw [edgeEq] at met
    refine ⟨fun not => next_congr (convert_not table not), fun live dead => ?_, fun live alive full => ?_,
      fun live alive room => ?_⟩
    · exact next_congr ((met live).trans (if_pos ((dead_iff ..).2 dead)))
    · exact next_congr (((met live).trans (if_neg (fun dead => alive ((dead_iff ..).1 dead)))).trans (if_pos full))
    · exact next_congr (((met live).trans (if_neg (fun dead => alive ((dead_iff ..).1 dead)))).trans
        (if_neg (Nat.not_le.2 room)))
  · intro ready
    refine ⟨fun not => next_congr (format_wait gated stage (Bool.eq_false_iff.2 (fun is => not ((formatterReady_iff ..).1 is)))),
      fun is stamp plain mode => ?_⟩
    intro c1 v recorded x
    have row : exec (.stampFormat d p) s = .next (gateConv p c1 v) :=
      next_congr (format_eq gated stage table ((formatterReady_iff ..).2 is) stamp plain rfl)
    obtain ⟨cfg, kept⟩ := consume_pk (p := p) (c := c1) (b1 := false) (b2 := false)
      (s := port { q with stage := rest, taken := some u.tb.now }) p
    have here : (port { q with stage := rest, taken := some u.tb.now }).ports[p] =
      { q with stage := rest, taken := some u.tb.now } := modPort_at u p (fun _ => { q with stage := rest, taken := some u.tb.now })
    rw [here] at cfg kept
    have cfg : v.ports[p].cfg = q.cfg := cfg
    have none : v.ports[p].gated = [] := kept.trans gated
    have recordedIff : v.recorded p c1 = true ↔ recorded := recorded_iff q cfg
    have forms (recorded : recorded) (free : q.cfg.gateSrc = .none) : exec (.stampFormat d p) s = .next (formConv p c1 v) :=
      row.trans (next_congr (gateConv_eq stamp (recordedIff.2 recorded) (by rw [cfg]; exact free) none))
    have formed := formConv_eq (u := v) (p := p) (c := c1) stamp plain (by rw [cfg]; exact mode)
    rw [cfg] at formed
    refine ⟨fun not => ?_, fun recorded gated => ?_, fun recorded free full => ?_, fun recorded free room => ?_⟩
    · exact row.trans (next_congr (gateConv_drops stamp (Bool.eq_false_iff.2 (fun is => not (recordedIff.1 is)))))
    · exact row.trans (next_congr (gateConv_waits stamp (recordedIff.2 recorded) (by rw [cfg]; exact gated) none))
    · exact (forms recorded free).trans (next_congr (formed.trans (if_pos (by rw [show v.ports[p].hasSlot = false from full]; rfl))))
    · refine (forms recorded free).trans (next_congr ((formed.trans (if_neg
        (by rw [show v.ports[p].hasSlot = true from room]; decide))).trans rfl))
  · have row := format_gated gated stage
    refine ⟨fun early => next_congr (row.trans (if_pos early)), fun late => ?_⟩
    exact next_congr (row.trans (if_neg (by omega)))

end Sys2Proof.Machine
end

section
/-! PROOF. Usable index edges, and the runs of a measurement frame (R83, R184, R264 to R267, R271). -/
namespace Sys2Proof.Machine
open Sys2Proof

/-- R135: the interval of a result; all ones when its stop is missing. -/
def intervalOf (x : MfPre) : BitVec 64 :=
  match x.stop with
  | some e => e.time - x.start.time
  | none => BitVec.allOnes 64

/-- R83, R271: the statistics of a frame once a result without filter or hold has formed. -/
def statsWith (x : MfPre) (stats : List StatCell) : List StatCell :=
  match x.stop with
  | some _ => addStat x.idx (intervalOf x).toNat stats
  | none => stats

/-- R135, R266: the result record that a prepared result forms. -/
def resultOf (m : Fin 16) (x : MfPre) (u : State) : ResultRec :=
  let prov := x.start.prov ++ (match x.stop with | some e => e.prov | none => [])
  let r0 : ResultRec :=
    { start := x.start.time, interval := intervalOf x, mf := m, stopPort := x.stopPort,
      stopFalling := (match x.stop with | some e => decide (e.sense = .fall) | none => false),
      stopIdx := BitVec.ofNat 8 x.idx, stopEpoch := (match x.stop with | some e => e.epoch | none => x.epoch),
      startEpoch := x.start.epoch, flags := resultFlags x (u.shiftedBy prov), startPort := x.start.port,
      startFalling := decide (x.start.sense = .fall), run := x.run, seq := u.mfs[m].seq, check := 0 }
  { r0 with check := crc16 (resultBytes r0) }

section
variable {u : State} {m : Fin 16} {x : MfPre}

theorem modMf_congr {f g : Mf → Mf} (same : f u.mfs[m] = g u.mfs[m]) : u.modMf m f = u.modMf m g := by
  unfold State.modMf upd
  rw [same]

/-- R266, R271: a result of a frame without filter or hold forms. -/
theorem mfResult_plain (unfiltered : u.mfs[m].cfg.filter = []) (running : u.mfs[m].cfg.statsHold = false) :
    mfResult m x u = u.modMf m (fun f => { f with
      seq := f.seq + 1, out := if f.cfg.records then f.out ++ [.result (resultOf m x u)] else f.out,
      stats := statsWith x f.stats }) := by
  have numbered : mfResult m x u =
      let v := u.modMf m (fun f => { f with seq := f.seq + 1, stats := statsWith x f.stats })
      if u.mfs[m].cfg.records then v.modMf m (fun f => { f with out := f.out ++ [.result (resultOf m x u)] }) else v := by
    unfold mfResult
    dsimp only
    rw [unfiltered, running]
    unfold statsWith resultOf intervalOf
    cases x.stop <;> rfl
  rw [numbered]
  dsimp only
  cases records : u.mfs[m].cfg.records with
  | false =>
    rw [if_neg Bool.false_ne_true]
    refine modMf_congr ?_
    rw [records]
    rfl
  | true =>
    rw [if_pos rfl, modMf_twice]
    refine modMf_congr ?_
    rw [records]
    rfl

end

/-- R184: a usable edge lies 1 us from the one before. -/
theorem spaced_eq (x : Axis) (t : TimeWord) : x.spaced t =
    match x.lastUsable with
    | some e => decide (1000000 ≤ (tdiff t e).natAbs)
    | none => true := by
  unfold Axis.spaced
  cases x.lastUsable with
  | none => rfl
  | some e =>
    show decide ((1000000 : Int) ≤ ((tdiff t e).natAbs : Int)) = decide (1000000 ≤ (tdiff t e).natAbs)
    exact decide_eq_decide.2 (by omega)

/-- Settles O52. -/
theorem indexEdgesAndRuns : Obligations.IndexEdgesAndRuns := by
  unfold Obligations.IndexEdgesAndRuns
  intro s d m u f
  refine ⟨fun src sense t flagged a => ?_, fun r opened due => ?_, fun x unfiltered running => ?_, fun idx n rest c same => ?_⟩
  · intro x spaced
    have same : u.axes[a].spaced t = spaced := (spaced_eq ..).trans rfl
    refine (axisIndex_at src sense t flagged u a).trans (ite_of_iff ?_ rfl rfl)
    simp only [Bool.and_eq_true, Bool.or_eq_true, decide_eq_true_eq, Bool.not_eq_true', and_assoc, same]
    exact Iff.rfl
  · intro e
    exact next_congr ((if_pos due).trans (mfClose_eq opened))
  · intro interval
    exact ⟨resultOf m x u, rfl, rfl, mfResult_plain unfiltered running⟩
  · rw [addStat, if_pos same]

end Sys2Proof.Machine
end

section
/-! PROOF. The engine of a pattern group (R296, R304, R309, R310, R312, R317, R319). -/
namespace Sys2Proof.Machine
open Sys2Proof

/-! ### The fetch (R296) -/

/-- R296: a group that is not live fetches nothing; a live one keeps its step and adds to its plan no more than it needs. -/
theorem prefetch_facts {st : SegStore} {x : Group} : (x.live = false → prefetch st x = x) ∧ (prefetch st x).cur = x.cur ∧
    (∃ more, (prefetch st x).plan = x.plan ++ more) ∧
    ((prefetch st x).plan.filter isPlay).length ≤ max (x.plan.filter isPlay).length x.needed := by
  unfold prefetch
  cases live : x.live with
  | false => exact ⟨fun _ => rfl, rfl, ⟨[], (List.append_nil _).symm⟩, Nat.le_max_left ..⟩
  | true => exact ⟨nofun, fetchMany_facts 260 x⟩

theorem spirePrefetch_facts {u : State} {g : Fin 8} {bad : List (Nat × Nat)} :
    let x := u.groups[g]
    let w := (markBad bad u).modGroup g (prefetch (markBad bad u).store)
    SameBut [.groups, .store] u w ∧ (∀ h : Fin 8, h ≠ g → w.groups[h] = u.groups[h]) ∧
      (x.live = false → w.groups[g] = x) ∧ w.groups[g].cur = x.cur ∧ (∃ more, w.groups[g].plan = x.plan ++ more) ∧
      (w.groups[g].plan.filter isPlay).length ≤ max (x.plan.filter isPlay).length x.needed := by
  intro x w
  have same : SameBut [.groups, .store] u w := by
    intro part other
    cases part <;> simp at other <;> rfl
  have here : w.groups[g] = prefetch (markBad bad u).store x := group_at ..
  rw [here]
  exact ⟨same, fun h other => upd_other _ _ _ _ other.symm, prefetch_facts⟩

/-! ### The last sample played (R302, R304) -/

/-- R302, R304: the last of the first m samples of a step; before its first, the one kept. -/
def playedOf (r : StepRun) (kept : Option (List (BitVec 4))) (m : Nat) : Option (List (BitVec 4)) :=
  if m = 0 then kept else some (r.seg.sample (m - 1))

section
variable {s u : State} {g : Fin 8} {r : StepRun} {t : TimeWord}

theorem lastPlayed_cur (cur : s.groups[g].cur = some r) : s.lastPlayed g t = playedOf r s.groups[g].lastSample
    (min (min (tdiff t r.start / 4000).toNat r.seg.length) (r.failAt.getD r.seg.length)) := by
  unfold State.lastPlayed
  dsimp only
  rw [cur]
  rfl

theorem lastPlayed_good (cur : s.groups[g].cur = some r) (good : r.failAt = none) : s.lastPlayed g t =
    playedOf r s.groups[g].lastSample (min (tdiff t r.start / 4000).toNat r.seg.length) := by
  rw [lastPlayed_cur cur, good, Option.getD_none, Nat.min_assoc, Nat.min_self]

theorem lastPlayed_idle (cur : s.groups[g].cur = none) (running : s.groups[g].state = .running) :
    s.lastPlayed g t = s.groups[g].lastSample := by
  unfold State.lastPlayed
  dsimp only
  rw [cur, running]
  rfl

/-- The group after the step that came to its end at its last sample (R309). -/
def stepDone (u : State) (g : Fin 8) (r : StepRun) : Group :=
  { u.groups[g] with lastSample := u.lastPlayed g r.ends, skipping := false, cur := none }

/-! ### Boundaries (R309, R310, R317) -/

/-- R317: STOP takes effect, whether it cuts the step or falls on its end. -/
theorem boundary_stops (running : u.groups[g].state = .running) (cur : u.groups[g].cur = some r)
    (restarts : u.groups[g].restarts = []) (good : r.failAt = none) (waiting : u.groups[g].waiting = none)
    (stop : u.groups[g].stopAt = some t) (past : tnotBefore u.tb.now t = true) (reached : tnotBefore r.ends t = true)
    (done : r.ends = t → u.groups[g].fetch.done = true) : SameBut pgParts u (boundary g u) ∧
    (boundary g u).groups[g] = haltedGroup .stop { u.groups[g] with lastSample := u.lastPlayed g t } := by
  rw [boundary_stop running cur restarts good stop past reached]
  by_cases tied : r.ends = t
  · subst tied
    exact stopNow_tied cur (done rfl) waiting running
  · exact stopNow_cut cur tied

section
variable (running : u.groups[g].state = .running) (cur : u.groups[g].cur = some r) (restarts : u.groups[g].restarts = [])
  (good : r.failAt = none) (waiting : u.groups[g].waiting = none) (stop : u.groups[g].stopAt = none)
  (past : tnotBefore u.tb.now r.ends = true) (done : u.groups[g].fetch.done = true)
include running cur restarts good waiting stop past done

theorem boundary_ends : ∃ v, boundary g u = advance g 300 r.ends v ∧ SameBut pgParts u v ∧ v.groups[g] = stepDone u g r := by
  rw [boundary_step running cur restarts good stop past]
  exact stepEnd_eq done waiting

/-- R309: the next step of the plan begins. -/
theorem boundary_plays {i : Nat} {y : Segment} {rest : List PlanItem} (plan : u.groups[g].plan = .play i y :: rest) :
    SameBut pgParts u (boundary g u) ∧ (boundary g u).groups[g] = { u.groups[g] with
      lastSample := u.lastPlayed g r.ends, skipping := false, plan := rest, stepIdx := i,
      cur := some ⟨i, y, r.ends, y.firstFail, false⟩, begun := true,
      markers := applyMarks u.groups[g].markNext u.groups[g].markers, markNext := [],
      prov := u.groups[g].prov ++ u.groups[g].provNext, provNext := [] } := by
  obtain ⟨v, eq, same, at_g⟩ := boundary_ends running cur restarts good waiting stop past done
  have plays := advance_play (n := 299) (t := r.ends) (i := i) (y := y) (rest := rest) (by rw [at_g]; exact done)
    (by rw [at_g]; exact plan)
  rw [eq, plays]
  refine ⟨same.trans (mg_same.trans (raiseGroup_same.trans agGate_same)), ?_⟩
  refine (raiseGroup_grp (calm_none ?_)).trans ?_
  · rw [group_at]
  · rw [group_at, at_g, stepDone]
    dsimp only
    rw [running, waiting]

/-- R310: a wait follows. -/
theorem boundary_waits {i : Nat} {wait : Option Nat} {halts : Bool} {rest : List PlanItem}
    (plan : u.groups[g].plan = .wait i .step wait halts :: rest) (none : u.groups[g].counted = []) :
    SameBut pgParts u (boundary g u) ∧ (boundary g u).groups[g] = { u.groups[g] with
      lastSample := u.lastPlayed g r.ends, skipping := false, state := .waiting, plan := rest, stepIdx := i,
      cur := Option.none, waitFrom := r.ends, counted := [],
      waiting := some (.wait .step r.ends wait halts Option.none) } := by
  obtain ⟨v, eq, same, at_g⟩ := boundary_ends running cur restarts good waiting stop past done
  have waits := advance_wait (n := 299) (t := r.ends) (i := i) (tmo := wait) (hl := halts) (rest := rest)
    (by rw [at_g]; exact done) (by rw [at_g]; exact plan) (by rw [at_g]; exact none)
  rw [eq, waits]
  refine ⟨same.trans (mg_same.trans (raiseGroup_same.trans agGate_same)), ?_⟩
  refine (raiseGroup_grp (calm_step (b := r.ends) (t := wait) (h := halts) (e := Option.none) ?_)).trans ?_
  · rw [group_at]
  · rw [group_at, at_g]
    rfl

/-- R304: a halt of the program follows. -/
theorem boundary_halts {c : HaltCause} {rest : List PlanItem} (plan : u.groups[g].plan = .halt c :: rest) :
    SameBut pgParts u (boundary g u) ∧ (boundary g u).groups[g] = haltedGroup c { u.groups[g] with
      lastSample := u.lastPlayed g r.ends, skipping := false } := by
  obtain ⟨v, eq, same, at_g⟩ := boundary_ends running cur restarts good waiting stop past done
  have halts := advance_halt (n := 299) (t := r.ends) (c := c) (rest := rest) (by rw [at_g]; exact done)
    (by rw [at_g]; exact plan)
  have here : (v.modGroup g (fun x => { x with plan := rest })).groups[g] = { stepDone u g r with plan := rest } := by
    rw [group_at, at_g]
  have kept : (v.modGroup g (fun x => { x with plan := rest })).lastPlayed g r.ends = u.lastPlayed g r.ends := by
    rw [lastPlayed_idle (by rw [here]; rfl) (by rw [here]; exact running), here]
    rfl
  rw [eq, halts]
  refine ⟨same.trans (mg_same.trans haltGroup_same'), ?_⟩
  rw [halt_grp, kept, here]
  rfl

end

/-! ### Failing blocks and waits (R312, R319) -/

/-- R319: the block that fails is reached: the group skips it, or halts. -/
theorem checkFail_now {n : Nat} (cur : u.groups[g].cur = some r) (bad : r.failAt = some n) (first : r.failed = false)
    (past : tnotBefore u.tb.now (tadd r.start (n * 4000)) = true) (waiting : u.groups[g].waiting = none) :
    let t := tadd r.start (n * 4000)
    let k := { u.groups[g] with cur := some { r with failed := true }, checkFails := u.groups[g].checkFails + 1, skipping := true }
    SameBut pgParts u (checkFail g u) ∧
      (checkFail g u).groups[g] = if u.groups[g].cfg.skip then k else haltedGroup .check { k with
        lastSample := playedOf r u.groups[g].lastSample (min (min (tdiff t r.start / 4000).toNat r.seg.length) n) } := by
  intro t k
  have failing : r.failTime = some t := by
    unfold StepRun.failTime
    rw [bad]
    rfl
  let v := agGate g t (raiseGroup g 4 t 1 (u.modGroup g (fun x =>
    { x with cur := some { r with failed := true }, checkFails := x.checkFails + 1, skipping := true })))
  have same : SameBut pgParts u v := mg_same.trans (raiseGroup_same.trans agGate_same)
  have here : v.groups[g] = k := (raiseGroup_grp (calm_none (by rw [group_at]; exact waiting))).trans (group_at ..)
  have eq : checkFail g u = if u.groups[g].cfg.skip then v else haltGroup g .check t v := by
    have skips : v.groups[g].cfg.skip = u.groups[g].cfg.skip := by rw [here]
    unfold checkFail
    rw [cur]
    dsimp only
    rw [failing]
    dsimp only
    rw [if_neg (by rw [first, past]; decide), ← skips]
  have played : v.lastPlayed g t = playedOf r u.groups[g].lastSample
      (min (min (tdiff t r.start / 4000).toNat r.seg.length) n) := by
    rw [lastPlayed_cur (r := { r with failed := true }) (by rw [here]), here, bad]
    rfl
  rw [eq]
  split
  · exact ⟨same, here⟩
  · refine ⟨same.trans haltGroup_same', ?_⟩
    rw [halt_grp, played, here]

/-- R312: a wait has timed out. -/
theorem waitTimeout_now {on : WaitOn} {b : TimeWord} {wait : Nat} {halts : Bool}
    (waiting : u.groups[g].waiting = some (.wait on b (some wait) halts none)) (past : tnotBefore u.tb.now (tadd b wait) = true) :
    waitTimeout g u = { u with groups := u.groups.set g { u.groups[g] with
      waiting := some (.wait on b (some wait) halts (some (granuleFrom u.groups[g].grid (tadd b wait)))) } } := by
  unfold waitTimeout
  rw [waiting]
  dsimp only
  rw [if_neg (by rw [past]; decide)]
  rfl

end

/-- Settles O53. -/
theorem patternGroupsGoOn : Obligations.PatternGroupsGoOn := by
  unfold Obligations.PatternGroupsGoOn
  intro s d g u x parts
  refine ⟨fun bad => ⟨_, rfl, spirePrefetch_facts⟩, fun r running cur restarts good first waiting => ?_,
    fun r n cur bad first past waiting => ?_, fun on b t h waiting => ?_,
    fun on b t at_ waiting state cur restarts stop past => ?_⟩
  · intro played k
    have last (t : TimeWord) : played t = u.lastPlayed g t := (lastPlayed_good cur good).symm
    refine ⟨fun some bound => ?_, fun t stop past reached done => ?_, fun stop past done => ?_⟩
    · rw [last]
      refine (lastPlayed_step cur good (Nat.le_refl _) bound).trans (if_neg (Nat.ne_of_gt some))
    · rw [last]
      exact ⟨_, rfl, boundary_stops running cur restarts good waiting stop past reached done⟩
    · have keeps : k = { x with lastSample := u.lastPlayed g r.ends, skipping := false } := by
        rw [← last]
      rw [keeps]
      exact ⟨fun i y rest plan => ⟨_, rfl, boundary_plays running cur restarts good waiting stop past done plan⟩,
        fun i t h rest plan none => ⟨_, rfl, boundary_waits running cur restarts good waiting stop past done plan none⟩,
        fun c rest plan => ⟨_, rfl, boundary_halts running cur restarts good waiting stop past done plan⟩⟩
  · exact ⟨_, rfl, checkFail_now cur bad first past waiting⟩
  · intro boundary past
    exact next_congr (waitTimeout_now waiting past)
  · refine ⟨_, rfl, ?_⟩
    show SameBut pgParts u (boundary g u) ∧ (boundary g u).groups[g] = _
    rw [boundary_timeout state cur restarts stop waiting past]
    exact ⟨haltGroup_same', halt_grp⟩

end Sys2Proof.Machine
end

section
/-! PROOF. Generators and checkers (R322, R326, R333, R334, R336 to R338). -/
namespace Sys2Proof.Machine
open Sys2Proof

/-! ### Words (R322, R326) -/

theorem width_gen {c : AgCfg} (role : c.role = .gen) : c.width = c.dWidth := by
  unfold AgCfg.width
  rw [role]

/-- R322: the word of a checker has no sequence that moves on with it. -/
theorem emitted_check {x : Ag} (role : x.cfg.role = .check) (unfinished : x.finished = false) :
    x.emitted = { x with word := none } := by
  cases word : x.word with
  | none =>
    rw [emitted_none word, ← word]
  | some w =>
    unfold Ag.emitted
    rw [word]
    dsimp only
    rw [unfinished, role]
    rfl

/-- R326: the next word of a generator with a pseudo-random function. -/
theorem nextWord_prbs {x : Ag} {start : TimeWord} {a b : Nat} {i : Bool} (role : x.cfg.role = .gen)
    (prbs : prbsOf x.cfg.func = some (a, b, i)) :
    x.nextWord start = ⟨start, 0, (prbsBits a b x.cfg.inverts x.cfg.dWidth x.reg).1, false, false, none⟩ := by
  have width := width_gen role
  unfold Ag.nextWord
  dsimp only
  rw [width]
  split
  · next isMarch => rw [isMarch] at prbs; exact nomatch prbs
  · next isCount => rw [isCount] at prbs; exact nomatch prbs
  · next isUser => rw [isUser] at prbs; exact nomatch prbs
  · rw [prbs]

section
variable {u : State} {n : Fin 8}

/-- R322: a generator's word begins on its grid. -/
theorem agWord_generates {a b : Nat} {i : Bool} (running : u.ags[n].state = .running) (role : u.ags[n].cfg.role = .gen)
    (fresh : u.ags[n].word = none) (unfinished : u.ags[n].finished = false)
    (past : tnotBefore u.tb.now (u.ags[n].wordStart u.ags[n].next) = true)
    (prbs : prbsOf u.ags[n].cfg.func = some (a, b, i)) :
    agWordStep n u = { u with ags := u.ags.set n { u.ags[n] with
      next := u.ags[n].next + 1,
      word := some ⟨u.ags[n].wordStart u.ags[n].next, 0,
        (prbsBits a b u.ags[n].cfg.inverts u.ags[n].cfg.dWidth u.ags[n].reg).1, false, false, none⟩ } } := by
  have begins : agWordStep n u = u.modAg n (fun x =>
      let y := { x.emitted with next := x.emitted.next + 1 }
      if y.finished then y.settle
      else match y.cfg.role with
        | .check =>
          { y with word := some ⟨x.wordStart x.next, 0, 0, false, true, none⟩,
                   due := y.due ++ [⟨x.wordStart x.next, 0, 0, false, true, none⟩] }
        | _ => { y with word := some (y.nextWord (x.wordStart x.next)),
                        due := if (y.nextWord (x.wordStart x.next)).read && !y.cfg.inputs.isEmpty
                          then y.due ++ [y.nextWord (x.wordStart x.next)] else y.due }) := by
    unfold agWordStep
    dsimp only
    exact (if_neg (by rw [running, role, past]; decide)).trans rfl
  have word := nextWord_prbs (x := { u.ags[n] with next := u.ags[n].next + 1 })
    (start := u.ags[n].wordStart u.ags[n].next) role prbs
  rw [begins]
  unfold State.modAg upd
  dsimp only
  rw [emitted_none fresh, if_neg (by rw [unfinished]; decide), role, word]
  rfl

/-- R322, R333: a checker's word begins on its grid, and its comparison is due. -/
theorem agWord_checks (running : u.ags[n].state = .running) (role : u.ags[n].cfg.role = .check)
    (unfinished : u.ags[n].finished = false) (past : tnotBefore u.tb.now (u.ags[n].wordStart u.ags[n].next) = true) :
    let w : AgWord := ⟨u.ags[n].wordStart u.ags[n].next, 0, 0, false, true, none⟩
    agWordStep n u = { u with ags := u.ags.set n { u.ags[n] with
      next := u.ags[n].next + 1, word := some w, due := u.ags[n].due ++ [w] } } := by
  intro w
  unfold agWordStep
  dsimp only
  rw [if_neg (by rw [running, role, past]; decide)]
  unfold State.modAg upd
  dsimp only
  rw [emitted_check role unfinished]
  dsimp only
  rw [if_neg (by rw [unfinished]; decide), role]

/-! ### Comparisons (R333 to R338) -/

theorem sampled_same {bits : List RxBit} {w : AgWord} {x : Ag} : AgSame x (sampled bits w x).1 := by
  unfold sampled
  cases w.expect with
  | none => exact foldBits_same (f := checkBit) (fun _ _ _ => checkBit_same) bits 0 (x, 0)
  | some v => exact foldBits_same (f := marchBit v.1) (fun _ _ _ => marchBit_same) bits 0 (x, 0)

/-- R338: a comparison with a word that the program gives. -/
theorem sampled_march {bits : List RxBit} {w : AgWord} {x : Ag} {v a e : Nat} (expect : w.expect = some (v, a, e)) :
    (sampled bits w x).1.bits = x.bits + BitVec.ofNat 48 (bits.filter (fun b => b.2)).length ∧
    (sampled bits w x).1.errors =
      x.errors + BitVec.ofNat 48 (bits.zipIdx.filter (fun b => b.1.2 && v.testBit b.2 != b.1.1)).length ∧
    (sampled bits w x).1.lock = x.lock := by
  unfold sampled
  rw [expect]
  exact foldMarch bits 0 (x, 0)

/-- R334, R336: no bit is compared, so an acquisition begins anew. -/
theorem sampled_blind {bits : List RxBit} {w : AgWord} {x : Ag} (free : w.expect = none) (unlocked : x.lock = false)
    (some : bits ≠ []) (blind : ∀ b ∈ bits, b.2 = false) :
    (sampled bits w x).1.acq = ⟨[], none, 0⟩ ∧ (sampled bits w x).1.lock = false ∧ (sampled bits w x).1.bits = x.bits ∧
      (sampled bits w x).1.errors = x.errors := by
  unfold sampled
  rw [free]
  obtain ⟨lock, bits, errors, acq⟩ := foldUnlocked bits 0 (x, 0) unlocked blind
  exact ⟨acq (.inl some), lock, bits, errors⟩

end

/-- Settles O54. -/
theorem generatorsRunAndCheck : Obligations.GeneratorsRunAndCheck := by
  unfold Obligations.GeneratorsRunAndCheck
  intro s d n u x start
  refine ⟨fun a b i running role fresh unfinished past prbs =>
      next_congr (agWord_generates running role fresh unfinished past prbs),
    fun running role unfinished past => next_congr (agWord_checks running role unfinished past), fun w rest none due => ?_⟩
  intro t ready
  refine ⟨fun early => next_congr (sample_wait none due early), fun met => ?_⟩
  intro bits
  obtain ⟨first, state, sampled_eq⟩ := sample_eq none due met
  refine ⟨_, next_congr sampled_eq, ?_⟩
  obtain ⟨due, past, cfg⟩ := sampled_same (bits := bits) (w := w) (x := { x with due := rest })
  refine ⟨due, past.trans none, cfg, fun v a e expect => ?_, fun free unlocked some blind => ?_⟩
  · exact sampled_march (x := { x with due := rest }) expect
  · exact sampled_blind (x := { x with due := rest }) free unlocked some blind

end Sys2Proof.Machine
end

section
/-! PROOF. Calibration windows and tables (R341 to R343, R346, R347, R350, R352, R355). -/
namespace Sys2Proof.Machine
open Sys2Proof

/-! ### Accumulation (R347, R352) -/

theorem joinHits_total (limit : Nat) : ∀ (hits : List (Nat × Nat)) (r : List (Nat × Nat) × Nat),
    (joinHits limit hits r).2 ≤ max limit r.2
  | [], r => Nat.le_max_right ..
  | (code, n) :: hits, (hist, total) => by
    unfold joinHits
    split
    · refine Nat.le_trans (joinHits_total limit hits _) ?_
      dsimp only
      omega
    · exact joinHits_total limit hits (hist, total)

/-- R347, R352: a window brings at most 410 hits, and none beyond 2^18. -/
theorem accumulate_total (x : CalSample) (a : CalAccum) :
    (accumulate x a).total ≤ max 262144 a.total ∧ (accumulate x a).total ≤ a.total + 410 := by
  have bound : (accumulate x a).total ≤ max (min 262144 (a.total + 410)) a.total := joinHits_total _ x.hits (a.hist, a.total)
  omega

/-! ### Windows and tables (R341, R343, R350, R355) -/

section
variable {u : State} {p : Fin 64}

/-- R341: a window opens only on a due port of an ACTIVE cluster with no window open. -/
theorem windowFirst_facts (first : u.windowFirst p = true) : u.clusters[clusterOf p].state = .active ∧
    u.clusters[clusterOf p].window = none ∧ tnotBefore u.cycle u.ports[p].due = true ∧ u.cal.hold = false ∧
    u.steward.absent = false :=
  mayOpen_facts (Bool.and_eq_true_iff.1 first).1

/-- R350: a window does not close before its end. -/
theorem close_early {x : CalSample} {high v : Bool} {opened : TimeWord}
    (window : u.clusters[clusterOf p].window = some ⟨portIn p, opened, v⟩)
    (early : tnotBefore u.tb.now (tadd opened 16000000) = false) : closeWindow p x high u = u := by
  by_cases tone : u.ports[p].cfg.mode = .tone
  · rw [close_tone window tone, if_neg (by rw [early]; decide)]
  · rw [close_eq window tone, if_neg (by rw [early]; decide)]

/-- R343: a port becomes late. -/
theorem portLate_now (active : u.portActive p = true) (runs : u.cal.hold = false) (present : u.steward.absent = false)
    (first : u.ports[p].lateSeen = false) (past : tnotBefore u.tb.now (tadd u.ports[p].due u.cal.period) = true) :
    portLate p u = raise 379 Flags.none { u with
      ports := u.ports.set p { u.ports[p] with calLate := true, lateSeen := true },
      cal := { u.cal with rotaLates := u.cal.rotaLates + 1 } } := by
  unfold portLate
  dsimp only
  rw [if_pos (by rw [active, runs, present, first, past]; rfl)]
  rfl

/-- R355: a full histogram becomes the port's table. -/
theorem rotaSwap_now (full : 262144 ≤ u.ports[p].accum.total) (present : u.steward.absent = false)
    (noWindow : u.windowOf p = none) (table : u.ports[p].table.isSome = true) :
    let t := tableOf u.ports[p] u.ports[p].accum .rota u.cycle u.bel.temp
    rotaSwap p u = raise 378 Flags.none { u with
      ports := u.ports.set p { u.ports[p] with table := some t, lastGen := some t.gen, accum := CalAccum.empty } } := by
  intro t
  have tabled : u.ports[p].table.isNone = false := by rw [← Option.not_isSome, table]; rfl
  have unfilled : decide (u.ports[p].accum.total < fullHits) = false := decide_eq_false (Nat.not_lt.2 full)
  have put : (putTable p t u).modPort p (fun q => { q with accum := CalAccum.empty }) =
      { u with ports := u.ports.set p { u.ports[p] with table := some t, lastGen := some t.gen, accum := CalAccum.empty } } :=
    (port_twice u p _ _).trans rfl
  unfold rotaSwap
  dsimp only
  rw [if_neg (by rw [unfilled, present, noWindow, tabled]; decide)]
  exact congrArg (raise evTableSwap Flags.none) put

theorem rotaSwap_not (not : u.ports[p].accum.total < 262144 ∨ u.steward.absent = true ∨ u.windowOf p ≠ none ∨
    u.ports[p].table = none) : rotaSwap p u = u := by
  unfold rotaSwap
  refine if_pos ?_
  simp only [Bool.or_eq_true, decide_eq_true_eq, Option.isNone_iff_eq_none, Option.isSome_iff_ne_none, or_assoc]
  exact not

end

/-- R341: whether a window opens on a port. -/
theorem windowOpen_cases {u : State} {p : Fin 64} : (u.windowFirst p = true →
      (if u.windowFirst p then openWindow p u else u) = raise (evCluster (clusterOf p) 2) Flags.none { u with
        clusters := u.clusters.set (clusterOf p) { u.clusters[clusterOf p] with
          window := some ⟨portIn p, u.cycle, u.cal.span.isSome⟩ },
        ports := u.ports.set p { u.ports[p] with
          due := if tlater (tadd u.ports[p].due u.cal.period) u.cycle then tadd u.ports[p].due u.cal.period
            else tadd u.cycle u.cal.period,
          calLate := false, lateSeen := false,
          outHeld := if driving u.ports[p].cfg.mode && u.ports[p].cfg.output then some (u.padLevel p) else none,
          blind := openBlind u.cycle u.ports[p].blind },
        cal := { u.cal with
          lastOpen := some p, doomed := if u.cal.span.isSome then u.cal.doomed + 1 else u.cal.doomed } }) ∧
    (u.windowFirst p = false → (if u.windowFirst p then openWindow p u else u) = u) :=
  ⟨fun first => (if_pos first).trans open_eq, fun not => if_neg (Bool.eq_false_iff.1 not)⟩

theorem nextGen_eq (q : Port) : q.nextGen = match q.lastGen with | none => 0 | some g => (g + 1) % 16 := by
  unfold Port.nextGen
  cases q.lastGen <;> rfl

/-- Settles O55. -/
theorem calibrationWindowsAndTables : Obligations.CalibrationWindowsAndTables := by
  unfold Obligations.CalibrationWindowsAndTables
  intro s d p u q k o c
  refine ⟨?_, fun x high v opened window => ?_,
    fun active runs present first past => next_congr (portLate_now active runs present first past),
    fun full present noWindow table => ?_, fun not => next_congr (rotaSwap_not not)⟩
  · intro v
    have row : exec (.calWindowOpen d p) s = .next (if v.windowFirst p then openWindow p v else v) := rfl
    clear_value v
    intro q c o
    obtain ⟨opens, stays⟩ := windowOpen_cases (u := v) (p := p)
    refine ⟨fun first => ?_, fun not => row.trans (next_congr (stays not))⟩
    obtain ⟨active, closed, due, runs, present⟩ := windowFirst_facts first
    exact ⟨active, closed, due, runs, present, row.trans (next_congr (opens first))⟩
  · intro w a
    obtain ⟨most, rise⟩ := accumulate_total x q.accum
    refine ⟨fun past mode => ?_, fun past mode => ?_, most, rise, fun early => next_congr (close_early window early)⟩
    · exact next_congr ((close_eq window mode).trans (if_pos past))
    · exact next_congr ((close_tone window mode).trans (if_pos past))
  · intro t
    exact ⟨(nextGen_eq q).trans rfl, rfl, tdcTable_len .., (List.length_map ..).trans List.length_range,
      next_congr (rotaSwap_now full present noWindow table)⟩

end Sys2Proof.Machine
end

section
/-! PROOF. How a cluster goes from one state to the next, and what a fault does (R387, R390, R395, R398, R401, R405). -/
namespace Sys2Proof.Machine
open Sys2Proof

section
variable {u : State} {k : Fin 8}

/-! ### The end of a drain, and POWERUP (R387, R390) -/

/-- R390: DRAINING ends once nothing of the cluster's ports is under way. -/
theorem drainComplete_now (draining : u.clusters[k].state = .draining)
    (idle : ∀ p ∈ portsOf k, u.ports[p].queue = [] ∧ u.ports[p].completing (u.tu u.tb.now) = false) :
    SameBut [.clusters, .ports, .boot, .bel] u (drainComplete k u) ∧
      (drainComplete k u).clusters = u.clusters.set k { u.clusters[k] with
        state := .off, phase := .none, offCause := .drain, drainEmitted := min 512 u.clusters[k].emittedSoFar,
        discarded := min 512 u.clusters[k].removedSoFar, window := none } ∧
      ∀ p : Fin 64, clusterOf p ≠ k → (drainComplete k u).ports[p] = u.ports[p] := by
  have allIdle : (portsOf k).all (fun p => u.ports[p].queue.isEmpty && !u.ports[p].completing (u.tu u.tb.now)) = true := by
    rw [List.all_eq_true]
    intro p mine
    obtain ⟨empty, still⟩ := idle p mine
    rw [empty, still]
    rfl
  let off := u.modCluster k (fun c => { c with
    state := .off, phase := .none, offCause := .drain, drainEmitted := cap512 c.emittedSoFar,
    discarded := cap512 (c.removedSoFar + 0), window := none })
  let released := foldS (portsOf k) (fun p s => s.modPort p (fun q => { q with outHeld := none })) off
  have ends : drainComplete k u = startupEnd released := by
    unfold drainComplete
    dsimp only
    rw [if_pos (by rw [draining, allIdle]; rfl)]
    rfl
  have others (p : Fin 64) (other : clusterOf p ≠ k) : released.ports[p] = u.ports[p] := by
    have each_once : ((portsOf k).map id).Nodup := by rw [List.map_id]; exact portsOf_nodup k
    refine (foldKey (key := id) (f := fun _ q => { q with outHeld := none }) (s := off) each_once).2 p ?_
    rw [List.map_id]
    exact fun mine => other (portsOf_mem mine)
  have ports : (startupEnd released).ports = released.ports := startupEnd_same .ports (by decide)
  rw [ends]
  refine ⟨?_, ?_, fun p other => ?_⟩
  · exact (modCluster_same.mono (by decide)).trans
      (((foldPorts_same (f := fun _ q => { q with outHeld := none })).mono (by decide)).trans (startupEnd_same.mono (by decide)))
  · exact (startupEnd_same .clusters (by decide)).trans (portsOf_mod_clusters k (fun q => { q with outHeld := none }) off)
  · rw [ports]
    exact others p other

/-- R387: the bank is measured, and CALIBRATE begins. -/
theorem powerupDone_now {mv : Nat} (state : u.clusters[k].state = .quarantine) (phase : u.clusters[k].phase = .powerup) :
    let w := powerupDone k mv u
    SameBut [.clusters] u w ∧ w.clusters[k].state = .quarantine ∧ w.clusters[k].phase = .calibrate ∧
      w.clusters[k].vddio = bankClass mv ∧ w.clusters[k].bank = bankClass mv ∧
      ∀ j : Fin 8, j ≠ k → w.clusters[j].state = u.clusters[j].state ∧ w.clusters[j].phase = u.clusters[j].phase := by
  intro w
  let v := u.modCluster k (fun c => { c with phase := .calibrate, vddio := bankClass mv, bank := bankClass mv })
  have ends : w = nextTurns v := by
    show powerupDone k mv u = _
    unfold powerupDone
    dsimp only
    rw [if_pos (by rw [state, phase]; rfl)]
  have here : ce w.clusters[k] = ce { u.clusters[k] with
      phase := .calibrate, vddio := bankClass mv, bank := bankClass mv } := by
    rw [ends]
    exact (nextTurns_cc k).trans (congrArg ce (modCluster_at ..))
  obtain ⟨stateEq, phaseEq, _, vddio, _⟩ := ce_facts here
  refine ⟨?_, stateEq.trans state, phaseEq, vddio, ce_bank here, fun j other => ?_⟩
  · rw [ends]
    exact modCluster_same.trans nextTurns_same
  · have there : ce w.clusters[j] = ce u.clusters[j] := by
      rw [ends]
      exact (nextTurns_cc j).trans (congrArg ce (upd_other _ _ _ _ other.symm))
    obtain ⟨stateEq, phaseEq, _⟩ := ce_facts there
    exact ⟨stateEq, phaseEq⟩

/-! ### The end of ALIGN (R395, R398) -/

theorem fixJoin_at (e : TimeWord) : ∃ f, (fixJoin k e u).clusters[k] = { u.clusters[k] with fix := f } := by
  unfold fixJoin
  rw [modCluster_at]
  split
  · exact ⟨u.clusters[k].fix, rfl⟩
  · exact ⟨_, rfl⟩

/-- R398: the cluster enters JOINING. -/
theorem enterJoining_facts : let w := enterJoining k u
    SameBut [.clusters, .boot, .bel] u w ∧ w.clusters[k].state = .joining ∧ w.clusters[k].phase = .none ∧
      w.clusters[k].joinAt = u.clusters[k].joinAt ∧ ∀ j : Fin 8, j ≠ k → w.clusters[j] = u.clusters[j] := by
  intro w
  let v := u.modCluster k (fun c => { c with state := .joining, phase := .none })
  have ends : w = startupEnd (fixJoin k u.cycle v) := rfl
  have fixed : SameBut [.clusters] v (fixJoin k u.cycle v) := modCluster_same
  have clusters : w.clusters = (fixJoin k u.cycle v).clusters := startupEnd_same .clusters (by decide)
  obtain ⟨f, here⟩ := fixJoin_at (u := v) (k := k) u.cycle
  rw [show v.clusters[k] = { u.clusters[k] with state := .joining, phase := .none } from modCluster_at ..] at here
  rw [clusters, here]
  refine ⟨?_, rfl, rfl, rfl, fun j other => ?_⟩
  · exact (modCluster_same.mono (by decide)).trans ((fixed.mono (by decide)).trans (startupEnd_same.mono (by decide)))
  · exact (upd_other _ _ _ _ other.symm).trans (upd_other _ _ _ _ other.symm)

section
variable (state : u.clusters[k].state = .quarantine) (phase : u.clusters[k].phase = .align)
include state phase

theorem alignDone_cases (ok : Bool) : alignDone k ok u =
    if ok = false then faultCluster k .align u
    else if anyOutput k u = true ∧ admits u.clusters[k].iostd u.clusters[k].vddio = false then faultCluster k .banksupply u
    else if u.clusters[k].joinAt = none then { u with clusters := u.clusters.set k { u.clusters[k] with phase := .waitjoin } }
    else enterJoining k u := by
  unfold alignDone
  dsimp only
  rw [if_neg (by rw [state, phase]; decide)]
  refine ite_of_iff (by simp) rfl (ite_of_iff (by simp) rfl (ite_of_iff Option.isNone_iff_eq_none rfl rfl))

end

/-! ### Entry to ACTIVE (R401) -/

/-- R401: the join instant of a cluster is bound and committed. -/
theorem join_fixed {j : TimeWord} (fix : u.clusters[k].fix = some (.fixed j) ∨
    ∃ a n o, u.clusters[k].fix = some (.axis a n o j true true)) :
    u.clusters[k].joinInstant = some j ∧ commitJoin k u = u := by
  unfold Cluster.joinInstant commitJoin
  rcases fix with fix | ⟨a, n, o, fix⟩ <;> rw [fix] <;> exact ⟨rfl, rfl⟩

/-! ### Faults (R405) -/

/-- A fault of a cluster whose bank reading has just changed. -/
theorem faulted_bank {cause : FaultCause} {v : Vddio} {w : State}
    (faulted : Faulted k cause (u.modCluster k (fun c => { c with vddio := v, bank := v })) w) : Faulted k cause u w := by
  have here := modCluster_at u k (fun c => { c with vddio := v, bank := v })
  obtain ⟨st, oc, fc, dc, ep, pw, pt, ot, tb⟩ := faulted
  rw [here] at ep pw
  exact ⟨st, oc, fc, dc, ep, pw, pt,
    fun j other => (ot j other).trans (congrArg Cluster.state (upd_other u.clusters k j _ other.symm)), tb⟩

theorem clusterFault_bank {mv : Nat} (powered : u.clusters[k].powered = true) (changes : bankClass mv ≠ u.clusters[k].bank) :
    let w := u.modCluster k (fun c => { c with vddio := bankClass mv, bank := bankClass mv })
    clusterFault k .banksupply mv u =
      if anyOutput k u = true ∨ (admits u.clusters[k].iostd u.clusters[k].bank = true ∧
          admits u.clusters[k].iostd (bankClass mv) = false) then faultCluster k .banksupply w else w := by
  intro w
  unfold clusterFault
  dsimp only
  rw [if_neg (by rw [powered, decide_eq_false changes]; decide)]
  exact ite_of_iff (by simp) rfl rfl

theorem clusterFault_same {mv : Nat} (same : bankClass mv = u.clusters[k].bank) : clusterFault k .banksupply mv u = u := by
  unfold clusterFault
  dsimp only
  rw [if_pos (by rw [decide_eq_true same, Bool.or_true])]

theorem clusterFault_core {mv : Nat} (powered : u.clusters[k].powered = true) :
    clusterFault k .coresupply mv u = faultCluster k .coresupply u := by
  unfold clusterFault
  dsimp only
  rw [if_pos powered]

end

/-- Settles O56. -/
theorem clustersComeAndGo : Obligations.ClustersComeAndGo := by
  unfold Obligations.ClustersComeAndGo
  intro s d k u c bankOf faulted
  refine ⟨fun draining idle => ⟨_, rfl, drainComplete_now draining idle⟩,
    fun mv state phase => ⟨_, rfl, powerupDone_now state phase⟩,
    fun xs state phase turn first present locked eight measured_ => ?_, fun ok state phase => ?_, fun j state fix => ?_,
    fun mv on powered => ?_⟩
  · intro set
    have enough (x : CalSample) (mem : x ∈ xs) : calEnough c.short x = true := by
      obtain ⟨total, points⟩ := measured_ x mem
      exact Bool.and_eq_true_iff.2 ⟨decide_eq_true total, decide_eq_true points⟩
    have row := cal_eq state phase turn first present locked eight enough
    refine ⟨fun fit => ?_, fun full misfit => ?_⟩
    · refine ⟨_, next_congr (row.trans (if_neg ?_)), cal_good state phase turn eight⟩
      intro bad
      obtain ⟨notShort, any⟩ := Bool.and_eq_true_iff.1 bad
      obtain ⟨a, mem, unfit⟩ := List.any_eq_true.1 any
      obtain ⟨i, x, at_i, rfl⟩ := calSets_inv mem
      rcases fit i x at_i with short | fits
      · rw [show u.clusters[k].short = true from short] at notShort
        exact nomatch notShort
      · rw [show tableFits (calibrated u.clusters[k].short u.ports[portOf k i] x u.cycle) = true from fits] at unfit
        exact nomatch unfit
    · obtain ⟨i, x, at_i, unfit⟩ := misfit
      refine (fault_facts (by rw [state]; decide)).ex (next_congr (row.trans (if_pos ?_)))
      refine Bool.and_eq_true_iff.2 ⟨by rw [show u.clusters[k].short = false from full]; rfl,
        List.any_eq_true.2 ⟨_, calSets_mem at_i, ?_⟩⟩
      exact congrArg not unfit
  · intro bad
    have row := alignDone_cases state phase ok
    have on : u.clusters[k].state ≠ .off := by rw [state]; decide
    refine ⟨fun unverified => (fault_facts on).ex (next_congr (row.trans (if_pos unverified))),
      fun ⟨ok, out, not⟩ => (fault_facts on).ex
        (next_congr ((row.trans (if_neg (by rw [ok]; decide))).trans (if_pos ⟨out, not⟩))),
      fun ok good none => ?_, fun ok good some => ?_⟩
    · refine next_congr (((row.trans (if_neg (by rw [ok]; decide))).trans (if_neg fun is => good ⟨ok, is⟩)).trans (if_pos none))
    · refine ⟨_, next_congr (((row.trans (if_neg (by rw [ok]; decide))).trans (if_neg fun is => good ⟨ok, is⟩)).trans
        (if_neg some)), enterJoining_facts⟩
  · intro t past begun
    obtain ⟨instant, committed⟩ := join_fixed fix
    exact ⟨_, rfl, active_eq state instant committed past begun⟩
  · intro v
    refine ⟨(fault_facts on).ex (next_congr (clusterFault_core powered)), fun changes bad => ?_, fun changes out allows => ?_,
      fun same => next_congr (clusterFault_same same)⟩
    · have row := (clusterFault_bank powered changes).trans (if_pos bad)
      refine (faulted_bank (v := v) (fault_facts ?_)).ex (next_congr row)
      rw [modCluster_at]
      exact on
    · refine next_congr ((clusterFault_bank powered changes).trans (if_neg ?_))
      rintro (is | ⟨before, after⟩)
      · rw [show anyOutput k u = false from out] at is
        exact nomatch is
      · exact Bool.false_ne_true (after.symm.trans (allows before))

end Sys2Proof.Machine
end

section
/-! PROOF. What Belfry samples and converts reaches the rules (R422 to R429). -/
namespace Sys2Proof.Machine
open Sys2Proof

/-- R425, R427: a rule that takes the value of its source, if it has one. -/
def Rule.taking (r : Rule) : Option Int → Rule
  | none => r
  | some v => { (r.sample v).1 with
      hits := if (r.sample v).2.isSome && r.action.contains .count then r.hits + 1 else r.hits }

theorem ruleAfter_of {value : RuleSrc → Option Int} {r : Rule} {given : Option Int} (same : value r.src = given) :
    ruleAfter value r = r.taking given := by
  unfold ruleAfter
  rw [same]
  cases given <;> rfl

/-- What a sample of the levels gives a source (R422, R423). -/
def levelOf (wakes : Vector Wake 4) (refa : Bool) (x : RuleSrc) : Option Int :=
  match x with
  | .wake n => some (if wakes[n].level then 1 else 0)
  | .refa => some (if refa then 1 else 0)
  | _ => none

theorem sampleValue_eq (v : State) (refa : Bool) (x : RuleSrc) : sampleValue v refa x = levelOf v.bel.wakes refa x := by
  cases x <;> rfl

/-- R422, R423: the state that the rules meet after a sample of the levels. -/
theorem sampled_levels (levels : BitVec 4) (refa : Bool) (u : State) : ∃ v, SameBut [.bel, .fabric] u v ∧
    belfrySample levels refa u = runRules (sampleValue v refa) v ∧ v.bel.btime = u.bel.btime + 4 ∧ v.bel.refaAct = refa ∧
    v.bel.wakes = updAll u.bel.wakes (fun i x => x.sample (levels.getLsbD i.val)) ∧ v.bel.rules = u.bel.rules := by
  obtain ⟨x, y, split⟩ := sample_split (levels := levels) (refa := refa) (u := u)
  obtain ⟨same, view, rules⟩ := countFrame_facts (x := x) (y := y) (s := afterLevels levels refa u)
  obtain ⟨levelled, rulesKept, time, act, wakes⟩ := after_facts (levels := levels) (refa := refa) (u := u)
  simp only [bview, Prod.mk.injEq] at view
  obtain ⟨timeEq, actEq, wakesEq, _⟩ := view
  exact ⟨_, levelled.trans same, split, timeEq.trans time, actEq.trans act, wakesEq.trans wakes, rules.trans rulesKept⟩

/-- R424: the state that the rules meet after a conversion of the temperature. -/
theorem takeTemp_facts (x : Int) (u : State) : SameBut [.bel, .fabric] u (takeTemp x u) ∧ (takeTemp x u).bel.temp = x ∧
    (takeTemp x u).bel.tempHigh = ((!u.bel.tempHigh && decide (u.bel.tempWarn < x)) ||
      (u.bel.tempHigh && decide (u.bel.tempWarn - 50 < x))) ∧
    (takeTemp x u).bel.btime = u.bel.btime ∧ (takeTemp x u).bel.wakes = u.bel.wakes ∧
    (takeTemp x u).bel.rules = u.bel.rules := by
  let v := u.modBel (fun b => { b with
    temp := x, tempHigh := (!b.tempHigh && decide (b.tempWarn < x)) || (b.tempHigh && !decide (x ≤ b.tempWarn - 50)) })
  have taken : SameBut [.bel] u v := by
    intro part other
    cases part <;> simp at other <;> rfl
  have same : SameBut [.bel, .fabric] u (takeTemp x u) := by
    unfold takeTemp
    dsimp only
    split
    · exact (taken.mono (by decide)).trans (happen_same'.mono (by decide))
    · exact taken.mono (by decide)
  have here : (takeTemp x u).bel = { u.bel with
      temp := x, tempHigh := (!u.bel.tempHigh && decide (u.bel.tempWarn < x)) ||
        (u.bel.tempHigh && !decide (x ≤ u.bel.tempWarn - 50)) } := by
    unfold takeTemp
    dsimp only
    split
    · exact happen_same' .bel (by decide)
    · rfl
  have above : (!decide (x ≤ u.bel.tempWarn - 50)) = decide (u.bel.tempWarn - 50 < x) := by
    rw [← decide_not]
    exact decide_eq_decide.2 Int.not_le
  rw [here, ← above]
  exact ⟨same, rfl, rfl, rfl, rfl, rfl⟩

/-- Settles O57. -/
theorem belfrySamplesMeetRules : Obligations.BelfrySamplesMeetRules := by
  unfold Obligations.BelfrySamplesMeetRules
  intro s d u b ruled
  refine ⟨fun levels refa => ?_, fun x => ?_⟩
  · obtain ⟨v, reached, eq, time, act, wakes, rules⟩ := sampled_levels levels refa u
    obtain ⟨same, view, each⟩ := runRules_facts (value := sampleValue v refa) (s := v)
    simp only [bview, Prod.mk.injEq] at view
    obtain ⟨timeEq, actEq, wakesEq, _⟩ := view
    refine ⟨_, next_congr eq, reached.trans same, timeEq.trans time, actEq.trans act, fun n => ?_, fun n => ?_⟩
    · intro high x
      rw [wakesEq, wakes, updAll_at]
      exact ⟨rfl, rfl⟩
    · refine (each n).trans ?_
      rw [rules, wakesEq]
      exact (ruleAfter_of (sampleValue_eq v refa b.rules[n].src)).trans rfl
  · obtain ⟨reached, temp, high, time, wakes, rules⟩ := takeTemp_facts x.temp u
    obtain ⟨same, view, each⟩ := runRules_facts (value := x.value) (s := takeTemp x.temp u)
    simp only [bview, Prod.mk.injEq] at view
    obtain ⟨timeEq, _, wakesEq, tempEq, highEq, _⟩ := view
    refine ⟨runRules x.value (takeTemp x.temp u), rfl, reached.trans same, tempEq.trans temp, highEq.trans high,
      timeEq.trans time, wakesEq.trans wakes, fun n => ?_⟩
    refine (each n).trans ?_
    rw [rules]
    exact (ruleAfter_of (r := b.rules[n]) (given := x.value b.rules[n].src) rfl).trans rfl

end Sys2Proof.Machine
end

section
/-! PROOF. The way into SLEEP, what it takes away, and the way out (R418 to R421, R436, R438 to R440). -/
namespace Sys2Proof.Machine
open Sys2Proof

section
variable {u : State}

/-! ### The way in (R418, R419, R436) -/

/-- R419, R436: what the entry waits for first: a frame of the kept axis, or the flush. -/
def entryStep (u : State) : SleepStep :=
  match u.bel.axis with
  | none => .flush u.tb.now
  | some a => match u.axes[a].state, u.axes[a].anchor with
    | .confirmed, some an => .frame an.n u.axes[a].gen
    | _, _ => .flush u.tb.now

theorem entryStep_congr {v : State} (bel : v.bel = u.bel) (axes : v.axes = u.axes) (tb : v.tb = u.tb) :
    entryStep v = entryStep u := by
  unfold entryStep
  rw [bel, axes, tb]

/-- R419: the entry begins: no run stays open, and no delivery is held. -/
theorem sleepEntry_now (due : u.entryDue = true) : let w := sleepEntryStart u
    SameBut [.mfs, .tasks, .fabric, .bel] u w ∧ w.bel.step = entryStep u ∧ w.bel.entryAt = some u.tb.now ∧
      w.bel.counter = none ∧ w.fabric.held = [] ∧
      ∀ m : Fin 16, w.mfs[m].cfg = u.mfs[m].cfg ∧ ∀ r, w.mfs[m].state ≠ .opened r := by
  intro w
  obtain ⟨aborted, each⟩ := abortOpen_facts (s := u)
  obtain ⟨dropped, held⟩ := dropHeld_facts (s := abortOpen u)
  have same : SameBut [.mfs, .tasks, .fabric] u (dropHeld (abortOpen u)) :=
    (aborted.mono (by decide)).trans (dropped.mono (by decide))
  have ends : w = (dropHeld (abortOpen u)).modBel (fun b => { b with
      step := entryStep (dropHeld (abortOpen u)), entryAt := some (dropHeld (abortOpen u)).tb.now, counter := none,
      wakeDuringEntry := none }) := by
    show sleepEntryStart u = _
    unfold sleepEntryStart
    rw [if_neg (by rw [due]; decide)]
    generalize dropHeld (abortOpen u) = v
    dsimp only
    unfold entryStep
    cases v.bel.axis <;> rfl
  have mfs : (dropHeld (abortOpen u)).mfs = (abortOpen u).mfs := dropped .mfs (by decide)
  have step := entryStep_congr (u := u) (same .bel (by decide)) (same .axes (by decide)) (same .tb (by decide))
  have now : (dropHeld (abortOpen u)).tb.now = u.tb.now := congrArg Timebase.now (same .tb (by decide))
  rw [ends]
  generalize dropHeld (abortOpen u) = v at *
  refine ⟨?_, step, congrArg some now, rfl, held, fun m => ?_⟩
  · refine (same.mono (by decide)).trans ?_
    intro part other
    cases part <;> simp at other <;> rfl
  · show v.mfs[m].cfg = _ ∧ ∀ r, v.mfs[m].state ≠ _
    rw [mfs]
    exact each m

/-- R436: the frame of the kept axis that the entry waits for. -/
theorem handover_now {n : Frame} {gen : Nat} {a : Fin 4} {an : Anchor} (step : u.bel.step = .frame n gen)
    (axis : u.bel.axis = some a) (state : u.axes[a].state = .confirmed) (anchor : u.axes[a].anchor = some an)
    (numbering : u.axes[a].gen = gen) : sleepFrameHandover u =
      if 0 ≤ fdiff an.n (n + 1) ∧
          tnotBefore u.tb.now (tadd (predictFrom an u.axes[a].period (n + 1)) (u.axes[a].period / 131072)) = true
      then { u with bel := { u.bel with counter := some (n + 1), step := .flush u.tb.now } } else u := by
  refine (hand_eq step axis state anchor numbering).trans (ite_of_iff ?_ rfl rfl)
  rw [Bool.and_eq_true, decide_eq_true_eq]

/-- R419: the flush waits. -/
theorem flush_waits {since : TimeWord} (step : u.bel.step = .flush since) (waits : ¬ (u.fifo.records = 0 ∨
    u.tb.running = false ∨ tnotBefore u.tb.now (tadd since u.bel.flushWait) = true)) : sleepFlushEnd u = u := by
  unfold sleepFlushEnd
  rw [step]
  refine if_neg ?_
  simp only [Bool.or_eq_true, decide_eq_true_eq, Bool.not_eq_true', or_assoc]
  exact waits

/-! ### The way out (R438 to R440) -/

/-- The state in which a wake looks for a reference: its clusters are on their way (R440 step 2). -/
def wakeLooks (u : State) : State :=
  let v := foldS u.bel.wakeCl wakeCluster (u.modBel (fun b => { b with step := .relock }))
  noteBad (v.modTb (fun t => { t with refs := t.refs.map (fun r => { r with whole := r.present, bad1 := false, bad10 := false }) }))

theorem wakeSupplies_eq (step : u.bel.step = .waking) : wakeSuppliesValid u = wakeAcquire (wakeLooks u) := by
  unfold wakeSuppliesValid
  rw [step]
  rfl

theorem wakeLooks_facts : SameBut [.bel, .clusters, .fabric, .tb] u (wakeLooks u) ∧
    (wakeLooks u).bel = { u.bel with step := .relock } ∧
    (∀ k : Fin 8, (k ∈ u.bel.wakeCl → Woken u.clusters[k] (wakeLooks u).clusters[k]) ∧
      (k ∉ u.bel.wakeCl → (wakeLooks u).clusters[k] = u.clusters[k])) ∧
    (wakeLooks u).tb.now = u.tb.now ∧ (wakeLooks u).tb.active = u.tb.active ∧
    ∀ x : Fin 4, (wakeLooks u).tb.refs[x].role = u.tb.refs[x].role ∧ (wakeLooks u).tb.refs[x].present = u.tb.refs[x].present := by
  obtain ⟨woken, each⟩ := foldWake u (l := u.bel.wakeCl) (s := u.modBel (fun b => { b with step := .relock })) (fun _ => rfl)
  have bel := woken .bel (by decide)
  have tb := woken .tb (by decide)
  have begun : SameBut [.bel, .clusters, .fabric] u
      (foldS u.bel.wakeCl wakeCluster (u.modBel (fun b => { b with step := .relock }))) := by
    refine SameBut.trans ?_ (woken.mono (by decide))
    intro part other
    cases part <;> simp at other <;> rfl
  unfold wakeLooks
  dsimp only
  generalize foldS u.bel.wakeCl wakeCluster (u.modBel (fun b => { b with step := .relock })) = v at *
  have now : v.tb.now = u.tb.now := congrArg Timebase.now tb
  have active : v.tb.active = u.tb.active := congrArg Timebase.active tb
  refine ⟨?_, bel, fun k => ⟨fun mem => (each k).1 (.inr mem), (each k).2⟩, now, active, fun x => ?_⟩
  · refine (begun.mono (by decide)).trans ?_
    intro part other
    cases part <;> simp at other <;> rfl
  · let reset := v.modTb (fun t => { t with refs := t.refs.map (fun r =>
      { r with whole := r.present, bad1 := false, bad10 := false }) })
    have refs : v.tb.refs = u.tb.refs := congrArg Timebase.refs tb
    have here : reset.tb.refs[x] = { u.tb.refs[x] with whole := u.tb.refs[x].present, bad1 := false, bad10 := false } := by
      rw [← refs]
      exact map_at ..
    obtain ⟨b1, b10, noted, _⟩ := noteBad_notes reset x
    rw [noted, here]
    exact ⟨rfl, rfl⟩

/-- R440, R442: the reference in use before SLEEP, if it may be tried again, is tried first. -/
theorem wakeAcquire_same {x : Fin 4} (active : u.tb.active = some x) (role : u.tb.refs[x].role = .candidate)
    (there : u.tb.refs[x].present = true ∨ (x = 0 ∧ u.bel.refaAct = true)) :
    (wakeAcquire u).tb.job = .attempt x u.tb.now := by
  unfold wakeAcquire
  rw [active]
  dsimp only
  rw [if_pos ?_]
  · rfl
  · simp only [Bool.and_eq_true, Bool.or_eq_true, decide_eq_true_eq]
    exact ⟨role, there.symm⟩

/-- R440: the supplies of a wake are valid. -/
theorem wakeSupplies_facts (step : u.bel.step = .waking) : let w := wakeSuppliesValid u; let b := u.bel
    SameBut [.bel, .clusters, .fabric, .tb] u w ∧ w.bel = { b with step := .relock } ∧ w.tb.now = u.tb.now ∧
      (∀ k : Fin 8, k ∈ b.wakeCl → Woken u.clusters[k] w.clusters[k]) ∧
      (∀ k : Fin 8, k ∉ b.wakeCl → w.clusters[k] = u.clusters[k]) ∧
      (∀ x, u.tb.active = some x → u.tb.refs[x].role = .candidate →
        (u.tb.refs[x].present = true ∨ (x = 0 ∧ b.refaAct = true)) → w.tb.job = .attempt x u.tb.now) := by
  intro w b
  have ends : w = wakeAcquire (wakeLooks u) := wakeSupplies_eq step
  clear_value w
  subst ends
  obtain ⟨looks, bel, clusters, now, active, refs⟩ := wakeLooks_facts (u := u)
  obtain ⟨acquires, keepsNow⟩ := wakeAcquire_facts (s := wakeLooks u)
  have clustersKept : (wakeAcquire (wakeLooks u)).clusters = (wakeLooks u).clusters := acquires .clusters (by decide)
  refine ⟨looks.trans (acquires.mono (by decide)), (acquires .bel (by decide)).trans bel, keepsNow.trans now, fun k mem => ?_,
    fun k mem => ?_, fun x used role there => ?_⟩
  · rw [clustersKept]
    exact (clusters k).1 mem
  · rw [clustersKept]
    exact (clusters k).2 mem
  · obtain ⟨roleKept, presentKept⟩ := refs x
    have tried := wakeAcquire_same (u := wakeLooks u) (active.trans used) (roleKept.trans role)
      (by rw [presentKept, bel]; exact there)
    rw [tried, now]

end

/-- Settles O58. -/
theorem sleepComesAndGoes : Obligations.SleepComesAndGoes := by
  unfold Obligations.SleepComesAndGoes
  intro s d u b
  refine ⟨fun due => ⟨_, rfl, ?_⟩, fun not => next_congr (if_pos (by rw [show u.entryDue = false from not]; rfl)),
    fun n gen a step axis => ?_, fun since step => ?_, fun step => ⟨_, rfl, powerdown_facts step⟩,
    fun step => ⟨_, rfl, wakeSupplies_facts step⟩, fun a n t rest axis counter state anchor pending => ?_⟩
  · obtain ⟨same, step, rest⟩ := sleepEntry_now due
    exact ⟨same, step.trans rfl, rest⟩
  · intro x
    refine ⟨fun lost => next_congr (hand_lost step axis lost), fun an state anchor numbering => ?_⟩
    have row := handover_now step axis state anchor numbering
    exact ⟨fun passed => next_congr (row.trans (if_pos passed)), fun not => next_congr (row.trans (if_neg not))⟩
  · intro ended
    exact ⟨fun is => ⟨_, rfl, flush_over step is⟩, fun waits => next_congr (flush_waits step waits)⟩
  · have row := kept_eq axis counter state anchor pending
    exact ⟨fun past => next_congr (row.trans (if_pos past)),
      fun early => next_congr (row.trans (if_neg (by rw [early]; decide)))⟩

end Sys2Proof.Machine
end

section
/-! PROOF. Alignment of several devices: the train, the return pulse, the tracking and the slew (R444 to R456). -/
namespace Sys2Proof.Machine
open Sys2Proof

/-! ### The train (R445, R446, R448) -/

/-- R446: the width of a pulse of the train. -/
def trainWidth (t : Train) : Nat :=
  if t.k % 65 = 0 then 3000000 else if t.word.getLsbD (64 - t.k % 65) then 2000000 else 1000000

/-- R448: a width within half a microsecond of a nominal one reads as it. -/
theorem readWidth_near {e : Int} (above : -500000 < e) (below : e < 500000) :
    readWidth (3000000 + e) = .start ∧ readWidth (2000000 + e) = .one ∧ readWidth (1000000 + e) = .zero := by
  unfold readWidth
  refine ⟨?_, ?_, ?_⟩
  · rw [if_neg (by omega), if_pos (by omega)]
  · rw [if_neg (by omega), if_neg (by omega), if_pos (by omega)]
  · rw [if_neg (by omega), if_neg (by omega), if_neg (by omega), if_pos (by omega)]

theorem readWidth_train (t : Train) {e : Int} (above : -500000 < e) (below : e < 500000) :
    readWidth ((trainWidth t : Nat) + e) =
      if t.k % 65 = 0 then .start else if t.word.getLsbD (64 - t.k % 65) then .one else .zero := by
  obtain ⟨start, one, zero⟩ := readWidth_near above below
  unfold trainWidth
  split
  · exact start
  · split
    · exact one
    · exact zero

section
variable {u : State}

/-- R445, R446: the leader sends the next pulse of its train. -/
theorem sendPulse_now {t : Train} (role : u.sync.role = .leader) (train : u.sync.train = some t) (locked : u.tbLocked = true)
    (past : tnotBefore u.tb.now (tadd t.g (t.k * u.sync.period)) = true) :
    sendPulse u = { u with sync := { u.sync with
      out := ((tadd t.g (t.k * u.sync.period), trainWidth t) :: u.sync.out).take 8,
      train := some { t with
        k := t.k + 1, word := if t.k % 65 = 0 then tadd t.g (t.k * u.sync.period) else t.word } } } := by
  rw [pulse_eq role train locked past, train_eq]
  rfl

/-- R444, R447: SYNCOUT is high while the newest pulse lasts. -/
theorem syncout_high {rise z : TimeWord} {width : Nat} {train : Option Train} (role : u.sync.role = .leader)
    (locked : u.tbLocked = true) (driven_ : u.padsOff = false) (begun : tnotBefore z rise = true)
    (lasts : tnotBefore z (tadd rise width) = false) :
    ({ u with sync := { u.sync with out := ((rise, width) :: u.sync.out).take 8, train := train } } : State).syncoutPad z =
      .high := by
  have on : (((rise, width) :: u.sync.out).take 8).any (fun x => tnotBefore z x.1 && !tnotBefore z (tadd x.1 x.2)) = true := by
    rw [List.take_succ_cons, List.any_cons, begun, lasts]
    rfl
  unfold State.syncoutPad
  dsimp only
  rw [role, on]
  show (if u.padsOff = true then Pad.hiZ else driven false (u.tbLocked && true)) = _
  rw [driven_, locked]
  rfl

/-- R455: a follower sends its return pulse. -/
theorem returnPulse_now (role : u.sync.role = .follower) (ret : u.sync.ret = true)
    (state : u.sync.state = .locked ∨ u.sync.state = .hold) {rise : TimeWord}
    (at_ : tadd u.sync.s ((u.sync.period / 2 : Nat) + tdiff u.tb.now (tadd u.sync.s (u.sync.period / 2 : Nat)) /
      (max 1 u.sync.period : Nat) * u.sync.period) = rise)
    (fresh : ∀ o os, u.sync.out = o :: os → o.1 ≠ rise) :
    returnPulse u = { u with sync := { u.sync with out := ((rise, 1000000) :: u.sync.out).take 8 } } := by
  have unsent : (match u.sync.out with | (t, _) :: _ => decide (t = rise) | [] => false) = false := by
    cases out : u.sync.out with
    | nil => rfl
    | cons o os => exact decide_eq_false (fresh o os out)
  have live : (match u.sync.state with | .locked | .hold => true | _ => false) = true := by
    rcases state with state | state <;> rw [state]
  unfold returnPulse
  dsimp only
  rw [at_]
  refine (if_pos ?_).trans rfl
  rw [role, ret]
  refine Bool.and_eq_true_iff.2 ⟨Bool.and_eq_true_iff.2 ⟨rfl, live⟩, ?_⟩
  exact congrArg not unsent

/-! ### The follower (R448, R452, R453) -/

/-- R452: a rising edge of the train in LOCKED. -/
theorem rise_tracks {t : TimeWord} {y z : Sync} (state : y.state = .locked) (rises : z = followRise t y) :
    let v := tdiff (tadd y.s y.delay) t - y.r
    z.s = tadd y.s y.period ∧ z.msg = y.msg ∧ z.rise = some (t, y.s) ∧
      (v.natAbs ≤ y.catchTu → z.rejected = 0 ∧ z.lastPass = t ∧ z.state = .locked ∧ z.errs = y.errs ∧
        (y.n + 1 < y.avg → z.sum = y.sum + v ∧ z.n = y.n + 1 ∧ z.r = y.r) ∧
        (y.avg ≤ y.n + 1 → z.error = divEven (y.sum + v) (max 1 (y.n + 1)) ∧ z.r = y.r + z.error ∧ z.sum = 0 ∧ z.n = 0)) ∧
      (y.catchTu < v.natAbs → z.errs = y.errs + 1 ∧ z.rejected = y.rejected + 1 ∧ z.r = y.r ∧ z.sum = y.sum ∧ z.n = y.n ∧
        z.state = if y.avg ≤ y.rejected + 1 then .hold else .locked) := by
  intro v
  rw [rise_locked state] at rises
  subst rises
  by_cases within : v.natAbs ≤ y.catchTu
  · obtain ⟨s, msg, rejected, last, stateEq, errs, adds, closes⟩ := track_in within
    exact ⟨s, msg, rfl, fun _ => ⟨rejected, last, stateEq.trans state, errs, adds, closes⟩,
      fun beyond => absurd within (Nat.not_le.2 beyond)⟩
  · obtain ⟨s, msg, errs, rejected, r, sum, n, stateEq⟩ := track_out (Nat.not_le.1 within)
    rw [state] at stateEq
    exact ⟨s, msg, rfl, fun is => absurd is within, fun _ => ⟨errs, rejected, r, sum, n, stateEq⟩⟩

/-- R452: no rising edge has passed for four periods. -/
theorem holdTimeout_now (role : u.sync.role = .follower) (state : u.sync.state = .locked)
    (past : tnotBefore u.tb.now (tadd u.sync.lastPass (4 * u.sync.period)) = true) :
    holdTimeout u = { u with sync := { u.sync with state := .hold } } := by
  unfold holdTimeout
  dsimp only
  rw [if_pos (by rw [role, state, past]; rfl)]
  rfl

/-- R453: the slew is over, or this fabric cycle has had its own. -/
theorem slew_not (not : u.sync.r = 0 ∨ u.sync.slewed = some u.cycleTick) : slew u = u := by
  unfold slew
  refine if_pos ?_
  simp only [Bool.or_eq_true, decide_eq_true_eq]
  rcases not with zero | had
  · exact .inl (.inl (.inl zero))
  · exact .inr had

theorem syncStep_not (not : u.stepFree = false) : syncStep u = u := by
  unfold syncStep
  rw [if_pos (by rw [not]; rfl)]

end

/-- Settles O59. -/
theorem syncTrainAligns : Obligations.SyncTrainAligns := by
  unfold Obligations.SyncTrainAligns
  intro s d u y
  refine ⟨fun t role train locked => ?_, fun role ret state => ?_, fun falling t started past => ?_, spell_word,
    fun free running => ⟨_, rfl, step_facts free running⟩, fun not => next_congr (syncStep_not not),
    fun role state past => next_congr (holdTimeout_now role state past), fun some state running fresh => ?_,
    fun not => next_congr (slew_not not)⟩
  · intro i at_ past width w
    exact ⟨next_congr (sendPulse_now role train locked past),
      fun driven z begun lasts => syncout_high role locked driven begun lasts, fun e above below => readWidth_train t above below⟩
  · intro half rise fresh
    exact next_congr (returnPulse_now role ret state rfl fresh)
  · obtain ⟨same, sync⟩ := edge_facts (falling := falling) started past
    refine ⟨_, rfl, same, fun other => sync.trans (if_neg other), fun role rising state => ?_, fun r x role falls rise => ?_⟩
    · intro v z
      refine rise_tracks state (sync.trans ?_)
      rw [if_pos role, rising]
      rfl
    · intro p
      have falls : (syncEdge falling t u).sync = followFall t y := by
        rw [sync, if_pos role, if_pos falls]
      exact ⟨fun idle short => falls.trans (fall_idle rise idle short), fun idle long => falls.trans (fall_start rise idle long),
        fun m l b msg last spaced bit room => falls.trans (fall_data rise msg last spaced bit room)⟩
  · intro f move m
    exact next_congr ((slew_eq some state running fresh).trans rfl)

end Sys2Proof.Machine
end
